-- ==== Sys2Proof/Word.lean ====
section
/-! DEFINITION. The words of the machine: bytes, words, doubles, lane masks, instruction words and keyed tables
(R4, R5, R46). -/

namespace Sys2Proof

/-- R5: a byte is 8 bits. -/
abbrev Byte := BitVec 8
/-- R5: a word is 32 bits; one lane of one vector register. -/
abbrev W32 := BitVec 32
/-- R5: a double is 64 bits. -/
abbrev W64 := BitVec 64
/-- A set of lanes, bit L for lane L (R15). -/
abbrev Mask := BitVec 32
/-- R46: an instruction word. -/
abbrev IWord := BitVec 96

/-- A table of entries by key; the canonical form has strictly rising keys. -/
abbrev Tbl (α : Type) := List (Nat × α)

/-- Cells of `w` bits by index; an index that is not listed reads as 0, and no entry holds 0 in the canonical form. -/
abbrev Cells (w : Nat) := Tbl (BitVec w)

end Sys2Proof
end

