-- ==== Sys2Proof/Syntax.lean ====
section
/-! DEFINITION. The operands and the instructions: one constructor of `Instr` for each row of spec/opcode_table.json,
the instruction words of chapters 02 and 10 to 13 and the indivisible events of the units of chapters 03 to 20. -/

namespace Sys2Proof

/-! ## Codes shared by several opcodes (R55, R56) -/

/-- R55 `ITYPE`. -/
inductive IType where
  | s32 | n32 | s16x2 | s8x4 | n8x4 | s4x8
  deriving DecidableEq, Repr

/-- R55 `FTYPE`. -/
inductive FType where
  | f32 | f16 | bf16 | f16x2 | bf16x2
  deriving DecidableEq, Repr

/-- R56 `RND`. -/
inductive Rnd where
  | rne | rtz | rdn | rup
  deriving DecidableEq, Repr

/-- R56 `CMP`. -/
inductive Cmp where
  | eq | ne | lt | le | gt | ge
  deriving DecidableEq, Repr

/-- R56 `FORM`: predicate, 1 or 0, all ones or 0. -/
inductive Form where
  | p | b | m
  deriving DecidableEq, Repr

/-- R56 `WID`: lane groups of 32, 16, 8 or 4. -/
inductive Wid where
  | w32 | w16 | w8 | w4
  deriving DecidableEq, Repr

/-- R56 ordering. -/
inductive Ord where
  | rlx | acq | rel | ar
  deriving DecidableEq, Repr

/-- R56, R172 scope codes. -/
inductive Scope where
  | team | clu | die | dev | app | io | peer | sys
  deriving DecidableEq, Repr

/-- R329 sizes. -/
inductive Size where
  | s8 | n8 | s16 | n16 | w32 | w64
  deriving DecidableEq, Repr

/-- R59 space of `LD` and `ST`. -/
inductive Space where
  | glb | cst | spl
  deriving DecidableEq, Repr

/-- R162 element sizes 32, 16, 8, 4. -/
inductive Elem where
  | e32 | e16 | e8 | e4
  deriving DecidableEq, Repr

/-- R336 atomic operations. -/
inductive AOp where
  | add | min | max | and | or | xor | exch | inc
  deriving DecidableEq, Repr

/-- R336 atomic types. -/
inductive AType where
  | s32 | n32 | n64 | f32
  deriving DecidableEq, Repr

/-- R304 reduction operations. -/
inductive ROp where
  | addS | minS | maxS | minN | maxN | and | or | xor
  deriving DecidableEq, Repr

/-- R302 votes. -/
inductive VOp where
  | all | any | ballot | uni
  deriving DecidableEq, Repr

/-- R278 predicate operations. -/
inductive POp where
  | and | or | xor | andn
  deriving DecidableEq, Repr

/-- R305 key comparisons. -/
inductive MatchBy where
  | bits | f32 | s32 | n32
  deriving DecidableEq, Repr

/-- R276 forms of `MOV`. -/
inductive MovMode where
  | direct | fromIdx | toIdx
  deriving DecidableEq, Repr

/-- R279 forms of `PMOV`. -/
inductive PmovForm where
  | pk | kp | pp
  deriving DecidableEq, Repr

/-- R287 special functions. -/
inductive SfuOp where
  | rcp | rsq | sqrt | ex2 | lg2 | sin | cos | tanh | sigm
  deriving DecidableEq, Repr

/-- R289 rounding of `CVT.to`: the slot's own, or an override. -/
inductive CvtRnd where
  | slot | rne | rtz | rdn | rup | sr
  deriving DecidableEq, Repr

/-- R291 element widths. -/
inductive PackW where
  | e16 | e8 | e4
  deriving DecidableEq, Repr

/-- R346 copy directions. -/
inductive CpyDir where
  | gg | gl2gal | gal2gl | gl2hall | hall2gl | gl2ds | ds2gl
  deriving DecidableEq, Repr

/-- R350 barrier levels. -/
inductive BarLvl where
  | team | clu | die
  deriving DecidableEq, Repr

/-- R352 selections of `QSTAT`. -/
inductive QSel where
  | pub | rd | ready
  deriving DecidableEq, Repr

/-- R379 trace modes. -/
inductive TraceMode where
  | near | any | all
  deriving DecidableEq, Repr

/-! ## Operands -/

/-- R51: the guard predicate and its negate bit. -/
structure Guard where
  neg : Bool
  p : BitVec 3
  deriving DecidableEq, Repr

/-- R52: the scheduling hints. -/
structure Hints where
  stall : BitVec 3
  yield : Bool
  wait : BitVec 3
  last : Bool
  deriving DecidableEq, Repr

/-- R23: the destination field. -/
inductive Dst where
  | vec (i : BitVec 8)
  | nwb
  | uni (i : BitVec 6)
  | pred (i : BitVec 3)
  | cls3 (i : BitVec 8)
  deriving DecidableEq, Repr

/-- R25: a source operand. `win` counts slots from 0 for `w1`; `const` is the index less 0x10. -/
inductive Src where
  | vec (neg : Bool) (i : BitVec 8)
  | uni (i : BitVec 6)
  | mask (i : BitVec 4)
  | tile (i : BitVec 3)
  | net (i : BitVec 2)
  | spec (i : BitVec 8)
  | win (neg : Bool) (k : BitVec 3)
  | const (neg : Bool) (i : BitVec 4)
  | stair (j : BitVec 2) (k : BitVec 3)
  | imm (form : BitVec 2)
  | pred (neg : Bool) (i : BitVec 3)
  deriving DecidableEq, Repr

/-- The fields every standard word has (R46), but for `OP`, `SUB`, `MOD` and `IMM`. -/
structure Fmt where
  g : Guard
  h : Hints
  d : Dst
  a : Src
  b : Src
  c : Src
  deriving DecidableEq, Repr

/-- R63: a half source. -/
inductive HSrc where
  | vec (i : BitVec 7)
  | win (k : BitVec 3)
  | const (i : BitVec 4)
  deriving DecidableEq, Repr

/-- R64: the half-operation opcodes. -/
inductive HOp where
  | hnop | faddF32 | fsubF32 | fmulF32 | ffmaF32 | fminF32 | fmaxF32
  | faddF16x2 | fmulF16x2 | ffmaF16x2 | faddBf16x2 | fmulBf16x2 | ffmaBf16x2
  | iaddS32 | isubS32 | imulS32 | imadS32 | iminS32 | imaxS32 | iminN32 | imaxN32
  | and | or | xor | andn | shl | shr | sar | mov
  | dp4S8x4 | dp4N8x4 | dp8S4x8 | dp2S16x2
  deriving DecidableEq, Repr

/-- R63: a half-operation. -/
structure Half where
  op : HOp
  negA : Bool
  negZ : Bool
  nwb : Bool
  d : BitVec 7
  a : HSrc
  b : HSrc
  c : HSrc
  deriving DecidableEq, Repr

/-- R62: the hints of a paired word. -/
structure PHints where
  stall : BitVec 3
  yield : Bool
  last : Bool
  deriving DecidableEq, Repr

/-- R67: the decode check that failed. -/
inductive DecodeCause where
  | op | sub | mod | cls | operand | hop
  deriving DecidableEq, Repr

/-! ## Operands of the units' events -/

/-- R427: a mailbox message; `arg` holds bytes 8 to 31, byte 8 in its low bits. -/
structure Msg where
  opc : Byte
  src : Byte
  dst : Byte
  zero3 : Byte
  mseq : W32
  arg : BitVec 192
  deriving DecidableEq, Repr

/-- R468: a structure instance in which an error is detected. -/
structure ErrUnit where
  socket : Nat
  code : Nat
  unit : Nat
  deriving DecidableEq, Repr

/-- R472: what the sensors of the module read, an input from outside. -/
structure Sensors where
  power : Nat
  temps : List Nat
  coolant : Nat
  linkBytes : Nat
  deriving DecidableEq, Repr

/-! ## Instructions -/

/-- One constructor for each row of spec/opcode_table.json. `f` holds the fields of a standard word, `imm` the imm20 of
an opcode whose bits 19:0 are marked imm in R57 to R60; extension fields stand under their own names. -/
inductive Instr where
  -- 10: integer, address, moves (R262 to R279)
  | nop (h : Hints)
  | iadd (f : Fmt) (imm : BitVec 20) (t : IType) (sat : Bool)
  | isub (f : Fmt) (imm : BitVec 20) (t : IType) (sat : Bool)
  | imul (f : Fmt) (imm : BitVec 20) (t : IType)
  | imulh (f : Fmt) (imm : BitVec 20) (t : IType)
  | imad (f : Fmt) (imm : BitVec 20) (t : IType) (sat : Bool)
  | imadw (f : Fmt) (imm : BitVec 20) (t : IType)
  | imin (f : Fmt) (imm : BitVec 20) (t : IType)
  | imax (f : Fmt) (imm : BitVec 20) (t : IType)
  | iabs (f : Fmt) (imm : BitVec 20) (t : IType) (sat : Bool)
  | andB (f : Fmt) (imm : BitVec 20)
  | orB (f : Fmt) (imm : BitVec 20)
  | xorB (f : Fmt) (imm : BitVec 20)
  | andnB (f : Fmt) (imm : BitVec 20)
  | notB (f : Fmt) (imm : BitVec 20)
  | shl (f : Fmt) (imm : BitVec 20)
  | shr (f : Fmt) (imm : BitVec 20)
  | sar (f : Fmt) (imm : BitVec 20)
  | rotl (f : Fmt) (imm : BitVec 20)
  | funsh (f : Fmt) (imm : BitVec 20) (right : Bool)
  | bfx (f : Fmt) (imm : BitVec 20) (t : IType)
  | bfi (f : Fmt) (imm : BitVec 20)
  | popc (f : Fmt) (imm : BitVec 20)
  | clz (f : Fmt) (imm : BitVec 20)
  | ctz (f : Fmt) (imm : BitVec 20)
  | brev (f : Fmt) (imm : BitVec 20)
  | iset (f : Fmt) (imm : BitVec 20) (form : Form) (t : IType) (cmp : Cmp)
  | set64 (f : Fmt) (imm : BitVec 20) (form : Form) (uns : Bool) (cmp : Cmp)
  | sel (f : Fmt) (imm : BitVec 20)
  | lea (f : Fmt) (off : BitVec 12) (shift : BitVec 3)
  | add64 (f : Fmt) (imm : BitVec 20)
  | sub64 (f : Fmt) (imm : BitVec 20)
  | mov (f : Fmt) (imm : BitVec 20) (mode : MovMode)
  | movi (f : Fmt) (imm : BitVec 20) (form : BitVec 2)
  | pset (f : Fmt) (op : POp)
  | pmov (f : Fmt) (form : PmovForm)
  -- 10: floating point, conversion, dot products (R280 to R293)
  | fadd (f : Fmt) (imm : BitVec 20) (t : FType) (r : Rnd) (sat : Bool)
  | fsub (f : Fmt) (imm : BitVec 20) (t : FType) (r : Rnd) (sat : Bool)
  | fmul (f : Fmt) (imm : BitVec 20) (t : FType) (r : Rnd) (sat : Bool)
  | ffma (f : Fmt) (imm : BitVec 20) (t : FType) (r : Rnd) (sat : Bool)
  | fmin (f : Fmt) (imm : BitVec 20) (t : FType)
  | fmax (f : Fmt) (imm : BitVec 20) (t : FType)
  | fset (f : Fmt) (imm : BitVec 20) (form : Form) (t : FType) (cmp : Cmp) (unord : Bool)
  | frnd (f : Fmt) (imm : BitVec 20) (t : FType) (r : Rnd)
  | fclas (f : Fmt) (imm : BitVec 20) (t : FType)
  | fscl (f : Fmt) (imm : BitVec 20) (r : Rnd)
  | sfu (f : Fmt) (imm : BitVec 20) (op : SfuOp)
  | sfuQueueEntry (part : Nat)
  | sfuResultWrite (part : Nat) (op : Nat)
  | cvtTo (f : Fmt) (imm : BitVec 20) (r : CvtRnd) (slot : BitVec 3)
  | cvtFrom (f : Fmt) (imm : BitVec 20) (slot : BitVec 3)
  | cvtiI2f (f : Fmt) (imm : BitVec 20) (t : IType) (r : Rnd)
  | cvtiF2i (f : Fmt) (imm : BitVec 20) (t : IType) (r : Rnd) (sat : Bool)
  | pack (f : Fmt) (imm : BitVec 20) (w : PackW) (sat : Bool)
  | unpk (f : Fmt) (imm : BitVec 20) (w : PackW)
  | dp2 (f : Fmt) (sh : BitVec 5)
  | dp4 (f : Fmt) (imm : BitVec 20) (t : IType)
  | dp8 (f : Fmt) (imm : BitVec 20)
  | hdp2 (f : Fmt) (imm : BitVec 20) (t : FType) (r : Rnd)
  | pairedWord (g : Guard) (h : PHints) (h1 h2 : Half)
  -- 11: cross-lane (R295 to R305)
  | setnetRaw (f : Fmt)
  | setnetPerm (f : Fmt)
  | perm (f : Fmt) (w : Wid)
  | slide (f : Fmt) (imm : BitVec 20) (down : Bool) (w : Wid) (fillC : Bool)
  | bcast (f : Fmt) (imm : BitVec 20) (w : Wid)
  | vote (f : Fmt) (op : VOp) (w : Wid)
  | elect (f : Fmt) (w : Wid)
  | redux (f : Fmt) (op : ROp) (w : Wid)
  | scan (f : Fmt) (op : ROp) (w : Wid) (excl : Bool)
  | matchK (f : Fmt) (by_ : MatchBy) (w : Wid)
  -- 11: control, masks, traps, special registers (R306 to R324)
  | bra (f : Fmt) (off : BitVec 20)
  | brx (f : Fmt)
  | call (f : Fmt) (off : BitVec 20)
  | callx (f : Fmt)
  | ret (f : Fmt)
  | loop (f : Fmt) (endN : BitVec 10) (cnt : BitVec 10)
  | exit (f : Fmt)
  | join (f : Fmt)
  | leave (f : Fmt)
  | waitm (f : Fmt)
  | mset (f : Fmt)
  | mget (f : Fmt)
  | trap (f : Fmt) (code : BitVec 16)
  | bkpt (f : Fmt) (code : BitVec 16)
  | rte (f : Fmt)
  | emur (f : Fmt) (shiftRes : Bool)
  | srd (f : Fmt)
  | swr (f : Fmt)
  | nonInstructionEncoding (w : IWord) (cause : DecodeCause)
  -- 12: memory (R326 to R344)
  | ld (f : Fmt) (size : Size) (space : Space) (ord : Ord) (scope : Scope) (off : BitVec 20)
  | st (f : Fmt) (size : Size) (space : Space) (ord : Ord) (scope : Scope) (off : BitVec 20)
  | ldc (f : Fmt) (wide : Bool) (off : BitVec 20)
  | prf (f : Fmt) (l2 : Bool) (off : BitVec 20)
  | ldg (f : Fmt) (col : Bool) (e : Elem) (off : BitVec 20)
  | stg (f : Fmt) (col : Bool) (e : Elem) (off : BitVec 20)
  | ldh (f : Fmt) (size : Size) (off : BitVec 20)
  | sth (f : Fmt) (size : Size) (off : BitVec 20)
  | spl (f : Fmt) (off : BitVec 20)
  | fil (f : Fmt) (off : BitVec 20)
  | atom (f : Fmt) (op : AOp) (t : AType) (ord : Ord) (scope : Scope) (off : BitVec 20)
  | cas (f : Fmt) (wide : Bool) (ord : Ord) (scope : Scope) (off : BitVec 20)
  | red (f : Fmt) (op : AOp) (t : AType) (rel : Bool) (scope : Scope) (off : BitVec 20)
  | atomo (f : Fmt) (op : AOp) (t : AType) (scope : Scope) (off : BitVec 20)
  | orderedAtomicApply (grid item : Nat)
  | ldx (f : Fmt) (scope : Scope) (off : BitVec 20)
  | fence (f : Fmt) (ord : Ord) (scope : Scope)
  | fencex (f : Fmt) (scope : Scope) (a b : BitVec 3)
  | probe (f : Fmt) (vcs : BitVec 7)
  | flushProbeReturn (wid vc dst : Nat)
  -- 12: copies, tags, barriers, stairs, tasks (R345 to R357)
  | cpy (f : Fmt) (dir : CpyDir) (tag : BitVec 6)
  | cpyt (f : Fmt) (col : Bool) (e : Elem) (rows : Byte) (tag : BitVec 6)
  | cpyxDie (f : Fmt) (d : BitVec 6) (tag : BitVec 6)
  | cpyxPeer (f : Fmt) (port : BitVec 2) (tag : BitVec 6)
  | copyChunkComplete (op : Nat)
  | asyncOperationComplete (op : Nat)
  | twait (f : Fmt) (all acq : Bool)
  | tfst (f : Fmt)
  | tclr (f : Fmt)
  | barArv (f : Fmt) (lvl : BarLvl) (n : BitVec 4)
  | barSync (f : Fmt) (lvl : BarLvl) (n : BitVec 4)
  | pubq (f : Fmt) (j : BitVec 2)
  | stairValueArrival (grid core item ch : Nat)
  | stairStall (wid : Nat)
  | qstat (f : Fmt) (j : BitVec 2) (k : BitVec 3) (sel : QSel)
  | nrec (f : Fmt) (node : BitVec 6)
  | launch (f : Fmt)
  | chwait (f : Fmt) (all : Bool)
  | bkacq (f : Fmt)
  | bkdone (f : Fmt)
  | returnStackRefill (die : Nat)
  -- 13: matrix engine (R359 to R372)
  | tdesc (f : Fmt)
  | mma (f : Fmt) (acc16 va : Bool) (slot : BitVec 3) (col0 : BitVec 3) (kstep : Byte)
  | mxPassComplete (core : Nat)
  | mzero (f : Fmt) (g : BitVec 6)
  | mlda (f : Fmt) (gal : Bool) (col0 : BitVec 3)
  | msta (f : Fmt) (gal : Bool) (slot : BitVec 3) (row0 : BitVec 6) (col0 : BitVec 3)
  | mrd (f : Fmt) (row0 : BitVec 6) (col : BitVec 7)
  | mwr (f : Fmt) (col : BitVec 7)
  | mlds (f : Fmt) (gal : Bool) (e0 : BitVec 13) (slot : BitVec 3)
  -- 13: render engines and rays (R373 to R383)
  | bndp (f : Fmt)
  | dice (f : Fmt) (tag : BitVec 6)
  | rast (f : Fmt) (grid : BitVec 7) (tag : BitVec 6)
  | rslv (f : Fmt) (tent : Bool) (tag : BitVec 6)
  | smplWr (f : Fmt) (e0 : BitVec 6)
  | smplRd (f : Fmt) (e0 : BitVec 6)
  | trace (f : Fmt) (mode : TraceMode) (mask : Byte) (pw : BitVec 6) (miss : BitVec 6)
  | traceReturn (id : Nat)
  | shaderBinLaunch (die : Nat) (entry : Nat)
  | shaderBinTimer (die : Nat) (entry : Nat)
  | trhit (f : Fmt) (field : BitVec 3)
  | trqry (f : Fmt) (sel : BitVec 3)
  -- 02, 06, 07: fetch, results, store queues, L1 and homes
  | icacheFill (grid core block : Nat)
  | loadResultWrite (wid : Nat)
  | storeQueueDepart (wid : Nat)
  | writeAcknowledge (core req : Nat)
  | mergingFillReturn (core line : Nat)
  | l1Eviction (core line : Nat)
  | homeRecall (line : Nat)
  | homeAluUpdate (core req : Nat)
  -- 03, 05: dispatch, parameters, active sets, swaps, retirement, work graph
  | teamDispatch
  | placementHold (grid : Nat)
  | paramLoad (wid : Nat)
  | activeSetFill (part : Nat)
  | stalledWarpExchange (part wid : Nat)
  | pendingAgeExchange (part : Nat)
  | yieldExchange (part wid : Nat)
  | swapOut (wid : Nat)
  | swapIn (part : Nat)
  | forcedSwapIn (part : Nat)
  | teamRetire (tid : Nat)
  | gridRetire (grid : Nat)
  | nodeCountLaunch (grid node : Nat)
  | nodeTimerExpiry (grid node : Nat)
  | nodeFinalLaunch (grid node : Nat)
  | conditionalNodePredicate (grid node : Nat)
  -- 06, 18: fault records, pre-emption
  | faultRecordWrite (grid : Nat)
  | faultSlotRecheck (grid : Nat)
  | recordResume (grid seq : Nat)
  | preemptRequest (grid : Nat)
  | preemptSave (tid : Nat)
  | teamRestore (tid : Nat)
  -- 17: queues and packets
  | doorbellWrite (qid : Nat) (val : W32)
  | queuePoll (qid : Nat)
  | launchPacket (qid : Nat)
  | framePacket (qid : Nat)
  | signalPacket (qid : Nat)
  | nopPacket (qid : Nat)
  | handlerPacketWrite (qid : Nat)
  | handlerSlotRecheck (qid : Nat)
  -- 17 to 20: commands and mailboxes
  | qcreate (m : Msg)
  | qdestroy (m : Msg)
  | qresume (m : Msg)
  | qstop (m : Msg)
  | gterm (m : Msg)
  | release (m : Msg)
  | unresolvable (m : Msg)
  | inval (m : Msg)
  | asidtab (m : Msg)
  | dbgattach (m : Msg)
  | dbgdetach (m : Msg)
  | peerbind (m : Msg)
  | fwstage (m : Msg)
  | fwactivate (m : Msg)
  | fwfuse (m : Msg)
  | attest (m : Msg)
  | summitMailboxMessage (m : Msg)
  | mgRspPop
  | managementRegisterWrite (off : Nat) (val : W64)
  -- 17, 19, 20: failures, boot, power, outside agents
  | schedulerStateLoss (imem : Bool) (bad : List Nat) (verifies : Bool)
  | linkFailure (a b : Nat)
  | moduleReset
  | trainingTimeout (socket : Nat)
  | computeDieTrained (socket : Nat)
  | exwardPortTrained (port : Nat) (report : List Byte)
  | fullServiceTransition
  | correctedError (u : ErrUnit) (addr : Nat)
  | uncorrectableError (u : ErrUnit) (addr : Nat)
  | filterViolation (socket : Nat) (unit : Nat) (addr : Nat)
  | telemetryRecord (x : Sensors)
  | powerControlTick (x : Sensors)
  | thermalShutdown (socket : Nat)
  | pcieWrite (port : Nat) (relaxed : Bool) (addr : Nat) (bytes : List Byte)
  | exwardPeerWrite (port : Nat) (asid : Nat) (va : Nat) (bytes : List Byte)
  | applicationCoreAccess (write : Bool) (addr : Nat) (bytes : List Byte)
  | pcieDeviceRead (port : Nat) (addr : Nat) (len : Nat)
  | memoryDieTrained (socket : Nat)
  | exwardLinkFailure (port : Nat)
  | renderFaultSuspend (op : Nat)
  | stageWriteComplete
  | powerLoss
  deriving DecidableEq, Repr

end Sys2Proof
end

