-- ==== Sys2Proof/Machine/State.lean ====
section
/-! DEFINITION. The state of the module: every piece of state the spec names, as plain data, and the state after reset.
INVENTORY.md lists each with its rule. Tables are keyed lists; an unlisted cell reads as 0. -/

namespace Sys2Proof.Machine

open Sys2Proof

/-! ## Launch records (R112 to R114) -/

/-- R114: a format slot. -/
structure FmtSlot where
  seed : W64
  elem : Nat
  rmode : Nat
  special : Bool
  scale : Bool
  deriving DecidableEq, Repr

/-- R112, R113: the fields of a launch record. -/
structure LaunchRec where
  entry : Nat
  paramBase : Nat
  gx : Nat
  gy : Nat
  gz : Nat
  tx : Nat
  ty : Nat
  tz : Nat
  cx : Nat
  cy : Nat
  cz : Nat
  block : Bool
  dieMask : Nat
  vec : Nat
  uni : Nat
  tile : Nat
  net : Nat
  accGran : Nat
  gallery : Nat
  barTeam : Nat
  barClu : Nat
  barDie : Nat
  ordered : Bool
  replay : Bool
  priority : Nat
  traceDepth : Nat
  payloadRegs : Nat
  faultqLog2 : Nat
  payloadGal : Nat
  nodeCount : Nat
  stairEn : Nat
  stairDist : W32
  paramWords : Nat
  stairDef : List W32
  faultqBase : Nat
  emuEntry : Nat
  handlerQ : Nat
  parent : Nat
  nodeTable : Nat
  dieScratch : Nat
  spillBytes : Nat
  format : List FmtSlot
  doneAddr : Nat
  doneValue : W64
  deriving DecidableEq, Repr

/-! ## Targets and pending work -/

/-- R145, R174, R452: where a translated access is performed. -/
inductive Sp where
  /-- region 0, by physical address -/
  | mem
  /-- die scratch of the team's die group, by offset -/
  | scratch
  /-- the team's gallery -/
  | gallery
  /-- the hall the team holds -/
  | hall
  /-- the lane's spill area -/
  | spill
  /-- a doorbell page: key QID * 16384 + offset (R433) -/
  | doorbell
  /-- region 2 (R452) -/
  | pcie
  deriving DecidableEq, Repr

/-- A location: a byte of a space (R174). -/
structure Loc where
  sp : Sp
  a : Nat
  deriving DecidableEq, Repr

/-- One lane's access. -/
structure LaneLoc where
  lane : Nat
  loc : Loc
  deriving DecidableEq, Repr

/-- What a pending result is (R78, R79). -/
inductive PendKind where
  /-- a load of `bytes` bytes per lane, sign-extended or not; `once`: one load for all lanes -/
  | load (at_ : List LaneLoc) (bytes : Nat) (signed : Bool) (once : Bool)
  /-- a gallery load of R162 -/
  | gather (at_ : List LaneLoc) (col : Bool) (e : Nat)
  /-- a constant-space load through the constant cache (R148) -/
  | constLoad (at_ : List LaneLoc) (bytes : Nat) (signed : Bool) (once : Bool)
  /-- an atomic or `LDX` whose values come from its target -/
  | reply (want : List Nat)
  /-- `BNDP`: the four lines of each lane's patch record, and the open frame's `ZNEAR`, `LENS_A` and `LENS_B` (R374) -/
  | bound (at_ : List LaneLoc) (znear lensA lensB : W32)
  /-- `SMPL.rd`: hall entries (R378) -/
  | pattern (at_ : List LaneLoc)
  /-- `TRACE`: the payload registers its return writes: first and number (R379, R381) -/
  | trace (base pw : Nat)
  /-- a special-function operation with the flags it raises (R77) -/
  | sfu (fl : BitVec 3)
  /-- the acquire side of `FENCE` and `FENCEX` (R182, R189): the L1 is invalidated or not; it waits for the earlier
  entries of the store queue or not; the destination class whose later operations wait -/
  | fence (inval : Bool) (afterSq : Bool) (cls : Nat)
  /-- a word whose result the model writes as it issues: it holds its counter alone until its `RESULT` (R76, R79) -/
  | counted
  deriving DecidableEq, Repr

/-- R78, R79: a result that has been issued and not yet written. -/
structure Pend where
  seq : Nat
  kind : PendKind
  ctr : Nat
  lanes : Mask
  dst : Dst
  words : Nat
  pc : W64
  acquire : Bool
  fromTarget : Bool
  /-- R457: its request was returned by a failed link and waits for fault service -/
  returned : Bool
  /-- the virtual address of each lane's access, and whether the lanes were in an emulation handler (R168) -/
  vas : Tbl Nat
  emu : Bool
  /-- the serial number of the first window entry of each lane (R35) -/
  slots : Tbl Nat
  /-- the words received so far, per lane -/
  got : Tbl (List W32)
  deriving DecidableEq, Repr

/-- R177: the kinds of entry of a store queue. -/
inductive SqKind where
  /-- bytes per lane, in lane order, by location -/
  | store (bytes : List (LaneLoc × List Byte))
  /-- a gallery store by element (R333): the word of each lane -/
  | scatter (words : List (LaneLoc × W32)) (col : Bool) (e : Nat)
  /-- a reduction (R339): lane, operand -/
  | red (op : AOp) (t : AType) (ops : List (LaneLoc × W64)) (atHome : Bool)
  /-- `ATOM`: lane, operand; the result goes to pending result `pend` -/
  | atom (op : AOp) (t : AType) (ops : List (LaneLoc × W64)) (pend : Nat)
  /-- `CAS`: lane, compare, new -/
  | cas (wide : Bool) (ops : List (LaneLoc × W64 × W64)) (pend : Nat)
  /-- `LDX`: lane, line and index word -/
  | ldx (ops : List (LaneLoc × W32)) (pend : Nat)
  /-- `ATOMO` -/
  | atomo (op : AOp) (t : AType) (ops : List (LaneLoc × W64 × Nat × Nat)) (pend : Nat)
  /-- the release side of `FENCE` and `FENCEX` (R182, R189) -/
  | fence
  deriving DecidableEq, Repr

/-- R177: an entry of a warp's store queue. -/
structure SqEnt where
  seq : Nat
  kind : SqKind
  release : Bool
  scope : Scope
  pc : W64
  lanes : Mask
  /-- the virtual address of each lane's access, and whether the lanes were in an emulation handler (R168) -/
  vas : Tbl Nat
  emu : Bool
  deriving DecidableEq, Repr

/-- What a request does at its target (R174, R197). -/
inductive ReqOp where
  | write (bytes : List (Nat × Byte))
  | atom (op : AOp) (t : AType) (ops : List (Nat × Nat × W64)) (pend : Option Nat)
  | cas (wide : Bool) (ops : List (Nat × Nat × W64 × W64)) (pend : Nat)
  | ldx (ops : List (Nat × W32)) (pend : Nat)
  | ordered (item : Nat) (ordinal : Nat) (lane : Nat) (op : AOp) (t : AType) (addr : Nat) (v : W64) (pend : Nat)
  /-- a merging fill of the line (R152) -/
  | fill
  /-- the part of a load at its target that lies in the line, for pending result `pend` (R180) -/
  | load (pend : Nat)
  deriving DecidableEq, Repr

/-- R177, R181, R457: a request on its way to a target. -/
structure Req where
  id : Nat
  wid : Nat
  sp : Sp
  line : Nat
  op : ReqOp
  /-- it counts in the warp's unacknowledged-store count -/
  acks : Bool
  pc : W64
  lanes : Mask
  /-- the virtual address of its lowest lane's access, whether the lanes were in an emulation handler, and whether it stores
  rows of an accumulator (R168) -/
  va : Nat
  emu : Bool
  mx : Bool
  /-- R454: a flush probe has returned that was sent after it, or a later packet of its channel has been delivered (R453):
  it has been delivered to its target's socket -/
  arrived : Bool
  /-- R457: returned by a failed link, waiting for fault service -/
  returned : Bool
  deriving DecidableEq, Repr

/-- R150, R154: an L1 line. -/
structure L1Line where
  valid : Mask
  words : Cells 32
  /-- update-only: the operation, the type and the touched words -/
  upd : Option (AOp × AType × Mask)
  deriving DecidableEq, Repr

/-! ## Warps -/

/-- R312: an entry of a lane's loop stack. -/
structure LoopEnt where
  start : W64
  stop : W64
  count : W32
  deriving DecidableEq, Repr

/-- R125, R72, R318, R257, R382: what a lane waits for, at the instruction where it stands. -/
inductive LaneWait where
  | join (m : Nat)
  | waitm (m : Nat)
  | emur (w : Bool)
  | rte
  | bar (lvl : BarLvl) (i : Nat)
  /-- R381, R382: the return of the `TRACE` with this pending result -/
  | trace (pend : Nat)
  deriving DecidableEq, Repr

/-- R69, R70: the emulation handler's state. -/
structure EmuState where
  inside : Bool
  word : IWord
  cause : Nat
  lanes : Mask
  pc : W64
  win : Cells 32
  deriving DecidableEq, Repr

/-- R317, R324: the debug handler's state. -/
structure DbgState where
  inside : Bool
  fromEmu : Bool
  code : BitVec 16
  lanes : Mask
  pc : W64
  win : Cells 32
  deriving DecidableEq, Repr

/-- R251: the key of a hit and the fields `TRHIT` reads (R383). -/
structure HitRec where
  t : W32
  s : W32
  w : W32
  prim : W32
  geom : W32
  addr : W64
  flags : W32
  deriving DecidableEq, Repr

/-- R383: what `TRQRY` reads in a lane. -/
structure RayInfo where
  depth : W32
  delivered : W32
  tmax : W32
  tmin : W32
  mask : W32
  kind : W32
  deriving DecidableEq, Repr

/-- Where a warp's registers are (R87). -/
inductive Residence where
  | active
  | pending
  | nonResident
  /-- it has exited; its registers' space is held until its team's last warp exits (R127) -/
  | exited
  /-- its team is saved (R445) or its team's last warp has exited -/
  | none
  deriving DecidableEq, Repr

/-- R200: a `PROBE` in progress: its address, the virtual channels and sockets whose probes have not returned, and the first
identifier not yet given when the probes went out. -/
structure ProbeWait where
  pc : W64
  left : List (Nat × Nat)
  mark : Nat
  deriving DecidableEq, Repr

/-- R42: dirty bits since the last save. -/
structure Dirty where
  vec : Cells 1
  uni : Cells 1
  preds : Bool
  tile : Cells 1
  masks : Bool
  net : Cells 1
  win : Bool
  stair : Cells 1
  deriving DecidableEq, Repr

/-- The state of a warp (R15, R20, R108). Registers are keyed `register * 32 + lane`, window slots
`(slot - 1) * 32 + lane`, stair counts `(8 * channel + distance - 1) * 32 + lane`, spill words `word * 32 + lane`. -/
structure Warp where
  tid : Nat
  num : Nat
  launched : Mask
  exited : Mask
  parked : Mask
  stopped : Mask
  ready : Mask
  pc : Cells 64
  waits : Tbl LaneWait
  vec : Cells 32
  uni : Cells 32
  pred : Cells 32
  tile : Cells 128
  mask : Cells 32
  net : Cells 144
  win : Cells 32
  winSeq : Tbl Nat
  rdCnt : Cells 32
  pubCnt : Cells 32
  loops : Tbl (List LoopEnt)
  fstat : BitVec 3
  mstat : BitVec 2
  qseal : Cells 5
  srctr : Cells 32
  atomo : Cells 32
  mprog : Cells 32
  /-- R369: the lanes parked in an `MMA` that has not completed; the model's own (DEDUCED, log 76) -/
  mpark : Mask
  emu : EmuState
  emuRes : Cells 32
  dbg : DbgState
  spill : Cells 32
  /-- R199: the last eight spill offsets with the lanes and bytes stored -/
  fwd : List (Nat × Tbl (List Byte))
  pend : List Pend
  sq : List SqEnt
  unack : Nat
  nextSeq : Nat
  /-- R155: update-only lines contributed to since the last release at `.clu` or wider -/
  contrib : List Nat
  /-- R200: the `PROBE`s in progress, one for each address at which lanes wait -/
  probe : List ProbeWait
  paramsLoaded : Bool
  stallUntil : Nat
  lastIssue : Nat
  /-- R84: the warp's issue cycles, and of each lane the issue cycle of its last issue -/
  issues : Nat
  laneIssue : Tbl Nat
  yielded : Bool
  residence : Residence
  /-- when it joined its set (R89), in cycles and ns -/
  sinceCycle : Nat
  sinceNs : Nat
  /-- R90: since when it has been stalled, and since when it has been ready, in ns -/
  stallSince : Option Nat
  readySince : Option Nat
  dirty : Dirty
  saves : Nat
  firstSaved : Bool
  /-- the context as last saved (R447, R448) -/
  ckpt : Cells 8
  /-- R132: the waiting `PUBQ`s: address, when it began to wait, and whether it has been reported -/
  pubWait : List (W64 × Nat × Bool)
  hitRec : Tbl HitRec
  rayInfo : Tbl RayInfo
  /-- R256: the key of the last delivered hit: t, `GEOM_ID`, `PRIM_ID`, s -/
  hitKey : Tbl (W32 × W32 × W32 × W32)
  deriving DecidableEq, Repr

/-! ## Teams -/

/-- What a team runs (R138, R253). -/
inductive TeamKind where
  | root
  | node (n : Nat) (s : Nat) (nrec : Nat)
  /-- a shader team: for each lane the trace it serves -/
  | shader (traces : List Nat)
  deriving DecidableEq, Repr

/-- R127, R445: the life of a team. -/
inductive TeamState where
  | running
  /-- halted for a save or an abort (R445) -/
  | halting
  | saved
  /-- its last warp has exited; only the retirement record is left -/
  | ended
  deriving DecidableEq, Repr

structure Team where
  gid : Nat
  kind : TeamKind
  lin : Nat
  rank : Nat
  clu : Nat
  dieIdx : Nat
  core : Nat
  nwarps : Nat
  st : TeamState
  gallery : Cells 8
  galDirty : Cells 1
  acc : Cells 32
  accDirty : Cells 1
  scale : Cells 16
  scaleDirty : Bool
  firstSaved : Bool
  saves : Nat
  /-- R165: bits clear in `%tagready` -/
  tagClear : W64
  tagCnt : Tbl Nat
  active : Bool
  loss : Nat
  replayed : Bool
  /-- R128: the commit buffer: bytes by location key -/
  commit : Cells 9
  hall : Option Nat
  bucket : Option Nat
  children : List Nat
  /-- R357: buckets of a replay-active team that become done at the commit -/
  bucketsPending : List Nat
  /-- R140: the records a node team was launched with -/
  recs : List (List W32)
  placedNs : Nat
  /-- the context as last saved (R449) -/
  ckpt : Cells 8
  deriving DecidableEq, Repr

/-- R350, R257: one barrier phase of a team, cluster or die group. -/
structure Bar where
  lvl : BarLvl
  owner : Nat
  i : Nat
  phase : Nat
  /-- the warps that have arrived in this phase, and whether at `BAR.sync` -/
  arrived : List (Nat × Bool)
  /-- lanes that have executed `BAR.arv` since their warp's last arrival: warp, address, lanes -/
  exec : List (Nat × W64 × Mask)
  deriving DecidableEq, Repr

/-! ## Copies, render operations and the matrix engine -/

/-- What an asynchronous operation does (R345 to R348, R375 to R377). -/
inductive OpKind where
  /-- `src` and `dst` as a space and an address or offset; global addresses are virtual -/
  | copy (dstGlobal srcGlobal : Bool) (dsp ssp : Sp) (dst src len : Nat)
  | square (src off pitch rows : Nat) (col : Bool) (e : Nat)
  | dieCopy (dst src len die : Nat)
  | peerCopy (dst src len port : Nat)
  | dice (off : Nat)
  | rast (g : Nat)
  | rslv (tent : Bool)
  deriving DecidableEq, Repr

structure AsyncOp where
  id : Nat
  gid : Nat
  tid : Nat
  wid : Nat
  lanes : Mask
  pc : W64
  tag : Nat
  kind : OpKind
  /-- bytes of completed chunks -/
  done : Nat
  /-- the hall an operation acts on -/
  hall : Nat
  /-- R188: the first serial number the warp had not yet given when the operation was issued -/
  after : Nat
  /-- R168: the issuing lanes were in an emulation handler -/
  emu : Bool
  suspended : Bool
  abandoned : Bool
  deriving DecidableEq, Repr

/-- R365, R368: a quarter of an `MMA` in the core's matrix engine: its rows by lane, with the words of each A row, and the
words of each stored run of B. -/
structure MxEnt where
  wid : Nat
  tid : Nat
  quarter : Nat
  desc : BitVec 128
  kstep : Nat
  row0 : Nat
  col0 : Nat
  slot : Nat
  acc16 : Bool
  sa : Nat
  rows : List (Nat × List Loc)
  bWords : List (List Loc)
  deriving DecidableEq, Repr

/-! ## Cores, partitions, dies and halls -/

/-- R438: a cached translation. -/
structure TlbEnt where
  asid : Nat
  page : Nat
  /-- leaf: physical page of 16 KiB, and bits P, X, W -/
  phys : Nat
  p : Bool
  x : Bool
  w : Bool
  deriving DecidableEq, Repr

/-- R438: a non-leaf entry in a walker's cache: a table of level `level` for the addresses with this prefix. -/
structure WalkEnt where
  asid : Nat
  level : Nat
  prefix_ : Nat
  table : Nat
  deriving DecidableEq, Repr

/-- R49, R50: an instruction-cache block: its bytes and the first instruction that could not be supplied. -/
structure IBlock where
  bytes : List Byte
  /-- for each of the 32 instructions, the fault of its fetch: type and first bad byte -/
  bad : List (Nat × Nat × Nat)
  deriving DecidableEq, Repr

/-- A core's state outside its teams. Instruction blocks are keyed `gid * 2^64 + address`. -/
structure Core where
  l1 : Tbl L1Line
  /-- R154: the order of allocation of update-only lines -/
  updOrder : List Nat
  /-- R177: the requests, fills among them, that have left the core and are not yet served, in their order -/
  inflight : List Req
  ccache : Tbl (Mask × Cells 32)
  icache : Tbl IBlock
  /-- grids that have started a team here (R148, R189) -/
  started : List Nat
  mxq : List MxEnt
  /-- R132, R39: landed publishes: (item, channel, ordinals landed, exit landed) by grid -/
  landed : List (Nat × Nat × Nat × Nat × Bool)
  /-- R438: the core's L1 TLB -/
  tlb : List TlbEnt
  inService : Bool
  clockBase : Nat
  deriving DecidableEq, Repr

/-- R77: an operation in a special-function queue. -/
structure SfuEnt where
  wid : Nat
  pend : Nat
  slow : Bool
  issued : Nat
  entered : Option Nat
  deriving DecidableEq, Repr

/-- R87: a partition. The sets are in the order in which warps joined them. -/
structure Partition where
  active : List Nat
  pending : List Nat
  nonResident : List Nat
  sfu : List SfuEnt
  lastEnter : Option Nat
  deriving DecidableEq, Repr

/-- R158, R227, R239: a hall. -/
structure Hall where
  holder : Option Nat
  grid : Option Nat
  /-- R228: the sample buffer reads as prepared where no cell is listed -/
  cells : Cells 8
  /-- carved units of 64 KiB (R159), by unit the grid -/
  carved : Tbl Nat
  /-- R239: allocations of the heap ring in order: grid header, first granule, granules with those skipped, freed -/
  heap : List (Nat × Nat × Nat × Bool)
  heapHead : Nat
  /-- R243: deep records in use -/
  deepUsed : Cells 1
  /-- R223: list position: node address and entry; `none` before the list head has been read -/
  listPos : Option (Nat × Nat)
  inService : Bool
  /-- R159: the grid for one of whose die groups, which has waited, it is held -/
  reserved : Option Nat
  deriving DecidableEq, Repr

/-- R253: a shader bin: entry address, grid and invocations in order of entry: trace, material key, time. -/
structure ShBin where
  gid : Nat
  entry : Nat
  invs : List (Nat × Nat × Nat)
  deriving DecidableEq, Repr

structure Die where
  trained : Bool
  inService : Bool
  halls : Tbl Hall
  bins : List ShBin
  /-- R189: ray-unit node caches hold lines read since the last invalidation, with the values read -/
  nodeCache : Cells 9
  deriving DecidableEq, Repr

/-! ## Grids -/

/-- R222, R224: an open frame with its dispensers (R225) by socket: lo, hi, return stack. -/
structure Frame where
  width : Nat
  height : Nat
  spp : Nat
  deep : Nat
  fp32 : Bool
  lensA : W32
  lensB : W32
  znear : W32
  rate : W32
  listTable : Nat
  imageBase : Nat
  pitch : Nat
  ovBytes : Nat
  ovBase : Nat
  disp : Tbl (Nat × Nat × List Nat)
  /-- returned buckets the render core holds, by socket -/
  held : Tbl (List Nat)
  doneCount : Nat
  lost : List Nat
  qid : Nat
  /-- R426: the handler queue of the queue that carried it -/
  hq : Nat
  pktId : W32
  pktIdx : W32
  doneAddr : Nat
  doneValue : W64
  notify : Bool
  deriving DecidableEq, Repr

/-- R119 to R121: a dispatch sequence: die index, sockets allowed, next unit, end. -/
structure DSeq where
  dieIdx : Nat
  sockets : List Nat
  nextUnit : Nat
  stop : Nat
  deriving DecidableEq, Repr

/-- R143: a conditional node's predicate. -/
inductive CondState where
  | none
  | waiting
  | faulted
  | proceed
  | discard
  deriving DecidableEq, Repr

/-- R137 to R143: a work-graph node. -/
structure Node where
  entry : Nat
  predAddr : Nat
  feed : W64
  count : Nat
  timer : Nat
  threads : Nat
  recBytes : Nat
  cond : CondState
  bin : List (List W32)
  binSinceNs : Nat
  launchedTeams : Nat
  discarded : Nat
  deriving DecidableEq, Repr

/-- What a fault record resumes (R170, R442). -/
inductive Parked where
  | lanes (wid : Nat) (m : Mask)
  | op (id : Nat)
  | req (core id : Nat)
  | pend (wid seq : Nat)
  | predicate (node : Nat)
  deriving DecidableEq, Repr

/-- R168: a fault, with the fields of its record. -/
structure FaultEvt where
  va : W64
  pc : W64
  lanes : Mask
  socket : Nat
  core : Nat
  warp : Nat
  engine : Nat
  teamlin : W32
  kind : Nat
  ftype : Nat
  whole : Bool
  async : Bool
  emu : Bool
  tag : Nat
  progress : W32
  item : W64
  who : Parked
  deriving DecidableEq, Repr

/-- R169, R170: a written record. -/
structure FaultRec where
  seq : Nat
  evt : FaultEvt
  released : Bool
  unresolvable : Bool
  resumed : Bool
  deriving DecidableEq, Repr

inductive GridState where
  | live
  | retired
  | terminated
  deriving DecidableEq, Repr

structure Grid where
  st : GridState
  asid : Nat
  qid : Nat
  handlerQ : Nat
  pktId : W32
  pktIdx : W32
  notify : Bool
  rec_ : LaunchRec
  prio : Nat
  depth : Nat
  parentGid : Option Nat
  parentTid : Option Nat
  order : Nat
  mask : List Nat
  seqs : List DSeq
  /-- teams returned by an abort, first to be placed again (R128): linear index, kind and a node team's records -/
  again : List (Nat × TeamKind × List (List W32))
  /-- R446: saved teams waiting for restore, in order -/
  restore : List Nat
  waitSinceNs : Nat
  rootTeams : Nat
  rootRetired : Nat
  nodes : Tbl Node
  /-- R131: published values: key `(item * 4 + channel) * 2^33 + ordinal` -/
  pubs : Tbl W32
  /-- number published: key `item * 4 + channel` -/
  pubN : Tbl Nat
  /-- reads counted: key `(item * 4 + channel) * 8 + distance - 1` -/
  rdN : Tbl Nat
  /-- R453: the number, the ns and the core of each publish (keys of `pubs`) and of each item's exit -/
  pubSeq : Tbl (Nat × Nat × Nat)
  exitSeq : Tbl (Nat × Nat × Nat)
  itemsExited : List Nat
  /-- R134: `ATOMO`s applied by item, and executed by exited items -/
  atomoDone : Tbl Nat
  atomoMade : Tbl Nat
  frame : Option Frame
  frames : List Frame
  faults : List FaultEvt
  records : List FaultRec
  nextFaultSeq : Nat
  children : List Nat
  dbgEntry : Option Nat
  startMoment : Nat
  discarded : Nat
  /-- R122: placement is held for it -/
  held : Bool
  deriving DecidableEq, Repr

/-! ## Traces (R249 to R256, R379 to R383) -/

/-- An exact number x + y·√d, for the intersections with quads (R251). -/
structure Surd where
  xn : Int
  xd : Nat
  yn : Int
  yd : Nat
  dn : Nat
  dd : Nat
  deriving DecidableEq, Repr

/-- R251: a hit: the exact t and s of its key, and what is reported of it. -/
structure RayHit where
  t : Surd
  s : Surd
  info : HitRec
  deriving DecidableEq, Repr

inductive TrState where
  | traverse
  /-- an any-hit (2), closest-hit (1) or miss (3) shader is queued or running for this hit -/
  | shading (kind : Nat) (hit : Option RayHit)
  | finished (status : Nat)
  /-- R249, R379: the trace has ended on a malformed record, at this address -/
  | bad (addr : Nat)
  deriving DecidableEq, Repr

structure Trace where
  gid : Nat
  wid : Nat
  lane : Nat
  socket : Nat
  depth : Nat
  mode : TraceMode
  mask : Nat
  ray : List W32
  root : Nat
  table : Nat
  entries : Nat
  miss : Nat
  item : Nat
  payload : List W32
  /-- the first payload register -/
  base : Nat
  galBase : Nat
  galBytes : Nat
  galPayload : List Byte
  st : TrState
  /-- R252: the `CLOSEST` entry of the hit being delivered -/
  closest : Nat
  /-- R256: the last delivered hit -/
  lastKey : Option RayHit
  delivered : Nat
  /-- R383: the last accepted or delivered hit -/
  last : Option HitRec
  /-- R256: the faulting lane is parked -/
  parked : Bool
  /-- the `TRACE`: its pending result, address, destination and active lanes -/
  pend : Nat
  pc : W64
  dst : Dst
  group : Mask
  deriving DecidableEq, Repr

/-! ## Queues, events and commands -/

/-- R420: an event to be written into a handler queue. -/
structure HEvent where
  hq : Nat
  cause : Nat
  pktId : W32
  qid : W32
  pktIdx : W32
  grid : W32
  teamlin : W32
  socket : Nat
  core : Nat
  warp : Nat
  lanes : Mask
  pc : W64
  d0 : W64
  d1 : W64
  deriving DecidableEq, Repr

inductive QState where
  | running
  | stopped
  | destroyed
  deriving DecidableEq, Repr

/-- R411, R426: what the intake and scheduling cores hold of a queue. -/
structure Queue where
  desc : Nat
  ring : Nat
  log2 : Nat
  handlerQ : Nat
  asid : Nat
  kind : Nat
  prioMax : Nat
  st : QState
  /-- the scheduling core's list of the grids launched from it (R426) -/
  grids : List Nat
  /-- frames of earlier packets that are not complete: grid -/
  frameGrids : List Nat
  /-- R416: frames held for the next `LAUNCH` -/
  heldFrames : List Frame
  /-- R420: events written, for `HSEQ` -/
  hseq : Nat
  /-- R418: the slot resumed after a stop -/
  resumed : Bool
  /-- R419: `QSTOP` waits for the packet in progress -/
  stopReq : Bool
  deriving DecidableEq, Repr

/-! ## Fleet and boot -/

/-- R466, R467: the management registers. -/
structure Mg where
  stage : Nat
  mdMask : Nat
  cdMask : Nat
  peerMask : Nat
  full : Bool
  halt : Nat
  int_ : BitVec 6
  intEn : W64
  errRing : W64
  errWr : W32
  errRd : W32
  telRing : W64
  telWr : W32
  telRd : W32
  pwrLimit : Nat
  errThresh : Nat
  cmd : BitVec 256
  deriving DecidableEq, Repr

/-- R471: an error record. -/
structure ErrRec where
  time : Nat
  socket : Nat
  struct : Nat
  sev : Nat
  unit : Nat
  count : Nat
  addr : Nat
  deriving DecidableEq, Repr

/-- R458: a verified image. -/
structure Image where
  target : Nat
  secVersion : Nat
  digest : List Byte
  bytes : List Byte
  deriving DecidableEq, Repr

/-- R460: an address range of a Summit core or the application cluster (8), with permissions. -/
structure Filter where
  agent : Nat
  base : Nat
  limit : Nat
  r : Bool
  w : Bool
  x : Bool
  deriving DecidableEq, Repr

/-- R459, R474: boot flash, key store and identity. -/
structure Trust where
  flashA : Tbl (List Byte)
  flashB : Tbl (List Byte)
  staged : List Nat
  staging : Option (Nat × List Byte)
  keyHash : Tbl (List Byte)
  revoked : List Nat
  fused : Tbl Nat
  identity : Nat
  running : Tbl Image
  held : List Nat
  filters : List Filter
  locked : Bool
  deriving DecidableEq, Repr

/-- R473: power and clock. -/
structure Power where
  clkMhz : Nat
  tstate : Nat
  pwr : Nat
  deriving DecidableEq, Repr

/-- The warp and lanes for which the instruction acts (R84, R85); the model's own field (DESIGN CHOICE, log 2). -/
structure Issue where
  wid : Nat
  lanes : Mask
  word : IWord
  deriving DecidableEq, Repr

/-- The state of the module. -/
structure State where
  /-- device memory, region 0 (R450); an unlisted byte reads 0 (DESIGN CHOICE, log 7) -/
  mem : List Host.Cell
  /-- the model's own field: every write of region 0, newest first: address and the byte before it (DESIGN CHOICE, log 6) -/
  hist : List (Nat × Byte)
  /-- R438: the second-level TLB, over its slices -/
  tlb : List TlbEnt
  /-- R438: the walkers' caches of non-leaf entries -/
  walkCache : List WalkEnt
  /-- R157: the L2 slices in service: memory die (0 to 5) * 16 + slice -/
  slices : List Nat
  asidBase : Nat
  grids : Tbl Grid
  nextGid : Nat
  teams : Tbl Team
  nextTid : Nat
  /-- keyed `team * 32 + warp number` -/
  warps : Tbl Warp
  /-- keyed `socket * 32 + core` -/
  cores : Tbl Core
  /-- keyed `(socket * 32 + core) * 4 + partition` -/
  parts : Tbl Partition
  dies : Tbl Die
  /-- R117: die scratch of the die groups, keyed `gid * 128 + %die * 16 + socket`: carved units (hall, unit) and bytes -/
  scratch : Tbl (List (Nat × Nat) × Cells 8)
  bars : List Bar
  ops : List AsyncOp
  traces : Tbl Trace
  queues : Tbl Queue
  hevents : List HEvent
  /-- R427: inbound FIFOs of the Summit cores -/
  mailbox : Tbl (List Msg)
  cmdQ : List Msg
  rspQ : List Msg
  mg : Mg
  /-- R467: the fault interrupt is pending -/
  faultInt : Bool
  errWin : List (Nat × Nat × Nat × Nat)
  errHeld : List ErrRec
  errDropped : Nat
  corrTotal : Nat
  gridsRetired : Nat
  outOfService : List (Nat × Nat × Nat)
  /-- R469: lines of region 0 whose next access meets an uncorrectable error -/
  poison : List Nat
  links : List (Nat × Nat)
  memTrained : List Nat
  trust : Trust
  power : Power
  /-- R464: bindings: port, local ASID, remote ASID -/
  peers : List (Nat × Nat × Nat)
  /-- writes sent to peer modules: port, remote ASID, address, bytes -/
  peerOut : List (Nat × Nat × Nat × List Byte)
  /-- writes performed on PCIe ports: address and bytes (R452) -/
  pcieOut : List (Nat × List Byte)
  /-- the value last returned to an outside agent -/
  hostRead : List Byte
  now : Nat
  ns : Nat
  /-- nanosecond time at which the module last left reset -/
  resetNs : Nat
  cur : Option Issue
  inputs : List Instr
  fresh : Nat
  nextId : Nat
  deriving DecidableEq, Repr

/-- The reasons a step may fault. The spec describes what happens in every case as a next state, so no meaning of this
model faults: raised by nothing (safe). -/
inductive Fault where
  /-- kept for a case the model cannot reach; raised by nothing (safe) -/
  | unreachable
  deriving DecidableEq, Repr

/-- The reasons an instruction may be refused. -/
inductive Refusal where
  /-- the arm of `exec` has no meaning yet; raised by the dispatch alone (safe) -/
  | notModelled (mnemonic : String)
  deriving DecidableEq, Repr

/-! ## Reset -/

def Mg.reset : Mg where
  stage := 1
  mdMask := 0
  cdMask := 0
  peerMask := 0
  full := false
  halt := 0
  int_ := 0
  intEn := 0
  errRing := 0
  errWr := 0
  errRd := 0
  telRing := 0
  telWr := 0
  telRd := 0
  pwrLimit := 1400
  errThresh := 16
  cmd := 0

/-- DESIGN CHOICE, log 11. -/
def Trust.reset : Trust where
  flashA := []
  flashB := []
  staged := []
  staging := none
  keyHash := []
  revoked := []
  fused := []
  identity := 0
  running := []
  held := []
  filters := []
  locked := false

/-- DESIGN CHOICE, log 4. -/
def Core.reset : Core where
  l1 := []
  updOrder := []
  inflight := []
  ccache := []
  icache := []
  started := []
  mxq := []
  landed := []
  tlb := []
  inService := true
  clockBase := 0

def Partition.reset : Partition where
  active := []
  pending := []
  nonResident := []
  sfu := []
  lastEnter := none

/-- DESIGN CHOICE, log 9. -/
def Hall.reset : Hall where
  holder := none
  grid := none
  cells := []
  carved := []
  heap := []
  heapHead := 0
  deepUsed := []
  listPos := none
  inService := true
  reserved := none

def Die.reset : Die where
  trained := false
  inService := false
  halls := []
  bins := []
  nodeCache := []

/-- The module right after reset: boot step 1 (R461, R467); nothing trained, no queue, no grid. A core, partition, die
or hall that is not listed is as its own `reset`. -/
def State.reset : State where
  mem := []
  hist := []
  tlb := []
  walkCache := []
  slices := []
  asidBase := 0
  grids := []
  nextGid := 1
  teams := []
  nextTid := 0
  warps := []
  cores := []
  parts := []
  dies := []
  scratch := []
  bars := []
  ops := []
  traces := []
  queues := []
  hevents := []
  mailbox := []
  cmdQ := []
  rspQ := []
  mg := Mg.reset
  faultInt := false
  errWin := []
  errHeld := []
  errDropped := 0
  corrTotal := 0
  gridsRetired := 0
  outOfService := []
  poison := []
  links := []
  memTrained := []
  trust := Trust.reset
  power := { clkMhz := 2900, tstate := 0, pwr := 0 }
  peers := []
  peerOut := []
  pcieOut := []
  hostRead := []
  now := 0
  ns := 0
  resetNs := 0
  cur := none
  inputs := []
  fresh := 0
  nextId := 0

end Sys2Proof.Machine
end

