-- ==== Sys2Proof/Machine/Table.lean ====
section
/-! DEFINITION. Keyed tables, cells, lane masks and the byte order (R4). -/

namespace Sys2Proof.Machine

open Sys2Proof

/-! ## Tables -/

/-- The entry of key `k`. -/
def tget {α : Type} : Tbl α → Nat → Option α
  | [], _ => none
  | (j, v) :: r, k => if j = k then some v else tget r k

/-- The table with the entry of `k` set. -/
def tset {α : Type} : Tbl α → Nat → α → Tbl α
  | [], k, v => [(k, v)]
  | (j, x) :: r, k, v => if k < j then (k, v) :: (j, x) :: r else if k = j then (k, v) :: r else (j, x) :: tset r k v

/-- The table without an entry of `k`. -/
def tdel {α : Type} : Tbl α → Nat → Tbl α
  | [], _ => []
  | (j, x) :: r, k => if j = k then tdel r k else (j, x) :: tdel r k

/-- Update the entry of `k`, where there is one. -/
def tmod {α : Type} (t : Tbl α) (k : Nat) (f : α → α) : Tbl α :=
  match tget t k with
  | some x => tset t k (f x)
  | none => t

/-- The strictly rising order of the keys: the canonical form of a table. -/
def tsorted {α : Type} : Tbl α → Bool
  | [] => true
  | [_] => true
  | (j, _) :: (k, v) :: r => j < k && tsorted ((k, v) :: r)

/-! ## Cells -/

/-- The cell of index `k`; an unlisted cell reads 0. -/
def cget {w : Nat} (c : Cells w) (k : Nat) : BitVec w := (tget c k).getD 0

/-- The cells with cell `k` set; a cell set to 0 is not listed. -/
def cset {w : Nat} (c : Cells w) (k : Nat) (v : BitVec w) : Cells w := if v = 0 then tdel c k else tset c k v

/-- The canonical form of cells: rising keys, no listed 0. -/
def cwf {w : Nat} (c : Cells w) : Bool := tsorted c && c.all (fun x => x.2 != 0)

/-- Set a run of cells. -/
def csetAll {w : Nat} (c : Cells w) (l : List (Nat × BitVec w)) : Cells w := l.foldl (fun c x => cset c x.1 x.2) c

/-! ## Lane masks -/

/-- The lanes of a mask in increasing order. -/
def lanesOf (m : Mask) : List Nat := (List.range 32).filter fun l => m.getLsbD l

/-- The mask of one lane. -/
def laneBit (l : Nat) : Mask := 1#32 <<< l

/-- The mask of a list of lanes. -/
def maskOf (l : List Nat) : Mask := l.foldl (fun m x => m ||| laneBit x) 0

/-- The lowest lane of a mask, 0 when there is none. -/
def lowest (m : Mask) : Nat := (lanesOf m).headD 0

/-- The number of lanes of a mask. -/
def count (m : Mask) : Nat := (lanesOf m).length

/-! ## Bytes (R4: little-endian) -/

/-- The number whose bytes, lowest first, are `bs`. -/
def leNat (bs : List Byte) : Nat := bs.foldr (fun b n => b.toNat + 256 * n) 0

/-- A little-endian field of a record. -/
def field (bs : List Byte) (off n : Nat) : Nat := leNat ((bs.drop off).take n)

/-- The `n` bytes of a number, lowest first. -/
def natBytes : Nat → Nat → List Byte
  | 0, _ => []
  | n + 1, v => BitVec.ofNat 8 v :: natBytes n (v / 256)

/-- `bits(x, h, l)` of R13. -/
def bitsOf (x h l : Nat) : Nat := (x >>> l) % 2 ^ (h + 1 - l)

/-- `sext(x, n)` of R13. -/
def sext (x n : Nat) : Int :=
  let y := x % 2 ^ n
  if n > 0 ∧ 2 ^ (n - 1) ≤ y then (y : Int) - 2 ^ n else y

/-- The low `w` bits of an integer. -/
def ofInt (w : Nat) (x : Int) : BitVec w := BitVec.ofInt w x

/-- The largest power of two not above `a / b`, both positive: `floor(log2(a / b))`. -/
def flog2 (a b : Nat) : Int :=
  let e : Int := (a.log2 : Int) - b.log2
  let ge : Bool := if 0 ≤ e then b * 2 ^ e.toNat ≤ a else b ≤ a * 2 ^ (-e).toNat
  if ge then e else e - 1

/-- The bytes of a 32-bit word, lowest first. -/
def bytes4 (w : W32) : List Byte := natBytes 4 w.toNat

/-- Ceiling of `a / b`. -/
def cdiv (a b : Nat) : Nat := (a + b - 1) / b

end Sys2Proof.Machine
end

