-- ==== Sys2Proof/Machine/Num.lean ====
section
/-! DEFINITION. Number formats, exact values and rounding (R203 to R214). -/

namespace Sys2Proof.Machine

open Sys2Proof

/-! ## Exact rationals -/

/-- An exact rational; `den` is positive. -/
structure Q where
  num : Int
  den : Nat
  deriving DecidableEq, Repr

def Q.ofInt (x : Int) : Q := ⟨x, 1⟩

/-- m * 2^e. -/
def Q.dy (m : Int) (e : Int) : Q := if 0 ≤ e then ⟨m * 2 ^ e.toNat, 1⟩ else ⟨m, 2 ^ (-e).toNat⟩

def Q.neg (a : Q) : Q := ⟨-a.num, a.den⟩
def Q.abs (a : Q) : Q := ⟨a.num.natAbs, a.den⟩

/-- Sum; equal denominators, and denominators of which one divides the other, are kept. -/
def Q.add (a b : Q) : Q :=
  if a.den = b.den then ⟨a.num + b.num, a.den⟩
  else if a.den % b.den = 0 then ⟨a.num + b.num * (a.den / b.den : Nat), a.den⟩
  else if b.den % a.den = 0 then ⟨a.num * (b.den / a.den : Nat) + b.num, b.den⟩
  else ⟨a.num * b.den + b.num * a.den, a.den * b.den⟩

def Q.sub (a b : Q) : Q := a.add b.neg
def Q.mul (a b : Q) : Q := ⟨a.num * b.num, a.den * b.den⟩

/-- Quotient by a value that is not 0. -/
def Q.div (a b : Q) : Q :=
  if 0 ≤ b.num then ⟨a.num * b.den, a.den * b.num.natAbs⟩ else ⟨-(a.num * b.den), a.den * b.num.natAbs⟩

def Q.isZero (a : Q) : Bool := a.num == 0
def Q.lt (a b : Q) : Bool := a.num * b.den < b.num * a.den
def Q.le (a b : Q) : Bool := a.num * b.den ≤ b.num * a.den
def Q.eq (a b : Q) : Bool := a.num * b.den == b.num * a.den
def Q.floor (a : Q) : Int := a.num.fdiv a.den
def Q.ceil (a : Q) : Int := -((-a.num).fdiv a.den)
def Q.max (a b : Q) : Q := if a.le b then b else a
def Q.min (a b : Q) : Q := if a.le b then a else b
def Q.sum (l : List Q) : Q := l.foldl Q.add (Q.ofInt 0)
def Q.half : Q := ⟨1, 2⟩
def Q.one : Q := ⟨1, 1⟩
def Q.zero : Q := ⟨0, 1⟩

/-! ## Formats (R203) -/

/-- R203: a floating-point element format: exponent bits, fraction bits, bias, and which special codes it has. -/
structure FF where
  eb : Nat
  f : Nat
  bias : Nat
  hasInf : Bool
  hasNaN : Bool
  deriving DecidableEq, Repr

def FF.fp32 : FF := ⟨8, 23, 127, true, true⟩
def FF.fp16 : FF := ⟨5, 10, 15, true, true⟩
def FF.bf16 : FF := ⟨8, 7, 127, true, true⟩
def FF.fp8e4 : FF := ⟨4, 3, 7, false, true⟩
def FF.fp8e5 : FF := ⟨5, 2, 15, true, true⟩
def FF.fp4 : FF := ⟨2, 1, 1, false, false⟩

def FF.width (F : FF) : Nat := 1 + F.eb + F.f

/-- R207: the canonical NaN. -/
def FF.nan (F : FF) : Nat :=
  if F = FF.fp8e4 then 0x7F else (2 ^ F.eb - 1) * 2 ^ F.f + 2 ^ (F.f - 1)

/-- R203: the code of +∞. -/
def FF.inf (F : FF) : Nat := (2 ^ F.eb - 1) * 2 ^ F.f

/-- R203: the code of the largest finite value. -/
def FF.maxCode (F : FF) : Nat :=
  if F.hasInf then F.inf - 1 else if F.hasNaN then 2 ^ (F.eb + F.f) - 2 else 2 ^ (F.eb + F.f) - 1

/-- An element: NaN, an infinity, or a finite value with its sign (a zero keeps it). -/
inductive FV where
  | nan
  | inf (neg : Bool)
  | fin (neg : Bool) (mag : Q)
  deriving DecidableEq, Repr

/-- R204: the value of a code. -/
def FF.dec (F : FF) (c : Nat) : FV :=
  let frac := c % 2 ^ F.f
  let e := (c / 2 ^ F.f) % 2 ^ F.eb
  let neg := (c / 2 ^ (F.f + F.eb)) % 2 = 1
  let top := 2 ^ F.eb - 1
  if F.hasInf ∧ e = top then (if frac = 0 then .inf neg else .nan)
  else if ¬F.hasInf ∧ F.hasNaN ∧ e = top ∧ frac = 2 ^ F.f - 1 then .nan
  else if e = 0 then .fin neg (Q.dy frac ((1 : Int) - F.bias - F.f))
  else .fin neg (Q.dy (2 ^ F.f + frac : Nat) ((e : Int) - F.bias - F.f))

/-- The real number of a finite element. -/
def FV.val : FV → Q
  | .fin neg m => if neg then m.neg else m
  | _ => Q.zero

def FV.isNaN : FV → Bool
  | .nan => true
  | _ => false

def FV.isInf : FV → Bool
  | .inf _ => true
  | _ => false

def FV.isFin : FV → Bool
  | .fin _ _ => true
  | _ => false

def FV.isNeg : FV → Bool
  | .nan => false
  | .inf n => n
  | .fin n _ => n

/-- Finite and not zero. -/
def FV.isZero : FV → Bool
  | .fin _ m => m.isZero
  | _ => false

/-- The code of a value `k * 2^u`, representable in the format (R204). -/
def FF.enc (F : FF) (neg : Bool) (k : Nat) (u : Int) : Nat :=
  let sign := if neg then 2 ^ (F.eb + F.f) else 0
  if k = 0 then sign
  else
    let e : Int := (k.log2 : Int) + u
    if (1 : Int) - F.bias ≤ e then
      let m := if k.log2 ≤ F.f then k * 2 ^ (F.f - k.log2) else k / 2 ^ (k.log2 - F.f)
      sign + (e + F.bias).toNat * 2 ^ F.f + (m - 2 ^ F.f)
    else
      let sh : Int := u - ((1 : Int) - F.bias - F.f)
      sign + (if 0 ≤ sh then k * 2 ^ sh.toNat else k / 2 ^ (-sh).toNat)

/-! ## Rounding (R209) -/

/-- R56, R114: rounding modes, the stochastic one with its 32 random bits. -/
inductive RM where
  | rne | rtz | rdn | rup
  | sr (r : W32)
  deriving DecidableEq, Repr

def rmOf : Rnd → RM
  | .rne => .rne
  | .rtz => .rtz
  | .rdn => .rdn
  | .rup => .rup

/-- R209: the exponent of the spacing of the format at |x|, for x not 0. -/
def spacing (F : FF) (x : Q) : Int := max (flog2 x.num.natAbs x.den) (1 - (F.bias : Int)) - F.f

/-- R209: `round_fmt` with spacing 2^u: the number k of spacings in |x| after rounding. -/
def roundTo (u : Int) (x : Q) (m : RM) : Nat :=
  let n := if 0 ≤ u then x.num.natAbs else x.num.natAbs * 2 ^ (-u).toNat
  let d := if 0 ≤ u then x.den * 2 ^ u.toNat else x.den
  let k := n / d
  let rem := n % d
  if rem = 0 then k
  else
    let up : Bool := match m with
      | .rne => d < 2 * rem || (2 * rem == d && k % 2 == 1)
      | .rtz => false
      | .rup => 0 < x.num
      | .rdn => x.num < 0
      | .sr r =>
        let src : Int := max (flog2 x.num.natAbs x.den) (-126) - 23
        let n' := (min 24 (u - src)).toNat
        r.toNat % 2 ^ n' < rem * 2 ^ n' / d
    if up then k + 1 else k

/-- R208, R219: flags raised by an operation. -/
structure Flags where
  inv : Bool := false
  ovf : Bool := false
  sat : Bool := false
  deriving DecidableEq, Repr

def Flags.or (a b : Flags) : Flags := ⟨a.inv || b.inv, a.ovf || b.ovf, a.sat || b.sat⟩

/-- R208: the bits of `%fstat`. -/
def Flags.bits (a : Flags) : BitVec 3 := BitVec.ofBool a.sat ++ BitVec.ofBool a.ovf ++ BitVec.ofBool a.inv

/-- R210: `convert` to a floating format; the code and the flags. `special` is policy 1. -/
def convertF (F : FF) (x : FV) (m : RM) (special : Bool) : Nat × Flags :=
  let sign := fun (neg : Bool) => if neg then 2 ^ (F.eb + F.f) else 0
  match x with
  | .nan => if F.hasNaN then (F.nan, {}) else (0, { inv := true })
  | .inf neg =>
    if special && F.hasInf then (sign neg + F.inf, {})
    else if special && F == FF.fp8e4 then (F.nan, {})
    else (sign neg + F.maxCode, { sat := true })
  | .fin neg mag =>
    if mag.isZero then (sign neg, {})
    else
      let x := if neg then mag.neg else mag
      let u := spacing F x
      let k := roundTo u x m
      let top := (F.dec F.maxCode).val
      if top.lt (Q.dy k u) then
        if special && (F.hasInf || F == FF.fp8e4) then
          if m == .rtz || (m == .rdn && !neg) || (m == .rup && neg) then (sign neg + F.maxCode, { ovf := true })
          else if F == FF.fp8e4 then (F.nan, { ovf := true })
          else (sign neg + F.inf, { ovf := true })
        else (sign neg + F.maxCode, { ovf := true, sat := true })
      else (F.enc neg k u, {})

/-- R210: `convert` to an integer range, which always clamps. -/
def convertI (lo hi : Int) (x : FV) (m : RM) : Int × Flags :=
  match x with
  | .nan => (0, { inv := true })
  | .inf neg => (if neg then lo else hi, { sat := true })
  | .fin neg mag =>
    let x := if neg then mag.neg else mag
    let k : Int := roundTo 0 x m
    let y := if neg then -k else k
    if y < lo then (lo, { sat := true }) else if hi < y then (hi, { sat := true }) else (y, {})

/-! ## fp32 values -/

/-- `fval(A, fp32, 0)` of R260. -/
def f32 (w : W32) : FV := FF.fp32.dec w.toNat

/-- R233 `rne32`: an exact value rounded once to fp32. -/
def rne32 (x : Q) : W32 := BitVec.ofNat 32 (convertF FF.fp32 (.fin (x.num < 0) x.abs) .rne true).1

/-- R280 `fp_round`. -/
def fpRound (F : FF) (x : FV) (m : RM) (sat : Bool) : Nat × Flags :=
  match x with
  | .nan => (F.nan, {})
  | _ => convertF F x m (!sat)

/-- R280: exact sum; the flag is INV for ∞ - ∞. A zero sum takes the common sign of two zeros, otherwise -0 only under
`.rdn`. -/
def fvAdd (a b : FV) (m : RM) : FV × Flags :=
  match a, b with
  | .nan, _ | _, .nan => (.nan, {})
  | .inf x, .inf y => if x = y then (.inf x, {}) else (.nan, { inv := true })
  | .inf x, _ => (.inf x, {})
  | _, .inf y => (.inf y, {})
  | .fin n x, .fin p y =>
    if x.isZero && y.isZero && n == p then (.fin n Q.zero, {})
    else
      let z := (FV.val (.fin n x)).add (FV.val (.fin p y))
      if z.isZero then (.fin (m == .rdn) Q.zero, {}) else (.fin (z.num < 0) z.abs, {})

/-- R280: exact product; INV for 0 × ∞. -/
def fvMul (a b : FV) : FV × Flags :=
  match a, b with
  | .nan, _ | _, .nan => (.nan, {})
  | .inf x, .inf y => (.inf (x != y), {})
  | .inf x, .fin n m | .fin n m, .inf x => if m.isZero then (.nan, { inv := true }) else (.inf (x != n), {})
  | .fin n x, .fin p y => (.fin (n != p) (x.mul y), {})

def FV.flip : FV → FV
  | .nan => .nan
  | .inf n => .inf (!n)
  | .fin n m => .fin (!n) m

/-- Order of two values that are not NaN; -0 equals +0. -/
def fvLt (a b : FV) : Bool :=
  match a, b with
  | .inf true, .inf true => false
  | .inf true, _ => true
  | _, .inf true => false
  | .inf false, _ => false
  | _, .inf false => true
  | a, b => a.val.lt b.val

def fvEq (a b : FV) : Bool :=
  match a, b with
  | .inf x, .inf y => x == y
  | .inf _, _ | _, .inf _ => false
  | .nan, _ | _, .nan => false
  | a, b => a.val.eq b.val

/-- R282: order with -0 below +0. -/
def fvLtZ (a b : FV) : Bool := fvLt a b || (a.isZero && b.isZero && a.isNeg && !b.isNeg)

/-! ## Format slots (R114, R211, R212) -/

/-- R114: the floating format of a slot's `ELEM`; `none` for the integer elements 6 and 7. -/
def elemFF (e : Nat) : Option FF :=
  match e with
  | 0 => some FF.fp32 | 1 => some FF.fp16 | 2 => some FF.bf16 | 3 => some FF.fp8e4 | 4 => some FF.fp8e5
  | 5 => some FF.fp4 | _ => none

/-- The width of a slot's element in bits. -/
def elemBits (e : Nat) : Nat :=
  match e with
  | 0 => 32 | 1 => 16 | 2 => 16 | 3 => 8 | 4 => 8 | 5 => 4 | 6 => 8 | _ => 4

/-- R206: the range of int8 and int4. -/
def elemRange (e : Nat) : Int × Int := if e = 6 then (-128, 127) else (-8, 7)

/-- R114 `RMODE`; 4 is stochastic with bits `r`. -/
def slotRM (mode : Nat) (r : W32) : RM :=
  match mode with
  | 0 => .rne | 1 => .rtz | 2 => .rdn | 3 => .rup | _ => .sr r

/-- R213: the SR32 generator. -/
def sr32 (seed item : W64) (ctr : W32) : W32 :=
  let lo := fun (x : W64) => x.extractLsb' 0 32
  let hi := fun (x : W64) => x.extractLsb' 32 32
  let x := lo seed ^^^ lo item
  let x := (x ^^^ (x >>> 16)) * 0x5E2D58D5#32
  let x := x ^^^ ctr
  let x := (x ^^^ (x >>> 15)) * 0x93C4E0A7#32
  let x := x ^^^ hi seed ^^^ hi item
  let x := (x ^^^ (x >>> 16)) * 0x5E2D58D5#32
  x ^^^ (x >>> 16)

/-- R211: an fp32 value to a slot's element, as `CVT.to` writes it: the low bits, sign-extended for integers. An fp32 slot
leaves the value unchanged but for a NaN, which becomes canonical. -/
def cvtElem (e : Nat) (x : FV) (m : RM) (special : Bool) : W32 × Flags :=
  match elemFF e with
  | some F => let (c, fl) := convertF F x m (special || e == 0); (BitVec.ofNat 32 c, fl)
  | none => let (lo, hi) := elemRange e; let (y, fl) := convertI lo hi x m; (ofInt 32 y, fl)

/-- R211: the exact value of a slot's element. -/
def elemVal (e : Nat) (c : Nat) : FV :=
  match elemFF e with
  | some F => F.dec (c % 2 ^ F.width)
  | none => let y := sext c (elemBits e); .fin (y < 0) ⟨y.natAbs, 1⟩

/-- R211: an element as fp32; exact, a NaN is canonical. -/
def elemTo32 (e : Nat) (c : Nat) : W32 :=
  BitVec.ofNat 32 (fpRound FF.fp32 (elemVal e c) .rne false).1

end Sys2Proof.Machine
end

