-- ==== Sys2Proof/Machine/Flags.lean ====
section
/-! DEFINITION. Flag computations: sticky flags (R208, R219), integer clamping (R260). -/

namespace Sys2Proof.Machine

open Sys2Proof

/-- R208: flags raised by an instruction accumulate in `%fstat`. -/
def Warp.raise (w : Warp) (fl : Flags) : Warp := { w with fstat := w.fstat ||| fl.bits }

/-- R219: the bits of `%mstat`: INV, OVF. -/
def mflags (inv ovf : Bool) : BitVec 2 := BitVec.ofBool inv ++ BitVec.ofBool ovf

/-- R219: flags raised by a matrix instruction accumulate in `%mstat`. -/
def Warp.raiseM (w : Warp) (fl : BitVec 2) : Warp := { w with mstat := w.mstat ||| fl }

/-- R260 `clamp`: limit `y` to the range from `lo` to `hi`; SAT when it changes. -/
def clampTo (lo hi y : Int) : Int × Flags :=
  if y < lo then (lo, { sat := true }) else if hi < y then (hi, { sat := true }) else (y, {})

/-- The range of a signed or unsigned element of `e` bits. -/
def elemBounds (signed : Bool) (e : Nat) : Int × Int :=
  if signed then (-(2 ^ (e - 1)), 2 ^ (e - 1) - 1) else (0, 2 ^ e - 1)

/-- R263, R265, R266: the element result, clamped under `.sat`. -/
def satElem (sat signed : Bool) (e : Nat) (y : Int) : Int × Flags :=
  if sat then clampTo (elemBounds signed e).1 (elemBounds signed e).2 y else (y, {})

/-- Flags of several elements or lanes. -/
def Flags.all (l : List Flags) : Flags := l.foldl Flags.or {}

end Sys2Proof.Machine
end

