-- ==== Sys2Proof/Config.lean ====
section
/-! DEFINITION. What the spec leaves open: free values without a body, applied to the model's own counter `fresh`
(DESIGN CHOICE, log 3), so that no proof can see what they are. -/

namespace Sys2Proof.Config

/-- DESIGN CHOICE, log 3: which of the actions that are possible in a state happens next (the order between units is not stated). -/
opaque freeChoice : Nat → Nat

/-- DESIGN CHOICE, log 3: a free natural number, for a choice or a count the spec leaves open. -/
opaque freeNat : Nat → Nat

/-- DESIGN CHOICE, log 13: a byte whose value the spec does not state. -/
opaque freeByte : Nat → Byte

/-- DESIGN CHOICE, log 13: a word whose value the spec does not state. -/
opaque freeWord : Nat → W32

/-- R298: which of the words that realise a permutation `SETNET.perm` writes. DESIGN CHOICE, log 13. -/
opaque freeNet : Nat → BitVec 144

/-- DESIGN CHOICE, log 4: cycles that pass during a step, less one. -/
opaque freeCycles : Nat → Nat

/-- DESIGN CHOICE, log 4: nanoseconds that pass during a step. -/
opaque freeNs : Nat → Nat

/-- R157: the hash that homes a line over the slices in service, by the list of those slices and the line's key; it is not
architectural. DESIGN CHOICE, log 5. -/
opaque homeHash : List Nat → Nat → Nat

/-- R438, R439: which of the entries that a translation may find it uses, by the model's counter, address space and page.
DESIGN CHOICE, log 36. -/
opaque freeEntry : Nat → Nat → Nat → Nat

/-- R451: the pages of 16 KiB that boot takes from the top of region 0, by the number of pages in service.
DESIGN CHOICE, log 31. -/
opaque reservePages : Nat → Nat

/-- R433: the physical address of a queue's doorbell page, which the spec does not give. DESIGN CHOICE, log 54. -/
opaque doorbellPage : Nat → Nat

/-- R466: the silicon revision in `MG_ID`. DESIGN CHOICE, log 56. -/
opaque revision : BitVec 16

/-- R475: the nonce of an ECDSA signature. PRESUMED, log 60. -/
opaque signNonce : Nat → Nat

end Sys2Proof.Config
end

