-- ==== Sys2Proof/Machine/Ops.lean ====
section
/-! DEFINITION. Named operations over the state: tables, memory, free values, reports, grid termination, stops. -/

namespace Sys2Proof.Machine

open Sys2Proof

/-! ## Tables of the state -/

def State.warp? (s : State) (wid : Nat) : Option Warp := tget s.warps wid
def State.setWarp (s : State) (wid : Nat) (w : Warp) : State := { s with warps := tset s.warps wid w }
def State.modWarp (s : State) (wid : Nat) (f : Warp → Warp) : State := { s with warps := tmod s.warps wid f }

def State.team? (s : State) (tid : Nat) : Option Team := tget s.teams tid
def State.setTeam (s : State) (tid : Nat) (t : Team) : State := { s with teams := tset s.teams tid t }
def State.modTeam (s : State) (tid : Nat) (f : Team → Team) : State := { s with teams := tmod s.teams tid f }

def State.grid? (s : State) (gid : Nat) : Option Grid := tget s.grids gid
def State.modGrid (s : State) (gid : Nat) (f : Grid → Grid) : State := { s with grids := tmod s.grids gid f }

def State.core (s : State) (k : Nat) : Core := (tget s.cores k).getD Core.reset
def State.setCore (s : State) (k : Nat) (c : Core) : State := { s with cores := tset s.cores k c }
def State.modCore (s : State) (k : Nat) (f : Core → Core) : State := s.setCore k (f (s.core k))

def State.part (s : State) (k : Nat) : Partition := (tget s.parts k).getD Partition.reset
def State.modPart (s : State) (k : Nat) (f : Partition → Partition) : State :=
  { s with parts := tset s.parts k (f (s.part k)) }

def State.die (s : State) (k : Nat) : Die := (tget s.dies k).getD Die.reset
def State.modDie (s : State) (k : Nat) (f : Die → Die) : State := { s with dies := tset s.dies k (f (s.die k)) }

def Die.hall (d : Die) (h : Nat) : Hall := (tget d.halls h).getD Hall.reset
def State.hall (s : State) (socket h : Nat) : Hall := (s.die socket).hall h
def State.modHall (s : State) (socket h : Nat) (f : Hall → Hall) : State :=
  s.modDie socket fun d => { d with halls := tset d.halls h (f (d.hall h)) }

def State.queue? (s : State) (q : Nat) : Option Queue := tget s.queues q
def State.modQueue (s : State) (q : Nat) (f : Queue → Queue) : State := { s with queues := tmod s.queues q f }

/-- The socket of a core key. -/
def socketOf (core : Nat) : Nat := core / 32

/-- R111: the partition of a warp of a team on a core. -/
def partOf (core num : Nat) : Nat := core * 4 + num % 4

/-- The key of a warp. -/
def widOf (tid num : Nat) : Nat := tid * 32 + num

/-- The grids' warps: the keys of the warps of a team. -/
def Team.wids (t : Team) (tid : Nat) : List Nat := (List.range t.nwarps).map (widOf tid)

/-- A new identifier for a request, an operation or a trace. DESIGN CHOICE, log 2. -/
def State.newId (s : State) : Nat × State := (s.nextId, { s with nextId := s.nextId + 1 })

/-! ## Free values (DESIGN CHOICE, log 3) -/

/-- A free choice among `n` alternatives; none is made when there is only one. DESIGN CHOICE, log 3. -/
def State.choose (s : State) (n : Nat) : Nat × State :=
  if n ≤ 1 then (0, s) else (Config.freeChoice s.fresh % n, { s with fresh := s.fresh + 1 })

/-- A free element of a list. DESIGN CHOICE, log 3. -/
def State.pick {α : Type} (s : State) (l : List α) : Option α × State :=
  let (i, s) := s.choose l.length
  (l[i]?, s)

/-! ## Device memory -/

/-- A byte of region 0; an unlisted byte reads 0 (DESIGN CHOICE, log 7). -/
def memByte (m : List Host.Cell) (a : Nat) : Byte := cget m a

/-- The memory with one byte written, in the canonical form. DESIGN CHOICE, log 7. -/
def memSet (m : List Host.Cell) (a : Nat) (b : Byte) : List Host.Cell := cset m a b

/-- The canonical form of memory: rising addresses, no byte listed as 0. DESIGN CHOICE, log 7. -/
def Memory.wf (m : List Host.Cell) : Bool := cwf (w := 8) m

def State.byte (s : State) (a : Nat) : Byte := memByte s.mem a

/-- A write of one byte of region 0, with the byte before it kept in the history (DESIGN CHOICE, log 6). -/
def State.poke (s : State) (a : Nat) (b : Byte) : State :=
  { s with mem := memSet s.mem a b, hist := (a, s.byte a) :: s.hist }

def State.pokes (s : State) (l : List (Nat × Byte)) : State := l.foldl (fun s x => s.poke x.1 x.2) s

/-- Write consecutive bytes. -/
def State.pokeBytes (s : State) (a : Nat) (bs : List Byte) : State :=
  s.pokes ((List.range bs.length).map (a + ·) |>.zip bs)

def State.peek (s : State) (a n : Nat) : List Byte := (List.range n).map fun i => s.byte (a + i)

/-- A little-endian number in memory. -/
def State.peekN (s : State) (a n : Nat) : Nat := leNat (s.peek a n)

/-- The moment of the state in the history of memory: the number of bytes written so far. DESIGN CHOICE, log 6. -/
def State.moment (s : State) : Nat := s.hist.length

/-- The byte as it stood at a moment. DESIGN CHOICE, log 6. -/
def State.byteAt (s : State) (moment a : Nat) : Byte :=
  match (s.hist.take (s.hist.length - moment)).reverse.find? (fun x => x.1 == a) with
  | some x => x.2
  | none => s.byte a

/-! ## Causes (R421) -/

/-- R421: the causes of handler packets. -/
inductive Cause where
  | ridx | ialign | illEnc | emuNest | trap | bkpt | dbgNest | loopNest | loopEnd | barIdx | stairStall | nodeEdge
  | nodeFull | nodeIdx | hallNone | hallRange | hallRo | hallHeld | galRange | galAlign | memAlign | cpyArg | tagIdle
  | launchWarp | peerNone | tdescBad | mxArg | frameNone | rastGrid | rayNode | payload | bucketLost
  | lr (i : Nat) | qe (i : Nat) | termFault | termCmd | termParent | termStopped | schedLost | retired | frameDone
  deriving DecidableEq, Repr

def Cause.code : Cause → Nat
  | .ridx => 0x01 | .ialign => 0x02 | .illEnc => 0x03 | .emuNest => 0x04 | .trap => 0x05 | .bkpt => 0x06
  | .dbgNest => 0x07 | .loopNest => 0x08 | .loopEnd => 0x09 | .barIdx => 0x0A | .stairStall => 0x0B
  | .nodeEdge => 0x0C | .nodeFull => 0x0D | .nodeIdx => 0x0E | .hallNone => 0x0F | .hallRange => 0x10
  | .hallRo => 0x11 | .hallHeld => 0x12 | .galRange => 0x13 | .galAlign => 0x14 | .memAlign => 0x15
  | .cpyArg => 0x16 | .tagIdle => 0x17 | .launchWarp => 0x18 | .peerNone => 0x19 | .tdescBad => 0x1A
  | .mxArg => 0x1B | .frameNone => 0x1C | .rastGrid => 0x1D | .rayNode => 0x1E | .payload => 0x1F
  | .bucketLost => 0x20 | .lr i => 0x40 + i | .qe i => 0x60 + i | .termFault => 0x80 | .termCmd => 0x81
  | .termParent => 0x82 | .termStopped => 0x83 | .schedLost => 0x84 | .retired => 0xA0 | .frameDone => 0xA1

/-- R423: another event can be held. DEDUCED, log 49. -/
def State.canReport (s : State) : Bool := s.hevents.length < 4096

/-- R420: an event joins those waiting for a handler-queue slot. DEDUCED, log 49. -/
def State.report (s : State) (e : HEvent) : State := { s with hevents := s.hevents ++ [e] }

/-- R420: an event of a grid, without a warp. -/
def gridEvent (g : Grid) (gid : Nat) (c : Cause) (d0 : W64) : HEvent where
  hq := g.handlerQ
  cause := c.code
  pktId := g.pktId
  qid := BitVec.ofNat 32 g.qid
  pktIdx := g.pktIdx
  grid := BitVec.ofNat 32 gid
  teamlin := 0
  socket := 0
  core := 0
  warp := 0
  lanes := 0
  pc := 0
  d0 := d0
  d1 := 0

/-- R420: a warp report. -/
def warpEvent (g : Grid) (t : Team) (w : Warp) (c : Cause) (lanes : Mask) (pc d0 d1 : W64) : HEvent :=
  { gridEvent g t.gid c d0 with
    teamlin := BitVec.ofNat 32 t.lin, socket := socketOf t.core, core := t.core % 32, warp := w.num,
    lanes := lanes, pc := pc, d1 := d1 }

/-! ## Releasing what a team or grid holds -/

/-- The teams of a grid. -/
def State.teamsOf (s : State) (gid : Nat) : List (Nat × Team) := s.teams.filter fun x => x.2.gid == gid

/-- A hall is given up by its holder; its contents stay for the next holder of the grid (R158). -/
def State.releaseHall (s : State) (socket h : Nat) : State := s.modHall socket h fun x => { x with holder := none }

/-- A warp leaves its partition's sets and queues (R89, R127). -/
def State.leavePart (s : State) (core wid num : Nat) : State :=
  s.modPart (partOf core num) fun p =>
    { p with active := p.active.filter (· != wid), pending := p.pending.filter (· != wid),
             nonResident := p.nonResident.filter (· != wid), sfu := p.sfu.filter (·.wid != wid) }

/-- The traces and shader invocations of a team's warps end (R424). -/
def State.dropTraces (s : State) (wids : List Nat) : State :=
  { s with traces := s.traces.filter fun x => !wids.contains x.2.wid }

/-- A team and its warps are removed, with everything the core and die hold for them. -/
def State.dropTeam (s : State) (tid : Nat) : State :=
  match s.team? tid with
  | none => s
  | some t =>
    let wids := t.wids tid
    let s := wids.foldl (fun s wid => s.leavePart t.core wid (wid % 32)) s
    let s := s.modCore t.core fun c =>
      { c with mxq := c.mxq.filter (·.tid != tid)
               inflight := c.inflight.filter fun r => !(r.wid / 32 == tid && match r.op with | .load _ => true | _ => false) }
    let s := match t.hall with
      | some h => s.releaseHall (socketOf t.core) h
      | none => s
    let s := s.dropTraces wids
    { s with
      teams := tdel s.teams tid
      warps := s.warps.filter fun x => x.1 / 32 != tid
      bars := s.bars.filter fun b => !(b.lvl == .team && b.owner == tid)
      ops := s.ops.filter (·.tid != tid) }

/-- R110, R119: a die group of a grid: its `%die` and the socket where it is. A sequence whose die has left service goes on as
another group with the same `%die`. -/
def groupOf (dieIdx socket : Nat) : Nat := dieIdx * 16 + socket

def Team.group (t : Team) : Nat := groupOf t.dieIdx (socketOf t.core)

/-- R117: the die scratch of a die group is released. -/
def State.releaseScratch (s : State) (gid grp : Nat) : State :=
  match tget s.scratch (gid * 128 + grp) with
  | none => s
  | some (units, _) =>
    let s := units.foldl (fun s u => s.modHall (grp % 16) u.1 fun h => { h with carved := tdel h.carved u.2 }) s
    { s with scratch := tdel s.scratch (gid * 128 + grp) }

/-- R159: halls are held for a grid no more. -/
def State.unreserve (s : State) (gid : Nat) : State :=
  { s with dies := s.dies.map fun d => (d.1, { d.2 with halls := d.2.halls.map fun h =>
      (h.1, if h.2.reserved == some gid then { h.2 with reserved := none } else h.2) }) }

def sockets : List Nat := [1, 2, 3, 4, 5, 6]

/-- Everything the dies and cores hold for a grid is released (R127, R424). -/
def State.releaseGrid (s : State) (gid : Nat) : State :=
  let s := ((s.scratch.map (·.1)).filter (· / 128 == gid)).foldl (fun s k => s.releaseScratch gid (k % 128)) s
  let s := s.unreserve gid
  let s := sockets.foldl (fun s d => s.modDie d fun x => { x with bins := x.bins.filter (·.gid != gid) }) s
  { s with
    traces := s.traces.filter fun x => x.2.gid != gid
    bars := s.bars.filter fun b => b.lvl == .team || b.owner / 2 ^ 40 != gid
    cores := s.cores.map fun x => (x.1, { x.2 with landed := x.2.landed.filter fun l => l.1 != gid }) }

end Sys2Proof.Machine
end

