-- ==== Sys2Proof/WellFormed.lean ====
section
/-! DEFINITION. The reserved operand combinations of R22 to R31, R51, R53, R61, R63 and R65 and of the entries of
chapters 10 to 13: what a well-formed instruction is. Checks that depend on the launch record (R31 stair channels,
R134, R212, R372) are made at issue. -/

namespace Sys2Proof

/-! ## Special registers (R323) -/

/-- R323: access of a special register. -/
inductive SpecAccess where
  | ro | rw | w1c
  deriving DecidableEq, Repr

/-- R323: a row of the special-register table. -/
structure SpecInfo where
  is64 : Bool
  uniform : Bool
  access : SpecAccess
  deriving DecidableEq, Repr

/-- R323: the special registers by number; `none` for a number that is not assigned. -/
def specInfo (n : BitVec 8) : Option SpecInfo :=
  let n := n.toNat
  if n = 0x00 then some ⟨false, false, .ro⟩
  else if n = 0x01 then some ⟨false, true, .ro⟩
  else if n ≤ 0x05 then some ⟨false, false, .ro⟩
  else if n ≤ 0x09 then some ⟨false, true, .ro⟩
  else if n = 0x0A then some ⟨true, false, .ro⟩
  else if n ≤ 0x13 then some ⟨false, true, .ro⟩
  else if n = 0x14 then some ⟨true, true, .ro⟩
  else if n ≤ 0x17 then some ⟨false, true, .ro⟩
  else if n = 0x18 then some ⟨false, false, .w1c⟩
  else if n = 0x19 then some ⟨true, true, .ro⟩
  else if n ≤ 0x1B then some ⟨false, true, .w1c⟩
  else if n = 0x1C then some ⟨false, false, .rw⟩
  else if n ≤ 0x20 then some ⟨false, false, .ro⟩
  else if n ≤ 0x22 then some ⟨true, true, .ro⟩
  else if n ≤ 0x27 then some ⟨false, false, .ro⟩
  else if n < 0x30 then none
  else if n ≤ 0x3A then some ⟨false, true, .ro⟩
  else if n = 0x3B then some ⟨true, true, .ro⟩
  else if n = 0x3C then some ⟨false, false, .rw⟩
  else if n < 0x40 then none
  else if n ≤ 0x41 then some ⟨false, true, .ro⟩
  else if n = 0x42 then some ⟨true, true, .rw⟩
  else none

/-- R323: the register is marked warp-uniform. -/
def specUniform (n : BitVec 8) : Bool := (specInfo n).any (·.uniform)

/-- R323: the register is 64 bits wide. -/
def specIs64 (n : BitVec 8) : Bool := (specInfo n).any (·.is64)

/-! ## What a field accepts -/

/-- What a source field accepts (R25, R259, R261 and the entries of chapters 10 to 13). `neg` admits the negate bit of
classes 0 and 2 (R28). -/
inductive SrcKind where
  /-- the field is not used: class 2, index 0x10 (R31) -/
  | unused
  /-- classes 0 to 5; the immediate only where bits 19:0 are imm (R259) -/
  | value (neg : Bool)
  /-- a 64-bit source of R261 -/
  | value64 (neg : Bool)
  /-- class 5 only -/
  | predicate
  /-- class 0 without negation -/
  | vec
  /-- class 0, an even register -/
  | vecPair
  /-- class 0, a multiple of 4 -/
  | vecQuad
  /-- R276: class 0, 1, 2 or 4, no negation -/
  | index
  /-- R311: class 0, 1, 2 or 5 -/
  | loopCount
  /-- classes 0, 1 and 2, no negation (R326) -/
  | base
  /-- the 64-bit base of R326 -/
  | base64
  /-- R300: class 1 uniform, hard constant, or immediate; no negation -/
  | uniform
  /-- a 64-bit source that obeys R22; no negation -/
  | uniform64
  /-- R331: a uniform pair or a 64-bit uniform special register -/
  | constBase
  /-- an even uniform pair -/
  | uniPair
  /-- R349: a uniform pair or a hard constant -/
  | tagMask
  /-- k0 to k(63 - n) -/
  | uniRun (n : Nat)
  /-- R363: k0 to k63 or a hard constant -/
  | uniOrConst
  /-- R279: k0 to k63, m0 to m11 or a hard constant -/
  | maskWord
  /-- R310: class 1 uniform, hard constant or predicate -/
  | msetSrc
  | mask
  | tile
  | net
  | special
  deriving DecidableEq, Repr

/-- What the destination field accepts (R23, R24, R258, R294, R325, R358). -/
inductive DstKind where
  /-- `DST` zero (R61) -/
  | none
  | v
  | vu
  | vPair
  | vuPair
  | vQuad
  /-- a pair of V registers without NWB: `CALL`, `CALLX` -/
  | callPair
  | u
  | p
  /-- V or P -/
  | vp
  | net
  | mask
  | tile
  | acc
  | special
  deriving DecidableEq, Repr

/-- A source that obeys R22. -/
def Src.uniformOk : Src → Bool
  | .uni _ | .mask _ | .imm _ | .const _ _ => true
  | .spec n => specUniform n
  | _ => false

/-- A negate bit of class 0 or 2 is set. -/
def Src.negated : Src → Bool
  | .vec n _ | .win n _ | .const n _ => n
  | _ => false

/-- The source is named with an assigned index: a mask below 12, an assigned special register (R25, R320). -/
def Src.assigned : Src → Bool
  | .mask i => i.toNat < 12
  | .spec n => (specInfo n).isSome
  | _ => true

/-- R261: which sources are 64-bit operands. -/
def Src.is64 : Src → Bool
  | .vec _ i => i.toNat % 2 == 0
  | .uni i => i.toNat % 2 == 0
  | .spec n => specIs64 n
  | .win _ k => k.toNat < 7
  | .const _ _ | .imm _ | .pred _ _ => true
  | _ => false

/-- The unused-field encoding, class 2 index 0x10 (R31). -/
def Src.zero : Src := .const false 0

/-- R25, R31: what a field of kind `k` accepts; `immOk` says that bits 19:0 of the opcode are imm. DEDUCED, log 20. -/
def SrcKind.accepts (immOk : Bool) (k : SrcKind) (x : Src) : Bool :=
  x.assigned &&
  match k with
  | .unused => x == Src.zero
  | .value neg =>
    (neg || !x.negated) &&
      match x with
      | .imm _ => immOk
      | .tile _ | .net _ => false
      | _ => true
  | .value64 neg =>
    (neg || !x.negated) && x.is64 &&
      match x with
      | .imm _ => immOk
      | _ => true
  | .predicate => match x with | .pred _ _ => true | _ => false
  | .vec => match x with | .vec false _ => true | _ => false
  | .vecPair => match x with | .vec false i => i.toNat % 2 == 0 | _ => false
  | .vecQuad => match x with | .vec false i => i.toNat % 4 == 0 | _ => false
  | .index =>
    match x with
    | .vec false _ | .uni _ | .mask _ | .spec _ | .win false _ | .const false _ => true
    | .imm _ => immOk
    | _ => false
  | .loopCount =>
    match x with
    | .vec _ _ | .uni _ | .mask _ | .spec _ | .win _ _ | .const _ _ | .pred _ _ => true
    | _ => false
  | .base =>
    match x with
    | .vec false _ | .uni _ | .mask _ | .spec _ | .win false _ | .const false _ => true
    | _ => false
  | .base64 =>
    x.is64 &&
      match x with
      | .vec false _ | .uni _ | .spec _ | .win false _ | .const false _ => true
      | _ => false
  | .uniform => x.uniformOk && !x.negated && (match x with | .imm _ => immOk | _ => true)
  | .uniform64 => x.uniformOk && !x.negated && x.is64 && (match x with | .imm _ => immOk | _ => true)
  | .constBase => match x with | .uni i => i.toNat % 2 == 0 | .spec n => specIs64 n && specUniform n | _ => false
  | .uniPair => match x with | .uni i => i.toNat % 2 == 0 | _ => false
  | .tagMask => match x with | .uni i => i.toNat % 2 == 0 | .const false _ => true | _ => false
  | .uniRun n => match x with | .uni i => i.toNat + n < 64 | _ => false
  | .uniOrConst => match x with | .uni _ | .const false _ => true | _ => false
  | .maskWord => match x with | .uni _ | .mask _ | .const false _ => true | _ => false
  | .msetSrc =>
    match x with
    | .uni _ | .mask _ | .const false _ | .pred _ _ => true
    | .spec n => specUniform n
    | _ => false
  | .mask => match x with | .mask _ => true | _ => false
  | .tile => match x with | .tile _ => true | _ => false
  | .net => match x with | .net _ => true | _ => false
  | .special => match x with | .spec _ => true | _ => false

/-- R23, R24: what a destination of kind `k` accepts. DEDUCED, log 20. -/
def DstKind.accepts (k : DstKind) (d : Dst) : Bool :=
  match k, d with
  | .none, .vec i => i == 0
  | .v, .vec _ | .v, .nwb => true
  | .vu, .vec _ | .vu, .nwb | .vu, .uni _ => true
  | .vPair, .vec i => i.toNat % 2 == 0
  | .vPair, .nwb => true
  | .vuPair, .vec i => i.toNat % 2 == 0
  | .vuPair, .uni i => i.toNat % 2 == 0
  | .vuPair, .nwb => true
  | .vQuad, .vec i => i.toNat % 4 == 0
  | .vQuad, .nwb => true
  | .callPair, .vec i => i.toNat % 2 == 0
  | .u, .uni _ => true
  | .p, .pred _ => true
  | .vp, .vec _ | .vp, .nwb | .vp, .pred _ => true
  | .net, .cls3 i => i.toNat < 4
  | .mask, .cls3 i => i.toNat < 12
  | .tile, .cls3 i => i.toNat < 8
  | .acc, .cls3 i => i.toNat < 64
  | .special, .cls3 i => (specInfo i).any (fun x => x.access != .ro)
  | _, _ => false

/-- The operands of a standard word: what each field accepts, whether bits 19:0 are imm and their value, whether the
guard must be 0b0111, and whether R22 is waived (`PMOV.pk`, R279). -/
structure Shape where
  dst : DstKind
  a : SrcKind := .unused
  b : SrcKind := .unused
  c : SrcKind := .unused
  imm : Option (BitVec 20) := none
  guard7 : Bool := false
  noR22 : Bool := false
  deriving DecidableEq, Repr

/-- The destination is a uniform register. -/
def Dst.isUni : Dst → Bool
  | .uni _ => true
  | _ => false

/-- The stair sources of a word. -/
def Fmt.stairs (f : Fmt) : List (BitVec 2 × BitVec 3) :=
  [f.a, f.b, f.c].filterMap fun x => match x with | .stair j k => some (j, k) | _ => none

/-- A class-4 source among the three. -/
def Fmt.immForms (f : Fmt) : List (BitVec 2) :=
  [f.a, f.b, f.c].filterMap fun x => match x with | .imm n => some n | _ => none

/-- R51: the guard 0b1111 is reserved. -/
def Guard.ok (g : Guard) : Bool := !(g.neg && g.p == 7)

/-- R51: the guard of an unguarded instruction. -/
def Guard.always : Guard := ⟨false, 7⟩

/-- R31: at most one distinct stair pair. -/
def Fmt.stairsOk (f : Fmt) : Bool :=
  match f.stairs with
  | [] => true
  | x :: rest => rest.all (· == x)

/-- R27, R53: imm20 is zero when no source is class 4, and form 3 has bits 19:16 zero. -/
def Fmt.immOk (f : Fmt) (imm : BitVec 20) : Bool :=
  (!f.immForms.isEmpty || imm == 0) &&
  (!f.immForms.contains 3 || imm.extractLsb' 16 4 == 0)

/-- R22 to R31, R51, R53, R61: the operand rules of one word. -/
def Shape.ok (sh : Shape) (f : Fmt) : Bool :=
  f.g.ok && (!sh.guard7 || f.g == Guard.always) &&
  sh.dst.accepts f.d &&
  sh.a.accepts sh.imm.isSome f.a && sh.b.accepts sh.imm.isSome f.b && sh.c.accepts sh.imm.isSome f.c &&
  (!f.d.isUni || sh.noR22 || (f.a.uniformOk && f.b.uniformOk && f.c.uniformOk)) &&
  f.stairsOk && (match sh.imm with | some i => f.immOk i | none => true)

/-! ## Types an opcode admits (R57) -/

def IType.is32 : IType → Bool
  | .s32 | .n32 => true
  | _ => false

def Size.is64 : Size → Bool
  | .w64 => true
  | _ => false

def AType.is64 : AType → Bool
  | .n64 => true
  | _ => false

/-- R336: `.f32` admits add, min, max and exch only. -/
def AOp.admits (o : AOp) (t : AType) : Bool :=
  match t, o with
  | .f32, .and | .f32, .or | .f32, .xor | .f32, .inc => false
  | _, _ => true

/-- R336: operations on untyped bits, where negation is reserved. -/
def AOp.typed : AOp → Bool
  | .add | .min | .max | .inc => true
  | _ => false

/-- R304: reductions of typed values. -/
def ROp.typed : ROp → Bool
  | .and | .or | .xor => false
  | _ => true

/-! ## Half-operations (R63 to R65) -/

/-- R64: the number of sources of a half-operation. -/
def HOp.sources : HOp → Nat
  | .hnop => 0
  | .mov => 1
  | .ffmaF32 | .ffmaF16x2 | .ffmaBf16x2 | .imadS32 | .dp4S8x4 | .dp4N8x4 | .dp8S4x8 | .dp2S16x2 => 3
  | _ => 2

/-- R28: the half-operation reads typed operands, so negation is admitted. -/
def HOp.typed : HOp → Bool
  | .hnop | .and | .or | .xor | .andn | .shl | .shr | .sar | .mov => false
  | _ => true

/-- The unused half source 0x90 (R63). -/
def HSrc.zero : HSrc := .const 0

/-- R63, R65: the operand rules of one half. -/
def Half.ok (h : Half) : Bool :=
  (h.op.sources ≥ 1 || h.a == HSrc.zero) && (h.op.sources ≥ 2 || h.b == HSrc.zero) &&
  (h.op.sources ≥ 3 || h.c == HSrc.zero) &&
  (!h.nwb || h.d == 0) && (!h.negA || h.op.typed) && (!h.negZ || (h.op.typed && h.op.sources ≥ 2)) &&
  (h.op != .hnop || (h.d == 0 && !h.nwb))

/-! ## Copies (R346) -/

/-- R346: source A, the destination of a copy: an address or an offset. -/
def cpyDst : CpyDir → SrcKind
  | .gg | .gal2gl | .hall2gl | .ds2gl => .uniform64
  | .gl2gal | .gl2hall | .gl2ds => .uniform

/-- R346: source B, the source of a copy: an address or an offset. -/
def cpySrc : CpyDir → SrcKind
  | .gg | .gl2gal | .gl2hall | .gl2ds => .uniform64
  | .gal2gl | .hall2gl | .ds2gl => .uniform

/-! ## The whole word -/

/-- The fields of an instruction that has a standard word, with its shape; `none` for the paired word, for words that
are not instructions and for the units' events. DEDUCED, log 20. -/
def Instr.shape : Instr → Option (Fmt × Shape)
  | .nop h => some (⟨.always, h, .vec 0, .zero, .zero, .zero⟩, { dst := .none, guard7 := true })
  | .iadd f i _ _ | .isub f i _ _ => some (f, { dst := .vu, a := .value true, b := .value true, imm := some i })
  | .imul f i _ | .imulh f i _ => some (f, { dst := .vu, a := .value true, b := .value true, imm := some i })
  | .imad f i _ _ =>
    some (f, { dst := .vu, a := .value true, b := .value true, c := .value true, imm := some i })
  | .imadw f i _ =>
    some (f, { dst := .vuPair, a := .value true, b := .value true, c := .value64 true, imm := some i })
  | .imin f i _ | .imax f i _ => some (f, { dst := .vu, a := .value true, b := .value true, imm := some i })
  | .iabs f i _ _ => some (f, { dst := .vu, a := .value true, imm := some i })
  | .andB f i | .orB f i | .xorB f i | .andnB f i | .shl f i | .shr f i | .sar f i | .rotl f i =>
    some (f, { dst := .vu, a := .value false, b := .value false, imm := some i })
  | .notB f i | .popc f i | .clz f i | .ctz f i | .brev f i =>
    some (f, { dst := .vu, a := .value false, imm := some i })
  | .funsh f i _ | .bfx f i _ | .bfi f i =>
    some (f, { dst := .vu, a := .value false, b := .value false, c := .value false, imm := some i })
  | .iset f i fm _ _ =>
    some (f, { dst := if fm = .p then .p else .vu, a := .value true, b := .value true, imm := some i })
  | .set64 f i fm _ _ =>
    some (f, { dst := if fm = .p then .p else .vu, a := .value64 true, b := .value64 true, imm := some i })
  | .sel f i => some (f, { dst := .vu, a := .value false, b := .value false, c := .predicate, imm := some i })
  | .lea f _ _ => some (f, { dst := .vuPair, a := .value64 false, b := .value true })
  | .add64 f i | .sub64 f i =>
    some (f, { dst := .vuPair, a := .value64 true, b := .value64 true, imm := some i })
  | .mov f i .direct => some (f, { dst := .vu, a := .value false, imm := some i })
  | .mov f i .fromIdx => some (f, { dst := .v, a := .index, imm := some i })
  | .mov f i .toIdx => some (f, { dst := .none, a := .index, b := .value false, imm := some i })
  | .movi f _ _ => some (f, { dst := .vu })
  | .pset f _ => some (f, { dst := .p, a := .predicate, b := .predicate })
  | .pmov f .pk => some (f, { dst := .u, a := .predicate, noR22 := true })
  | .pmov f .kp => some (f, { dst := .p, a := .maskWord })
  | .pmov f .pp => some (f, { dst := .p, a := .predicate })
  | .fadd f i _ _ _ | .fsub f i _ _ _ | .fmul f i _ _ _ =>
    some (f, { dst := .vu, a := .value true, b := .value true, imm := some i })
  | .ffma f i _ _ _ =>
    some (f, { dst := .vu, a := .value true, b := .value true, c := .value true, imm := some i })
  | .fmin f i _ | .fmax f i _ => some (f, { dst := .vu, a := .value true, b := .value true, imm := some i })
  | .fset f i fm _ _ _ =>
    some (f, { dst := if fm = .p then .p else .vu, a := .value true, b := .value true, imm := some i })
  | .frnd f i _ _ | .fclas f i _ | .sfu f i _ | .cvtTo f i _ _ | .cvtiI2f f i _ _ | .cvtiF2i f i _ _ _ =>
    some (f, { dst := .vu, a := .value true, imm := some i })
  | .fscl f i _ => some (f, { dst := .vu, a := .value true, b := .value true, imm := some i })
  | .cvtFrom f i _ => some (f, { dst := .vu, a := .value false, imm := some i })
  | .pack f i .e16 _ => some (f, { dst := .vu, a := .value true, b := .value true, imm := some i })
  | .pack f i _ _ =>
    some (f, { dst := .vu, a := .value true, b := .value true, c := .value false, imm := some i })
  | .unpk f i _ => some (f, { dst := .vu, a := .value false, b := .value true, imm := some i })
  | .dp2 f _ => some (f, { dst := .vu, a := .value true, b := .value true, c := .value true })
  | .dp4 f i _ | .dp8 f i | .hdp2 f i _ _ =>
    some (f, { dst := .vu, a := .value true, b := .value true, c := .value true, imm := some i })
  | .setnetRaw f => some (f, { dst := .net, a := .uniRun 4 })
  | .setnetPerm f => some (f, { dst := .net, a := .vec })
  | .perm f _ => some (f, { dst := .v, a := .vec, b := .net })
  | .slide f i _ _ fillC =>
    some (f, { dst := .v, a := .vec, b := .uniform, c := if fillC then .value false else .unused, imm := some i })
  | .bcast f i _ => some (f, { dst := .v, a := .vec, b := .uniform, imm := some i })
  | .vote f op _ => some (f, { dst := if op = .ballot then .v else .vp, a := .value false })
  | .elect f _ => some (f, { dst := .vp })
  | .redux f op _ | .scan f op _ _ => some (f, { dst := .v, a := .value op.typed })
  | .matchK f b _ => some (f, { dst := .v, a := .value (b != .bits) })
  | .bra f _ => some (f, { dst := .none })
  | .brx f | .ret f => some (f, { dst := .none, a := .value64 false })
  | .call f _ => some (f, { dst := .callPair })
  | .callx f => some (f, { dst := .callPair, a := .value64 false })
  | .loop f _ _ => some (f, { dst := .none, a := .loopCount })
  | .exit f => some (f, { dst := .none })
  | .join f | .waitm f => some (f, { dst := .none, a := .mask, guard7 := true })
  | .leave f => some (f, { dst := .none, a := .mask })
  | .mset f => some (f, { dst := .mask, a := .msetSrc })
  | .mget f => some (f, { dst := .vu, a := .mask })
  | .trap f _ | .bkpt f _ => some (f, { dst := .none })
  | .rte f => some (f, { dst := .none, guard7 := true })
  | .emur f _ => some (f, { dst := .none })
  | .srd f =>
    let is64 := match f.a with | .spec n => specIs64 n | _ => false
    some (f, { dst := if is64 then .vuPair else .vu, a := .special })
  | .swr f =>
    let n : BitVec 8 := match f.d with | .cls3 i => i | _ => 0
    some (f, { dst := .special,
               a := match specIs64 n, specUniform n with
                    | true, true => .uniform64
                    | true, false => .value64 false
                    | false, true => .uniform
                    | false, false => .value false })
  | .ld f sz sp _ _ _ =>
    some (f, { dst := if sz.is64 then .vuPair else .vu, a := if sp = .spl then .base else .base64 })
  | .st f sz sp _ _ _ =>
    some (f, { dst := .none, a := if sp = .spl then .base else .base64,
               b := if sz.is64 then .value64 true else .value true })
  | .ldc f wide _ => some (f, { dst := if wide then .vuPair else .vu, a := .constBase })
  | .prf f _ _ => some (f, { dst := .none, a := .base64 })
  | .ldg f _ _ _ => some (f, { dst := .vu, a := .base })
  | .stg f _ _ _ => some (f, { dst := .none, a := .base, b := .value false })
  | .ldh f sz _ => some (f, { dst := if sz.is64 then .vuPair else .vu, a := .base })
  | .sth f sz _ => some (f, { dst := .none, a := .base, b := if sz.is64 then .value64 true else .value true })
  | .spl f _ => some (f, { dst := .none, a := .base, b := .base })
  | .fil f _ => some (f, { dst := .v, a := .base })
  | .atom f op t _ _ _ =>
    some (f, { dst := if t.is64 then .vPair else .v, a := .base64,
               b := if t.is64 then .value64 op.typed else .value op.typed })
  | .cas f wide _ _ _ =>
    some (f, { dst := if wide then .vPair else .v, a := .base64,
               b := if wide then .value64 false else .value false,
               c := if wide then .value64 false else .value false })
  | .red f op t _ _ _ =>
    some (f, { dst := .none, a := .base64, b := if t.is64 then .value64 op.typed else .value op.typed })
  | .atomo f op t _ _ =>
    some (f, { dst := if t.is64 then .vPair else .v, a := .base64,
               b := if t.is64 then .value64 op.typed else .value op.typed })
  | .ldx f _ _ => some (f, { dst := .vQuad, a := .base64, b := .value true })
  | .fence f _ _ => some (f, { dst := .none })
  | .fencex f _ _ _ => some (f, { dst := .none })
  | .probe f _ => some (f, { dst := .none })
  | .cpy f dir _ => some (f, { dst := .none, a := cpyDst dir, b := cpySrc dir, c := .uniform })
  | .cpyt f _ _ _ _ => some (f, { dst := .none, a := .uniform64, b := .uniform, c := .uniform })
  | .cpyxDie f _ _ => some (f, { dst := .none, a := .uniform, b := .uniform, c := .uniform })
  | .cpyxPeer f _ _ => some (f, { dst := .none, a := .uniform64, b := .uniform64, c := .uniform })
  | .twait f _ _ | .tclr f => some (f, { dst := .none, a := .tagMask, guard7 := true })
  | .tfst f => some (f, { dst := .p, a := .tagMask })
  | .barArv f _ _ | .barSync f _ _ => some (f, { dst := .none, guard7 := true })
  | .pubq f _ => some (f, { dst := .none, a := .value false })
  | .qstat f _ _ _ => some (f, { dst := .v })
  | .nrec f _ => some (f, { dst := .none, a := .vec })
  | .launch f => some (f, { dst := .u, a := .uniform64 })
  | .chwait f all => some (f, { dst := .none, a := if all then .unused else .uniform })
  | .bkacq f => some (f, { dst := .u })
  | .bkdone f => some (f, { dst := .none })
  | .tdesc f => some (f, { dst := .tile, a := .uniRun 3 })
  | .mma f _ va _ _ _ => some (f, { dst := .acc, a := if va then .vecPair else .vec, b := .tile, c := .uniOrConst })
  | .mzero f _ => some (f, { dst := .acc })
  | .mlda f gal _ => some (f, { dst := .acc, a := if gal then .vec else .vecPair })
  | .msta f gal _ _ _ => some (f, { dst := .none, a := if gal then .vec else .vecPair })
  | .mrd f _ _ => some (f, { dst := .v })
  | .mwr f _ => some (f, { dst := .acc, a := .value false })
  | .mlds f gal _ _ => some (f, { dst := .none, a := if gal then .uniform else .uniPair, b := .uniform })
  | .bndp f => some (f, { dst := .vQuad, a := .vecPair })
  | .dice f _ => some (f, { dst := .none, a := .uniform })
  | .rast f _ _ => some (f, { dst := .none })
  | .rslv f _ _ => some (f, { dst := .none })
  | .smplWr f _ => some (f, { dst := .none, a := .vecQuad })
  | .smplRd f _ => some (f, { dst := .vQuad })
  | .trace f _ _ _ _ => some (f, { dst := .v, a := .vec, b := .uniPair, c := .uniform })
  | .trhit f _ | .trqry f _ => some (f, { dst := .v })
  | _ => none

/-- R57 to R61: the types, modifiers and extension values an opcode admits, beyond what its constructor already says. -/
def Instr.codeOk : Instr → Bool
  | .imul _ _ t | .imad _ _ t _ => t.is32 || t == .s16x2
  | .imulh _ _ t | .imadw _ _ t | .bfx _ _ t => t.is32
  | .imin _ _ t | .imax _ _ t => t != .s4x8
  | .iabs _ _ t _ => t == .s32 || t == .s16x2 || t == .s8x4
  | .iset _ _ fm t _ => t != .s4x8 && (fm != .p || t.is32)
  | .movi _ i fm => !(fm == 3 && i.extractLsb' 16 4 != 0)
  | .fset _ _ _ t _ _ | .fclas _ _ t => t == .f32 || t == .f16 || t == .bf16
  | .frnd _ _ t _ => t == .f32 || t == .f16x2 || t == .bf16x2
  | .cvtiI2f _ _ t _ | .cvtiF2i _ _ t _ _ => t.is32
  | .dp4 _ _ t => t == .s8x4 || t == .n8x4
  | .hdp2 _ _ t _ => t == .f16x2 || t == .bf16x2
  | .loop _ e _ => e != 0
  | .ld _ _ sp ord sc _ => (ord == .rlx || ord == .acq) && (sp == .glb || (ord == .rlx && sc == .team))
  | .st _ _ sp ord sc _ =>
    (ord == .rlx || ord == .rel) && (sp == .glb || (sp == .spl && ord == .rlx && sc == .team))
  | .atom _ op t _ _ _ => op.admits t
  | .red _ op t _ _ _ => op.admits t && op != .exch && op != .inc
  | .atomo _ op _ _ _ => op == .add || op == .min || op == .max
  | .fence _ ord _ => ord != .rlx
  | .fencex _ _ a b => a != 7 && b != 7
  | .probe _ m => m != 0
  | .cpyt _ _ e r _ => e != .e4 && r != 0
  | .trace _ _ _ pw _ => pw.toNat ≤ 32
  | .trqry _ s => s.toNat < 6
  | .pairedWord g _ h1 h2 => g.ok && h1.ok && h2.ok && !(h1.op == .hnop && h2.op == .hnop)
  | _ => true

/-- A well-formed instruction: a word that passes every decode check of R67 that does not depend on the launch record. -/
def Instr.wf (i : Instr) : Bool :=
  i.codeOk &&
  match i with
  | .pairedWord _ _ _ _ => true
  | _ => match i.shape with
    | some (f, sh) => sh.ok f
    | none => false

end Sys2Proof
end

