-- ==== Sys2Proof/Machine/Operands.lean ====
section
/-! DEFINITION. Operand delivery: the issue context, source classes, special registers, stair reads, register checks,
results and the window, loop settlement and completion (R18 to R40, R109, R110, R259 to R261, R313, R320, R323). -/

namespace Sys2Proof.Machine

open Sys2Proof

/-! ## The issue context -/

/-- What an instruction word acts for: the warp, the active lanes (R13), their PC, the team and the grid. -/
structure Ctx where
  wid : Nat
  lanes : Mask
  pc : W64
  w : Warp
  t : Team
  g : Grid
  deriving DecidableEq, Repr

/-- The context of some lanes of a warp. -/
def State.ctxOf (s : State) (wid : Nat) (lanes : Mask) : Option Ctx :=
  match s.warp? wid with
  | none => none
  | some w =>
    match s.team? w.tid with
    | none => none
    | some t =>
      match s.grid? t.gid with
      | none => none
      | some g => some ⟨wid, lanes, cget w.pc (lowest lanes), w, t, g⟩

/-- The context of the current issue. -/
def State.ctx? (s : State) : Option Ctx := s.cur.bind fun i => s.ctxOf i.wid i.lanes

/-! ## Guards and predicates (R13, R21, R51) -/

/-- R21: predicate 7 reads true. -/
def Warp.predWord (w : Warp) (p : Nat) : W32 := if p = 7 then BitVec.allOnes 32 else cget w.pred p

/-- R13 `lane_on` for every lane. -/
def Ctx.on (c : Ctx) (g : Guard) : Mask :=
  let m := c.w.predWord g.p.toNat
  c.lanes &&& (if g.neg then ~~~m else m)

/-- R29: the bit of a predicate source. -/
def Ctx.pbit (c : Ctx) (x : Src) (l : Nat) : Bool :=
  match x with
  | .pred n p => (c.w.predWord p.toNat).getLsbD l != n
  | _ => false

/-! ## Types of operands (R28, R206, R260) -/

/-- How a negate bit acts on an operand (R28). -/
inductive Ty where
  | raw
  | int (e : Nat)
  | flt (e : Nat)
  deriving DecidableEq, Repr

/-- R260 `el`: element `i` of `e` bits. -/
def el (x : W32) (e i : Nat) : Nat := x.toNat / 2 ^ (e * i) % 2 ^ e

/-- R260 `put` for every element: a word from its elements, element 0 first. -/
def putAll (e : Nat) (l : List Nat) : W32 := BitVec.ofNat 32 (l.foldr (fun x acc => x % 2 ^ e + 2 ^ e * acc) 0)

/-- A word with each element mapped. -/
def mapEl (e : Nat) (f : Nat → Nat) (x : W32) : W32 := putAll e ((List.range (32 / e)).map fun i => f (el x e i))

/-- R28: negation of a 32-bit operand. -/
def negate (ty : Ty) (x : W32) : W32 :=
  match ty with
  | .raw => x
  | .int e => mapEl e (fun v => 2 ^ e - v) x
  | .flt e => mapEl e (fun v => v ^^^ 2 ^ (e - 1)) x

def IType.bits : IType → Nat
  | .s32 | .n32 => 32
  | .s16x2 => 16
  | .s8x4 | .n8x4 => 8
  | .s4x8 => 4

def IType.signed : IType → Bool
  | .n32 | .n8x4 => false
  | _ => true

def IType.ty (t : IType) : Ty := .int (IType.bits t)

def FType.ff : FType → FF
  | .f32 => FF.fp32
  | .f16 | .f16x2 => FF.fp16
  | .bf16 | .bf16x2 => FF.bf16

/-- The number of elements of a floating type. -/
def FType.n : FType → Nat
  | .f16x2 | .bf16x2 => 2
  | _ => 1

def FType.bits : FType → Nat
  | .f32 => 32
  | _ => 16

def FType.ty (t : FType) : Ty := .flt (FType.bits t)

/-- R260 `ival`. -/
def ival (x : W32) (t : IType) (i : Nat) : Int :=
  if IType.signed t then sext (el x (IType.bits t) i) (IType.bits t) else el x (IType.bits t) i

/-- R260 `fval`. -/
def fval (x : W32) (t : FType) (i : Nat) : FV := (FType.ff t).dec (el x (FType.bits t) i)

/-! ## Constants (R26, R27) -/

/-- R26: the hard constants, by index less 0x10. -/
def hardConst (i : BitVec 4) : W32 :=
  match i.toNat with
  | 0 => 0x00000000 | 1 => 0x00000001 | 2 => 0xFFFFFFFF | 3 => 0x80000000
  | 4 => 0x3F800000 | 5 => 0xBF800000 | 6 => 0x3F000000 | 7 => 0x40000000
  | 8 => 0x7F800000 | 9 => 0x7FC00000 | 10 => 0x40490FDB | 11 => 0x3FB8AA3B
  | 12 => 0x3F317218 | 13 => 0x3C003C00 | 14 => 0x3F803F80 | _ => 0x7F7FFFFF

/-- R27: the value of imm20 under a form. -/
def immVal (form : BitVec 2) (imm : BitVec 20) : W32 :=
  match form.toNat with
  | 0 => imm.signExtend 32
  | 1 => imm.setWidth 32
  | 2 => imm ++ 0#12
  | _ => imm.setWidth 16 ++ imm.setWidth 16

/-! ## Places in the hierarchy (R109, R110, R141, R253) -/

/-- Threads of a team along x, y and z; node teams lie along x (R137), a shader team is one warp (R253). -/
def Ctx.dims (c : Ctx) : Nat × Nat × Nat :=
  match c.t.kind with
  | .root => (c.g.rec_.tx, c.g.rec_.ty, c.g.rec_.tz)
  | .node n _ _ => (((tget c.g.nodes n).map (·.threads)).getD 1, 1, 1)
  | .shader _ => (32, 1, 1)

def Ctx.tlin (c : Ctx) (l : Nat) : Nat := c.w.num * 32 + l

def LaunchRec.teamSize (r : LaunchRec) : Nat := r.tx * r.ty * r.tz

/-- R110, R141, R253: the item index of a lane. -/
def State.itemAt (s : State) (g : Grid) (t : Team) (num l : Nat) : W64 :=
  match t.kind with
  | .root => BitVec.ofNat 64 (t.lin * g.rec_.teamSize + num * 32 + l)
  | .node n k _ => BitVec.ofNat 64 (2 ^ 63 + n * 2 ^ 48 + k * 2 ^ 10 + num * 32 + l)
  | .shader trs =>
    match trs[l]? with
    | some id => BitVec.ofNat 64 (((tget s.traces id).map (·.item)).getD 0)
    | none => 0

def State.item (s : State) (c : Ctx) (l : Nat) : W64 := s.itemAt c.g c.t c.w.num l

/-! ## Special registers (R18, R70, R109, R129, R135, R165, R324) -/

def w64 (n : Nat) : W64 := BitVec.ofNat 64 n

/-- R18. -/
def LaunchRec.rdecl (r : LaunchRec) : Nat :=
  r.accGran * 2 ^ 23 + r.net * 2 ^ 20 + r.tile * 2 ^ 16 + r.uni * 2 ^ 9 + r.vec

/-- R129 `%replay`. -/
def Team.replayWord (t : Team) : Nat := t.loss * 4 + t.replayed.toNat * 2 + t.active.toNat

/-- R324 `%service`. -/
def State.service (s : State) : Nat :=
  s.mg.cdMask % 64 * 4 + (if s.mg.peerMask = 0 then 0 else 2) + s.mg.full.toNat

/-- The value of special register `n` in lane `l`, zero-extended to 64 bits. -/
def State.special (s : State) (c : Ctx) (n : BitVec 8) (l : Nat) : W64 :=
  let r := c.g.rec_
  let (tx, ty, _) := c.dims
  let tl := c.tlin l
  let stack := (tget c.w.loops l).getD []
  let lm := fun (p : Nat → Bool) => (maskOf ((List.range 32).filter p)).setWidth 64
  let e := c.w.emu
  match n.toNat with
  | 0x00 => w64 l
  | 0x01 => w64 c.w.num
  | 0x02 => w64 (tl % tx)
  | 0x03 => w64 (tl / tx % ty)
  | 0x04 => w64 (tl / tx / ty)
  | 0x05 => w64 tl
  | 0x06 => w64 (c.t.lin % r.gx)
  | 0x07 => w64 (c.t.lin / r.gx % r.gy)
  | 0x08 => w64 (c.t.lin / r.gx / r.gy)
  | 0x09 => w64 c.t.lin
  | 0x0A => s.item c l
  | 0x0B => w64 c.t.rank
  | 0x0C => w64 c.t.dieIdx
  | 0x0D => w64 c.g.mask.length
  | 0x0E => w64 (socketOf c.t.core)
  | 0x0F => w64 (c.t.core % 32)
  | 0x10 => w64 (c.t.gid % 2 ^ 24)
  | 0x11 => w64 c.g.depth
  | 0x12 => match c.t.kind with | .node k _ _ => w64 k | _ => 0xFFFFFFFF
  | 0x13 => match c.t.kind with | .node _ _ k => w64 k | _ => 0
  | 0x14 => w64 r.paramBase
  | 0x15 => w64 r.rdecl
  | 0x16 => w64 s.service
  | 0x17 => w64 c.t.replayWord
  | 0x18 => (cget c.w.qseal l).setWidth 64
  | 0x19 => ~~~c.t.tagClear
  | 0x1A => c.w.fstat.setWidth 64
  | 0x1B => c.w.mstat.setWidth 64
  | 0x1C => (cget c.w.srctr l).setWidth 64
  | 0x1D => (cget c.w.mprog (l / 8)).setWidth 64
  | 0x1E => w64 stack.length
  | 0x1F => ((stack.reverse[0]?.map LoopEnt.count).getD 0).setWidth 64
  | 0x20 => ((stack.reverse[1]?.map LoopEnt.count).getD 0).setWidth 64
  | 0x21 => w64 (s.now - (s.core c.t.core).clockBase)
  | 0x22 => w64 (s.ns - s.resetNs)
  | 0x23 => lm (· == l)
  | 0x24 => lm (· < l)
  | 0x25 => lm (· ≤ l)
  | 0x26 => lm (l < ·)
  | 0x27 => lm (l ≤ ·)
  | 0x30 => (e.word.extractLsb' 89 7).setWidth 64
  | 0x31 => (e.word.extractLsb' 84 5).setWidth 64
  | 0x32 => (e.word.extractLsb' 79 5).setWidth 64
  | 0x33 => (e.word.extractLsb' 68 11).setWidth 64
  | 0x34 => (e.word.extractLsb' 56 12).setWidth 64
  | 0x35 => (e.word.extractLsb' 44 12).setWidth 64
  | 0x36 => (e.word.extractLsb' 32 12).setWidth 64
  | 0x37 => (e.word.extractLsb' 20 12).setWidth 64
  | 0x38 => (e.word.extractLsb' 0 20).setWidth 64
  | 0x39 => w64 e.cause
  | 0x3A => e.lanes.setWidth 64
  | 0x3B => e.pc
  | 0x3C => (cget c.w.emuRes l).setWidth 64
  | 0x40 => c.w.dbg.code.setWidth 64
  | 0x41 => c.w.dbg.lanes.setWidth 64
  | 0x42 => c.w.dbg.pc
  | _ => 0

/-! ## Stairs (R38, R39, R130, R131, R136) -/

/-- The key of a channel of an item in the grid's stair tables. -/
def chanKey (item j : Nat) : Nat := item * 4 + j

/-- R39: the ordinals of (item, channel) that have landed at a core, and whether the item's exit has. -/
def Core.landedAt (k : Core) (gid item j : Nat) : Nat × Bool :=
  match k.landed.find? (fun x => x.1 == gid && x.2.1 == item && x.2.2.1 == j) with
  | some x => x.2.2.2
  | none => (0, false)

/-- R39: what has landed of (item, channel) at a core. -/
def Core.land (k : Core) (gid item j n : Nat) (ex : Bool) : Core :=
  { k with landed := (gid, item, j, n, ex) :: k.landed.filter fun x => !(x.1 == gid && x.2.1 == item && x.2.2.1 == j) }

/-- R131, R136: what a read of `qj[k + 1]` by lane `l` returns, with the seal; `none` while it must wait (R39). -/
def State.stair (s : State) (c : Ctx) (j k l : Nat) : Option (W32 × Bool) :=
  let dflt := c.g.rec_.stairDef[j]?.getD 0
  let item := (s.item c l).toNat
  if 2 ^ 63 ≤ item then some (dflt, true)
  else if item < k + 1 then some (dflt, false)
  else
    let p := item - (k + 1)
    let m := min ((cget c.w.rdCnt ((8 * j + k) * 32 + l)).toNat + 1) 0xFFFFFFFF
    let (n, ex) := (s.core c.t.core).landedAt c.t.gid p j
    let value := fun (m : Nat) => (tget c.g.pubs (chanKey p j * 2 ^ 33 + m)).getD 0
    if m ≤ n then some (value m, false)
    else if ex then some (if n = 0 then dflt else value n, true)
    else none

/-! ## Sources (R25 to R30, R260, R261, R320) -/

/-- The value of a 32-bit source in lane `l`, before negation. -/
def State.srcRaw (s : State) (c : Ctx) (imm : BitVec 20) (x : Src) (l : Nat) : W32 :=
  match x with
  | .vec _ i => cget c.w.vec (i.toNat * 32 + l)
  | .uni i => cget c.w.uni i.toNat
  | .mask i => cget c.w.mask i.toNat
  | .tile _ | .net _ => 0
  | .spec n => (s.special c n l).setWidth 32
  | .win _ k => cget c.w.win (k.toNat * 32 + l)
  | .const _ i => hardConst i
  | .stair j k => ((s.stair c j.toNat k.toNat l).map (·.1)).getD 0
  | .imm f => immVal f imm
  | .pred _ _ => if c.pbit x l then 1 else 0

/-- R260: the value of a 32-bit source in lane `l`, negated by its type. -/
def State.src (s : State) (c : Ctx) (imm : BitVec 20) (ty : Ty) (x : Src) (l : Nat) : W32 :=
  if x.negated then negate ty (s.srcRaw c imm x l) else s.srcRaw c imm x l

/-- R261: the value of a 64-bit source in lane `l`. -/
def State.src64 (s : State) (c : Ctx) (imm : BitVec 20) (x : Src) (l : Nat) : W64 :=
  let v : W64 := match x with
    | .vec _ i => cget c.w.vec ((i.toNat + 1) * 32 + l) ++ cget c.w.vec (i.toNat * 32 + l)
    | .uni i => cget c.w.uni (i.toNat + 1) ++ cget c.w.uni i.toNat
    | .spec n => s.special c n l
    | .win _ k => cget c.w.win (k.toNat * 32 + l) ++ cget c.w.win ((k.toNat + 1) * 32 + l)
    | .const _ _ | .imm _ | .pred _ _ => (s.srcRaw c imm x l).signExtend 64
    | _ => (s.srcRaw c imm x l).setWidth 64
  if x.negated then -v else v

/-! ## Declared counts (R19) -/

/-- How many registers a source field reads from the one it names. -/
def srcSpan : SrcKind → Nat
  | .value64 _ | .vecPair | .base64 | .uniform64 | .constBase | .uniPair | .tagMask => 2
  | .vecQuad => 4
  | .uniRun n => n + 1
  | _ => 1

/-- R19: a source is within the declared counts. -/
def srcInCount (r : LaunchRec) (n : Nat) : Src → Bool
  | .vec _ i => i.toNat + n ≤ r.vec
  | .uni i => i.toNat + n ≤ r.uni
  | .tile i => i.toNat < r.tile
  | .net i => i.toNat < r.net
  | _ => true

/-- R19: a destination is within the declared counts. -/
def dstInCount (r : LaunchRec) (k : DstKind) (d : Dst) : Bool :=
  let n := match k with | .vPair | .vuPair | .callPair => 2 | .vQuad => 4 | _ => 1
  match k, d with
  | .none, _ => true
  | _, .vec i => i.toNat + n ≤ r.vec
  | _, .uni i => i.toNat + n ≤ r.uni
  | .tile, .cls3 i => i.toNat < r.tile
  | .net, .cls3 i => i.toNat < r.net
  | _, _ => true

/-- The first register index of a word that lies outside the declared counts, where one does. -/
def shapeRidx (r : LaunchRec) (sh : Shape) (f : Fmt) : Option Nat :=
  let bad := fun (k : SrcKind) (x : Src) => if srcInCount r (srcSpan k) x then none else
    match x with
    | .vec _ i => some (max i.toNat r.vec)
    | .uni i => some (max i.toNat r.uni)
    | .tile i => some i.toNat
    | .net i => some i.toNat
    | _ => none
  match bad sh.a f.a, bad sh.b f.b, bad sh.c f.c with
  | some i, _, _ | none, some i, _ | none, none, some i => some i
  | none, none, none =>
    if dstInCount r sh.dst f.d then none else
      match f.d with
      | .vec i => some (max i.toNat r.vec)
      | .uni i => some (max i.toNat r.uni)
      | .cls3 i => some i.toNat
      | _ => none

/-! ## The window (R32 to R35) -/

/-- R32: one entry is shifted into a lane's window; the serial number of an entry is the count of entries before it. -/
def Warp.push (w : Warp) (l : Nat) (v : W32) : Warp :=
  let shifted := (List.range 7).foldr (fun k win => cset win ((k + 1) * 32 + l) (cget w.win (k * 32 + l))) w.win
  { w with win := cset shifted l v, winSeq := tset w.winSeq l ((tget w.winSeq l).getD 0 + 1),
           dirty := { w.dirty with win := true } }

/-- R34: the words of a result enter the window in order. -/
def Warp.pushAll (w : Warp) (l : Nat) (vs : List W32) : Warp := vs.foldl (fun w v => w.push l v) w

/-- R35: a value arrives for the entry with a serial number, wherever it now stands. -/
def Warp.fillSlot (w : Warp) (l serial : Nat) (v : W32) : Warp :=
  let n := (tget w.winSeq l).getD 0
  if serial < n && n - serial ≤ 8 then
    { w with win := cset w.win ((n - serial - 1) * 32 + l) v, dirty := { w.dirty with win := true } }
  else w

/-! ## Registers (R20 to R24, R42) -/

/-- A word of a vector register. -/
def Warp.setVec (w : Warp) (r l : Nat) (v : W32) : Warp :=
  { w with vec := cset w.vec (r * 32 + l) v, dirty := { w.dirty with vec := cset w.dirty.vec r 1 } }

def Warp.setUni (w : Warp) (r : Nat) (v : W32) : Warp :=
  { w with uni := cset w.uni r v, dirty := { w.dirty with uni := cset w.dirty.uni r 1 } }

/-- R21: a write to predicate 7 is ignored. -/
def Warp.setPred (w : Warp) (p l : Nat) (b : Bool) : Warp :=
  if p = 7 then w
  else
    let old := cget w.pred p
    { w with pred := cset w.pred p (if b then old ||| laneBit l else old &&& ~~~laneBit l),
             dirty := { w.dirty with preds := true } }

def Warp.setMask (w : Warp) (i : Nat) (m : Mask) : Warp :=
  { w with mask := cset w.mask i m, dirty := { w.dirty with masks := true } }

def Warp.setTile (w : Warp) (i : Nat) (v : BitVec 128) : Warp :=
  { w with tile := cset w.tile i v, dirty := { w.dirty with tile := cset w.dirty.tile i 1 } }

def Warp.setNet (w : Warp) (i : Nat) (v : BitVec 144) : Warp :=
  { w with net := cset w.net i v, dirty := { w.dirty with net := cset w.dirty.net i 1 } }

/-- The words of a result in consecutive vector registers of a lane. -/
def Warp.setVecs (w : Warp) (r l : Nat) (vs : List W32) : Warp :=
  ((List.range vs.length).zip vs).foldl (fun w x => w.setVec (r + x.1) l x.2) w

def Warp.setUnis (w : Warp) (r : Nat) (vs : List W32) : Warp :=
  ((List.range vs.length).zip vs).foldl (fun w x => w.setUni (r + x.1) x.2) w

/-- A lane's result goes to its register and to the window (R24, R32); to a predicate it shifts no window. -/
def Warp.putLane (w : Warp) (d : Dst) (l : Nat) (vs : List W32) : Warp :=
  match d with
  | .vec i => (w.setVecs i.toNat l vs).pushAll l vs
  | .nwb => w.pushAll l vs
  | .pred p => w.setPred p.toNat l ((vs.headD 0).getLsbD 0)
  | _ => w

/-! ## Completion (R80, R84, R313) -/

/-- R313: a taken branch ends the loops whose body it leaves. -/
def loopLeave (a nx : Nat) : List LoopEnt → List LoopEnt
  | [] => []
  | e :: r =>
    if e.start.toNat ≤ a && a ≤ e.stop.toNat && !(e.start.toNat ≤ nx && nx ≤ e.stop.toNat) then loopLeave a nx r
    else e :: r

/-- R313: the instruction at the end of a body counts it. -/
def loopCount (a nx : Nat) : List LoopEnt → Nat × List LoopEnt
  | [] => (nx, [])
  | e :: r =>
    if a = e.stop.toNat then
      if 1 < e.count.toNat then (e.start.toNat, { e with count := e.count - 1 } :: r) else loopCount a nx r
    else (nx, e :: r)

def Warp.setLoops (w : Warp) (l : Nat) (st : List LoopEnt) : Warp :=
  { w with loops := if st.isEmpty then tdel w.loops l else tset w.loops l st }

/-- R313: a lane completes the instruction at `a` with next PC `nx`; `taken` for a taken `BRA`, `BRX`, `RET` or a `LOOP`
that skips its body. -/
def Warp.settle (w : Warp) (l : Nat) (a nx : W64) (taken : Bool) : Warp :=
  let st := (tget w.loops l).getD []
  if taken then { w.setLoops l (loopLeave a.toNat nx.toNat st) with pc := cset w.pc l nx }
  else
    let (n, st) := loopCount a.toNat nx.toNat st
    { w.setLoops l st with pc := cset w.pc l (BitVec.ofNat 64 n) }

/-- R52, R62: the `STALL` and `YIELD` hints of a word. -/
def hintsOf (w : IWord) : Nat × Bool :=
  if w.extractLsb' 89 7 = 0x7F then ((w.extractLsb' 2 3).toNat, w.getLsbD 1)
  else ((w.extractLsb' 25 3).toNat, w.getLsbD 24)

/-- R80, R84, R89: the warp has issued a word for some lanes. -/
def State.issued (s : State) (w : Warp) (lanes : Mask) : Warp :=
  let (st, y) := hintsOf ((s.cur.map (·.word)).getD 0)
  { w with
    issues := w.issues + 1
    laneIssue := (lanesOf lanes).foldl (fun t l => tset t l (w.issues + 1)) w.laneIssue
    lastIssue := s.now, stallUntil := s.now + st, yielded := y }

/-- R13: the address of the next instruction. -/
def Ctx.nextPc (c : Ctx) : W64 := c.pc + 12

/-- The lanes complete the instruction and continue at the next one (R313). -/
def Ctx.advance (c : Ctx) (w : Warp) (lanes : Mask) : Warp :=
  (lanesOf lanes).foldl (fun w l => w.settle l c.pc c.nextPc false) w

/-- R38: an on lane that completes an instruction with a stair source has counted the read. -/
def State.countStair (s : State) (c : Ctx) (w : Warp) (j k : Nat) (on : Mask) : Warp :=
  (lanesOf on).foldl (fun w l =>
    let key := (8 * j + k) * 32 + l
    let n := cget w.rdCnt key
    let sealed := ((s.stair c j k l).map (·.2)).getD false
    { w with
      rdCnt := cset w.rdCnt key (if n = 0xFFFFFFFF then n else n + 1)
      qseal := if sealed then cset w.qseal l (cget w.qseal l ||| (1#5 <<< j)) else w.qseal
      dirty := { w.dirty with stair := cset w.dirty.stair j 1 } }) w

/-- R132: the counted reads of the grid's items, for the release of published values. -/
def State.noteReads (s : State) (c : Ctx) (w : Warp) (j k : Nat) (on : Mask) : State :=
  match c.t.kind with
  | .root =>
    s.modGrid c.t.gid fun g =>
      { g with rdN := (lanesOf on).foldl (fun t l =>
          tset t (chanKey (s.item c l).toNat j * 8 + k) (cget w.rdCnt ((8 * j + k) * 32 + l)).toNat) g.rdN }
  | _ => s

/-- The active lanes `lanes` complete the instruction, the lanes `on` with its effect, which `w` holds: stair reads are
counted, the lanes continue and the warp has issued. -/
def State.finish (s : State) (c : Ctx) (f : Fmt) (on lanes : Mask) (w : Warp) : State :=
  match f.stairs.head? with
  | none => s.setWarp c.wid (s.issued (c.advance w lanes) lanes)
  | some (j, k) =>
    let w := s.countStair c w j.toNat k.toNat on
    (s.noteReads c w j.toNat k.toNat on).setWarp c.wid (s.issued (c.advance w lanes) lanes)

/-! ## Stops (R71, R316, R476) -/

/-- R316: every result of the warp has been written. -/
def State.drained (s : State) (c : Ctx) : Bool :=
  c.w.pend.isEmpty && (s.core c.t.core).mxq.all (·.wid != c.wid)

/-- Lanes of the warp stop, with one handler packet; the wait of R316 and R423 comes first. -/
def State.stopLanes (s : State) (c : Ctx) (cause : Cause) (m : Mask) (d0 d1 : W64) : State :=
  if s.drained c && s.canReport then
    let w := s.issued { c.w with stopped := c.w.stopped ||| m } m
    (s.setWarp c.wid w).report (warpEvent c.g c.t c.w cause m c.pc d0 d1)
  else s

/-- R476: the PC group stops at the instruction. -/
def State.stop (s : State) (c : Ctx) (cause : Cause) (d0 : W64) : State := s.stopLanes c cause c.lanes d0 0

/-- R71, R317: where some of the lanes `on` are inside a debug or emulation handler, the lanes that entered it and have not
exited, with the cause of a forbidden operation. With no lane on there is no operation (R14). DEDUCED, log 34. -/
def Ctx.nested (c : Ctx) (on : Mask) : Option (Cause × Mask) :=
  let d := if c.w.dbg.inside then c.w.dbg.lanes &&& ~~~c.w.exited else 0
  let e := if c.w.emu.inside then c.w.emu.lanes &&& ~~~c.w.exited else 0
  if on &&& d != 0 then some (.dbgNest, d) else if on &&& e != 0 then some (.emuNest, e) else none

/-- The stair values the on lanes read are present in the core (R39). -/
def State.stairsReady (s : State) (c : Ctx) (f : Fmt) (on : Mask) : Bool :=
  match f.stairs.head? with
  | none => true
  | some (j, k) => (lanesOf on).all fun l => (s.stair c j.toNat k.toNat l).isSome

abbrev Out := Host.Outcome State Fault Refusal

/-- A standard word acts: without a current issue nothing happens; a stair read in a handler stops its lanes (R71); a
register outside the declared counts stops the group (R19); a stair value that is absent is waited for (R39); otherwise
the meaning `k` is given the context and the on lanes. DEDUCED, log 34. -/
def State.run (s : State) (i : Instr) (k : Ctx → Mask → State) : Out :=
  match s.ctx?, i.shape with
  | some c, some (f, sh) =>
    let on := c.on f.g
    match if f.stairs.isEmpty then none else c.nested on with
    | some (cause, m) => .next (s.stopLanes c cause m 0 0)
    | none =>
      match if on = 0 then none else shapeRidx c.g.rec_ sh f with
      | some x => .next (s.stop c .ridx (w64 x))
      | none => if s.stairsReady c f on then .next (k c on) else .next s
  | _, _ => .next s

/-! ## Results (R14, R22, R32) -/

/-- The warp with the result of an instruction: once for a uniform destination, in each on lane otherwise; the flags
accumulate. -/
def Ctx.emit (c : Ctx) (d : Dst) (on : Mask) (val : Nat → List W32 × Flags) : Warp :=
  match d with
  | .uni i =>
    if on = 0 then c.w
    else let r := val (lowest on); (c.w.setUnis i.toNat r.1).raise r.2
  | _ =>
    (lanesOf on).foldl (fun w l => let r := val l; (w.putLane d l r.1).raise r.2) c.w

/-- An instruction that computes a value in each on lane, or once, and completes. -/
def State.alu (s : State) (i : Instr) (f : Fmt) (val : Ctx → Nat → List W32 × Flags) : Out :=
  s.run i fun c on => s.finish c f on c.lanes (c.emit f.d on (val c))

/-- As `alu`, with one word and no flags. -/
def State.alu1 (s : State) (i : Instr) (f : Fmt) (val : Ctx → Nat → W32) : Out :=
  s.alu i f fun c l => ([val c l], {})

/-! ## Counters of words that write as they issue (R76, R79, R325) -/

/-- A pending result that a kind of operation makes; its serial number is set when it is reserved. -/
def Pend.new (kind : PendKind) (ctr : Nat) (lanes : Mask) (dst : Dst) (words : Nat) (pc : W64) : Pend where
  seq := 0
  kind := kind
  ctr := ctr
  lanes := lanes
  dst := dst
  words := words
  pc := pc
  vas := []
  emu := false
  acquire := false
  fromTarget := false
  returned := false
  slots := []
  got := []

/-- R76, R79, R325: a word whose result the model writes as it issues has raised its counter, where it has completed with a lane
on: what reads or writes the result waits until the `RESULT` lowers the counter. DEDUCED, log 79. -/
def State.counted (s : State) (i : Instr) (ctr : Nat) (o : Out) : Out :=
  match s.ctx?, i.shape, o with
  | some c, some (f, _), .next s' =>
    let on := c.on f.g
    .next (s'.modWarp c.wid fun w =>
      if on = 0 || w.issues = c.w.issues || w.stopped != c.w.stopped || w.parked != c.w.parked then w
      else
        let slots := ((lanesOf on).filter fun l => tget w.winSeq l != tget c.w.winSeq l).map fun l =>
          (l, (tget c.w.winSeq l).getD 0)
        let p := { Pend.new .counted ctr on f.d 1 c.pc with seq := w.nextSeq, slots := slots }
        { w with pend := w.pend ++ [p], nextSeq := w.nextSeq + 1 })
  | _, _, _ => o

end Sys2Proof.Machine
end

