-- ==== Sys2Proof/Machine/Arith.lean ====
section
/-! DEFINITION. Integer, bit, comparison, address and move instructions (R262 to R279). -/

namespace Sys2Proof.Machine

open Sys2Proof

/-! ## Values (R263 to R275) -/

/-- An operation on each element of a type, with the flags of all elements (R260). -/
def perElem (t : IType) (y : Nat → Int × Flags) : W32 × Flags :=
  let r := (List.range (32 / IType.bits t)).map y
  (putAll (IType.bits t) (r.map fun x => (x.1.emod (2 ^ IType.bits t)).toNat), Flags.all (r.map (·.2)))

/-- R263, R264, R266: an element operation on two sources. -/
def intBin (t : IType) (sat : Bool) (op : Int → Int → Int) (a b : W32) : W32 × Flags :=
  perElem t fun i => satElem sat (IType.signed t) (IType.bits t) (op (ival a t i) (ival b t i))

/-- R265: multiply and add, exact before the element is narrowed. -/
def intMad (t : IType) (sat : Bool) (a b c : W32) : W32 × Flags :=
  perElem t fun i => satElem sat (IType.signed t) (IType.bits t) (ival a t i * ival b t i + ival c t i)

/-- R266: absolute value. -/
def intAbs (t : IType) (sat : Bool) (a : W32) : W32 × Flags :=
  perElem t fun i => satElem sat (IType.signed t) (IType.bits t) (ival a t i).natAbs

/-- R264 `IMULH`: bits 63:32 of the exact product. -/
def mulHigh (t : IType) (a b : W32) : W32 := ofInt 32 ((ival a t 0 * ival b t 0).fdiv (2 ^ 32))

/-- R265 `IMADW`. -/
def madWide (t : IType) (a b : W32) (c : W64) : W64 :=
  ofInt 64 (ival a t 0 * ival b t 0 + if IType.signed t then c.toInt else (c.toNat : Int))

/-- The two words of a 64-bit result, low word first (R34). -/
def words2 (x : W64) : List W32 := [x.extractLsb' 0 32, x.extractLsb' 32 32]

def shlV (a c : W32) : W32 := if c.toNat < 32 then a <<< c.toNat else 0
def shrV (a c : W32) : W32 := if c.toNat < 32 then a >>> c.toNat else 0
def sarV (a c : W32) : W32 :=
  if c.toNat < 32 then a.sshiftRight c.toNat else if a.msb then BitVec.allOnes 32 else 0
def rotlV (a c : W32) : W32 := a.rotateLeft (c.toNat % 32)

/-- R269. -/
def funshV (right : Bool) (a b c : W32) : W32 :=
  let x : W64 := b ++ a
  let n := min c.toNat 32
  if right then (x >>> n).extractLsb' 0 32 else (x <<< n).extractLsb' 32 32

/-- R270 `BFX`. -/
def bfxV (t : IType) (a b c : W32) : W32 :=
  let p := min b.toNat 32
  let w := min c.toNat (32 - p)
  let field := bitsOf a.toNat (p + w - 1) p
  if w = 0 then 0 else if IType.signed t then ofInt 32 (sext field w) else BitVec.ofNat 32 field

/-- R270 `BFI`. -/
def bfiV (a b c : W32) : W32 :=
  let p := min (bitsOf c.toNat 7 0) 32
  let w := min (bitsOf c.toNat 15 8) (32 - p)
  let m : W32 := BitVec.ofNat 32 ((2 ^ w - 1) * 2 ^ p)
  (b &&& ~~~m) ||| ((a <<< p) &&& m)

def popcV (a : W32) : W32 := BitVec.ofNat 32 (count a)
def clzV (a : W32) : W32 := BitVec.ofNat 32 (if a = 0 then 32 else 31 - a.toNat.log2)
def ctzV (a : W32) : W32 := BitVec.ofNat 32 (if a = 0 then 32 else lowest a)
def brevV (a : W32) : W32 := maskOf ((lanesOf a).map (31 - ·))

/-- R56, R272: a comparison of two integers. -/
def cmpInt (c : Cmp) (a b : Int) : Bool :=
  match c with
  | .eq => a == b
  | .ne => a != b
  | .lt => a < b
  | .le => a ≤ b
  | .gt => b < a
  | .ge => b ≤ a

/-- R272: the element a comparison writes. -/
def formVal (fm : Form) (e : Nat) (t : Bool) : Nat :=
  match fm with
  | .m => if t then 2 ^ e - 1 else 0
  | _ => t.toNat

def isetV (fm : Form) (t : IType) (cmp : Cmp) (a b : W32) : W32 :=
  putAll (IType.bits t) ((List.range (32 / IType.bits t)).map fun i =>
    formVal fm (IType.bits t) (cmpInt cmp (ival a t i) (ival b t i)))

def set64V (fm : Form) (uns : Bool) (cmp : Cmp) (a b : W64) : W32 :=
  BitVec.ofNat 32 (formVal fm 32
    (if uns then cmpInt cmp a.toNat b.toNat else cmpInt cmp a.toInt b.toInt))

/-- R274: base, scaled index and offset. -/
def leaV (a : W64) (b : W32) (sh : BitVec 3) (off : BitVec 12) : W64 :=
  a + (b.signExtend 64 <<< sh.toNat) + off.signExtend 64

/-- R278. -/
def psetV (op : POp) (a b : Bool) : Bool :=
  match op with
  | .and => a && b
  | .or => a || b
  | .xor => a != b
  | .andn => a && !b

def boolWord (b : Bool) : W32 := if b then 1 else 0

/-! ## Meanings -/

/-- R262: no effect but its hints. -/
def execNop (h : Hints) (s : State) : Out :=
  s.run (.nop h) fun c on => s.finish c ⟨.always, h, .vec 0, .zero, .zero, .zero⟩ on c.lanes c.w

/-- Two integer sources of a type. -/
def State.int2 (s : State) (i : Instr) (f : Fmt) (imm : BitVec 20) (t : IType) (op : W32 → W32 → W32 × Flags) : Out :=
  s.alu i f fun c l =>
    let r := op (s.src c imm (IType.ty t) f.a l) (s.src c imm (IType.ty t) f.b l)
    ([r.1], r.2)

/-- R263. -/
def execIadd (f : Fmt) (imm : BitVec 20) (t : IType) (sat : Bool) (s : State) : Out :=
  s.int2 (.iadd f imm t sat) f imm t (intBin t sat (· + ·))

/-- R263. -/
def execIsub (f : Fmt) (imm : BitVec 20) (t : IType) (sat : Bool) (s : State) : Out :=
  s.int2 (.isub f imm t sat) f imm t (intBin t sat (· - ·))

/-- R264. -/
def execImul (f : Fmt) (imm : BitVec 20) (t : IType) (s : State) : Out :=
  s.int2 (.imul f imm t) f imm t (intBin t false (· * ·))

/-- R264. -/
def execImulh (f : Fmt) (imm : BitVec 20) (t : IType) (s : State) : Out :=
  s.int2 (.imulh f imm t) f imm t fun a b => (mulHigh t a b, {})

/-- R265. -/
def execImad (f : Fmt) (imm : BitVec 20) (t : IType) (sat : Bool) (s : State) : Out :=
  s.alu (.imad f imm t sat) f fun c l =>
    let v := fun x => s.src c imm (IType.ty t) x l
    let r := intMad t sat (v f.a) (v f.b) (v f.c)
    ([r.1], r.2)

/-- R265. -/
def execImadw (f : Fmt) (imm : BitVec 20) (t : IType) (s : State) : Out :=
  s.alu (.imadw f imm t) f fun c l =>
    let v := fun x => s.src c imm (IType.ty t) x l
    (words2 (madWide t (v f.a) (v f.b) (s.src64 c imm f.c l)), {})

/-- R266. -/
def execImin (f : Fmt) (imm : BitVec 20) (t : IType) (s : State) : Out :=
  s.int2 (.imin f imm t) f imm t (intBin t false fun a b => if a ≤ b then a else b)

/-- R266. -/
def execImax (f : Fmt) (imm : BitVec 20) (t : IType) (s : State) : Out :=
  s.int2 (.imax f imm t) f imm t (intBin t false fun a b => if a ≤ b then b else a)

/-- R266. -/
def execIabs (f : Fmt) (imm : BitVec 20) (t : IType) (sat : Bool) (s : State) : Out :=
  s.alu (.iabs f imm t sat) f fun c l =>
    let r := intAbs t sat (s.src c imm (IType.ty t) f.a l)
    ([r.1], r.2)

/-- Untyped sources A and B. -/
def State.bits2 (s : State) (i : Instr) (f : Fmt) (imm : BitVec 20) (op : W32 → W32 → W32) : Out :=
  s.alu1 i f fun c l => op (s.src c imm .raw f.a l) (s.src c imm .raw f.b l)

/-- An untyped source A. -/
def State.bits1 (s : State) (i : Instr) (f : Fmt) (imm : BitVec 20) (op : W32 → W32) : Out :=
  s.alu1 i f fun c l => op (s.src c imm .raw f.a l)

/-- Untyped sources A, B and C. -/
def State.bits3 (s : State) (i : Instr) (f : Fmt) (imm : BitVec 20) (op : W32 → W32 → W32 → W32) : Out :=
  s.alu1 i f fun c l => op (s.src c imm .raw f.a l) (s.src c imm .raw f.b l) (s.src c imm .raw f.c l)

/-- R267. -/
def execAndB (f : Fmt) (imm : BitVec 20) (s : State) : Out := s.bits2 (.andB f imm) f imm (· &&& ·)
/-- R267. -/
def execOrB (f : Fmt) (imm : BitVec 20) (s : State) : Out := s.bits2 (.orB f imm) f imm (· ||| ·)
/-- R267. -/
def execXorB (f : Fmt) (imm : BitVec 20) (s : State) : Out := s.bits2 (.xorB f imm) f imm (· ^^^ ·)
/-- R267. -/
def execAndnB (f : Fmt) (imm : BitVec 20) (s : State) : Out :=
  s.bits2 (.andnB f imm) f imm fun a b => a &&& ~~~b
/-- R267. -/
def execNotB (f : Fmt) (imm : BitVec 20) (s : State) : Out := s.bits1 (.notB f imm) f imm (~~~·)
/-- R268. -/
def execShl (f : Fmt) (imm : BitVec 20) (s : State) : Out := s.bits2 (.shl f imm) f imm shlV
/-- R268. -/
def execShr (f : Fmt) (imm : BitVec 20) (s : State) : Out := s.bits2 (.shr f imm) f imm shrV
/-- R268. -/
def execSar (f : Fmt) (imm : BitVec 20) (s : State) : Out := s.bits2 (.sar f imm) f imm sarV
/-- R268. -/
def execRotl (f : Fmt) (imm : BitVec 20) (s : State) : Out := s.bits2 (.rotl f imm) f imm rotlV
/-- R269. -/
def execFunsh (f : Fmt) (imm : BitVec 20) (right : Bool) (s : State) : Out :=
  s.bits3 (.funsh f imm right) f imm (funshV right)
/-- R270. -/
def execBfx (f : Fmt) (imm : BitVec 20) (t : IType) (s : State) : Out := s.bits3 (.bfx f imm t) f imm (bfxV t)
/-- R270. -/
def execBfi (f : Fmt) (imm : BitVec 20) (s : State) : Out := s.bits3 (.bfi f imm) f imm bfiV
/-- R271. -/
def execPopc (f : Fmt) (imm : BitVec 20) (s : State) : Out := s.bits1 (.popc f imm) f imm popcV
/-- R271. -/
def execClz (f : Fmt) (imm : BitVec 20) (s : State) : Out := s.bits1 (.clz f imm) f imm clzV
/-- R271. -/
def execCtz (f : Fmt) (imm : BitVec 20) (s : State) : Out := s.bits1 (.ctz f imm) f imm ctzV
/-- R271. -/
def execBrev (f : Fmt) (imm : BitVec 20) (s : State) : Out := s.bits1 (.brev f imm) f imm brevV

/-- R272. -/
def execIset (f : Fmt) (imm : BitVec 20) (form : Form) (t : IType) (cmp : Cmp) (s : State) : Out :=
  s.int2 (.iset f imm form t cmp) f imm t fun a b => (isetV form t cmp a b, {})

/-- R272. -/
def execSet64 (f : Fmt) (imm : BitVec 20) (form : Form) (uns : Bool) (cmp : Cmp) (s : State) : Out :=
  s.alu1 (.set64 f imm form uns cmp) f fun c l =>
    set64V form uns cmp (s.src64 c imm f.a l) (s.src64 c imm f.b l)

/-- R273. -/
def execSel (f : Fmt) (imm : BitVec 20) (s : State) : Out :=
  s.alu1 (.sel f imm) f fun c l => s.src c imm .raw (if c.pbit f.c l then f.a else f.b) l

/-- R274. -/
def execLea (f : Fmt) (off : BitVec 12) (shift : BitVec 3) (s : State) : Out :=
  s.alu (.lea f off shift) f fun c l =>
    (words2 (leaV (s.src64 c 0 f.a l) (s.src c 0 (.int 32) f.b l) shift off), {})

/-- R275. -/
def execAdd64 (f : Fmt) (imm : BitVec 20) (s : State) : Out :=
  s.alu (.add64 f imm) f fun c l => (words2 (s.src64 c imm f.a l + s.src64 c imm f.b l), {})

/-- R275. -/
def execSub64 (f : Fmt) (imm : BitVec 20) (s : State) : Out :=
  s.alu (.sub64 f imm) f fun c l => (words2 (s.src64 c imm f.a l - s.src64 c imm f.b l), {})

/-- R276, R19: the first on lane's index outside the declared vector registers. -/
def State.badIndex (s : State) (c : Ctx) (imm : BitVec 20) (x : Src) (on : Mask) : Option Nat :=
  ((lanesOf on).map fun l => (s.src c imm .raw x l).toNat).find? (c.g.rec_.vec ≤ ·)

/-- R276. -/
def execMov (f : Fmt) (imm : BitVec 20) (mode : MovMode) (s : State) : Out :=
  match mode with
  | .direct => s.bits1 (.mov f imm .direct) f imm id
  | .fromIdx =>
    s.run (.mov f imm .fromIdx) fun c on =>
      match s.badIndex c imm f.a on with
      | some x => s.stop c .ridx (w64 x)
      | none =>
        s.finish c f on c.lanes
          (c.emit f.d on fun l => ([cget c.w.vec ((s.src c imm .raw f.a l).toNat * 32 + l)], {}))
  | .toIdx =>
    s.run (.mov f imm .toIdx) fun c on =>
      match s.badIndex c imm f.a on with
      | some x => s.stop c .ridx (w64 x)
      | none =>
        s.finish c f on c.lanes
          ((lanesOf on).foldl (fun w l =>
            let v := s.src c imm .raw f.b l
            (w.setVec (s.src c imm .raw f.a l).toNat l v).push l v) c.w)

/-- R277. -/
def execMovi (f : Fmt) (imm : BitVec 20) (form : BitVec 2) (s : State) : Out :=
  s.alu1 (.movi f imm form) f fun _ _ => immVal form imm

/-- R278. -/
def execPset (f : Fmt) (op : POp) (s : State) : Out :=
  s.alu1 (.pset f op) f fun c l => boolWord (psetV op (c.pbit f.a l) (c.pbit f.b l))

/-- R279. -/
def execPmov (f : Fmt) (form : PmovForm) (s : State) : Out :=
  match form with
  | .pk => s.alu1 (.pmov f .pk) f fun c _ => maskOf ((lanesOf (c.on f.g)).filter fun l => c.pbit f.a l)
  | .kp => s.alu1 (.pmov f .kp) f fun c l => boolWord ((s.src c 0 .raw f.a l).getLsbD l)
  | .pp => s.alu1 (.pmov f .pp) f fun c l => boolWord (c.pbit f.a l)

end Sys2Proof.Machine
end

