-- ==== Sys2Proof/Machine/Crypto.lean ====
section
/-! DEFINITION. SHA-384 and ECDSA over P-384, as R459 and R475 name them (PRESUMED, log 60: the algorithms are those of FIPS 180-4 and
FIPS 186-5). -/

namespace Sys2Proof.Machine

open Sys2Proof

/-! ## SHA-384 -/

/-- The largest x below 2^n with x^k ≤ v. -/
def rootFloor (k v : Nat) : Nat → Nat → Nat
  | 0, x => x
  | n + 1, x => rootFloor k v n (if (x + 2 ^ n) ^ k ≤ v then x + 2 ^ n else x)

/-- The first 80 primes. -/
def primes : List Nat := (List.range 410).filter fun n => 2 ≤ n && (List.range 21).all fun d => d < 2 || n ≤ d || n % d != 0

/-- The round constants: the first 64 fractional bits of the cube roots of the first 80 primes. -/
def shaK : List (BitVec 64) := primes.map fun p => BitVec.ofNat 64 (rootFloor 3 (p * 2 ^ 192) 67 0)

/-- The initial value: the first 64 fractional bits of the square roots of the 9th to 16th primes. -/
def shaInit : List (BitVec 64) := ((primes.drop 8).take 8).map fun p => BitVec.ofNat 64 (rootFloor 2 (p * 2 ^ 128) 67 0)

/-- The number whose bytes, highest first, are `bs`. -/
def beNat (bs : List Byte) : Nat := leNat bs.reverse

def beBytes (n v : Nat) : List Byte := (natBytes n v).reverse

/-- The message schedule, newest word first, from the 16 words of a block. -/
def shaSchedule : Nat → List (BitVec 64) → List (BitVec 64)
  | 0, w => w
  | n + 1, w =>
    let at_ := fun (i : Nat) => (w[i]?).getD 0
    let s0 := (at_ 14).rotateRight 1 ^^^ (at_ 14).rotateRight 8 ^^^ (at_ 14 >>> 7)
    let s1 := (at_ 1).rotateRight 19 ^^^ (at_ 1).rotateRight 61 ^^^ (at_ 1 >>> 6)
    shaSchedule n ((at_ 15 + s0 + at_ 6 + s1) :: w)

/-- One round on the eight working variables. -/
def shaRound (v : List (BitVec 64)) (x : BitVec 64 × BitVec 64) : List (BitVec 64) :=
  match v with
  | [a, b, c, d, e, f, g, h] =>
    let s1 := e.rotateRight 14 ^^^ e.rotateRight 18 ^^^ e.rotateRight 41
    let t1 := h + s1 + ((e &&& f) ^^^ (~~~e &&& g)) + x.1 + x.2
    let s0 := a.rotateRight 28 ^^^ a.rotateRight 34 ^^^ a.rotateRight 39
    let t2 := s0 + ((a &&& b) ^^^ (a &&& c) ^^^ (b &&& c))
    [t1 + t2, a, b, c, d + t1, e, f, g]
  | v => v

/-- The compression of one block of 128 bytes. -/
def shaBlock (h : List (BitVec 64)) (bs : List Byte) : List (BitVec 64) :=
  let w := (List.range 16).map fun i => BitVec.ofNat 64 (beNat ((bs.drop (8 * i)).take 8))
  let ws := (shaSchedule 64 w.reverse).reverse
  let v := (shaK.zip ws).foldl shaRound h
  (h.zip v).map fun x => x.1 + x.2

def shaBlocks : Nat → List (BitVec 64) → List Byte → List (BitVec 64)
  | 0, h, _ => h
  | n + 1, h, bs => shaBlocks n (shaBlock h (bs.take 128)) (bs.drop 128)

/-- The SHA-384 digest of a message. PRESUMED, log 60. -/
def sha384 (m : List Byte) : List Byte :=
  let z := (128 - (m.length + 17) % 128) % 128
  let p := m ++ [0x80] ++ List.replicate z (0 : Byte) ++ beBytes 16 (8 * m.length)
  ((shaBlocks (p.length / 128) shaInit p).flatMap fun x => beBytes 8 x.toNat).take 48

/-! ## P-384 -/

def p384P : Nat := 2 ^ 384 - 2 ^ 128 - 2 ^ 96 + 2 ^ 32 - 1

def p384N : Nat :=
  0xFFFFFFFFFFFFFFFFFFFFFFFFFFFFFFFFFFFFFFFFFFFFFFFFC7634D81F4372DDF581A0DB248B0A77AECEC196ACCC52973

def p384B : Nat :=
  0xB3312FA7E23EE7E4988E056BE3F82D19181D9C6EFE8141120314088F5013875AC656398D8A2ED19D2A85C8EDD3EC2AEF

def p384G : Nat × Nat :=
  (0xAA87CA22BE8B05378EB1C71EF320AD746E1D3B628BA79B9859F741E082542A385502F25DBF55296C3A545E3872760AB7,
   0x3617DE4A96262C6F5D9E98BF9292DC29F8F41DBD289A147CE9DA3113B5F0B8C00A60B1CE1D7E819D7A431D7C90EA0E5F)

/-- `x ^ e` modulo `m`, over the low `n` bits of `e`. -/
def powMod (m x e : Nat) : Nat → Nat
  | 0 => 1 % m
  | n + 1 =>
    let r := powMod m x (e / 2) n
    let s := r * r % m
    if e % 2 = 1 then s * x % m else s

/-- The inverse modulo a prime below 2^384. -/
def invMod (m x : Nat) : Nat := powMod m x (m - 2) 384

/-- A point of the curve; `none` is the point at infinity. -/
abbrev Point := Option (Nat × Nat)

/-- The sum of two points. -/
def Point.add (a b : Point) : Point :=
  match a, b with
  | none, q => q
  | p, none => p
  | some (x1, y1), some (x2, y2) =>
    let p := p384P
    if x1 = x2 && (y1 + y2) % p = 0 then none
    else
      let s := if x1 = x2 then (3 * x1 * x1 + p - 3) * invMod p (2 * y1 % p) % p
        else (y2 + p - y1) * invMod p ((x2 + p - x1) % p) % p
      let x := (s * s + 2 * p - x1 - x2) % p
      some (x, (s * (x1 + p - x) + p - y1) % p)

/-- The point that (X, Y, Z) stands for: (X / Z², Y / Z³), and infinity where Z is 0. -/
def affineOf (j : Nat × Nat × Nat) : Point :=
  let p := p384P
  if j.2.2 = 0 then none
  else
    let i := invMod p j.2.2
    some (j.1 * (i * i % p) % p, j.2.1 * (i * i % p * i % p) % p)

/-- Twice (X, Y, Z). -/
def jacDouble (j : Nat × Nat × Nat) : Nat × Nat × Nat :=
  let p := p384P
  let (x, y, z) := j
  let d := z * z % p
  let g := y * y % p
  let b := x * g % p
  let a := 3 * (x + p - d) * (x + d) % p
  let x3 := (a * a + 8 * (p - b)) % p
  (x3, (a * (4 * b + p - x3) + 8 * (p - g * g % p)) % p, 2 * y * z % p)

/-- The sum of (X, Y, Z) and a point that is not infinity. -/
def jacAdd (j : Nat × Nat × Nat) (q : Nat × Nat) : Nat × Nat × Nat :=
  let p := p384P
  let (x, y, z) := j
  if z = 0 then (q.1, q.2, 1)
  else
    let zz := z * z % p
    let h := (q.1 * zz + p - x) % p
    let r := (q.2 * (z * zz % p) + p - y) % p
    if h = 0 then (if r = 0 then jacDouble j else (1, 1, 0))
    else
      let hh := h * h % p
      let hhh := h * hh % p
      let v := x * hh % p
      let x3 := (r * r + (p - hhh) + 2 * (p - v)) % p
      (x3, (r * (v + p - x3) + (p - y) * hhh) % p, z * h % p)

/-- The multiple `k` of a point, over the low `n` bits of `k`. -/
def jacMul (q : Nat × Nat) (k : Nat) : Nat → Nat × Nat × Nat
  | 0 => (1, 1, 0)
  | n + 1 =>
    let d := jacDouble (jacMul q (k / 2) n)
    if k % 2 = 1 then jacAdd d q else d

/-- The multiple `k` of a point, over the low `n` bits of `k`. -/
def Point.mul (q : Point) (k n : Nat) : Point :=
  match q with
  | none => none
  | some q => affineOf (jacMul q k n)

/-- A public key in uncompressed form. PRESUMED, log 60. -/
def pointOf (bs : List Byte) : Point :=
  let x := beNat ((bs.drop 1).take 48)
  let y := beNat ((bs.drop 49).take 48)
  if (bs.head?.getD 0) == 4 && x < p384P && y < p384P && y * y % p384P = (x * x * x + (p384P - 3) * x + p384B) % p384P then
    some (x, y) else none

def pointBytes : Point → List Byte
  | some (x, y) => 4 :: (beBytes 48 x ++ beBytes 48 y)
  | none => List.replicate 97 0

/-- ECDSA verification of a SHA-384 digest. PRESUMED, log 60. -/
def ecdsaOk (key : Point) (digest : List Byte) (r s : Nat) : Bool :=
  let n := p384N
  key.isSome && 0 < r && r < n && 0 < s && s < n &&
    let w := invMod n s
    let z := beNat digest
    match (Point.mul (some p384G) (z * w % n) 384).add (Point.mul key (r * w % n) 384) with
    | some (x, _) => x % n == r
    | none => false

/-- The ECDSA signature of a digest under a private key, with the nonce `k`. PRESUMED, log 60. -/
def ecdsaSign (d : Nat) (digest : List Byte) (k : Nat) : Nat × Nat :=
  let n := p384N
  match Point.mul (some p384G) (k % n) 384 with
  | some (x, _) =>
    let r := x % n
    (r, invMod n (k % n) * (beNat digest + r * d) % n)
  | none => (0, 0)

end Sys2Proof.Machine
end

