-- ==== Sys2Proof/Decode.lean ====
section
/-! DEFINITION. The 96-bit instruction word: decoding with the checks of R67 in their order (R46 to R67), and the
encoder. -/

namespace Sys2Proof

/-! ## Codes -/

def IType.ofCode (c : BitVec 3) : Option IType :=
  match c.toNat with
  | 0 => some .s32 | 1 => some .n32 | 2 => some .s16x2 | 3 => some .s8x4 | 4 => some .n8x4 | 5 => some .s4x8
  | _ => none

def IType.code : IType → BitVec 3
  | .s32 => 0 | .n32 => 1 | .s16x2 => 2 | .s8x4 => 3 | .n8x4 => 4 | .s4x8 => 5

def FType.ofCode (c : BitVec 3) : Option FType :=
  match c.toNat with
  | 0 => some .f32 | 1 => some .f16 | 2 => some .bf16 | 3 => some .f16x2 | 4 => some .bf16x2 | _ => none

def FType.code : FType → BitVec 3
  | .f32 => 0 | .f16 => 1 | .bf16 => 2 | .f16x2 => 3 | .bf16x2 => 4

def Rnd.ofCode (c : BitVec 2) : Rnd :=
  match c.toNat with
  | 0 => .rne | 1 => .rtz | 2 => .rdn | _ => .rup

def Rnd.code : Rnd → BitVec 2
  | .rne => 0 | .rtz => 1 | .rdn => 2 | .rup => 3

def Cmp.ofCode (c : BitVec 3) : Option Cmp :=
  match c.toNat with
  | 0 => some .eq | 1 => some .ne | 2 => some .lt | 3 => some .le | 4 => some .gt | 5 => some .ge | _ => none

def Cmp.code : Cmp → BitVec 3
  | .eq => 0 | .ne => 1 | .lt => 2 | .le => 3 | .gt => 4 | .ge => 5

def Form.ofCode (c : BitVec 2) : Option Form :=
  match c.toNat with
  | 0 => some .p | 1 => some .b | 2 => some .m | _ => none

def Form.code : Form → BitVec 2
  | .p => 0 | .b => 1 | .m => 2

def Wid.ofCode (c : BitVec 2) : Wid :=
  match c.toNat with
  | 0 => .w32 | 1 => .w16 | 2 => .w8 | _ => .w4

def Wid.code : Wid → BitVec 2
  | .w32 => 0 | .w16 => 1 | .w8 => 2 | .w4 => 3

def Ord.ofCode (c : BitVec 2) : Ord :=
  match c.toNat with
  | 0 => .rlx | 1 => .acq | 2 => .rel | _ => .ar

def Ord.code : Ord → BitVec 2
  | .rlx => 0 | .acq => 1 | .rel => 2 | .ar => 3

def Scope.ofCode (c : BitVec 3) : Scope :=
  match c.toNat with
  | 0 => .team | 1 => .clu | 2 => .die | 3 => .dev | 4 => .app | 5 => .io | 6 => .peer | _ => .sys

def Scope.code : Scope → BitVec 3
  | .team => 0 | .clu => 1 | .die => 2 | .dev => 3 | .app => 4 | .io => 5 | .peer => 6 | .sys => 7

def Size.ofCode (c : BitVec 3) : Option Size :=
  match c.toNat with
  | 0 => some .s8 | 1 => some .n8 | 2 => some .s16 | 3 => some .n16 | 4 => some .w32 | 5 => some .w64 | _ => none

def Size.code : Size → BitVec 3
  | .s8 => 0 | .n8 => 1 | .s16 => 2 | .n16 => 3 | .w32 => 4 | .w64 => 5

def Space.ofCode (c : BitVec 2) : Option Space :=
  match c.toNat with
  | 0 => some .glb | 1 => some .cst | 2 => some .spl | _ => none

def Space.code : Space → BitVec 2
  | .glb => 0 | .cst => 1 | .spl => 2

def Elem.ofCode (c : BitVec 2) : Elem :=
  match c.toNat with
  | 0 => .e32 | 1 => .e16 | 2 => .e8 | _ => .e4

def Elem.code : Elem → BitVec 2
  | .e32 => 0 | .e16 => 1 | .e8 => 2 | .e4 => 3

def AOp.ofCode (c : BitVec 3) : AOp :=
  match c.toNat with
  | 0 => .add | 1 => .min | 2 => .max | 3 => .and | 4 => .or | 5 => .xor | 6 => .exch | _ => .inc

def AOp.code : AOp → BitVec 3
  | .add => 0 | .min => 1 | .max => 2 | .and => 3 | .or => 4 | .xor => 5 | .exch => 6 | .inc => 7

def AType.ofCode (c : BitVec 2) : AType :=
  match c.toNat with
  | 0 => .s32 | 1 => .n32 | 2 => .n64 | _ => .f32

def AType.code : AType → BitVec 2
  | .s32 => 0 | .n32 => 1 | .n64 => 2 | .f32 => 3

def ROp.ofCode (c : BitVec 3) : ROp :=
  match c.toNat with
  | 0 => .addS | 1 => .minS | 2 => .maxS | 3 => .minN | 4 => .maxN | 5 => .and | 6 => .or | _ => .xor

def ROp.code : ROp → BitVec 3
  | .addS => 0 | .minS => 1 | .maxS => 2 | .minN => 3 | .maxN => 4 | .and => 5 | .or => 6 | .xor => 7

def VOp.ofCode (c : BitVec 3) : Option VOp :=
  match c.toNat with
  | 0 => some .all | 1 => some .any | 2 => some .ballot | 3 => some .uni | _ => none

def VOp.code : VOp → BitVec 3
  | .all => 0 | .any => 1 | .ballot => 2 | .uni => 3

def POp.ofCode (c : BitVec 2) : POp :=
  match c.toNat with
  | 0 => .and | 1 => .or | 2 => .xor | _ => .andn

def POp.code : POp → BitVec 2
  | .and => 0 | .or => 1 | .xor => 2 | .andn => 3

/-- R305: `SUB[4:3]` and `MOD` of `MATCH`. -/
def MatchBy.codes : MatchBy → BitVec 2 × BitVec 5
  | .bits => (0, 0) | .f32 => (1, 0) | .s32 => (1, 1) | .n32 => (1, 2)

def MovMode.code : MovMode → BitVec 5
  | .direct => 0 | .fromIdx => 1 | .toIdx => 2

def PmovForm.code : PmovForm → BitVec 2
  | .pk => 0 | .kp => 1 | .pp => 2

def SfuOp.ofCode (c : BitVec 5) : Option SfuOp :=
  match c.toNat with
  | 0 => some .rcp | 1 => some .rsq | 2 => some .sqrt | 3 => some .ex2 | 4 => some .lg2 | 5 => some .sin
  | 6 => some .cos | 7 => some .tanh | 8 => some .sigm | _ => none

def SfuOp.code : SfuOp → BitVec 5
  | .rcp => 0 | .rsq => 1 | .sqrt => 2 | .ex2 => 3 | .lg2 => 4 | .sin => 5 | .cos => 6 | .tanh => 7 | .sigm => 8

def CvtRnd.ofCode (c : BitVec 3) : Option CvtRnd :=
  match c.toNat with
  | 0 => some .slot | 1 => some .rne | 2 => some .rtz | 3 => some .rdn | 4 => some .rup | 5 => some .sr | _ => none

def CvtRnd.code : CvtRnd → BitVec 3
  | .slot => 0 | .rne => 1 | .rtz => 2 | .rdn => 3 | .rup => 4 | .sr => 5

def PackW.ofCode (c : BitVec 3) : Option PackW :=
  match c.toNat with
  | 0 => some .e16 | 1 => some .e8 | 2 => some .e4 | _ => none

def PackW.code : PackW → BitVec 3
  | .e16 => 0 | .e8 => 1 | .e4 => 2

def CpyDir.ofCode (c : BitVec 3) : Option CpyDir :=
  match c.toNat with
  | 0 => some .gg | 1 => some .gl2gal | 2 => some .gal2gl | 3 => some .gl2hall | 4 => some .hall2gl
  | 5 => some .gl2ds | 6 => some .ds2gl | _ => none

def CpyDir.code : CpyDir → BitVec 3
  | .gg => 0 | .gl2gal => 1 | .gal2gl => 2 | .gl2hall => 3 | .hall2gl => 4 | .gl2ds => 5 | .ds2gl => 6

def BarLvl.ofCode (c : BitVec 2) : Option BarLvl :=
  match c.toNat with
  | 0 => some .team | 1 => some .clu | 2 => some .die | _ => none

def BarLvl.code : BarLvl → BitVec 2
  | .team => 0 | .clu => 1 | .die => 2

def QSel.ofCode (c : BitVec 2) : Option QSel :=
  match c.toNat with
  | 0 => some .pub | 1 => some .rd | 2 => some .ready | _ => none

def QSel.code : QSel → BitVec 2
  | .pub => 0 | .rd => 1 | .ready => 2

def TraceMode.ofCode (c : BitVec 2) : Option TraceMode :=
  match c.toNat with
  | 0 => some .near | 1 => some .any | 2 => some .all | _ => none

def TraceMode.code : TraceMode → BitVec 2
  | .near => 0 | .any => 1 | .all => 2

/-- R64: the half-operations in the order of their codes. -/
def hopTable : List HOp :=
  [.hnop, .faddF32, .fsubF32, .fmulF32, .ffmaF32, .fminF32, .fmaxF32, .faddF16x2, .fmulF16x2, .ffmaF16x2,
   .faddBf16x2, .fmulBf16x2, .ffmaBf16x2, .iaddS32, .isubS32, .imulS32, .imadS32, .iminS32, .imaxS32, .iminN32,
   .imaxN32, .and, .or, .xor, .andn, .shl, .shr, .sar, .mov, .dp4S8x4, .dp4N8x4, .dp8S4x8, .dp2S16x2]

def HOp.ofCode (c : BitVec 6) : Option HOp := hopTable[c.toNat]?

def HOp.code (o : HOp) : BitVec 6 := BitVec.ofNat 6 (hopTable.findIdx (· == o))

/-! ## Fields of a standard word (R46) -/

/-- R46: the fields of a standard word, as bits. -/
structure RawWord where
  op : BitVec 7
  sub : BitVec 5
  mod : BitVec 5
  dst : BitVec 11
  srca : BitVec 12
  srcb : BitVec 12
  srcc : BitVec 12
  guard : BitVec 4
  hint : BitVec 8
  imm : BitVec 20
  deriving DecidableEq, Repr

def RawWord.ofWord (w : IWord) : RawWord where
  op := w.extractLsb' 89 7
  sub := w.extractLsb' 84 5
  mod := w.extractLsb' 79 5
  dst := w.extractLsb' 68 11
  srca := w.extractLsb' 56 12
  srcb := w.extractLsb' 44 12
  srcc := w.extractLsb' 32 12
  guard := w.extractLsb' 28 4
  hint := w.extractLsb' 20 8
  imm := w.extractLsb' 0 20

def RawWord.toWord (r : RawWord) : IWord :=
  r.op ++ r.sub ++ r.mod ++ r.dst ++ r.srca ++ r.srcb ++ r.srcc ++ r.guard ++ r.hint ++ r.imm

/-- R25: a source field. -/
def decSrc (x : BitVec 12) : Option Src :=
  let idx := x.extractLsb' 0 9
  let n := idx.toNat
  let neg := x.getLsbD 8
  match (x.extractLsb' 9 3).toNat with
  | 0 => some (.vec neg (x.extractLsb' 0 8))
  | 1 =>
    if n < 64 then some (.uni (x.extractLsb' 0 6))
    else if n < 76 then some (.mask (x.extractLsb' 0 4))
    else if n < 80 then none
    else if n < 88 then some (.tile (x.extractLsb' 0 3))
    else if n < 92 then some (.net (x.extractLsb' 0 2))
    else if n < 256 then none
    else some (.spec (x.extractLsb' 0 8))
  | 2 =>
    let k := (x.extractLsb' 0 8).toNat
    if 1 ≤ k ∧ k ≤ 8 then some (.win neg (BitVec.ofNat 3 (k - 1)))
    else if 16 ≤ k ∧ k < 32 then some (.const neg (x.extractLsb' 0 4))
    else none
  | 3 => if n < 32 then some (.stair (x.extractLsb' 3 2) (x.extractLsb' 0 3)) else none
  | 4 => if n < 4 then some (.imm (x.extractLsb' 0 2)) else none
  | 5 => if n < 16 then some (.pred (x.getLsbD 3) (x.extractLsb' 0 3)) else none
  | _ => none

def bit (b : Bool) : BitVec 1 := BitVec.ofBool b

def encSrc : Src → BitVec 12
  | .vec neg i => 0#3 ++ bit neg ++ i
  | .uni i => 1#3 ++ 0#3 ++ i
  | .mask i => 1#3 ++ 4#5 ++ i
  | .tile i => 1#3 ++ 10#6 ++ i
  | .net i => 1#3 ++ 22#7 ++ i
  | .spec i => 1#3 ++ 1#1 ++ i
  | .win neg k => 2#3 ++ bit neg ++ BitVec.ofNat 8 (k.toNat + 1)
  | .const neg i => 2#3 ++ bit neg ++ 1#4 ++ i
  | .stair j k => 3#3 ++ 0#4 ++ j ++ k
  | .imm f => 4#3 ++ 0#7 ++ f
  | .pred neg i => 5#3 ++ 0#5 ++ bit neg ++ i

/-- R23, R24: the destination field. -/
def decDst (x : BitVec 11) : Option Dst :=
  let i := x.extractLsb' 0 8
  if x.getLsbD 10 then (if x.extractLsb' 0 10 = 0 then some .nwb else none)
  else match (x.extractLsb' 8 2).toNat with
  | 0 => some (.vec i)
  | 1 => if i.toNat < 64 then some (.uni (x.extractLsb' 0 6)) else none
  | 2 => if i.toNat < 8 then some (.pred (x.extractLsb' 0 3)) else none
  | _ => some (.cls3 i)

def encDst : Dst → BitVec 11
  | .vec i => 0#3 ++ i
  | .nwb => 1#1 ++ 0#10
  | .uni i => 1#3 ++ 0#2 ++ i
  | .pred i => 2#3 ++ 0#5 ++ i
  | .cls3 i => 3#3 ++ i

def decGuard (x : BitVec 4) : Guard := ⟨x.getLsbD 3, x.extractLsb' 0 3⟩

def encGuard (g : Guard) : BitVec 4 := bit g.neg ++ g.p

def decHints (x : BitVec 8) : Hints := ⟨x.extractLsb' 5 3, x.getLsbD 4, x.extractLsb' 1 3, x.getLsbD 0⟩

def encHints (h : Hints) : BitVec 8 := h.stall ++ bit h.yield ++ h.wait ++ bit h.last

/-- The operand fields of a word; `none` where a field is reserved on its own. -/
def RawWord.fmt (r : RawWord) : Option Fmt :=
  match decDst r.dst, decSrc r.srca, decSrc r.srcb, decSrc r.srcc with
  | some d, some a, some b, some c => some ⟨decGuard r.guard, decHints r.hint, d, a, b, c⟩
  | _, _, _, _ => none

/-! ## From the opcode to the instruction (R54, R57 to R61) -/

/-- R67: check `cause` passes. -/
def need (cause : DecodeCause) (ok : Bool) : Except DecodeCause Unit := if ok then .ok () else .error cause

/-- R67: a code that must be assigned. -/
def get {α : Type} (cause : DecodeCause) (x : Option α) : Except DecodeCause α :=
  match x with
  | some a => .ok a
  | none => .error cause

/-- An instruction once its operand fields and bits 19:0 are read; `none` for an unassigned or non-zero extension. -/
abbrev Builder := Fmt → BitVec 20 → Option Instr

/-- R53: bits 19:0 must be zero. -/
def zext (k : Fmt → Instr) : Builder := fun f i => if i = 0 then some (k f) else none

/-- R53: the bits of `i` that `defined` does not name must be zero. -/
def extBits (i defined : BitVec 20) (x : Instr) : Option Instr := if i &&& ~~~defined = 0 then some x else none

/-- R54, R57 to R61: checks 1, 2 and 3, and the instruction that `OP`, `SUB` and `MOD` name. -/
def form (op : BitVec 7) (sub mod : BitVec 5) : Except DecodeCause Builder :=
  let hi := (sub.extractLsb' 3 2).toNat
  let lo := sub.extractLsb' 0 3
  let lo0 := lo = 0
  let it := IType.ofCode lo
  let ft := FType.ofCode lo
  let m0 := mod = 0
  let sat := mod.getLsbD 0
  let rnd := Rnd.ofCode (mod.extractLsb' 0 2)
  let fsat := mod.getLsbD 2
  let wid := Wid.ofCode (sub.extractLsb' 0 2)
  let ord := Ord.ofCode (mod.extractLsb' 3 2)
  let sc := Scope.ofCode (mod.extractLsb' 0 3)
  let size := Size.ofCode (sub.extractLsb' 2 3)
  let aop := AOp.ofCode (sub.extractLsb' 2 3)
  let aty := AType.ofCode (sub.extractLsb' 0 2)
  let sub0 := sub = 0
  let bit2 := sub.getLsbD 2
  match op.toNat with
  | 0x00 => do
    need .sub sub0; need .mod m0
    .ok fun f i => if f.g = .always ∧ f.d = .vec 0 ∧ f.a = .zero ∧ f.b = .zero ∧ f.c = .zero ∧ i = 0
      then some (.nop f.h) else none
  | 0x01 => do
    need .sub (hi < 2); let t ← get .sub it; need .mod (mod ≤ 1)
    .ok fun f i => some (if hi = 0 then .iadd f i t sat else .isub f i t sat)
  | 0x02 => do
    need .sub (hi = 0); let t ← get .sub it; need .sub (t.is32 || t == .s16x2); need .mod m0
    .ok fun f i => some (.imul f i t)
  | 0x03 => do
    need .sub (hi = 0); let t ← get .sub it; need .sub t.is32; need .mod m0
    .ok fun f i => some (.imulh f i t)
  | 0x04 => do
    need .sub (hi = 0); let t ← get .sub it; need .sub (t.is32 || t == .s16x2); need .mod (mod ≤ 1)
    .ok fun f i => some (.imad f i t sat)
  | 0x05 => do
    need .sub (hi = 0); let t ← get .sub it; need .sub t.is32; need .mod m0
    .ok fun f i => some (.imadw f i t)
  | 0x06 => do
    need .sub (hi < 2); let t ← get .sub it; need .sub (t != .s4x8); need .mod m0
    .ok fun f i => some (if hi = 0 then .imin f i t else .imax f i t)
  | 0x07 => do
    need .sub (hi = 0); let t ← get .sub it; need .sub (t == .s32 || t == .s16x2 || t == .s8x4)
    need .mod (mod ≤ 1)
    .ok fun f i => some (.iabs f i t sat)
  | 0x08 => do
    need .sub lo0; need .mod m0
    .ok fun f i => some (match hi with | 0 => .andB f i | 1 => .orB f i | 2 => .xorB f i | _ => .andnB f i)
  | 0x09 => do
    need .sub sub0; need .mod m0
    .ok fun f i => some (.notB f i)
  | 0x0A => do
    need .sub lo0; need .mod m0
    .ok fun f i => some (match hi with | 0 => .shl f i | 1 => .shr f i | 2 => .sar f i | _ => .rotl f i)
  | 0x0B => do
    need .sub (hi < 2 && lo0); need .mod m0
    .ok fun f i => some (.funsh f i (hi = 1))
  | 0x0C => do
    need .sub (hi = 0); let t ← get .sub it; need .sub t.is32; need .mod m0
    .ok fun f i => some (.bfx f i t)
  | 0x0D => do
    need .sub sub0; need .mod m0
    .ok fun f i => some (.bfi f i)
  | 0x0E => do
    need .sub lo0; need .mod m0
    .ok fun f i => some (match hi with | 0 => .popc f i | 1 => .clz f i | 2 => .ctz f i | _ => .brev f i)
  | 0x0F => do
    let fm ← get .sub (Form.ofCode (sub.extractLsb' 3 2)); let t ← get .sub it
    need .sub (t != .s4x8 && (fm != .p || t.is32)); need .mod (mod.toNat < 8)
    let c ← get .mod (Cmp.ofCode (mod.extractLsb' 0 3))
    .ok fun f i => some (.iset f i fm t c)
  | 0x10 => do
    need .sub sub0; need .mod m0
    .ok fun f i => some (.sel f i)
  | 0x11 => do
    need .sub sub0; need .mod m0
    .ok fun f i => extBits i 0xFFF07 (.lea f (i.extractLsb' 8 12) (i.extractLsb' 0 3))
  | 0x12 => do
    need .sub (hi < 2 && lo0); need .mod m0
    .ok fun f i => some (if hi = 0 then .add64 f i else .sub64 f i)
  | 0x13 => do
    let fm ← get .sub (Form.ofCode (sub.extractLsb' 3 2)); need .sub (lo.toNat < 2)
    need .mod (mod.toNat < 8); let c ← get .mod (Cmp.ofCode (mod.extractLsb' 0 3))
    .ok fun f i => some (.set64 f i fm (lo = 1) c)
  | 0x14 => do
    need .sub sub0; need .mod (mod.toNat < 3)
    .ok fun f i => some (.mov f i (match mod.toNat with | 0 => .direct | 1 => .fromIdx | _ => .toIdx))
  | 0x15 => do
    need .sub (sub.toNat < 4); need .mod m0
    .ok fun f i => some (.movi f i (sub.extractLsb' 0 2))
  | 0x16 => do
    need .sub lo0; need .mod m0
    .ok (zext fun f => .pset f (POp.ofCode (sub.extractLsb' 3 2)))
  | 0x17 => do
    need .sub (hi < 3 && lo0); need .mod m0
    .ok (zext fun f => .pmov f (match hi with | 0 => .pk | 1 => .kp | _ => .pp))
  | 0x18 => do
    need .sub (hi < 2); let t ← get .sub ft; need .mod (mod.toNat < 8)
    .ok fun f i => some (if hi = 0 then .fadd f i t rnd fsat else .fsub f i t rnd fsat)
  | 0x19 => do
    need .sub (hi = 0); let t ← get .sub ft; need .mod (mod.toNat < 8)
    .ok fun f i => some (.fmul f i t rnd fsat)
  | 0x1A => do
    need .sub (hi = 0); let t ← get .sub ft; need .mod (mod.toNat < 8)
    .ok fun f i => some (.ffma f i t rnd fsat)
  | 0x1B => do
    need .sub (hi < 2); let t ← get .sub ft; need .mod m0
    .ok fun f i => some (if hi = 0 then .fmin f i t else .fmax f i t)
  | 0x1C => do
    let fm ← get .sub (Form.ofCode (sub.extractLsb' 3 2)); let t ← get .sub ft
    need .sub (t == .f32 || t == .f16 || t == .bf16); need .mod (mod.toNat < 16)
    let c ← get .mod (Cmp.ofCode (mod.extractLsb' 0 3))
    .ok fun f i => some (.fset f i fm t c (mod.getLsbD 3))
  | 0x1D => do
    need .sub (hi = 0); let t ← get .sub ft; need .sub (t == .f32 || t == .f16x2 || t == .bf16x2)
    need .mod (mod.toNat < 4)
    .ok fun f i => some (.frnd f i t rnd)
  | 0x1E => do
    need .sub (hi = 0); let t ← get .sub ft; need .sub (t == .f32 || t == .f16 || t == .bf16); need .mod m0
    .ok fun f i => some (.fclas f i t)
  | 0x1F => do
    need .sub sub0; need .mod (mod.toNat < 4)
    .ok fun f i => some (.fscl f i rnd)
  | 0x20 => do
    let o ← get .sub (SfuOp.ofCode sub); need .mod m0
    .ok fun f i => some (.sfu f i o)
  | 0x21 => do
    need .sub (hi < 2); let r ← get .sub (CvtRnd.ofCode lo); need .sub (hi = 0 || lo0); need .mod (mod.toNat < 8)
    .ok fun f i => some (if hi = 0 then .cvtTo f i r (mod.extractLsb' 0 3) else .cvtFrom f i (mod.extractLsb' 0 3))
  | 0x22 => do
    need .sub (hi < 2); let t ← get .sub it; need .sub t.is32
    need .mod (mod.toNat < 4 || (hi = 1 && mod.toNat < 8))
    .ok fun f i => some (if hi = 0 then .cvtiI2f f i t rnd else .cvtiF2i f i t rnd fsat)
  | 0x23 => do
    need .sub (hi < 2); let w ← get .sub (PackW.ofCode lo); need .mod (m0 || (hi = 0 && mod = 1))
    .ok fun f i => some (if hi = 0 then .pack f i w sat else .unpk f i w)
  | 0x24 => do
    need .sub sub0; need .mod m0
    .ok fun f i => extBits i 0x1F (.dp2 f (i.extractLsb' 0 5))
  | 0x25 => do
    need .sub (hi = 0); let t ← get .sub it; need .sub (t == .s8x4 || t == .n8x4); need .mod m0
    .ok fun f i => some (.dp4 f i t)
  | 0x26 => do
    need .sub (hi = 0); let t ← get .sub it; need .sub (t == .s4x8); need .mod m0
    .ok fun f i => some (.dp8 f i)
  | 0x27 => do
    need .sub (hi = 0); let t ← get .sub ft; need .sub (t == .f16x2 || t == .bf16x2); need .mod (mod.toNat < 4)
    .ok fun f i => some (.hdp2 f i t rnd)
  | 0x30 => do
    need .sub (hi < 2 && lo0); need .mod m0
    .ok (zext fun f => if hi = 0 then .setnetPerm f else .setnetRaw f)
  | 0x31 => do
    need .sub (sub.toNat < 4); need .mod m0
    .ok (zext fun f => .perm f wid)
  | 0x32 => do
    need .sub (hi < 2 && !bit2); need .mod (mod ≤ 1)
    .ok fun f i => some (.slide f i (hi = 1) wid sat)
  | 0x33 => do
    need .sub (sub.toNat < 4); need .mod m0
    .ok fun f i => some (.bcast f i wid)
  | 0x34 => do
    let o ← get .sub (VOp.ofCode (sub.extractLsb' 2 3)); need .mod m0
    .ok (zext fun f => .vote f o wid)
  | 0x35 => do
    need .mod m0
    .ok (zext fun f => .redux f (ROp.ofCode (sub.extractLsb' 2 3)) wid)
  | 0x36 => do
    need .mod (mod ≤ 1)
    .ok (zext fun f => .scan f (ROp.ofCode (sub.extractLsb' 2 3)) wid sat)
  | 0x37 => do
    need .sub (hi < 2 && !bit2); need .mod (m0 || (hi = 1 && mod.toNat < 3))
    .ok (zext fun f => .matchK f
      (if hi = 0 then .bits else match mod.toNat with | 0 => .f32 | 1 => .s32 | _ => .n32) wid)
  | 0x38 => do
    need .sub (sub.toNat < 4); need .mod m0
    .ok (zext fun f => .elect f wid)
  | 0x39 => do need .sub sub0; need .mod m0; .ok fun f i => some (.bra f i)
  | 0x3A => do need .sub sub0; need .mod m0; .ok (zext .brx)
  | 0x3B => do need .sub sub0; need .mod m0; .ok fun f i => some (.call f i)
  | 0x3C => do need .sub sub0; need .mod m0; .ok (zext .callx)
  | 0x3D => do need .sub sub0; need .mod m0; .ok (zext .ret)
  | 0x3E => do
    need .sub sub0; need .mod m0
    .ok fun f i => some (.loop f (i.extractLsb' 10 10) (i.extractLsb' 0 10))
  | 0x3F => do need .sub sub0; need .mod m0; .ok (zext .exit)
  | 0x40 => do need .sub sub0; need .mod m0; .ok (zext .join)
  | 0x41 => do need .sub sub0; need .mod m0; .ok (zext .leave)
  | 0x42 => do need .sub sub0; need .mod m0; .ok (zext .waitm)
  | 0x43 => do
    need .sub (hi < 2 && lo0); need .mod m0
    .ok (zext fun f => if hi = 0 then .mset f else .mget f)
  | 0x44 => do need .sub sub0; need .mod m0; .ok fun f i => extBits i 0xFFFF (.bkpt f (i.extractLsb' 0 16))
  | 0x45 => do need .sub sub0; need .mod m0; .ok fun f i => extBits i 0xFFFF (.trap f (i.extractLsb' 0 16))
  | 0x46 => do need .sub sub0; need .mod m0; .ok (zext .rte)
  | 0x47 => do
    need .sub (hi < 2 && lo0); need .mod m0
    .ok (zext fun f => .emur f (hi = 1))
  | 0x48 => do need .sub sub0; need .mod m0; .ok (zext .srd)
  | 0x49 => do need .sub sub0; need .mod m0; .ok (zext .swr)
  | 0x50 => do
    let z ← get .sub size; let sp ← get .sub (Space.ofCode (sub.extractLsb' 0 2))
    need .mod ((ord == .rlx || ord == .acq) && (sp == .glb || m0))
    .ok fun f i => some (.ld f z sp ord sc i)
  | 0x51 => do
    let z ← get .sub size; let sp ← get .sub (Space.ofCode (sub.extractLsb' 0 2)); need .sub (sp != .cst)
    need .mod ((ord == .rlx || ord == .rel) && (sp == .glb || m0))
    .ok fun f i => some (.st f z sp ord sc i)
  | 0x52 => do
    let z ← get .sub size; need .sub ((z == .w32 || z == .w64) && sub.extractLsb' 0 2 = 0); need .mod m0
    .ok fun f i => some (.ldc f (z == .w64) i)
  | 0x53 => do
    need .sub (sub.toNat < 2); need .mod m0
    .ok fun f i => some (.prf f (sub = 1) i)
  | 0x54 => do
    need .sub (sub.extractLsb' 0 2 = 0); need .mod m0
    .ok fun f i => some (.ldg f (sub.getLsbD 4) (Elem.ofCode (sub.extractLsb' 2 2)) i)
  | 0x55 => do
    need .sub (sub.extractLsb' 0 2 = 0); need .mod m0
    .ok fun f i => some (.stg f (sub.getLsbD 4) (Elem.ofCode (sub.extractLsb' 2 2)) i)
  | 0x56 => do
    let z ← get .sub size; need .sub (sub.extractLsb' 0 2 = 0); need .mod m0
    .ok fun f i => some (.ldh f z i)
  | 0x57 => do
    let z ← get .sub size; need .sub (sub.extractLsb' 0 2 = 0); need .mod m0
    .ok fun f i => some (.sth f z i)
  | 0x58 => do
    need .sub (hi < 2 && lo0); need .mod m0
    .ok fun f i => some (if hi = 0 then .spl f i else .fil f i)
  | 0x59 => do
    need .sub (aop.admits aty)
    .ok fun f i => some (.atom f aop aty ord sc i)
  | 0x5A => do
    need .sub (sub.toNat < 2)
    .ok fun f i => some (.cas f (sub = 1) ord sc i)
  | 0x5B => do
    need .sub (aop.admits aty && aop != .exch && aop != .inc); need .mod (ord == .rlx || ord == .rel)
    .ok fun f i => some (.red f aop aty (ord == .rel) sc i)
  | 0x5C => do
    need .sub (aop == .add || aop == .min || aop == .max); need .mod (ord == .rlx)
    .ok fun f i => some (.atomo f aop aty sc i)
  | 0x5D => do
    need .sub sub0; need .mod (ord == .rlx)
    .ok fun f i => some (.ldx f sc i)
  | 0x5E => do
    need .sub sub0; need .mod (ord != .rlx)
    .ok (zext fun f => .fence f ord sc)
  | 0x5F => do
    need .sub sub0; need .mod (ord == .ar)
    .ok fun f i => extBits i 0x3F (.fencex f sc (i.extractLsb' 0 3) (i.extractLsb' 3 3))
  | 0x60 => do need .sub sub0; need .mod m0; .ok fun f i => extBits i 0x7F (.probe f (i.extractLsb' 0 7))
  | 0x61 => do
    let d ← get .sub (CpyDir.ofCode (sub.extractLsb' 2 3)); need .sub (sub.extractLsb' 0 2 = 0); need .mod m0
    .ok fun f i => extBits i 0x3F (.cpy f d (i.extractLsb' 0 6))
  | 0x62 => do
    let e := Elem.ofCode (sub.extractLsb' 2 2)
    need .sub (e != .e4 && sub.extractLsb' 0 2 = 0); need .mod m0
    .ok fun f i => extBits i 0xFF03F (.cpyt f (sub.getLsbD 4) e (i.extractLsb' 12 8) (i.extractLsb' 0 6))
  | 0x63 => do
    need .sub (hi < 2 && lo0); need .mod m0
    .ok fun f i =>
      if hi = 0 then extBits i 0xFFF (.cpyxDie f (i.extractLsb' 6 6) (i.extractLsb' 0 6))
      else extBits i 0xFF (.cpyxPeer f (i.extractLsb' 6 2) (i.extractLsb' 0 6))
  | 0x64 => do
    need .sub (hi < 3 && sub.extractLsb' 0 2 = 0 && (hi = 0 || !bit2)); need .mod (m0 || (hi = 0 && mod = 1))
    .ok (zext fun f => match hi with | 0 => .twait f bit2 sat | 1 => .tfst f | _ => .tclr f)
  | 0x65 => do
    let l ← get .sub (BarLvl.ofCode (sub.extractLsb' 3 2)); need .sub (sub.extractLsb' 0 2 = 0); need .mod m0
    .ok fun f i => extBits i 0xF (if bit2 then .barSync f l (i.extractLsb' 0 4) else .barArv f l (i.extractLsb' 0 4))
  | 0x66 => do need .sub sub0; need .mod m0; .ok fun f i => extBits i 0x3 (.pubq f (i.extractLsb' 0 2))
  | 0x67 => do
    need .sub sub0; need .mod m0
    .ok fun f i => match QSel.ofCode (i.extractLsb' 5 2) with
      | some s => extBits i 0x7F (.qstat f (i.extractLsb' 0 2) (i.extractLsb' 2 3) s)
      | none => none
  | 0x68 => do need .sub sub0; need .mod m0; .ok fun f i => extBits i 0x3F (.nrec f (i.extractLsb' 0 6))
  | 0x69 => do need .sub sub0; need .mod m0; .ok (zext .launch)
  | 0x6A => do need .sub sub0; need .mod m0; .ok fun f i => extBits i 0x1 (.chwait f (i.getLsbD 0))
  | 0x6B => do need .sub sub0; need .mod m0; .ok (zext .bkacq)
  | 0x6C => do need .sub sub0; need .mod m0; .ok (zext .bkdone)
  | 0x6D => do need .sub sub0; need .mod m0; .ok (zext .tdesc)
  | 0x6E => do
    need .sub (hi < 2 && sub.extractLsb' 0 2 = 0); need .mod (mod.toNat < 8)
    .ok fun f i => extBits i 0xFFE00
      (.mma f (hi = 1) bit2 (mod.extractLsb' 0 3) (i.extractLsb' 17 3) (i.extractLsb' 9 8))
  | 0x6F => do need .sub sub0; need .mod m0; .ok fun f i => extBits i 0x3F (.mzero f (i.extractLsb' 0 6))
  | 0x70 => do
    need .sub (sub.toNat < 2); need .mod m0
    .ok fun f i => extBits i 0xE0000 (.mlda f (sub = 1) (i.extractLsb' 17 3))
  | 0x71 => do
    need .sub (sub.toNat < 2); need .mod m0
    .ok fun f i => extBits i 0xFF807
      (.msta f (sub = 1) (i.extractLsb' 0 3) (i.extractLsb' 14 6) (i.extractLsb' 11 3))
  | 0x72 => do
    need .sub sub0; need .mod m0
    .ok fun f i => extBits i 0xFFF80 (.mrd f (i.extractLsb' 14 6) (i.extractLsb' 7 7))
  | 0x73 => do need .sub sub0; need .mod m0; .ok fun f i => extBits i 0xFE000 (.mwr f (i.extractLsb' 13 7))
  | 0x74 => do
    need .sub (sub.toNat < 2); need .mod m0
    .ok fun f i => extBits i 0xFFF87 (.mlds f (sub = 1) (i.extractLsb' 7 13) (i.extractLsb' 0 3))
  | 0x75 => do need .sub sub0; need .mod m0; .ok (zext .bndp)
  | 0x76 => do need .sub sub0; need .mod m0; .ok fun f i => extBits i 0x3F (.dice f (i.extractLsb' 0 6))
  | 0x77 => do
    need .sub sub0; need .mod m0
    .ok fun f i => extBits i 0x1FFF (.rast f (i.extractLsb' 6 7) (i.extractLsb' 0 6))
  | 0x78 => do
    need .sub (hi < 2 && lo0); need .mod m0
    .ok fun f i => extBits i 0x3F (.rslv f (hi = 1) (i.extractLsb' 0 6))
  | 0x79 => do
    need .sub (hi < 2 && lo0); need .mod m0
    .ok fun f i => extBits i 0x3F (if hi = 0 then .smplWr f (i.extractLsb' 0 6) else .smplRd f (i.extractLsb' 0 6))
  | 0x7A => do
    let m ← get .sub (TraceMode.ofCode (sub.extractLsb' 3 2)); need .sub lo0; need .mod m0
    .ok fun f i => some (.trace f m (i.extractLsb' 12 8) (i.extractLsb' 6 6) (i.extractLsb' 0 6))
  | 0x7B => do need .sub (hi = 0); need .mod m0; .ok (zext fun f => .trhit f lo)
  | 0x7C => do need .sub (hi = 0 && lo.toNat < 6); need .mod m0; .ok (zext fun f => .trqry f lo)
  | _ => .error .op

/-! ## Paired words (R62 to R65) -/

/-- R63: a half source. -/
def decHSrc (x : BitVec 8) : Option HSrc :=
  let n := x.toNat
  if n < 0x80 then some (.vec (x.extractLsb' 0 7))
  else if 0x81 ≤ n ∧ n ≤ 0x88 then some (.win (BitVec.ofNat 3 (n - 0x81)))
  else if 0x90 ≤ n ∧ n < 0xA0 then some (.const (x.extractLsb' 0 4))
  else none

def encHSrc : HSrc → BitVec 8
  | .vec i => 0#1 ++ i
  | .win k => BitVec.ofNat 8 (k.toNat + 0x81)
  | .const i => 9#4 ++ i

/-- R63, R67: a half-operation, check 6 before check 5. -/
def decHalf (x : BitVec 40) : Except DecodeCause Half := do
  let op ← get .hop (HOp.ofCode (x.extractLsb' 34 6))
  let a ← get .operand (decHSrc (x.extractLsb' 16 8))
  let b ← get .operand (decHSrc (x.extractLsb' 8 8))
  let c ← get .operand (decHSrc (x.extractLsb' 0 8))
  let h : Half :=
    { op := op, negA := x.getLsbD 33, negZ := x.getLsbD 32, nwb := x.getLsbD 31, d := x.extractLsb' 24 7,
      a := a, b := b, c := c }
  need .operand h.ok
  .ok h

def encHalf (h : Half) : BitVec 40 :=
  h.op.code ++ bit h.negA ++ bit h.negZ ++ bit h.nwb ++ h.d ++ encHSrc h.a ++ encHSrc h.b ++ encHSrc h.c

/-- R62, R67: a paired word: the halves in order, then the word as a whole. -/
def decPaired (w : IWord) : Except DecodeCause Instr := do
  let h1 ← decHalf (w.extractLsb' 49 40)
  let h2 ← decHalf (w.extractLsb' 9 40)
  let g := decGuard (w.extractLsb' 5 4)
  need .operand (g.ok && !(h1.op == .hnop && h2.op == .hnop))
  .ok (.pairedWord g ⟨w.extractLsb' 2 3, w.getLsbD 1, w.getLsbD 0⟩ h1 h2)

/-! ## The decoder -/

/-- R67 check 4: a source field of class 6 or 7. -/
def classReserved (x : BitVec 12) : Bool := x.extractLsb' 9 3 ≥ 6

/-- R67: a standard word, the checks in their order. -/
def decStandard (r : RawWord) : Except DecodeCause Instr := do
  let build ← form r.op r.sub r.mod
  need .cls (!(classReserved r.srca || classReserved r.srcb || classReserved r.srcc))
  let f ← get .operand r.fmt
  let i ← get .operand (build f r.imm)
  need .operand i.wf
  .ok i

/-- R67: the instruction a word stands for, or the check that fails first. -/
def decode (w : IWord) : Except DecodeCause Instr :=
  if w.extractLsb' 89 7 = 0x7F then decPaired w else decStandard (RawWord.ofWord w)

/-- The instruction executed for a word: itself, or the non-instruction encoding with its cause (R68, R69). -/
def decodeWord (w : IWord) : Instr :=
  match decode w with
  | .ok i => i
  | .error c => .nonInstructionEncoding w c

/-- R47: the word in 12 bytes, bits 7:0 at the lowest address. -/
def wordOfBytes (bs : List Byte) : IWord :=
  bs.foldr (fun b w => (w <<< 8) ||| b.setWidth 96) 0

/-- R47: the 12 bytes of a word. -/
def bytesOfWord (w : IWord) : List Byte := (List.range 12).map fun i => w.extractLsb' (8 * i) 8

/-- Decoding 12 bytes at an instruction address, with the rest of the bytes; `none` when fewer remain. -/
def decodeBytes (bs : List Byte) : Option (Instr × List Byte) :=
  if bs.length < 12 then none else some (decodeWord (wordOfBytes (bs.take 12)), bs.drop 12)

/-- The instruction the decoder reads from the low 96 bits of `w`. -/
def decodeTableWord (_nbits w : Nat) : Option Instr :=
  (decodeBytes (bytesOfWord (BitVec.ofNat 96 w))).map (·.1)

/-! ## The encoder -/

/-- R57 to R60: `OP`, `SUB`, `MOD` and bits 19:0 of an instruction with a standard word. -/
def Instr.code : Instr → Option (BitVec 7 × BitVec 5 × BitVec 5 × BitVec 20)
  | .nop _ => some (0x00, 0, 0, 0)
  | .iadd _ i t s => some (0x01, 0#2 ++ t.code, (bit s).setWidth 5, i)
  | .isub _ i t s => some (0x01, 1#2 ++ t.code, (bit s).setWidth 5, i)
  | .imul _ i t => some (0x02, 0#2 ++ t.code, 0, i)
  | .imulh _ i t => some (0x03, 0#2 ++ t.code, 0, i)
  | .imad _ i t s => some (0x04, 0#2 ++ t.code, (bit s).setWidth 5, i)
  | .imadw _ i t => some (0x05, 0#2 ++ t.code, 0, i)
  | .imin _ i t => some (0x06, 0#2 ++ t.code, 0, i)
  | .imax _ i t => some (0x06, 1#2 ++ t.code, 0, i)
  | .iabs _ i t s => some (0x07, 0#2 ++ t.code, (bit s).setWidth 5, i)
  | .andB _ i => some (0x08, 0#5, 0, i)
  | .orB _ i => some (0x08, 8#5, 0, i)
  | .xorB _ i => some (0x08, 16#5, 0, i)
  | .andnB _ i => some (0x08, 24#5, 0, i)
  | .notB _ i => some (0x09, 0, 0, i)
  | .shl _ i => some (0x0A, 0#5, 0, i)
  | .shr _ i => some (0x0A, 8#5, 0, i)
  | .sar _ i => some (0x0A, 16#5, 0, i)
  | .rotl _ i => some (0x0A, 24#5, 0, i)
  | .funsh _ i r => some (0x0B, 0#1 ++ bit r ++ 0#3, 0, i)
  | .bfx _ i t => some (0x0C, 0#2 ++ t.code, 0, i)
  | .bfi _ i => some (0x0D, 0, 0, i)
  | .popc _ i => some (0x0E, 0#5, 0, i)
  | .clz _ i => some (0x0E, 8#5, 0, i)
  | .ctz _ i => some (0x0E, 16#5, 0, i)
  | .brev _ i => some (0x0E, 24#5, 0, i)
  | .iset _ i fm t c => some (0x0F, fm.code ++ t.code, 0#2 ++ c.code, i)
  | .sel _ i => some (0x10, 0, 0, i)
  | .lea _ off sh => some (0x11, 0, 0, off ++ 0#5 ++ sh)
  | .add64 _ i => some (0x12, 0#5, 0, i)
  | .sub64 _ i => some (0x12, 8#5, 0, i)
  | .set64 _ i fm u c => some (0x13, fm.code ++ 0#2 ++ bit u, 0#2 ++ c.code, i)
  | .mov _ i m => some (0x14, 0, m.code, i)
  | .movi _ i fm => some (0x15, 0#3 ++ fm, 0, i)
  | .pset _ o => some (0x16, o.code ++ 0#3, 0, 0)
  | .pmov _ fm => some (0x17, fm.code ++ 0#3, 0, 0)
  | .fadd _ i t r s => some (0x18, 0#2 ++ t.code, 0#2 ++ bit s ++ r.code, i)
  | .fsub _ i t r s => some (0x18, 1#2 ++ t.code, 0#2 ++ bit s ++ r.code, i)
  | .fmul _ i t r s => some (0x19, 0#2 ++ t.code, 0#2 ++ bit s ++ r.code, i)
  | .ffma _ i t r s => some (0x1A, 0#2 ++ t.code, 0#2 ++ bit s ++ r.code, i)
  | .fmin _ i t => some (0x1B, 0#2 ++ t.code, 0, i)
  | .fmax _ i t => some (0x1B, 1#2 ++ t.code, 0, i)
  | .fset _ i fm t c u => some (0x1C, fm.code ++ t.code, 0#1 ++ bit u ++ c.code, i)
  | .frnd _ i t r => some (0x1D, 0#2 ++ t.code, 0#3 ++ r.code, i)
  | .fclas _ i t => some (0x1E, 0#2 ++ t.code, 0, i)
  | .fscl _ i r => some (0x1F, 0, 0#3 ++ r.code, i)
  | .sfu _ i o => some (0x20, o.code, 0, i)
  | .cvtTo _ i r n => some (0x21, 0#2 ++ r.code, 0#2 ++ n, i)
  | .cvtFrom _ i n => some (0x21, 8#5, 0#2 ++ n, i)
  | .cvtiI2f _ i t r => some (0x22, 0#2 ++ t.code, 0#3 ++ r.code, i)
  | .cvtiF2i _ i t r s => some (0x22, 1#2 ++ t.code, 0#2 ++ bit s ++ r.code, i)
  | .pack _ i w s => some (0x23, 0#2 ++ w.code, (bit s).setWidth 5, i)
  | .unpk _ i w => some (0x23, 1#2 ++ w.code, 0, i)
  | .dp2 _ sh => some (0x24, 0, 0, 0#15 ++ sh)
  | .dp4 _ i t => some (0x25, 0#2 ++ t.code, 0, i)
  | .dp8 _ i => some (0x26, 5#5, 0, i)
  | .hdp2 _ i t r => some (0x27, 0#2 ++ t.code, 0#3 ++ r.code, i)
  | .setnetPerm _ => some (0x30, 0#5, 0, 0)
  | .setnetRaw _ => some (0x30, 8#5, 0, 0)
  | .perm _ w => some (0x31, 0#3 ++ w.code, 0, 0)
  | .slide _ i dn w c => some (0x32, 0#1 ++ bit dn ++ 0#1 ++ w.code, (bit c).setWidth 5, i)
  | .bcast _ i w => some (0x33, 0#3 ++ w.code, 0, i)
  | .vote _ o w => some (0x34, o.code ++ w.code, 0, 0)
  | .redux _ o w => some (0x35, o.code ++ w.code, 0, 0)
  | .scan _ o w e => some (0x36, o.code ++ w.code, (bit e).setWidth 5, 0)
  | .matchK _ b w => some (0x37, b.codes.1 ++ 0#1 ++ w.code, b.codes.2, 0)
  | .elect _ w => some (0x38, 0#3 ++ w.code, 0, 0)
  | .bra _ off => some (0x39, 0, 0, off)
  | .brx _ => some (0x3A, 0, 0, 0)
  | .call _ off => some (0x3B, 0, 0, off)
  | .callx _ => some (0x3C, 0, 0, 0)
  | .ret _ => some (0x3D, 0, 0, 0)
  | .loop _ e c => some (0x3E, 0, 0, e ++ c)
  | .exit _ => some (0x3F, 0, 0, 0)
  | .join _ => some (0x40, 0, 0, 0)
  | .leave _ => some (0x41, 0, 0, 0)
  | .waitm _ => some (0x42, 0, 0, 0)
  | .mset _ => some (0x43, 0#5, 0, 0)
  | .mget _ => some (0x43, 8#5, 0, 0)
  | .bkpt _ c => some (0x44, 0, 0, 0#4 ++ c)
  | .trap _ c => some (0x45, 0, 0, 0#4 ++ c)
  | .rte _ => some (0x46, 0, 0, 0)
  | .emur _ w => some (0x47, 0#1 ++ bit w ++ 0#3, 0, 0)
  | .srd _ => some (0x48, 0, 0, 0)
  | .swr _ => some (0x49, 0, 0, 0)
  | .ld _ z sp o s off => some (0x50, z.code ++ sp.code, o.code ++ s.code, off)
  | .st _ z sp o s off => some (0x51, z.code ++ sp.code, o.code ++ s.code, off)
  | .ldc _ w off => some (0x52, (if w then 5#3 else 4#3) ++ 0#2, 0, off)
  | .prf _ l2 off => some (0x53, (bit l2).setWidth 5, 0, off)
  | .ldg _ col e off => some (0x54, bit col ++ e.code ++ 0#2, 0, off)
  | .stg _ col e off => some (0x55, bit col ++ e.code ++ 0#2, 0, off)
  | .ldh _ z off => some (0x56, z.code ++ 0#2, 0, off)
  | .sth _ z off => some (0x57, z.code ++ 0#2, 0, off)
  | .spl _ off => some (0x58, 0#5, 0, off)
  | .fil _ off => some (0x58, 8#5, 0, off)
  | .atom _ op t o s off => some (0x59, op.code ++ t.code, o.code ++ s.code, off)
  | .cas _ w o s off => some (0x5A, (bit w).setWidth 5, o.code ++ s.code, off)
  | .red _ op t r s off => some (0x5B, op.code ++ t.code, (if r then 2#2 else 0#2) ++ s.code, off)
  | .atomo _ op t s off => some (0x5C, op.code ++ t.code, 0#2 ++ s.code, off)
  | .ldx _ s off => some (0x5D, 0, 0#2 ++ s.code, off)
  | .fence _ o s => some (0x5E, 0, o.code ++ s.code, 0)
  | .fencex _ s a b => some (0x5F, 0, 3#2 ++ s.code, 0#14 ++ b ++ a)
  | .probe _ m => some (0x60, 0, 0, 0#13 ++ m)
  | .cpy _ d t => some (0x61, d.code ++ 0#2, 0, 0#14 ++ t)
  | .cpyt _ col e r t => some (0x62, bit col ++ e.code ++ 0#2, 0, r ++ 0#6 ++ t)
  | .cpyxDie _ d t => some (0x63, 0#5, 0, 0#8 ++ d ++ t)
  | .cpyxPeer _ p t => some (0x63, 8#5, 0, 0#12 ++ p ++ t)
  | .twait _ all acq => some (0x64, 0#2 ++ bit all ++ 0#2, (bit acq).setWidth 5, 0)
  | .tfst _ => some (0x64, 8#5, 0, 0)
  | .tclr _ => some (0x64, 16#5, 0, 0)
  | .barArv _ l i => some (0x65, l.code ++ 0#3, 0, 0#16 ++ i)
  | .barSync _ l i => some (0x65, l.code ++ 4#3, 0, 0#16 ++ i)
  | .pubq _ j => some (0x66, 0, 0, 0#18 ++ j)
  | .qstat _ j k s => some (0x67, 0, 0, 0#13 ++ s.code ++ k ++ j)
  | .nrec _ n => some (0x68, 0, 0, 0#14 ++ n)
  | .launch _ => some (0x69, 0, 0, 0)
  | .chwait _ all => some (0x6A, 0, 0, (bit all).setWidth 20)
  | .bkacq _ => some (0x6B, 0, 0, 0)
  | .bkdone _ => some (0x6C, 0, 0, 0)
  | .tdesc _ => some (0x6D, 0, 0, 0)
  | .mma _ a16 va n c k => some (0x6E, 0#1 ++ bit a16 ++ bit va ++ 0#2, 0#2 ++ n, c ++ k ++ 0#9)
  | .mzero _ g => some (0x6F, 0, 0, 0#14 ++ g)
  | .mlda _ gal c => some (0x70, (bit gal).setWidth 5, 0, c ++ 0#17)
  | .msta _ gal n r c => some (0x71, (bit gal).setWidth 5, 0, r ++ c ++ 0#8 ++ n)
  | .mrd _ r c => some (0x72, 0, 0, r ++ c ++ 0#7)
  | .mwr _ c => some (0x73, 0, 0, c ++ 0#13)
  | .mlds _ gal e n => some (0x74, (bit gal).setWidth 5, 0, e ++ 0#4 ++ n)
  | .bndp _ => some (0x75, 0, 0, 0)
  | .dice _ t => some (0x76, 0, 0, 0#14 ++ t)
  | .rast _ g t => some (0x77, 0, 0, 0#7 ++ g ++ t)
  | .rslv _ tent t => some (0x78, 0#1 ++ bit tent ++ 0#3, 0, 0#14 ++ t)
  | .smplWr _ e => some (0x79, 0#5, 0, 0#14 ++ e)
  | .smplRd _ e => some (0x79, 8#5, 0, 0#14 ++ e)
  | .trace _ m mask pw miss => some (0x7A, m.code ++ 0#3, 0, mask ++ pw ++ miss)
  | .trhit _ s => some (0x7B, 0#2 ++ s, 0, 0)
  | .trqry _ s => some (0x7C, 0#2 ++ s, 0, 0)
  | _ => none

/-- R46 to R65: the word of an instruction; `none` for the units' events, which have no word. -/
def encode (i : Instr) : Option IWord :=
  match i with
  | .pairedWord g h h1 h2 =>
    some (0x7F#7 ++ encHalf h1 ++ encHalf h2 ++ encGuard g ++ h.stall ++ bit h.yield ++ bit h.last)
  | .nonInstructionEncoding w _ => some w
  | _ =>
    match i.code, i.shape with
    | some (op, sub, mod, imm), some (f, _) =>
      some (RawWord.toWord
        { op := op, sub := sub, mod := mod, dst := encDst f.d, srca := encSrc f.a, srcb := encSrc f.b,
          srcc := encSrc f.c, guard := encGuard f.g, hint := encHints f.h, imm := imm })
    | _, _ => none

end Sys2Proof
end

