-- ==== Sys2Proof/Machine/Control.lean ====
section
/-! DEFINITION. Control transfer, loops, lane masks, traps and handlers, special registers (R47, R67 to R74, R124, R125,
R306 to R324). TAKING A TRAP is `stopLanes` (R316, R476), `enterEmu` (R69) and `enterDbg` (R317); the returns are
`leaveEmu` (R72) and `leaveDbg` (R318). -/

namespace Sys2Proof.Machine

open Sys2Proof

/-! ## Transfers (R47, R306, R307) -/

/-- R47: the lanes whose target is not an instruction address. -/
def misaligned (on : Mask) (target : Nat → W64) : Mask :=
  maskOf ((lanesOf on).filter fun l => (target l).toNat % 12 != 0)

/-- R307: lanes with a taken transfer continue at their targets, the others at the next instruction; `leaves` says that the
transfer ends the loops it leaves (R313). Lanes whose target is no instruction address stop (R47), and the report shows the target of
the lowest of them (DESIGN CHOICE, log 82). -/
def State.transfer (s : State) (c : Ctx) (on : Mask) (leaves : Bool) (w : Warp) (target : Nat → W64) : State :=
  let bad := misaligned on target
  if bad != 0 then s.stopLanes c .ialign bad (target (lowest bad)) 0
  else
    s.setWarp c.wid (s.issued ((lanesOf c.lanes).foldl (fun w l =>
      if on.getLsbD l then w.settle l c.pc (target l) leaves else w.settle l c.pc c.nextPc false) w) c.lanes)

/-- R48: the target of a PC-relative offset. -/
def Ctx.relative (c : Ctx) (off : BitVec 20) : W64 := c.pc + 12 * off.signExtend 64

/-- R307. -/
def execBra (f : Fmt) (off : BitVec 20) (s : State) : Out :=
  s.run (.bra f off) fun c on => s.transfer c on true c.w fun _ => c.relative off

/-- R307. -/
def execBrx (f : Fmt) (s : State) : Out :=
  s.run (.brx f) fun c on => s.transfer c on true c.w fun l => s.src64 c 0 f.a l

/-- R307. -/
def execRet (f : Fmt) (s : State) : Out :=
  s.run (.ret f) fun c on => s.transfer c on true c.w fun l => s.src64 c 0 f.a l

/-- R313: the lanes at the end of the body of their top loop entry. DEDUCED, log 33. -/
def Ctx.atLoopEnd (c : Ctx) (on : Mask) : Mask :=
  maskOf ((lanesOf on).filter fun l => ((tget c.w.loops l).getD []).head?.map LoopEnt.stop == some c.pc)

/-- R307: the return address goes to the pair in each lane where the call is taken. R313: a lane for which a `CALL` or `CALLX`
stands at the end of its body stops, whether it is on or not. DEDUCED, log 33. -/
def State.callTo (s : State) (c : Ctx) (f : Fmt) (on : Mask) (target : Nat → W64) : State :=
  let bad := c.atLoopEnd c.lanes
  if bad != 0 then s.stopLanes c .loopEnd bad 0 0
  else
    match f.d with
    | .vec i =>
      let w := (lanesOf on).foldl (fun w l => w.setVecs i.toNat l (words2 c.nextPc)) c.w
      s.transfer c on false w target
    | _ => s

/-- R307, R313. -/
def execCall (f : Fmt) (off : BitVec 20) (s : State) : Out :=
  s.run (.call f off) fun c on => s.callTo c f on fun _ => c.relative off

/-- R307, R313. -/
def execCallx (f : Fmt) (s : State) : Out :=
  s.run (.callx f) fun c on => s.callTo c f on fun l => s.src64 c 0 f.a l

/-! ## Loops (R311 to R313) -/

/-- R311: the count of a lane. -/
def State.loopN (s : State) (c : Ctx) (f : Fmt) (cnt : BitVec 10) (l : Nat) : W32 :=
  BitVec.ofNat 32 (min ((s.src c 0 (.int 32) f.a l).toNat + cnt.toNat) 0xFFFFFFFF)

/-- R312: a lane may not push: it holds two entries, or the new body does not lie within its one body. DEDUCED, log 33. -/
def Ctx.loopNest (c : Ctx) (endN : BitVec 10) (l : Nat) : Bool :=
  match (tget c.w.loops l).getD [] with
  | [] => false
  | [e] => !(e.start.toNat ≤ c.pc.toNat + 12 && c.pc.toNat + 12 * endN.toNat ≤ e.stop.toNat)
  | _ => true

/-- R311, R312. DEDUCED, log 33. -/
def execLoop (f : Fmt) (endN : BitVec 10) (cnt : BitVec 10) (s : State) : Out :=
  s.run (.loop f endN cnt) fun c on =>
    let skips := fun l => !on.getLsbD l || s.loopN c f cnt l == 0
    let nest := maskOf ((lanesOf c.lanes).filter fun l => !skips l && c.loopNest endN l)
    let atEnd := c.atLoopEnd (maskOf ((lanesOf c.lanes).filter skips))
    if nest != 0 then s.stopLanes c .loopNest nest 0 0
    else if atEnd != 0 then s.stopLanes c .loopEnd atEnd 0 0
    else
      let last := c.pc + 12 * endN.setWidth 64
      s.setWarp c.wid (s.issued ((lanesOf c.lanes).foldl (fun w l =>
        if skips l then w.settle l c.pc (last + 12) true
        else
          let e : LoopEnt := ⟨c.nextPc, last, s.loopN c f cnt l⟩
          { w.setLoops l (e :: (tget w.loops l).getD []) with pc := cset w.pc l c.nextPc }) c.w) c.lanes)

/-! ## Lane masks (R124, R125, R308 to R310) -/

/-- R124, R310: the lanes a mask holds: launched and not exited. -/
def Warp.holds (w : Warp) (m : Nat) : Mask := cget w.mask m &&& w.launched &&& ~~~w.exited

/-- The mask a source names. -/
def maskIdx : Src → Nat
  | .mask i => i.toNat
  | _ => 0

def Warp.setWait (w : Warp) (lanes : List Nat) (x : LaneWait) : Warp :=
  { w with waits := lanes.foldl (fun t l => tset t l x) w.waits }

/-- Lanes leave the instruction they wait at. -/
def Warp.leaveWait (w : Warp) (lanes : List Nat) : Warp :=
  lanes.foldl (fun w l =>
    let a := cget w.pc l
    { w.settle l a (a + 12) false with waits := tdel w.waits l }) w

/-- The mask at which a lane waits. -/
def LaneWait.maskOf? : LaneWait → Option Nat
  | .join m | .waitm m => some m
  | _ => none

/-- R125: the condition at which a waiting lane waits holds. -/
def Warp.maskMet (w : Warp) (l : Nat) : Bool :=
  match tget w.waits l with
  | some (.join m) => (lanesOf (w.holds m)).all fun k => tget w.waits k == some (.join m) && cget w.pc k == cget w.pc l
  | some (.waitm m) => (lanesOf (w.holds m)).all fun k => tget w.waits k == some (.waitm m)
  | _ => false

/-- R309: after a change of masks, a waiting lane that its mask no longer holds goes on alone, and lanes whose condition
holds go on together. -/
def Warp.releaseMasks (w : Warp) : Warp :=
  let gone := (w.waits.filter fun x => match x.2.maskOf? with
    | some m => !(w.holds m).getLsbD x.1
    | none => false).map (·.1)
  let w := w.leaveWait gone
  w.leaveWait ((w.waits.map (·.1)).filter w.maskMet)

/-- R71: a mask operation in a handler on a mask that holds a lane outside it. -/
def Ctx.nestedMask (c : Ctx) (on : Mask) (m : Nat) : Option (Cause × Mask) :=
  match c.nested on with
  | none => none
  | some (cause, lanes) =>
    let inside := if cause = .dbgNest then c.w.dbg.lanes else c.w.emu.lanes
    if c.w.holds m &&& ~~~inside = 0 then none else some (cause, lanes)

/-- R125, R308: lanes of the mask wait; the others pass. `same` gives the lanes of the mask that count as waiting. -/
def State.maskWait (s : State) (c : Ctx) (on : Mask) (m : Nat) (x : LaneWait) (here : Bool) : State :=
  match c.nestedMask on m with
  | some (cause, lanes) => s.stopLanes c cause lanes 0 0
  | none =>
    let held := c.w.holds m
    let new := (lanesOf (c.lanes &&& held)).filter fun l => (tget c.w.waits l).isNone
    let pass := lanesOf (c.lanes &&& ~~~held)
    let w := (c.w.setWait new x).leaveWait pass
    let waiting := (lanesOf held).filter fun l =>
      tget w.waits l == some x && (!here || cget w.pc l == c.pc)
    let done := held != 0 && maskOf waiting == held
    let w' := if done then w.leaveWait waiting else w
    if new.isEmpty && pass.isEmpty && !done then s
    else s.setWarp c.wid (s.issued w' c.lanes)

/-- R125. -/
def execJoin (f : Fmt) (s : State) : Out :=
  s.run (.join f) fun c on => s.maskWait c on (maskIdx f.a) (.join (maskIdx f.a)) true

/-- R125. -/
def execWaitm (f : Fmt) (s : State) : Out :=
  s.run (.waitm f) fun c on => s.maskWait c on (maskIdx f.a) (.waitm (maskIdx f.a)) false

/-- R308. -/
def execLeave (f : Fmt) (s : State) : Out :=
  s.run (.leave f) fun c on =>
    match c.nestedMask on (maskIdx f.a) with
    | some (cause, lanes) => s.stopLanes c cause lanes 0 0
    | none =>
      let m := maskIdx f.a
      (s.finish c f on c.lanes (if on = 0 then c.w else c.w.setMask m (cget c.w.mask m &&& ~~~on))).modWarp c.wid
        Warp.releaseMasks

/-- R310. -/
def execMset (f : Fmt) (s : State) : Out :=
  s.run (.mset f) fun c on =>
    match f.d with
    | .cls3 i =>
      let v := match f.a with
        | .pred _ _ => maskOf ((lanesOf on).filter fun l => c.pbit f.a l)
        | x => s.src c 0 .raw x (lowest on)
      (s.finish c f on c.lanes (if on = 0 then c.w else c.w.setMask i.toNat v)).modWarp c.wid Warp.releaseMasks
    | _ => s

/-- R310. -/
def execMget (f : Fmt) (s : State) : Out := s.alu1 (.mget f) f fun c l => s.src c 0 .raw f.a l

/-! ## Traps and handlers (R69 to R73, R315 to R318) -/

/-- The window entries of some lanes. -/
def Warp.windowOf (w : Warp) (m : Mask) : Cells 32 := w.win.filter fun x => m.getLsbD (x.1 % 32)

/-- R69 steps 4 and 5, R317: lanes go to a handler's entry. -/
def Warp.goTo (w : Warp) (m : Mask) (entry : W64) : Warp :=
  (lanesOf m).foldl (fun w l => { w with pc := cset w.pc l entry }) w

/-- R69: the lanes enter the emulation handler. -/
def State.enterEmu (s : State) (c : Ctx) (word : IWord) (cause : Nat) (entry : W64) : State :=
  let e : EmuState :=
    { inside := true, word := word, cause := cause, lanes := c.lanes, pc := c.pc, win := c.w.windowOf c.lanes }
  s.setWarp c.wid (s.issued ({ c.w with emu := e, emuRes := [] }.goTo c.lanes entry) c.lanes)

/-- R317: the lanes enter the debug handler. -/
def State.enterDbg (s : State) (c : Ctx) (on : Mask) (code : BitVec 16) (entry : W64) : State :=
  let d : DbgState :=
    { inside := true, fromEmu := c.w.emu.inside, code := code, lanes := on, pc := c.nextPc, win := c.w.windowOf on }
  s.setWarp c.wid (s.issued ({ c.w with dbg := d }.goTo on entry) on)

/-- R69: some lane that entered the emulation handler is still in it. -/
def Warp.emuBusy (w : Warp) : Bool := w.emu.inside && w.emu.lanes &&& ~~~w.exited != 0

/-- R317: some lane that entered the debug handler is still in it. -/
def Warp.dbgBusy (w : Warp) : Bool := w.dbg.inside && w.dbg.lanes &&& ~~~w.exited != 0

/-- R67: the number of the check that failed. -/
def DecodeCause.num : DecodeCause → Nat
  | .op => 1
  | .sub => 2
  | .mod => 3
  | .cls => 4
  | .operand => 5
  | .hop => 6

/-- R68, R69, R71, R73: a word that fails a decode check. DEDUCED, log 34. -/
def execNonInstructionEncoding (w : IWord) (cause : DecodeCause) (s : State) : Out :=
  match s.ctx? with
  | none => .next s
  | some c =>
    match c.nested c.lanes with
    | some (k, m) => .next (s.stopLanes c k m 0 0)
    | none =>
      if c.g.rec_.emuEntry = 0 then
        .next (s.stopLanes c .illEnc c.lanes (w.extractLsb' 0 64)
          ((w.extractLsb' 64 32).setWidth 64 ||| (w64 (DecodeCause.num cause) <<< 32)))
      else if c.w.emuBusy || !s.drained c then .next s
      else .next (s.enterEmu c w (DecodeCause.num cause) (w64 c.g.rec_.emuEntry))

/-- R315: the on lanes stop; lanes that are not on continue. -/
def execTrap (f : Fmt) (code : BitVec 16) (s : State) : Out :=
  s.run (.trap f code) fun c on =>
    if on = 0 then s.finish c f on c.lanes c.w
    else s.stopLanes c .trap on (code.setWidth 64) 0

/-- R315, R317. DEDUCED, log 34. -/
def execBkpt (f : Fmt) (code : BitVec 16) (s : State) : Out :=
  s.run (.bkpt f code) fun c on =>
    if on = 0 then s.finish c f on c.lanes c.w
    else
      match c.nested on with
      | some (.dbgNest, m) => s.stopLanes c .dbgNest m 0 0
      | _ =>
        match c.g.dbgEntry with
        | none => s.stopLanes c .bkpt on (code.setWidth 64) 0
        | some e => if c.w.dbgBusy || !s.drained c then s else s.enterDbg c on code (w64 e)

/-- R72, R316: every result that some lanes have issued has been written, those of the matrix engine among them. -/
def State.drainedFor (s : State) (c : Ctx) (m : Mask) : Bool :=
  (c.w.pend.all fun p => p.lanes &&& m == 0) &&
  (s.core c.t.core).mxq.all fun x => !(x.wid == c.wid && x.rows.any fun r => m.getLsbD r.1)

/-- R72, R318: lanes leave a handler for `pc`, with the windows recorded at entry, and `res` shifted in where the lane
executed `EMUR.w`. -/
def Warp.leaveHandler (w : Warp) (m : Mask) (saved : Cells 32) (pc : W64) : Warp :=
  (lanesOf m).foldl (fun w l =>
    let win := (List.range 8).foldl (fun v k => cset v (k * 32 + l) (cget saved (k * 32 + l))) w.win
    let w' := { w with win := win, dirty := { w.dirty with win := true } }
    let w' := if tget w.waits l == some (.emur true) then w'.push l (cget w.emuRes l) else w'
    { w'.settle l (cget w.pc l) pc false with waits := tdel w.waits l }) w

/-- R72: outside a handler the executing lanes stop; inside, they wait for every lane that entered, then leave.
DEDUCED, log 34. -/
def execEmur (f : Fmt) (shiftRes : Bool) (s : State) : Out :=
  s.run (.emur f shiftRes) fun c on =>
    let outside := on &&& ~~~(if c.w.emu.inside then c.w.emu.lanes else 0)
    if outside != 0 then s.stopLanes c .emuNest outside 0 0
    else
      let new := (lanesOf on).filter fun l => (tget c.w.waits l).isNone
      let off := c.lanes &&& ~~~on
      let w := c.advance (c.w.setWait new (.emur shiftRes)) off
      let m := w.emu.lanes &&& ~~~w.exited
      let all := on != 0 && (lanesOf m).all fun l =>
        match tget w.waits l with | some (.emur _) => true | _ => false
      if all && s.drainedFor c m then
        s.setWarp c.wid (s.issued
          { w.leaveHandler m w.emu.win (w.emu.pc + 12) with emu := { w.emu with inside := false } } c.lanes)
      else if new.isEmpty && off = 0 then s
      else s.setWarp c.wid (s.issued w c.lanes)

/-- R318: outside a debug handler the lanes stop; inside, they wait for every lane that entered, then leave.
DEDUCED, log 34. -/
def execRte (f : Fmt) (s : State) : Out :=
  s.run (.rte f) fun c on =>
    let outside := on &&& ~~~(if c.w.dbg.inside then c.w.dbg.lanes else 0)
    if outside != 0 then s.stopLanes c .dbgNest outside 0 0
    else
      let new := (lanesOf on).filter fun l => (tget c.w.waits l).isNone
      let w := c.w.setWait new .rte
      let m := w.dbg.lanes &&& ~~~w.exited
      let all := (lanesOf m).all fun l => tget w.waits l == some .rte
      if all && s.drainedFor c m then
        if w.dbg.pc.toNat % 12 != 0 then s.stopLanes c .ialign m w.dbg.pc 0
        else
          s.setWarp c.wid (s.issued
            { w.leaveHandler m w.dbg.win w.dbg.pc with dbg := { w.dbg with inside := false } } c.lanes)
      else if new.isEmpty then s
      else s.setWarp c.wid (s.issued w c.lanes)

/-! ## Special registers (R320 to R322) -/

/-- R78, R321: an earlier instruction of the warp that may still raise a flag of the register. -/
def State.flagsPending (s : State) (c : Ctx) (n : BitVec 8) : Bool :=
  (n == 0x1A && c.w.pend.any fun p => match p.kind with | .sfu _ => true | _ => false) ||
  (n == 0x1B && (s.core c.t.core).mxq.any (·.wid == c.wid))

/-- R322: an earlier instruction of the warp may still write the register: a flag producer, or an `ATOMO`, which may set `ORD`
in `%qseal` when it is applied (R197). -/
def State.specialPending (s : State) (c : Ctx) (n : BitVec 8) : Bool :=
  s.flagsPending c n ||
  (n == 0x18 && ((c.w.sq.any fun e => match e.kind with | .atomo _ _ _ _ => true | _ => false) ||
    (s.core c.t.core).inflight.any fun r => r.wid == c.wid &&
      match r.op with | .ordered _ _ _ _ _ _ _ _ => true | _ => false))

/-- R321. -/
def execSrd (f : Fmt) (s : State) : Out :=
  s.run (.srd f) fun c on =>
    match f.a with
    | .spec n =>
      if s.flagsPending c n then s
      else
        s.finish c f on c.lanes (c.emit f.d on fun l =>
          let v := s.special c n l
          (if specIs64 n then words2 v else [v.setWidth 32], {}))
    | _ => s

/-- R322: a write of a per-lane register. -/
def Warp.swrLane (w : Warp) (n : BitVec 8) (l : Nat) (v : W32) : Warp :=
  match n.toNat with
  | 0x18 => { w with qseal := cset w.qseal l (cget w.qseal l &&& ~~~(v.setWidth 5)) }
  | 0x1C => { w with srctr := cset w.srctr l v }
  | 0x3C => { w with emuRes := cset w.emuRes l v }
  | _ => w

/-- R322: a write of a uniform register: W1C fields clear the bits written as 1. -/
def Warp.swrUni (w : Warp) (n : BitVec 8) (v : W64) : Warp :=
  match n.toNat with
  | 0x1A => { w with fstat := w.fstat &&& ~~~(v.setWidth 3) }
  | 0x1B => { w with mstat := w.mstat &&& ~~~(v.setWidth 2) }
  | 0x42 => { w with dbg := { w.dbg with pc := v } }
  | _ => w

/-- R322. -/
def execSwr (f : Fmt) (s : State) : Out :=
  s.run (.swr f) fun c on =>
    match f.d with
    | .cls3 n =>
      if s.specialPending c n then s
      else
        let w :=
          if specUniform n then
            if on = 0 then c.w
            else c.w.swrUni n
              (if specIs64 n then s.src64 c 0 f.a (lowest on) else (s.src c 0 .raw f.a (lowest on)).setWidth 64)
          else (lanesOf on).foldl (fun w l => w.swrLane n l (s.src c 0 .raw f.a l)) c.w
        s.finish c f on c.lanes w
    | _ => s

end Sys2Proof.Machine
end

