-- ==== Sys2Proof/Machine/Sfu.lean ====
section
/-! DEFINITION. The special functions, correctly rounded (R287, R288). The transcendental ones are computed with
`prec` fraction bits, far more than any fp32 operand needs to decide its rounding (DEDUCED, log 15). -/

namespace Sys2Proof.Machine

open Sys2Proof

/-- Fraction bits of the fixed-point numbers below. DEDUCED, log 15. -/
def prec : Nat := 400

/-- 2^prec. -/
def fxOne : Int := 2 ^ prec

def fxMul (a b : Int) : Int := a * b / fxOne

/-- A rational in fixed point. -/
def fxOf (a : Q) : Int := a.num * fxOne / a.den

def qOfFx (a : Int) : Q := ⟨a, 2 ^ prec⟩

/-- The sum of the series whose term n + 1 is term n times `x` over `d (n + 1)`. -/
def series (x : Int) (d : Nat → Int) : Nat → Nat → Int → Int → Int
  | 0, _, _, acc => acc
  | fuel + 1, n, term, acc =>
    let t := fxMul term x / d (n + 1)
    series x d fuel (n + 1) t (acc + t)

/-- e^x for |x| at most 1. -/
def fxExp (x : Int) : Int := series x (fun n => n) 110 0 fxOne fxOne

/-- The sum over k below the fuel of z^(2k+1)/(2k+1); `sgn` is -1 for the arc tangent. -/
def oddSeries (z2 : Int) (sgn : Int) : Nat → Nat → Int → Int → Int
  | 0, _, _, acc => acc
  | fuel + 1, k, pw, acc =>
    oddSeries z2 sgn fuel (k + 1) (sgn * fxMul pw z2) (acc + pw / (2 * k + 1 : Nat))

/-- The inverse hyperbolic tangent of z, |z| at most 1/3. -/
def fxAtanh (z : Int) : Int := oddSeries (fxMul z z) 1 135 0 z 0

def fxLn2 : Int := 2 * fxAtanh (fxOne / 3)

/-- π by Machin's formula. -/
def fxPi : Int :=
  let at_ := fun (n : Int) => oddSeries (fxOne / (n * n)) (-1) 95 0 (fxOne / n) 0
  16 * at_ 5 - 4 * at_ 239

/-- sin x for |x| at most π. -/
def fxSin (x : Int) : Int :=
  series (-(fxMul x x)) (fun n => (2 * n * (2 * n + 1) : Nat)) 70 0 x x

/-- cos x for |x| at most π. -/
def fxCos (x : Int) : Int :=
  series (-(fxMul x x)) (fun n => (2 * n * (2 * n - 1) : Nat)) 70 0 fxOne fxOne

/-- The nearest integer, ties to even. -/
def roundEven (a : Q) : Int :=
  let k : Int := roundTo 0 a .rne
  if a.num < 0 then -k else k

/-- e^a as an exact-looking rational, for |a| at most 300. -/
def expQ (a : Q) : Q :=
  let n := roundEven (a.div (qOfFx fxLn2))
  (Q.dy 1 n).mul (qOfFx (fxExp (fxOf a - n * fxLn2)))

/-- The largest r + x, x below 2^b, whose square is at most n. -/
def isqrtAux (n : Nat) : Nat → Nat → Nat
  | 0, r => r
  | b + 1, r => isqrtAux n b (if (r + 2 ^ b) * (r + 2 ^ b) ≤ n then r + 2 ^ b else r)

/-- The floor of the square root. -/
def isqrt (n : Nat) : Nat := isqrtAux n (n.log2 / 2 + 1) 0

/-- √a for a > 0 with `prec` extra bits, exact when a is a square of a number with few bits; a sticky bit marks a
remainder. -/
def sqrtQ (a : Q) : Q :=
  let n := a.num.natAbs * a.den * 4 ^ prec
  let r := isqrt n
  let r2 := if r * r = n then 2 * r else 2 * r + 1
  ⟨r2, 2 * a.den * 2 ^ prec⟩

/-- R287: 2π′, the fp32 nearest 2π. -/
def twoPi32 : Q := (f32 0x40C90FDB).val

/-- R287: the reduced argument of `SIN` and `COS`. -/
def reduceArg (a : Q) : Q :=
  if (Q.ofInt 32768).lt a.abs then a.sub (twoPi32.mul (Q.ofInt (roundEven (a.div twoPi32)))) else a

/-- An exact argument less the nearest multiple of 2π, in fixed point. -/
def fxReduce (a : Q) : Int :=
  let x := fxOf a
  let k := roundEven (a.div (qOfFx (2 * fxPi)))
  x - k * 2 * fxPi

/-- Rounds an exact (or sufficiently close) value to fp32 under RNE; a value rounding above the largest finite is ±∞
with OVF. DEDUCED, log 15. -/
def sfuRound (x : Q) : W32 × Flags :=
  let (c, f) := convertF FF.fp32 (.fin (x.num < 0) x.abs) .rne true
  (BitVec.ofNat 32 c, f)

def canonNaN : W32 := 0x7FC00000
def posInf : W32 := 0x7F800000
def negInf : W32 := 0xFF800000
def one32 : W32 := 0x3F800000

/-- R287, R288: a special function of an fp32 word. DEDUCED, log 15. -/
def sfuEval (op : SfuOp) (w : W32) : W32 × Flags :=
  let bad : W32 × Flags := (canonNaN, { inv := true })
  match op, f32 w with
  | _, .nan => (canonNaN, {})
  | .rcp, .inf n => (if n then 0x80000000 else 0, {})
  | .rcp, .fin n m => if m.isZero then (if n then negInf else posInf, {}) else sfuRound (Q.one.div (FV.val (.fin n m)))
  | .rsq, .inf n => if n then bad else (0, {})
  | .rsq, .fin n m =>
    if m.isZero then (if n then negInf else posInf, {}) else if n then bad
    else sfuRound (sqrtQ (Q.one.div m))
  | .sqrt, .inf n => if n then bad else (posInf, {})
  | .sqrt, .fin n m => if m.isZero then (w, {}) else if n then bad else sfuRound (sqrtQ m)
  | .ex2, .inf n => (if n then 0 else posInf, {})
  | .ex2, .fin n m =>
    let a := FV.val (.fin n m)
    if (Q.ofInt 128).le a then (posInf, { ovf := true })
    else if a.le (Q.ofInt (-151)) then (0, {})
    else
      let k := a.floor
      sfuRound ((Q.dy 1 k).mul (qOfFx (fxExp (fxMul (fxOf (a.sub (Q.ofInt k))) fxLn2))))
  | .lg2, .inf n => if n then bad else (posInf, {})
  | .lg2, .fin n m =>
    if m.isZero then (negInf, {}) else if n then bad
    else
      let e := flog2 m.num.natAbs m.den
      let r := m.mul (Q.dy 1 (-e))
      let z := (r.sub Q.one).div (r.add Q.one)
      if z.isZero then sfuRound (Q.ofInt e)
      else sfuRound (qOfFx (e * fxOne + 2 * fxAtanh (fxOf z) * fxOne / fxLn2))
  | .sin, .inf _ | .cos, .inf _ => bad
  | .sin, .fin n m => if m.isZero then (w, {}) else sfuRound (qOfFx (fxSin (fxReduce (reduceArg (FV.val (.fin n m))))))
  | .cos, .fin n m => if m.isZero then (one32, {}) else sfuRound (qOfFx (fxCos (fxReduce (reduceArg (FV.val (.fin n m))))))
  | .tanh, .inf n => (if n then 0xBF800000 else one32, {})
  | .tanh, .fin n m =>
    if m.isZero then (w, {})
    else if (Q.ofInt 60).lt m then (if n then 0xBF800000 else one32, {})
    else
      let e := expQ (m.mul (Q.ofInt 2))
      let y := (e.sub Q.one).div (e.add Q.one)
      sfuRound (if n then y.neg else y)
  | .sigm, .inf n => (if n then 0 else one32, {})
  | .sigm, .fin n m =>
    if m.isZero then (0x3F000000, {})
    else if (Q.ofInt 250).lt m then (if n then 0 else one32, {})
    else
      let e := expQ (FV.val (.fin n m))
      sfuRound (e.div (e.add Q.one))

end Sys2Proof.Machine
end

