-- ==== Sys2Proof/Machine/Float.lean ====
section
/-! DEFINITION. Floating point, special functions, conversion, dot products and the paired word (R62 to R65, R77, R211 to
R214, R220, R280 to R293). -/

namespace Sys2Proof.Machine

open Sys2Proof

/-! ## Values (R280 to R286) -/

/-- A floating operation on each element of a type, with the flags of all elements. -/
def perFloat (t : FType) (y : Nat → Nat × Flags) : W32 × Flags :=
  let r := (List.range (FType.n t)).map y
  (putAll (FType.bits t) (r.map (·.1)), Flags.all (r.map (·.2)))

/-- R280: a NaN operand gives a NaN and no flag. -/
def nanFirst (l : List FV) (x : FV × Flags) : FV × Flags := if l.any FV.isNaN then (.nan, {}) else x

/-- R281: the exact product and sum of `FFMA`, with the flags of both. -/
def fvFma (a b c : FV) (m : RM) : FV × Flags :=
  let p := fvMul a b
  let s := fvAdd p.1 c m
  nanFirst [a, b, c] (s.1, p.2.or s.2)

/-- R280: the rounded element of an exact result. -/
def roundElem (t : FType) (m : RM) (sat : Bool) (x : FV × Flags) : Nat × Flags :=
  let r := fpRound (FType.ff t) x.1 m sat
  (r.1, x.2.or r.2)

def faddV (t : FType) (m : RM) (sat : Bool) (a b : W32) : W32 × Flags :=
  perFloat t fun i => roundElem t m sat (fvAdd (fval a t i) (fval b t i) m)

def fsubV (t : FType) (m : RM) (sat : Bool) (a b : W32) : W32 × Flags :=
  perFloat t fun i => roundElem t m sat (fvAdd (fval a t i) (fval b t i).flip m)

def fmulV (t : FType) (m : RM) (sat : Bool) (a b : W32) : W32 × Flags :=
  perFloat t fun i => roundElem t m sat (fvMul (fval a t i) (fval b t i))

def ffmaV (t : FType) (m : RM) (sat : Bool) (a b c : W32) : W32 × Flags :=
  perFloat t fun i => roundElem t m sat (fvFma (fval a t i) (fval b t i) (fval c t i) m)

/-- R282: the chosen element's bits are copied; `less` selects the lesser. -/
def fminmaxV (less : Bool) (t : FType) (a b : W32) : W32 × Flags :=
  perFloat t fun i =>
    let x := fval a t i
    let y := fval b t i
    let ca := el a (FType.bits t) i
    let cb := el b (FType.bits t) i
    let c := if x.isNaN && y.isNaN then (FType.ff t).nan
      else if x.isNaN then cb
      else if y.isNaN then ca
      else if fvLtZ y x == less then cb else ca
    (c, {})

/-- R283. -/
def fcmp (c : Cmp) (unord : Bool) (x y : FV) : Bool :=
  if x.isNaN || y.isNaN then unord
  else
    match c with
    | .eq => fvEq x y
    | .ne => !fvEq x y
    | .lt => fvLt x y
    | .le => fvLt x y || fvEq x y
    | .gt => fvLt y x
    | .ge => fvLt y x || fvEq x y

def fsetV (fm : Form) (t : FType) (c : Cmp) (unord : Bool) (a b : W32) : W32 :=
  BitVec.ofNat 32 (formVal fm 32 (fcmp c unord (fval a t 0) (fval b t 0)))

/-- R284. -/
def frndV (t : FType) (m : RM) (a : W32) : W32 × Flags :=
  perFloat t fun i =>
    let F := FType.ff t
    match fval a t i with
    | .nan => (F.nan, {})
    | .inf n => (F.inf + (if n then 2 ^ (F.eb + F.f) else 0), {})
    | .fin n q => (F.enc n (roundTo 0 (if n then q.neg else q) m) 0, {})

/-- R285. -/
def fclasV (t : FType) (a : W32) : W32 :=
  let F := FType.ff t
  let c := el a (FType.bits t) 0
  let sub := c / 2 ^ F.f % 2 ^ F.eb == 0
  match F.dec c with
  | .nan => laneBit 8
  | .inf n => laneBit (if n then 0 else 7)
  | .fin n q =>
    if q.isZero then laneBit (if n then 3 else 4)
    else if n then laneBit (if sub then 2 else 1) else laneBit (if sub then 5 else 6)

/-- R286; a scale beyond 2^±600 rounds as 2^±600 does. -/
def fsclV (m : RM) (a b : W32) : W32 × Flags :=
  perFloat .f32 fun _ =>
    match f32 a with
    | .fin n q =>
      if q.isZero then (a.toNat, {})
      else fpRound FF.fp32 (.fin n (q.mul (Q.dy 1 (max (-600) (min 600 b.toInt))))) m false
    | .nan => (FF.fp32.nan, {})
    | .inf _ => (a.toNat, {})

/-! ## Conversion and packing (R289 to R292) -/

/-- R289: the mode of `CVT.to`, with the random bits under a stochastic mode. -/
def cvtMode (r : CvtRnd) (slot : FmtSlot) (bits : W32) : RM :=
  match r with
  | .slot => slotRM slot.rmode bits
  | .rne => .rne
  | .rtz => .rtz
  | .rdn => .rdn
  | .rup => .rup
  | .sr => .sr bits

/-- R289, R213: the conversion is stochastic. -/
def cvtStoch (r : CvtRnd) (slot : FmtSlot) : Bool :=
  match r with
  | .slot => 4 ≤ slot.rmode
  | .sr => true
  | _ => false

def FmtSlot.empty : FmtSlot := ⟨0, 0, 0, false, false⟩

/-- R114: format slot `n` of a grid. -/
def Grid.slot (g : Grid) (n : Nat) : FmtSlot := (g.rec_.format[n]?).getD FmtSlot.empty

/-- R211: an integer to fp32. -/
def i2fV (t : IType) (m : RM) (a : W32) : W32 × Flags :=
  let y := ival a t 0
  let r := fpRound FF.fp32 (.fin (y < 0) ⟨y.natAbs, 1⟩) m false
  (BitVec.ofNat 32 r.1, r.2)

/-- R211: fp32 to an integer. -/
def f2iV (t : IType) (m : RM) (sat : Bool) (a : W32) : W32 × Flags :=
  let (lo, hi) := elemBounds (IType.signed t) 32
  let r := convertI lo hi (f32 a) m
  if sat then (ofInt 32 r.1, r.2)
  else if r.2.sat || r.2.inv then (if IType.signed t then 0x80000000 else 0xFFFFFFFF, { inv := true })
  else (ofInt 32 r.1, {})

def PackW.bits : PackW → Nat
  | .e16 => 16
  | .e8 => 8
  | .e4 => 4

/-- R291. -/
def packV (w : PackW) (sat : Bool) (a b c : W32) : W32 × Flags :=
  let e := PackW.bits w
  let x := satElem sat true e a.toInt
  let y := satElem sat true e b.toInt
  let lo := (x.1.emod (2 ^ e)).toNat + 2 ^ e * (y.1.emod (2 ^ e)).toNat
  (BitVec.ofNat 32 (if w = .e16 then lo else lo + 2 ^ (2 * e) * c.toNat), x.2.or y.2)

/-- R292. -/
def unpkV (w : PackW) (a b : W32) : W32 :=
  let e := PackW.bits w
  ofInt 32 (sext (el a e (b.toNat % (32 / e))) e)

/-! ## Dot products (R220, R293) -/

/-- The sum of the products of the elements of a packed type. -/
def dotInt (t : IType) (a b : W32) : Int :=
  ((List.range (32 / IType.bits t)).map fun i => ival a t i * ival b t i).foldl (· + ·) 0

def dp2V (sh : Nat) (a b c : W32) : W32 × Flags :=
  let t := dotInt .s16x2 a b
  let t := if sh = 0 then t else (t + 2 ^ (sh - 1)).fdiv (2 ^ sh)
  let r := satElem true true 32 (c.toInt + t)
  (ofInt 32 r.1, r.2)

def dpV (t : IType) (a b c : W32) : W32 := c + ofInt 32 (dotInt t a b)

def hdp2V (t : FType) (m : RM) (a b c : W32) : W32 × Flags :=
  let p := fvMul (fval a t 0) (fval b t 0)
  let q := fvMul (fval a t 1) (fval b t 1)
  let s := fvAdd (f32 c) p.1 m
  let u := fvAdd s.1 q.1 m
  let x := nanFirst [fval a t 0, fval a t 1, fval b t 0, fval b t 1, f32 c]
    (u.1, ((p.2.or q.2).or s.2).or u.2)
  let r := roundElem .f32 m false x
  (BitVec.ofNat 32 r.1, r.2)

/-! ## Meanings -/

/-- Floating sources A and B. -/
def State.flt2 (s : State) (i : Instr) (f : Fmt) (imm : BitVec 20) (t : FType) (op : W32 → W32 → W32 × Flags) : Out :=
  s.alu i f fun c l =>
    let r := op (s.src c imm (FType.ty t) f.a l) (s.src c imm (FType.ty t) f.b l)
    ([r.1], r.2)

/-- A floating source A. -/
def State.flt1 (s : State) (i : Instr) (f : Fmt) (imm : BitVec 20) (t : FType) (op : W32 → W32 × Flags) : Out :=
  s.alu i f fun c l =>
    let r := op (s.src c imm (FType.ty t) f.a l)
    ([r.1], r.2)

/-- R281. -/
def execFadd (f : Fmt) (imm : BitVec 20) (t : FType) (r : Rnd) (sat : Bool) (s : State) : Out :=
  s.flt2 (.fadd f imm t r sat) f imm t (faddV t (rmOf r) sat)
/-- R281. -/
def execFsub (f : Fmt) (imm : BitVec 20) (t : FType) (r : Rnd) (sat : Bool) (s : State) : Out :=
  s.flt2 (.fsub f imm t r sat) f imm t (fsubV t (rmOf r) sat)
/-- R281. -/
def execFmul (f : Fmt) (imm : BitVec 20) (t : FType) (r : Rnd) (sat : Bool) (s : State) : Out :=
  s.flt2 (.fmul f imm t r sat) f imm t (fmulV t (rmOf r) sat)
/-- R281. -/
def execFfma (f : Fmt) (imm : BitVec 20) (t : FType) (r : Rnd) (sat : Bool) (s : State) : Out :=
  s.alu (.ffma f imm t r sat) f fun c l =>
    let v := fun x => s.src c imm (FType.ty t) x l
    let y := ffmaV t (rmOf r) sat (v f.a) (v f.b) (v f.c)
    ([y.1], y.2)
/-- R282. -/
def execFmin (f : Fmt) (imm : BitVec 20) (t : FType) (s : State) : Out :=
  s.flt2 (.fmin f imm t) f imm t (fminmaxV true t)
/-- R282. -/
def execFmax (f : Fmt) (imm : BitVec 20) (t : FType) (s : State) : Out :=
  s.flt2 (.fmax f imm t) f imm t (fminmaxV false t)
/-- R283. -/
def execFset (f : Fmt) (imm : BitVec 20) (form : Form) (t : FType) (cmp : Cmp) (unord : Bool) (s : State) : Out :=
  s.flt2 (.fset f imm form t cmp unord) f imm t fun a b => (fsetV form t cmp unord a b, {})
/-- R284. -/
def execFrnd (f : Fmt) (imm : BitVec 20) (t : FType) (r : Rnd) (s : State) : Out :=
  s.flt1 (.frnd f imm t r) f imm t (frndV t (rmOf r))
/-- R285. -/
def execFclas (f : Fmt) (imm : BitVec 20) (t : FType) (s : State) : Out :=
  s.flt1 (.fclas f imm t) f imm t fun a => (fclasV t a, {})
/-- R286. -/
def execFscl (f : Fmt) (imm : BitVec 20) (r : Rnd) (s : State) : Out :=
  s.alu (.fscl f imm r) f fun c l =>
    let y := fsclV (rmOf r) (s.src c imm (.flt 32) f.a l) (s.src c imm (.int 32) f.b l)
    ([y.1], y.2)

/-- R289: `%srctr` rises in each lane that converts, under a stochastic mode. -/
def bumpSr (w : Warp) (lanes : List Nat) : Warp :=
  lanes.foldl (fun w l => { w with srctr := cset w.srctr l (cget w.srctr l + 1) }) w

/-- R289. -/
def execCvtTo (f : Fmt) (imm : BitVec 20) (r : CvtRnd) (slot : BitVec 3) (s : State) : Out :=
  s.run (.cvtTo f imm r slot) fun c on =>
    let fs := c.g.slot slot.toNat
    let w := c.emit f.d on fun l =>
      let bits := sr32 fs.seed (s.item c l) (cget c.w.srctr l)
      let y := cvtElem fs.elem (f32 (s.src c imm (.flt 32) f.a l)) (cvtMode r fs bits) fs.special
      ([y.1], y.2)
    let conv := if f.d.isUni then (lanesOf on).take 1 else lanesOf on
    s.finish c f on c.lanes (if cvtStoch r fs then bumpSr w conv else w)
/-- R289. -/
def execCvtFrom (f : Fmt) (imm : BitVec 20) (slot : BitVec 3) (s : State) : Out :=
  s.alu1 (.cvtFrom f imm slot) f fun c l =>
    elemTo32 (c.g.slot slot.toNat).elem (s.src c imm .raw f.a l).toNat
/-- R290. -/
def execCvtiI2f (f : Fmt) (imm : BitVec 20) (t : IType) (r : Rnd) (s : State) : Out :=
  s.alu (.cvtiI2f f imm t r) f fun c l =>
    let y := i2fV t (rmOf r) (s.src c imm (.int 32) f.a l)
    ([y.1], y.2)
/-- R290. -/
def execCvtiF2i (f : Fmt) (imm : BitVec 20) (t : IType) (r : Rnd) (sat : Bool) (s : State) : Out :=
  s.flt1 (.cvtiF2i f imm t r sat) f imm .f32 (f2iV t (rmOf r) sat)
/-- R291. -/
def execPack (f : Fmt) (imm : BitVec 20) (w : PackW) (sat : Bool) (s : State) : Out :=
  s.alu (.pack f imm w sat) f fun c l =>
    let y := packV w sat (s.src c imm (.int 32) f.a l) (s.src c imm (.int 32) f.b l) (s.src c imm .raw f.c l)
    ([y.1], y.2)
/-- R292. -/
def execUnpk (f : Fmt) (imm : BitVec 20) (w : PackW) (s : State) : Out :=
  s.alu1 (.unpk f imm w) f fun c l => unpkV w (s.src c imm .raw f.a l) (s.src c imm (.int 32) f.b l)

/-- Sources A and B of a packed type and C of 32 bits. -/
def State.dot (s : State) (i : Instr) (f : Fmt) (imm : BitVec 20) (ty tc : Ty) (op : W32 → W32 → W32 → W32 × Flags) : Out :=
  s.alu i f fun c l =>
    let y := op (s.src c imm ty f.a l) (s.src c imm ty f.b l) (s.src c imm tc f.c l)
    ([y.1], y.2)

/-- R293. -/
def execDp2 (f : Fmt) (sh : BitVec 5) (s : State) : Out :=
  s.dot (.dp2 f sh) f 0 (.int 16) (.int 32) (dp2V sh.toNat)
/-- R293. -/
def execDp4 (f : Fmt) (imm : BitVec 20) (t : IType) (s : State) : Out :=
  s.dot (.dp4 f imm t) f imm (.int 8) (.int 32) fun a b c => (dpV t a b c, {})
/-- R293. -/
def execDp8 (f : Fmt) (imm : BitVec 20) (s : State) : Out :=
  s.dot (.dp8 f imm) f imm (.int 4) (.int 32) fun a b c => (dpV .s4x8 a b c, {})
/-- R293. -/
def execHdp2 (f : Fmt) (imm : BitVec 20) (t : FType) (r : Rnd) (s : State) : Out :=
  s.dot (.hdp2 f imm t r) f imm (.flt 16) (.flt 32) (hdp2V t (rmOf r))

/-! ## Pending results (R35, R78, R79) -/

/-- A result of `n` words per lane is issued and not yet written: its window entries are assigned now. -/
def Warp.reserve (w : Warp) (p : Pend) (window : Bool) : Warp :=
  let slots := if window then (lanesOf p.lanes).map fun l => (l, (tget w.winSeq l).getD 0) else []
  let w := if window then
      (lanesOf p.lanes).foldl (fun w l => w.pushAll l (List.replicate p.words 0)) w else w
  let emu : Bool := w.emu.inside && p.lanes &&& w.emu.lanes != 0
  { w with pend := w.pend ++ [{ p with seq := w.nextSeq, slots := slots, emu := emu }], nextSeq := w.nextSeq + 1 }

/-- The words of a pending result are written to its destination and its window entries (R35). -/
def Warp.writePend (w : Warp) (p : Pend) : Warp :=
  let w := match p.dst with
    | .uni i => w.setUnis i.toNat ((p.got.head?.map (·.2)).getD [])
    | _ => w
  p.got.foldl (fun w x =>
    let w := match p.dst with
      | .vec i => w.setVecs i.toNat x.1 x.2
      | _ => w
    match tget p.slots x.1 with
    | none => w
    | some n => ((List.range x.2.length).zip x.2).foldl (fun w y => w.fillSlot x.1 (n + y.1) y.2) w) w

/-! ## Special functions (R77, R287, R288) -/

/-- R77: the special-function queue has a place: an operation that has entered the unit holds none. -/
def Partition.sfuRoom (p : Partition) : Bool := (p.sfu.filter (·.entered.isNone)).length < 16

/-- R77: the partition of a warp. -/
def Ctx.part (c : Ctx) : Nat := partOf c.t.core c.w.num

/-- R77: `.SIN`, `.COS`, `.TANH` and `.SIGM` take 28 cycles. -/
def SfuOp.slow : SfuOp → Bool
  | .sin | .cos | .tanh | .sigm => true
  | _ => false

/-- R77, R287: the operation joins the partition's queue; the values are those of its operands at issue. A full queue is
waited for. -/
def execSfu (f : Fmt) (imm : BitVec 20) (op : SfuOp) (s : State) : Out :=
  s.run (.sfu f imm op) fun c on =>
    if !(s.part c.part).sfuRoom then s
    else if on = 0 then s.finish c f on c.lanes c.w
    else
      let vals := (if f.d.isUni then (lanesOf on).take 1 else lanesOf on).map fun l =>
        (l, sfuEval op (s.src c imm (.flt 32) f.a l))
      let fl := (Flags.all (vals.map (·.2.2))).bits
      let p := { Pend.new (.sfu fl) 1 on f.d 1 c.pc with got := vals.map fun x => (x.1, [x.2.1]) }
      let w := c.w.reserve p (!f.d.isUni)
      let s' := s.modPart c.part fun q =>
        { q with sfu := q.sfu ++ [⟨c.wid, c.w.nextSeq, SfuOp.slow op, s.now, none⟩] }
      s'.finish c f on c.lanes w

/-- R77: the first queued operation that has not entered the unit enters it, 4 cycles after the one ahead of it. -/
def execSfuQueueEntry (part : Nat) (s : State) : Out :=
  let p := s.part part
  match p.sfu.find? (·.entered.isNone) with
  | none => .next s
  | some e =>
    let due := match p.lastEnter with
      | some c => max e.issued (c + 4)
      | none => e.issued
    if s.now < due then .next s
    else
      .next (s.modPart part fun q =>
        { q with
          sfu := q.sfu.map fun x => if x.wid == e.wid && x.pend == e.pend then { x with entered := some due } else x
          lastEnter := some due })

/-- R77: an operation that has been in the unit 20 or 28 cycles writes its result; `op` is its position in the queue. -/
def execSfuResultWrite (part : Nat) (op : Nat) (s : State) : Out :=
  match (s.part part).sfu[op]? with
  | none => .next s
  | some e =>
    match e.entered with
    | none => .next s
    | some c =>
      if s.now < c + (if e.slow then 28 else 20) then .next s
      else
        let s := s.modPart part fun q =>
          { q with sfu := q.sfu.filter fun x => !(x.wid == e.wid && x.pend == e.pend) }
        .next (s.modWarp e.wid fun w =>
          match w.pend.find? (·.seq == e.pend) with
          | none => w
          | some p =>
            let w := w.writePend p
            let fl := match p.kind with | .sfu fl => fl | _ => 0
            { w with pend := w.pend.filter (·.seq != e.pend), fstat := w.fstat ||| fl })

/-! ## The paired word (R33, R62 to R65) -/

/-- R63: the value of a half source. -/
def Ctx.hsrc (c : Ctx) (x : HSrc) (l : Nat) : W32 :=
  match x with
  | .vec i => cget c.w.vec (i.toNat * 32 + l)
  | .win k => cget c.w.win (k.toNat * 32 + l)
  | .const i => hardConst i

/-- R64: the type of a half-operation's first sources and of source C. -/
def HOp.ty : HOp → Ty × Ty
  | .faddF32 | .fsubF32 | .fmulF32 | .ffmaF32 | .fminF32 | .fmaxF32 => (.flt 32, .flt 32)
  | .faddF16x2 | .fmulF16x2 | .ffmaF16x2 | .faddBf16x2 | .fmulBf16x2 | .ffmaBf16x2 => (.flt 16, .flt 16)
  | .dp4S8x4 | .dp4N8x4 => (.int 8, .int 32)
  | .dp8S4x8 => (.int 4, .int 32)
  | .dp2S16x2 => (.int 16, .int 32)
  | _ => (.int 32, .int 32)

/-- R64, R65: the result of a half-operation. -/
def hopVal (op : HOp) (a b c : W32) : W32 × Flags :=
  match op with
  | .hnop => (0, {})
  | .faddF32 => faddV .f32 .rne false a b
  | .fsubF32 => fsubV .f32 .rne false a b
  | .fmulF32 => fmulV .f32 .rne false a b
  | .ffmaF32 => ffmaV .f32 .rne false a b c
  | .fminF32 => fminmaxV true .f32 a b
  | .fmaxF32 => fminmaxV false .f32 a b
  | .faddF16x2 => faddV .f16x2 .rne false a b
  | .fmulF16x2 => fmulV .f16x2 .rne false a b
  | .ffmaF16x2 => ffmaV .f16x2 .rne false a b c
  | .faddBf16x2 => faddV .bf16x2 .rne false a b
  | .fmulBf16x2 => fmulV .bf16x2 .rne false a b
  | .ffmaBf16x2 => ffmaV .bf16x2 .rne false a b c
  | .iaddS32 => (a + b, {})
  | .isubS32 => (a - b, {})
  | .imulS32 => (a * b, {})
  | .imadS32 => (a * b + c, {})
  | .iminS32 => (if a.toInt ≤ b.toInt then a else b, {})
  | .imaxS32 => (if a.toInt ≤ b.toInt then b else a, {})
  | .iminN32 => (if a.toNat ≤ b.toNat then a else b, {})
  | .imaxN32 => (if a.toNat ≤ b.toNat then b else a, {})
  | .and => (a &&& b, {})
  | .or => (a ||| b, {})
  | .xor => (a ^^^ b, {})
  | .andn => (a &&& ~~~b, {})
  | .shl => (shlV a b, {})
  | .shr => (shrV a b, {})
  | .sar => (sarV a b, {})
  | .mov => (a, {})
  | .dp4S8x4 => (dpV .s8x4 a b c, {})
  | .dp4N8x4 => (dpV .n8x4 a b c, {})
  | .dp8S4x8 => (dpV .s4x8 a b c, {})
  | .dp2S16x2 => dp2V 0 a b c

/-- R63: the result of a half in a lane, with `HNEG`: bit 33 for the first source, bit 32 for the last one used. -/
def Ctx.halfVal (c : Ctx) (h : Half) (l : Nat) : W32 × Flags :=
  let ty := HOp.ty h.op
  let v := fun (n : Bool) (t : Ty) (x : HSrc) => if n then negate t (c.hsrc x l) else c.hsrc x l
  let three := h.op.sources = 3
  hopVal h.op (v h.negA ty.1 h.a) (v (h.negZ && !three) ty.1 h.b) (v (h.negZ && three) ty.2 h.c)

/-- A half writes its result and shifts the window; `HNOP` does neither. -/
def Warp.putHalf (w : Warp) (h : Half) (l : Nat) (v : W32 × Flags) : Warp :=
  if h.op = .hnop then w
  else (w.putLane (if h.nwb then .nwb else .vec (h.d.setWidth 8)) l [v.1]).raise v.2

/-- R19, R63: the first register of a half outside the declared count. -/
def halfRidx (r : LaunchRec) (h : Half) : Option Nat :=
  let bad := fun (x : HSrc) => match x with
    | .vec i => if i.toNat < r.vec then none else some i.toNat
    | _ => none
  match bad h.a, bad h.b, bad h.c with
  | some i, _, _ | none, some i, _ | none, none, some i => some i
  | none, none, none => if h.op = .hnop || h.nwb || h.d.toNat < r.vec then none else some h.d.toNat

/-- R33, R65: both halves read the state before the word; the first writes and shifts, then the second. -/
def execPairedWord (g : Guard) (h : PHints) (h1 h2 : Half) (s : State) : Out :=
  match s.ctx? with
  | none => .next s
  | some c =>
    let on := c.on g
    let f : Fmt := ⟨g, ⟨h.stall, h.yield, 0, h.last⟩, .vec 0, .zero, .zero, .zero⟩
    match if on = 0 then none else (halfRidx c.g.rec_ h1).or (halfRidx c.g.rec_ h2) with
    | some x => .next (s.stop c .ridx (w64 x))
    | none =>
      .next (s.finish c f on c.lanes
        ((lanesOf on).foldl (fun w l => (w.putHalf h1 l (c.halfVal h1 l)).putHalf h2 l (c.halfVal h2 l)) c.w))

end Sys2Proof.Machine
end

