-- ==== Sys2Proof/Machine/Mem.lean ====
section
/-! DEFINITION. Spaces and their bytes, address translation, parking (R145 to R149, R158, R167, R228, R432 to R439, R450 to
R452). -/

namespace Sys2Proof.Machine

open Sys2Proof

/-! ## Bytes of the spaces (R145, R158, R228) -/

/-- R228, R243: a byte of a prepared hall where nothing has been written: the sample records hold Z = +∞ and
HEAD = 0xFFFF_FFFF. -/
def hallPattern (off : Nat) : Byte :=
  if 0x214000 ≤ off && off < 0x335000 then
    match (off - 0x214000) % 16 with
    | 2 => 0x80
    | 3 => 0x7F
    | 12 | 13 | 14 | 15 => 0xFF
    | _ => 0
  else 0

/-- A byte of a hall; a cell holds the difference from the prepared hall. -/
def Hall.byte (h : Hall) (off : Nat) : Byte := cget h.cells off ^^^ hallPattern off

def Hall.setByte (h : Hall) (off : Nat) (b : Byte) : Hall := { h with cells := cset h.cells off (b ^^^ hallPattern off) }

/-- Locations of a hall: socket, hall and offset. -/
def hallKey (socket h off : Nat) : Nat := (socket * 8 + h) * 2 ^ 23 + off

/-- Locations of die scratch: grid, die group and offset. -/
def scratchKey (gid grp off : Nat) : Nat := (gid * 128 + grp) * 2 ^ 22 + off

/-- Locations of a team's gallery. -/
def galKey (tid off : Nat) : Nat := tid * 2 ^ 20 + off

def Team.galByte (t : Team) (off : Nat) : Byte := cget t.gallery off

/-- Locations of a warp's spill area (R149): `128 * word + 4 * lane + byte` from the warp's own base.
DESIGN CHOICE, log 85. -/
def spillKey (wid lane off : Nat) : Nat := wid * 2 ^ 21 + off / 4 * 128 + 4 * lane + off % 4

/-- R149: a byte of the spill area, by its place from the warp's base. -/
def Warp.spillByte (w : Warp) (k : Nat) : Byte := (cget w.spill (k / 4)).extractLsb' (8 * (k % 4)) 8

def Warp.setSpillByte (w : Warp) (k : Nat) (b : Byte) : Warp :=
  let sh := 8 * (k % 4)
  { w with spill := cset w.spill (k / 4) ((cget w.spill (k / 4) &&& ~~~(0xFF#32 <<< sh)) ||| ((b.setWidth 32 : W32) <<< sh)) }

/-- A byte of the gallery, with its panel marked (R449). -/
def Team.setGal (t : Team) (off : Nat) (b : Byte) : Team :=
  { t with gallery := cset t.gallery off b, galDirty := cset t.galDirty (off / 4096) 1 }

/-- The byte at a location, at its target; region 2 and the doorbell word answer elsewhere. -/
def State.locByte (s : State) (x : Loc) : Byte :=
  match x.sp with
  | .mem => s.byte x.a
  | .scratch => match tget s.scratch (x.a / 2 ^ 22) with
    | some (_, c) => cget c (x.a % 2 ^ 22)
    | none => 0
  | .gallery => match s.team? (x.a / 2 ^ 20) with
    | some t => t.galByte (x.a % 2 ^ 20)
    | none => 0
  | .hall => (s.hall (x.a / 2 ^ 26) (x.a / 2 ^ 23 % 8)).byte (x.a % 2 ^ 23)
  | .spill => match s.warp? (x.a / 2 ^ 21) with
    | some w => w.spillByte (x.a % 2 ^ 21)
    | none => 0
  | .doorbell | .pcie => 0

/-- A write of a byte performed at its target. -/
def State.setLoc (s : State) (x : Loc) (b : Byte) : State :=
  match x.sp with
  | .mem => s.poke x.a b
  | .scratch => { s with scratch := tmod s.scratch (x.a / 2 ^ 22) fun y => (y.1, cset y.2 (x.a % 2 ^ 22) b) }
  | .gallery => s.modTeam (x.a / 2 ^ 20) fun t => t.setGal (x.a % 2 ^ 20) b
  | .hall => s.modHall (x.a / 2 ^ 26) (x.a / 2 ^ 23 % 8) fun h => h.setByte (x.a % 2 ^ 23) b
  | .spill => s.modWarp (x.a / 2 ^ 21) fun w => w.setSpillByte (x.a % 2 ^ 21) b
  | .doorbell | .pcie => s

/-- Consecutive bytes from a location on. -/
def State.locBytes (s : State) (x : Loc) (n : Nat) : List Byte :=
  (List.range n).map fun i => s.locByte { x with a := x.a + i }

def State.setLocs (s : State) (x : Loc) (bs : List Byte) : State :=
  ((List.range bs.length).zip bs).foldl (fun s y => s.setLoc { x with a := x.a + y.1 } y.2) s

/-! ## Physical memory (R450, R451, R470) -/

/-- R451: C, the usable capacity in service. -/
def State.capacity (s : State) : Nat := 15000000000 * s.memTrained.length

/-- R451: the end of the range left to the operating system: whole pages, and not none of them (DESIGN CHOICE, log 31). -/
def State.osLimit (s : State) : Nat :=
  let n := s.capacity / 2 ^ 14
  (n - Config.reservePages n % n) * 2 ^ 14

/-- The key of a line: of region 0 its number; the lines of the spill areas (R149) follow those of region 0.
DESIGN CHOICE, log 85. -/
def Loc.line (x : Loc) : Nat := match x.sp with | .spill => 2 ^ 50 + x.a / 128 | _ => x.a / 128

/-- The first byte of a line that an L1 may hold. DESIGN CHOICE, log 85. -/
def lineLoc (l : Nat) : Loc := if l < 2 ^ 50 then ⟨.mem, 128 * l⟩ else ⟨.spill, 128 * (l - 2 ^ 50)⟩

/-- The space is homed at the L2 slices and cached in the L1s (R150, R174). -/
def Sp.homed : Sp → Bool
  | .mem | .spill => true
  | _ => false

/-- R157: the home slice of a line, as memory die * 16 + slice: a hash over the slices in service. DESIGN CHOICE, log 5. -/
def State.homeSlice (s : State) (line : Nat) : Nat :=
  (s.slices[Config.homeHash s.slices line % s.slices.length]?).getD 0

/-- The socket of a line's home. -/
def State.homeDie (s : State) (line : Nat) : Nat := 7 + s.homeSlice line / 16

/-- R455, R470: a memory die has left service since the module's reset: its attachment, its training or one of its devices
has failed. -/
def State.memLost (s : State) (sock : Nat) : Bool := s.outOfService.any fun x => x.1 == sock && (x.2.1 == 4 || x.2.1 == 7)

/-- R469, R470: a request to the line meets an uncorrectable error: its memory die has left service, or the error is
pending there. DEDUCED, log 37. -/
def State.lineBad (s : State) (line : Nat) : Bool := s.poison.contains line || s.memLost (s.homeDie line)

/-! ## Translation (R432 to R438) -/

/-- R457, R469, R470: a request to the location does not reach its target. Socket 0 never leaves service; it is as lost only where a
link's failure is tried out (`State.cut`). -/
def State.unreached (s : State) (x : Loc) : Bool :=
  match x.sp with
  | .mem | .spill => s.lineBad x.line
  | .pcie | .doorbell => s.memLost 0
  | _ => false

/-- What an access does. -/
inductive Acc where
  | fetch
  | read
  | write
  deriving DecidableEq, Repr

/-- R435, R436: the entry is valid at its level: zero fields are zero, and `LEAF` is as the level demands. -/
def pteOk (l e : Nat) : Bool :=
  let leaf := e / 2 % 2 == 1
  e % 2 == 1 && e / 2 ^ 52 == 0 && e / 64 % 256 == 0 && e / 4 % 2 == 0 &&
  (if leaf then l != 3 && bitsOf e (13 + 11 * l) 14 == 0 else l != 0 && e / 8 % 8 == 0)

/-- R436: the entry of `va` in the table at `t`, level `l`: a leaf for the 16 KiB page of `va`, the address of the next table,
or an `FTYPE`. DEDUCED, log 70. -/
def State.walkEntry (s : State) (asid va l t : Nat) : Except Nat (TlbEnt ⊕ Nat) :=
  let at_ := t + 8 * bitsOf va (min (24 + 11 * l) 56) (14 + 11 * l)
  if at_ / 2 ^ 48 != 0 || s.capacity ≤ at_ then .error 5
  else if s.lineBad (at_ / 128) then .error 3
  else
    let e := s.peekN at_ 8
    let pa := e % 2 ^ 52 / 2 ^ 14 * 2 ^ 14
    if !pteOk l e then .error 0
    else if e / 2 % 2 == 1 then
      .ok (.inl { asid := asid, page := va / 2 ^ 14, phys := pa / 2 ^ 14 + bitsOf va (13 + 11 * l) 14 % 2 ^ (11 * l),
                  p := e / 32 % 2 == 1, x := e / 16 % 2 == 1, w := e / 8 % 2 == 1 })
    else .ok (.inr pa)

/-- R436: the walk from the table at `t`, level `l`; an entry of level 0 is a leaf. -/
def State.walkFrom (s : State) (asid va : Nat) : Nat → Nat → Except Nat TlbEnt
  | l, t =>
    match s.walkEntry asid va l t with
    | .error f => .error f
    | .ok (.inl x) => .ok x
    | .ok (.inr pa) =>
      match l with
      | 0 => .error 0
      | l + 1 => s.walkFrom asid va l pa

/-- R432, R436: the walk from the root of an address space. DEDUCED, log 70. -/
def State.walk (s : State) (asid va : Nat) : Except Nat TlbEnt :=
  let at_ := s.asidBase + 16 * asid
  if at_ / 2 ^ 48 != 0 || s.capacity ≤ at_ then .error 5
  else if s.lineBad (at_ / 128) then .error 3
  else
    let e := s.peekN at_ 8
    if e % 2 == 0 || e / 2 % 2 ^ 13 != 0 || e / 2 ^ 52 != 0 || s.peekN (at_ + 8) 8 != 0 then .error 0
    else s.walkFrom asid va 3 (e / 2 ^ 14 * 2 ^ 14)

/-- R437, R450 to R452: the check of a leaf against an access: the target, or an `FTYPE`. A leaf that names no memory
faults first (R436); an error of the memory itself shows when a request is made (`judge`). DESIGN CHOICE, log 36. -/
def State.checkLeaf (s : State) (t : TlbEnt) (acc : Acc) (va : Nat) : Except Nat Loc :=
  let pa := t.phys * 2 ^ 14 + va % 2 ^ 14
  let region := pa / 2 ^ 48
  if !(region == 2 || (region == 0 && pa < s.osLimit)) then .error 5
  else if !t.p then .error 5
  else if acc == .fetch && !t.x then .error 2
  else if acc == .write && !t.w then .error 1
  else if region == 2 then .ok ⟨.pcie, pa % 2 ^ 48⟩
  else .ok ⟨.mem, pa⟩

/-- A walk's answer as plain data. -/
def leafOrFault (r : Except Nat TlbEnt) : Nat ⊕ TlbEnt :=
  match r with
  | .ok t => .inr t
  | .error f => .inl f

/-- R436, R438: the non-leaf entries that a walk passes. -/
def State.walkPath (s : State) (asid va : Nat) : Nat → Nat → List WalkEnt
  | l, t =>
    match s.walkEntry asid va l t with
    | .ok (.inr pa) =>
      match l with
      | 0 => []
      | l + 1 => ⟨asid, l, va / 2 ^ (25 + 11 * l), pa⟩ :: s.walkPath asid va l pa
    | _ => []

/-- R438, R439: what a translation may find: entries in the core's L1 TLB and in the second level, walks from the walkers'
cached entries, and the walk from the root; each once. DESIGN CHOICE, log 36. -/
def State.found (s : State) (core : Option Nat) (asid va : Nat) : List (Nat ⊕ TlbEnt) :=
  let own := match core with
    | some k => (s.core k).tlb
    | none => []
  let leaves := (own ++ s.tlb).filter fun t => t.asid == asid && t.page == va / 2 ^ 14
  let tables := s.walkCache.filter fun x => x.asid == asid && x.prefix_ == va / 2 ^ (25 + 11 * x.level)
  (leaves.map (fun t => (.inr t : Nat ⊕ TlbEnt)) ++
    tables.map (fun (x : WalkEnt) => leafOrFault (s.walkFrom asid va x.level x.table)) ++
    [leafOrFault (s.walk asid va)]).foldl (fun l x => if l.contains x then l else l ++ [x]) []

/-- The access through what a translation has found. -/
def State.through (s : State) (x : Nat ⊕ TlbEnt) (acc : Acc) (va : Nat) : Except Nat Loc :=
  match x with
  | .inr t => s.checkLeaf t acc va
  | .inl f => .error f

/-- R438, R439: a paged translation: where several entries may be found, which is used is free, for each access by itself; a
fault of `FTYPE` 0, 1 or 2 is reported only when a walk from the root gives it. DESIGN CHOICE, log 36. -/
def State.translate (s : State) (core : Option Nat) (asid va : Nat) (acc : Acc) : Except Nat Loc :=
  let fresh := s.through (leafOrFault (s.walk asid va)) acc va
  match s.found core asid va with
  | [] | [_] => fresh
  | l =>
    match l[Config.freeEntry s.fresh asid (va / 2 ^ 14) % l.length]? with
    | none => fresh
    | some x =>
      match s.through x acc va with
      | .error f => if f < 3 then fresh else .error f
      | r => r

/-- An entry joins a list that may hold it. -/
def addNew {α : Type} [BEq α] (l : List α) (x : α) : List α := if l.contains x then l else l ++ [x]

/-- R438: the translation of an address is cached: in the core's L1 TLB, the second level and the walkers' caches; an entry
whose `V` is 0 never is. DESIGN CHOICE, log 36. -/
def State.cacheTlb (s : State) (core : Option Nat) (asid va : Nat) : State :=
  match s.walk asid va with
  | .error _ => s
  | .ok t =>
    let root := s.peekN (s.asidBase + 16 * asid) 8 / 2 ^ 14 * 2 ^ 14
    let s := { s with tlb := addNew s.tlb t, walkCache := (s.walkPath asid va 3 root).foldl addNew s.walkCache }
    match core with
    | some k => s.modCore k fun c => { c with tlb := addNew c.tlb t }
    | none => s

/-- A paged access: its target, and the state with its translation cached. DESIGN CHOICE, log 36. -/
def State.paged (s : State) (core : Option Nat) (asid va : Nat) (acc : Acc) : Except Nat Loc × State :=
  let free := 1 < (s.found core asid va).length
  let s' := s.cacheTlb core asid va
  (s.translate core asid va acc, if free then { s' with fresh := s.fresh + 1 } else s')

/-- R167, R469, R470: a memory request for the target meets an error. DEDUCED, log 37. -/
def State.judge (s : State) (r : Except Nat Loc) : Except Nat Loc :=
  match r with
  | .ok x => if s.unreached x then .error 3 else r
  | .error _ => r

/-- R147: the first byte of the die-scratch window. -/
def scratchWindow : Nat := 0x01FFFFFFFFC00000

/-- R433: the first byte of the device window. -/
def deviceWindow : Nat := 0x01FFFE0000000000

/-- R433: the device window: a doorbell page of a queue of the address space, or nothing a program may reach. -/
def State.deviceLoc (s : State) (asid va : Nat) (acc : Acc) : Except Nat Loc :=
  let q := (va - deviceWindow) / 2 ^ 14
  match s.queue? q with
  | some x =>
    if x.asid == asid && x.st != .destroyed then
      (if acc == .fetch then .error 2 else .ok ⟨.doorbell, va - deviceWindow⟩)
    else .error 5
  | none => .error 5

/-- R146, R147, R433: the target of a global access of a grid's die group, by a core or by another unit, before a memory request
is made. `scratch` admits the die-scratch window. -/
def State.locateRaw (s : State) (core : Option Nat) (gid grp : Nat) (scratch : Bool) (va : Nat) (acc : Acc) :
    Except Nat Loc × State :=
  match s.grid? gid with
  | none => (.error 5, s)
  | some g =>
    if 2 ^ 57 ≤ va then (.error 5, s)
    else if scratchWindow ≤ va then
      if scratch && va - scratchWindow < g.rec_.dieScratch then
        (.ok ⟨.scratch, scratchKey gid grp (va - scratchWindow)⟩, s)
      else (.error 5, s)
    else if deviceWindow ≤ va then (s.deviceLoc g.asid va acc, s)
    else s.paged core g.asid va acc

/-- The target of an access that makes a memory request. -/
def State.locate (s : State) (core : Option Nat) (gid grp : Nat) (scratch : Bool) (va : Nat) (acc : Acc) :
    Except Nat Loc × State :=
  let (r, s') := s.locateRaw core gid grp scratch va acc
  (s.judge r, s')

/-- Translate several lanes' addresses in lane order; `served` says of a lane's target that no memory request is made. -/
def State.locateEach (s : State) (c : Ctx) (scratch : Bool) (acc : Acc) (served : Loc → Bool) (l : List (Nat × Nat)) :
    List (Nat × Nat × Except Nat Loc) × State :=
  l.foldl (fun a x =>
    let (r, s) := a.2.locateRaw (some c.t.core) c.t.gid c.t.group scratch x.2 acc
    let r := match r with
      | .ok y => if served y then r else s.judge r
      | .error _ => r
    (a.1 ++ [(x.1, x.2, r)], s)) ([], s)

/-- Translate several lanes' addresses in lane order, each for a memory request. -/
def State.locateAll (s : State) (c : Ctx) (scratch : Bool) (acc : Acc) (l : List (Nat × Nat)) :
    List (Nat × Nat × Except Nat Loc) × State :=
  s.locateEach c scratch acc (fun _ => false) l

/-- R452: atomics, reductions and `LDX` to region 2 fault with `FTYPE` 5. -/
def noPcie (r : Except Nat Loc) : Except Nat Loc :=
  match r with
  | .ok ⟨.pcie, _⟩ => .error 5
  | r => r

/-! ## Parking (R167, R168) -/

/-- A faulting lane: lane, virtual address, `FTYPE`. -/
structure LaneFault where
  lane : Nat
  va : Nat
  ftype : Nat
  deriving DecidableEq, Repr

/-- R167: lanes that fault on one 16 KiB range share a record; the groups in increasing order of their lowest lane. -/
def groupFaults : List LaneFault → List (List LaneFault)
  | [] => []
  | x :: r =>
    let rest := groupFaults r
    match rest.find? fun g => g.any fun y => y.va / 2 ^ 14 == x.va / 2 ^ 14 with
    | some g => (x :: g) :: rest.filter (· != g)
    | none => [x] :: rest

/-- R468: a pending error is gone once an access has met it. DEDUCED, log 37. -/
def State.meetPoison (s : State) (asid : Nat) (l : List LaneFault) : State :=
  { s with poison := s.poison.filter fun p => !l.any fun x =>
      x.ftype == 3 && match s.walk asid x.va with
        | .ok t => (t.phys * 2 ^ 14 + x.va % 2 ^ 14) / 128 == p
        | .error _ => false }

/-- A fault of lanes of a warp, as its record will show it (R168). -/
def State.laneFault (s : State) (c : Ctx) (w : Warp) (kind engine progress : Nat) (lanes : Mask) (va : W64) (ftype : Nat) :
    FaultEvt where
  va := va
  pc := c.pc
  lanes := lanes
  socket := socketOf c.t.core
  core := c.t.core % 32
  warp := c.w.num
  engine := engine
  teamlin := BitVec.ofNat 32 c.t.lin
  kind := kind
  ftype := ftype
  whole := w.launched &&& ~~~w.exited &&& ~~~w.parked == 0
  async := false
  emu := c.w.emu.inside && lanes &&& c.w.emu.lanes != 0
  tag := 0xFF
  progress := BitVec.ofNat 32 progress
  item := s.item c (lowest lanes)
  who := .lanes c.wid lanes

/-- R167: lanes park at the instruction, with a record for each 16 KiB range; `w` is the warp with the effect of the lanes
that completed. `all` parks other lanes with the first fault (one access for several lanes). -/
def State.parkWith (s : State) (c : Ctx) (w : Warp) (kind engine progress : Nat) (fs : List LaneFault) (all : Mask) : State :=
  let m := all ||| maskOf (fs.map (·.lane))
  let w := { w with parked := w.parked ||| m, ready := w.ready &&& ~~~m }
  let evts := (groupFaults fs).map fun g =>
    let lanes := if all = 0 then maskOf (g.map (·.lane)) else all
    s.laneFault c w kind engine progress lanes (w64 ((g.head?.map (·.va)).getD 0)) ((g.head?.map (·.ftype)).getD 0)
  ((s.setWarp c.wid w).meetPoison c.g.asid fs).modGrid c.t.gid fun g => { g with faults := g.faults ++ evts }

def State.parkLanes (s : State) (c : Ctx) (w : Warp) (kind engine : Nat) (fs : List LaneFault) (all : Mask) : State :=
  s.parkWith c w kind engine 0 fs all

/-- The lanes of a list of translations that fault. -/
def faultsOf (l : List (Nat × Nat × Except Nat Loc)) : List LaneFault :=
  l.filterMap fun x => match x.2.2 with
    | .error f => some ⟨x.1, x.2.1, f⟩
    | .ok _ => none

/-- The lanes of a list of translations that succeed, with their targets. -/
def targetsOf (l : List (Nat × Nat × Except Nat Loc)) : List LaneLoc :=
  l.filterMap fun x => match x.2.2 with
    | .ok y => some ⟨x.1, y⟩
    | .error _ => none

end Sys2Proof.Machine
end

