-- ==== Sys2Proof/Machine/Home.lean ====
section
/-! DEFINITION. The homes and the L1s: home-ALU updates (R196, R197, R336, R337), L1 lines (R150 to R153), update-only lines,
drains and recalls (R154 to R156), requests in flight (R177, R181), the device's own reads and writes. -/

namespace Sys2Proof.Machine

open Sys2Proof

/-! ## Home-ALU arithmetic (R336, R337, R197) -/

def AType.bytes : AType → Nat
  | .n64 => 8
  | _ => 4

/-- R337: the fp32 operations. -/
def atomF32 (op : AOp) (old b : W32) : W32 :=
  match op with
  | .add => (faddV .f32 .rne false old b).1
  | .min => (fminmaxV true .f32 old b).1
  | .max => (fminmaxV false .f32 old b).1
  | _ => b

/-- R336: `new(old, b)` on the values of the low bits. -/
def atomNew (op : AOp) (t : AType) (old b : W64) : W64 :=
  let o32 : W32 := old.setWidth 32
  let b32 : W32 := b.setWidth 32
  let less : Bool := match t with
    | .s32 => o32.toInt < b32.toInt
    | .n64 => old.toNat < b.toNat
    | _ => o32.toNat < b32.toNat
  let v : W64 := match t with
    | .f32 => (atomF32 op o32 b32).setWidth 64
    | _ =>
      match op with
      | .add => old + b
      | .min => if less then old else b
      | .max => if less then b else old
      | .and => old &&& b
      | .or => old ||| b
      | .xor => old ^^^ b
      | .exch => b
      | .inc => if less then old + 1 else 0
  match t with
  | .n64 => v
  | _ => (v.setWidth 32).setWidth 64

/-- The number at a location. -/
def State.locN (s : State) (x : Loc) (n : Nat) : W64 := w64 (leNat (s.locBytes x n))

/-- R196: one update at the target, with the value before it. -/
def State.applyAtom (s : State) (op : AOp) (t : AType) (x : Loc) (b : W64) : W64 × State :=
  let n := AType.bytes t
  let old := s.locN x n
  (old, s.setLocs x (natBytes n (atomNew op t old b).toNat))

/-! ## The commit buffer (R128) -/

/-- The key of a byte in the commit buffer. -/
def commitKey (x : Loc) : Nat :=
  x.a * 4 + match x.sp with | .scratch => 1 | .doorbell => 2 | .pcie => 3 | _ => 0

def commitLoc (k : Nat) : Loc :=
  ⟨match k % 4 with | 1 => .scratch | 2 => .doorbell | 3 => .pcie | _ => .mem, k / 4⟩

/-- The spaces whose stores are buffered. -/
def Sp.committed : Sp → Bool
  | .mem | .scratch | .doorbell | .pcie => true
  | _ => false

/-- The lines the buffer holds. -/
def Team.commitLines (t : Team) : List (Nat × Nat) :=
  (t.commit.map fun x => (x.1 / 4 / 128, x.1 % 4)).foldl (fun l x => if l.contains x then l else x :: l) []

/-- R128: the team's own buffered byte, where there is one. -/
def Team.buffered (t : Team) (x : Loc) : Option Byte :=
  if x.sp.committed then
    let v := cget t.commit (commitKey x)
    if v.getLsbD 8 then some (v.setWidth 8) else none
  else none

def Team.buffer (t : Team) (x : Loc) (b : Byte) : Team :=
  { t with commit := cset t.commit (commitKey x) (1#1 ++ b) }

/-- A byte as a team sees it at its target: its own buffered byte first. -/
def State.teamByte (s : State) (tid : Nat) (x : Loc) : Byte :=
  match (s.team? tid).bind fun t => t.buffered x with
  | some b => b
  | none => s.locByte x

/-! ## L1 lines (R150, R154) -/

def Loc.word (x : Loc) : Nat := x.a % 128 / 4

def Core.line (k : Core) (l : Nat) : L1Line := (tget k.l1 l).getD ⟨0, [], none⟩

/-- The line is update-only here. -/
def Core.isUpd (k : Core) (l : Nat) : Bool := ((tget k.l1 l).bind (·.upd)).isSome

/-- The word of a line is valid here. -/
def Core.wordValid (k : Core) (l w : Nat) : Bool := match tget k.l1 l with
  | some x => x.upd.isNone && x.valid.getLsbD w
  | none => false

def Core.putWord (k : Core) (l w : Nat) (v : W32) : Core :=
  let x := k.line l
  if x.upd.isSome then k
  else { k with l1 := tset k.l1 l { x with valid := x.valid ||| laneBit w, words := cset x.words w v } }

/-- R150: the L1 has a line, or room for it among its 1,536. -/
def Core.room (k : Core) (lines : List Nat) : Bool :=
  let new := (lines.filter fun l => (tget k.l1 l).isNone).foldl (fun (a : List Nat) l => if a.contains l then a else a ++ [l]) []
  k.l1.length + new.length ≤ 1536

/-- Words of a line are invalidated. -/
def Core.dropWords (k : Core) (l : Nat) (m : Mask) : Core :=
  match tget k.l1 l with
  | none => k
  | some x =>
    if x.upd.isSome then k
    else
      let v := x.valid &&& ~~~m
      { k with l1 := if v = 0 then tdel k.l1 l
                     else tset k.l1 l { x with valid := v, words := x.words.filter fun y => !m.getLsbD y.1 } }

/-- R181: every word outside update-only lines is invalidated. -/
def Core.invalidate (k : Core) : Core := { k with l1 := k.l1.filter fun x => x.2.upd.isSome }

/-! ## Update-only lines (R154 to R156) -/

/-- The partials of an update-only line: address and operand. -/
def L1Line.partials (x : L1Line) (l : Nat) : List (Nat × W64) :=
  match x.upd with
  | none => []
  | some (_, t, m) =>
    (lanesOf m).filterMap fun w =>
      match t with
      | .n64 => if w % 2 = 0 then some (l * 128 + 4 * w, cget x.words (w + 1) ++ cget x.words w) else none
      | _ => some (l * 128 + 4 * w, (cget x.words w).setWidth 64)

def Core.dropUpd (k : Core) (l : Nat) : Core :=
  { k with l1 := tdel k.l1 l, updOrder := k.updOrder.filter (· != l) }

/-- R155, R156: a holder answers a recall: its partials are applied at the home. -/
def State.answerRecall (s : State) (core l : Nat) : State :=
  let x := (s.core core).line l
  match x.upd with
  | none => s
  | some (op, t, _) =>
    let s := (x.partials l).foldl (fun s p => (s.applyAtom op t ⟨.mem, p.1⟩ p.2).2) s
    s.modCore core fun k => k.dropUpd l

/-- The cores that hold an update-only copy of a line. -/
def State.holders (s : State) (l : Nat) : List Nat := (s.cores.filter fun x => x.2.isUpd l).map (·.1)

/-- Holders answer one after the other, in any order. -/
def State.recallAll (s : State) (l : Nat) : Nat → List Nat → State
  | 0, _ => s
  | fuel + 1, hs =>
    match s.pick hs with
    | (none, s) => s
    | (some k, s) => (s.answerRecall k l).recallAll l fuel (hs.filter (· != k))

/-- R156: before an access from elsewhere is served, every other holder answers. -/
def State.recall (s : State) (keep : Option Nat) (l : Nat) : State :=
  let hs := (s.holders l).filter fun k => some k != keep
  s.recallAll l hs.length hs

/-- R156: a line is recalled while an access to it from elsewhere waits. -/
def execHomeRecall (line : Nat) (s : State) : Out :=
  let hs := s.holders line
  let wanted := s.cores.any fun x =>
    (x.2.inflight.any fun r => r.sp == .mem && r.line == line) && hs.any (· != x.1)
  .next (if wanted then s.recall none line else s)

/-! ## Requests (R174, R177, R181, R453, R457) -/

/-- A request leaves a core. -/
def State.send (s : State) (core wid : Nat) (sp : Sp) (line : Nat) (op : ReqOp) (acks : Bool) (pc : W64) (lanes : Mask)
    (va : Nat := 0) (emu mx : Bool := false) : State :=
  let (id, s) := s.newId
  let r : Req := { id := id, wid := wid, sp := sp, line := line, op := op, acks := acks, pc := pc, lanes := lanes, va := va,
                   emu := emu, mx := mx, arrived := false, returned := false }
  let s := s.modCore core fun k => { k with inflight := k.inflight ++ [r] }
  if acks then s.modWarp wid fun w => { w with unack := w.unack + 1 } else s

/-- R155: an update-only line of a core is drained, counted against a warp. -/
def State.drain (s : State) (core wid l : Nat) : State :=
  let x := (s.core core).line l
  match x.upd with
  | none => s
  | some (op, t, _) =>
    (s.modCore core fun k => k.dropUpd l).send core wid .mem l
      (.atom op t ((x.partials l).map fun p => (0, p.1, p.2)) none) true 0 0

/-- The bytes that a request writes or may write. -/
def Req.touched (r : Req) : List Nat :=
  match r.op with
  | .write bs => bs.map (·.1)
  | .atom _ t ops _ => ops.flatMap fun o => (List.range (AType.bytes t)).map (o.2.1 + ·)
  | .cas wide ops _ => ops.flatMap fun o => (List.range (if wide then 8 else 4)).map (o.2.1 + ·)
  | .ldx _ _ => (List.range 128).map (r.line * 128 + ·)
  | .ordered _ _ _ _ t a _ _ => (List.range (AType.bytes t)).map (a + ·)
  | .fill | .load _ => []

def Req.isOrdered (r : Req) : Bool :=
  match r.op with
  | .ordered _ _ _ _ _ _ _ _ => true
  | _ => false

/-- R453: the virtual channel of a request: the partials of an update-only line travel on VC2, every other request on VC0. -/
def Req.vc (r : Req) : Nat :=
  match r.op with
  | .atom _ _ _ none => if r.lanes = 0 then 2 else 0
  | _ => 0

/-- The two requests touch a byte. -/
def Req.meets (r x : Req) : Bool := x.sp == r.sp && x.touched.any fun b => r.touched.contains b

/-- Two requests for one line (R457). -/
def Req.sameLine (r x : Req) : Bool := x.sp == r.sp && x.line == r.line

/-- R184, R198: a request waits for an ordered atomic of its own warp that touches one of its bytes. DEDUCED, log 19. -/
def Req.waitsFor (r x : Req) : Bool := x.isOrdered && !r.isOrdered && x.wid == r.wid && r.meets x

/-- R174, R452: the target of a request: a home slice, the hall controller of the die, a root port, or the doorbell pages. -/
def State.target (s : State) (core : Nat) (r : Req) : Nat × Nat :=
  match r.sp with
  | .mem | .spill => (0, s.homeSlice r.line)
  | .hall | .scratch => (1, socketOf core)
  | .pcie => (2, r.line * 128 / 2 ^ 47)
  | .doorbell => (3, 0)
  | .gallery => (4, core)

/-- The socket of a request's target. -/
def State.targetSocket (s : State) (core : Nat) (r : Req) : Nat :=
  match r.sp with
  | .mem | .spill => s.homeDie r.line
  | .pcie | .doorbell => 0
  | _ => socketOf core

/-- R198, R457: the requests of a list that do not stand in the order of their target: those that a failed link returned or
that wait behind one of their line, and those that wait for an ordered atomic. -/
def heldReqs (l : List Req) : List Req :=
  (l.foldl (fun (a : List Req × List Req) r =>
    let held := r.returned || a.1.any (fun x => r.waitsFor x) || (a.2.any fun h => r.sameLine h)
    (a.1 ++ [r], if held then a.2 ++ [r] else a.2)) ([], [])).2

/-- A request may be served: it is the first of its core for its target (R177), and nothing holds it. An ordered atomic that
has arrived waits for its turn at the target; it holds up no request but a later one of its warp to its own bytes, and only
such an earlier one holds it up (R198). DEDUCED, log 19. -/
def State.firstReq (s : State) (core id : Nat) : Option Req :=
  let l := (s.core core).inflight
  match l.find? (·.id == id) with
  | none => none
  | some r =>
    let before := l.takeWhile (·.id != id)
    let held := heldReqs l
    let blocks := fun (x : Req) => !x.isOrdered &&
      if r.isOrdered then x.wid == r.wid && r.meets x
      else !held.contains x && s.target core x == s.target core r
    if r.returned || held.contains r || before.any blocks then none else some r

/-- A store or read-modify-write of the core to a word of a line is not yet acknowledged (R176). DEDUCED, log 41. -/
def Core.unackedWord (k : Core) (l w : Nat) : Bool :=
  k.inflight.any fun r => r.sp.homed && r.line == l && !r.isOrdered &&
    match r.op with
    | .ldx _ _ => false
    | _ => r.touched.any fun a => a % 128 / 4 == w

/-- A drain of the line by the core is not yet acknowledged. -/
def Core.unackedDrain (k : Core) (l : Nat) : Bool :=
  k.inflight.any fun r => r.sp == .mem && r.line == l && match r.op with | .atom _ _ _ none => true | _ => false

/-- R453: a request has been delivered, and with it every earlier packet of its channel between the two sockets. -/
def State.delivered (s : State) (core : Nat) (r : Req) : State :=
  { s with cores := s.cores.map fun x =>
      if socketOf x.1 == socketOf core then
        (x.1, { x.2 with inflight := x.2.inflight.map fun y =>
          if y.id < r.id && y.vc == r.vc && s.targetSocket x.1 y == s.targetSocket core r && !(heldReqs x.2.inflight).contains y
          then { y with arrived := true } else y })
      else x }

/-- A request is done: it leaves the core, and the warp's count falls (R181). -/
def State.doneReq (s : State) (core : Nat) (r : Req) : State :=
  let s := (s.delivered core r).modCore core fun k => { k with inflight := k.inflight.filter (·.id != r.id) }
  if r.acks then s.modWarp r.wid fun w => { w with unack := w.unack - 1 } else s

/-- The words of a result from its low bits. -/
def resultWords (n : Nat) (v : W64) : List W32 := if n = 8 then words2 v else [v.setWidth 32]

/-- A value has come back for a lane of a pending result. -/
def State.reply (s : State) (wid pend lane : Nat) (vs : List W32) : State :=
  s.modWarp wid fun w =>
    { w with pend := w.pend.map fun p => if p.seq == pend then { p with got := tset p.got lane vs } else p }

/-- R153: words of a line are invalidated in the issuing core's L1. -/
def State.dropL1 (s : State) (core : Nat) (sp : Sp) (a n : Nat) : State :=
  if sp.homed then s.modCore core fun k => k.dropWords (a / 128) (maskOf ((List.range (n / 4)).map (a % 128 / 4 + ·)))
  else s

/-- R433, R413: a store to the doorbell word of a page; bytes elsewhere on the page have no effect. -/
def State.ringDoorbell (s : State) (bs : List (Nat × Byte)) : State :=
  let qs := (bs.filter fun x => x.1 % 16384 = 0).map (·.1 / 16384)
  qs.foldl (fun s q =>
    let v := leNat ((List.range 4).map fun i =>
      ((bs.find? fun x => x.1 == q * 16384 + i).map (·.2)).getD 0)
    { s with inputs := s.inputs ++ [.doorbellWrite q (BitVec.ofNat 32 v)] }) s

/-- R230: a record of a hall that an operation in flight may write: a sample or deep record under a `RAST`, a vertex record
outside the grids in use under a `DICE`. -/
def State.hallRace (s : State) (x : Loc) : Bool :=
  let sock := x.a / 2 ^ 26
  let hl := x.a / 2 ^ 23 % 8
  let off := x.a % 2 ^ 23
  let busy := fun (p : OpKind → Bool) => s.ops.any fun o =>
    o.hall == hl && p o.kind && ((s.team? o.tid).map fun t => socketOf t.core) == some sock
  let n := fun (o k : Nat) => leNat ((List.range k).map fun i => (s.hall sock hl).byte (o + i))
  let inGrid := fun (g : Nat) =>
    let o := 0x600 + 64 * g
    n (o + 2) 1 != 0 && n (o + 4) 4 ≤ off && off < n (o + 4) 4 + 64 * (n o 1 * n (o + 1) 1)
  x.sp == .hall &&
    ((0x214000 ≤ off && off < 0x535000 && busy fun k => match k with | .rast _ => true | _ => false) ||
     (0x14000 ≤ off && off < 0x214000 && (busy fun k => match k with | .dice _ => true | _ => false) &&
       !(List.range 128).any inGrid))

/-- R230: the 16 bytes of each record so accessed hold an unspecified value. DESIGN CHOICE, log 22. -/
def State.hallSpoil (s : State) (l : List Loc) : State :=
  let recs := (l.filter s.hallRace).foldl (fun acc x => if acc.contains (x.a / 16) then acc else acc ++ [x.a / 16]) []
  recs.foldl (fun s r =>
    let s' := (List.range 16).foldl (fun s i => s.setLoc ⟨.hall, 16 * r + i⟩ (Config.freeByte (s.fresh + i))) s
    { s' with fresh := s'.fresh + 16 }) s

/-- Bytes by address as runs of consecutive addresses. -/
def byteRuns : List (Nat × Byte) → List (Nat × List Byte)
  | [] => []
  | (a, b) :: r =>
    match byteRuns r with
    | (a', bs) :: q => if a' = a + 1 then (a, b :: bs) :: q else (a, [b]) :: (a', bs) :: q
    | [] => [(a, [b])]

/-- R174: writes performed at their target. -/
def State.performWrite (s : State) (core : Nat) (sp : Sp) (line : Nat) (bs : List (Nat × Byte)) : State :=
  match sp with
  | .mem => bs.foldl (fun s x => s.poke x.1 x.2) (s.recall (some core) line)
  | .doorbell => s.ringDoorbell bs
  | .pcie => { s with pcieOut := s.pcieOut ++ byteRuns bs }
  | _ => (bs.foldl (fun s x => s.setLoc ⟨sp, x.1⟩ x.2) s).hallSpoil (bs.map fun x => ⟨sp, x.1⟩)

/-- R174, R181: a store is performed at its target and acknowledged. -/
def execWriteAcknowledge (core req : Nat) (s : State) : Out :=
  match s.firstReq core req with
  | none => .next s
  | some r =>
    match r.op with
    | .write bs => .next ((s.performWrite core r.sp r.line bs).doneReq core r)
    | _ => .next s

/-- R341: the four words of a gather, from an index word. -/
def State.gatherLine (s : State) (tid : Nat) (sp : Sp) (a : Nat) (b : W32) : List W32 :=
  (List.range 4).map fun i =>
    let e := el b 8 i
    if e / 128 = 1 then 0
    else BitVec.ofNat 32 (leNat ((List.range 4).map fun j => s.teamByte tid ⟨sp, a + 4 * (e % 32) + j⟩))

/-- R196, R197: the home ALU or hall controller serves a request; its lanes in increasing order. -/
def execHomeAluUpdate (core req : Nat) (s : State) : Out :=
  match s.firstReq core req with
  | none => .next s
  | some r =>
    let s0 := if r.sp == .mem then s.recall (some core) r.line else s
    match r.op with
    | .atom op t ops pend =>
      let s := ops.foldl (fun s o =>
        let (old, s) := s.applyAtom op t ⟨r.sp, o.2.1⟩ o.2.2
        let s := s.dropL1 core r.sp o.2.1 (AType.bytes t)
        match pend with
        | some p => s.reply r.wid p o.1 (resultWords (AType.bytes t) old)
        | none => s) s0
      .next (s.doneReq core r)
    | .cas wide ops pend =>
      let n := if wide then 8 else 4
      let s := ops.foldl (fun s o =>
        let old := s.locN ⟨r.sp, o.2.1⟩ n
        let s := if old == o.2.2.1 then s.setLocs ⟨r.sp, o.2.1⟩ (natBytes n o.2.2.2.toNat) else s
        (s.dropL1 core r.sp o.2.1 n).reply r.wid pend o.1 (resultWords n old)) s0
      .next (s.doneReq core r)
    | .ldx ops pend =>
      let s := ops.foldl (fun s o =>
        let a := r.line * 128
        let vs := s.gatherLine (r.wid / 32) r.sp a o.2
        let named := ((List.range 4).map fun i => el o.2 8 i).filter (· < 128)
        let s := if r.sp == .mem then s.modCore core fun k => k.dropWords r.line (maskOf (named.map (· % 32))) else s
        s.reply r.wid pend o.1 vs) s0
      .next (s.doneReq core r)
    | _ => .next s

/-- R134, R197, R340: the turn of item `n`'s m-th `ATOMO` has come: the item before it has had its m-th applied, or it has
exited with fewer and its own turn had come (DEDUCED, log 30). -/
def Grid.atomoTurn (g : Grid) (m : Nat) : Nat → Bool
  | 0 => true
  | n + 1 => m ≤ (tget g.atomoDone n).getD 0 ||
      (g.itemsExited.contains n && (tget g.atomoMade n).getD 0 < m && g.atomoTurn m n)

/-- R134, R340: the item's next ordered atomic is applied at its target. DEDUCED, log 19; DEDUCED, log 30. -/
def execOrderedAtomicApply (grid item : Nat) (s : State) : Out :=
  match s.grid? grid with
  | none => .next s
  | some g =>
    let m := min ((tget g.atomoDone item).getD 0 + 1) 0xFFFFFFFF
    let cand := s.cores.filterMap fun x =>
      x.2.inflight.findSome? fun r =>
        match r.op with
        | .ordered i n _ _ _ _ _ _ =>
          if i == item && n == m && ((s.team? (r.wid / 32)).map (·.gid)) == some grid then some (x.1, r) else none
        | _ => none
    match cand.head? with
    | none => .next s
    | some (core, r) =>
      match s.firstReq core r.id with
      | none => .next s
      | some r =>
        match r.op with
        | .ordered _ _ lane op t addr v pend =>
          if !g.atomoTurn m item then .next s
          else
            let s := if r.sp == .mem then s.recall (some core) r.line else s
            let (old, s) := s.applyAtom op t ⟨r.sp, addr⟩ v
            let s := (s.dropL1 core r.sp addr (AType.bytes t)).reply r.wid pend lane (resultWords (AType.bytes t) old)
            let late := item != 0 && (tget g.atomoDone (item - 1)).getD 0 < m
            let s := if late then s.modWarp r.wid fun w => { w with qseal := cset w.qseal lane (cget w.qseal lane ||| 16) }
              else s
            let s := s.modGrid grid fun g => { g with atomoDone := tset g.atomoDone item m }
            .next (s.doneReq core r)
        | _ => .next s

/-! ## Reads and writes of the device itself -/

/-- The target of a byte of an address space, for the device's own accesses and for the fetches of a core (R433, R437). -/
def State.vloc (s : State) (core : Option Nat) (asid va : Nat) (acc : Acc) : Except Nat Loc :=
  if scratchWindow ≤ va then .error 5
  else if deviceWindow ≤ va then s.deviceLoc asid va acc
  else s.judge (s.translate core asid va acc)

/-- Bytes through an address space, from their targets: the bytes, or the `FTYPE` with the first faulting byte. A byte of
region 2 or of a doorbell word has a free value (DESIGN CHOICE, log 12). -/
def State.vpeek (s : State) (asid va n : Nat) : Except (Nat × Nat) (List Byte) :=
  (List.range n).foldr (fun i acc =>
    match s.vloc none asid (va + i) .read with
    | .error f => .error (f, va + i)
    | .ok x =>
      match acc with
      | .error e => .error e
      | .ok bs => .ok ((match x.sp with
        | .pcie => Config.freeByte (s.fresh + i)
        | .doorbell => if x.a % 16384 < 4 then Config.freeByte (s.fresh + i) else 0
        | _ => s.byte x.a) :: bs)) (.ok [])

/-- The lines of region 0 that a range of an address space touches are recalled. -/
def State.recallVa (s : State) (asid va n : Nat) : State :=
  (List.range (n / 128 + 2)).foldl (fun s i =>
    let a := min (va + 128 * i) (va + n - 1)
    match s.vloc none asid a .read with
    | .ok x => if x.sp == .mem then s.recall none (x.a / 128) else s
    | .error _ => s) s

/-- R438: the translations of a range's pages are cached. -/
def State.cacheVa (s : State) (core : Option Nat) (asid va n : Nat) : State :=
  (List.range (n / 2 ^ 14 + 2)).foldl (fun s i =>
    let a := min (va + 2 ^ 14 * i) (va + n - 1)
    if deviceWindow ≤ a then s else s.cacheTlb core asid a) s

/-- The range's translation leaves something open, or its bytes do. -/
def State.openVa (s : State) (asid va n : Nat) : Bool :=
  (List.range (n / 128 + 2)).any fun i =>
    let a := min (va + 128 * i) (va + n - 1)
    (a < deviceWindow && 1 < (s.found none asid a).length) ||
      match s.vloc none asid a .read with | .ok x => x.sp != .mem | .error _ => false

/-- A read by the device; a region-2 byte has a fresh free value (DESIGN CHOICE, log 12). -/
def State.vread (s : State) (asid va n : Nat) : Except (Nat × Nat) (List Byte) × State :=
  let s := s.recallVa asid va n
  let s' := s.cacheVa none asid va n
  (s.vpeek asid va n, if s.openVa asid va n then { s' with fresh := s.fresh + n } else s')

/-- A write by the device, performed at its targets; bytes that fault are not written. -/
def State.vwrite (s : State) (asid va : Nat) (bs : List Byte) : State :=
  let at_ := fun (i : Nat) => s.vloc none asid (va + i) .write
  let bells := ((List.range bs.length).zip bs).filterMap fun x => match at_ x.1 with
    | .ok y => if y.sp == .doorbell then some (y.a, x.2) else none
    | .error _ => none
  let s' := ((List.range bs.length).zip bs).foldl (fun s x =>
    match at_ x.1 with
    | .error _ => s
    | .ok y =>
      match y.sp with
      | .mem => (s.recall none (y.a / 128)).poke y.a x.2
      | .doorbell => s
      | _ => { s with pcieOut := s.pcieOut ++ [(y.a, [x.2])] }) (s.recallVa asid va bs.length)
  let s' := if bells.isEmpty then s' else s'.ringDoorbell bells
  let s' := s'.cacheVa none asid va bs.length
  if s.openVa asid va bs.length then { s' with fresh := s'.fresh + 1 } else s'

/-- A write of physical memory by the device. -/
def State.pwrite (s : State) (a : Nat) (bs : List Byte) : State :=
  let s := (List.range (bs.length / 128 + 2)).foldl (fun s i => s.recall none (min (a + 128 * i) (a + bs.length - 1) / 128)) s
  s.pokeBytes a bs

end Sys2Proof.Machine
end

