-- ==== Sys2Proof/Machine/Frames.lean ====
section
/-! DEFINITION. Frames and buckets (R221 to R226), the end of replay and the commit buffer (R128, R129). -/

namespace Sys2Proof.Machine

open Sys2Proof

/-! ## Frames (R221, R224, R226) -/

/-- R221: the buckets of a frame. -/
def Frame.buckets (f : Frame) : Nat := cdiv f.width 32 * cdiv f.height 32

/-- R224: a die's range of bucket indices. -/
def bucketRange (nb dies d : Nat) : Nat × Nat := (d * nb / dies, (d + 1) * nb / dies)

/-- R224: the frame as it opens for a grid. -/
def Frame.opened (f : Frame) (mask : List Nat) : Frame :=
  { f with
    disp := ((List.range mask.length).zip mask).foldl (fun t x =>
      let r := bucketRange f.buckets mask.length x.1
      tset t x.2 (r.1, r.2, [])) []
    held := [], doneCount := 0, lost := [] }

/-- R416, R420, R426: the notice of a completed frame goes to the handler queue of the queue that carried it. -/
def Frame.notice (f : Frame) (g : Grid) (gid : Nat) : HEvent :=
  { gridEvent g gid .frameDone 0 with hq := f.hq, pktId := f.pktId, qid := BitVec.ofNat 32 f.qid, pktIdx := f.pktIdx }

/-- R224, R226, R416: a complete frame stores its value and is reported; the next frame of the grid opens. Where the notice
cannot be held yet, that waits (R423). -/
def State.frameComplete (s : State) (gid : Nat) : State :=
  match s.grid? gid with
  | none => s
  | some g =>
    match g.frame with
    | none => s
    | some f =>
      if f.notify && !s.canReport then s
      else
      let s := if f.doneAddr = 0 then s else s.vwrite g.asid f.doneAddr (natBytes 8 f.doneValue.toNat)
      let s := if f.notify then s.report (f.notice g gid) else s
      let s := s.modGrid gid fun g =>
        { g with frame := g.frames.head?.map fun x => x.opened g.mask, frames := g.frames.tail }
      { s with queues := s.queues.map fun q =>
          (q.1, if q.1 = f.qid then { q.2 with frameGrids := q.2.frameGrids.erase gid } else q.2) }

/-- R226: a bucket is done. -/
def State.bucketDone (s : State) (gid : Nat) : State :=
  let s := s.modGrid gid fun g => { g with frame := g.frame.map fun f => { f with doneCount := f.doneCount + 1 } }
  match (s.grid? gid).bind (·.frame) with
  | some f => if f.buckets ≤ f.doneCount then s.frameComplete gid else s
  | none => s

/-- R423: frames that are complete and wait to be reported. -/
def State.settleFrames (s : State) : State :=
  (s.grids.filter fun g => g.2.st == .live && g.2.frame.any fun f => f.buckets ≤ f.doneCount).foldl (fun s g => s.frameComplete g.1) s

/-! ## The bucket dispensers (R225, R226) -/

def Frame.die (f : Frame) (d : Nat) : Nat × Nat × List Nat := (tget f.disp d).getD (0, 0, [])

/-- The unstarted buckets of a die. -/
def Frame.unstarted (f : Frame) (d : Nat) : Nat :=
  let (lo, hi, st) := f.die d
  st.length + (hi - lo)

def Frame.anyHeld (f : Frame) : Bool := f.held.any fun x => !x.2.isEmpty

/-- R225, rules 1 and 2. -/
def Frame.takeLocal (f : Frame) (d : Nat) : Option (Nat × Frame) :=
  match f.die d with
  | (lo, hi, b :: st) => some (b, { f with disp := tset f.disp d (lo, hi, st) })
  | (lo, hi, []) => if lo < hi then some (lo, { f with disp := tset f.disp d (lo + 1, hi, []) }) else none

/-- R225: the victim of a steal: the die with the most unstarted buckets, the lower socket first. -/
def Frame.victim (f : Frame) (mask : List Nat) : Option Nat :=
  let best := (mask.map f.unstarted).foldl max 0
  if best = 0 then none else mask.find? fun d => f.unstarted d == best

/-- R225: the bucket a `BKACQ` on a die takes: `none` while only the render core holds one; `some none` when nobody does.
DEDUCED, log 44. -/
def Frame.take (f : Frame) (mask : List Nat) (d : Nat) : Option (Option (Nat × Frame)) :=
  match f.takeLocal d with
  | some x => some (some x)
  | none =>
    match f.victim mask with
    | none => if f.anyHeld then none else some none
    | some v =>
      match f.die v with
      | (lo, hi, b :: st) => some (some (b, { f with disp := tset f.disp v (lo, hi, st) }))
      | (lo, hi, []) =>
        let n := hi - lo
        let mid := hi - cdiv n 2
        let disp := tset (tset f.disp v (lo, mid, [])) d (mid + 1, hi, [])
        some (some (mid, { f with disp := disp }))

/-- R225, R226: a bucket returns as unstarted to a die: on its stack, or to the render core when that is full. -/
def Frame.giveBack (f : Frame) (d b : Nat) : Frame :=
  let (lo, hi, st) := f.die d
  if st.length < 16 then { f with disp := tset f.disp d (lo, hi, b :: st) }
  else { f with held := tset f.held d (((tget f.held d).getD []) ++ [b]) }

/-- R225: the render core feeds a returned bucket back to a die's return stack. DEDUCED, log 44. -/
def Frame.refill (f : Frame) (d : Nat) : Frame :=
  match (tget f.held d).getD [] with
  | [] => f
  | b :: r =>
    let (lo, hi, st) := f.die d
    if st.length < 16 then { f with held := tset f.held d r, disp := tset f.disp d (lo, hi, b :: st) } else f

/-- R225: every open frame with a returned bucket for the die and room on its stack, unless the render core is held (R461).
DEDUCED, log 44; DEDUCED, log 84. -/
def execReturnStackRefill (die : Nat) (s : State) : Out :=
  .next <| if s.trust.held.contains 4 then s else { s with grids := s.grids.map fun g => (g.1, { g.2 with frame := g.2.frame.map (·.refill die) }) }

/-! ## The commit buffer (R128, R129) -/

/-- R128: the buffered bytes are written at once. -/
def State.commitBytes (s : State) (core : Nat) (l : List (Nat × BitVec 9)) : State :=
  let s := l.foldl (fun s x =>
    let y := commitLoc x.1
    match y.sp with
    | .mem =>
      let s := s.recall none (y.a / 128)
      (s.modCore core fun k => k.dropWords (y.a / 128) (laneBit (y.a % 128 / 4))).poke y.a (x.2.setWidth 8)
    | .pcie => { s with pcieOut := s.pcieOut ++ [(y.a, [x.2.setWidth 8])] }
    | _ => s.setLoc y (x.2.setWidth 8)) s
  s.ringDoorbell (l.filterMap fun x =>
    if (commitLoc x.1).sp == .doorbell then some ((commitLoc x.1).a, x.2.setWidth 8) else none)

/-- R128, R129: the buffer commits and the team is no longer replay-active; a bucket that waited for the commit is done. -/
def State.endReplay (s : State) (tid loss : Nat) : State :=
  match s.team? tid with
  | none => s
  | some t =>
    if !t.active then s
    else
      let s := (s.commitBytes t.core t.commit).setTeam tid
        { t with active := false, loss := loss, commit := [], bucketsPending := [] }
      t.bucketsPending.foldl (fun s _ => s.bucketDone t.gid) s

/-- R129: a team issues an operation that cannot be repeated. -/
def State.unrepeatable (s : State) (c : Ctx) : State := s.endReplay (c.wid / 32) 2

/-- R253: the lane whose item a lane carries: its own, or for a shader lane the tracing lane's. DEDUCED, log 35. -/
def State.itemLane (s : State) : Nat → Nat → Nat → Nat × Nat
  | 0, wid, l => (wid, l)
  | fuel + 1, wid, l =>
    match (s.team? (wid / 32)).map Team.kind with
    | some (TeamKind.shader trs) =>
      match (trs[l]?).bind fun id => tget s.traces id with
      | some t => s.itemLane fuel t.wid t.lane
      | none => (wid, l)
    | _ => (wid, l)

/-- R129: the first store of device memory by a shader lane ends the replay of the teams that invoked the shader.
DEDUCED, log 35. -/
def State.tracedStore (s : State) (c : Ctx) (lanes : Mask) : State :=
  match c.t.kind with
  | .shader _ => (lanesOf lanes).foldl (fun s l => s.endReplay ((s.itemLane 10 c.wid l).1 / 32) 2) s
  | _ => s

/-- R129: a release at `.clu` or wider. -/
def Scope.wide : Scope → Bool
  | .team => false
  | _ => true

end Sys2Proof.Machine
end

