-- ==== Sys2Proof/Machine/Memory.lean ====
section
/-! DEFINITION. Loads, stores, gallery, hall and spill accesses, atomics, reductions, gathers, fences and probes at issue
(R326 to R344, R161, R162, R176 to R182, R189, R199, R200). -/

namespace Sys2Proof.Machine

open Sys2Proof

/-! ## Addresses and data (R326, R327) -/

/-- R326: the global address of a lane. -/
def State.gaddr (s : State) (c : Ctx) (f : Fmt) (off : BitVec 20) (l : Nat) : Nat :=
  (s.src64 c 0 f.a l + off.signExtend 64).toNat

/-- R326: the exact offset of a lane. -/
def State.soff (s : State) (c : Ctx) (f : Fmt) (off : BitVec 20) (l : Nat) : Int :=
  (s.src c 0 (.int 32) f.a l).toNat + off.toInt

def Size.bytes : Size → Nat
  | .s8 | .n8 => 1
  | .s16 | .n16 => 2
  | .w32 => 4
  | .w64 => 8

def Size.signed : Size → Bool
  | .s8 | .s16 => true
  | _ => false

/-- R14: the lanes that access: one for a uniform destination. -/
def accessLanes (d : Dst) (on : Mask) : List Nat := if d.isUni then (lanesOf on).take 1 else lanesOf on

/-- R327: the first lane whose address is not aligned. -/
def firstBad (l : List (Nat × Int)) (bad : Int → Bool) : Option Int := (l.find? fun x => bad x.2).map (·.2)

/-- R329: the words a loaded value of `n` bytes is written as. -/
def loadWords (n : Nat) (signed : Bool) (bs : List Byte) : List W32 :=
  let v := leNat bs
  if n = 8 then words2 (w64 v)
  else if signed then [ofInt 32 (sext v (8 * n))]
  else [BitVec.ofNat 32 v]

/-- R28, R330: how a stored value is negated. -/
def Size.ty (z : Size) : Ty := .int (8 * min (Size.bytes z) 4)

/-- R330: the low bytes of source B. -/
def State.storeBytes (s : State) (c : Ctx) (f : Fmt) (z : Size) (l : Nat) : List Byte :=
  if z.is64 then natBytes 8 (s.src64 c 0 f.b l).toNat
  else
    let v := s.srcRaw c 0 f.b l
    natBytes (Size.bytes z) (if f.b.negated then negate (.int 32) v else v).toNat

/-- R336: source B of an atomic by its type. -/
def State.atomOperand (s : State) (c : Ctx) (x : Src) (t : AType) (l : Nat) : W64 :=
  match t with
  | .n64 => s.src64 c 0 x l
  | .f32 => (s.src c 0 (.flt 32) x l).setWidth 64
  | _ => (s.src c 0 (.int 32) x l).setWidth 64

/-! ## Completion with parked lanes (R167) -/

/-- The lanes that did not fault complete with the effect `w` holds; the others park. `all` are the lanes of an access made
once, which park together. -/
def State.complete (s : State) (c : Ctx) (f : Fmt) (on : Mask) (w : Warp) (fs : List LaneFault) (kind engine : Nat)
    (all : Mask) : State :=
  if fs.isEmpty then s.finish c f on c.lanes w
  else
    let bad := all ||| maskOf (fs.map (·.lane))
    let s := s.finish c f (on &&& ~~~bad) (c.lanes &&& ~~~bad) w
    s.parkLanes c ((s.warp? c.wid).getD w) kind engine fs all

/-- The mask of the lanes of a list of targets. -/
def laneMask (l : List LaneLoc) : Mask := maskOf (l.map (·.lane))

/-- An entry joins the warp's store queue (R177); `vas` holds the lanes' virtual addresses. -/
def Warp.enqueue (w : Warp) (k : SqKind) (release : Bool) (sc : Scope) (pc : W64) (lanes : Mask) (vas : Tbl Nat := []) : Warp :=
  let e : SqEnt := { seq := w.nextSeq, kind := k, release := release, scope := sc, pc := pc, lanes := lanes, vas := vas,
                     emu := w.emu.inside && lanes &&& w.emu.lanes != 0 }
  { w with sq := w.sq ++ [e], nextSeq := w.nextSeq + 1 }

/-! ## Loads (R329, R331, R332) -/

/-- The lines of region 0 and of the spill areas, with the words of each byte, that are not all in the team's buffer. -/
def State.neededWords (s : State) (tid : Nat) (l : List (Loc × Nat)) : List (Nat × Nat) :=
  (l.flatMap fun x => (List.range x.2).map fun i => ({ x.1 with a := x.1.a + i } : Loc)).filterMap fun x =>
    if x.sp.homed && (((s.team? tid).bind fun t => t.buffered x).isNone) then some (x.line, x.word) else none

/-- R148, R152: a load finds every word it needs in the core's cache, and no memory request is made. -/
def State.servedHere (s : State) (tid core : Nat) (cst : Bool) (n : Nat) (x : Loc) : Bool :=
  let k := s.core core
  (s.neededWords tid [(x, n)]).all fun y =>
    if cst then ((tget k.ccache y.1).map (·.1.getLsbD y.2)).getD false else k.wordValid y.1 y.2

/-- A load of `n` bytes per accessing lane through translated addresses. `once` parks every on lane on a fault. -/
def State.loadAt (s : State) (c : Ctx) (f : Fmt) (off : BitVec 20) (on : Mask) (lanes : List Nat) (n : Nat) (cst : Bool)
    (once : Bool) (kind : List LaneLoc → PendKind) (acq target : Bool) : State :=
  let addrs := lanes.map fun l => (l, s.gaddr c f off l)
  match firstBad (addrs.map fun x => (x.1, (x.2 : Int))) (· % n != 0) with
  | some a => s.stop c .memAlign (ofInt 64 a)
  | none =>
    let served := fun (x : Loc) => !target && s.servedHere c.w.tid c.t.core cst n x
    let (rs, s) := s.locateEach c (!cst) .read served addrs
    let fs := faultsOf rs
    let ok := if once && !fs.isEmpty then [] else targetsOf rs
    let m := if once then on else laneMask ok
    let p := { Pend.new (kind ok) 0 m f.d (if n = 8 then 2 else 1) c.pc with acquire := acq, fromTarget := target,
                                                                                                vas := addrs }
    let w := if ok.isEmpty then c.w else c.w.reserve p (!f.d.isUni)
    s.complete c f on w fs 1 0 (if once && !fs.isEmpty then on else 0)

/-- R335: the offset of a spill access is outside the area. -/
def Ctx.spillFault (c : Ctx) (l : Nat) (o : Int) : Option LaneFault :=
  if o < 0 || (c.g.rec_.spillBytes : Int) ≤ o then some ⟨l, (ofInt 64 o).toNat, 5⟩ else none

/-- R199: the bytes that the forwarding table holds for a lane, where it holds them all. -/
def Warp.forwarded (w : Warp) (l o n : Nat) : Option (List Byte) :=
  let byte := fun (i : Nat) => w.fwd.findSome? fun e =>
    if e.1 ≤ o + i then (tget e.2 l).bind fun bs => bs[o + i - e.1]? else none
  let bs := (List.range n).filterMap byte
  if bs.length = n then some bs else none

/-- R149, R335: the target of a lane's spill access. -/
def Ctx.spillLoc (c : Ctx) (l o : Nat) : Loc := ⟨.spill, spillKey c.wid l o⟩

/-- R335, R199: a spill load: served from the forwarding table where it holds the bytes, otherwise through the L1. -/
def State.spillLoad (s : State) (c : Ctx) (f : Fmt) (off : BitVec 20) (on : Mask) (n : Nat) (signed : Bool) : State :=
  let offs := (accessLanes f.d on).map fun l => (l, s.soff c f off l)
  match firstBad offs (· % n != 0) with
  | some a => s.stop c .memAlign (ofInt 64 a)
  | none =>
    let fault := fun (x : Nat × Int) => match c.spillFault x.1 x.2 with
      | some y => some y
      | none =>
        let loc := c.spillLoc x.1 x.2.toNat
        if (c.w.forwarded x.1 x.2.toNat n).isNone && !s.servedHere c.w.tid c.t.core false n loc && s.lineBad loc.line
        then some ⟨x.1, x.2.toNat, 3⟩ else none
    let fs := offs.filterMap fault
    let ok := offs.filter fun x => (fault x).isNone
    let m := maskOf (ok.map (·.1))
    let far := ok.filter fun x => (c.w.forwarded x.1 x.2.toNat n).isNone
    let at_ := far.map fun x => (⟨x.1, c.spillLoc x.1 x.2.toNat⟩ : LaneLoc)
    let got := ok.filterMap fun x => (c.w.forwarded x.1 x.2.toNat n).map fun bs => (x.1, loadWords n signed bs)
    let p := { Pend.new (.load at_ n signed f.d.isUni) 0 m f.d (if n = 8 then 2 else 1) c.pc with
               got := got, vas := ok.map fun x => (x.1, x.2.toNat) }
    let w := if ok.isEmpty then c.w else c.w.reserve p (!f.d.isUni)
    s.complete c f on w fs 1 0 (if f.d.isUni && !fs.isEmpty then on else 0)

/-- R199: the entry of a spill store joins the forwarding table; the ninth displaces the oldest. -/
def Warp.forward (w : Warp) (l : List (Nat × Nat × List Byte)) : Warp :=
  let offs := (l.map (·.2.1)).foldl (fun acc o => if acc.contains o then acc else acc ++ [o]) []
  { w with fwd := (offs.foldl (fun t o =>
      (o, (l.filter (·.2.1 == o)).map fun x => (x.1, x.2.2)) :: t) w.fwd).take 8 }

/-- R335, R199: a spill store. -/
def State.spillStore (s : State) (c : Ctx) (f : Fmt) (off : BitVec 20) (on : Mask) (n : Nat) (bytes : Nat → List Byte) :
    State :=
  let offs := (lanesOf on).map fun l => (l, s.soff c f off l)
  match firstBad offs (· % n != 0) with
  | some a => s.stop c .memAlign (ofInt 64 a)
  | none =>
    let fault := fun (x : Nat × Int) => match c.spillFault x.1 x.2 with
      | some y => some y
      | none => if s.lineBad (c.spillLoc x.1 x.2.toNat).line then some ⟨x.1, x.2.toNat, 3⟩ else none
    let fs := offs.filterMap fault
    let ok := offs.filter fun x => (fault x).isNone
    let w := c.w.forward (ok.map fun x => (x.1, x.2.toNat, bytes x.1))
    let e := ok.map fun x => ((⟨x.1, c.spillLoc x.1 x.2.toNat⟩ : LaneLoc), bytes x.1)
    let w := if ok.isEmpty then c.w
      else w.enqueue (.store e) false .team c.pc (maskOf (ok.map (·.1))) (ok.map fun x => (x.1, x.2.toNat))
    s.complete c f on w fs 2 0 0

/-- R329. -/
def execLd (f : Fmt) (size : Size) (space : Space) (ord : Ord) (scope : Scope) (off : BitVec 20) (s : State) : Out :=
  s.run (.ld f size space ord scope off) fun c on =>
    let n := Size.bytes size
    let sg := Size.signed size
    let u := f.d.isUni
    if on = 0 then s.finish c f on c.lanes c.w
    else
      match space with
      | .glb => s.loadAt c f off on (accessLanes f.d on) n false u (fun l => .load l n sg u)
          (ord == .acq && Scope.wide scope) (Scope.wide scope)
      | .cst => s.loadAt c f off on (accessLanes f.d on) n true u (fun l => .constLoad l n sg u) false false
      | .spl => s.spillLoad c f off on n sg

/-- R331. -/
def execLdc (f : Fmt) (wide : Bool) (off : BitVec 20) (s : State) : Out :=
  s.run (.ldc f wide off) fun c on =>
    let n := if wide then 8 else 4
    if on = 0 then s.finish c f on c.lanes c.w
    else s.loadAt c f off on [lowest on] n true true (fun l => .constLoad l n false true) false false

/-- R332: no architectural effect. -/
def execPrf (f : Fmt) (l2 : Bool) (off : BitVec 20) (s : State) : Out :=
  s.run (.prf f l2 off) fun c on => s.finish c f on c.lanes c.w

/-- R335. -/
def execFil (f : Fmt) (off : BitVec 20) (s : State) : Out :=
  s.run (.fil f off) fun c on =>
    if on = 0 then s.finish c f on c.lanes c.w else s.spillLoad c f off on 4 false

/-! ## Stores (R330) -/

/-- A store through translated addresses. -/
def State.storeAt (s : State) (c : Ctx) (f : Fmt) (off : BitVec 20) (on : Mask) (n : Nat) (bytes : Nat → List Byte)
    (release : Bool) (sc : Scope) : State :=
  let addrs := (lanesOf on).map fun l => (l, s.gaddr c f off l)
  match firstBad (addrs.map fun x => (x.1, (x.2 : Int))) (· % n != 0) with
  | some a => s.stop c .memAlign (ofInt 64 a)
  | none =>
    let s := if release && Scope.wide sc then s.unrepeatable c else s
    let (rs, s) := s.locateAll c true .write addrs
    let fs := faultsOf rs
    let ok := targetsOf rs
    let s := if ok.any (·.loc.sp == .mem) then s.tracedStore c (laneMask ok) else s
    let w := if ok.isEmpty then c.w
      else c.w.enqueue (.store (ok.map fun x => (x, bytes x.lane))) release sc c.pc (laneMask ok) addrs
    s.complete c f on w fs 2 0 0

/-- R330. -/
def execSt (f : Fmt) (size : Size) (space : Space) (ord : Ord) (scope : Scope) (off : BitVec 20) (s : State) : Out :=
  s.run (.st f size space ord scope off) fun c on =>
    let n := Size.bytes size
    if on = 0 then s.finish c f on c.lanes c.w
    else
      match space with
      | .spl => s.spillStore c f off on n (s.storeBytes c f size)
      | _ => s.storeAt c f off on n (s.storeBytes c f size) (ord == .rel) scope

/-- R335. -/
def execSpl (f : Fmt) (off : BitVec 20) (s : State) : Out :=
  s.run (.spl f off) fun c on =>
    if on = 0 then s.finish c f on c.lanes c.w
    else s.spillStore c f off on 4 fun l => bytes4 (s.src c 0 .raw f.b l)

/-! ## Gallery (R161, R162, R333) -/

def Elem.bits : Elem → Nat
  | .e32 => 32
  | .e16 => 16
  | .e8 => 8
  | .e4 => 4

/-- R162: where the elements of a lane's word lie: word offset and bit of each. -/
def galElems (col : Bool) (e off : Nat) : List (Nat × Nat) :=
  let n := 32 / e
  (List.range n).map fun i =>
    if col then
      let o := off % (4096 * n)
      let cc := o / 128
      let row := n * (o % 128 / 4) + i
      (off - o + 128 * row + 4 * (cc / n), e * (cc % n))
    else (off, e * i)

/-- A word of the gallery. -/
def Team.galWord (t : Team) (o : Nat) : W32 := BitVec.ofNat 32 (leNat ((List.range 4).map fun i => t.galByte (o + i)))

def Team.setGalWord (t : Team) (o : Nat) (v : W32) : Team :=
  ((List.range 4).zip (bytes4 v)).foldl (fun t x => t.setGal (o + x.1) x.2) t

/-- R162: the word a lane reads. -/
def Team.galRead (t : Team) (col : Bool) (e off : Nat) : W32 :=
  putAll e ((galElems col e off).map fun x => (t.galWord x.1).toNat / 2 ^ x.2 % 2 ^ e)

/-- R162: the word a lane writes. -/
def Team.galWrite (t : Team) (col : Bool) (e off : Nat) (v : W32) : Team :=
  ((List.range (32 / e)).zip (galElems col e off)).foldl (fun t x =>
    let m : W32 := BitVec.ofNat 32 ((2 ^ e - 1) * 2 ^ x.2.2)
    let new : W32 := BitVec.ofNat 32 (el v e x.1 * 2 ^ x.2.2)
    t.setGalWord x.2.1 ((t.galWord x.2.1 &&& ~~~m) ||| new)) t

/-- R161, R333: the check of the on lanes' offsets: the cause and the offset that breaks it. -/
def galCheck (bytes : Nat) (col : Bool) (e : Nat) (offs : List (Nat × Int)) : Option (Cause × Int) :=
  match firstBad offs (· % 4 != 0) with
  | some a => some (.galAlign, a)
  | none =>
    match firstBad offs fun o => o < 0 || (galElems col e o.toNat).any fun x => bytes < x.1 + 4 with
    | some a => some (.galRange, a)
    | none => none

/-- R333. -/
def execLdg (f : Fmt) (col : Bool) (e : Elem) (off : BitVec 20) (s : State) : Out :=
  s.run (.ldg f col e off) fun c on =>
    let offs := (accessLanes f.d on).map fun l => (l, s.soff c f off l)
    match galCheck c.g.rec_.gallery col (Elem.bits e) offs with
    | some (k, a) => s.stop c k (ofInt 64 a)
    | none =>
      let at_ := offs.map fun x => (⟨x.1, ⟨.gallery, galKey c.w.tid x.2.toNat⟩⟩ : LaneLoc)
      let p := Pend.new (.gather at_ col (Elem.bits e)) 0 on f.d 1 c.pc
      s.finish c f on c.lanes (if on = 0 then c.w else c.w.reserve p (!f.d.isUni))

/-- R333. -/
def execStg (f : Fmt) (col : Bool) (e : Elem) (off : BitVec 20) (s : State) : Out :=
  s.run (.stg f col e off) fun c on =>
    let offs := (lanesOf on).map fun l => (l, s.soff c f off l)
    match galCheck c.g.rec_.gallery col (Elem.bits e) offs with
    | some (k, a) => s.stop c k (ofInt 64 a)
    | none =>
      let ws := offs.map fun x =>
        ((⟨x.1, ⟨.gallery, galKey c.w.tid x.2.toNat⟩⟩ : LaneLoc), s.src c 0 .raw f.b x.1)
      s.finish c f on c.lanes (if on = 0 then c.w
        else c.w.enqueue (.scatter ws col (Elem.bits e)) false .team c.pc on)

/-! ## The hall (R158, R228, R334) -/

/-- R334: the checks of a hall access of `n` bytes, before any lane acts. -/
def Ctx.hallCheck (c : Ctx) (n : Nat) (store : Bool) (offs : List (Nat × Int)) : Option (Cause × Int) :=
  if offs.isEmpty then none
  else if c.t.hall.isNone then some (.hallNone, 0)
  else
    match firstBad offs (· % n != 0) with
    | some a => some (.memAlign, a)
    | none =>
      match firstBad offs fun o => o < 0 || 0x600000 ≤ o with
      | some a => some (.hallRange, a)
      | none =>
        match firstBad offs fun o => store && o < 0x14000 with
        | some a => some (.hallRo, a)
        | none => none

def Ctx.hallLoc (c : Ctx) (o : Nat) : Loc := ⟨.hall, hallKey (socketOf c.t.core) (c.t.hall.getD 0) o⟩

/-- R334. -/
def execLdh (f : Fmt) (size : Size) (off : BitVec 20) (s : State) : Out :=
  s.run (.ldh f size off) fun c on =>
    let n := Size.bytes size
    let offs := (accessLanes f.d on).map fun l => (l, s.soff c f off l)
    match c.hallCheck n false offs with
    | some (k, a) => s.stop c k (ofInt 64 a)
    | none =>
      let at_ := offs.map fun x => (⟨x.1, c.hallLoc x.2.toNat⟩ : LaneLoc)
      let p := Pend.new (.load at_ n (Size.signed size) f.d.isUni) 0 on f.d (if n = 8 then 2 else 1) c.pc
      s.finish c f on c.lanes (if on = 0 then c.w else c.w.reserve p (!f.d.isUni))

/-- R334. -/
def execSth (f : Fmt) (size : Size) (off : BitVec 20) (s : State) : Out :=
  s.run (.sth f size off) fun c on =>
    let offs := (lanesOf on).map fun l => (l, s.soff c f off l)
    match c.hallCheck (Size.bytes size) true offs with
    | some (k, a) => s.stop c k (ofInt 64 a)
    | none =>
      let bs := offs.map fun x => ((⟨x.1, c.hallLoc x.2.toNat⟩ : LaneLoc), s.storeBytes c f size x.1)
      s.finish c f on c.lanes (if on = 0 then c.w else c.w.enqueue (.store bs) false .team c.pc on)

/-! ## Atomics, reductions and gathers (R336 to R341) -/

/-- A read-modify-write or gather: alignment, the end of replay, translation; `k` gives the warp with its entry for the
lanes that did not fault. -/
def State.atomAt (s : State) (c : Ctx) (f : Fmt) (off : BitVec 20) (on : Mask) (n kind : Nat) (acc : Acc) (ends : Bool)
    (k : Warp → List LaneLoc → Tbl Nat → Warp) : State :=
  if on = 0 then s.finish c f on c.lanes c.w
  else
    let addrs := (lanesOf on).map fun l => (l, s.gaddr c f off l)
    match firstBad (addrs.map fun x => (x.1, (x.2 : Int))) (· % n != 0) with
    | some a => s.stop c .memAlign (ofInt 64 a)
    | none =>
      let s := if ends then s.unrepeatable c else s
      let (rs, s) := s.locateAll c true acc addrs
      let rs := rs.map fun x => (x.1, x.2.1, noPcie x.2.2)
      let fs := faultsOf rs
      let ok := targetsOf rs
      let s := if ends && ok.any (·.loc.sp == .mem) then s.tracedStore c (laneMask ok) else s
      s.complete c f on (if ok.isEmpty then c.w else k c.w ok addrs) fs kind 0 0

/-- The pending result of an operation at its target. -/
def Warp.reserveReply (w : Warp) (lanes : List LaneLoc) (d : Dst) (words : Nat) (pc : W64) (acq : Bool) : Warp :=
  w.reserve { Pend.new (.reply (lanes.map (·.lane))) 0 (laneMask lanes) d words pc with acquire := acq } true

def Ord.releases : Ord → Bool
  | .rel | .ar => true
  | _ => false

def Ord.acquires : Ord → Bool
  | .acq | .ar => true
  | _ => false

/-- R336. -/
def execAtom (f : Fmt) (op : AOp) (t : AType) (ord : Ord) (scope : Scope) (off : BitVec 20) (s : State) : Out :=
  s.run (.atom f op t ord scope off) fun c on =>
    let n := AType.bytes t
    s.atomAt c f off on n 3 .write true fun w ok vas =>
      let seq := w.nextSeq
      (w.reserveReply ok f.d (n / 4) c.pc (Ord.acquires ord && Scope.wide scope)).enqueue
        (.atom op t (ok.map fun x => (x, s.atomOperand c f.b t x.lane)) seq) (Ord.releases ord) scope c.pc (laneMask ok) vas

/-- R338. -/
def execCas (f : Fmt) (wide : Bool) (ord : Ord) (scope : Scope) (off : BitVec 20) (s : State) : Out :=
  s.run (.cas f wide ord scope off) fun c on =>
    let n := if wide then 8 else 4
    let v := fun (x : Src) (l : Nat) => if wide then s.src64 c 0 x l else (s.src c 0 .raw x l).setWidth 64
    s.atomAt c f off on n 3 .write true fun w ok vas =>
      let seq := w.nextSeq
      (w.reserveReply ok f.d (n / 4) c.pc (Ord.acquires ord && Scope.wide scope)).enqueue
        (.cas wide (ok.map fun x => (x, v f.b x.lane, v f.c x.lane)) seq) (Ord.releases ord) scope c.pc (laneMask ok) vas

/-- R339. -/
def execRed (f : Fmt) (op : AOp) (t : AType) (rel : Bool) (scope : Scope) (off : BitVec 20) (s : State) : Out :=
  s.run (.red f op t rel scope off) fun c on =>
    s.atomAt c f off on (AType.bytes t) 3 .write true fun w ok vas =>
      w.enqueue (.red op t (ok.map fun x => (x, s.atomOperand c f.b t x.lane)) (rel && Scope.wide scope)) rel scope c.pc
        (laneMask ok) vas

/-- R328, R340: the ordinal the item's next `ATOMO` takes. -/
def State.nextOrdinal (s : State) (c : Ctx) (l : Nat) : Nat :=
  let (wid, l) := s.itemLane 10 c.wid l
  let n := match s.warp? wid with | some w => (cget w.atomo l).toNat | none => 0
  min (n + 1) 0xFFFFFFFF

/-- R340: lanes that complete an `ATOMO` have counted it. -/
def State.countAtomo (s : State) (c : Ctx) (lanes : Mask) : State :=
  (lanesOf lanes).foldl (fun s l =>
    let (wid, l) := s.itemLane 10 c.wid l
    s.modWarp wid fun w =>
      { w with atomo := cset w.atomo l (BitVec.ofNat 32 (min ((cget w.atomo l).toNat + 1) 0xFFFFFFFF)) }) s

/-- R340; in a node team it acts as `RED` (R136). A lane's ordinal rises when the word has issued. -/
def execAtomo (f : Fmt) (op : AOp) (t : AType) (scope : Scope) (off : BitVec 20) (s : State) : Out :=
  s.run (.atomo f op t scope off) fun c on =>
    let n := AType.bytes t
    match c.t.kind with
    | .node _ _ _ =>
      s.atomAt c f off on n 3 .write true fun w ok vas =>
        w.enqueue (.red op t (ok.map fun x => (x, s.atomOperand c f.b t x.lane)) false) false .team c.pc (laneMask ok) vas
    | _ =>
      let s' := s.atomAt c f off on n 3 .write true fun w ok vas =>
        let seq := w.nextSeq
        (w.reserveReply ok f.d (n / 4) c.pc false).enqueue
          (.atomo op t (ok.map fun x =>
            (x, s.atomOperand c f.b t x.lane, (s.item c x.lane).toNat, s.nextOrdinal c x.lane)) seq)
          false .team c.pc (laneMask ok) vas
      match s'.warp? c.wid with
      | none => s'
      | some w => if w.issues = c.w.issues then s' else s'.countAtomo c (on &&& ~~~w.parked &&& ~~~w.stopped)

/-- R341. -/
def execLdx (f : Fmt) (scope : Scope) (off : BitVec 20) (s : State) : Out :=
  s.run (.ldx f scope off) fun c on =>
    s.atomAt c f off on 128 1 .read false fun w ok vas =>
      let seq := w.nextSeq
      (w.reserveReply ok f.d 4 c.pc false).enqueue
        (.ldx (ok.map fun x => (x, s.src c 0 (.int 8) f.b x.lane)) seq) false .team c.pc (laneMask ok) vas

/-! ## Fences and probes (R182, R189, R200, R342 to R344) -/

/-- The acquire side of a fence: it waits for every earlier load, and for the earlier entries of the store queue where
`after` says so. -/
def Warp.fenceAcq (w : Warp) (inval after : Bool) (cls : Nat) (pc : W64) : Warp :=
  w.reserve (Pend.new (.fence inval after cls) 3 0 (.vec 0) 0 pc) false

/-- R182. -/
def execFence (f : Fmt) (ord : Ord) (scope : Scope) (s : State) : Out :=
  s.run (.fence f ord scope) fun c on =>
    if on = 0 then s.finish c f on c.lanes c.w
    else
      let s := if Scope.wide scope then s.unrepeatable c else s
      let w := if Ord.releases ord then c.w.enqueue .fence true scope c.pc on else c.w
      let w := if Ord.acquires ord then w.fenceAcq (Scope.wide scope) (Ord.releases ord) 0 c.pc else w
      s.finish c f on c.lanes w

/-- R189: the class a number acts as. -/
def fenceClass (x : BitVec 3) : Nat := if x = 3 || x = 6 then 0 else x.toNat

/-- R189: the scope of a fence that names class 6. -/
def fenceScope (sc : Scope) (a b : BitVec 3) : Scope :=
  if a = 6 || b = 6 then
    match sc with
    | .team | .clu | .die | .dev => .app
    | x => x
  else sc

/-- R189, R343: when both classes are 0 or 3 it acts as `FENCE.ar`, and the L1 is invalidated at every scope. -/
def execFencex (f : Fmt) (scope : Scope) (a b : BitVec 3) (s : State) : Out :=
  s.run (.fencex f scope a b) fun c on =>
    if on = 0 then s.finish c f on c.lanes c.w
    else
      let sc := fenceScope scope a b
      let s := if Scope.wide sc then s.unrepeatable c else s
      let w := if fenceClass a = 0 then c.w.enqueue .fence true sc c.pc on else c.w
      let w := w.fenceAcq (fenceClass b = 0) (fenceClass a = 0) (fenceClass b) c.pc
      s.finish c f on c.lanes w

/-- R200: the sockets in service. -/
def State.probeTargets (s : State) : List Nat :=
  0 :: (sockets.filter fun d => (s.die d).inService) ++
    ((List.range 6).filter fun d => s.mg.mdMask / 2 ^ d % 2 = 1).map (7 + ·)

/-- R200, R344: the probes go out once the warp's queue is empty; the instruction completes when all have returned. -/
def execProbe (f : Fmt) (vcs : BitVec 7) (s : State) : Out :=
  s.run (.probe f vcs) fun c on =>
    if on = 0 then s.finish c f on c.lanes c.w
    else
      match c.w.probe.find? (·.pc == c.pc) with
      | none =>
        if !c.w.sq.isEmpty then s
        else
          let vs := (List.range 7).filter fun v => vcs.getLsbD v
          let s := s.unrepeatable c
          s.setWarp c.wid { c.w with probe :=
            c.w.probe ++ [⟨c.pc, vs.flatMap fun v => s.probeTargets.map fun d => (v, d), s.nextId⟩] }
      | some x =>
        if x.left.isEmpty then s.finish c f on c.lanes { c.w with probe := c.w.probe.filter (·.pc != c.pc) } else s

end Sys2Proof.Machine
end

