-- ==== Sys2Proof/Machine/Patch.lean ====
section
/-! DEFINITION. Patch records and their bounds (R231, R232, R374), and the rounding of the render engines (R233, R243). -/

namespace Sys2Proof.Machine

open Sys2Proof

/-! ## Records -/

/-- A word of a record. -/
def wordOf (bs : List Byte) (o : Nat) : W32 := BitVec.ofNat 32 (field bs o 4)

/-- An fp32 of a record. -/
def fltOf (bs : List Byte) (o : Nat) : FV := f32 (wordOf bs o)

/-- R233 `rne32` of a value. -/
def rneF (x : FV) : W32 := BitVec.ofNat 32 (convertF FF.fp32 x .rne true).1

/-- A value rounded once to fp32. -/
def rneV (x : FV) : FV := f32 (rneF x)

/-- R243: the code of an fp16 field. -/
def rne16 (x : FV) : Nat := (convertF FF.fp16 x .rne true).1

/-- An exact number as a value. -/
def qv (q : Q) : FV := .fin (q.num < 0) q.abs

/-! ## Bounds (R231, R232, R374) -/

/-- R231: coordinate `c` of control point `k` at shutter open or close. -/
def ptFlt (bs : List Byte) (close : Bool) (k c : Nat) : FV := fltOf bs ((if close then 192 else 0) + 12 * k + 4 * c)

/-- Its exact value. -/
def ptOf (bs : List Byte) (close : Bool) (k c : Nat) : Q := (ptFlt bs close k c).val

/-- R234: every control-point coordinate is finite. -/
def patchFinite (bs : List Byte) : Bool := (List.range 96).all fun i => (fltOf bs (4 * i)).isFin

/-- R232: a bound. -/
inductive Bound where
  | empty
  | plane
  | box (xlo xhi ylo yhi : Int)
  deriving DecidableEq, Repr

/-- The least and greatest of some numbers. -/
def minMax (l : List Q) : Q × Q := (l.foldl Q.min (l.headD Q.zero), l.foldl Q.max (l.headD Q.zero))

/-- R232. -/
def boundPatch (znear lensA lensB : W32) (bs : List Byte) : Bound :=
  let d := fltOf bs 408
  let co := fun (c : Nat) => (List.range 16).flatMap fun k => [ptOf bs false k c, ptOf bs true k c]
  if !patchFinite bs || d.isNaN || (d.isNeg && !d.isZero) then .plane
  else
    let (xlo, xhi) := minMax (co 0)
    let (ylo, yhi) := minMax (co 1)
    let (zlo, zhi) := minMax (co 2)
    let zn := (f32 znear).val
    let la := (f32 lensA).val
    let lb := (f32 lensB).val
    if zhi.le zn then .empty
    else if zlo.le zn || d.isInf then .plane
    else
      let c := (Q.max ((la.div zlo).add lb).abs ((la.div zhi).add lb).abs).add d.val
      .box (xlo.sub c).floor (xhi.add c).ceil (ylo.sub c).floor (yhi.add c).ceil

/-- R374: the words of a bound. -/
def Bound.words : Bound → List W32
  | .empty => [0x7FFFFFFF, 0x80000000, 0x7FFFFFFF, 0x80000000]
  | .plane => [0x80000000, 0x7FFFFFFF, 0x80000000, 0x7FFFFFFF]
  | .box a b c d => [a, b, c, d].map fun x => ofInt 32 (clampTo (-(2 ^ 31)) (2 ^ 31 - 1) x).1

/-- R232: a bound meets the apron of bucket (bx, by). -/
def Bound.meets (b : Bound) (bx by_ : Nat) : Bool :=
  match b with
  | .empty => false
  | .plane => true
  | .box xlo xhi ylo yhi =>
    xlo ≤ 32 * bx + 32 && 32 * (bx : Int) - 1 ≤ xhi && ylo ≤ 32 * by_ + 32 && 32 * (by_ : Int) - 1 ≤ yhi

end Sys2Proof.Machine
end

