-- ==== Sys2Proof/Machine/Flow.lean ====
section
/-! DEFINITION. Results and store queues in motion: LOAD_RESULT_WRITE, STORE_QUEUE_DEPART, MERGING_FILL_RETURN, L1_EVICTION and
ICACHE_FILL (R49, R50, R78, R148, R151 to R155, R175 to R182). -/

namespace Sys2Proof.Machine

open Sys2Proof

/-! ## The order of loads (R177, R178) -/

/-- A pending result that takes its turn in the order of the warp's loads. -/
def PendKind.ordered : PendKind → Bool
  | .load _ _ _ _ | .gather _ _ _ | .constLoad _ _ _ _ | .reply _ | .fence _ _ _ => true
  | _ => false

/-- A pending result that a later store waits for (R177). -/
def PendKind.holdsStores : PendKind → Bool
  | .load _ _ _ _ | .gather _ _ _ | .constLoad _ _ _ _ | .fence _ _ _ => true
  | _ => false

/-- The bytes an access reads: locations with their lengths; a gallery word read by element has several words. -/
def PendKind.reads : PendKind → List (Loc × Nat)
  | .load l n _ _ | .constLoad l n _ _ => l.map fun x => (x.loc, n)
  | .gather l col e => l.flatMap fun x =>
      (galElems col e (x.loc.a % 2 ^ 20)).map fun y => (⟨.gallery, x.loc.a / 2 ^ 20 * 2 ^ 20 + y.1⟩, 4)
  | .pattern l => l.map fun x => (x.loc, 16)
  | _ => []

/-- The bytes an entry of the store queue touches. -/
def SqKind.touches : SqKind → List (Loc × Nat)
  | .store l => l.map fun x => (x.1.loc, x.2.length)
  | .scatter l col e => l.flatMap fun x =>
      (galElems col e (x.1.loc.a % 2 ^ 20)).map fun y => (⟨.gallery, x.1.loc.a / 2 ^ 20 * 2 ^ 20 + y.1⟩, 4)
  | .red _ t l _ => l.map fun x => (x.1.loc, AType.bytes t)
  | .atom _ t l _ => l.map fun x => (x.1.loc, AType.bytes t)
  | .cas w l _ => l.map fun x => (x.1.loc, if w then 8 else 4)
  | .ldx _ _ => []
  | .atomo _ t l _ => l.map fun x => (x.1.loc, AType.bytes t)
  | .fence => []

/-- R178: two accesses share a byte. -/
def overlap (a b : List (Loc × Nat)) : Bool :=
  a.any fun x => b.any fun y => x.1.sp == y.1.sp && x.1.a < y.1.a + y.2 && y.1.a < x.1.a + x.2

/-! ## Load results (R152, R176 to R181) -/

/-- A result with all its values is written; an acquire invalidates the L1 (R181). -/
def State.writeResult (s : State) (wid core : Nat) (p : Pend) : State :=
  let s := s.modWarp wid fun w => { w.writePend p with pend := w.pend.filter (·.seq != p.seq) }
  if p.acquire then s.modCore core Core.invalidate else s

/-- The values of a load, once in each of its lanes. -/
def Pend.fill (p : Pend) (once : Bool) (vals : List (Nat × List W32)) : Pend :=
  { p with got :=
      if once then
        let v := (vals.head?.map (·.2)).getD []
        if p.dst.isUni then [(0, v)] else (lanesOf p.lanes).map fun l => (l, v)
      else p.got ++ vals }

/-- A word of a line at its home. -/
def State.homeWord (s : State) (line w : Nat) : W32 :=
  let x := lineLoc line
  (s.locN { x with a := x.a + 4 * w } 4).setWidth 32

/-- A word of memory as a load of the core and team sees it: the team's buffered bytes over the L1 or the home. -/
def State.loadByte (s : State) (tid core : Nat) (target : Bool) (x : Loc) : Byte :=
  match (s.team? tid).bind fun t => t.buffered x with
  | some b => b
  | none =>
    let k := s.core core
    if x.sp.homed && !target && k.wordValid x.line x.word then
      (cget (k.line x.line).words x.word).extractLsb' (8 * (x.a % 4)) 8
    else s.locByte x

/-- R433: doorbell pages read as zero but for their first word; region 2 answers freely (DESIGN CHOICE, log 12). -/
def freeReads (l : List (Loc × Nat)) : Bool :=
  l.any fun x => x.1.sp == .pcie || (x.1.sp == .doorbell && x.1.a % 16384 < 4)

/-- A byte of a space whose reads the spec leaves open, or the byte `b`. DESIGN CHOICE, log 12. -/
def State.deviceByte (s : State) (x : Loc) (i : Nat) (b : Byte) : Byte :=
  match x.sp with
  | .pcie => Config.freeByte (s.fresh + i)
  | .doorbell => if x.a % 16384 < 4 then Config.freeByte (s.fresh + i) else 0
  | _ => b

/-- DESIGN CHOICE, log 12. -/
def State.readLane (s : State) (tid core : Nat) (target : Bool) (x : Loc) (n : Nat) : List Byte :=
  (List.range n).map fun i =>
    let y : Loc := { x with a := x.a + i }
    if ((s.team? tid).bind fun t => t.buffered y).isSome then s.loadByte tid core target y
    else s.deviceByte y i (s.loadByte tid core target y)

/-- R176: the L1 may take a word from the home: no store of the core to it is unacknowledged. -/
def Core.mayFill (k : Core) (line w : Nat) : Bool := !k.unackedWord line w

/-- The other word of an aligned double. -/
def mate (w : Nat) : Nat := if w % 2 = 0 then w + 1 else w - 1

/-- R152, R175: a fill writes a word that is invalid; and a valid word of an aligned double whose other word it writes, so that
an 8-byte load returns all or none of a store (as if the line had been evicted first). DEDUCED, log 41. -/
def Core.fills (k : Core) (line w : Nat) : Bool :=
  k.mayFill line w && (!k.wordValid line w || (!k.wordValid line (mate w) && k.mayFill line (mate w)))

/-- R175, R180: a word read at its target is refreshed in the L1, with a valid copy of the other word of its double.
DEDUCED, log 41. -/
def State.refresh (s : State) (core line w : Nat) : State :=
  let k := s.core core
  let both := k.wordValid line (mate w) && k.mayFill line (mate w)
  s.modCore core fun k =>
    let k := k.putWord line w (s.homeWord line w)
    if both then k.putWord line (mate w) (s.homeWord line (mate w)) else k

/-- The load is performed: the values in lane order. DESIGN CHOICE, log 24. -/
def State.performLoad (s : State) (wid core : Nat) (p : Pend) (l : List LaneLoc) (n : Nat) (signed once : Bool) : State :=
  let tid := wid / 32
  let words := s.neededWords tid (l.map fun x => (x.loc, n))
  let s := if p.fromTarget then words.foldl (fun s x => s.recall (some core) x.1) s else s
  let s := s.hallSpoil (l.flatMap fun x => (List.range n).map fun i => { x.loc with a := x.loc.a + i })
  let (vals, s) := l.foldl (fun a x =>
    let bs := a.2.readLane tid core p.fromTarget x.loc n
    (a.1 ++ [(x.lane, loadWords n signed bs)],
      if freeReads [(x.loc, n)] then { a.2 with fresh := a.2.fresh + n } else a.2)) ([], s)
  let s := if p.fromTarget then words.foldl (fun s x => s.refresh core x.1 x.2) s else s
  s.writeResult wid core (p.fill once vals)

/-- R177, R184: a load waits for another warp's ordered atomic on its bytes that has left the core, unless that one may be
waiting for an item of the load's warp (R134). DEDUCED, log 19. -/
def State.heldByAtomo (s : State) (wid core : Nat) (words : List (Nat × Nat)) : Bool :=
  let low := match s.warp? wid, s.team? (wid / 32) with
    | some w, some t => match s.grid? t.gid with
      | some g => (s.itemAt g t w.num 0).toNat
      | none => 0
    | _, _ => 0
  (s.core core).inflight.any fun r => r.wid != wid && match r.op with
    | .ordered i _ _ _ _ _ _ _ => i ≤ low && r.sp == .mem && words.any fun x => x.1 == r.line && r.touched.any fun a => a % 128 / 4 == x.2
    | _ => false

/-- R177, R452: a request of the core for the target of a location that is not homed has not been served. -/
def Core.portBusy (k : Core) (x : Loc) : Bool :=
  let held := heldReqs k.inflight
  let same := fun (r : Req) => match x.sp with
    | .hall | .scratch => r.sp == .hall || r.sp == .scratch
    | .pcie => r.sp == .pcie && r.line * 128 / 2 ^ 47 == x.a / 2 ^ 47
    | .doorbell => r.sp == .doorbell
    | _ => false
  k.inflight.any fun r => !r.isOrdered && same r && (!held.contains r || r.line == x.line)

/-- Lines of some words, each once. -/
def linesOf (words : List (Nat × Nat)) : List Nat :=
  (words.map (·.1)).foldl (fun a l => if a.contains l then a else a ++ [l]) []

/-- A memory request for a line on behalf of a load (R168, R457). -/
def State.sendLoad (s : State) (wid core : Nat) (p : Pend) (l : List LaneLoc) (line : Nat) (op : ReqOp) : State :=
  let mine := l.filter fun x => x.loc.sp.homed && x.loc.line == line
  s.send core wid (lineLoc line).sp line op false p.pc (if mine.isEmpty then p.lanes else laneMask mine)
    (((mine.head?.bind fun x => tget p.vas x.lane)).getD 0) p.emu

/-- R152, R155, R176, R180: a load takes its next step: a drain, a request, or its performance; `none` while it waits. A load
at its target whose words the core has stored to since its requests left asks again. DESIGN CHOICE, log 24; DEDUCED, log 41. -/
def State.tryLoad (s : State) (wid core : Nat) (w : Warp) (p : Pend) (l : List LaneLoc) (n : Nat) (signed once : Bool) :
    Option State :=
  let tid := wid / 32
  let k := s.core core
  let reads := p.kind.reads
  let words := s.neededWords tid reads
  let upd := words.find? fun x => k.isUpd x.1
  let unacked := words.any fun x => k.unackedDrain x.1
  let mine := k.inflight.filter fun r => r.wid == wid && r.op == .load p.seq
  if l.isEmpty then some (s.writeResult wid core p)
  else if w.sq.any fun e => e.seq < p.seq && overlap e.kind.touches reads then none
  else if reads.any fun x => k.portBusy x.1 then none
  else if !mine.isEmpty then
    if mine.any fun r => (s.firstReq core r.id).isNone then none
    else
      let s' := mine.foldl (fun s r => s.doneReq core r) s
      if upd.isSome || unacked || words.any (fun x => k.unackedWord x.1 x.2) || !k.room (linesOf words) then some s'
      else some (s'.performLoad wid core p l n signed once)
  else
    match upd with
    | some x => if w.unack < 63 then some (s.drain core wid x.1) else none
    | none =>
      if unacked || s.heldByAtomo wid core words then none
      else if p.fromTarget then
        if words.isEmpty then some (s.performLoad wid core p l n signed once)
        else if words.any fun x => k.unackedWord x.1 x.2 then none
        else some ((linesOf words).foldl (fun s x => s.sendLoad wid core p l x (.load p.seq)) s)
      else
        let missing := words.filter fun x => !k.wordValid x.1 x.2
        if missing.isEmpty then some (s.performLoad wid core p l n signed once)
        else
          match missing.find? fun x => !k.unackedWord x.1 x.2 && !k.inflight.any fun r => r.op == .fill && r.line == x.1 with
          | some x => some (s.sendLoad wid core p l x.1 .fill)
          | none => none

/-- R152: the fetched words go into the words that are invalid and await no acknowledgement of the core's own stores. -/
def execMergingFillReturn (core line : Nat) (s : State) : Out :=
  match (s.core core).inflight.find? fun r => r.op == .fill && r.line == line with
  | none => .next s
  | some r =>
    match s.firstReq core r.id with
    | none => .next s
    | some r =>
      if (s.core core).isUpd line then .next (s.doneReq core r)
      else if !(s.core core).room [line] then .next s
      else
        let s := (s.recall (some core) line).doneReq core r
        let k := s.core core
        .next (s.modCore core fun c => ((List.range 32).filter (k.fills line)).foldl (fun c w =>
          c.putWord line w (s.homeWord line w)) c)

/-! ## Constants (R148) -/

/-- The bytes of a word as they stood at a moment. -/
def State.wordAt (s : State) (m a : Nat) : W32 := BitVec.ofNat 32 (leNat ((List.range 4).map fun i => s.byteAt m (a + i)))

/-- R148: a word through the constant cache, which the grids of the core share: the value at the latest of their launches or a
later one, and never an earlier one than before. -/
def State.constWord (s : State) (gid core line w : Nat) : W32 × State :=
  let s := s.recall none line
  let cur : W32 := (s.locN ⟨.mem, line * 128 + 4 * w⟩ 4).setWidth 32
  let ent := (tget (s.core core).ccache line).getD (0, [])
  let put := fun (s : State) (v : W32) => s.modCore core fun k =>
    let e := (tget k.ccache line).getD (0, [])
    { k with ccache := tset k.ccache line (e.1 ||| laneBit w, cset e.2 w v) }
  if ent.1.getLsbD w then
    let old := cget ent.2 w
    if old = cur then (cur, s)
    else
      let (i, s) := s.choose 2
      if i = 0 then (old, s) else (cur, put s cur)
  else
    let start := (((s.core core).started.filterMap fun x => (s.grid? x).map (·.startMoment)) ++
      [((s.grid? gid).map (·.startMoment)).getD s.moment]).foldl max 0
    let (i, s) := s.choose (s.moment - start + 1)
    let v := s.wordAt (start + i) (line * 128 + 4 * w)
    (v, put s v)

/-- R148: a constant-space load. -/
def State.performConst (s : State) (wid core : Nat) (p : Pend) (l : List LaneLoc) (n : Nat) (signed once : Bool) : State :=
  let gid := ((s.team? (wid / 32)).map (·.gid)).getD 0
  let (vals, s) := l.foldl (fun a x =>
    match x.loc.sp with
    | .mem =>
      let (ws, s) := (List.range (cdiv n 4)).foldl (fun b i =>
        let (v, s) := b.2.constWord gid core x.loc.line (x.loc.word + i)
        (b.1 ++ bytes4 v, s)) (([] : List Byte), a.2)
      let bs := (ws.drop (x.loc.a % 4)).take n
      (a.1 ++ [(x.lane, loadWords n signed bs)], s)
    | _ =>
      let bs := (List.range n).map fun i => a.2.deviceByte { x.loc with a := x.loc.a + i } i 0
      (a.1 ++ [(x.lane, loadWords n signed bs)], { a.2 with fresh := a.2.fresh + n }))
    (([] : List (Nat × List W32)), s)
  s.writeResult wid core (p.fill once vals)

/-! ## LOAD_RESULT_WRITE -/

/-- R361, R374, R378: what other results bring; given by the render engines. -/
def State.performGather (s : State) (wid core : Nat) (p : Pend) (l : List LaneLoc) (col : Bool) (e : Nat) : State :=
  match s.team? (wid / 32) with
  | none => s
  | some t =>
    s.writeResult wid core
      (p.fill p.dst.isUni (l.map fun x => (x.lane, [t.galRead col e (x.loc.a % 2 ^ 20)])))

/-- A line as an engine reads it at its target; a line of region 2 is free (DESIGN CHOICE, log 12). -/
def State.engineLine (s : State) (x : Loc) : List Byte :=
  if x.sp == .pcie then (List.range 128).map fun i => Config.freeByte (s.fresh * 2 ^ 57 + x.a + i) else s.locBytes x 128

/-- The next step of a pending result of a warp; `none` while it waits. -/
def State.tryPend (s : State) (wid core : Nat) (w : Warp) (p : Pend) : Option State :=
  if p.returned || p.kind.ordered && w.pend.any fun q => q.seq < p.seq && q.kind.ordered then none
  else
    match p.kind with
    | .load l n sg once => s.tryLoad wid core w p l n sg once
    | .constLoad l n sg once => some (s.performConst wid core p l n sg once)
    | .gather l col e =>
      if w.sq.any fun x => x.seq < p.seq && overlap x.kind.touches p.kind.reads then none
      else some (s.performGather wid core p l col e)
    | .reply want =>
      if want.all fun l => (tget p.got l).isSome then some (s.writeResult wid core p) else none
    | .counted => some (s.setWarp wid { w with pend := w.pend.filter (·.seq != p.seq) })
    | .fence inval after cls =>
      if after && w.sq.any fun e => e.seq < p.seq then none
      else
        let s := s.setWarp wid { w with pend := w.pend.filter (·.seq != p.seq) }
        let s := if cls = 5 then s.modDie (socketOf core) fun d => { d with nodeCache := [] } else s
        some (if inval then s.modCore core Core.invalidate else s)
    | .bound l zn la lb =>
      let s := l.foldl (fun s x => if x.loc.sp == .mem then s.recall none x.loc.line else s) s
      let val := fun (i : Nat) =>
        (i, (boundPatch zn la lb ((l.filter (·.lane == i)).flatMap fun x => s.engineLine x.loc)).words)
      let free := l.any fun x => x.loc.sp == .pcie
      let s' := s.writeResult wid core (p.fill false ((lanesOf p.lanes).map val))
      some (if free then { s' with fresh := s'.fresh + 128 } else s')
    | .pattern l =>
      some (s.writeResult wid core (p.fill false (l.map fun x =>
        (x.lane, (List.range 4).map fun i => (s.locN { x.loc with a := x.loc.a + 4 * i } 4).setWidth 32))))
    | .trace _ _ => none
    | .sfu _ => none

/-- R78: one of the results that can be written takes its next step. -/
def State.tryResult (s : State) (wid : Nat) : Option State :=
  match s.warp? wid, s.team? (wid / 32) with
  | some w, some t =>
    let ready := w.pend.filter fun p => (s.tryPend wid t.core w p).isSome
    match s.pick ready with
    | (some p, s) => s.tryPend wid t.core w p
    | (none, _) => none
  | _, _ => none

def execLoadResultWrite (wid : Nat) (s : State) : Out := .next ((s.tryResult wid).getD s)

/-! ## STORE_QUEUE_DEPART (R151, R154, R177, R181, R328) -/

/-- The requests a list of bytes needs: the targets' lines. -/
def reqLines (l : List Loc) : List (Sp × Nat) :=
  l.foldl (fun acc x =>
    if x.sp == .gallery || acc.contains (x.sp, x.line) then acc else acc ++ [(x.sp, x.line)]) []

/-- R168: the virtual address of the lowest of some lanes. -/
def SqEnt.vaOf (e : SqEnt) (lanes : List Nat) : Nat := ((lanes.head?.bind fun l => tget e.vas l)).getD 0

/-- The lines that the whole words of a store allocate (R151). -/
def storeLines (l : List (LaneLoc × List Byte)) : List Nat :=
  l.filterMap fun x => if x.1.loc.sp.homed && 4 ≤ x.2.length then some x.1.loc.line else none

/-- R151: a store updates the L1. -/
def Core.storeL1 (k : Core) (x : Loc) (bs : List Byte) : Core :=
  if !x.sp.homed then k
  else if bs.length ≥ 4 then
    (List.range (bs.length / 4)).foldl (fun k i =>
      k.putWord x.line (x.word + i) (BitVec.ofNat 32 (leNat ((bs.drop (4 * i)).take 4)))) k
  else if k.wordValid x.line x.word then
    let v := ((List.range bs.length).zip bs).foldl (fun (v : W32) b =>
      let sh := 8 * ((x.a + b.1) % 4)
      (v &&& ~~~(0xFF#32 <<< sh)) ||| ((b.2.setWidth 32 : W32) <<< sh)) (cget (k.line x.line).words x.word)
    k.putWord x.line x.word v
  else k

/-- A store leaves the queue for its targets. -/
def State.departStore (s : State) (wid core : Nat) (e : SqEnt) (l : List (LaneLoc × List Byte)) : State :=
  let s := (reqLines (l.map (·.1.loc))).foldl (fun s x =>
    let mine := l.filter fun y => y.1.loc.sp == x.1 && y.1.loc.line == x.2
    let bytes := mine.flatMap fun y => ((List.range y.2.length).map (y.1.loc.a + ·)).zip y.2
    s.send core wid x.1 x.2 (.write bytes) true e.pc (laneMask (mine.map (·.1))) (e.vaOf (mine.map (·.1.lane))) e.emu) s
  s.modCore core fun k => l.foldl (fun k y => k.storeL1 y.1.loc y.2) k

/-- R154: one reduction in the L1, to a line that is absent, valid, or update-only with its operation and type. -/
def State.redL1 (s : State) (wid core : Nat) (op : AOp) (t : AType) (a : Nat) (v : W64) : State :=
  let line := a / 128
  let w := a % 128 / 4
  let s := s.modCore core fun k =>
    let n := if t = .n64 then 2 else 1
    let bits := maskOf ((List.range n).map (w + ·))
    match (k.line line).upd with
    | some (_, _, m) =>
      let x := k.line line
      let old : W64 := cget x.words (w + 1) ++ cget x.words w
      let new := if m.getLsbD w then atomNew op t (if n = 2 then old else (cget x.words w).setWidth 64) v else v
      let words := ((List.range n).zip (resultWords (4 * n) new)).foldl (fun c y => cset c (w + y.1) y.2) x.words
      { k with l1 := tset k.l1 line { x with words := words, upd := some (op, t, m ||| bits) } }
    | none =>
      let words := ((List.range n).zip (resultWords (4 * n) v)).foldl (fun c y => cset c (w + y.1) y.2) ([] : Cells 32)
      { k with l1 := tset k.l1 line ⟨0, words, some (op, t, bits)⟩, updOrder := k.updOrder ++ [line] }
  s.modWarp wid fun x => { x with contrib := if x.contrib.contains line then x.contrib else x.contrib ++ [line] }

/-- R154, R155, R328: the line that must be drained before a reduction to a line: the line itself where its operation or type
is another, or the earliest allocated where 256 are held. -/
def Core.redDrain (k : Core) (op : AOp) (t : AType) (line : Nat) : Option Nat :=
  match (k.line line).upd with
  | some (op', t', _) => if op' = op && t' = t then none else some line
  | none => if 256 ≤ k.updOrder.length then k.updOrder.head? else none

/-- R153, R155, R178: a read-modify-write leaves the queue: one request per line; the words it names are invalidated in the L1
at once, so that no warp of the core reads the copy from before it. -/
def State.departAtom (s : State) (wid core : Nat) (e : SqEnt) (l : List LaneLoc) (n : Nat) (op : List Nat → ReqOp) : State :=
  (reqLines (l.map (·.loc))).foldl (fun s x =>
    let mine := l.filter fun y => y.loc.sp == x.1 && y.loc.line == x.2
    let s := mine.foldl (fun s y => s.dropL1 core x.1 y.loc.a n) s
    s.send core wid x.1 x.2 (op (mine.map (·.lane))) true e.pc (laneMask mine) (e.vaOf (mine.map (·.lane))) e.emu) s

/-- R340: the lanes' updates leave one by one; the last of a line is acknowledged for all. DEDUCED, log 19. -/
def State.departAtomo (s : State) (wid core : Nat) (e : SqEnt) (op : AOp) (t : AType)
    (l : List (LaneLoc × W64 × Nat × Nat)) (pend : Nat) : State :=
  l.foldl (fun s y =>
    let x := y.1.loc
    let s := s.dropL1 core x.sp x.a (AType.bytes t)
    let last := (l.filter fun z => z.1.loc.sp == x.sp && z.1.loc.line == x.line).getLast?.map (·.1.lane)
    s.send core wid x.sp x.line (.ordered y.2.2.1 y.2.2.2 y.1.lane op t x.a y.2.1 pend) (last == some y.1.lane) e.pc
      (laneBit y.1.lane) (e.vaOf [y.1.lane]) e.emu) s

/-- R181: what a release at `.clu` or wider waits for: a drain that it must still send, or `none` where it is satisfied. -/
def State.releaseDrain (s : State) (w : Warp) (core : Nat) : Option Nat :=
  w.contrib.find? fun l => (s.core core).isUpd l

/-- R181: the release actions at `.clu` or wider are done. -/
def State.released (s : State) (w : Warp) (core : Nat) : Bool :=
  w.unack = 0 && w.contrib.all fun l => !(s.core core).isUpd l && !(s.core core).unackedDrain l

/-- The lines of region 0 that an entry touches. -/
def SqKind.memLines (k : SqKind) : List Nat := (k.touches.filter (·.1.sp == .mem)).map (·.1.line)

/-- The head of a store queue takes its next step; `none` while it waits. An exited warp whose queue is empty drains the
update-only lines it contributed to (R127). -/
def State.tryDepart (s : State) (wid : Nat) : Option State :=
  match s.warp? wid, s.team? (wid / 32) with
  | some w, some t =>
    match w.sq with
    | [] =>
      if w.launched &&& ~~~w.exited = 0 && w.unack < 63 then
        (s.releaseDrain w t.core).map fun l => s.drain t.core wid l
      else none
    | e :: rest =>
      let core := t.core
      let k := s.core core
      let wide := e.release && Scope.wide e.scope
      let leave := fun (s : State) => some (s.modWarp wid fun w =>
        { w with sq := rest, contrib := if wide then [] else w.contrib })
      let room := fun (l : List LaneLoc) => w.unack + (reqLines (l.map (·.loc))).length ≤ 63
      let drainFor := fun (l : Nat) => if w.unack < 63 then some (s.drain core wid l) else none
      let atTarget := fun (l : List LaneLoc) (go : State → State) =>
        match (l.filter (·.loc.sp == .mem)).find? fun x => k.isUpd x.loc.line with
        | some x => drainFor x.loc.line
        | none => if room l then leave (go s) else none
      let named := fun {α : Type} (ls : List Nat) (l : List (LaneLoc × α)) => l.filter fun x => ls.contains x.1.lane
      if w.pend.any fun p => p.seq < e.seq && p.kind.holdsStores then none
      else
        match if wide then s.releaseDrain w core else none with
        | some l => drainFor l
        | none =>
          if wide && !s.released w core then none
          else
            match e.kind with
            | .fence => leave s
            | .scatter l col el =>
              leave (s.modTeam (wid / 32) fun t =>
                l.foldl (fun t x => t.galWrite col el (x.1.loc.a % 2 ^ 20) x.2) t)
            | .store l =>
              let buffered := l.filter fun x => t.active && x.1.loc.sp.committed
              let direct := l.filter fun x => !(t.active && x.1.loc.sp.committed)
              if !buffered.isEmpty then
                let t' := buffered.foldl (fun t x =>
                  ((List.range x.2.length).zip x.2).foldl (fun t y =>
                    t.buffer { x.1.loc with a := x.1.loc.a + y.1 } y.2) t) t
                if 512 < t'.commitLines.length then some (s.endReplay (wid / 32) 1)
                else
                  let s := s.setTeam (wid / 32) t'
                  if direct.isEmpty then leave s
                  else some (s.modWarp wid fun w => { w with sq := { e with kind := .store direct } :: rest })
              else
                match e.kind.memLines.find? k.isUpd with
                | some x => drainFor x
                | none =>
                  if e.kind.memLines.any k.unackedDrain || !room (l.map (·.1)) || !k.room (storeLines l) then none
                  else leave (s.departStore wid core e l)
            | .red op ty l atHome =>
              let home := fun (l : List (LaneLoc × W64)) => atTarget (l.map (·.1)) fun s =>
                s.departAtom wid core e (l.map (·.1)) (AType.bytes ty) fun ls =>
                  .atom op ty ((named ls l).map fun x => (x.1.lane, x.1.loc.a, x.2)) none
              if atHome then home l
              else
                match l.find? fun x => x.1.loc.sp == .mem with
                | none => home l
                | some x =>
                  let line := x.1.loc.line
                  match k.redDrain op ty line with
                  | some d => drainFor d
                  | none =>
                    if !k.room [line] then none
                    else
                      let here := fun (y : LaneLoc × W64) => y.1.loc.sp == .mem && y.1.loc.line == line
                      let s := (l.filter here).foldl (fun s y => s.redL1 wid core op ty y.1.loc.a y.2) s
                      let more := l.filter fun y => !here y
                      if more.isEmpty then leave s
                      else some (s.modWarp wid fun w => { w with sq := { e with kind := .red op ty more false } :: rest })
            | .atom op ty l pend => atTarget (l.map (·.1)) fun s =>
                s.departAtom wid core e (l.map (·.1)) (AType.bytes ty) fun ls =>
                  .atom op ty ((named ls l).map fun x => (x.1.lane, x.1.loc.a, x.2)) (some pend)
            | .cas wd l pend => atTarget (l.map (·.1)) fun s =>
                s.departAtom wid core e (l.map (·.1)) (if wd then 8 else 4) fun ls =>
                  .cas wd ((named ls l).map fun x => (x.1.lane, x.1.loc.a, x.2.1, x.2.2)) pend
            | .ldx l pend => atTarget (l.map (·.1)) fun s =>
                s.departAtom wid core e (l.map (·.1)) 0 fun ls =>
                  .ldx ((named ls l).map fun x => (x.1.lane, x.2)) pend
            | .atomo op ty l pend => atTarget (l.map (·.1)) fun s => s.departAtomo wid core e op ty l pend
  | _, _ => none

/-- R177: the first entry of the queue leaves it, or takes a step toward leaving. -/
def execStoreQueueDepart (wid : Nat) (s : State) : Out := .next ((s.tryDepart wid).getD s)

/-! ## Termination (R424) -/

/-- R424, step 2: the stores, reductions and atomics that a warp has issued leave its queue for their targets, whatever they
waited for (DEDUCED, log 29); its buffered stores are discarded, and so are its ordered atomics. -/
def State.flushEntry (s : State) (wid core : Nat) (active : Bool) (e : SqEnt) : State :=
  let home := fun (op : AOp) (ty : AType) (l : List (LaneLoc × W64)) =>
    s.departAtom wid core e (l.map (·.1)) (AType.bytes ty) fun ls =>
      .atom op ty ((l.filter fun x => ls.contains x.1.lane).map fun x => (x.1.lane, x.1.loc.a, x.2)) none
  match e.kind with
  | .fence | .scatter _ _ _ | .atomo _ _ _ _ => s
  | .store l => s.departStore wid core e (l.filter fun x => !(active && x.1.loc.sp.committed))
  | .red op ty l _ => home op ty l
  | .atom op ty l _ => home op ty l
  | .cas wd l pend => s.departAtom wid core e (l.map (·.1)) (if wd then 8 else 4) fun ls =>
      .cas wd ((l.filter fun x => ls.contains x.1.lane).map fun x => (x.1.lane, x.1.loc.a, x.2.1, x.2.2)) pend
  | .ldx _ _ => s

/-- R424: the queues of a team's warps leave; its ordered atomics that have not been applied are
dropped, and its requests that a failed link returned (R456, R457). DEDUCED, log 29. -/
def State.flushTeam (s : State) (tid : Nat) (t : Team) : State :=
  let s := (t.wids tid).foldl (fun s wid => match s.warp? wid with
    | some w => w.sq.foldl (fun s e => s.flushEntry wid t.core t.active e) s
    | none => s) s
  { s with cores := s.cores.map fun x =>
      (x.1, { x.2 with inflight := x.2.inflight.filter fun r => !((r.isOrdered || r.returned) && r.wid / 32 == tid) }) }

/-- R424, steps 1 to 7 for one grid, without its children. DEDUCED, log 29; DEDUCED, log 49. -/
def State.terminateOne (s : State) (gid : Nat) (c : Cause) (d0 : W64) : State :=
  match s.grid? gid with
  | none => s
  | some g =>
    if g.st != .live then s
    else
      let s := (s.teamsOf gid).foldl (fun s x => (s.flushTeam x.1 x.2).dropTeam x.1) s
      let s := s.releaseGrid gid
      let s := s.modGrid gid fun g =>
        { g with st := .terminated, seqs := [], again := [], restore := [], faults := [], frame := none, frames := [],
                 dbgEntry := none, held := false,
                 nodes := g.nodes.map fun x => (x.1, { x.2 with bin := [] }) }
      s.report (gridEvent g gid c d0)

/-- R424: a grid is terminated, then its unretired descendants with `TERM_PARENT`. `fuel` bounds the depth (R126: at most
10 levels). -/
def State.terminate (s : State) (gid : Nat) (c : Cause) (d0 : W64) : Nat → State
  | 0 => s
  | fuel + 1 =>
    match s.grid? gid with
    | none => s
    | some g =>
      if g.st != .live then s
      else g.children.foldl (fun s k => s.terminate k .termParent 0 fuel) (s.terminateOne gid c d0)

/-- R424 with the depth of R126. -/
def State.terminateGrid (s : State) (gid : Nat) (c : Cause) (d0 : W64) : State := s.terminate gid c d0 12

/-! ## Eviction (R152, R155, R176) -/

/-- A warp of the core that contributed to an update-only line. -/
def State.contributor (s : State) (core line : Nat) : Nat :=
  ((s.warps.find? fun x => x.2.contrib.contains line &&
    ((s.team? (x.1 / 32)).map (·.core)) == some core).map (·.1)).getD 0

/-- R155, R176: a line leaves the L1: an update-only line is drained, another one is dropped unless a store of the core
to it is unacknowledged. DESIGN CHOICE, log 5. -/
def execL1Eviction (core line : Nat) (s : State) : Out :=
  let k := s.core core
  match tget k.l1 line with
  | none => .next s
  | some x =>
    match x.upd with
    | some (op, t, _) =>
      .next ((s.modCore core fun k => k.dropUpd line).send core (s.contributor core line) .mem line
        (.atom op t ((x.partials line).map fun p => (0, p.1, p.2)) none) false 0 0)
    | none =>
      if (List.range 32).any (k.unackedWord line) then .next s
      else .next (s.modCore core fun k => { k with l1 := tdel k.l1 line })

/-! ## Instruction fetch (R49, R50, R167) -/

/-- The key of a block in a core's instruction cache. -/
def blockKey (gid block : Nat) : Nat := gid * 2 ^ 64 + block

/-- R49: the fetch of a byte: its value at a moment, or the fault. -/
def State.fetchByte (s : State) (core asid moment va : Nat) : Except Nat Byte :=
  if 2 ^ 57 ≤ va then .error 5
  else
    match s.vloc (some core) asid va .fetch with
    | .ok x => .ok (if x.sp == .mem then s.byteAt moment x.a else Config.freeByte (s.fresh + va % 384))
    | .error f => .error f

/-- R49: the block at an address: its bytes, and of each instruction that could not be supplied the fault. -/
def State.fetchBlock (s : State) (core asid moment block : Nat) : IBlock :=
  let bytes : List (Except Nat Byte) := (List.range 384).map fun i => s.fetchByte core asid moment (block + i)
  { bytes := bytes.map fun x => match x with | .ok b => b | .error _ => 0
    bad := (List.range 32).filterMap fun i =>
      ((List.range 12).findSome? fun j =>
        match bytes[12 * i + j]? with
        | some (Except.error f) => some (i, f, block + 12 * i + j)
        | _ => none) }

/-- The lanes of a warp that may issue: launched, and not exited, parked or stopped. A parked lane marked ready in a saved
context runs when that is restored (R442, R448). -/
def Warp.runnable (w : Warp) : Mask :=
  w.launched &&& ~~~w.exited &&& ~~~(w.parked &&& ~~~w.ready) &&& ~~~w.stopped

/-- R49: the lanes that fetch an instruction that cannot be supplied park. -/
def State.parkFetch (s : State) (core gid block : Nat) (b : IBlock) : State :=
  b.bad.foldl (fun s x =>
    let pc := block + 12 * x.1
    let ws := s.warps.filter fun y => y.2.residence == .active &&
      ((s.team? (y.1 / 32)).any fun t => t.core == core && t.gid == gid)
    ws.foldl (fun s y =>
      let m := maskOf ((lanesOf y.2.runnable).filter fun l => (cget y.2.pc l).toNat = pc)
      if m = 0 then s
      else
        match s.ctxOf y.1 m with
        | none => s
        | some c => s.parkLanes c c.w 0 0 [⟨lowest m, x.2.2, x.2.1⟩] m) s) s

/-- R49, R50: a block is filled as it stood at the grid's launch or at some later moment. -/
def execIcacheFill (grid core block : Nat) (s : State) : Out :=
  match s.grid? grid with
  | none => .next s
  | some g =>
    let (i, s) := s.choose (s.moment - g.startMoment + 1)
    let s := s.recallVa g.asid block 384
    let b := s.fetchBlock core g.asid (g.startMoment + i) block
    let s := s.modCore core fun k => { k with icache := tset k.icache (blockKey grid block) b }
    let open_ := s.openVa g.asid block 384 || 1 < (s.found (some core) g.asid block).length ||
      1 < (s.found (some core) g.asid (block + 383)).length
    let s := s.cacheVa (some core) g.asid block 384
    let s := if open_ then { s with fresh := s.fresh + 384 } else s
    .next (s.parkFetch core grid block b)

end Sys2Proof.Machine
end

