-- ==== Sys2Proof/Machine/Copies.lean ====
section
/-! DEFINITION. Copy engine and tags: CPY, CPYT, CPYX, COPY_CHUNK_COMPLETE, TWAIT, TFST, TCLR (R165, R166, R187 to R192,
R345 to R349). -/

namespace Sys2Proof.Machine

open Sys2Proof

/-! ## Tags (R165) -/

def Team.tagCount (t : Team) (g : Nat) : Nat := (tget t.tagCnt g).getD 0

/-- R165: an operation with a tag is issued. -/
def Team.raiseTag (t : Team) (g : Nat) : Team :=
  { t with tagCnt := tset t.tagCnt g (t.tagCount g + 1), tagClear := t.tagClear ||| (1#64 <<< g) }

/-- R165, R190: an operation with a tag completes. -/
def Team.lowerTag (t : Team) (g : Nat) : Team :=
  let n := t.tagCount g - 1
  { t with tagCnt := if n = 0 then tdel t.tagCnt g else tset t.tagCnt g n
           tagClear := if n = 0 then t.tagClear &&& ~~~(1#64 <<< g) else t.tagClear }

/-- R449: a tag count that falls while the team is saved falls in its checkpoint too. -/
def Team.saveTag (t : Team) (g : Nat) : Team :=
  if t.st == .saved then
    { t with ckpt := csetAll t.ckpt (((List.range 8).map (128 + ·)).zip (natBytes 8 (~~~t.tagClear).toNat) ++
        [(136 + g, BitVec.ofNat 8 (t.tagCount g))]) }
  else t

/-- R189: an unfinished `FENCEX` of the warp holds its operations of a class. -/
def Warp.fenced (w : Warp) (cls : Nat) : Bool :=
  w.pend.any fun p => match p.kind with | .fence _ _ k => k == cls | _ => false

/-- An asynchronous operation is issued: its tag's count rises; a full count is waited for (R328). -/
def State.issueOp (s : State) (c : Ctx) (f : Fmt) (on : Mask) (cls tag : Nat) (kind : OpKind) : State :=
  if c.t.tagCount tag = 63 || c.w.fenced cls then s
  else
    let (id, s) := s.newId
    let s := s.modTeam c.w.tid fun t => t.raiseTag tag
    let op : AsyncOp :=
      { id := id, gid := c.t.gid, tid := c.w.tid, wid := c.wid, lanes := on, pc := c.pc, tag := tag, kind := kind,
        done := 0, hall := c.t.hall.getD 0, after := c.w.nextSeq,
        emu := c.w.emu.inside && on &&& c.w.emu.lanes != 0, suspended := false, abandoned := false }
    { s with ops := s.ops ++ [op] }.finish c f on c.lanes c.w

/-! ## Issue of copies (R345 to R348) -/

/-- The value of a uniform source as a number. -/
def State.uni (s : State) (c : Ctx) (on : Mask) (x : Src) (wide : Bool) : Nat :=
  if wide then (s.src64 c 0 x (lowest on)).toNat else (s.src c 0 .raw x (lowest on)).toNat

/-- One side of a copy: a global address, or an offset of a space. -/
def dirSides : CpyDir → (Bool × Sp) × (Bool × Sp)
  | .gg => ((true, .mem), (true, .mem))
  | .gl2gal => ((false, .gallery), (true, .mem))
  | .gal2gl => ((true, .mem), (false, .gallery))
  | .gl2hall => ((false, .hall), (true, .mem))
  | .hall2gl => ((true, .mem), (false, .hall))
  | .gl2ds => ((false, .scratch), (true, .mem))
  | .ds2gl => ((true, .mem), (false, .scratch))

/-- R345: the check of the arguments: a cause with its detail (R422). `arg` is an argument that breaks a requirement; `gal` and `hal` are the ranges in the gallery and the hall:
first byte and length; `dst` says that the hall is the destination. -/
def Ctx.copyCheck (c : Ctx) (args : List Nat) (arg : Option Nat) (gal hal : Option (Nat × Nat)) (dst : Bool) : Option (Cause × Nat) :=
  match args.find? (· % 4 != 0) with
  | some x => some (.cpyArg, x)
  | none =>
    match arg with
    | some x => some (.cpyArg, x)
    | none =>
      match gal with
      | some (a, n) => if c.g.rec_.gallery < a + n then some (.galRange, a) else none
      | none =>
        match hal with
        | none => none
        | some (a, n) =>
          if 0x600000 < a + n then some (.hallRange, a)
          else if c.t.hall.isNone then some (.hallNone, 0)
          else if dst && n != 0 && a < 0x14000 then some (.hallRo, a) else none

/-- R345 to R348: a copy with its checks; `ends` says that it ends replay. -/
def State.copy (s : State) (c : Ctx) (f : Fmt) (on : Mask) (bad : Option (Cause × Nat)) (ends : Bool) (tag : BitVec 6)
    (len : Nat) (kind : OpKind) : State :=
  if on = 0 then s.finish c f on c.lanes c.w
  else
    match bad with
    | some (k, x) => s.stop c k (w64 x)
    | none =>
      if len = 0 then s.finish c f on c.lanes c.w
      else if c.t.tagCount tag.toNat = 63 || c.w.fenced 1 then s
      else (if ends then (s.unrepeatable c).tracedStore c on else s).issueOp c f on 1 tag.toNat kind

/-- R346. -/
def execCpy (f : Fmt) (dir : CpyDir) (tag : BitVec 6) (s : State) : Out :=
  s.run (.cpy f dir tag) fun c on =>
    let ((dg, dsp), (sg, ssp)) := dirSides dir
    let a := s.uni c on f.a dg
    let b := s.uni c on f.b sg
    let n := s.uni c on f.c false
    let gal := if dsp == .gallery then some (a, n) else if ssp == .gallery then some (b, n) else none
    let hal := if dsp == .hall then some (a, n) else if ssp == .hall then some (b, n) else none
    s.copy c f on (c.copyCheck [n, a, b] none gal hal (dsp == .hall)) (dg || dsp == .scratch) tag n
      (.copy dg sg dsp ssp a b n)

/-- R347. -/
def execCpyt (f : Fmt) (col : Bool) (e : Elem) (rows : Byte) (tag : BitVec 6) (s : State) : Out :=
  s.run (.cpyt f col e rows tag) fun c on =>
    let a := s.uni c on f.a true
    let b := s.uni c on f.b false
    let p := s.uni c on f.c false
    let n := 32 / Elem.bits e
    let len := if col then 4096 * n else 128 * rows.toNat
    let arg := if b % (if col then 4096 * n else 128) != 0 then some b
      else if col && 32 * n < rows.toNat then some rows.toNat else none
    s.copy c f on (c.copyCheck [a, b, p] arg (some (b, len)) none false) false tag len
      (.square a b p rows.toNat col (Elem.bits e))

/-- R348. -/
def execCpyxDie (f : Fmt) (d : BitVec 6) (tag : BitVec 6) (s : State) : Out :=
  s.run (.cpyxDie f d tag) fun c on =>
    let a := s.uni c on f.a false
    let b := s.uni c on f.b false
    let n := s.uni c on f.c false
    s.copy c f on (c.copyCheck [n, a, b] (if c.g.mask.length ≤ d.toNat then some d.toNat else none) none none false) true tag n
      (.dieCopy b a n d.toNat)

/-- R348. -/
def execCpyxPeer (f : Fmt) (port : BitVec 2) (tag : BitVec 6) (s : State) : Out :=
  s.run (.cpyxPeer f port tag) fun c on =>
    let a := s.uni c on f.a true
    let b := s.uni c on f.b true
    let n := s.uni c on f.c false
    if on != 0 && s.mg.peerMask = 0 then s.stop c .peerNone 0
    else s.copy c f on (c.copyCheck [n, a, b] none none none false) true tag n (.peerCopy b a n port.toNat)

/-! ## Chunks (R166, R345) -/

/-- The bytes of the destination that an operation covers, from its first byte. -/
def OpKind.len : OpKind → Nat
  | .copy _ _ _ _ _ _ n | .dieCopy _ _ n _ | .peerCopy _ _ n _ => n
  | .square _ _ _ rows col e => if col then 4096 * (32 / e) else 128 * rows
  | _ => 0

/-- The first byte of the destination. -/
def OpKind.start : OpKind → Nat
  | .copy _ _ _ _ d _ _ | .dieCopy _ d _ _ | .peerCopy _ d _ _ => d
  | .square _ off _ _ _ _ => off
  | _ => 0

/-- R345: the end of the chunk that begins after `done` bytes. -/
def OpKind.chunkEnd (k : OpKind) (done : Nat) : Nat :=
  min k.len (done + (256 - (k.start + done) % 256))

/-- The pairs of source and destination bytes of a chunk. -/
def OpKind.pairs (k : OpKind) (done : Nat) : List (Nat × Nat) :=
  let idx := (List.range (k.chunkEnd done - done)).map (done + ·)
  match k with
  | .copy _ _ _ _ d s _ | .dieCopy s d _ _ | .peerCopy s d _ _ => idx.map fun i => (s + i, d + i)
  | .square s off pitch rows col e =>
    idx.filterMap fun i =>
      if col then
        let r := i % 128 * 8 / e
        if r < rows then some (s + r * pitch + i / 128 * (e / 8) + i % 128 % (e / 8), off + i) else none
      else some (s + i / 128 * pitch + i % 128, off + i)
  | _ => []

/-- The spaces of an operation: source and destination, each global or by offset. -/
def OpKind.sides : OpKind → (Bool × Sp) × (Bool × Sp)
  | .copy dg sg dsp ssp _ _ _ => ((sg, ssp), (dg, dsp))
  | .square _ _ _ _ _ _ => ((true, .mem), (false, .gallery))
  | .dieCopy _ _ _ _ => ((false, .scratch), (false, .scratch))
  | .peerCopy _ _ _ _ => ((true, .mem), (false, .pcie))
  | _ => ((false, .hall), (false, .hall))

/-- The target of a byte of one side: an `FTYPE` where it faults. `scratch` admits the die-scratch window. -/
def State.sideLoc (s : State) (op : AsyncOp) (glob : Bool) (sp : Sp) (grp : Nat) (scratch : Bool) (acc : Acc) (a : Nat) :
    Except Nat Loc × State :=
  let own := ((s.team? op.tid).map (socketOf ·.core)).getD 0
  if glob then s.locate none op.gid (((s.team? op.tid).map Team.group).getD 0) scratch a acc
  else
    match sp with
    | .gallery => (.ok ⟨.gallery, galKey op.tid a⟩, s)
    | .hall => (.ok ⟨.hall, hallKey own op.hall a⟩, s)
    | .scratch =>
      let lim := ((s.grid? op.gid).map (·.rec_.dieScratch)).getD 0
      (if a < lim then .ok ⟨.scratch, scratchKey op.gid grp a⟩ else .error 5, s)
    | _ => (.ok ⟨sp, a⟩, s)

/-- Translate the bytes of one side of a chunk, one walk for each line. -/
def State.sideLocs (s : State) (op : AsyncOp) (glob : Bool) (sp : Sp) (grp : Nat) (scratch : Bool) (acc : Acc)
    (l : List Nat) : List (Nat × Except Nat Loc) × State :=
  let lines := l.foldl (fun acc a => if acc.contains (a / 128) then acc else acc ++ [a / 128]) []
  let (tab, s) := lines.foldl (fun (x : List (Nat × Except Nat Loc) × State) line =>
    let first := (l.filter (· / 128 == line)).headD 0
    let (r, s) := x.2.sideLoc op glob sp grp scratch acc first
    (x.1 ++ [(line, match r with | .ok y => Except.ok { y with a := y.a - first % 128 } | .error f => .error f)], s))
    ([], s)
  (l.map fun a => (a, match tab.find? (·.1 == a / 128) with
    | some (_, .ok y) => Except.ok { y with a := y.a + a % 128 }
    | some (_, .error f) => .error f
    | none => .error 5), s)

/-- The lowest faulting byte. -/
def lowestFault (l : List (Nat × Except Nat Loc)) : Option (Nat × Nat) :=
  l.foldl (fun acc x => match x.2 with
    | .ok _ => acc
    | .error f => match acc with
      | some (a, g) => if x.1 < a then some (x.1, f) else some (a, g)
      | none => some (x.1, f)) none

def State.modOp (s : State) (id : Nat) (f : AsyncOp → AsyncOp) : State :=
  { s with ops := s.ops.map fun x => if x.id == id then f x else x }

/-- R166, R168: an operation is suspended with a fault record. DESIGN CHOICE, log 83. -/
def State.suspendOp (s : State) (op : AsyncOp) (kind engine progress va ftype : Nat) : State :=
  match s.ctxOf op.wid op.lanes with
  | none => s
  | some c =>
    let e := { s.laneFault c c.w kind engine progress op.lanes (w64 va) ftype with
      pc := op.pc, whole := false, async := true, emu := op.emu, tag := op.tag, who := .op op.id }
    let s := s.meetPoison c.g.asid [⟨lowest op.lanes, va, ftype⟩]
    (s.modOp op.id fun x => { x with suspended := true }).modGrid op.gid fun g => { g with faults := g.faults ++ [e] }

/-- R442: the operation's destination is the gallery or a hall; that of `RSLV` is the image in memory (R248). -/
def OpKind.destHeld : OpKind → Bool
  | .copy _ _ .gallery _ _ _ _ | .copy _ _ .hall _ _ _ _ | .square _ _ _ _ _ _ | .dice _ | .rast _ => true
  | _ => false

/-- R188: the spaces whose accesses order an operation: those of its sides, and die scratch where a global address lies in the
window (R147). -/
def OpKind.spaces (k : OpKind) : List Sp :=
  let ((sg, ssp), (dg, dsp)) := k.sides
  let reach := fun (glob : Bool) (sp : Sp) (a n : Nat) =>
    if glob && scratchWindow < a + n && a < 2 ^ 57 then [sp, .scratch] else [sp]
  match k with
  | .copy _ _ _ _ d s n => reach sg ssp s n ++ reach dg dsp d n
  | .square s _ p rows _ _ => reach sg ssp s (p * rows + 128) ++ [dsp]
  | .peerCopy s _ n _ => reach sg ssp s n ++ [dsp]
  | _ => [ssp, dsp]

/-- R188: the operation may touch its spaces: the warp's earlier stores to them have been performed, and its earlier reads
(DEDUCED, log 21). An operation into the gallery or a hall of a saved team waits for the restore (R442). -/
def State.opMayStart (s : State) (op : AsyncOp) (sps : List Sp) : Bool :=
  match s.warp? op.wid, s.team? op.tid with
  | some w, some t =>
    !(t.st == .saved && op.kind.destHeld) &&
    !(w.sq.any fun e => e.seq < op.after && e.kind.touches.any fun x => x.1.sp != .mem && sps.contains x.1.sp) &&
    !(w.pend.any fun p => p.seq < op.after && p.kind.reads.any fun x => x.1.sp != .mem && sps.contains x.1.sp) &&
    !((s.core t.core).inflight.any fun r => r.wid == op.wid && r.sp != .mem && sps.contains r.sp)
  | _, _ => false

/-- The virtual address a record shows for a byte of a side (R147, R168). -/
def sideVa (glob : Bool) (sp : Sp) (a : Nat) : Nat := if !glob && sp == .scratch then scratchWindow + a else a

/-- R345: a die-scratch range that reaches past the end faults at the first chunk: the first byte outside. -/
def OpKind.pastScratch (k : OpKind) (lim : Nat) : Option (Nat × Nat) :=
  let chk := fun (kind a n : Nat) => if lim < a + n then some (kind, max a lim) else none
  match k with
  | .copy false _ .scratch _ d _ n => chk 5 d n
  | .copy _ false _ .scratch _ s n => chk 4 s n
  | .dieCopy s d n _ => (chk 4 s n).or (chk 5 d n)
  | _ => none

/-- Bytes written by an engine at their targets (R157, R187). -/
def State.engineWrite (s : State) (l : List (Loc × Byte)) : State :=
  let s := l.foldl (fun s x =>
    match x.1.sp with
    | .mem => (s.recall none x.1.line).poke x.1.a x.2
    | .pcie => { s with pcieOut := s.pcieOut ++ [(x.1.a, [x.2])] }
    | _ => s.setLoc x.1 x.2) s
  let s := s.hallSpoil (l.map (·.1))
  s.ringDoorbell (l.filterMap fun x => if x.1.sp == .doorbell then some (x.1.a, x.2) else none)

/-- R464: the remote address space of an operation's grid on a port. -/
def State.peerAsid (s : State) (gid port : Nat) : Option Nat :=
  match s.grid? gid with
  | none => none
  | some g => (s.peers.find? fun x => x.1 == port && x.2.1 == g.asid).map (·.2.2)

/-- R119: where the die group of a `%die` is: on the die of the mask, or where the sequence of a lost die has gone. -/
def Grid.dieSocket (g : Grid) (d : Nat) : Nat :=
  match if g.rec_.block then g.seqs.find? (·.dieIdx == d) else none with
  | some q => (q.sockets.head?).getD 0
  | none => (g.mask[d]?).getD 0

/-- The chunk after `done` bytes is copied, or the operation is suspended at it. DESIGN CHOICE, log 40. -/
def State.copyChunk (s : State) (op : AsyncOp) : State :=
  let k := op.kind
  let ((sg, ssp), (dg, dsp)) := k.sides
  let own := ((s.team? op.tid).map Team.group).getD 0
  let lim := ((s.grid? op.gid).map (·.rec_.dieScratch)).getD 0
  let dsock := match k with
    | .dieCopy _ _ _ d => ((s.grid? op.gid).map fun g => groupOf d (g.dieSocket d)).getD 0
    | _ => own
  match k.pastScratch lim with
  | some (kind, a) => s.suspendOp op kind 1 op.done (scratchWindow + a) 5
  | none =>
    let ps := k.pairs op.done
    let (src, s) := s.sideLocs op sg ssp own (dsp != .scratch) .read (ps.map (·.1))
    match lowestFault src with
    | some (a, f) => s.suspendOp op 4 1 op.done (sideVa sg ssp a) f
    | none =>
      let srcLocs := src.filterMap fun x => match x.2 with | .ok y => some y | .error _ => none
      let s := srcLocs.foldl (fun s y => if y.sp == .mem then s.recall none y.line else s) s
      let s := s.hallSpoil srcLocs
      let bytes := ((List.range srcLocs.length).zip srcLocs).map fun y =>
        if y.2.sp == .pcie || (y.2.sp == .doorbell && y.2.a % 16384 < 4) then Config.freeByte (s.fresh + y.1)
        else s.locByte y.2
      let s := if srcLocs.any fun y => y.sp == .pcie || y.sp == .doorbell then { s with fresh := s.fresh + ps.length } else s
      let done := fun (s : State) => s.modOp op.id fun x => { x with done := k.chunkEnd op.done }
      match k with
      | .peerCopy _ d _ port =>
        match s.peerAsid op.gid port, s.mg.peerMask / 2 ^ port % 2 with
        | some ra, 1 => done { s with peerOut := s.peerOut ++ [(port, ra, d + op.done, bytes)] }
        | _, _ => s.suspendOp op 5 1 op.done (d + op.done) 4
      | _ =>
        let (dst, s) := s.sideLocs op dg dsp dsock (ssp != .scratch) .write (ps.map (·.2))
        let out := (dst.zip bytes).filterMap fun x => match x.1.2 with | .ok y => some (y, x.2) | .error _ => none
        match lowestFault dst with
        | some (a, f) =>
          let (i, s) := s.choose 2
          (if i = 0 then s else s.engineWrite out).suspendOp op 5 1 op.done (sideVa dg dsp a) f
        | none => done (s.engineWrite out)

/-- R166, R345: the next chunk of a copy. -/
def execCopyChunkComplete (op : Nat) (s : State) : Out :=
  match s.ops.find? (·.id == op) with
  | none => .next s
  | some o =>
    if o.suspended || o.kind.len ≤ o.done || !s.opMayStart o o.kind.spaces then .next s else .next (s.copyChunk o)

/-! ## Waiting on tags (R349, R192) -/

/-- The mask of a tag instruction. -/
def State.tagMask (s : State) (c : Ctx) (f : Fmt) : W64 := s.src64 c 0 f.a (lowest c.lanes)

/-- The tags of a mask whose count is zero. -/
def Team.idle (t : Team) (g : Nat) : Bool := t.tagCount g = 0

/-- R349, R422: the detail of `TAG_IDLE` is the lowest tag that is waited for. DEDUCED, log 72. -/
def execTwait (f : Fmt) (all acq : Bool) (s : State) : Out :=
  s.run (.twait f all acq) fun c on =>
    let m := s.tagMask c f
    let clear := m &&& c.t.tagClear
    let ok := if all then clear == 0 else m == 0 || m &&& ~~~c.t.tagClear != 0
    let dead := (List.range 64).all fun g => !(clear.getLsbD g) || c.t.idle g
    if ok then
      let s := s.finish c f on c.lanes c.w
      if acq then s.modCore c.t.core Core.invalidate else s
    else if dead then s.stop c .tagIdle (w64 (((List.range 64).find? fun g => clear.getLsbD g).getD 0))
    else s

/-- R349. -/
def execTfst (f : Fmt) (s : State) : Out :=
  s.alu1 (.tfst f) f fun c _ => if s.src64 c 0 f.a (lowest c.lanes) &&& c.t.tagClear = 0 then 1 else 0

/-- R349. -/
def execTclr (f : Fmt) (s : State) : Out :=
  s.run (.tclr f) fun c on =>
    (s.modTeam c.w.tid fun t => { t with tagClear := t.tagClear ||| s.tagMask c f }).finish c f on c.lanes c.w

end Sys2Proof.Machine
end

