-- ==== Sys2Proof/Machine/Saved.lean ====
section
/-! DEFINITION. The layout of a saved context, and its special section, which stays current while a warp is saved (R41, R442,
R447, R448). -/

namespace Sys2Proof.Machine

open Sys2Proof

/-! ## Sections -/

/-- R447: rounded up to 128 bytes. -/
def up128 (n : Nat) : Nat := cdiv n 128 * 128

/-- R41, R447: the sizes of a warp's sections, in order. -/
def LaunchRec.warpSections (r : LaunchRec) : List Nat :=
  [4096, 128 * r.vec, 4 * r.uni, 32, 16 * r.tile, 48, 32 * r.net, 1024, if r.stairEn = 0 then 0 else 4608, 1024, 1024]

/-- R449: the sizes of a team's sections, in order; the landings come last. -/
def LaunchRec.teamSections (r : LaunchRec) : List Nat :=
  [512, 512 * (8 * r.accGran), 256 * r.accGran, cdiv r.gallery 4096 * 4096, if r.stairEn = 0 then 0 else 65536]

/-- R447: the offsets of sections from the header, 0 where a section takes no space. DEDUCED, log 43. -/
def sectionOffsets (sizes : List Nat) : List Nat :=
  (sizes.foldl (fun (a : List Nat × Nat) n => (a.1 ++ [if n = 0 then 0 else a.2], a.2 + up128 n)) ([], 128)).1

/-- Bytes at an offset of a context. -/
def putBytes (c : Cells 8) (off : Nat) (bs : List Byte) : Cells 8 :=
  csetAll c (((List.range bs.length).map (off + ·)).zip bs)

/-- A number of a context. -/
def ctxNat (c : Cells 8) (off n : Nat) : Nat := leNat ((List.range n).map fun i => cget c (off + i))

/-- A word for each lane at an offset of a context. -/
def ctxLanes (c : Cells 8) (off : Nat) (w : Nat) : Cells w :=
  csetAll [] ((List.range 32).map fun l => (l, BitVec.ofNat w (ctxNat c (off + 4 * l) 4)))

/-- The words of 32 lanes, lane 0 first. -/
def laneWords (f : Nat → W32) : List Byte := (List.range 32).flatMap fun l => bytes4 (f l)

/-- R448: a lane's loop stack: 64 bytes. -/
def loopBytes (l : List LoopEnt) : List Byte :=
  let ents := l.reverse
  natBytes 4 ents.length ++ natBytes 4 0 ++ ((List.range 2).flatMap fun i =>
    match ents[i]? with
    | some e => natBytes 8 e.start.toNat ++ natBytes 8 e.stop.toNat ++ bytes4 e.count ++ natBytes 4 0
    | none => natBytes 24 0) ++ natBytes 8 0

/-- R448: the special section. -/
def State.specialBytes (s : State) (c : Ctx) : List Byte :=
  let w := c.w
  let spec := fun (n : Nat) => (s.special c (BitVec.ofNat 8 n) 0).toNat
  let emu := (List.range 11).flatMap (fun i => natBytes 4 (spec (0x30 + i))) ++ natBytes 8 (spec 0x3B)
  let hit := fun (l : Nat) => (tget w.hitKey l).getD (0, 0, 0, 0)
  let b := (List.range 32).flatMap (fun l => natBytes 8 (cget w.pc l).toNat) ++ laneWords (cget w.srctr ·) ++
    laneWords (fun l => (cget w.qseal l).setWidth 32) ++ laneWords (cget w.atomo ·) ++
    (List.range 32).flatMap (fun l => loopBytes ((tget w.loops l).getD [])) ++
    bytes4 w.exited ++ bytes4 w.parked ++ bytes4 w.stopped ++ bytes4 w.ready ++
    natBytes 4 w.fstat.toNat ++ natBytes 4 w.mstat.toNat ++
    (List.range 4).flatMap (fun q => bytes4 (cget w.mprog q)) ++
    emu ++ List.replicate (64 - emu.length) 0 ++
    natBytes 4 (spec 0x40) ++ natBytes 4 (spec 0x41) ++ natBytes 8 (spec 0x42) ++
    natBytes 8 (w.emu.inside.toNat + 2 * w.dbg.inside.toNat + 4 * w.dbg.fromEmu.toNat) ++
    laneWords (cget w.emuRes ·) ++
    (List.range 32).flatMap fun l =>
      let h := hit l
      bytes4 h.1 ++ bytes4 h.2.1 ++ bytes4 h.2.2.1 ++ bytes4 h.2.2.2
  b ++ List.replicate (4096 - b.length) 0

/-- R448: a lane's loop stack as its bytes say. -/
def ctxLoop (c : Cells 8) (off : Nat) : List LoopEnt :=
  ((List.range (min 2 (ctxNat c off 4))).map fun i =>
    let n := fun (o len : Nat) => ctxNat c (off + 8 + 24 * i + o) len
    { start := w64 (n 0 8), stop := w64 (n 8 8), count := BitVec.ofNat 32 (n 16 4) : LoopEnt }).reverse

/-- R448: the word that the emulation registers of R70 were taken from. -/
def ctxWord (c : Cells 8) (off : Nat) : IWord :=
  let n := fun (i : Nat) => ctxNat c (off + 4 * i) 4
  BitVec.ofNat 96 (n 0 * 2 ^ 89 + n 1 * 2 ^ 84 + n 2 * 2 ^ 79 + n 3 * 2 ^ 68 + n 4 * 2 ^ 56 + n 5 * 2 ^ 44 + n 6 * 2 ^ 32 +
    n 7 * 2 ^ 20 + n 8)

/-- R44, R448: a warp with what a special section holds. -/
def Warp.loadSpecial (w : Warp) (at0 : Nat) : Warp :=
  let c := w.ckpt
  let n := fun (off len : Nat) => ctxNat c (at0 + off) len
  let m := fun (off : Nat) => (BitVec.ofNat 32 (n off 4) : Mask)
  let lane := fun (off w : Nat) => ctxLanes c (at0 + off) w
  let bit := fun (i : Nat) => n 2808 1 / 2 ^ i % 2 = 1
  { w with
    pc := csetAll [] ((List.range 32).map fun l => (l, w64 (n (8 * l) 8)))
    srctr := lane 256 32
    qseal := lane 384 5
    atomo := lane 512 32
    loops := ((List.range 32).map fun l => (l, ctxLoop c (at0 + 640 + 64 * l))).filter (!·.2.isEmpty)
    exited := m 2688
    parked := m 2692
    stopped := m 2696
    ready := m 2700
    fstat := BitVec.ofNat 3 (n 2704 4)
    mstat := BitVec.ofNat 2 (n 2708 4)
    mprog := csetAll [] ((List.range 4).map fun q => (q, m (2712 + 4 * q)))
    emu := { w.emu with inside := bit 0, word := ctxWord c (at0 + 2728), cause := n 2764 4, lanes := m 2768, pc := w64 (n 2772 8) }
    dbg := { w.dbg with inside := bit 1, fromEmu := bit 2, code := BitVec.ofNat 16 (n 2792 4), lanes := m 2796,
                        pc := w64 (n 2800 8) }
    emuRes := lane 2816 32
    hitKey := (List.range 32).foldl (fun t l =>
      let k := (m (2944 + 16 * l), m (2948 + 16 * l), m (2952 + 16 * l), m (2956 + 16 * l))
      if k = (0, 0, 0, 0) && (tget t l).isNone then t else tset t l k) w.hitKey }

/-- R442: what changes of a warp while its context is saved is written there. DEDUCED, log 43. -/
def State.resave (s : State) (wid : Nat) : State :=
  match s.ctxOf wid 0 with
  | none => s
  | some c =>
    if c.w.firstSaved && (c.w.residence == .nonResident || c.w.residence == .none) then
      let at0 := ((sectionOffsets c.g.rec_.warpSections)[0]?).getD 0
      s.setWarp wid { c.w with ckpt := putBytes c.w.ckpt at0 (s.specialBytes c) }
    else s

end Sys2Proof.Machine
end

