-- ==== Sys2Proof/Machine/Sync.lean ====
section
/-! DEFINITION. Barriers (R123, R185, R257, R350), stairs (R130 to R136, R351, R352) and probe returns (R200, R454). -/

namespace Sys2Proof.Machine

open Sys2Proof

/-! ## Barriers -/

/-- The lanes of a warp that have not exited. -/
def Warp.alive (w : Warp) : Mask := w.launched &&& ~~~w.exited

/-- R110: the units of a grid are teams, or clusters of teams; whether a die group has been placed whole. -/
def Grid.dispatched (g : Grid) (grp : Nat) : Bool :=
  g.seqs.all (fun q => !(q.dieIdx == grp / 16 && q.sockets.contains (grp % 16)) || q.stop ≤ q.nextUnit) && g.again.isEmpty

/-- R118: the unit and rank of a team. -/
def LaunchRec.unitOf (r : LaunchRec) (lin : Nat) : Nat × Nat :=
  let x := lin % r.gx
  let y := lin / r.gx % r.gy
  let z := lin / r.gx / r.gy
  (x / r.cx + r.gx / r.cx * (y / r.cy + r.gy / r.cy * (z / r.cz)), x % r.cx + r.cx * (y % r.cy + r.cy * (z % r.cz)))

/-- The owner of a barrier of a level: the team, its cluster or its die group. -/
def Ctx.barOwner (c : Ctx) : BarLvl → Nat
  | .team => c.w.tid
  | .clu => match c.t.kind with
    | .root => c.t.gid * 2 ^ 40 + c.t.clu
    | _ => c.t.gid * 2 ^ 40 + 2 ^ 39 + c.w.tid
  | .die => c.t.gid * 2 ^ 40 + c.t.group

/-- R350: the teams that take part in a barrier, and whether all of them have been placed: a team that was aborted and waits to
be placed again (R128) has not arrived. -/
def State.barTeams (s : State) (lvl : BarLvl) (owner : Nat) : List (Nat × Team) × Bool :=
  match lvl with
  | .team => (s.teams.filter (·.1 == owner), true)
  | .clu =>
    let k := owner % 2 ^ 40
    (s.teams.filter fun t => t.2.gid == owner / 2 ^ 40 &&
      (match t.2.kind with | .root => t.2.clu == k | _ => k == 2 ^ 39 + t.1),
      ((s.grid? (owner / 2 ^ 40)).map fun g => g.again.all fun x =>
        match x.2.1 with | .root => (g.rec_.unitOf x.1).1 != k | _ => true).getD true)
  | .die =>
    let k := owner % 2 ^ 40
    (s.teams.filter fun t => t.2.gid == owner / 2 ^ 40 && t.2.group == k &&
      (match t.2.kind with | .shader _ => false | _ => true),
      ((s.grid? (owner / 2 ^ 40)).map fun g => g.dispatched k).getD true)

def State.bar (s : State) (lvl : BarLvl) (owner i : Nat) : Bar :=
  (s.bars.find? fun b => b.lvl == lvl && b.owner == owner && b.i == i).getD ⟨lvl, owner, i, 0, [], []⟩

def State.setBar (s : State) (b : Bar) : State :=
  { s with bars := b :: s.bars.filter fun x => !(x.lvl == b.lvl && x.owner == b.owner && x.i == b.i) }

/-- R350: every participant has arrived. -/
def State.barFull (s : State) (b : Bar) : Bool :=
  let (ts, placed) := s.barTeams b.lvl b.owner
  placed && !b.arrived.isEmpty && ts.all fun t => (t.2.wids t.1).all fun wid =>
    match s.warp? wid with
    | some w => w.alive == 0 || b.arrived.any (·.1 == wid)
    | none => true

/-- The lanes of a warp that wait at a barrier. -/
def Warp.atBar (w : Warp) (lvl : BarLvl) (i : Nat) : List Nat :=
  (lanesOf w.alive).filter fun l => tget w.waits l == some (.bar lvl i)

/-- R257: the warp arrives at `BAR.sync`: every lane that has not exited stands at that instruction. -/
def Warp.syncArrives (w : Warp) (lvl : BarLvl) (i : Nat) : Bool :=
  let ls := w.atBar lvl i
  w.alive != 0 && maskOf ls == w.alive && ls.all fun l => cget w.pc l == cget w.pc (ls.headD 0)

/-- R185, R350: a full phase completes: the warps at its `BAR.sync` are released and acquire; lanes that wait at the
barrier for the next phase try again. -/
def State.barComplete (s : State) (b : Bar) : State :=
  let (ts, _) := s.barTeams b.lvl b.owner
  let s := s.setBar { b with phase := b.phase + 1, arrived := [] }
  (ts.flatMap fun t => (t.2.wids t.1).map fun wid => (wid, t.2.core)).foldl (fun s x =>
    match s.warp? x.1 with
    | none => s
    | some w =>
      let ls := w.atBar b.lvl b.i
      if b.arrived.contains (x.1, true) then
        let s := (s.setWarp x.1 (w.leaveWait ls)).resave x.1
        if b.lvl = .team then s else s.modCore x.2 Core.invalidate
      else s.setWarp x.1 { w with waits := ls.foldl tdel w.waits }) s

def State.barCheck (s : State) (lvl : BarLvl) (owner i : Nat) : State :=
  let b := s.bar lvl owner i
  if s.barFull b then s.barComplete b else s

/-- R257: what a change of a warp's lanes brings about at a barrier: the warp may arrive, and the phase may complete. With an
arrival every earlier execution of a `BAR.arv` of the barrier is counted. DEDUCED, log 32. -/
def State.barArrive (s : State) (wid : Nat) (lvl : BarLvl) (owner i : Nat) : State :=
  match s.warp? wid with
  | none => s
  | some w =>
    let b := s.bar lvl owner i
    let has := b.arrived.any (·.1 == wid)
    let whole := b.exec.find? fun x => x.1 == wid && w.alive != 0 && w.alive &&& ~~~x.2.2 == 0
    let rest := b.exec.filter (·.1 != wid)
    let s :=
      if has then s
      else if whole.isSome then
        (s.setBar { b with arrived := b.arrived ++ [(wid, false)], exec := rest }).setWarp wid
          { w with waits := (w.atBar lvl i).foldl tdel w.waits }
      else if w.syncArrives lvl i then s.setBar { b with arrived := b.arrived ++ [(wid, true)], exec := rest }
      else s
    s.barCheck lvl owner i

/-- R350: the exit of lanes may complete an arrival or a phase. -/
def State.barsAfterExit (s : State) (wid : Nat) : State :=
  match s.warp? wid, s.team? (wid / 32) with
  | some _, some _ =>
    s.bars.foldl (fun s b =>
      if (s.barTeams b.lvl b.owner).1.any (·.1 == wid / 32) then s.barArrive wid b.lvl b.owner b.i else s) s
  | _, _ => s

/-- R112, R113: the number of barriers of a level. -/
def LaunchRec.bars (r : LaunchRec) : BarLvl → Nat
  | .team => r.barTeam
  | .clu => r.barClu
  | .die => r.barDie

/-- R185, R181, R362: the release of an arrival: `none` while the warp's earlier accesses and matrix operations are not done; a
drain it must send. DEDUCED, log 32. -/
def State.barRelease (s : State) (c : Ctx) (lvl : BarLvl) : Option (Option Nat) :=
  if !c.w.sq.isEmpty || c.w.pend.any (·.kind.ordered) || (s.core c.t.core).mxq.any (·.wid == c.wid) then none
  else if lvl = .team then some none
  else
    match s.releaseDrain c.w c.t.core with
    | some l => if c.w.unack < 63 then some (some l) else none
    | none => if s.released c.w c.t.core then some none else none

/-- A `BAR` word: its checks (R71, R123), the end of replay (R129), the release of the arrival; then `k`. -/
def State.barWord (s : State) (i : Instr) (lvl : BarLvl) (idx : BitVec 4) (k : Ctx → State) : Out :=
  s.run i fun c on =>
    match c.nested on with
    | some (cause, m) => s.stopLanes c cause m 0 0
    | none =>
      if c.g.rec_.bars lvl ≤ idx.toNat then s.stop c .barIdx (idx.setWidth 64)
      else
        match s.barRelease c lvl with
        | none => s
        | some (some l) => s.drain c.t.core c.wid l
        | some none => k c

/-- R350, R257: lanes that may not execute the word yet wait at it. DEDUCED, log 32. -/
def execBarArv (f : Fmt) (lvl : BarLvl) (i : BitVec 4) (s : State) : Out :=
  s.barWord (.barArv f lvl i) lvl i fun c =>
    let s := if lvl = .team || c.t.commit.isEmpty then s else s.unrepeatable c
    let owner := c.barOwner lvl
    let b := s.bar lvl owner i.toNat
    let has := b.arrived.any (·.1 == c.wid)
    let prev := ((b.exec.find? fun x => x.1 == c.wid && x.2.1 == c.pc).map (·.2.2)).getD 0
    let hold := if has then c.lanes else c.lanes &&& prev
    let go := c.lanes &&& ~~~hold
    let w := c.w.setWait (lanesOf hold) (.bar lvl i.toNat)
    let b := if go = 0 then b else
      { b with exec := (c.wid, c.pc, prev ||| go) :: b.exec.filter fun x => !(x.1 == c.wid && x.2.1 == c.pc) }
    ((s.setBar b).setWarp c.wid (s.issued (c.advance w go) c.lanes)).barArrive c.wid lvl owner i.toNat

/-- R350, R257: the lanes wait at the word. DEDUCED, log 32. -/
def execBarSync (f : Fmt) (lvl : BarLvl) (i : BitVec 4) (s : State) : Out :=
  s.barWord (.barSync f lvl i) lvl i fun c =>
    let s := if lvl = .team || c.t.commit.isEmpty then s else s.unrepeatable c
    let owner := c.barOwner lvl
    let w := c.w.setWait (lanesOf c.lanes) (.bar lvl i.toNat)
    ((s.setBar (s.bar lvl owner i.toNat)).setWarp c.wid (s.issued w c.lanes)).barArrive c.wid lvl owner i.toNat

/-! ## Stairs (R130 to R136) -/

/-- R130: the distances of a channel that reads may name. -/
def LaunchRec.distances (r : LaunchRec) (j : Nat) : List Nat :=
  ((List.range 8).filter fun k => r.stairDist.getLsbD (8 * j + k)).map (· + 1)

/-- R110: the items of a grid. -/
def Grid.items (g : Grid) : Nat := g.rootTeams * g.rec_.teamSize

/-- R132: the m-th value of an item on a channel has been released. -/
def Grid.released (g : Grid) (p j m : Nat) : Bool :=
  (g.rec_.distances j).all fun k =>
    g.items ≤ p + k || m ≤ (tget g.rdN (chanKey (p + k) j * 8 + (k - 1))).getD 0 || g.itemsExited.contains (p + k)

/-- R132: a lane's next publish must wait. -/
def Grid.pubHeld (g : Grid) (item j n : Nat) : Bool := 16 < n && !g.released item j (n - 16)

/-- The key of a published value. -/
def pubKey (item j n : Nat) : Nat := chanKey item j * 2 ^ 33 + n

/-- R351, R453: the publish of a value by a lane; its count is at most 0xFFFF_FFFE. -/
def State.publish (s : State) (c : Ctx) (j l : Nat) (v : W32) : State :=
  let item := (s.item c l).toNat
  let (id, s) := s.newId
  s.modGrid c.t.gid fun g =>
    let n := (tget g.pubN (chanKey item j)).getD 0 + 1
    { g with pubs := tset g.pubs (pubKey item j n) v, pubN := tset g.pubN (chanKey item j) n
             pubSeq := tset g.pubSeq (pubKey item j n) (id, s.ns, c.t.core) }

/-- R132: the ordinal of the item's next publish on a channel. -/
def Grid.nextPub (g : Grid) (item j : Nat) : Nat := (tget g.pubN (chanKey item j)).getD 0 + 1

/-- R194: a release fence stands in the warp's store queue. -/
def Warp.releasing (w : Warp) : Bool := w.sq.any fun e => e.kind == .fence

/-- R132: some of the lanes must hold their next publish. -/
def State.pubWaits (s : State) (c : Ctx) (j : Nat) (on : Mask) : Bool :=
  (lanesOf on).any fun l =>
    let item := (s.item c l).toNat
    cget c.w.pubCnt (j * 32 + l) ≠ 0xFFFFFFFF && c.g.pubHeld item j (c.g.nextPub item j)

/-- A `PUBQ` begins to wait. -/
def Warp.notePub (w : Warp) (pc : W64) (ns : Nat) : Warp :=
  if w.pubWait.any (·.1 == pc) then w else { w with pubWait := w.pubWait ++ [(pc, ns, false)] }

/-- R351, R130, R132; a release fence of the warp is done first (R194). -/
def execPubq (f : Fmt) (j : BitVec 2) (s : State) : Out :=
  s.run (.pubq f j) fun c on =>
    let key := fun (l : Nat) => j.toNat * 32 + l
    match c.t.kind with
    | .node _ _ _ => s.finish c f on c.lanes c.w
    | _ =>
      let full := (lanesOf on).filter fun l => cget c.w.pubCnt (key l) = 0xFFFFFFFF
      let live := (lanesOf on).filter fun l => cget c.w.pubCnt (key l) ≠ 0xFFFFFFFF
      if s.pubWaits c j.toNat on then s.setWarp c.wid (c.w.notePub c.pc s.ns)
      else if c.w.releasing then s
      else
        let w := live.foldl (fun w l => { w with
          pubCnt := cset w.pubCnt (key l) (cget w.pubCnt (key l) + 1)
          dirty := { w.dirty with stair := cset w.dirty.stair j.toNat 1 } }) c.w
        let w := full.foldl (fun w l => { w with qseal := cset w.qseal l (cget w.qseal l ||| (1#5 <<< j.toNat)) }) w
        let w := { w with pubWait := w.pubWait.filter (·.1 != c.pc) }
        (live.foldl (fun s l => s.publish c j.toNat l (s.src c 0 .raw f.a l)) s).finish c f on c.lanes w

/-- R39, R253: the items whose stair reads a team's lanes perform. -/
def State.readers (s : State) (g : Grid) (t : Team) : List Nat :=
  match t.kind with
  | .root => (List.range g.rec_.teamSize).map (t.lin * g.rec_.teamSize + ·)
  | .node _ _ _ => []
  | .shader trs => (trs.filterMap fun id => (tget s.traces id).map (·.item)).filter (· < 2 ^ 63)

/-- R39, R133: what has yet to land at a core that holds a reader: item, channel, and when the reader's team was placed. -/
def State.landings (s : State) (gid : Nat) (g : Grid) (core : Nat) : List (Nat × Nat × Nat) :=
  let mine := s.teams.filter fun t => t.2.gid == gid && t.2.core == core && (t.2.st == .running || t.2.st == .halting)
  (mine.flatMap fun t => (s.readers g t.2).flatMap fun item =>
      (List.range 4).flatMap fun j =>
        ((g.rec_.distances j).filter (· ≤ item)).map fun k => (item - k, j, t.2.placedNs)).filter fun x =>
    let (n, ex) := (s.core core).landedAt gid x.1 x.2.1
    n < (tget g.pubN (chanKey x.1 x.2.1)).getD 0 || (g.itemsExited.contains x.1 && !ex)

/-- R453: a stair packet on its way: the core it goes to, what it carries, when it entered its channel, its number and the core
it comes from. -/
structure StairPkt where
  gid : Nat
  core : Nat
  item : Nat
  ch : Nat
  ns : Nat
  num : Nat
  src : Nat
  deriving DecidableEq, Repr

/-- The next packet of each item and channel for a core: it leaves when it is published, or when its reader is placed. -/
def State.stairPackets (s : State) (gid : Nat) (g : Grid) (core : Nat) : List StairPkt :=
  (s.landings gid g core).map fun x =>
    let n := ((s.core core).landedAt gid x.1 x.2.1).1
    let e := ((tget g.pubSeq (pubKey x.1 x.2.1 (n + 1))).or (tget g.exitSeq x.1)).getD (0, 0, core)
    { gid := gid, core := core, item := x.1, ch := x.2.1, ns := max e.2.1 x.2.2, num := e.1, src := e.2.2 }

/-- The stair packets of the module for the cores of a socket. -/
def State.stairTraffic (s : State) (dst : Nat) : List StairPkt :=
  s.grids.flatMap fun g =>
    if g.2.rec_.stairEn = 0 then []
    else
      let cores := ((s.teamsOf g.1).map (·.2.core)).foldl (fun l k => if l.contains k then l else l ++ [k]) []
      (cores.filter fun k => socketOf k == dst).flatMap fun k => s.stairPackets g.1 g.2 k

/-- R453: a packet entered a channel between two sockets before another of that channel. -/
def StairPkt.ahead (x y : StairPkt) : Bool :=
  socketOf x.src == socketOf y.src && socketOf x.src != socketOf x.core &&
    (x.ns < y.ns || (x.ns == y.ns && x.num < y.num))

/-- R453: the packet is the first of its channel. -/
def State.stairFirst (s : State) (gid : Nat) (g : Grid) (core item ch : Nat) : Bool :=
  let all := s.stairTraffic (socketOf core)
  (s.stairPackets gid g core).any fun p => p.item == item && p.ch == ch && !all.any fun x => x.ahead p

/-- R131, R132, R39: the next value of an item on a channel, or its exit, lands in a core. DEDUCED, log 73. -/
def execStairValueArrival (grid core item ch : Nat) (s : State) : Out :=
  match s.grid? grid with
  | none => .next s
  | some g =>
    let (n, ex) := (s.core core).landedAt grid item ch
    let total := (tget g.pubN (chanKey item ch)).getD 0
    let put := fun (n : Nat) (ex : Bool) => s.modCore core fun k => k.land grid item ch n ex
    if !s.stairFirst grid g core item ch then .next s
    else if n < total then .next (put (n + 1) ex)
    else if g.itemsExited.contains item && !ex then .next (put n true)
    else .next s

/-- R132, R316: a `PUBQ` that has waited 100 ms is reported once, when the warp's results are written; no lane stops. -/
def execStairStall (wid : Nat) (s : State) : Out :=
  match s.warp? wid with
  | none => .next s
  | some w =>
    match w.pubWait.find? fun x => !x.2.2 && x.2.1 + 100000000 ≤ s.ns with
    | none => .next s
    | some x =>
      match s.ctxOf wid w.launched with
      | none => .next s
      | some c =>
        if !s.canReport || !s.drained c then .next s
        else
          .next ((s.setWarp wid { w with pubWait := w.pubWait.map fun y => if y == x then (x.1, x.2.1, true) else y }).report
            (warpEvent c.g c.t w .stairStall 0 x.1 0 0))

/-- R352. -/
def execQstat (f : Fmt) (j : BitVec 2) (k : BitVec 3) (sel : QSel) (s : State) : Out :=
  s.alu1 (.qstat f j k sel) f fun c l =>
    match sel with
    | .pub => cget c.w.pubCnt (j.toNat * 32 + l)
    | .rd => cget c.w.rdCnt ((8 * j.toNat + k.toNat) * 32 + l)
    | .ready =>
      match c.t.kind with
      | .node _ _ _ => 1
      | _ =>
        if (c.g.rec_.distances j.toNat).contains (k.toNat + 1) && (s.stair c j.toNat k.toNat l).isSome then 1 else 0

/-! ## Probe returns (R200, R454) -/

/-- R200, R454: what was on a channel between two sockets before a probe: requests on VC0, the partials of update-only lines on
VC2, stair values on VC3. Every other packet is delivered in the step in which it is sent. DEDUCED, log 73. -/
def State.channelBusy (s : State) (sock vc dst mark : Nat) : Bool :=
  match vc with
  | 0 | 2 => s.cores.any fun x => socketOf x.1 == sock && x.2.inflight.any fun r =>
      r.id < mark && r.vc == vc && s.targetSocket x.1 r == dst && !r.arrived && !r.returned && !r.isOrdered &&
        !(heldReqs x.2.inflight).contains r
  | 3 => (s.stairTraffic dst).any fun p => p.num < mark && socketOf p.src == sock
  | _ => false

/-- A probe returns once every packet that its socket put on its channel toward the other before it has been delivered or
returned. DEDUCED, log 73. -/
def execFlushProbeReturn (wid vc dst : Nat) (s : State) : Out :=
  match s.warp? wid, s.team? (wid / 32) with
  | some w, some t =>
    match w.probe.find? fun p => p.left.contains (vc, dst) with
    | none => .next s
    | some p =>
      if s.channelBusy (socketOf t.core) vc dst p.mark then .next s
      else
        .next (s.setWarp wid { w with probe := w.probe.map fun x =>
          if x == p then { x with left := x.left.erase (vc, dst) } else x })
  | _, _ => .next s

end Sys2Proof.Machine
end

