-- ==== Sys2Proof/Machine/Launch.lean ====
section
/-! DEFINITION. Launch records: reading, checking, accepting (R112 to R116, R119, R126, R137, R138). -/

namespace Sys2Proof.Machine

open Sys2Proof

/-! ## The fields (R112 to R114) -/

/-- R114. -/
def fmtSlot (bs : List Byte) (i : Nat) : FmtSlot :=
  let ctl := field bs (128 + 12 * i + 8) 4
  { seed := w64 (field bs (128 + 12 * i) 8), elem := ctl % 16, rmode := ctl / 16 % 8, special := ctl / 128 % 2 == 1,
    scale := ctl / 256 % 2 == 1 }

/-- R112, R113. -/
def parseRec (bs : List Byte) : LaunchRec :=
  let one := fun (x : Nat) => if x = 0 then 1 else x
  { entry := field bs 0 8, paramBase := field bs 8 8, gx := field bs 16 4, gy := field bs 20 2, gz := field bs 22 2,
    tx := field bs 24 2, ty := field bs 26 2, tz := field bs 28 2, cx := one (field bs 30 2 % 16),
    cy := one (field bs 30 2 / 16 % 16), cz := one (field bs 30 2 / 256 % 16), block := field bs 32 2 / 256 % 2 == 1,
    dieMask := field bs 32 2 % 64, vec := field bs 34 2, uni := field bs 36 1, tile := field bs 37 1, net := field bs 38 1,
    accGran := field bs 39 1, gallery := field bs 40 4, barTeam := field bs 44 1, barClu := field bs 45 1,
    barDie := field bs 46 1, ordered := field bs 47 1 / 2 % 2 == 1, replay := field bs 47 1 % 2 == 1,
    priority := field bs 48 1 % 8, traceDepth := field bs 49 1, payloadRegs := field bs 50 1, faultqLog2 := field bs 51 1,
    payloadGal := field bs 52 2, nodeCount := field bs 54 1, stairEn := field bs 55 1,
    stairDist := BitVec.ofNat 32 (field bs 56 4), paramWords := field bs 60 2,
    stairDef := (List.range 4).map fun j => BitVec.ofNat 32 (field bs (64 + 4 * j) 4), faultqBase := field bs 80 8,
    emuEntry := field bs 88 8, handlerQ := field bs 96 8, parent := field bs 104 8, nodeTable := field bs 112 8,
    dieScratch := field bs 120 4, spillBytes := field bs 124 4, format := (List.range 8).map (fmtSlot bs),
    doneAddr := field bs 224 8, doneValue := w64 (field bs 232 8) }

/-- R137. -/
structure NodeRaw where
  entry : Nat
  pred : Nat
  feed : W64
  count : Nat
  timer : Nat
  threads : Nat
  recBytes : Nat
  flags : Nat
  deriving DecidableEq, Repr

def parseNode (bs : List Byte) (i : Nat) : NodeRaw :=
  { entry := field bs (32 * i) 8, pred := field bs (32 * i + 8) 8, feed := w64 (field bs (32 * i + 16) 8),
    count := field bs (32 * i + 24) 2, timer := field bs (32 * i + 26) 2, threads := field bs (32 * i + 28) 2,
    recBytes := field bs (32 * i + 30) 1, flags := field bs (32 * i + 31) 1 }

/-! ## The checks (R115) -/

/-- R115, R212 `LR_RESERVED`. -/
def recReserved (bs : List Byte) (r : LaunchRec) : Bool :=
  field bs 30 2 / 4096 != 0 || field bs 32 2 / 512 != 0 || field bs 32 2 / 64 % 4 != 0 || field bs 47 1 / 4 != 0 ||
  field bs 48 1 / 8 != 0 || r.stairEn / 16 != 0 || field bs 62 2 != 0 || r.parent / 2 ^ 60 != 0 || field bs 240 16 != 0 ||
  ((List.range 8).any fun i =>
    let ctl := field bs (128 + 12 * i + 8) 4
    ctl / 512 != 0 || 4 < ctl / 16 % 8 || 7 < ctl % 16 ||
      (ctl / 256 % 2 = 1 && (ctl % 16 = 0 || ctl % 16 = 6 || ctl % 16 = 7))) ||
  r.paramBase % 8 != 0 || (r.paramBase = 0 && r.paramWords != 0) || r.faultqBase % 4096 != 0 || r.doneAddr % 8 != 0

/-- R115 `LR_ENTRY`. -/
def recEntry (r : LaunchRec) (ns : List NodeRaw) : Bool :=
  let bad := fun (x m : Nat) => x % m != 0 || 2 ^ 57 ≤ x
  bad r.entry 384 || bad r.emuEntry 12 || ns.any fun n => bad n.entry 384

/-- R115 `LR_DIMS`. -/
def recDims (r : LaunchRec) : Bool :=
  r.gx = 0 || r.gy = 0 || r.gz = 0 || r.teamSize = 0 || 1024 < r.teamSize || 0xFFFFFFFF < r.gx * r.gy * r.gz ||
  r.gx % r.cx != 0 || r.gy % r.cy != 0 || r.gz % r.cz != 0

/-- R115, R254 `LR_COUNT`. -/
def recCount (r : LaunchRec) : Bool :=
  256 < r.vec || 64 < r.uni || 8 < r.tile || 4 < r.net || 64 < r.accGran || 16 < r.barTeam || 8 < r.barClu ||
  16 < r.barDie || 8 < r.traceDepth || 32 < r.payloadRegs || 16384 < r.payloadGal || r.payloadGal % 16 != 0 || r.gallery < r.payloadGal ||
  r.faultqLog2 < 6 || 16 < r.faultqLog2 || 64 < r.nodeCount || 1024 < r.paramWords || 4194304 < r.dieScratch ||
  r.dieScratch % 65536 != 0 || 65536 < r.spillBytes || r.spillBytes % 16 != 0

/-- R115 `LR_ORDER`. -/
def recOrder (r : LaunchRec) : Bool :=
  (r.stairEn != 0 && !r.ordered) || (r.ordered && r.block) || (r.replay && (r.stairEn != 0 || r.ordered)) ||
  ((List.range 4).any fun j => r.stairEn / 2 ^ j % 2 = 0 && r.stairDist.toNat / 2 ^ (8 * j) % 256 != 0)

/-- R16, R116: gallery bytes a team takes. -/
def LaunchRec.galleryTake (r : LaunchRec) : Nat := cdiv r.gallery 4096 * 4096 + if r.replay then 65536 else 0

def LaunchRec.cluster (r : LaunchRec) : Nat := r.cx * r.cy * r.cz

/-- The number of warps of a team of `n` threads. -/
def warpsOf (n : Nat) : Nat := cdiv n 32

/-- R119: the number of dispatch units. -/
def LaunchRec.units (r : LaunchRec) : Nat := r.gx / r.cx * (r.gy / r.cy) * (r.gz / r.cz)

/-- R116: the teams of `n` threads that one empty core holds. DEDUCED, log 42. -/
def LaunchRec.perCore (r : LaunchRec) (n : Nat) : Nat :=
  let lim := fun (cap take : Nat) => if take = 0 then 32 else cap / take
  [32, 32 / cdiv (warpsOf n) 4, lim 393216 r.galleryTake, lim 64 r.barTeam, lim 512 (8 * r.accGran)].foldl min 32

/-- R119: the units of the d-th die of D under block placement. -/
def blockRange (u dies d : Nat) : Nat × Nat := (d * u / dies, (d + 1) * u / dies)

/-- R115 `LR_FIT`: a team, a cluster or a die group is more than an empty die holds. DEDUCED, log 42. -/
def recFit (r : LaunchRec) (dies : Nat) : Bool :=
  r.perCore r.teamSize = 0 ||
  (r.barDie != 0 && (List.range dies).any fun d =>
    let (lo, hi) := blockRange r.units dies d
    24 * r.perCore r.teamSize < (hi - lo) * r.cluster || 32 < (hi - lo) * r.barClu)

/-- R138: the edges of the work graph have no cycle: nodes are taken away that no remaining node feeds. -/
def acyclic (ns : List NodeRaw) : Nat → List Nat → Bool
  | 0, left => left.isEmpty
  | fuel + 1, left =>
    let free := left.filter fun n =>
      !left.any fun f => f != n && ((ns[n]?).map fun x => x.feed.getLsbD f).getD false
    if left.isEmpty then true
    else if free.isEmpty then false
    else acyclic ns fuel (left.filter fun n => !free.contains n)

/-- R115 `LR_NODE`: R137 and R138. -/
def recNode (r : LaunchRec) (ns : List NodeRaw) : Bool :=
  r.nodeTable % 256 != 0 || (r.nodeTable != 0 && r.nodeCount = 0) || (r.nodeTable = 0 && r.nodeCount != 0) ||
  (ns.any fun n =>
    n.pred % 4 != 0 || (n.flags = 0 && n.pred != 0) || 1 < n.flags || n.count = 0 || 1024 < n.count || n.threads = 0 ||
    1024 < n.threads || n.recBytes < 4 || 64 < n.recBytes || n.recBytes % 4 != 0 || r.gallery < n.count * n.recBytes ||
    2 ^ r.nodeCount ≤ n.feed.toNat) ||
  !acyclic ns (ns.length + 1) (List.range ns.length)

/-! ## Effective mask (R119) -/

/-- R119: the dies a grid may use. -/
def State.effectiveMask (s : State) (dieMask : Nat) : List Nat :=
  let up := sockets.filter fun d => (s.die d).trained && (s.die d).inService
  let m := if dieMask = 0 then up else up.filter fun d => dieMask / 2 ^ (d - 1) % 2 = 1
  if m.isEmpty then up else m

/-! ## Reading and checking a record -/

/-- What comes of a submission: a status of R115, a fault of the read, or the record with its nodes. -/
inductive Submit where
  | rejected (i : Nat)
  | fault (ftype va : Nat)
  | ok (r : LaunchRec) (ns : List NodeRaw) (mask : List Nat)
  deriving DecidableEq, Repr

/-- R126: what the device fills into a child record. -/
def LaunchRec.asChild (r : LaunchRec) (g : Grid) (gid lin : Nat) : LaunchRec :=
  { r with
    parent := (g.depth + 1) * 2 ^ 56 + gid % 2 ^ 24 * 2 ^ 32 + lin % 2 ^ 32
    priority := min r.priority g.prio
    handlerQ := if r.handlerQ = 0 then g.rec_.handlerQ else r.handlerQ
    faultqLog2 := if r.faultqBase = 0 then g.rec_.faultqLog2 else r.faultqLog2
    faultqBase := if r.faultqBase = 0 then g.rec_.faultqBase else r.faultqBase }

/-- R412, R115: the live handler queue whose descriptor is at an address. -/
def State.handlerAt (s : State) (desc asid : Nat) : Option Nat :=
  (s.queues.find? fun q => q.2.desc == desc && q.2.kind == 1 && q.2.asid == asid && q.2.st != .destroyed).map (·.1)

/-- R115: the first status that a record meets. -/
def State.checkRec (s : State) (bs : List Byte) (r0 r : LaunchRec) (ns : List NodeRaw) (mask : List Nat) (asid : Nat)
    (child : Bool) : Option Nat :=
  if recReserved bs r0 then some 0
  else if recEntry r ns then some 1
  else if recDims r then some 2
  else if recCount r then some 3
  else if (if r.replay then 327680 else 393216) < r.gallery then some 4
  else if 12 < r.cluster || (r.ordered && (1 < r.cy || 1 < r.cz)) then some 5
  else if recOrder r then some 6
  else if r.barDie != 0 && !r.block then some 7
  else if recFit r mask.length then some 8
  else if recNode r ns then some 9
  else if (if child then 10 < r.parent / 2 ^ 56 else r0.parent != 0) then some 10
  else if r.handlerQ != 0 && (s.handlerAt r.handlerQ asid).isNone then some 11
  else none

/-- R112, R115, R126: the device reads a record and checks it. `parent` is the grid, its identifier and the team's linear
index. Where the node table cannot be read, a status that the record meets without its entries rejects it; otherwise the fault
is that of the record's own read. DESIGN CHOICE, log 74. -/
def State.submit (s : State) (asid va : Nat) (parent : Option (Grid × Nat × Nat)) : Submit × State :=
  match s.vread asid va 256 with
  | (.error (f, a), s) => (.fault f a, s)
  | (.ok bs, s) =>
    let r0 := parseRec bs
    let r := match parent with
      | some (g, gid, lin) => r0.asChild g gid lin
      | none => r0
    let mask := s.effectiveMask r.dieMask
    let n := if r.nodeCount ≤ 64 && r.nodeTable % 256 = 0 && r.nodeTable != 0 then r.nodeCount else 0
    if n = 0 then
      match s.checkRec bs r0 r [] mask asid parent.isSome with
      | some i => (.rejected i, s)
      | none => (.ok r [] mask, s)
    else
      match s.vread asid r.nodeTable (32 * n) with
      | (.error (f, a), s) =>
        match s.checkRec bs r0 r [] mask asid parent.isSome with
        | some i => (.rejected i, s)
        | none => (.fault f a, s)
      | (.ok tb, s) =>
        let ns := (List.range n).map (parseNode tb)
        match s.checkRec bs r0 r ns mask asid parent.isSome with
        | some i => (.rejected i, s)
        | none => (.ok r ns mask, s)

/-! ## Acceptance (R119, R224) -/

def NodeRaw.start (n : NodeRaw) : Node :=
  { entry := n.entry, predAddr := n.pred, feed := n.feed, count := n.count, timer := n.timer, threads := n.threads,
    recBytes := n.recBytes, cond := if n.flags % 2 = 1 then .waiting else .none, bin := [], binSinceNs := 0,
    launchedTeams := 0, discarded := 0 }

/-- R119: the dispatch sequences. -/
def LaunchRec.seqs (r : LaunchRec) (mask : List Nat) : List DSeq :=
  if r.block then
    ((List.range mask.length).zip mask).map fun x =>
      let (lo, hi) := blockRange r.units mask.length x.1
      ⟨x.1, [x.2], lo, hi⟩
  else [⟨0, mask, 0, r.units⟩]

/-- What a grid takes from its submission. -/
structure Origin where
  asid : Nat
  qid : Nat
  handlerQ : Nat
  pktId : W32
  pktIdx : W32
  notify : Bool
  prioMax : Nat
  depth : Nat
  parentGid : Option Nat
  parentTid : Option Nat
  frames : List Frame
  deriving DecidableEq, Repr

/-- A grid is accepted; the result is its identifier. DESIGN CHOICE, log 2. -/
def State.accept (s : State) (r : LaunchRec) (ns : List NodeRaw) (mask : List Nat) (o : Origin) : Nat × State :=
  let gid := s.nextGid
  let hq := if r.handlerQ = 0 then o.handlerQ else (s.handlerAt r.handlerQ o.asid).getD o.handlerQ
  let g : Grid :=
    { st := .live, asid := o.asid, qid := o.qid, handlerQ := hq, pktId := o.pktId, pktIdx := o.pktIdx, notify := o.notify,
      rec_ := r, prio := min r.priority o.prioMax, depth := o.depth, parentGid := o.parentGid, parentTid := o.parentTid,
      order := gid, mask := mask, seqs := r.seqs mask, again := [], restore := [], waitSinceNs := s.ns,
      rootTeams := r.gx * r.gy * r.gz, rootRetired := 0,
      nodes := (List.range ns.length).zip (ns.map NodeRaw.start), pubs := [], pubN := [], rdN := [], pubSeq := [], exitSeq := [], itemsExited := [],
      atomoDone := [], atomoMade := [], frame := o.frames.head?.map fun f => f.opened mask, frames := o.frames.tail,
      faults := [], records := [], nextFaultSeq := 1, children := [], dbgEntry := none, startMoment := s.moment,
      discarded := 0, held := false }
  (gid, { s with grids := tset s.grids gid g, nextGid := gid + 1 })

end Sys2Proof.Machine
end

