-- ==== Sys2Proof/Machine/Tasks.lean ====
section
/-! DEFINITION. Work-graph records, child grids and buckets: NREC, LAUNCH, CHWAIT, BKACQ, BKDONE (R126, R139 to R143, R159,
R225, R226, R228, R229, R353 to R357). -/

namespace Sys2Proof.Machine

open Sys2Proof

/-! ## Work graph (R139, R142, R143, R353) -/

/-- A team of the node. -/
def TeamKind.ofNode (k : TeamKind) (n : Nat) : Bool := match k with | .node m _ _ => m == n | _ => false

/-- R142: a team of the node is running or unretired; one that was aborted and waits to be placed again is (R128). -/
def State.nodeBusy (s : State) (gid n : Nat) : Bool :=
  (s.teams.any fun t => t.2.gid == gid && t.2.kind.ofNode n) ||
    ((s.grid? gid).any fun g => g.again.any fun x => x.2.1.ofNode n)

/-- R140: a team of the node is running. -/
def State.nodeRuns (s : State) (gid n : Nat) : Bool :=
  s.teams.any fun t => t.2.gid == gid && t.2.kind.ofNode n && (t.2.st == .running || t.2.st == .halting)

/-- R142: the nodes that are complete, by rounds: a node follows the nodes that feed it. -/
def State.completeNodes (s : State) (gid : Nat) (g : Grid) : Nat → List Nat → List Nat
  | 0, done => done
  | fuel + 1, done =>
    let fed := fun (n : Nat) (x : Node) => (List.range 64).all fun f => !x.feed.getLsbD f || f == n || done.contains f
    let new := (g.nodes.filter fun x =>
      !done.contains x.1 && fed x.1 x.2 && x.2.bin.isEmpty && !s.nodeBusy gid x.1).map (·.1)
    if new.isEmpty then done else s.completeNodes gid g fuel (done ++ new)

/-- R142: every root team has retired. -/
def Grid.rootsDone (g : Grid) : Bool := g.rootTeams ≤ g.rootRetired

/-- R142: the node's feeders are complete. -/
def State.feedersDone (s : State) (gid : Nat) (g : Grid) (n : Nat) (x : Node) : Bool :=
  g.rootsDone &&
    let done := s.completeNodes gid g 65 []
    (List.range 64).all fun f => !x.feed.getLsbD f || f == n || done.contains f

/-- R142: the node is complete. -/
def State.nodeDone (s : State) (gid : Nat) (g : Grid) (n : Nat) : Bool :=
  g.rootsDone && (s.completeNodes gid g 65 []).contains n

def Grid.setNode (g : Grid) (n : Nat) (x : Node) : Grid := { g with nodes := tset g.nodes n x }

/-- R140, R143: the node launches under R140. -/
def Node.open_ (x : Node) : Bool := x.cond == .none || x.cond == .proceed

/-- R140: how many records a node launches a team with now; 0 where it launches none. -/
def State.nodeDue (s : State) (gid : Nat) (g : Grid) (n : Nat) (x : Node) : Nat :=
  if !x.open_ then 0
  else if x.count ≤ x.bin.length then x.count
  else if (x.timer != 0 && x.binSinceNs + x.timer ≤ s.ns) || (s.feedersDone gid g n x && !s.nodeRuns gid n) then x.bin.length
  else 0

/-- A node may yet launch a team. DEDUCED, log 18. -/
def State.nodeMay (s : State) (gid : Nat) (g : Grid) (n : Nat) (x : Node) : Bool :=
  !x.bin.isEmpty && x.cond != .discard &&
    (s.feedersDone gid g n x || (x.open_ && (x.count ≤ x.bin.length || x.timer != 0)))

/-! ## The end of a grid whose lanes have stopped (R424) -/

/-- Every launched lane of a grid's teams that has not exited is stopped, there is one, and no team can start. DEDUCED, log 18. -/
def State.allStopped (s : State) (gid : Nat) : Bool :=
  let ws := s.warps.filter fun x => match s.team? (x.1 / 32) with | some t => t.gid == gid | none => false
  let unit := match s.grid? gid with
    | some g => g.seqs.all (fun q => q.nextUnit ≥ q.stop) && g.again.isEmpty && g.restore.isEmpty &&
        g.nodes.all (fun n => !s.nodeMay gid g n.1 n.2)
    | none => false
  unit && ws.any (fun x => x.2.stopped != 0) &&
    ws.all (fun x => x.2.launched &&& ~~~x.2.exited &&& ~~~x.2.stopped == 0)

/-- R420: a warp report of the grid has not been written yet. DEDUCED, log 18. -/
def State.reportHeld (s : State) (gid : Nat) : Bool := s.hevents.any fun e => e.grid.toNat == gid && e.cause < 0x40

/-- R420, R424: a grid whose lanes have all stopped is terminated with `TERM_STOPPED`, once its warp reports have been
written. DEDUCED, log 18. -/
def State.checkStopped (s : State) (gid : Nat) : State :=
  if s.allStopped gid && !s.reportHeld gid then s.terminateGrid gid .termStopped 0 else s

/-! ## Records and child grids -/

/-- R139: records enter a bin; a node whose predicate was zero discards them (R143). -/
def State.appendRecs (s : State) (gid n : Nat) (rs : List (List W32)) : State :=
  s.modGrid gid fun g =>
    match tget g.nodes n with
    | none => g
    | some x =>
      if x.cond = .discard then g.setNode n { x with discarded := x.discarded + rs.length }
      else g.setNode n { x with bin := x.bin ++ rs, binSinceNs := if x.bin.isEmpty then s.ns else x.binSinceNs }

/-- The release at `.dev` of a word of the warp that hands work on (R185): `none` while its earlier accesses are not done;
a drain it must send. -/
def State.handOff (s : State) (c : Ctx) : Option (Option Nat) := s.barRelease c .die

/-- R353, R139, R143. -/
def execNrec (f : Fmt) (node : BitVec 6) (s : State) : Out :=
  s.run (.nrec f node) fun c on =>
    let n := node.toNat
    if on = 0 then s.finish c f on c.lanes c.w
    else
      match tget c.g.nodes n, f.a with
      | some x, .vec _ i =>
        let words := x.recBytes / 4
        if c.g.rec_.vec < i.toNat + words then s.stop c .ridx (w64 (max i.toNat c.g.rec_.vec))
        else if (match c.t.kind with | .node k _ _ => !x.feed.getLsbD k | _ => false) then s.stop c .nodeEdge (w64 n)
        else if x.cond != .discard && 65536 < x.bin.length + count on then
          if x.cond != .none && x.cond != .proceed && !s.feedersDone c.t.gid c.g n x then s.stop c .nodeFull (w64 n) else s
        else
          match s.handOff c with
          | none => s
          | some (some l) => s.drain c.t.core c.wid l
          | some none =>
            let s := s.unrepeatable c
            let rs := (lanesOf on).map fun l =>
              (List.range words).map fun k => cget c.w.vec ((i.toNat + k) * 32 + l)
            (s.appendRecs c.t.gid n rs).finish c f on c.lanes c.w
      | _, _ => s.stop c .nodeIdx (w64 n)

/-! ## Child grids (R126, R354, R355) -/

/-- R354: the report of a rejected child record. -/
def childReport (c : Ctx) (i addr : Nat) : HEvent :=
  { gridEvent c.g c.t.gid (.lr i) (w64 addr) with teamlin := BitVec.ofNat 32 c.t.lin, pc := c.pc }

/-- R126: what a child takes from its parent. -/
def Ctx.childOrigin (c : Ctx) : Origin where
  asid := c.g.asid
  qid := c.g.qid
  handlerQ := c.g.handlerQ
  pktId := c.g.pktId
  pktIdx := c.g.pktIdx
  notify := false
  prioMax := c.g.prio
  depth := c.g.depth + 1
  parentGid := some c.t.gid
  parentTid := some c.w.tid
  frames := []

/-- The grids of a queue that a `SIGNAL` waits for are those launched from its packets; a child joins its parent. -/
def State.adopt (s : State) (c : Ctx) (kid : Nat) : State :=
  (s.modTeam c.w.tid fun t => { t with children := t.children ++ [kid] }).modGrid c.t.gid
    fun g => { g with children := g.children ++ [kid] }

/-- R354. DEDUCED, log 34. -/
def execLaunch (f : Fmt) (s : State) : Out :=
  s.counted (.launch f) 0 (s.run (.launch f) fun c on =>
    match c.nested on with
    | some (cause, m) => s.stopLanes c cause m 0 0
    | none =>
      if on = 0 then s.finish c f on c.lanes c.w
      else if c.w.num != 0 then s.stop c .launchWarp 0
      else
        match s.handOff c with
        | none => s
        | some (some l) => s.drain c.t.core c.wid l
        | some none =>
          let put := fun (s : State) (v : W32) => match f.d with
            | .uni i => s.finish c f on c.lanes (c.w.setUni i.toNat v)
            | _ => s
          let addr := s.uni c on f.a true
          let reject := fun (s' : State) (i : Nat) =>
            if s.canReport then put (s'.report (childReport c i addr)) 0x80000000 else s
          let s' := s.unrepeatable c
          if addr % 256 != 0 then reject s' 0
          else
            match s'.submit c.g.asid addr (some (c.g, c.t.gid, c.t.lin)) with
            | (.fault ft va, s') => s'.complete c f on c.w [⟨lowest on, va, ft⟩] 1 0 on
            | (.rejected i, s') => reject s' i
            | (.ok r ns mask, s') =>
              let (kid, s') := s'.accept r ns mask c.childOrigin
              put (s'.adopt c kid) (BitVec.ofNat 32 (kid % 2 ^ 24)))

/-- R355: the child grid is not yet retired. DEDUCED, log 38. -/
def State.childLive (s : State) (kid : Nat) : Bool := match s.grid? kid with | some g => g.st == .live | none => false

/-- R355. DEDUCED, log 38. -/
def execChwait (f : Fmt) (all : Bool) (s : State) : Out :=
  s.run (.chwait f all) fun c on =>
    match c.nested on with
    | some (cause, m) => s.stopLanes c cause m 0 0
    | none =>
      let id := (s.uni c on f.a false) % 2 ^ 24
      let waits := c.t.children.any fun k => (all || k % 2 ^ 24 == id) && s.childLive k
      if on = 0 then s.finish c f on c.lanes c.w
      else if waits then s
      else (s.finish c f on c.lanes c.w).modCore c.t.core Core.invalidate

/-! ## Buckets (R159, R225, R228, R229, R356, R357) -/

/-- R159: a hall that may be handed out. -/
def Hall.free (h : Hall) : Bool := h.holder.isNone && h.carved.isEmpty && h.inService && h.reserved.isNone

/-- Bytes of a hall written by the device. -/
def Hall.setBytes (h : Hall) (off : Nat) (bs : List Byte) : Hall :=
  ((List.range bs.length).zip bs).foldl (fun h x => h.setByte (off + x.1) x.2) h

/-- R158, R228, R229: the hall prepared for a bucket of a team; a hall of another grid is zeroed first. Of a hall of the same
grid the vertex and sample records, the heap, the patch stack, the deep pool and the grid headers are prepared anew.
DESIGN CHOICE, log 9. -/
def Hall.prepare (h : Hall) (tid gid bx by_ : Nat) : Hall :=
  let keep := fun (o : Nat) => (0x200 ≤ o && o < 0x600) || 0x535000 ≤ o
  let cells := if h.grid == some gid then h.cells.filter fun x => keep x.1 else []
  let h := { h with holder := some tid, grid := some gid, cells := cells, heap := [], heapHead := 0, deepUsed := [],
                    listPos := none }
  (((h.setBytes 0 (natBytes 2 bx)).setBytes 2 (natBytes 2 by_)).setBytes 8 (natBytes 4 2048)).setBytes 40
    (natBytes 4 131072)

/-- R356. DEDUCED, log 34. -/
def execBkacq (f : Fmt) (s : State) : Out :=
  s.counted (.bkacq f) 0 (s.run (.bkacq f) fun c on =>
    match c.nested on with
    | some (cause, m) => s.stopLanes c cause m 0 0
    | none =>
      if on = 0 then s.finish c f on c.lanes c.w
      else if c.t.hall.isSome then s.stop c .hallHeld 0
      else
        let sock := socketOf c.t.core
        let put := fun (s : State) (v : W32) => match f.d with
          | .uni i => s.finish c f on c.lanes (c.w.setUni i.toNat v)
          | _ => s
        match s.pick ((List.range 8).filter fun h => (s.hall sock h).free) with
        | (none, _) => s
        | (some h, s') =>
          match c.g.frame with
          | none => put s 0xFFFFFFFF
          | some fr =>
            match fr.take c.g.mask sock with
            | none => s
            | some none => put s 0xFFFFFFFF
            | some (some (b, fr)) =>
              let bw := cdiv fr.width 32
              let s := s'.modGrid c.t.gid fun g => { g with frame := some fr }
              let s := s.modHall sock h fun x => x.prepare c.w.tid c.t.gid (b % bw) (b / bw)
              let s := s.modTeam c.w.tid fun t => { t with hall := some h, bucket := some b }
              put s (BitVec.ofNat 32 b))

/-- R357: render operations of the team on its hall are not complete. -/
def State.renderBusy (s : State) (tid : Nat) : Bool :=
  s.ops.any fun o => o.tid == tid && match o.kind with | .dice _ | .rast _ | .rslv _ => true | _ => false

/-- R357, R226: the hall is released, and the bucket becomes done or waits for the commit. -/
def State.bkDone (s : State) (tid : Nat) (t : Team) : State :=
  match t.hall with
  | none => s
  | some h =>
    let s := (s.releaseHall (socketOf t.core) h).modHall (socketOf t.core) h fun x => { x with heap := [] }
    let wait := if t.active then t.bucket.toList else []
    let s := s.modTeam tid fun t => { t with hall := none, bucket := none, bucketsPending := t.bucketsPending ++ wait }
    if t.active then s else s.bucketDone t.gid

/-- R357. -/
def execBkdone (f : Fmt) (s : State) : Out :=
  s.run (.bkdone f) fun c on =>
    if on = 0 then s.finish c f on c.lanes c.w
    else if c.t.hall.isNone then s.stop c .hallNone 0
    else if s.renderBusy c.w.tid then s
    else (s.bkDone c.w.tid c.t).finish c f on c.lanes c.w

end Sys2Proof.Machine
end

