-- ==== Sys2Proof/Machine/Matrix.lean ====
section
/-! DEFINITION. The matrix engine: tile descriptors, MMA, accumulator transfers and scale memory (R191, R215 to R219, R359 to
R372). -/

namespace Sys2Proof.Machine

open Sys2Proof

/-! ## Cells, scales and operands -/

def Team.cell (t : Team) (row col : Nat) : W32 := cget t.acc (row * 128 + col)

/-- A cell is written, and its granule marked (R42). -/
def Team.setCell (t : Team) (row col : Nat) (v : W32) : Team :=
  { t with acc := cset t.acc (row * 128 + col) v, accDirty := cset t.accDirty (row / 8) 1 }

/-- R160: a BF16 scale. -/
def Team.scaleVal (t : Team) (i : Nat) : FV := FF.bf16.dec (cget t.scale i).toNat

/-- The format slot of a number. -/
def LaunchRec.slot (r : LaunchRec) (i : Nat) : FmtSlot := (r.format[i]?).getD ⟨0, 0, 0, false, false⟩

/-- R363: elements of a K-slice. -/
def sliceK (e : Nat) : Nat := 512 / e

/-- R359: fields of a descriptor. -/
def descBase (d : BitVec 128) : Nat := d.toNat % 2 ^ 57
def descGal (d : BitVec 128) : Bool := d.getLsbD 63
def descStride (d : BitVec 128) : Nat := bitsOf d.toNat 83 64
def descKext (d : BitVec 128) : Nat := bitsOf d.toNat 91 84
def descByN (d : BitVec 128) : Bool := d.getLsbD 92
def descSlot (d : BitVec 128) : Nat := bitsOf d.toNat 95 93
def descSbase (d : BitVec 128) : Nat := bitsOf d.toNat 108 96
def descTot (d : BitVec 128) : Nat := bitsOf d.toNat 118 112
def descPer (d : BitVec 128) : Nat := bitsOf d.toNat 122 119
def descPend (d : BitVec 128) : Bool := d.getLsbD 123

/-- R360: reserved bits set, no extent, or a base or stride that is no multiple of 4. -/
def descBad (d : BitVec 128) : Bool :=
  bitsOf d.toNat 127 124 != 0 || bitsOf d.toNat 111 109 != 0 || bitsOf d.toNat 62 57 != 0 || descKext d = 0 ||
  descBase d % 4 != 0 || descStride d % 4 != 0

/-- R360. -/
def execTdesc (f : Fmt) (s : State) : Out :=
  s.run (.tdesc f) fun c on =>
    match f.a, f.d with
    | .uni a, .cls3 i =>
      if on = 0 then s.finish c f on c.lanes c.w
      else
        let d : BitVec 128 := cget c.w.uni (a.toNat + 3) ++ cget c.w.uni (a.toNat + 2) ++ cget c.w.uni (a.toNat + 1) ++
          cget c.w.uni a.toNat
        if descBad d then s.stop c .tdescBad 0 else s.finish c f on c.lanes (c.w.setTile i.toNat d)
    | _, _ => s

/-! ## The order of the engine (R188, R191, R362) -/

/-- The warp's earlier matrix work is done, and its earlier accesses to the spaces have been performed. -/
def State.mxQuiet (s : State) (c : Ctx) (sps : List Sp) : Bool :=
  let k := s.core c.t.core
  k.mxq.all (·.wid != c.wid) && !c.w.fenced 2 &&
  !(c.w.sq.any fun e => e.kind.touches.any fun x => x.1.sp != .mem && sps.contains x.1.sp) &&
  !(c.w.pend.any fun p => p.kind.reads.any fun x => x.1.sp != .mem && sps.contains x.1.sp) &&
  !(k.inflight.any fun r => r.wid == c.wid && r.sp != .mem && sps.contains r.sp)

/-- R78, R368: the 8-row granule of the team's accumulator rows that a quarter writes. -/
def MxEnt.granule (x : MxEnt) : Nat := x.row0 / 8 + x.quarter

/-- The granules of the rows that lanes name from row ROW0 on. -/
def granulesOf (row0 : Nat) (on : Mask) : List Nat := (lanesOf on).map fun l => (row0 + l) / 8

/-- R78, R368: one of some granules of a team is marked: a quarter that writes it has not completed. -/
def State.rowsMarked (s : State) (core tid : Nat) (gs : List Nat) : Bool :=
  (s.core core).mxq.any fun x => x.tid == tid && gs.contains x.granule

/-- The accumulator row a class 3 destination names (R361). -/
def dstRow : Dst → Nat
  | .cls3 i => 8 * i.toNat
  | _ => 0

/-- R78: the granules an instruction reads or writes in its lanes. -/
def Instr.granules (i : Instr) (on : Mask) : List Nat :=
  match i with
  | .mma f .. => granulesOf (dstRow f.d) on
  | .mlda f .. => granulesOf (dstRow f.d) on
  | .mwr f .. => granulesOf (dstRow f.d) on
  | .msta _ _ _ r _ => granulesOf (8 * r.toNat) on
  | .mrd _ r _ => granulesOf (8 * r.toNat) on
  | .mzero f g => (List.range (g.toNat + 1)).map (dstRow f.d / 8 + ·)
  | _ => []

/-- R78: an instruction waits for a marked granule of its rows. -/
def State.rowsBusy (s : State) (c : Ctx) (i : Instr) (on : Mask) : Bool := s.rowsMarked c.t.core c.w.tid (Instr.granules i on)

/-- Translate byte addresses, one walk for each line. -/
def State.locateBytes (s : State) (c : Ctx) (acc : Acc) (l : List Nat) : List (Nat × Except Nat Loc) × State :=
  let lines := l.foldl (fun acc a => if acc.contains (a / 128) then acc else acc ++ [a / 128]) []
  let (tab, s) := lines.foldl (fun (x : List (Nat × Except Nat Loc) × State) line =>
    let first := (l.filter (· / 128 == line)).headD 0
    let (r, s) := x.2.locate (some c.t.core) c.t.gid c.t.group true first acc
    (x.1 ++ [(line, match r with | .ok y => Except.ok { y with a := y.a - first % 128 } | .error f => .error f)], s))
    ([], s)
  (l.map fun a => (a, match tab.find? (·.1 == a / 128) with
    | some (_, .ok y) => Except.ok { y with a := y.a + a % 128 }
    | some (_, .error f) => .error f
    | none => .error 5), s)

/-- The targets of a translated list, where every byte has one. -/
def oks (l : List (Nat × Except Nat Loc)) : List Loc :=
  l.filterMap fun x => match x.2 with | .ok y => some y | .error _ => none

/-- An engine's read of a word at its target. -/
def State.engineWord (s : State) (x : Loc) : W32 :=
  if x.sp == .pcie then Config.freeWord (s.fresh * 2 ^ 57 + x.a) else BitVec.ofNat 32 (leNat (s.locBytes x 4))

/-- Other copies of the lines an engine reads are recalled (R156); reads of region 2 have fresh free values (DESIGN CHOICE, log 12). -/
def State.engineRecall (s : State) (l : List Loc) : State :=
  let s := if l.any fun x => x.sp == .pcie then { s with fresh := s.fresh + 1 } else s
  l.foldl (fun s x => if x.sp == .mem then s.recall none x.line else s) s

/-! ## Accumulation (R215 to R218) -/

/-- R215 `block_sum` of finite products. -/
def blockSum (ps : List Q) : Q :=
  let nz := ps.filter fun p => !p.isZero
  match nz.map fun p => flog2 p.num.natAbs p.den with
  | [] => Q.zero
  | e :: es =>
    let u := es.foldl max e - 28
    let tr := fun (p : Q) =>
      let n : Nat := if 0 ≤ u then p.num.natAbs / (p.den * 2 ^ u.toNat) else p.num.natAbs * 2 ^ (-u).toNat / p.den
      if p.num < 0 then -(n : Int) else n
    Q.dy ((nz.map tr).foldl (· + ·) 0) u

/-- A zero value is +0. -/
def posZero (x : FV) : FV := if x.isZero then .fin false Q.zero else x

/-- R215, R216: the value a block adds, and whether a NaN arose without a NaN operand. -/
def blockVal (ab : List (FV × FV)) (sa sb : FV) : FV × Bool :=
  let ps := ab.map fun x => fvMul x.1 x.2
  let nanIn := ab.any (fun x => x.1.isNaN || x.2.isNaN) || sa.isNaN || sb.isNaN
  let pos := ps.any fun p => p.1.isInf && !p.1.isNeg
  let neg := ps.any fun p => p.1.isInf && p.1.isNeg
  let sum : FV :=
    if ps.any (·.1.isNaN) || (pos && neg) then .nan
    else if pos then .inf false
    else if neg then .inf true
    else
      let q := blockSum (ps.map (·.1.val))
      .fin (q.num < 0) q.abs
  let v := (fvMul (fvMul sum sa).1 sb).1
  (posZero v, v.isNaN && !nanIn)

/-- R216: one addition into an fp32 cell; flags INV and OVF. -/
def addAcc32 (c : W32) (v : FV) : W32 × BitVec 2 :=
  let (x, fl) := fvAdd (f32 c) v .rne
  let (y, fo) := fpRound FF.fp32 (posZero x) .rne false
  (BitVec.ofNat 32 y, mflags fl.inv fo.ovf)

/-- R218: one block into a partial and a total cell. -/
def addAcc16 (per : Nat) (part tot : W32) (v : FV) : W32 × W32 × BitVec 2 :=
  let (x, fl) := fvAdd (FF.fp16.dec (part.toNat % 65536)) v .rne
  let x := posZero x
  let (h, fo) := if x.isFin then convertF FF.fp16 x .rne false else fpRound FF.fp16 x .rne false
  let c := part.toNat / 65536 + 1
  let flags := mflags fl.inv fo.ovf
  if per < c then
    let (t, f2) := addAcc32 tot (FF.fp16.dec h)
    (0, t, flags ||| f2)
  else (BitVec.ofNat 32 (c * 65536 + h), tot, flags)

/-- R217: an integer block. -/
def addAccInt (c : W32) (ab : List (Int × Int)) : W32 × BitVec 2 :=
  let y := c.toInt + (ab.map fun x => x.1 * x.2).foldl (· + ·) 0
  let (z, fl) := clampTo (-(2 ^ 31)) (2 ^ 31 - 1) y
  (ofInt 32 z, mflags false fl.sat)

/-- Element `i` of a run of `e`-bit elements. -/
def runElem (ws : List W32) (e i : Nat) : Nat := el ((ws[i * e / 32]?).getD 0) e (i % (32 / e))

/-- R364: element b(j, n). -/
def bElem (d : BitVec 128) (e : Nat) (b : List (List W32)) (j n : Nat) : Nat :=
  if descByN d then runElem ((b[n]?).getD []) e j else runElem ((b[j]?).getD []) e n

/-- R365: one cell, with the warp's flags so far. DEDUCED, log 78. -/
def mmaCell (t : Team) (r : LaunchRec) (x : MxEnt) (a : List W32) (b : List (List W32)) (lane n : Nat) : Team × BitVec 2 :=
  let sl := r.slot x.slot
  let e := elemBits sl.elem
  let k := sliceK e
  let row := x.row0 + lane
  let col := x.col0 + n
  let pair := fun (blk i : Nat) => (runElem a e (32 * blk + i), bElem x.desc e b (32 * blk + i) n)
  let one : FV := .fin false Q.one
  let step := fun (st : (W32 × W32) × BitVec 2) (blk : Nat) =>
    let raw := (List.range 32).map (pair blk)
    if 6 ≤ sl.elem then
      let (y, fl) := addAccInt st.1.1 (raw.map fun p => (sext p.1 e, sext p.2 e))
      ((y, st.1.2), st.2 ||| fl)
    else
      let sa := if sl.scale then t.scaleVal (x.sa + k / 32 * lane + blk) else one
      let sb := if sl.scale then t.scaleVal (descSbase x.desc + k / 32 * n + blk) else one
      let (v, inv) := blockVal (raw.map fun p => (elemVal sl.elem p.1, elemVal sl.elem p.2)) sa sb
      if x.acc16 then
        let (h, tt, fl) := addAcc16 (descPer x.desc) st.1.1 st.1.2 v
        ((h, tt), st.2 ||| fl ||| mflags inv false)
      else
        let (y, fl) := addAcc32 st.1.1 v
        ((y, st.1.2), st.2 ||| fl ||| mflags inv false)
  let tcol := col + descTot x.desc
  let ((p, tt), fl) := (List.range (k / 32)).foldl step ((t.cell row col, if x.acc16 then t.cell row tcol else 0), 0)
  let (p, tt, fl) :=
    if x.acc16 && descPend x.desc && 65536 ≤ p.toNat then
      let (y, f2) := addAcc32 tt (FF.fp16.dec (p.toNat % 65536))
      ((0 : W32), y, fl ||| f2)
    else (p, tt, fl)
  let t := t.setCell row col p
  (if x.acc16 then t.setCell row tcol tt else t, fl)

/-- R365, R369: a quarter is performed: B first, then its rows in increasing lane order. -/
def State.mxQuarter (s : State) (x : MxEnt) : State :=
  match s.team? x.tid with
  | none => s
  | some t0 =>
    match s.grid? t0.gid with
    | none => s
    | some g =>
      let s := s.engineRecall (x.bWords.flatten ++ x.rows.flatMap (·.2))
      let b := x.bWords.map fun l => l.map s.engineWord
      let (t, fl) := x.rows.foldl (fun st r =>
        let a := r.2.map s.engineWord
        (List.range 16).foldl (fun st n =>
          let (t, f) := mmaCell st.1 g.rec_ x a b r.1 n
          (t, st.2 ||| f)) st) (t0, (0 : BitVec 2))
      (s.setTeam x.tid t).modWarp x.wid fun w => w.raiseM fl

/-- R368: quarters that one pass may take together. -/
def MxEnt.same (x y : MxEnt) : Bool :=
  x.desc == y.desc && x.kstep == y.kstep && x.col0 == y.col0 && x.slot == y.slot && x.acc16 == y.acc16

/-- R362, R368: the quarters of a pass that begins with the first entry of a warp: at most four, each with no earlier entry
of its warp left behind. -/
def passOf (x : MxEnt) : List MxEnt → List Nat → Nat → List MxEnt
  | [], _, _ => []
  | y :: r, blocked, room =>
    if room != 0 && x.same y && !blocked.contains y.wid then y :: passOf x r blocked (room - 1)
    else passOf x r (y.wid :: blocked) room

/-- R368: a pass completes. -/
def execMxPassComplete (core : Nat) (s : State) : Out :=
  let q := (s.core core).mxq
  let heads := (q.map (·.wid)).foldl (fun l w => if l.contains w then l else l ++ [w]) []
  match s.pick heads with
  | (none, s) => .next s
  | (some wid, s) =>
    match q.find? (·.wid == wid) with
    | none => .next s
    | some x =>
      let ps := passOf x q [] 4
      let s := ps.foldl State.mxQuarter s
      .next (s.modCore core fun k => { k with mxq := ps.foldl (fun l p => l.erase p) k.mxq })

/-! ## MMA at issue (R361 to R369) -/

/-- The first row outside the team's rows that an on lane names. -/
def Ctx.rowBad (c : Ctx) (row0 : Nat) (on : Mask) : Option Nat :=
  ((lanesOf on).map (row0 + ·)).find? fun r => 8 * c.g.rec_.accGran ≤ r

/-- R364: the byte addresses of the words of B's runs for a K-step. -/
def bAddrs (d : BitVec 128) (e k0 : Nat) : List (List Nat) :=
  if descByN d then
    (List.range 16).map fun n => (List.range 16).map fun w => descBase d + n * descStride d + k0 * e / 8 + 4 * w
  else
    (List.range (sliceK e)).map fun j =>
      (List.range (e / 2)).map fun w => descBase d + (k0 + j) * descStride d + 4 * w

/-- The lanes of quarter `q`. -/
def quarterLanes (on : Mask) (q : Nat) : List Nat := (lanesOf on).filter fun l => l / 8 = q

/-- R369: progress of a quarter with `rows` rows finished and lanes parked. -/
def mprogWord (parked : Bool) (rows : Nat) : W32 := BitVec.ofNat 32 ((if parked then 256 else 0) + rows)

/-- R369: a quarter's progress. -/
def Warp.setMprog (w : Warp) (q : Nat) (v : W32) : Warp := { w with mprog := cset w.mprog q v }

/-- The lanes of a quarter, as a mask. -/
def quarterMask (q : Nat) : Mask := maskOf ((List.range 8).map (8 * q + ·))

/-- R369: lanes complete an `MMA`: the progress of a quarter that held parked lanes returns to 0 with the last of them.
DEDUCED, log 76. -/
def Warp.mmaDone (w : Warp) (m : Mask) : Warp :=
  let was := w.mpark
  let left := was &&& ~~~m
  (List.range 4).foldl (fun w q =>
    if was &&& quarterMask q != 0 && left &&& quarterMask q = 0 then w.setMprog q 0 else w) { w with mpark := left }

/-- R369: lanes of a quarter park in an `MMA` with some of its rows finished. -/
def Warp.mmaPark (w : Warp) (q rows : Nat) (m : Mask) : Warp :=
  { w.setMprog q (mprogWord true rows) with mpark := w.mpark ||| m }

/-- The rows of a quarter that are performed, the lanes it parks and the first fault. -/
structure MxRows where
  q : Nat
  rows : List (Nat × List Loc)
  parked : List Nat
  fault : Option LaneFault
  deriving DecidableEq, Repr

/-- R369: a quarter's A rows: those before the first that faults. -/
def mxRows (q : Nat) (lanes : List Nat) (tr : Nat → List (Nat × Except Nat Loc)) : MxRows :=
  match lanes.findIdx? fun l => (lowestFault (tr l)).isSome with
  | none => ⟨q, lanes.map fun l => (l, oks (tr l)), [], none⟩
  | some i =>
    let l := (lanes[i]?).getD 0
    ⟨q, (lanes.take i).map fun l => (l, oks (tr l)), lanes.drop i,
      (lowestFault (tr l)).map fun x => ⟨l, x.1, x.2⟩⟩

/-- R366, R367, R422: `MX_ARG`, with the first scale entry that is out of range where that is its cause. -/
def Ctx.mxArg (c : Ctx) (on : Mask) (d : BitVec 128) (slot kstep sa : Nat) (acc16 : Bool) : Option Nat :=
  let sl := c.g.rec_.slot slot
  let k := sliceK (elemBits sl.elem)
  let lim := 128 * c.g.rec_.accGran
  if descSlot d != slot || 32 * descKext d < (kstep + 1) * k || (acc16 && descTot d < 16) then some 0
  else if sl.scale then
    let ents := fun (first i : Nat) => (List.range (k / 32)).map (first + k / 32 * i + ·)
    ((lanesOf on).flatMap (ents sa) ++ (List.range 16).flatMap (ents (descSbase d))).find? (lim ≤ ·)
  else none

/-- R362: earlier gallery loads of the warp have been performed (DEDUCED, log 21). -/
def State.mxDrained (s : State) (c : Ctx) : Bool :=
  !(c.w.pend.any fun p => p.kind.reads.any fun x => x.1.sp == .gallery) &&
  !((s.core c.t.core).inflight.any fun r => r.wid == c.wid && (r.sp == .scratch || r.sp == .hall))

/-- R363 to R369. -/
def execMma (f : Fmt) (acc16 va : Bool) (slot : BitVec 3) (col0 : BitVec 3) (kstep : Byte) (s : State) : Out :=
  s.run (.mma f acc16 va slot col0 kstep) fun c on =>
    match f.d, f.b with
    | .cls3 di, .tile ti =>
      let d := cget c.w.tile ti.toNat
      let r := c.g.rec_
      let e := elemBits (r.slot slot.toNat).elem
      let ks := kstep.toNat
      let row0 := 8 * di.toNat
      let c0 := 16 * col0.toNat
      let sa := (s.src c 0 .raw f.c (lowest on)).toNat
      let aAddr := fun (l : Nat) => if va then ((s.src64 c 0 f.a l) + w64 (64 * ks)).toNat
        else (s.src c 0 .raw f.a l).toNat + 64 * ks
      let runs := bAddrs d e (ks * sliceK e)
      if on = 0 then s.finish c f on c.lanes c.w
      else
        match c.rowBad row0 on with
        | some x => s.stop c .ridx (w64 x)
        | none =>
          if acc16 && 127 < c0 + 15 + descTot d then s.stop c .ridx (w64 (c0 + 15 + descTot d))
          else
            match (c.mxArg on d slot.toNat ks sa acc16).map (Cause.mxArg, ·) |>.or
                (((lanesOf on).find? fun l => aAddr l % 4 != 0).map fun l => (Cause.memAlign, aAddr l)) with
            | some (k, x) => s.stop c k (w64 x)
            | none =>
              match (if va then none else (lanesOf on).find? fun l => r.gallery < aAddr l + 64).map aAddr |>.or
                  (if descGal d then runs.flatten.find? fun a => r.gallery < a + 4 else none) with
              | some a => s.stop c .galRange (w64 a)
              | none =>
                if c.w.fenced 2 || c.w.sq.any (fun x => x.kind.touches.any fun y => y.1.sp != .mem && y.1.sp != .spill) ||
                    !(s.mxDrained c) || s.rowsBusy c (.mma f acc16 va slot col0 kstep) on then s
                else
                  let gal := fun (a : Nat) => (a, (Except.ok ⟨.gallery, galKey c.w.tid a⟩ : Except Nat Loc))
                  let (bt, s) := runs.foldl (fun (x : List (List (Nat × Except Nat Loc)) × State) run =>
                    if descGal d then (x.1 ++ [run.map gal], x.2)
                    else let (y, s) := x.2.locateBytes c .read run; (x.1 ++ [y], s)) ([], s)
                  match bt.findSome? lowestFault with
                  | some (a, ft) =>
                    let w := ((List.range 4).filter fun q => !(quarterLanes on q).isEmpty).foldl
                      (fun w q => w.mmaPark q 0 (on &&& quarterMask q)) c.w
                    let s := s.finish c f 0 (c.lanes &&& ~~~on) w
                    s.parkWith c ((s.warp? c.wid).getD w) 6 2 (mprogWord true 0).toNat [⟨lowest on, a, ft⟩] on
                  | none =>
                    let (rows, s) := ((List.range 4).filter fun q => !(quarterLanes on q).isEmpty).foldl
                      (fun (x : List MxRows × State) q =>
                        let (tr, s) := (quarterLanes on q).foldl (fun (y : List (Nat × List (Nat × Except Nat Loc)) × State) l =>
                          let ws := (List.range 16).map fun i => aAddr l + 4 * i
                          if va then let (z, s) := y.2.locateBytes c .read ws; (y.1 ++ [(l, z)], s)
                          else (y.1 ++ [(l, ws.map gal)], y.2)) ([], x.2)
                        (x.1 ++ [mxRows q (quarterLanes on q) fun l => ((tr.find? (·.1 == l)).map (·.2)).getD []], s))
                      ([], s)
                    let ents := (rows.filter fun m => !m.rows.isEmpty).map fun m =>
                      (⟨c.wid, c.w.tid, m.q, d, ks, row0, c0, slot.toNat, acc16, sa, m.rows, bt.map oks⟩ : MxEnt)
                    let w := rows.foldl (fun w m => if m.parked.isEmpty then w
                      else w.mmaPark m.q m.rows.length (maskOf m.parked)) (c.w.mmaDone (maskOf (rows.flatMap fun m => m.rows.map (·.1))))
                    let s := s.modCore c.t.core fun k => { k with mxq := k.mxq ++ ents }
                    let bad := maskOf (rows.flatMap (·.parked))
                    let s := s.finish c f (on &&& ~~~bad) (c.lanes &&& ~~~bad) w
                    rows.foldl (fun s m =>
                      match m.fault with
                      | none => s
                      | some x =>
                        s.parkWith c ((s.warp? c.wid).getD w) 6 2 (mprogWord true m.rows.length).toNat [x]
                          (maskOf m.parked)) s
    | _, _ => s

/-! ## Accumulator transfers (R370, R371) -/

/-- R361, R370: a matrix instruction that moves rows: it waits for the warp's earlier matrix work, its rows are checked, and
`k` moves them. -/
def State.rowOp (s : State) (i : Instr) (f : Fmt) (row0 : Nat) (k : Ctx → Mask → State) : Out :=
  s.run i fun c on =>
    if on = 0 then s.finish c f on c.lanes c.w
    else
      match c.rowBad row0 on with
      | some x => s.stop c .ridx (w64 x)
      | none => if s.mxQuiet c [] && !s.rowsBusy c i on then k c on else s

/-- R370. -/
def execMzero (f : Fmt) (g : BitVec 6) (s : State) : Out :=
  s.run (.mzero f g) fun c on =>
    let row0 := dstRow f.d
    let n := 8 * (g.toNat + 1)
    if on = 0 then s.finish c f on c.lanes c.w
    else if 8 * c.g.rec_.accGran < row0 + n then s.stop c .ridx (w64 (max row0 (8 * c.g.rec_.accGran)))
    else if !s.mxQuiet c [] || s.rowsBusy c (.mzero f g) on then s
    else
      (s.modTeam c.w.tid fun t =>
        { t with acc := t.acc.filter fun x => !(row0 * 128 ≤ x.1 && x.1 < (row0 + n) * 128)
                 accDirty := (List.range (n / 8)).foldl (fun d i => cset d (row0 / 8 + i) 1) t.accDirty }).finish
        c f on c.lanes c.w

/-- R370. -/
def execMrd (f : Fmt) (row0 : BitVec 6) (col : BitVec 7) (s : State) : Out :=
  s.counted (.mrd f row0 col) 2 (s.rowOp (.mrd f row0 col) f (8 * row0.toNat) fun c on =>
    s.finish c f on c.lanes (c.emit f.d on fun l => ([c.t.cell (8 * row0.toNat + l) col.toNat], {})))

/-- R370. -/
def execMwr (f : Fmt) (col : BitVec 7) (s : State) : Out :=
  s.rowOp (.mwr f col) f (dstRow f.d) fun c on =>
    (s.modTeam c.w.tid fun t => (lanesOf on).foldl (fun t l =>
      t.setCell (dstRow f.d + l) col.toNat (s.src c 0 .raw f.a l)) t).finish c f on c.lanes c.w

/-- R370: the address of a lane's row. -/
def State.mxAddr (s : State) (c : Ctx) (f : Fmt) (gal : Bool) (l : Nat) : Nat :=
  if gal then (s.src c 0 .raw f.a l).toNat else (s.src64 c 0 f.a l).toNat

/-- R370: the checks of `MLDA` and `MSTA`. -/
def Ctx.mxCheck (c : Ctx) (gal : Bool) (row0 n : Nat) (on : Mask) (addr : Nat → Nat) : Option (Cause × Nat) :=
  match c.rowBad row0 on with
  | some x => some (.ridx, x)
  | none =>
    match (lanesOf on).find? fun l => addr l % 4 != 0 with
    | some l => some (if gal then .galAlign else .memAlign, addr l)
    | none =>
      if gal then ((lanesOf on).find? fun l => c.g.rec_.gallery < addr l + n).map fun l => (.galRange, addr l)
      else none

/-- The runs of the lanes of a transfer, translated, with the lanes that fault. -/
def State.mxRuns (s : State) (c : Ctx) (gal : Bool) (n : Nat) (on : Mask) (acc : Acc) (addr : Nat → Nat) :
    List (Nat × List Loc) × List LaneFault × State :=
  (lanesOf on).foldl (fun x l =>
    let as_ := (List.range n).map (addr l + ·)
    if gal then (x.1 ++ [(l, as_.map fun a => ⟨.gallery, galKey c.w.tid a⟩)], x.2.1, x.2.2)
    else
      let (y, s) := x.2.2.locateBytes c acc as_
      match lowestFault y with
      | some (a, ft) => (x.1, x.2.1 ++ [⟨l, a, ft⟩], s)
      | none => (x.1 ++ [(l, oks y)], x.2.1, s)) ([], [], s)

/-- R370: each lane's row is loaded. -/
def execMlda (f : Fmt) (gal : Bool) (col0 : BitVec 3) (s : State) : Out :=
  s.run (.mlda f gal col0) fun c on =>
    if on = 0 then s.finish c f on c.lanes c.w
    else
      match c.mxCheck gal (dstRow f.d) 64 on (s.mxAddr c f gal) with
      | some (k, x) => s.stop c k (w64 x)
      | none =>
        if !s.mxQuiet c [.gallery, .scratch] || s.rowsBusy c (.mlda f gal col0) on then s
        else
          let (rows, fs, s) := s.mxRuns c gal 64 on .read (s.mxAddr c f gal)
          let s := s.engineRecall (rows.flatMap (·.2))
          let t := rows.foldl (fun t r =>
            (List.range 16).foldl (fun t n =>
              t.setCell (dstRow f.d + r.1) (16 * col0.toNat + n)
                (s.engineWord ((r.2[4 * n]?).getD ⟨.gallery, 0⟩))) t) c.t
          (s.setTeam c.w.tid t).complete c f on c.w fs 6 2 0

/-- R371: one cell converted by a slot, with the flags; `bits` are the random bits of R214. -/
def mstaElem (sl : FmtSlot) (bits : W32) (c : W32) : Nat × Flags :=
  if sl.elem = 0 then (c.toNat, {})
  else if 6 ≤ sl.elem then
    let b := elemBounds true (elemBits sl.elem)
    let (y, fl) := clampTo b.1 b.2 c.toInt
    ((ofInt (elemBits sl.elem) y).toNat, fl)
  else
    let y := cvtElem sl.elem (f32 c) (cvtMode .slot sl bits) sl.special
    (y.1.toNat, y.2)

/-- R371, R214: the 16 elements of a lane's row, packed, with their flags. -/
def State.mstaRow (s : State) (c : Ctx) (sl : FmtSlot) (row col0 l : Nat) : List Byte × Flags :=
  let el := (List.range 16).map fun n =>
    mstaElem sl (sr32 sl.seed (s.item c l) (cget c.w.srctr l + BitVec.ofNat 32 n)) (c.t.cell row (col0 + n))
  let e := elemBits sl.elem
  (natBytes (2 * e) (el.foldr (fun x acc => x.1 % 2 ^ e + 2 ^ e * acc) 0), Flags.all (el.map (·.2)))

/-- R370, R191: bytes leave for their targets past the L1, counted against the warp. -/
def State.mstaSend (s : State) (c : Ctx) (addr : Nat → Nat) (l : List (Nat × Loc × Byte)) : State :=
  (reqLines (l.map (·.2.1))).foldl (fun s x =>
    let mine := l.filter fun y => y.2.1.sp == x.1 && y.2.1.line == x.2
    let lanes := maskOf (mine.map (·.1))
    let first := ((l.filter fun y => y.1 == lowest lanes).findIdx? fun y => y.2.1.sp == x.1 && y.2.1.line == x.2).getD 0
    s.send c.t.core c.wid x.1 x.2 (.write (mine.map fun y => (y.2.1.a, y.2.2))) true c.pc lanes (addr (lowest lanes) + first)
      (c.w.emu.inside && lanes &&& c.w.emu.lanes != 0) true) s

/-- R155, R328: the first of some lines that is update-only in a core. -/
def State.firstUpd (s : State) (core : Nat) (l : List (Sp × Nat)) : Option Nat :=
  (l.find? fun x => x.1 == .mem && (s.core core).isUpd x.2).map (·.2)

/-- R370, R371, R191: each lane's row is stored. Update-only lines among its targets are drained first, one by one; where
its rows lie in more lines than the count holds, its lanes complete one at a time (DESIGN CHOICE, log 77). -/
def execMsta (f : Fmt) (gal : Bool) (slot : BitVec 3) (row0 : BitVec 6) (col0 : BitVec 3) (s : State) : Out :=
  s.run (.msta f gal slot row0 col0) fun c on =>
    let sl := c.g.rec_.slot slot.toNat
    let n := 2 * elemBits sl.elem
    if on = 0 then s.finish c f on c.lanes c.w
    else
      match c.mxCheck gal (8 * row0.toNat) n on (s.mxAddr c f gal) with
      | some (k, x) => s.stop c k (w64 x)
      | none =>
        if !s.mxQuiet c [.gallery, .scratch] || s.rowsBusy c (.msta f gal slot row0 col0) on then s
        else
          let (all, fs, s') := s.mxRuns c gal n on .write (s.mxAddr c f gal)
          let many := 63 < (reqLines (all.flatMap (·.2))).length
          let rows := if many then all.take 1 else all
          let fs := if many then [] else fs
          let rest : Mask := if many then on &&& ~~~maskOf (rows.map (·.1)) else 0
          let c := { c with lanes := c.lanes &&& ~~~rest }
          let on := on &&& ~~~rest
          let lines := reqLines (rows.flatMap (·.2))
          let data := rows.map fun r => (r.1, r.2, s.mstaRow c sl (8 * row0.toNat + r.1) (16 * col0.toNat) r.1)
          let bytes := data.flatMap fun r => (r.2.1.zip r.2.2.1).map fun x => (r.1, x.1, x.2)
          let done := rows.map (·.1)
          let w := c.w.raise (Flags.all (data.map (·.2.2.2)))
          let w := if cvtStoch .slot sl && sl.elem != 0 && sl.elem < 6 then
              { w with srctr := done.foldl (fun t l => cset t l (cget t l + 16)) w.srctr } else w
          if gal then
            (s'.modTeam c.w.tid fun t => bytes.foldl (fun t x => t.setGal (x.2.1.a % 2 ^ 20) x.2.2) t).finish c f on c.lanes w
          else if c.t.active && bytes.any fun x => x.2.1.sp.committed then
            let t := bytes.foldl (fun t x => t.buffer x.2.1 x.2.2) c.t
            if 512 < t.commitLines.length then s'.endReplay c.w.tid 1
            else (s'.setTeam c.w.tid t).complete c f on w fs 7 2 0
          else
            match s.firstUpd c.t.core lines with
            | some l => if c.w.unack < 63 then s.drain c.t.core c.wid l else s
            | none =>
              if 63 < c.w.unack + lines.length then s
              else
                let s := (s'.setWarp c.wid w).mstaSend c (s.mxAddr c f gal) bytes
                let s := if bytes.any (·.2.1.sp == .mem) then s.tracedStore c (maskOf done) else s
                s.complete c f on ((s.warp? c.wid).getD w) fs 7 2 0

/-- R372. -/
def execMlds (f : Fmt) (gal : Bool) (e0 : BitVec 13) (slot : BitVec 3) (s : State) : Out :=
  s.run (.mlds f gal e0 slot) fun c on =>
    let a := s.mxAddr c f gal (lowest on)
    let n := (s.src c 0 .raw f.b (lowest on)).toNat
    if on = 0 then s.finish c f on c.lanes c.w
    else if n % 2 = 1 then s.stop c .mxArg 0
    else if 128 * c.g.rec_.accGran < e0.toNat + n then s.stop c .mxArg (w64 (max e0.toNat (128 * c.g.rec_.accGran)))
    else if a % 4 != 0 then s.stop c .memAlign (w64 a)
    else if gal && c.g.rec_.gallery < a + 2 * n then s.stop c .galRange (w64 a)
    else if !s.mxQuiet c [.gallery, .scratch] then s
    else
      let (locs, fs, s) := s.mxRuns c gal (2 * n) (laneBit (lowest on)) .read fun _ => a
      let l := locs.flatMap (·.2)
      if !fs.isEmpty then s.complete c f on c.w fs 6 2 on
      else
        let s := s.engineRecall l
        let word := fun (i : Nat) => (s.engineWord ((l[i / 2 * 4]?).getD ⟨.gallery, 0⟩)).extractLsb' (16 * (i % 2)) 16
        (s.modTeam c.w.tid fun t =>
          { t with scale := (List.range n).foldl (fun m i => cset m (e0.toNat + i) (word i)) t.scale
                   scaleDirty := t.scaleDirty || n != 0 }).finish c f on c.lanes c.w

end Sys2Proof.Machine
end

