-- ==== Sys2Proof/Machine/Render.lean ====
section
/-! DEFINITION. The micropolygon pipeline: bounds, dicing, rasterising, resolving, sample patterns and the progress and completion
of asynchronous operations (R166, R221 to R248, R255, R373 to R378). -/

namespace Sys2Proof.Machine

open Sys2Proof

/-! ## The hall's bytes -/

/-- A field of a hall. -/
def Hall.n (h : Hall) (off n : Nat) : Nat := leNat ((List.range n).map fun i => h.byte (off + i))

def Hall.put (h : Hall) (off n v : Nat) : Hall := h.setBytes off (natBytes n v)

/-- Bytes of a hall. -/
def Hall.bytes (h : Hall) (off n : Nat) : List Byte := (List.range n).map fun i => h.byte (off + i)

/-- R229: a header counter rises and stops at 0xFFFF_FFFF. -/
def Hall.inc (h : Hall) (off by_ : Nat) : Hall := h.put off 4 (min (h.n off 4 + by_) 0xFFFFFFFF)

/-! ## Bounds (R374) -/

/-- The targets of the four lines of a patch record, or the lowest fault. -/
def State.patchLocs (s : State) (c : Ctx) (va : Nat) : Except (Nat × Nat) (List Loc) × State :=
  let (l, s) := s.locateBytes c .read ((List.range 4).map fun i => va + 128 * i)
  match lowestFault l with
  | some x => (.error x, s)
  | none => (.ok (oks l), s)

/-- R374. -/
def execBndp (f : Fmt) (s : State) : Out :=
  s.run (.bndp f) fun c on =>
    if on = 0 then s.finish c f on c.lanes c.w
    else
      let addrs := (lanesOf on).map fun l => (l, (s.src64 c 0 f.a l).toNat)
      match addrs.find? fun x => x.2 % 128 != 0 with
      | some x => s.stop c .memAlign (w64 x.2)
      | none =>
        match c.g.frame with
        | none => s.stop c .frameNone 0
        | some fr =>
          if c.w.fenced 4 then s
          else
            let (ok, fs, s) := addrs.foldl (fun (x : List LaneLoc × List LaneFault × State) a =>
              match x.2.2.patchLocs c a.2 with
              | (.error (va, ft), s) => (x.1, x.2.1 ++ [⟨a.1, va, ft⟩], s)
              | (.ok l, s) => (x.1 ++ l.map fun y => ⟨a.1, y⟩, x.2.1, s)) ([], [], s)
            let p := Pend.new (.bound ok fr.znear fr.lensA fr.lensB) 0 (laneMask ok) f.d 4 c.pc
            s.complete c f on (if ok.isEmpty then c.w else c.w.reserve p true) fs 9 4 0

/-! ## Estimates, splits and grids (R233, R237 to R239) -/

/-- R233 `seg` summed along a row or a column of control points. -/
def edgeLen (bs : List Byte) (alongU close : Bool) (r : Nat) : Q :=
  let idx := fun (k : Nat) => if alongU then 4 * r + k else 4 * k + r
  Q.sum ((List.range 3).map fun k =>
    let d := fun (c : Nat) => ((ptOf bs close (idx k) c).sub (ptOf bs close (idx (k + 1)) c)).abs
    Q.max (d 0) (d 1))

/-- R233: Lu or Lv. -/
def patchLen (bs : List Byte) (alongU : Bool) : Q :=
  (minMax ((List.range 4).flatMap fun r => [edgeLen bs alongU false r, edgeLen bs alongU true r])).2

/-- R233: mu or mv. -/
def patchCount (bs : List Byte) (rate : W32) (alongU : Bool) : Nat :=
  max 1 ((patchLen bs alongU).div (f32 rate).val).ceil.toNat

/-- R233: the granules of a grid. -/
def granules (mu mv : Nat) : Nat := cdiv ((mu + 1) * (mv + 1)) 16

/-- The sum of `n / d * x` over pairs of a numerator and a number. -/
def weighted (d : Nat) (l : List (Nat × Q)) : Q := Q.sum (l.map fun x => (⟨(x.1 : Int), d⟩ : Q).mul x.2)

/-- R233: de Casteljau subdivision at one half of four numbers. -/
def halves (p : Nat → Q) (upper : Bool) (k : Nat) : Q :=
  let q := fun i => if upper then p (3 - i) else p i
  match if upper then 3 - k else k with
  | 0 => q 0
  | 1 => weighted 2 [(1, q 0), (1, q 1)]
  | 2 => weighted 4 [(1, q 0), (2, q 1), (1, q 2)]
  | _ => weighted 8 [(1, q 0), (3, q 1), (3, q 2), (1, q 3)]

/-- An exact combination of two range ends, rounded by `rne32`: canonical where one is a NaN (R207, R210); the spec states no
value for an end that is infinite (DESIGN CHOICE, log 22). -/
def rangeWord (free : W32) (a b : W32) (f : Q → Q → Q) : W32 :=
  if (f32 a).isNaN || (f32 b).isNaN then 0x7FC00000
  else if (f32 a).isFin && (f32 b).isFin then rne32 (f (f32 a).val (f32 b).val) else free

/-- R209, R233: a coordinate of a half: the end that a half keeps keeps the sign of a zero. -/
def halfWord (p : Nat → FV) (upper : Bool) (k : Nat) : W32 :=
  if k = if upper then 3 else 0 then rneF (p k) else rne32 (halves (fun i => (p i).val) upper k)

/-- R233: half H0 or H1 of a patch. -/
def splitPatch (bs : List Byte) (acrossU upper : Bool) (free : W32) : List Byte :=
  let pts := (List.range 2).flatMap fun t =>
    (List.range 16).flatMap fun k => (List.range 3).flatMap fun c =>
      let p := fun (i : Nat) => ptFlt bs (t = 1) (if acrossU then 4 * (k / 4) + i else 4 * i + k % 4) c
      bytes4 (halfWord p upper (if acrossU then k % 4 else k / 4))
  let lo := if acrossU then 384 else 392
  let mid := rangeWord free (wordOf bs lo) (wordOf bs (lo + 4)) fun a b => weighted 2 [(1, a), (1, b)]
  let at_ := if upper then lo else lo + 4
  let range := (List.range 4).flatMap fun i =>
    bytes4 (if 384 + 4 * i = at_ then mid else wordOf bs (384 + 4 * i))
  pts ++ range ++ (bs.drop 400).take 12 ++ [BitVec.ofNat 8 (field bs 412 1 + 1)] ++ (bs.drop 413).take 99

/-- A power of an exact number. -/
def Q.pow (a : Q) (n : Nat) : Q := ⟨a.num ^ n, a.den ^ n⟩

/-- The cubic Bernstein weights. -/
def bern (t : Q) (k : Nat) : Q :=
  (Q.ofInt (if k = 0 || k = 3 then 1 else 3)).mul ((t.pow k).mul ((Q.one.sub t).pow (3 - k)))

/-- Their derivatives. -/
def bernD (t : Q) (k : Nat) : Q :=
  let q := fun (j : Nat) => (Q.ofInt (if j = 1 then 2 else 1)).mul ((t.pow j).mul ((Q.one.sub t).pow (2 - j)))
  (Q.ofInt 3).mul ((if k = 0 then Q.zero else q (k - 1)).sub (if k = 3 then Q.zero else q k))

/-- A sum over the control points with weights along u and v. -/
def surface (bs : List Byte) (close : Bool) (wu wv : Nat → Q) (c : Nat) : Q :=
  Q.sum ((List.range 16).map fun k => ((wv (k / 4)).mul (wu (k % 4))).mul (ptOf bs close k c))

/-- R238: the 64 bytes of vertex (a, b). `free` serves the range ends (DESIGN CHOICE, log 22). -/
def vertexOf (bs : List Byte) (nu nv a b : Nat) (free : W32) : List Byte :=
  let t : Q := ⟨(a : Int), nu - 1⟩
  let w : Q := ⟨(b : Int), nv - 1⟩
  let p := fun (close : Bool) => (List.range 3).flatMap fun c => bytes4 (rne32 (surface bs close (bern t) (bern w) c))
  let du := surface bs false (bernD t) (bern w)
  let dv := surface bs false (bern t) (bernD w)
  let n := (List.range 3).flatMap fun c =>
    let i := (c + 1) % 3
    let j := (c + 2) % 3
    bytes4 (rne32 (((du i).mul (dv j)).sub ((du j).mul (dv i))))
  let lerp := fun (o : Nat) (x : Q) =>
    bytes4 (rangeWord free (wordOf bs o) (wordOf bs (o + 4)) fun lo hi => lo.add (x.mul (hi.sub lo)))
  p false ++ p true ++ lerp 384 t ++ lerp 392 w ++ n ++ natBytes 12 0 ++ bytes4 0x3F800000 ++ natBytes 4 0

/-- R239: granules in use, those skipped included. -/
def Hall.heapUsed (h : Hall) : Nat := (h.heap.map fun x => x.2.2.1).foldl (· + ·) 0

/-- R234, R239: the granules the ring can give contiguously at its head. -/
def Hall.avail (h : Hall) : Nat :=
  let free := 2048 - h.heapUsed
  max (min free (2048 - h.heapHead)) (free - (2048 - h.heapHead))

/-- R239: `n` granules for grid `g` at the head: the first granule. -/
def Hall.takeGranules (h : Hall) (g n : Nat) : Nat × Hall :=
  let skip := if h.heapHead + n ≤ 2048 then 0 else 2048 - h.heapHead
  let first := (h.heapHead + skip) % 2048
  let h := { h with heap := h.heap ++ [(g, first, skip + n, false)], heapHead := (first + n) % 2048 }
  (first, h.put 8 4 (2048 - h.heapUsed))

/-- R239: the grid is freed; the tail passes every grid before which all are freed. -/
def Hall.freeGrid (h : Hall) (g : Nat) : Hall :=
  let mark := fun (x : Nat × Nat × Nat × Bool) => if x.1 = g then (x.1, x.2.1, x.2.2.1, true) else x
  let h := { h with heap := (h.heap.map mark).dropWhile fun x => x.2.2.2 }
  ((h.put (0x602 + 64 * g) 1 0).put 6 2 (h.n 6 2 - 1)).put 8 4 (2048 - h.heapUsed)

/-- R237: the lowest free grid header. -/
def Hall.freeHeader (h : Hall) : Option Nat := (List.range 128).find? fun g => h.byte (0x602 + 64 * g) = 0

/-- R237, R238: a patch diced into grid `g`. -/
def Hall.dice (h : Hall) (bs : List Byte) (g nu nv : Nat) (free : W32) : Hall :=
  let (first, h) := h.takeGranules g (cdiv (nu * nv) 16)
  let off := 0x14000 + 1024 * first
  let h := (List.range (nu * nv)).foldl (fun h i =>
    h.setBytes (off + 64 * i) (vertexOf bs nu nv (i % nu) (i / nu) free)) h
  let head := natBytes 1 nu ++ natBytes 1 nv ++ natBytes 2 1 ++ natBytes 4 off ++ (bs.drop 400).take 8 ++
    (bs.drop 384).take 16 ++ (bs.drop 416).take 32
  (h.setBytes (0x600 + 64 * g) head).put 6 2 (h.n 6 2 + 1)

/-! ## Render reads and writes (R236, R248, R255) -/

/-- What one step of an operation on a hall does. -/
inductive RStep where
  /-- it must wait -/
  | wait
  /-- a read (9) or write (10) faults: the lowest byte and the `FTYPE`; the state with what did complete -/
  | fault (kind va ftype : Nat) (s : State)
  /-- a part is complete -/
  | next (s : State)
  /-- the operation is complete -/
  | done (s : State)

/-- A render read of global memory at its targets. -/
def State.renderRead (s : State) (op : AsyncOp) (va n : Nat) : Except (Nat × Nat) (List Byte) × State :=
  let (l, s) := s.sideLocs op true .mem 0 true .read ((List.range n).map (va + ·))
  match lowestFault l with
  | some x => (.error x, s)
  | none =>
    let s := s.engineRecall (oks l)
    (.ok ((oks l).map fun x => if x.sp == .pcie then Config.freeByte (s.fresh * 2 ^ 57 + x.a) else s.locByte x), s)

/-- A render write of global memory; where it faults, whether its other bytes were written is free. -/
def State.renderWrite (s : State) (op : AsyncOp) (va : Nat) (bs : List Byte) (put : State → List (Loc × Byte) → State)
    (k : State → RStep) : RStep :=
  let (l, s) := s.sideLocs op true .mem 0 true .write ((List.range bs.length).map (va + ·))
  let out := (l.zip bs).filterMap fun x => match x.1.2 with | .ok y => some (y, x.2) | .error _ => none
  match lowestFault l with
  | some (a, ft) =>
    let (i, s) := s.choose 2
    .fault 10 a ft (if i = 0 then s else put s out)
  | none => k (put s out)

/-- R236: the address of overflow entry `i` of a hall. -/
def Frame.overflowAt (fr : Frame) (socket hall i : Nat) : Nat :=
  fr.ovBase + ((socket - 1) * 8 + hall) * fr.ovBytes + 512 * i

/-! ## The dice unit (R234, R235) -/

/-- A patch is pushed on the patch stack. -/
def Hall.push (h : Hall) (bs : List Byte) : Hall :=
  let d := h.n 4 2
  (h.setBytes (0x4000 + 512 * d) bs).put 4 2 (d + 1)

def Hall.pop (h : Hall) : Hall := h.put 4 2 (h.n 4 2 - 1)

/-- R234: the operation ends with its result word. -/
def State.diceEnd (s : State) (sock hall off status g : Nat) : RStep :=
  .done (s.modHall sock hall fun h => h.put off 4 (status * 256 + g))

/-- R235: a malformed record ends the operation. -/
def State.diceBad (s : State) (sock hall off addr : Nat) : RStep :=
  (s.modHall sock hall fun h => h.put 48 8 addr).diceEnd sock hall off 4 0xFF

/-- R223, R234, R235: the stack is empty: the next patch from the overflow stack or the bucket list. -/
def State.diceFetch (s : State) (op : AsyncOp) (sock off : Nat) (fr : Frame) (bucket : Nat) : RStep :=
  let h := s.hall sock op.hall
  let od := h.n 12 4
  let put := fun (s : State) (f : Hall → Hall) => RStep.next (s.modHall sock op.hall f)
  if od != 0 then
    match s.renderRead op (fr.overflowAt sock op.hall (od - 1)) 512 with
    | (.error (a, ft), s) => .fault 9 a ft s
    | (.ok bs, s) => put s fun h => (h.push bs).put 12 4 (od - 1)
  else
    match h.listPos with
    | none =>
      match s.renderRead op (fr.listTable + 8 * bucket) 8 with
      | (.error (a, ft), s) => .fault 9 a ft s
      | (.ok bs, s) =>
        let x := field bs 0 8
        if x % 64 != 0 then s.diceBad sock op.hall off (fr.listTable + 8 * bucket)
        else put s fun h => { h with listPos := some (x, 0) }
    | some (0, _) => s.diceEnd sock op.hall off 1 0xFF
    | some (node, e) =>
      match s.renderRead op node 64 with
      | (.error (a, ft), s) => .fault 9 a ft s
      | (.ok nb, s) =>
        let n := field nb 8 4
        let ent := fun (k : Nat) => field nb (16 + 8 * k) 8
        if 6 < n || field nb 12 4 != 0 || field nb 0 8 % 64 != 0 || (List.range n).any fun k => ent k % 128 != 0 then
          s.diceBad sock op.hall off node
        else if n ≤ e then put s fun h => { h with listPos := some (field nb 0 8, 0) }
        else
          match s.renderRead op (ent e) 512 with
          | (.error (a, ft), s) => .fault 9 a ft s
          | (.ok bs, s) =>
            if field bs 412 4 != 0 then s.diceBad sock op.hall off (ent e)
            else put s fun h => { (h.push bs).inc 16 1 with listPos := some (node, e + 1) }

/-- R234: one turn of the loop. -/
def State.diceStep (s : State) (op : AsyncOp) (sock off : Nat) (fr : Frame) : RStep :=
  let h := s.hall sock op.hall
  let bx := h.n 0 2
  let by_ := h.n 2 2
  let d := h.n 4 2
  if d = 0 then s.diceFetch op sock off fr (by_ * cdiv fr.width 32 + bx)
  else
    let bs := h.bytes (0x4000 + 512 * (d - 1)) 512
    let free := Config.freeWord s.fresh
    let s := { s with fresh := s.fresh + 1 }
    let put := fun (s : State) (f : Hall → Hall) => s.modHall sock op.hall f
    if !patchFinite bs || !(boundPatch fr.znear fr.lensA fr.lensB bs).meets bx by_ then
      .next (put s fun h => h.pop.inc 20 1)
    else
      let mu := patchCount bs fr.rate true
      let mv := patchCount bs fr.rate false
      let need := granules mu mv
      let big := 15 < mu || 15 < mv || (h.avail < need && 1 < need)
      if big && field bs 412 1 < 24 then
        let acrossU := (patchLen bs false).le (patchLen bs true)
        let h0 := splitPatch bs acrossU false free
        let h1 := splitPatch bs acrossU true free
        let od := h.n 12 4
        if d - 1 ≤ 126 then .next (put s fun h => ((h.pop.push h1).push h0).inc 24 1)
        else if od + 2 ≤ fr.ovBytes / 512 then
          s.renderWrite op (fr.overflowAt sock op.hall od) (h1 ++ h0) State.engineWrite fun s =>
            .next (put s fun h => (h.pop.put 12 4 (od + 2)).inc 24 1)
        else s.diceEnd sock op.hall off 3 0xFF
      else
        let mu := min mu 15
        let mv := min mv 15
        match h.freeHeader with
        | none => s.diceEnd sock op.hall off 2 0xFF
        | some g =>
          if h.avail < granules mu mv then s.diceEnd sock op.hall off 2 0xFF
          else (put s fun h => h.pop.dice bs g (mu + 1) (mv + 1) free).diceEnd sock op.hall off 0 g

/-! ## The rasteriser (R240 to R245) -/

/-- R240: the entry of sample `s`. -/
def Hall.entry (h : Hall) (i : Nat) : List Byte := h.bytes (0x200 + 16 * i) 16

/-- R241: a corner at a sample: X, Y and z; `none` where it is refused. -/
def cornerAt (fr : Frame) (v e : List Byte) : Option (Int × Int × FV) :=
  let t := qv (Q.dy (field e 8 2) (-16))
  let u := Q.dy (sext (field e 4 2) 16) (-15)
  let w := Q.dy (sext (field e 6 2) 16) (-15)
  let co := fun (c : Nat) =>
    let p0 := fltOf v (4 * c)
    let p1 := fltOf v (12 + 4 * c)
    rneV (fvAdd p0 (fvMul t (fvAdd p1 p0.flip .rne).1).1 .rne).1
  let x := co 0
  let y := co 1
  let z := co 2
  if !(x.isFin && y.isFin && z.isFin) || z.val.le (f32 fr.znear).val then none
  else
    let c := ((f32 fr.lensA).val.div z.val).add (f32 fr.lensB).val
    let xs := f32 (rne32 (x.val.add (u.mul c)))
    let ys := f32 (rne32 (y.val.add (w.mul c)))
    if !(xs.isFin && ys.isFin) then none
    else
      let fix := fun (q : FV) =>
        let k : Int := roundTo 0 ((Q.ofInt 256).mul q.val) .rne
        if q.isNeg then -k else k
      if 2 ^ 23 ≤ (fix xs).natAbs || 2 ^ 23 ≤ (fix ys).natAbs then none else some (fix xs, fix ys, z)

/-- R241: the corners of a micropolygon at a sample, unless one is refused. -/
def cornersAt (fr : Frame) (vs : List (List Byte)) (e : List Byte) : Option (List (Int × Int × FV)) :=
  vs.foldr (fun v acc => match cornerAt fr v e, acc with
    | some c, some l => some (c :: l)
    | _, _ => none) (some [])

/-- R241 `edge`. -/
def edgeFn (a b : Int × Int) (p : Int × Int) : Int := (b.1 - a.1) * (p.2 - a.2) - (b.2 - a.2) * (p.1 - a.1)

/-- R241 `incl`. -/
def edgeIncl (a b p : Int × Int) : Bool :=
  let e := edgeFn a b p
  let dx := b.1 - a.1
  let dy := b.2 - a.2
  0 < e || (e == 0 && (dy < 0 || (dy == 0 && 0 < dx)))

/-- R241: the first triangle of the quad that takes a sample, positively oriented, with its area. -/
def coverAt (xy : List (Int × Int)) (p : Int × Int) : Option (Nat × Nat × Nat × Int) :=
  let at_ := fun (i : Nat) => (xy[i]?).getD (0, 0)
  [(0, 1, 3), (0, 3, 2)].findSome? fun (t : Nat × Nat × Nat) =>
    let ar := edgeFn (at_ t.1) (at_ t.2.1) (at_ t.2.2)
    let (a, b, c, ar) := if ar < 0 then (t.1, t.2.2, t.2.1, -ar) else (t.1, t.2.1, t.2.2, ar)
    if 0 < ar && edgeIncl (at_ a) (at_ b) p && edgeIncl (at_ b) (at_ c) p && edgeIncl (at_ c) (at_ a) p then
      some (a, b, c, ar) else none

/-- R242: a quantity at a sample from its three corner values. -/
def interpolate (l : FV × FV × FV) (q : FV × FV × FV) : FV :=
  let x := rneV (fvMul l.1 q.1).1
  let y := rneV (fvAdd x (fvMul l.2.1 q.2.1).1 .rne).1
  rneV (fvAdd y (fvMul l.2.2 q.2.2).1 .rne).1

/-- A covered sample: record index, z, r, g, b and α. -/
structure Hit where
  rec_ : Nat
  z : FV
  rgb : List FV
  alpha : FV
  deriving DecidableEq, Repr

/-- R242: the hit of a micropolygon with corners `cs` (vertices `vs`) at point `p`, as record `r`. -/
def hitAt (cs : List (Int × Int × FV)) (vs : List (List Byte)) (p : Int × Int) (r : Nat) : Option Hit :=
  let xy := cs.map fun c => (c.1, c.2.1)
  match coverAt xy p with
  | none => none
  | some (a, b, c, ar) =>
    let at_ := fun (i : Nat) => (xy[i]?).getD (0, 0)
    let lam := fun (m n : Nat) => f32 (rne32 ((Q.ofInt (edgeFn (at_ m) (at_ n) p)).div (Q.ofInt ar)))
    let l := (lam b c, lam c a, lam a b)
    let zOf := fun (i : Nat) => ((cs[i]?).map fun x => x.2.2).getD FV.nan
    let q := fun (o : Nat) (i : Nat) => fltOf ((vs[i]?).getD []) o
    let mix := fun (g : Nat → FV) => interpolate l (g a, g b, g c)
    some { rec_ := r, z := mix zOf, rgb := [mix (q 44), mix (q 48), mix (q 52)], alpha := mix (q 56) }

/-- R241, R242: the hits of a micropolygon, with the number of refused tests. -/
def hitsOf (h : Hall) (fr : Frame) (vs : List (List Byte)) : List Hit × Nat :=
  if vs.any fun v => field v 60 4 % 2 = 1 then ([], 0)
  else
    let x0 : Int := 32 * (h.n 0 2 : Int) - 1
    let y0 : Int := 32 * (h.n 2 2 : Int) - 1
    let per : List (List Hit × Nat) := (List.range fr.spp).map fun i =>
      let e := h.entry i
      match cornersAt fr vs e with
      | none => ([], 1156)
      | some cs =>
        ((List.range 1156).filterMap fun k =>
          hitAt cs vs (256 * (x0 + (k % 34 : Nat)) + field e 0 1, 256 * (y0 + (k / 34 : Nat)) + field e 1 1)
            (k * fr.spp + i), 0)
    (per.flatMap (·.1), (per.map (·.2)).foldl (· + ·) 0)

/-- R243: a deep fragment: its record where it has one, its Z and its fp16 fields r, g, b, a. -/
structure Frag where
  at_ : Option Nat
  z : W32
  c : List Nat
  deriving DecidableEq, Repr

def deepOff (k : Nat) : Nat := 0x335000 + 16 * k

/-- R243: the list from a link on, at most `n` records. -/
def Hall.deepList (h : Hall) : Nat → Nat → List Frag
  | 0, _ => []
  | n + 1, k =>
    if 131072 ≤ k then []
    else
      let o := deepOff k
      ⟨some k, BitVec.ofNat 32 (h.n o 4), (List.range 4).map fun i => h.n (o + 4 + 2 * i) 2⟩ :: h.deepList n (h.n (o + 12) 4)

/-- R243: which deep records are free is the device's own. -/
def Hall.setDeep (h : Hall) (k : Nat) (used : Bool) : Hall :=
  let d := cset h.deepUsed k (if used then 1 else 0)
  { h with deepUsed := d }.put 40 4 (131072 - d.length)

/-- A free deep record, by a free choice. -/
def Hall.freeDeep (h : Hall) (fresh : Nat) : Option Nat :=
  let at_ := Config.freeNat fresh
  if 131072 ≤ h.deepUsed.length then none
  else ((List.range (h.deepUsed.length + 1)).map fun i => (at_ + i) % 131072).find? fun k => cget h.deepUsed k = 0

/-- R243: the list of a sample as the rasteriser leaves it. -/
def Hall.putList (h : Hall) (o : Nat) (l : List Frag) : Hall :=
  let idx := l.map fun x => x.at_.getD 0xFFFFFFFF
  let h := ((List.range l.length).zip l).foldl (fun h x =>
    let r := deepOff (x.2.at_.getD 0)
    let h := ((List.range 4).zip x.2.c).foldl (fun h y => h.put (r + 4 + 2 * y.1) 2 y.2) (h.put r 4 x.2.z.toNat)
    h.put (r + 12) 4 ((idx[x.1 + 1]?).getD 0xFFFFFFFF)) h
  (h.put (o + 12) 4 (idx.headD 0xFFFFFFFF)).put (o + 10) 1 l.length

/-- R243: the depth of a fragment in its list: NaN stands as +∞. DEDUCED, log 67. -/
def Frag.depth (x : Frag) : FV := if (f32 x.z).isNaN then .inf false else f32 x.z

/-- R244: the two farthest fragments merge: the record of F2 is freed. DEDUCED, log 67. -/
def mergeFar (l : List Frag) : List Frag × Option Nat :=
  match l.reverse with
  | f2 :: f1 :: r =>
    let v := fun (x : Frag) (i : Nat) => FF.fp16.dec ((x.c[i]?).getD 0)
    let keep := (fvAdd (.fin false Q.one) (v f1 3).flip .rne).1
    let mix := fun (i : Nat) => rne16 (fvAdd (v f1 i) (fvMul keep (v f2 i)).1 .rne).1
    ((⟨f1.at_, f1.z, (List.range 4).map mix⟩ :: r).reverse, f2.at_)
  | _ => (l, none)

/-- Records are given to the fragments without one. -/
def Hall.giveDeep (h : Hall) (fresh : Nat) (l : List Frag) : List Frag × Hall :=
  l.foldl (fun x f =>
    match f.at_ with
    | some _ => (x.1 ++ [f], x.2)
    | none =>
      match x.2.freeDeep fresh with
      | none => x
      | some k => (x.1 ++ [{ f with at_ := some k }], x.2.setDeep k true)) ([], h)

/-- R244: a covered sample is applied. DEDUCED, log 67. -/
def Hall.apply (h : Hall) (fr : Frame) (fresh : Nat) (x : Hit) : Hall :=
  let o := 0x214000 + 16 * x.rec_
  let z0 := f32 (BitVec.ofNat 32 (h.n o 4))
  let zero : FV := .fin false Q.zero
  if x.alpha.isNaN || !fvLt zero x.alpha || x.z.isNaN || z0.isNaN || !fvLt x.z z0 then h
  else
    let l := h.deepList fr.deep (h.n (o + 12) 4)
    if !fvLt x.alpha (.fin false Q.one) then
      let h := h.put o 4 (rneF x.z).toNat
      let h := ((List.range 3).zip x.rgb).foldl (fun h y => h.put (o + 4 + 2 * y.1) 2 (rne16 y.2)) h
      let h := h.setByte (o + 11) (h.byte (o + 11) ||| 1)
      let gone := l.filter fun f => !fvLt f.depth x.z
      let h := gone.foldl (fun h f => match f.at_ with | some k => h.setDeep k false | none => h) h
      h.putList o (l.filter fun f => fvLt f.depth x.z)
    else
      let full := 131072 ≤ h.deepUsed.length
      if full && l.isEmpty then h.inc 36 1
      else
        let new : Frag := ⟨none, rneF x.z, (x.rgb.map fun q => rne16 (fvMul q x.alpha).1) ++ [rne16 x.alpha]⟩
        let at_ := ((List.range l.length).filter fun i => ((l[i]?).map fun f => !fvLt x.z f.depth).getD false).foldl
          (fun _ i => i + 1) 0
        let l := l.take at_ ++ new :: l.drop at_
        let (l, h) := if fr.deep < l.length || full then
            let (l, f2) := mergeFar l
            (l, (match f2 with | some k => h.setDeep k false | none => h).inc 32 1)
          else (l, h)
        let (l, h) := h.giveDeep fresh l
        h.putList o l

/-- R244: the hits of a micropolygon are applied; the order of its samples is free. -/
def State.applyHits (s : State) (sock hall : Nat) (fr : Frame) : Nat → List Hit → State
  | 0, _ => s
  | fuel + 1, hs =>
    match s.pick hs with
    | (none, s) => s
    | (some x, s) =>
      let s' := s.modHall sock hall fun h => h.apply fr s.fresh x
      { s' with fresh := s'.fresh + 1 }.applyHits sock hall fr fuel (hs.erase x)

/-- R241, R245: the next micropolygon of a grid, by increasing b, then a; or the end of the grid. -/
def State.rastStep (s : State) (op : AsyncOp) (sock g : Nat) (fr : Frame) : RStep :=
  let h := s.hall sock op.hall
  let o := 0x600 + 64 * g
  let nu := h.n o 1
  let nv := h.n (o + 1) 1
  if (nu - 1) * (nv - 1) ≤ op.done then .done (s.modHall sock op.hall fun h => h.freeGrid g)
  else
    let a := op.done % (nu - 1)
    let b := op.done / (nu - 1)
    let v := fun (a b : Nat) => h.bytes (h.n (o + 4) 4 + 64 * (b * nu + a)) 64
    let (hs, clipped) := hitsOf h fr [v a b, v (a + 1) b, v a (b + 1), v (a + 1) (b + 1)]
    let s := s.modHall sock op.hall fun h => h.inc 28 clipped
    let s := s.applyHits sock op.hall fr hs.length hs
    .next (s.modOp op.id fun x => { x with done := x.done + 1 })

/-! ## Resolve (R246 to R248) -/

/-- R246: the value of a sample: r, g, b and coverage. -/
def Hall.resolve (h : Hall) (fr : Frame) (rec_ : Nat) : List FV :=
  let o := 0x214000 + 16 * rec_
  let one : FV := .fin false Q.one
  let add := fun (c t x : FV) => rneV (fvAdd c (fvMul t x).1 .rne).1
  let v := fun (f : Frag) (i : Nat) => FF.fp16.dec ((f.c[i]?).getD 0)
  let (t, c) := (h.deepList fr.deep (h.n (o + 12) 4)).foldl (fun (x : FV × List FV) f =>
    (rneV (fvMul x.1 (fvAdd one (v f 3).flip .rne).1).1,
     ((List.range 3).zip x.2).map fun y => add y.2 x.1 (v f y.1))) (one, List.replicate 3 (.fin false Q.zero))
  let (t, c) := if (h.byte (o + 11)).getLsbD 0 then
      ((.fin false Q.zero : FV), ((List.range 3).zip c).map fun y => add y.2 t (FF.fp16.dec (h.n (o + 4 + 2 * y.1) 2)))
    else (t, c)
  c ++ [rneV (fvAdd one t.flip .rne).1]

/-- R247: the samples of a pixel with their weights; `px` and `py` count within the apron. -/
def Hall.pixelSamples (h : Hall) (fr : Frame) (tent : Bool) (px py : Nat) : List (FV × Nat) :=
  let ss := List.range fr.spp
  let rec_ := fun (x y i : Nat) => (y * 34 + x) * fr.spp + i
  if tent then
    (List.range 3).flatMap fun dy => (List.range 3).flatMap fun dx => ss.map fun i =>
      let e := h.entry i
      let part := fun (d : Nat) (o : Nat) =>
        Q.max Q.zero (Q.one.sub (((Q.ofInt ((d : Int) - 1)).add (Q.dy (field e o 1) (-8))).sub Q.half).abs)
      let w := ((Q.ofInt (field e 2 2)).mul (part dx 0)).mul (part dy 1)
      (f32 (rne32 w), rec_ (px + dx - 1) (py + dy - 1) i)
  else ss.map fun i => (qv (Q.ofInt (field (h.entry i) 2 2)), rec_ px py i)

/-- A quotient by a positive finite number. -/
def fvDiv (a w : FV) : FV :=
  match a with
  | .fin n q => .fin n (q.div w.val)
  | x => x

/-- R247, R248: the bytes of a pixel. -/
def Hall.pixel (h : Hall) (fr : Frame) (tent : Bool) (px py : Nat) : List Byte :=
  let zero : FV := .fin false Q.zero
  let (acc, ws) := (h.pixelSamples fr tent px py).foldl (fun (x : List FV × FV) y =>
    ((x.1.zip (h.resolve fr y.2)).map fun z => rneV (fvAdd z.1 (rneV (fvMul y.1 z.2).1) .rne).1,
     rneV (fvAdd x.2 y.1 .rne).1)) (List.replicate 4 zero, zero)
  acc.flatMap fun a =>
    let v := if ws.isZero then zero else fvDiv a ws
    if fr.fp32 then bytes4 (rneF v) else natBytes 2 (rne16 v)

/-- R128, R248: image bytes of a replay-active team enter its commit buffer. DESIGN CHOICE, log 40. -/
def State.imageWrite (s : State) (tid : Nat) (l : List (Loc × Byte)) : State :=
  match s.team? tid with
  | none => s
  | some t =>
    if !t.active then s.engineWrite l
    else
      let mine := l.filter fun x => x.1.sp.committed
      let t' := mine.foldl (fun t x => t.buffer x.1 x.2) t
      if 512 < t'.commitLines.length then (s.endReplay tid 1).engineWrite l
      else (s.setTeam tid t').engineWrite (l.filter fun x => !x.1.sp.committed)

/-- R248: the next pixel row of the bucket. -/
def State.rslvStep (s : State) (op : AsyncOp) (sock : Nat) (fr : Frame) (tent : Bool) : RStep :=
  let h := s.hall sock op.hall
  let x0 := 32 * h.n 0 2
  let y0 := 32 * h.n 2 2
  let w := min 32 (fr.width - x0)
  if min 32 (fr.height - y0) ≤ op.done then .done s
  else
    let bytes := (List.range w).flatMap fun i => h.pixel fr tent (i + 1) (op.done + 1)
    let va := fr.imageBase + (y0 + op.done) * fr.pitch + x0 * (if fr.fp32 then 16 else 8)
    s.renderWrite op va bytes (fun s l => s.imageWrite op.tid l) fun s =>
      .next (s.modOp op.id fun x => { x with done := x.done + 1 })

/-! ## Order, progress and completion (R190, R230, R255) -/

/-- R230: the operations of a hall that an operation waits for: earlier `DICE`s for a `DICE`, earlier `RAST`s for a `RAST` or
`RSLV`. -/
def OpKind.after : OpKind → OpKind → Bool
  | .dice _, .dice _ => true
  | .rast _, .rast _ => true
  | .rslv _, .rast _ => true
  | _, _ => false

/-- R230: the operation's turn on its hall. -/
def State.hallTurn (s : State) (op : AsyncOp) : Bool :=
  !(s.ops.any fun x => x.tid == op.tid && x.hall == op.hall && x.id < op.id && OpKind.after op.kind x.kind)

/-- One step of a render operation. -/
def State.renderStep (s : State) (op : AsyncOp) : RStep :=
  match (s.grid? op.gid).bind (·.frame), s.team? op.tid with
  | some fr, some t =>
    if op.suspended || !s.hallTurn op || !s.opMayStart op [.hall] then .wait
    else
      let sock := socketOf t.core
      match op.kind with
      | .dice off => s.diceStep op sock off fr
      | .rast g => s.rastStep op sock g fr
      | .rslv tent => s.rslvStep op sock fr tent
      | _ => .wait
  | _, _ => .wait

/-- R165, R190: the operation is complete, and its tag's count falls. -/
def State.endOp (s : State) (op : AsyncOp) : State :=
  let s := { s with ops := s.ops.filter (·.id != op.id) }
  s.modTeam op.tid fun t => (t.lowerTag op.tag).saveTag op.tag

/-- R190: an operation all of whose chunks are done completes; a render operation does its next part, and completes after the
last. -/
def execAsyncOperationComplete (op : Nat) (s : State) : Out :=
  match s.ops.find? (·.id == op) with
  | none => .next s
  | some o =>
    match o.kind with
    | .dice _ | .rast _ | .rslv _ =>
      match s.renderStep o with
      | .next s => .next s
      | .done s => .next (s.endOp o)
      | _ => .next s
    | _ => .next (if o.kind.len ≤ o.done then s.endOp o else s)

/-- R255: a render read or write faults: the operation is suspended. -/
def execRenderFaultSuspend (op : Nat) (s : State) : Out :=
  match s.ops.find? (·.id == op) with
  | none => .next s
  | some o =>
    match s.renderStep o with
    | .fault kind va ft s => .next (s.suspendOp o kind 4 0 va ft)
    | _ => .next s

/-! ## Issue (R373, R375 to R378) -/

/-- A render operation at issue: it needs a hall; `chk` may stop the warp, `k` changes the state as it is submitted. -/
def State.renderOp (s : State) (i : Instr) (f : Fmt) (tag : BitVec 6) (chk : Ctx → Mask → Hall → Option (Cause × Nat))
    (k : Hall → Hall) (kind : Ctx → Mask → OpKind) : Out :=
  s.run i fun c on =>
    if on = 0 then s.finish c f on c.lanes c.w
    else
      match c.t.hall with
      | none => s.stop c .hallNone 0
      | some hl =>
        let sock := socketOf c.t.core
        match chk c on (s.hall sock hl) with
        | some (cause, x) => s.stop c cause (w64 x)
        | none =>
          if c.t.tagCount tag.toNat = 63 || c.w.fenced 4 then s
          else (s.modHall sock hl k).issueOp c f on 4 tag.toNat (kind c on)

/-- R375. -/
def execDice (f : Fmt) (tag : BitVec 6) (s : State) : Out :=
  s.renderOp (.dice f tag) f tag
    (fun c on _ =>
      let x := s.uni c on f.a false
      if x % 4 != 0 || x < 0x535000 || 0x5FFFFC < x then some (.hallRange, x) else none)
    id (fun c on => .dice (s.uni c on f.a false))

/-- R376. -/
def execRast (f : Fmt) (grid : BitVec 7) (tag : BitVec 6) (s : State) : Out :=
  let o := 0x602 + 64 * grid.toNat
  s.renderOp (.rast f grid tag) f tag (fun _ _ h => if h.byte o = 1 then none else some (.rastGrid, grid.toNat))
    (fun h => h.setByte o 2) (fun _ _ => .rast grid.toNat)

/-- R377. -/
def execRslv (f : Fmt) (tent : Bool) (tag : BitVec 6) (s : State) : Out :=
  s.renderOp (.rslv f tent tag) f tag (fun _ _ _ => none) id (fun _ _ => .rslv tent)

/-- R378: the checks of `SMPL`. -/
def State.smpl (s : State) (i : Instr) (f : Fmt) (e0 : BitVec 6) (k : Ctx → Mask → Nat → State) : Out :=
  s.run i fun c on =>
    if on = 0 then s.finish c f on c.lanes c.w
    else
      match c.t.hall with
      | none => s.stop c .hallNone 0
      | some hl =>
        match (lanesOf on).find? fun l => 63 < e0.toNat + l with
        | some l => s.stop c .hallRange (w64 (e0.toNat + l))
        | none => k c on hl

/-- R378: a `RAST` or `RSLV` of a team on its hall is not complete. -/
def State.hallBusy (s : State) (tid h : Nat) : Bool :=
  s.ops.any fun x => x.tid == tid && x.hall == h && match x.kind with | .rast _ | .rslv _ => true | _ => false

/-- R378: earlier `RAST`s and `RSLV`s on the hall have completed, and the warp's earlier reads of it. DEDUCED, log 21. -/
def execSmplWr (f : Fmt) (e0 : BitVec 6) (s : State) : Out :=
  s.smpl (.smplWr f e0) f e0 fun c on hl =>
    match f.a with
    | .vec _ a =>
      if s.hallBusy c.w.tid hl || c.w.pend.any fun p => p.kind.reads.any fun x => x.1.sp == .hall then s
      else
        let row := fun (l : Nat) =>
          let w := fun (i : Nat) => (cget c.w.vec ((a.toNat + i) * 32 + l)).toNat
          natBytes 4 (w 0) ++ natBytes 4 (w 1) ++ natBytes 4 (w 2 % 65536) ++ natBytes 4 0
        (s.modHall (socketOf c.t.core) hl fun h =>
          (lanesOf on).foldl (fun h l => h.setBytes (0x200 + 16 * (e0.toNat + l)) (row l)) h).finish c f on c.lanes c.w
    | _ => s

/-- R378. -/
def execSmplRd (f : Fmt) (e0 : BitVec 6) (s : State) : Out :=
  s.smpl (.smplRd f e0) f e0 fun c on _ =>
    let at_ := (lanesOf on).map fun l => (⟨l, c.hallLoc (0x200 + 16 * (e0.toNat + l))⟩ : LaneLoc)
    s.finish c f on c.lanes (c.w.reserve (Pend.new (.pattern at_) 0 on f.d 4 c.pc) true)

end Sys2Proof.Machine
end

