-- ==== Sys2Proof/Machine/Dispatcher.lean ====
section
/-! DEFINITION. Placement and the start of teams: TEAM_DISPATCH, PLACEMENT_HOLD, PARAM_LOAD, the node launches and the
conditional predicate (R16, R17, R20, R103, R116 to R122, R128, R137 to R143, R159). -/

namespace Sys2Proof.Machine

open Sys2Proof

/-! ## What a team takes (R16, R17, R116) -/

/-- R17: vector registers of its partition's file that a resident warp of a grid holds. -/
def LaunchRec.fileTake (r : LaunchRec) : Nat := 8 * cdiv r.vec 8

/-- R116: what a team of `n` threads takes of its core: admitted warps of partitions 0 to 3, teams, gallery bytes, team
barriers and accumulator rows. Scale memory goes with the rows. -/
def LaunchRec.take (r : LaunchRec) (n : Nat) : List Nat :=
  ((List.range 4).map fun p => (warpsOf n + 3 - p) / 4) ++ [1, r.galleryTake, r.barTeam, 8 * r.accGran]

/-- R116: the capacities of a core. -/
def coreCaps : List Nat := [32, 32, 32, 32, 32, 393216, 64, 512]

def addUse (a b : List Nat) : List Nat := (a.zip b).map fun x => x.1 + x.2

def fitsIn (use : List Nat) : Bool := (use.zip coreCaps).all fun x => x.1 ≤ x.2

/-- The threads of a team. -/
def Team.threads (t : Team) (g : Grid) : Nat :=
  match t.kind with
  | .root => g.rec_.teamSize
  | .node n _ _ => ((tget g.nodes n).map (·.threads)).getD 1
  | .shader _ => 32

/-- R127, R445: the team holds its place on the core. -/
def Team.placed (t : Team) : Bool := t.st == .running || t.st == .halting

/-- The teams placed on a core. -/
def State.placedOn (s : State) (core : Nat) : List (Nat × Team) := s.teams.filter fun t => t.2.core == core && t.2.placed

/-- R116: what is in use on a core. -/
def State.coreUse (s : State) (core : Nat) : List Nat :=
  (s.placedOn core).foldl (fun u t => match s.grid? t.2.gid with
    | some g => addUse u (g.rec_.take (t.2.threads g))
    | none => u) (List.replicate 8 0)

/-- R116: another stair-enabled grid holds the core's landings. -/
def State.landingsHeld (s : State) (core gid : Nat) : Bool :=
  (s.placedOn core).any fun t => t.2.gid != gid && match s.grid? t.2.gid with
    | some g => g.rec_.stairEn != 0
    | none => false

/-- The cores of a die in service. -/
def State.coresOf (s : State) (sock : Nat) : List Nat :=
  if (s.die sock).inService then ((List.range 24).map (sock * 32 + ·)).filter fun c => (s.core c).inService else []

/-- R116: use of the cores of a die, while units are being tried on it. -/
abbrev DieUse := List (Nat × List Nat)

def State.dieUse (s : State) (sock : Nat) : DieUse := (s.coresOf sock).map fun c => (c, s.coreUse c)

/-- One team of `n` threads on a core of a die, where it fits. -/
def State.tryTeam (s : State) (gid : Nat) (r : LaunchRec) (n : Nat) (u : DieUse) (core : Nat) : Option DieUse :=
  match u.find? (·.1 == core) with
  | none => none
  | some x =>
    let v := addUse x.2 (r.take n)
    if fitsIn v && !(r.stairEn != 0 && s.landingsHeld core gid) then
      some (u.map fun y => if y.1 = core then (core, v) else y)
    else none

/-- R253, R254: the level of a shader team: the greatest depth of the traces its lanes serve; 0 for another team. DEDUCED, log 39. -/
def State.shaderLevel (s : State) (t : Team) : Nat :=
  match t.kind with
  | .shader trs => ((trs.filterMap fun id => tget s.traces id).map (·.depth)).foldl max 0
  | _ => 0

/-- R253: the shader teams for which a die keeps room: for each grid with teams there, one for each level of its trace depth
that has none. `extra` is a team that is to be placed there: its grid and its level. DEDUCED, log 39. -/
def State.shaderRoom (s : State) (sock : Nat) (extra : Option (Nat × Nat)) : List (Nat × LaunchRec) :=
  s.grids.flatMap fun g =>
    let mine := s.teams.filter fun t => t.2.gid == g.1 && t.2.placed && socketOf t.2.core == sock
    let levels := mine.map (fun t => s.shaderLevel t.2) ++ ((extra.filter fun x => x.1 == g.1).map (·.2)).toList
    if levels.isEmpty then []
    else (((List.range g.2.rec_.traceDepth).map (· + 1)).filter fun k => !levels.contains k).map fun _ => (g.1, g.2.rec_)

/-- The teams of a list fit on the die one after another, each on its first core with room. DEDUCED, log 47. -/
def State.fitAll (s : State) (u : DieUse) : List (Nat × LaunchRec) → Bool
  | [] => true
  | (gid, r) :: rest =>
    match u.findSome? fun x => s.tryTeam gid r 32 u x.1 with
    | none => false
    | some u => s.fitAll u rest

/-! ## The dispatch order (R110, R118 to R122) -/

/-- R118, R119: the teams of a unit in the order of their rank: team linear indices. -/
def LaunchRec.unitTeams (r : LaunchRec) (u : Nat) : List Nat :=
  let nx := r.gx / r.cx
  let ny := r.gy / r.cy
  (List.range r.cluster).map fun k =>
    let x := u % nx * r.cx + k % r.cx
    let y := u / nx % ny * r.cy + k / r.cx % r.cy
    let z := u / nx / ny * r.cz + k / r.cx / r.cy
    x + r.gx * (y + r.gy * z)

/-- R122: the grids that may place units, in the order in which they are offered resources. -/
def State.offered (s : State) : List (Nat × Grid) :=
  let live := s.grids.filter fun g => g.2.st == .live
  (List.range 8).reverse.flatMap fun p => live.filter fun g => g.2.prio = p

/-- R118: core `c0 + r` of a die. -/
def ringCore (sock c0 r : Nat) : Nat := sock * 32 + (c0 + r) % 24

/-- R118: the first cores of a die on which a unit's teams fit; a teammate of the unit that is there already fixes it.
DEDUCED, log 47. -/
def State.unitFits (s : State) (gid : Nat) (r : LaunchRec) (sock : Nat) (ranks : List Nat) (present : Option (Nat × Nat))
    (u : DieUse) : List (Nat × DieUse) :=
  let starts := match present with
    | some (core, rank) => [(core % 32 + 24 - rank % 24) % 24]
    | none => List.range 24
  starts.filterMap fun c0 =>
    (ranks.foldl (fun a k => a.bind fun u => s.tryTeam gid r r.teamSize u (ringCore sock c0 k)) (some u)).map fun u => (c0, u)

/-- R116: cluster barriers in use on a die; a node team is a cluster of its own (R138). -/
def State.cluBars (s : State) (sock : Nat) : Nat :=
  let ts := s.teams.filter fun t => t.2.placed && socketOf t.2.core == sock
  let cl := ts.filterMap fun t => match t.2.kind with
    | .root => some (t.2.gid, 0, t.2.clu)
    | .node _ _ _ => some (t.2.gid, 1, t.1)
    | .shader _ => none
  ((cl.foldl (fun (l : List (Nat × Nat × Nat)) x => if l.contains x then l else x :: l) []).map fun x =>
    ((s.grid? x.1).map (·.rec_.barClu)).getD 0).foldl (· + ·) 0

/-- R116: die barriers in use on a die, without those of one die group. -/
def State.dieBars (s : State) (sock gid grp : Nat) : Nat :=
  let gs := ((s.teams.filter fun t => t.2.placed && socketOf t.2.core == sock).map fun t => (t.2.gid, t.2.group)).filter
    (· != (gid, grp))
  ((gs.foldl (fun (l : List (Nat × Nat)) x => if l.contains x then l else x :: l) []).map fun x =>
    ((s.grid? x.1).map (·.rec_.barDie)).getD 0).foldl (· + ·) 0

/-- R159: units of die scratch that can be carved on a die for a grid: hall and unit, from hall 7, then 6, then 5. -/
def State.carvable (s : State) (sock gid : Nat) : List (Nat × Nat) :=
  [7, 6, 5].flatMap fun h =>
    let x := s.hall sock h
    if x.holder.isSome || !x.inService || x.reserved.any (· != gid) then []
    else ((List.range 96).filter fun u => (tget x.carved u).isNone).map fun u => (h, u)

/-- R117: a die group's scratch, carved where it is not there yet; `none` where the halls have no room. DEDUCED, log 39. -/
def State.scratchFor (s : State) (gid grp bytes : Nat) : Option State :=
  let n := bytes / 65536
  if n = 0 || (tget s.scratch (gid * 128 + grp)).isSome then some s
  else
    let us := (s.carvable (grp % 16) gid).take n
    if us.length < n then none
    else
      let s := us.foldl (fun s u => s.modHall (grp % 16) u.1 fun h =>
        { h with carved := tset h.carved u.2 gid, cells := h.cells.filter fun x => x.1 / 65536 != u.2 }) s
      some { s with scratch := tset s.scratch (gid * 128 + grp) (us, []) }

/-- R117: no unit of the grid, a node team among them (R138), can still be dispatched to the die group. DEDUCED, log 39. -/
def State.doneOn (s : State) (gid : Nat) (g : Grid) (grp : Nat) : Bool :=
  g.seqs.all (fun q => !(q.sockets.contains (grp % 16) && (!g.rec_.block || q.dieIdx == grp / 16)) || q.stop ≤ q.nextUnit) &&
    g.again.isEmpty && g.restore.isEmpty && g.nodes.all fun n => s.nodeDone gid g n.1

/-- R117: the die scratch of a die group is released when nothing more of it can be there. -/
def State.checkScratch (s : State) (gid grp : Nat) : State :=
  match s.grid? gid with
  | none => s
  | some g =>
    if s.doneOn gid g grp && !(s.teams.any fun t => t.2.gid == gid && t.2.group == grp) then s.releaseScratch gid grp
    else s

/-! ## Starting a team (R20, R103, R117, R185) -/

/-- R127: the warps of a partition that have exited and hold their registers' space until their team's last warp exits. -/
def State.exitedIn (s : State) (part : Nat) : List Nat :=
  (s.warps.filter fun x => x.2.residence == .exited &&
    ((s.team? (x.1 / 32)).any fun t => partOf t.core x.2.num == part)).map (·.1)

/-- R116, R17: the registers of a partition's file in use, and the warps that hold some. -/
def State.fileUse (s : State) (part : Nat) : Nat × Nat :=
  let p := s.part part
  (p.active ++ p.pending ++ s.exitedIn part).foldl (fun a wid =>
    match (s.team? (wid / 32)).bind fun t => s.grid? t.gid with
    | some g => (a.1 + g.rec_.fileTake, a.2 + 1)
    | none => (a.1, a.2 + 1)) (0, 0)

/-- R17, R90: the file of a partition has room for a warp of a grid. -/
def State.fileRoom (s : State) (part : Nat) (r : LaunchRec) : Bool :=
  let (n, k) := s.fileUse part
  n + r.fileTake ≤ 512 && k < 16

/-- R20: a warp as it starts. -/
def Warp.start (tid num : Nat) (launched : Mask) (entry params now ns : Nat) : Warp where
  tid := tid
  num := num
  launched := launched
  exited := 0
  parked := 0
  stopped := 0
  ready := 0
  pc := (lanesOf launched).map fun l => (l, w64 entry)
  waits := []
  vec := []
  uni := []
  pred := []
  tile := []
  mask := cset [] 0 launched
  net := []
  win := []
  winSeq := []
  rdCnt := []
  pubCnt := []
  loops := []
  fstat := 0
  mstat := 0
  qseal := []
  srctr := []
  atomo := []
  mprog := []
  mpark := 0
  emu := { inside := false, word := 0, cause := 0, lanes := 0, pc := 0, win := [] }
  emuRes := []
  dbg := { inside := false, fromEmu := false, code := 0, lanes := 0, pc := 0, win := [] }
  spill := []
  fwd := []
  pend := []
  sq := []
  unack := 0
  nextSeq := 0
  contrib := []
  probe := []
  paramsLoaded := params = 0
  stallUntil := now
  lastIssue := now
  issues := 0
  laneIssue := []
  yielded := false
  residence := .none
  sinceCycle := now
  sinceNs := ns
  stallSince := none
  readySince := none
  dirty := { vec := [], uni := [], preds := false, tile := [], masks := false, net := [], win := false, stair := [] }
  saves := 0
  firstSaved := false
  ckpt := []
  pubWait := []
  hitRec := []
  rayInfo := []
  hitKey := []

/-- R103: the parameter words a starting warp reads. -/
def LaunchRec.params (r : LaunchRec) : Nat := min 16 (min r.uni r.paramWords)

/-- R17, R87, R90, R117: a warp takes its place: pending where the file has room, otherwise non-resident. -/
def State.seatWarp (s : State) (core wid num : Nat) (r : LaunchRec) (w : Warp) : State :=
  let p := partOf core num
  if s.fileRoom p r then
    (s.setWarp wid { w with residence := .pending }).modPart p fun x => { x with pending := x.pending ++ [wid] }
  else (s.setWarp wid { w with residence := .nonResident }).modPart p fun x => { x with nonResident := x.nonResident ++ [wid] }

/-- What a new team is. -/
structure NewTeam where
  gid : Nat
  kind : TeamKind
  lin : Nat
  rank : Nat
  clu : Nat
  dieIdx : Nat
  core : Nat
  entry : Nat
  threads : Nat
  params : Nat
  replayed : Bool
  recs : List (List W32)
  deriving DecidableEq, Repr

/-- R148, R189: the first team of its grid on a core empties the constant cache; the first of the grid empties the ray units'
node caches. -/
def State.firstOn (s : State) (gid core : Nat) : State :=
  if (s.core core).started.contains gid then s
  else
    let s := if s.cores.any fun x => x.2.started.contains gid then s
      else { s with dies := s.dies.map fun d => (d.1, { d.2 with nodeCache := [] }) }
    s.modCore core fun k => { k with ccache := [], started := k.started ++ [gid] }

/-- R20, R117, R128, R185: a team starts on a core; the result is its identifier.
DESIGN CHOICE, log 2; DESIGN CHOICE, log 8. -/
def State.startTeam (s : State) (g : Grid) (x : NewTeam) : Nat × State :=
  let tid := s.nextTid
  let r := g.rec_
  let root := match x.kind with | .shader _ => false | _ => true
  let gal := ((List.range x.recs.length).zip x.recs).foldl (fun (c : Cells 8) y =>
    let n := 4 * y.2.length
    csetAll c ((List.range n).map (n * y.1 + ·) |>.zip (y.2.flatMap bytes4))) []
  let t : Team :=
    { gid := x.gid, kind := x.kind, lin := x.lin, rank := x.rank, clu := x.clu, dieIdx := x.dieIdx, core := x.core,
      nwarps := warpsOf x.threads, st := .running, gallery := gal, galDirty := [], acc := [], accDirty := [], scale := [],
      scaleDirty := false, firstSaved := false, saves := 0, tagClear := 0, tagCnt := [], active := r.replay && root,
      loss := 0, replayed := x.replayed, commit := [], hall := none, bucket := none, children := [], bucketsPending := [],
      recs := x.recs, placedNs := s.ns, ckpt := [] }
  let s := { s with teams := tset s.teams tid t, nextTid := tid + 1 }
  let s := s.firstOn x.gid x.core
  let s := s.modCore x.core Core.invalidate
  (tid, (List.range (warpsOf x.threads)).foldl (fun s num =>
    let launched := maskOf ((List.range 32).filter fun l => num * 32 + l < x.threads)
    s.seatWarp x.core (widOf tid num) num r (Warp.start tid num launched x.entry x.params s.now s.ns)) s)

/-! ## Placing a unit -/

/-- The rank of a socket among the dies of a grid. -/
def Grid.dieRank (g : Grid) (sock : Nat) : Nat := (g.mask.findIdx? (· == sock)).getD 0

/-- One candidate placement of root teams: a die, and for each unit its first core and its teams: linear index, rank and
whether the team ran before. -/
structure Plan where
  sock : Nat
  dieIdx : Nat
  units : List (Nat × Nat × List (Nat × Nat × Bool))
  deriving DecidableEq, Repr

/-- R117, R185: the teams of a plan start, and the die scratch is there. -/
def State.runPlan (s : State) (gid : Nat) (g : Grid) (p : Plan) : State :=
  match s.scratchFor gid (groupOf p.dieIdx p.sock) g.rec_.dieScratch with
  | none => s
  | some s =>
    p.units.foldl (fun s u => u.2.2.foldl (fun s t =>
      (s.startTeam g { gid := gid, kind := .root, lin := t.1, rank := t.2.1, clu := u.1, dieIdx := p.dieIdx,
                       core := ringCore p.sock u.2.1 t.2.1, entry := g.rec_.entry, threads := g.rec_.teamSize,
                       params := g.rec_.params, replayed := t.2.2, recs := [] }).2) s) s

/-- R116, R253: the die as a whole has what the grid's die group needs there beside its cores. -/
def State.dieFits (s : State) (gid : Nat) (g : Grid) (grp newClusters : Nat) (u : DieUse) : Bool :=
  let sock := grp % 16
  s.cluBars sock + newClusters * g.rec_.barClu ≤ 32 && s.dieBars sock gid grp + g.rec_.barDie ≤ 16 &&
  (s.scratchFor gid grp g.rec_.dieScratch).isSome && s.fitAll u (s.shaderRoom sock (some (gid, 0)))

/-- R122: grid `a` is offered resources before grid `b`. -/
def offeredBefore (a b : Nat × Grid) : Bool := b.2.prio < a.2.prio || (a.2.prio == b.2.prio && a.1 < b.1)

/-- R122: a die is held for another grid; of two grids that both wait so, the one that is offered resources first goes first.
DEDUCED, log 47. -/
def State.heldFor (s : State) (sock gid : Nat) : Bool :=
  s.grids.any fun h => h.1 != gid && h.2.st == .live && h.2.held && h.2.mask.contains sock &&
    !((s.grid? gid).any fun g => g.held && offeredBefore (gid, g) h)

/-- The dies of the mask that may take a unit of a grid. -/
def State.dieCands (s : State) (gid : Nat) (l : List Nat) : List Nat :=
  l.filter fun d => (s.die d).inService && !s.heldFor d gid

/-- A teammate of a unit that is placed: core and rank. -/
def State.teammate (s : State) (gid unit : Nat) : Option (Nat × Nat) :=
  (s.teams.find? fun t => t.2.gid == gid && t.2.clu == unit && t.2.kind == .root && t.2.placed).map fun t =>
    (t.2.core, t.2.rank)

/-- R118: the first cores for some ranks of a unit on a die; a teammate that is placed fixes the die and the first core. -/
def State.unitStarts (s : State) (gid : Nat) (g : Grid) (grp unit : Nat) (ranks : List Nat) : List (Nat × DieUse) :=
  let mate := s.teammate gid unit
  if mate.any fun x => socketOf x.1 != grp % 16 then []
  else
    (s.unitFits gid g.rec_ (grp % 16) ranks mate (s.dieUse (grp % 16))).filter fun x =>
      s.dieFits gid g grp (if mate.isSome then 0 else 1) x.2

/-- R118: the plans for teams of one unit on a die. -/
def State.unitPlans (s : State) (gid : Nat) (g : Grid) (sock dieIdx unit : Nat) (ts : List (Nat × Nat × Bool)) : List Plan :=
  (s.unitStarts gid g (groupOf dieIdx sock) unit (ts.map (·.2.1))).map fun x => ⟨sock, dieIdx, [(unit, x.1, ts)]⟩

/-! ### Whole sequences (R121)

Clusters of `len` teams lie on arcs of consecutive cores of the ring of 24; core `i` takes `cap i` more teams. With y(i) the
number of arcs that begin at cores 0 to i, the arcs fit if and only if y(i) ≤ y(i + 1) and y(i) - y(i - len) ≤ cap(i), each
turn of the ring adding their number `n`: these are difference constraints, and relaxing distances from any core solves them
or shows that no packing exists. -/

/-- One round of relaxation. -/
def arcStep (n len : Nat) (cap : List Nat) (d : List Int) : List Int :=
  let at_ := fun (k : Nat) => (d[k]?).getD 0
  (List.range 24).map fun i =>
    let back : Int := if len ≤ i then at_ (i - len) else at_ (i + 24 - len) - n
    let next : Int := if i = 23 then at_ 0 + n else at_ (i + 1)
    min (at_ i) (min (back + ((cap[i]?).getD 0 : Nat)) next)

/-- The cores at which `n` arcs begin, from a solution that core `k` anchors. -/
def arcStarts (n len : Nat) (cap : List Nat) (k : Nat) : Option (List Nat) :=
  let d := (List.range 25).foldl (fun d _ => arcStep n len cap d) ((List.range 24).map fun i => if i = k then 0 else 1000000)
  let at_ := fun (k : Nat) => (d[k]?).getD 0
  if arcStep n len cap d != d then none
  else some ((List.range 24).flatMap fun i => List.replicate (at_ i - (if i = 0 then at_ 23 - n else at_ (i - 1))).toNat i)

/-- How many more teams of a grid a core takes. -/
def State.teamRoom (s : State) (gid : Nat) (r : LaunchRec) (u : DieUse) (core : Nat) : Nat :=
  ((List.range 32).foldl (fun (a : Nat × DieUse) _ => match s.tryTeam gid r r.teamSize a.2 core with
    | some u => (a.1 + 1, u)
    | none => a) (0, u)).1

/-- R118, R121: ways to place units, each with the ranks of its teams, on a die together: unit and first core. -/
def State.arcPlans (s : State) (gid : Nat) (g : Grid) (grp : Nat) (units : List (Nat × List Nat)) : List (List (Nat × Nat)) :=
  let sock := grp % 16
  let u := s.dieUse sock
  let cap := (List.range 24).map fun c => s.teamRoom gid g.rec_ u (sock * 32 + c)
  (List.range 24).filterMap fun k =>
    match arcStarts units.length g.rec_.cluster cap k with
    | none => none
    | some st =>
      let at_ := units.zip st
      let u' := at_.foldl (fun (a : Option DieUse) x => x.1.2.foldl (fun a r => a.bind fun u =>
        s.tryTeam gid g.rec_ g.rec_.teamSize u (ringCore sock x.2 r)) a) (some u)
      match u' with
      | some u' => if s.dieFits gid g grp units.length u' then some (at_.map fun x => (x.1.1, x.2)) else none
      | none => none

/-- R121: the plans for several units of a die-resident grid together. -/
def State.wholePlans (s : State) (gid : Nat) (g : Grid) (sock dieIdx : Nat) (units : List (Nat × List (Nat × Nat × Bool))) :
    List Plan :=
  (s.arcPlans gid g (groupOf dieIdx sock) (units.map fun x => (x.1, x.2.map (·.2.1)))).map fun l =>
    ⟨sock, dieIdx, (l.zip units).map fun x => (x.1.1, x.1.2, x.2.2)⟩

/-- R119, R120: the plans for the next unit of a sequence; those of a die-resident grid are placed together (R121). -/
def State.seqPlans (s : State) (gid : Nat) (g : Grid) (q : DSeq) : List Plan :=
  let teams := fun (n : Nat) =>
    let ts := g.rec_.unitTeams n
    ((List.range ts.length).zip ts).map fun y => (y.2, y.1, false)
  if q.stop ≤ q.nextUnit then []
  else
    (s.dieCands gid q.sockets).flatMap fun d =>
      let idx := if g.rec_.block then q.dieIdx else g.dieRank d
      if g.rec_.barDie != 0 then
        s.wholePlans gid g d idx (((List.range (q.stop - q.nextUnit)).map (q.nextUnit + ·)).map fun n => (n, teams n))
      else s.unitPlans gid g d idx q.nextUnit (teams q.nextUnit)

/-- R119: the sequence that holds a unit under block placement. -/
def Grid.seqOf (g : Grid) (unit : Nat) : Option DSeq :=
  g.seqs.find? fun q =>
    let (lo, hi) := blockRange g.rec_.units g.mask.length q.dieIdx
    lo ≤ unit && unit < hi

/-- R118, R121, R128: the plans for an aborted team with the aborted teams of its cluster, or of its die group, which comes
before the rest of its sequence, on the dies of that sequence. DEDUCED, log 45. -/
def State.againPlans (s : State) (gid : Nat) (g : Grid) (lin : Nat) : List Plan :=
  let unit := (g.rec_.unitOf lin).1
  let roots := g.again.filter fun x => x.2.1 == .root
  let of := fun (n : Nat) => (roots.filter fun x => (g.rec_.unitOf x.1).1 == n).map fun x => (x.1, (g.rec_.unitOf x.1).2, true)
  let q := if g.rec_.block then g.seqOf unit else none
  let dies := match q with | some q => q.sockets | none => g.mask
  (s.dieCands gid dies).flatMap fun d =>
    let idx := match q with | some q => q.dieIdx | none => g.dieRank d
    if g.rec_.barDie != 0 && (s.teammate gid unit).isNone then
      let units := (roots.map fun x => (g.rec_.unitOf x.1).1).foldl (fun l n =>
        if l.contains n || (g.seqOf n).map (·.dieIdx) != q.map (·.dieIdx) then l else l ++ [n]) []
      s.wholePlans gid g d idx (units.map fun n => (n, of n))
    else s.unitPlans gid g d idx unit (of unit)

/-- A core of the grid's dies with room for a single team of `n` threads, for node teams and for shader teams of a level, where
the die scratch of the grid is there or can be carved (R117). DEDUCED, log 39. -/
def State.singleCores (s : State) (gid : Nat) (g : Grid) (n level : Nat) : List Nat :=
  let dies := if level = 0 then s.dieCands gid g.mask else g.mask.filter fun d => (s.die d).inService
  (dies.filter fun d => (s.scratchFor gid (groupOf (g.dieRank d) d) g.rec_.dieScratch).isSome).flatMap fun d =>
    ((s.coresOf d).filter fun c =>
      match s.tryTeam gid g.rec_ n (s.dieUse d) c with
      | none => false
      | some u => (level != 0 || (s.cluBars d + g.rec_.barClu ≤ 32 &&
          s.dieBars d gid (groupOf (g.dieRank d) d) + g.rec_.barDie ≤ 16)) && s.fitAll u (s.shaderRoom d (some (gid, level))))

/-- R140: the threads of a team of a node. -/
def Grid.nodeThreads (g : Grid) (n : Nat) : Nat := ((tget g.nodes n).map (·.threads)).getD 1

/-! ### Restores (R446) -/

/-- R444: the teams of a team's unit: its die group, its cluster, or itself. -/
def State.unitOfTeam (s : State) (tid : Nat) (t : Team) : List (Nat × Team) :=
  match t.kind with
  | .root =>
    let die := ((s.grid? t.gid).map (·.rec_.barDie)).getD 0 != 0
    s.teams.filter fun x => x.2.gid == t.gid && x.2.kind == .root &&
      (if die then x.2.group == t.group else x.2.clu == t.clu)
  | _ => [(tid, t)]

/-- R446: the dies on which a saved unit may be restored: its own where it holds a hall or die scratch, else any of the mask.
DEDUCED, log 51. -/
def Grid.restoreDies (g : Grid) (us : List (Nat × Team)) : List Nat :=
  let here := (us.head?.map fun t => socketOf t.2.core).getD 0
  if us.any (fun t => t.2.hall.isSome) || g.rec_.dieScratch != 0 then [here] else g.mask

/-- R119: the `%die` of a team that is restored on a die. -/
def Grid.restoredIdx (g : Grid) (t : Team) (sock : Nat) : Nat := if g.rec_.block then t.dieIdx else g.dieRank sock

/-- R118, R446: the cores for the teams of a saved unit on a die, cluster by cluster; the teams of a cluster that were aborted
must fit beside them; a die group does not join another. -/
def State.restoreOn (s : State) (gid : Nat) (g : Grid) (sock : Nat) (us : List (Nat × Team)) : List (List (Nat × Nat)) :=
  let clus := us.foldl (fun l t => if l.contains t.2.clu then l else l ++ [t.2.clu]) []
  let grp := groupOf ((us.head?.map fun t => g.restoredIdx t.2 sock).getD 0) sock
  let ranks := fun (clu : Nat) => (us.filter fun t => t.2.clu == clu).map (·.2.rank) ++
    (g.again.filter fun x => x.2.1 == .root && (g.rec_.unitOf x.1).1 == clu).map fun x => (g.rec_.unitOf x.1).2
  let taken := s.teams.any fun t => t.2.gid == gid && t.2.kind == .root && t.2.group == grp && !us.any (·.1 == t.1)
  let seats := fun (l : List (Nat × Nat)) => l.flatMap fun x =>
    (us.filter fun t => t.2.clu == x.1).map fun t => (t.1, ringCore sock x.2 t.2.rank)
  if g.rec_.barDie != 0 && taken then []
  else
  match clus with
  | [clu] => (s.unitStarts gid g grp clu (ranks clu)).map fun x => seats [(clu, x.1)]
  | _ => (s.arcPlans gid g grp (clus.map fun c => (c, ranks c))).map seats

/-- The saved unit that a grid restores next. -/
def State.nextRestore (s : State) (g : Grid) : List (Nat × Team) :=
  match g.restore.head?.bind fun tid => (s.team? tid).map fun t => (tid, t) with
  | none => []
  | some (tid, t) => (s.unitOfTeam tid t).filter fun x => x.2.st == .saved

/-- R120, R133: a team of an ordered grid that is being saved holds back every team of higher linear index. -/
def State.haltsBefore (s : State) (gid : Nat) (g : Grid) (lin : Nat) : Bool :=
  g.rec_.ordered && s.teams.any fun t => t.2.gid == gid && t.2.st == .halting && t.2.kind == .root && t.2.lin < lin

/-- R446: the cores on which the next saved unit of a grid may be restored. -/
def State.restorePlans (s : State) (gid : Nat) (g : Grid) : List (List (Nat × Nat)) :=
  let us := s.nextRestore g
  let dies := s.dieCands gid (g.restoreDies us)
  if us.any fun t => t.2.kind == .root && s.haltsBefore gid g t.2.lin then []
  else
    match us with
    | [(tid, t)] =>
      match t.kind with
      | .root => dies.flatMap fun d => s.restoreOn gid g d us
      | _ => ((s.singleCores gid g (t.threads g) (s.shaderLevel t)).filter fun c =>
          (g.restoreDies us).contains (socketOf c)).map fun c => [(tid, c)]
    | _ => dies.flatMap fun d => s.restoreOn gid g d us

/-! ### The offer (R122) -/

/-- One placement that a grid may make next. -/
inductive Place where
  | again (p : Plan)
  | againNode (core : Nat)
  | seq (i : Nat) (p : Plan)
  deriving DecidableEq, Repr

/-- R120, R128, R446: the placements a grid may make next: a saved unit goes first, then an aborted team.
DESIGN CHOICE, log 5. -/
def State.places (s : State) (gid : Nat) (g : Grid) : List Place :=
  if !g.restore.isEmpty || s.haltsBefore gid g (2 ^ 32) then []
  else
    match g.again with
    | (lin, .root, _) :: _ => (s.againPlans gid g lin).map .again
    | (_, .node n _ _, _) :: _ => (s.singleCores gid g (g.nodeThreads n) 0).map .againNode
    | _ => ((List.range g.seqs.length).zip g.seqs).flatMap fun x => (s.seqPlans gid g x.2).map (.seq x.1)

/-- R138, R140: the nodes of a grid that a team is to be placed for. -/
def State.dueNodes (s : State) (gid : Nat) (g : Grid) : List (Nat × Node) :=
  g.nodes.filter fun n => s.nodeDue gid g n.1 n.2 != 0

/-- R122: the grid can place something: a unit, a saved unit, or a node team. -/
def State.mayPlace (s : State) (gid : Nat) (g : Grid) : Bool :=
  !(s.places gid g).isEmpty || (!g.restore.isEmpty && !(s.restorePlans gid g).isEmpty) ||
    (s.dueNodes gid g).any fun n => !(s.singleCores gid g n.2.threads 0).isEmpty

/-- R122: no grid that is offered resources before this one can place something. -/
def State.turnOf (s : State) (gid : Nat) : Bool :=
  match s.offered.find? fun g => s.mayPlace g.1 g.2 with
  | none => true
  | some h => h.1 == gid || (s.grid? gid).any fun g => offeredBefore (gid, g) h

/-- R122: a grid has a unit to place, a node team among them. -/
def Grid.waits (g : Grid) : Bool :=
  g.st == .live && (!g.again.isEmpty || !g.restore.isEmpty || g.seqs.any fun q => q.nextUnit < q.stop)

def State.waits (s : State) (gid : Nat) (g : Grid) : Bool := g.waits || (g.st == .live && !(s.dueNodes gid g).isEmpty)

/-- R141: a node team is launched on a core; its linear index has no stated value (DESIGN CHOICE, log 23). -/
def State.startNode (s : State) (gid : Nat) (g : Grid) (n k core : Nat) (recs : List (List W32)) (replayed : Bool) : State :=
  let x := (tget g.nodes n).getD ⟨0, 0, 0, 0, 0, 1, 4, .none, [], 0, 0, 0⟩
  let lin := (Config.freeWord s.fresh).toNat
  let s := { s with fresh := s.fresh + 1 }
  match s.scratchFor gid (groupOf (g.dieRank (socketOf core)) (socketOf core)) g.rec_.dieScratch with
  | none => s
  | some s =>
    (s.startTeam g { gid := gid, kind := .node n k recs.length, lin := lin, rank := 0, clu := 0,
                     dieIdx := g.dieRank (socketOf core), core := core, entry := x.entry, threads := x.threads,
                     params := g.rec_.params, replayed := replayed, recs := recs }).2

/-- Some root teams of a grid wait to be placed again no more. -/
def Plan.left (p : Plan) (l : List (Nat × TeamKind × List (List W32))) : List (Nat × TeamKind × List (List W32)) :=
  l.filter fun x => !(x.2.1 == .root && p.units.any fun u => u.2.2.any (·.1 == x.1))

/-- A placement is made. -/
def State.place (s : State) (gid : Nat) (g : Grid) (x : Place) : State :=
  let mark := fun (s : State) (f : Grid → Grid) =>
    (s.modGrid gid fun g => { f g with waitSinceNs := s.ns, held := false }).unreserve gid
  match x with
  | .again p => mark (s.runPlan gid g p) fun g => { g with again := p.left g.again }
  | .againNode core =>
    match g.again with
    | (_, .node n k _, recs) :: _ => mark (s.startNode gid g n k core recs true) fun g => { g with again := g.again.tail }
    | _ => s
  | .seq i p =>
    mark (s.runPlan gid g p) fun g =>
      { g with seqs := ((List.range g.seqs.length).zip g.seqs).map fun q =>
          if q.1 = i then { q.2 with nextUnit := q.2.nextUnit + p.units.length } else q.2 }

/-- R119, R120, R122: the next unit of the grid that is offered resources first is placed; which of the eligible dies and cores
takes it is free. DESIGN CHOICE, log 5. -/
def execTeamDispatch (s : State) : Out :=
  match s.offered.find? fun g => s.mayPlace g.1 g.2 with
  | none => .next s
  | some (gid, g) =>
    match s.pick (s.places gid g) with
    | (none, _) => .next s
    | (some x, s) => .next (s.place gid g x)

/-- R159: the dies on which a grid's next unit needs die scratch that cannot be carved. -/
def State.scratchless (s : State) (gid : Nat) (g : Grid) : List Nat :=
  let open_ := (g.seqs.filter fun q => q.nextUnit < q.stop).flatMap fun q =>
    q.sockets.map fun d => (d, groupOf (if g.rec_.block then q.dieIdx else g.dieRank d) d)
  let all := if g.again.isEmpty && g.restore.isEmpty && (s.dueNodes gid g).isEmpty then open_
    else open_ ++ g.mask.map fun d => (d, groupOf (g.dieRank d) d)
  (all.filter fun x => (s.die x.1).inService && (s.scratchFor gid x.2 g.rec_.dieScratch).isNone).map (·.1)

/-- R159: halls 7, 6 and 5 of a die are held for a grid, each from when it is free. -/
def State.reserveHalls (s : State) (gid sock : Nat) : State :=
  [7, 6, 5].foldl (fun s h => s.modHall sock h fun x => if x.reserved.isNone then { x with reserved := some gid } else x) s

/-- R122, R159: after 20 µs of waiting, what frees on its dies is held for a cluster or a die-resident sequence, and the halls
that die scratch is carved from for a die group. DEDUCED, log 47. -/
def execPlacementHold (grid : Nat) (s : State) : Out :=
  match s.grid? grid with
  | none => .next s
  | some g =>
    if s.waits grid g && g.waitSinceNs + 20000 < s.ns && !s.mayPlace grid g then
      let s := (s.scratchless grid g).foldl (fun s d => s.reserveHalls grid d) s
      .next (if 1 < g.rec_.cluster || g.rec_.barDie != 0 then s.modGrid grid fun g => { g with held := true } else s)
    else .next s

/-! ## Parameters (R103, R148) -/

/-- R103: the words, or the first faulting byte with its `FTYPE`. -/
def State.paramWords (s : State) (c : Ctx) (n : Nat) : Except (Nat × Nat) (List W32) × State :=
  (List.range n).foldl (fun a i =>
    match a.1 with
    | .error e => (.error e, a.2)
    | .ok ws =>
      let va := c.g.rec_.paramBase + 4 * i
      match a.2.locate (some c.t.core) c.t.gid c.t.group false va .read with
      | (.error ft, s) => (.error (va, ft), s)
      | (.ok x, s) =>
        match x.sp with
        | .mem =>
          let (v, s) := s.constWord c.t.gid c.t.core x.line x.word
          (.ok (ws ++ [v]), s)
        | _ =>
          let bs := (List.range 4).map fun i => s.deviceByte { x with a := x.a + i } i 0
          (.ok (ws ++ [BitVec.ofNat 32 (leNat bs)]), { s with fresh := s.fresh + 4 })) (.ok [], s)

/-- R103: a starting warp reads its parameter words; where the read faults, its lanes park at its first instruction. -/
def execParamLoad (wid : Nat) (s : State) : Out :=
  match s.warp? wid with
  | none => .next s
  | some w =>
    if w.paramsLoaded || w.runnable = 0 then .next s
    else
      match s.ctxOf wid w.runnable with
      | none => .next s
      | some c =>
        let n := c.g.rec_.params
        match s.paramWords c n with
        | (.error (va, ft), s) => .next (s.parkLanes c w 1 0 [⟨lowest w.launched, va, ft⟩] w.runnable)
        | (.ok ws, s) => .next (s.modWarp wid fun w => { (w.setUnis 0 ws) with paramsLoaded := true })

/-! ## Node teams (R138 to R143) -/

/-- R140: a team of a node launches with its first `k` records. -/
def State.launchNode (s : State) (gid : Nat) (g : Grid) (n : Nat) (x : Node) (k : Nat) : State :=
  if k = 0 || !s.turnOf gid then s
  else
    match s.pick (s.singleCores gid g x.threads 0) with
    | (none, _) => s
    | (some core, s') =>
      let s' := s'.startNode gid g n x.launchedTeams core (x.bin.take k) false
      (s'.modGrid gid fun g => { g.setNode n { x with bin := x.bin.drop k, launchedTeams := x.launchedTeams + 1 } with
        waitSinceNs := s.ns }).unreserve gid

/-- The node of a live grid. -/
def State.node? (s : State) (grid node : Nat) : Option (Grid × Node) :=
  match s.grid? grid with
  | none => none
  | some g => if g.st == .live then (tget g.nodes node).map fun x => (g, x) else none

/-- R140: `COUNT` records are there. -/
def execNodeCountLaunch (grid node : Nat) (s : State) : Out :=
  match s.node? grid node with
  | none => .next s
  | some (g, x) => .next (if x.open_ && x.count ≤ x.bin.length then s.launchNode grid g node x x.count else s)

/-- R140: the timer has expired. -/
def execNodeTimerExpiry (grid node : Nat) (s : State) : Out :=
  match s.node? grid node with
  | none => .next s
  | some (g, x) =>
    .next (if x.open_ && x.timer != 0 && !x.bin.isEmpty && x.binSinceNs + x.timer ≤ s.ns then
      s.launchNode grid g node x (min x.count x.bin.length) else s)

/-- R140: the feeders are complete, and no team of the node runs. -/
def execNodeFinalLaunch (grid node : Nat) (s : State) : Out :=
  match s.node? grid node with
  | none => .next s
  | some (g, x) =>
    .next (if x.open_ && s.feedersDone grid g node x && !s.nodeRuns grid node then
      s.launchNode grid g node x (min x.count x.bin.length) else s)

/-- R143: the record of a predicate read that faults. -/
def predFault (va ftype node : Nat) : FaultEvt where
  va := w64 va
  pc := 0
  lanes := 0
  socket := 0
  core := 1
  warp := 0xFF
  engine := 7
  teamlin := 0xFFFFFFFF
  kind := 1
  ftype := ftype
  whole := false
  async := true
  emu := false
  tag := 0xFF
  progress := 0
  item := 0
  who := .predicate node

/-- R143: the predicate of a conditional node is read when its feeders are complete; as the node proceeds the timer of the
records it holds starts. DESIGN CHOICE, log 75. -/
def execConditionalNodePredicate (grid node : Nat) (s : State) : Out :=
  match s.node? grid node with
  | none => .next s
  | some (g, x) =>
    if x.cond != .waiting || !s.feedersDone grid g node x then .next s
    else
      match s.vread g.asid x.predAddr 4 with
      | (.error (ft, _), s) =>
        .next (s.modGrid grid fun g =>
          { (g.setNode node { x with cond := .faulted }) with faults := g.faults ++ [predFault x.predAddr ft node] })
      | (.ok bs, s) =>
        if leNat bs != 0 then
          .next (s.modGrid grid fun g => g.setNode node { x with cond := .proceed, binSinceNs := s.ns })
        else
          .next ((s.modGrid grid fun g =>
            g.setNode node { x with cond := .discard, bin := [], discarded := x.discarded + x.bin.length }).checkStopped grid)

end Sys2Proof.Machine
end

