-- ==== Sys2Proof/Machine/Rays.lean ====
section
/-! DEFINITION. Rays: exact intersections, the hierarchy, traces, shader bins and TRACE, TRACE_RETURN, SHADER_BIN_LAUNCH,
SHADER_BIN_TIMER, TRHIT and TRQRY (R249 to R254, R256, R379 to R383). -/

namespace Sys2Proof.Machine

open Sys2Proof

/-! ## Exact numbers x + y·√d -/

def Q.sgn (a : Q) : Int := a.num.sign

def Surd.x (a : Surd) : Q := ⟨a.xn, a.xd⟩
def Surd.y (a : Surd) : Q := ⟨a.yn, a.yd⟩
def Surd.d (a : Surd) : Q := ⟨(a.dn : Int), a.dd⟩

def Surd.mk' (x y d : Q) : Surd := ⟨x.num, x.den, y.num, y.den, d.num.natAbs, d.den⟩

def Surd.ofQ (x : Q) : Surd := Surd.mk' x Q.zero Q.zero

/-- The sign of `x + y·√d`. -/
def sgnRoot (x y d : Q) : Int :=
  let sx := x.sgn
  let sy := if d.isZero then 0 else y.sgn
  if sy = 0 then sx
  else if sx = 0 || sx = sy then sy
  else sx * ((x.mul x).sub ((y.mul y).mul d)).sgn

def Surd.sgn (a : Surd) : Int := sgnRoot a.x a.y a.d

/-- The sign of `a - b`. -/
def Surd.cmp (a b : Surd) : Int :=
  let x := a.x.sub b.x
  let su := sgnRoot x a.y a.d
  let sv := if b.d.isZero then 0 else b.y.sgn
  if su ≠ sv then (su - sv).sign
  else
    su * sgnRoot (((x.mul x).add ((a.y.mul a.y).mul a.d)).sub ((b.y.mul b.y).mul b.d)) ((Q.ofInt 2).mul (x.mul a.y)) a.d

/-- The root of an exact square, where it is one. -/
def Q.root (d : Q) : Option Q :=
  let n := d.num.natAbs * d.den
  let r := isqrt n
  if 0 ≤ d.num && r * r = n then some ⟨r, d.den⟩ else none

/-- `floor(a · 2^k)` of an irrational number. -/
def Surd.floorAt (a : Surd) (k : Int) : Int :=
  let n := a.xd * a.yd * a.dd
  let p := a.xn * a.yd * a.dd
  let r := a.yn * a.xd
  let m := r.natAbs * r.natAbs * (a.dn * a.dd)
  let up := 2 ^ k.toNat
  let m := isqrt (m * up * up)
  (p * up + (if 0 ≤ r then (m : Int) else -(m : Int) - 1)).fdiv (n * 2 ^ (-k).toNat)

/-- R251: rounded once by `rne32`. -/
def Surd.rne (a : Surd) : W32 :=
  if a.yn = 0 || a.dn = 0 then rne32 a.x
  else
    let neg := a.sgn < 0
    let b : Surd := if neg then { a with xn := -a.xn, yn := -a.yn } else a
    let e : Int := ((b.floorAt 300).toNat.log2 : Int) - 300
    let u := max e (-126) - 23
    let k := ((b.floorAt (1 - u)).toNat + 1) / 2
    rne32 (Q.dy (if neg then -(k : Int) else k) u)

/-! ## Vectors -/

abbrev Vec := List Q

def Vec.sub (a b : Vec) : Vec := List.zipWith Q.sub a b
def Vec.dot (a b : Vec) : Q := Q.sum (List.zipWith Q.mul a b)
def Vec.at_ (a : Vec) (i : Nat) : Q := a[i]?.getD Q.zero

def Vec.cross (a b : Vec) : Vec :=
  [(1, 2), (2, 0), (0, 1)].map fun (p : Nat × Nat) =>
    ((Vec.at_ a p.1).mul (Vec.at_ b p.2)).sub ((Vec.at_ a p.2).mul (Vec.at_ b p.1))

/-! ## Rays and boxes (R249, R379) -/

/-- A ray with its interval. -/
structure Ray where
  o : Vec
  d : Vec
  tmin : FV
  tmax : FV
  deriving DecidableEq, Repr

/-- R379: the ray of eight words; `none` where an origin or direction is not finite (DEDUCED, log 25). -/
def rayOf (ws : List W32) : Option Ray :=
  let v := fun (i : Nat) => f32 (ws[i]?.getD 0)
  if (List.range 6).all fun i => (v i).isFin then
    some { o := [v 0, v 1, v 2].map FV.val, d := [v 3, v 4, v 5].map FV.val, tmin := v 6, tmax := v 7 }
  else none

/-- R251: tmin ≤ t ≤ tmax. -/
def Ray.holds (r : Ray) (t : Surd) : Bool :=
  (match r.tmin with
    | .nan => false
    | .inf n => n
    | .fin n m => 0 ≤ t.cmp (.ofQ (FV.val (.fin n m)))) &&
  (match r.tmax with
    | .nan => false
    | .inf n => !n
    | .fin n m => t.cmp (.ofQ (FV.val (.fin n m))) ≤ 0)

/-- An interval of t: its ends, unbounded where `none`. -/
abbrev Span := Option Q × Option Q

/-- The interval of a ray; `none` where it is empty. -/
def Ray.span (r : Ray) : Option Span :=
  let lo : Option (Option Q) := match r.tmin with | .nan => none | .inf n => if n then some none else none | x => some (some x.val)
  let hi : Option (Option Q) := match r.tmax with | .nan => none | .inf n => if n then none else some none | x => some (some x.val)
  match lo, hi with
  | some a, some b => some (a, b)
  | _, _ => none

def Span.cut (s : Span) (a b : Q) : Span :=
  (some (match s.1 with | some x => Q.max x a | none => a), some (match s.2 with | some x => Q.min x b | none => b))

def Span.ok (s : Span) : Bool := match s with | (some a, some b) => a.le b | _ => true

/-- R249: where the ray enters a box within its interval; `none` where it does not meet it. -/
def Ray.enter (r : Ray) (lo hi : Vec) : Option Span :=
  (List.range 3).foldl (fun (acc : Option Span) i =>
    match acc with
    | none => none
    | some sp =>
      let a := Vec.at_ lo i
      let b := Vec.at_ hi i
      let o := Vec.at_ r.o i
      let d := Vec.at_ r.d i
      if d.isZero then (if a.le o && o.le b then some sp else none)
      else
        let ta := (a.sub o).div d
        let tb := (b.sub o).div d
        let sp := if d.num < 0 then Span.cut sp tb ta else Span.cut sp ta tb
        if Span.ok sp then some sp else none) r.span

/-- R249: the box of child `k` of a node, and where the ray enters it. -/
def Ray.child (r : Ray) (nb : List Byte) (k : Nat) : Option Span :=
  let org := (List.range 3).map fun i => fltOf nb (4 * i)
  if org.any fun x => !x.isFin then none
  else
    let at_ := fun (h : Nat) => (List.range 3).map fun i =>
      ((org[i]?).getD FV.nan).val.add (Q.dy (field nb (40 + 6 * k + h + i) 1) (sext (field nb (12 + i) 1) 8))
    r.enter (at_ 0) (at_ 3)

/-! ## Primitives (R250, R251) -/

/-- R251: the exact hit of a ray with a triangle: t, s and w; `none` where there is none or it is degenerate. -/
def Ray.triangle (r : Ray) (v0 v1 v2 : Vec) : Option (Q × Q × Q) :=
  let e1 := Vec.sub v1 v0
  let e2 := Vec.sub v2 v0
  let p := Vec.cross r.d e2
  let det := Vec.dot e1 p
  if det.isZero then none
  else
    let tv := Vec.sub r.o v0
    let q := Vec.cross tv e1
    let s := (Vec.dot tv p).div det
    let w := (Vec.dot r.d q).div det
    if s.num < 0 || w.num < 0 || Q.one.lt (s.add w) then none else some ((Vec.dot e2 q).div det, s, w)

/-- Arithmetic on pairs x + y·√d of one d. -/
abbrev Pair := Q × Q

def Pair.add (a b : Pair) : Pair := (a.1.add b.1, a.2.add b.2)
def Pair.mul (d : Q) (a b : Pair) : Pair :=
  ((a.1.mul b.1).add ((a.2.mul b.2).mul d), (a.1.mul b.2).add (a.2.mul b.1))
def Pair.neg (a : Pair) : Pair := (a.1.neg, a.2.neg)
def Pair.sgn (d : Q) (a : Pair) : Int := sgnRoot a.1 a.2 d
/-- The quotient by a pair that is not 0. -/
def Pair.div (d : Q) (a b : Pair) : Pair :=
  let n := (b.1.mul b.1).sub ((b.2.mul b.2).mul d)
  let c := Pair.mul d a (b.1, b.2.neg)
  (c.1.div n, c.2.div n)

/-- `A + w·B` of plane vectors, w a pair. -/
def Pair.line (d : Q) (a b : Q) (w : Pair) : Pair := Pair.add (a, Q.zero) (Pair.mul d (b, Q.zero) w)

/-- The roots of `qa·w² + qb·w + qc` that are isolated: x, y and d of x + y·√d. -/
def quadRoots (qa qb qc : Q) : List (Q × Q × Q) :=
  if qa.isZero then
    if qb.isZero then [] else [(qc.neg.div qb, Q.zero, Q.zero)]
  else
    let disc := (qb.mul qb).sub ((Q.ofInt 4).mul (qa.mul qc))
    let a2 := (Q.ofInt 2).mul qa
    let x := qb.neg.div a2
    if disc.num < 0 then []
    else if disc.isZero then [(x, Q.zero, Q.zero)]
    else
      match disc.root with
      | some r => [(x.add (r.div a2), Q.zero, Q.zero), (x.sub (r.div a2), Q.zero, Q.zero)]
      | none => [(x, Q.one.div a2, disc), (x, (Q.one.div a2).neg, disc)]

/-- R251: the exact hits of a ray with the bilinear surface over four vertices: t, s and w. -/
def Ray.quad (r : Ray) (v0 v1 v2 v3 : Vec) : List (Surd × Surd × Surd) :=
  match (List.range 3).find? fun k => !(Vec.at_ r.d k).isZero with
  | none => []
  | some k =>
    let i := (k + 1) % 3
    let j := (k + 2) % 3
    let dk := Vec.at_ r.d k
    let pr := fun (v : Vec) (m : Nat) => ((Vec.at_ v m).mul dk).sub ((Vec.at_ v k).mul (Vec.at_ r.d m))
    let b3 := Vec.sub v1 v0
    let c3 := Vec.sub v2 v0
    let d3 := Vec.sub (Vec.sub v3 v1) c3
    let a := (pr (Vec.sub v0 r.o) i, pr (Vec.sub v0 r.o) j)
    let b := (pr b3 i, pr b3 j)
    let c := (pr c3 i, pr c3 j)
    let e := (pr d3 i, pr d3 j)
    let cr := fun (u v : Q × Q) => (u.1.mul v.2).sub (u.2.mul v.1)
    (quadRoots (cr c e) ((cr a e).add (cr c b)) (cr a b)).filterMap fun x =>
      let d := x.2.2
      let w : Pair := (x.1, x.2.1)
      let ac := (Pair.line d a.1 c.1 w, Pair.line d a.2 c.2 w)
      let be := (Pair.line d b.1 e.1 w, Pair.line d b.2 e.2 w)
      let solve := fun (u v : Pair) => Pair.neg (Pair.div d u v)
      let s? := if Pair.sgn d be.1 != 0 then some (solve ac.1 be.1)
        else if Pair.sgn d be.2 != 0 then some (solve ac.2 be.2) else none
      match s? with
      | none => none
      | some s =>
        let in01 := fun (p : Pair) => 0 ≤ Pair.sgn d p && Pair.sgn d (p.1.sub Q.one, p.2) ≤ 0
        if !(in01 s && in01 w) then none
        else
          let pk := Pair.add (Pair.add ((Vec.at_ v0 k).sub (Vec.at_ r.o k), Q.zero) (Pair.mul d s (Vec.at_ b3 k, Q.zero)))
            (Pair.add (Pair.mul d w (Vec.at_ c3 k, Q.zero)) (Pair.mul d (Pair.mul d s w) (Vec.at_ d3 k, Q.zero)))
          let sd := fun (p : Pair) => Surd.mk' p.1 p.2 d
          some (sd (Pair.div d pk (dk, Q.zero)), sd s, sd w)

/-- R250, R251: the hits of a ray with a primitive record at an address, within its interval. DEDUCED, log 25. -/
def Ray.hits (r : Ray) (bs : List Byte) (addr : Nat) : List RayHit :=
  let quad := (field bs 56 1) % 2 = 1
  let vs := (List.range (if quad then 4 else 3)).map fun i => (List.range 3).map fun c => fltOf bs (12 * i + 4 * c)
  if vs.any fun v => v.any fun x => !x.isFin then []
  else
    let v := fun (i : Nat) => ((vs[i]?).getD []).map FV.val
    let raw : List (Surd × Surd × Surd) :=
      if quad then r.quad (v 0) (v 1) (v 2) (v 3)
      else (r.triangle (v 0) (v 1) (v 2)).toList.map fun x => (.ofQ x.1, .ofQ x.2.1, .ofQ x.2.2)
    (raw.filter fun x => r.holds x.1).map fun x =>
      { t := x.1, s := x.2.1,
        info := { t := x.1.rne, s := x.2.1.rne, w := x.2.2.rne, prim := wordOf bs 48, geom := wordOf bs 52,
                  addr := w64 addr, flags := BitVec.ofNat 32 (field bs 56 1 % 4) } }

/-- R251: the order in which hits are delivered. DEDUCED, log 25. -/
def RayHit.before (a b : RayHit) : Bool :=
  let c := a.t.cmp b.t
  c < 0 || (c = 0 &&
    (a.info.geom.toNat < b.info.geom.toNat || (a.info.geom == b.info.geom &&
      (a.info.prim.toNat < b.info.prim.toNat || (a.info.prim == b.info.prim && a.s.cmp b.s < 0)))))

/-! ## Reads of the ray units (R187, R189, R256) -/

/-- A read by the ray units of a die: a byte that its node caches hold is the cached or the present one. -/
def State.rayRead (s : State) (gid socket va n : Nat) : Except (Nat × Nat) (List Byte) × State :=
  match s.locate none gid socket false va .read with
  | (.error f, s) => (.error (va, f), s)
  | (.ok x, s) =>
    match x.sp with
    | .mem =>
      let s := s.recall none x.line
      let c := (s.die socket).nodeCache
      let old := (List.range n).map fun i =>
        let v := cget c (x.a + i)
        if v.getLsbD 8 then v.setWidth 8 else s.byte (x.a + i)
      let new := s.locBytes x n
      let (i, s) := if old = new then (0, s) else s.choose 2
      let bs := if i = 0 then old else new
      let new9 : List (Nat × BitVec 9) := ((List.range n).zip bs).map fun y => (x.a + y.1, 1#1 ++ y.2)
      (.ok bs, s.modDie socket fun d => { d with nodeCache := csetAll d.nodeCache new9 })
    | .pcie => (.ok ((List.range n).map fun i => Config.freeByte (s.fresh + i)), { s with fresh := s.fresh + n })
    | _ => (.ok (s.locBytes x n), s)

/-! ## Enumeration (R249, R251) -/

/-- What may end a traversal. -/
inductive RayErr where
  | fault (va ftype : Nat)
  | bad (addr : Nat)
  /-- the hierarchy has no end below the node -/
  | endless
  deriving DecidableEq, Repr

/-- What a traversal finds: hits, and errors with the parameter at which the ray enters the box that leads to them. -/
structure Found where
  hits : List RayHit
  errs : List (Option Q × RayErr)
  deriving DecidableEq, Repr

def Found.err (f : Found) (sp : Span) (e : RayErr) : Found := { f with errs := f.errs ++ [(sp.1, e)] }

/-- R249: a node is malformed. -/
def nodeBad (nb : List Byte) : Bool :=
  field nb 15 1 != 0 || (nb.drop 96).any (· != 0) || field nb 16 8 % 128 != 0 || field nb 24 8 % 64 != 0 ||
  (List.range 8).any fun k =>
    let m := field nb (32 + k) 1
    m / 64 = 3 || (m / 64 != 2 && m % 64 != 0)

/-- R249: the leaf primitives of earlier leaf children, and the inner children before child `k`. -/
def nodeSkip (nb : List Byte) (k : Nat) : Nat × Nat :=
  (List.range k).foldl (fun a i =>
    let m := field nb (32 + i) 1
    if m / 64 = 1 then (a.1, a.2 + 1) else if m / 64 = 2 then (a.1 + m % 64, a.2) else a) (0, 0)

/-- R250: the primitives of a leaf child. -/
def State.enumLeaf (s : State) (gid socket : Nat) (r : Ray) (mask : Nat) (sp : Span) (f : Found) : Nat → Nat → Found × State
  | 0, _ => (f, s)
  | n + 1, va =>
    match s.rayRead gid socket va 64 with
    | (.error (a, ft), s) => s.enumLeaf gid socket r mask sp (f.err sp (.fault a ft)) n (va + 64)
    | (.ok bs, s) =>
      let hs := if field bs 57 1 &&& mask = 0 then [] else r.hits bs va
      s.enumLeaf gid socket r mask sp { f with hits := f.hits ++ hs } n (va + 64)

/-- R249: the node at an address and everything below it whose boxes the ray meets. `fuel` bounds the depth by the number of
nodes an address space can hold, so that a hierarchy deeper than it has a cycle. DEDUCED, log 25. -/
def State.enumNode (gid socket : Nat) (r : Ray) (mask : Nat) : Nat → Span → Nat → Found × State → Found × State
  | 0, sp, _, (f, s) => (f.err sp .endless, s)
  | fuel + 1, sp, va, (f, s) =>
    match s.rayRead gid socket va 128 with
    | (.error (a, ft), s) => (f.err sp (.fault a ft), s)
    | (.ok nb, s) =>
      if nodeBad nb then (f.err sp (.bad va), s)
      else
        (List.range 8).foldl (fun (acc : Found × State) k =>
          let m := field nb (32 + k) 1
          if m / 64 = 0 || field nb (88 + k) 1 &&& mask = 0 then acc
          else
            match r.child nb k with
            | none => acc
            | some sp =>
              let (leaf, inner) := nodeSkip nb k
              if m / 64 = 1 then
                State.enumNode gid socket r mask fuel sp (field nb 16 8 + 128 * inner) acc
              else acc.2.enumLeaf gid socket r mask sp acc.1 (m % 64) (field nb 24 8 + 64 * leaf)) (f, s)

/-- Insertion into the order of delivery; a key is delivered once. -/
def insertHit (h : RayHit) : List RayHit → List RayHit
  | [] => [h]
  | x :: r => if h.before x then h :: x :: r else if x.before h then x :: insertHit h r else x :: r

/-! ## The course of a trace (R252, R256, R382) -/

/-- The next event of a trace. -/
inductive TrOut where
  /-- a shader is due: the entry address and the material key; the trace holds the rest -/
  | shade (entry key : Nat) (t : Trace)
  | finish (t : Trace)
  | err (e : RayErr) (t : Trace)

/-- R252: the entry of the shader table at an index: `CLOSEST`, `ANYHIT`, `MISS`. -/
def State.shaderEntry (s : State) (t : Trace) (i addr : Nat) : Except RayErr (Nat × Nat × Nat) × State :=
  if t.entries ≤ i then (.error (.bad addr), s)
  else
    match s.rayRead t.gid t.socket (t.table + 32 * i) 32 with
    | (.error (a, f), s) => (.error (.fault a f), s)
    | (.ok bs, s) =>
      let e := (field bs 0 8, field bs 8 8, field bs 16 8)
      if field bs 24 8 != 0 || e.1 % 384 != 0 || e.2.1 % 384 != 0 || e.2.2 % 384 != 0 then
        (.error (.bad (t.table + 32 * i)), s)
      else (.ok e, s)

/-- R252: the last hit has been enumerated. -/
def State.traceEnd (s : State) (t : Trace) : TrOut × State :=
  let done := fun (st : Nat) => TrOut.finish { t with st := .finished st }
  match t.mode with
  | .near =>
    match s.shaderEntry t t.miss (t.table + 32 * t.miss) with
    | (.error e, s) => (.err e t, s)
    | (.ok (_, _, m), s) => (if m = 0 then done 1 else .shade m 0 { t with st := .shading 3 none }, s)
  | .any => (done 1, s)
  | .all => (done (if t.delivered = 0 then 1 else 0), s)

/-- R252: a hit has been accepted. -/
def Trace.accept (t : Trace) (h : RayHit) : TrOut :=
  let t := { t with last := some h.info }
  if t.mode == .near && t.closest != 0 then .shade t.closest h.info.geom.toNat { t with st := .shading 1 (some h) }
  else .finish { t with st := .finished 0 }

/-- R251, R252: the hits after the last key are taken in order until a shader is due or the trace ends. `late` are the errors
behind boxes entered before the next hit is known; `early` those the hardware may meet or not.
DEDUCED, log 25; DEDUCED, log 69. -/
def State.traceHits (s : State) (t : Trace) (errs : List (Option Q × RayErr)) : List RayHit → TrOut × State
  | [] =>
    match s.pick errs with
    | (some e, s) => (.err e.2 t, s)
    | (none, s) => s.traceEnd t
  | h :: rest =>
    let due := errs.filter fun e => match e.1 with | none => true | some q => 0 ≤ h.t.cmp (.ofQ q)
    let (take, s) : Bool × State :=
      if !due.isEmpty then (true, s)
      else if errs.isEmpty then (false, s) else let (i, s) := s.choose 2; (i = 1, s)
    if take then
      match s.pick errs with
      | (some e, s) => (.err e.2 t, s)
      | (none, s) => (.finish t, s)
    else
      let opaque_ := h.info.flags.getLsbD 1
      let t' := { t with lastKey := some h, delivered := t.delivered + 1 }
      if t.mode == .any && opaque_ then
        (if t.entries ≤ h.info.geom.toNat % 65536 then .err (.bad h.info.addr.toNat) t else t'.accept h, s)
      else
        match s.shaderEntry t (h.info.geom.toNat % 65536) h.info.addr.toNat with
        | (.error e, s) => (.err e t, s)
        | (.ok (cl, ah, _), s) =>
          let t' := { t' with closest := cl }
          if t.mode == .all then
            let t' := { t' with last := some h.info }
            if cl = 0 then s.traceHits t' errs rest
            else (.shade cl h.info.geom.toNat { t' with st := .shading 1 (some h) }, s)
          else if opaque_ || ah = 0 then (t'.accept h, s)
          else (.shade ah h.info.geom.toNat { t' with last := some h.info, st := .shading 2 (some h) }, s)

/-- R249 to R252: a trace goes on from its last delivered hit. DEDUCED, log 69. -/
def State.traceNext (s : State) (t : Trace) : TrOut × State :=
  let t := { t with st := .traverse }
  match rayOf t.ray with
  | none => s.traceEnd t
  | some r =>
    match r.span with
    | none => s.traceEnd t
    | some sp =>
      let (f, s) := State.enumNode t.gid t.socket r t.mask (2 ^ 50) sp t.root (⟨[], []⟩, s)
      let hs := (f.hits.filter fun h => match t.lastKey with | none => true | some k => k.before h).foldl
        (fun l h => insertHit h l) []
      s.traceHits t f.errs hs

/-- R253: an invocation enters its bin. -/
def State.enterBin (s : State) (t : Trace) (id entry key : Nat) : State :=
  s.modDie t.socket fun d =>
    let mine := fun (b : ShBin) => b.gid == t.gid && b.entry == entry
    { d with bins := if d.bins.any mine then
        d.bins.map fun b => if mine b then { b with invs := b.invs ++ [(id, key, s.ns)] } else b
      else d.bins ++ [{ gid := t.gid, entry := entry, invs := [(id, key, s.ns)] }] }

def State.setTrace (s : State) (id : Nat) (t : Trace) : State := { s with traces := tset s.traces id t }

/-- R381: the payload of a trace goes to its lane's registers and gallery bytes, without a shift of the window. -/
def State.writePayload (s : State) (t : Trace) : State :=
  (s.modWarp t.wid fun w => w.setVecs t.base t.lane t.payload).modTeam (t.wid / 32) fun tm =>
    ((List.range t.galBytes).zip t.galPayload).foldl (fun tm x => tm.setGal (t.galBase + t.lane * t.galBytes + x.1) x.2) tm

/-- R256: the trace of a lane that parks stands: the key of its last delivered hit is kept, and the payload its shaders have
left. DEDUCED, log 69. -/
def State.keepTrace (s : State) (id : Nat) (t : Trace) : State :=
  let s := s.setTrace id { t with parked := true }
  match t.lastKey with
  | none => s.modWarp t.wid fun w => { w with hitKey := tdel w.hitKey t.lane }
  | some h => (s.writePayload t).modWarp t.wid fun w =>
      { w with hitKey := tset w.hitKey t.lane (h.info.t, h.info.geom, h.info.prim, h.info.s) }

/-- R382: the status of a trace that has finished. -/
def Trace.status (t : Trace) : Option W32 :=
  match t.st with
  | .finished st => some (BitVec.ofNat 32 (st + 256 * min t.delivered 0xFFFFFF))
  | _ => none

/-- The traces of a `TRACE` whose lanes have not parked. -/
def State.tracesOf (s : State) (wid pend : Nat) : List (Nat × Trace) :=
  s.traces.filter fun x => x.2.wid == wid && x.2.pend == pend && !x.2.parked

/-- R35, R381, R382: when every lane's trace has finished, the `TRACE` returns: payloads and statuses are written, and the
lanes that stand at it continue; a lane above the depth has status 3. DEDUCED, log 69. -/
def State.traceDone (s : State) (wid pend : Nat) : State :=
  match s.warp? wid, s.team? (wid / 32) with
  | some w, some tm =>
    match w.pend.find? (·.seq == pend) with
    | none => s
    | some p =>
      let mine := s.tracesOf wid pend
      if mine.all fun x => x.2.status.isSome then
        let s := mine.foldl (fun s x => (s.writePayload x.2).modWarp wid fun w =>
          { w with hitRec := match x.2.last with | some h => tset w.hitRec x.2.lane h | none => tdel w.hitRec x.2.lane
                   hitKey := tdel w.hitKey x.2.lane }) s
        let s := s.modWarp wid fun w =>
          let w := (lanesOf p.lanes).foldl (fun w l =>
            w.putLane p.dst l [((mine.find? (·.2.lane == l)).bind (·.2.status)).getD 3]) w
          let w := w.leaveWait ((w.waits.filter (·.2 == .trace pend)).map (·.1))
          { w with pend := w.pend.filter (·.seq != pend) }
        let s := { s with traces := s.traces.filter fun x => !mine.contains x }
        if mine.isEmpty then s else s.modCore tm.core Core.invalidate
      else s
  | _, _ => s

/-- R256: the tracing lane parks at its `TRACE` with a record while its trace stands; its status is no longer waited for.
DEDUCED, log 69. -/
def State.parkTrace (s : State) (id : Nat) (t : Trace) (va ftype : Nat) : State :=
  match s.ctxOf t.wid (laneBit t.lane) with
  | none => s
  | some c =>
    let drop := fun (p : Pend) => if p.seq == t.pend then { p with lanes := p.lanes &&& ~~~laneBit t.lane } else p
    let w := { c.w with pend := c.w.pend.map drop, waits := tdel c.w.waits t.lane }
    ((s.parkLanes c w 8 5 [⟨t.lane, va, ftype⟩] 0).keepTrace id t).traceDone t.wid t.pend

/-- A trace under way takes its next event. -/
def State.traceApply (s : State) (id : Nat) (o : TrOut) : State :=
  match o with
  | .shade entry key t => (s.setTrace id t).enterBin t id entry key
  | .finish t => s.setTrace id t
  | .err (.fault va ft) t => s.parkTrace id t va ft
  | .err (.bad a) t => s.setTrace id { t with st := .bad a }
  | .err .endless t => s.setTrace id t

def State.traceGo (s : State) (id : Nat) (t : Trace) : State :=
  let (o, s) := s.traceNext t
  s.traceApply id o

/-- R252, R381: a shader lane of a trace has exited with its signal. -/
def State.shaderEnd (s : State) (id : Nat) (t : Trace) (signal : Bool) : State :=
  match t.st with
  | .shading 2 (some h) => if signal then s.traceGo id t else s.traceApply id (t.accept h)
  | .shading 1 _ =>
    if t.mode == .all then (if signal then s.setTrace id { t with st := .finished 2 } else s.traceGo id t)
    else s.setTrace id { t with st := .finished 0 }
  | .shading _ _ => s.setTrace id { t with st := .finished 1 }
  | _ => s

/-- R381: shader lanes exit: their payload becomes the trace's. -/
def State.shaderExit (s : State) (w : Warp) (t : Team) (lanes : Mask) : State :=
  match t.kind with
  | .shader trs =>
    (lanesOf lanes).foldl (fun s l =>
      match (trs[l]?).bind fun id => (tget s.traces id).map fun x => (id, x) with
      | none => s
      | some (id, tr) =>
        let tr := { tr with
          payload := (List.range tr.payload.length).map fun i => cget w.vec (i * 32 + l)
          galPayload := (List.range tr.galBytes).map fun i => t.galByte (l * tr.galBytes + i) }
        s.shaderEnd id tr ((cget w.pred 0).getLsbD l)) s
  | _ => s

/-! ## TRACE (R379, R380) -/

/-- R254: the depth of a `TRACE` issued by a lane. -/
def State.traceDepth (s : State) (c : Ctx) (l : Nat) : Nat :=
  match c.t.kind with
  | .shader trs => (((trs[l]?).bind fun id => tget s.traces id).map (·.depth)).getD 0 + 1
  | _ => 1

/-- The trace of a lane as it starts; its pending result is set when it is reserved. -/
def State.newTrace (s : State) (c : Ctx) (d : Dst) (a : Nat) (mode : TraceMode) (mask pw miss : Nat)
    (rec_ : List Byte) (gb g l : Nat) : Trace where
  gid := c.t.gid
  wid := c.wid
  lane := l
  socket := socketOf c.t.core
  depth := s.traceDepth c l
  mode := mode
  mask := mask
  ray := (List.range 8).map fun i => cget c.w.vec ((a + i) * 32 + l)
  root := field rec_ 0 8
  table := field rec_ 8 8
  entries := field rec_ 16 4
  miss := miss
  item := (s.item c l).toNat
  payload := (List.range pw).map fun i => cget c.w.vec ((a + 8 + i) * 32 + l)
  base := a + 8
  galBase := gb
  galBytes := g
  galPayload := (List.range g).map fun i => c.t.galByte (gb + l * g + i)
  st := .traverse
  closest := 0
  lastKey := none
  delivered := 0
  last := none
  parked := false
  pend := c.w.nextSeq
  pc := c.pc
  dst := d
  group := c.lanes

/-- R379: a scene record is malformed. -/
def sceneBad (bs : List Byte) : Bool := field bs 20 12 != 0 || field bs 0 8 % 128 != 0 || field bs 8 8 % 32 != 0

/-- R256: a lane that executes its `TRACE` again goes on after its last delivered hit. -/
def State.again (s : State) (t : Trace) : Nat × Trace × State :=
  match s.traces.find? fun x => x.2.wid == t.wid && x.2.lane == t.lane && x.2.parked with
  | some (id, o) => (id, { t with lastKey := o.lastKey, delivered := o.delivered, last := o.last }, s)
  | none => let (id, s) := s.newId; (id, t, s)

/-- R380, R256: the lanes traverse; a malformed record stops the warp, a lane that faults parks; the others stand at the `TRACE`
until it returns. DEDUCED, log 69. -/
def State.traceLanes (s : State) (c : Ctx) (f : Fmt) (on : Mask) (pw : Nat) (ts : List Trace) (deep : List Nat) : State :=
  let (os, s') := ts.foldl (fun (a : List (Nat × Trace × TrOut) × State) t =>
    let (id, t, s) := a.2.again t
    let (o, s) := s.traceNext t
    (a.1 ++ [(id, t, o)], s)) ([], s)
  match os.findSome? fun x => match x.2.2 with | .err (.bad a) _ => some a | _ => none with
  | some a => s'.stop c .rayNode (w64 a)
  | none =>
    let bad := os.filterMap fun x => match x.2.2 with
      | .err (.fault va ft) t => some (x.1, t, va, ft)
      | _ => none
    let fs : List LaneFault := bad.map fun x => ⟨x.2.1.lane, x.2.2.1, x.2.2.2⟩
    let gone := maskOf (fs.map (·.lane))
    let go := os.filter fun x => !gone.getLsbD x.2.1.lane
    let s' :=
      if go.isEmpty then s'.complete c f on (c.emit f.d (maskOf deep) fun _ => ([3], {})) fs 8 5 0
      else
        let stand := c.lanes &&& ~~~gone
        let base := (ts.head?.map (·.base)).getD 0
        let w := (c.w.reserve (Pend.new (.trace base pw) 0 (on &&& ~~~gone) f.d 1 c.pc) false).setWait (lanesOf stand)
          (.trace c.w.nextSeq)
        let s' := s'.setWarp c.wid (s'.issued w stand)
        let s' := if fs.isEmpty then s' else s'.parkLanes c ((s'.warp? c.wid).getD w) 8 5 fs 0
        go.foldl (fun s x => (s.setTrace x.1 x.2.1).traceApply x.1 x.2.2) s'
    bad.foldl (fun s x => s.keepTrace x.1 x.2.1) s'

/-- R379 to R382, R129, R185, R193: the checks, the release, the scene record, then the lanes. DEDUCED, log 71. -/
def execTrace (f : Fmt) (mode : TraceMode) (mask : Byte) (pw : BitVec 6) (miss : BitVec 6) (s : State) : Out :=
  s.run (.trace f mode mask pw miss) fun c on =>
    match f.a with
    | .vec _ i =>
      let a := i.toNat
      let p := pw.toNat
      let k := (s.src c 0 .raw f.c (lowest on)).toNat
      let gb := k % 2 ^ 20
      let g := k / 2 ^ 20 * 16
      let r := c.g.rec_
      if on = 0 then s.finish c f on c.lanes c.w
      else if r.vec ≤ a + 7 + p then s.stop c .ridx (w64 (max a r.vec))
      else if r.payloadRegs < p || r.payloadGal < 32 * g then s.stop c .payload 0
      else if g != 0 && r.gallery < gb + 32 * g then s.stop c .galRange (w64 gb)
      else if c.w.fenced 5 then s
      else
        match s.handOff c with
        | none => s
        | some (some l) => s.drain c.t.core c.wid l
        | some none =>
          let s := if c.t.commit.isEmpty then s else s.unrepeatable c
          let deep := (lanesOf on).filter fun l => r.traceDepth < s.traceDepth c l
          let goes := (lanesOf on).filter fun l => !deep.contains l
          let at_ := (s.src64 c 0 f.b (lowest on)).toNat
          let low := fun (w : Warp) => if deep.isEmpty then w else { c with w := w }.emit f.d (maskOf deep) fun _ => ([3], {})
          if goes.isEmpty then s.finish c f on c.lanes (low c.w)
          else if at_ % 32 != 0 then s.stop c .memAlign (w64 at_)
          else
            match s.rayRead c.t.gid (socketOf c.t.core) at_ 32 with
            | (.error (va, ft), s) => s.complete c f on (low c.w) (goes.map fun l => ⟨l, va, ft⟩) 8 5 0
            | (.ok bs, s) =>
              if sceneBad bs then s.stop c .rayNode (w64 at_)
              else if field bs 16 4 ≤ miss.toNat then s.stop c .rayNode (w64 (field bs 8 8 + 32 * miss.toNat))
              else
                s.traceLanes c f on p
                  (goes.map (s.newTrace c f.d a mode mask.toNat p miss.toNat bs gb g)) deep
    | _ => s

/-! ## TRACE_RETURN (R381, R382) -/

/-- R316, R379, R476: a trace that has met a malformed record stops the lanes that stand at its `TRACE`, without effect in any
of them, once every other result of the warp has been written. DEDUCED, log 69. -/
def State.traceBad (s : State) (t : Trace) (addr : Nat) : State :=
  match s.warp? t.wid with
  | none => s
  | some w =>
    let m := maskOf ((w.waits.filter (·.2 == .trace t.pend)).map (·.1))
    match s.ctxOf t.wid m with
    | none => s
    | some c =>
      let c := { c with w := { c.w with pend := c.w.pend.filter (·.seq != t.pend)
                                        waits := c.w.waits.filter (·.2 != .trace t.pend) } }
      if s.drained c && s.canReport then
        let mine := s.tracesOf t.wid t.pend
        ({ s with traces := s.traces.filter fun x => !mine.contains x }).stop c .rayNode (w64 addr)
      else s

/-- R381, R382: a finished trace returns, with every other lane's trace of its `TRACE`. -/
def execTraceReturn (id : Nat) (s : State) : Out :=
  match tget s.traces id with
  | none => .next s
  | some t =>
    match t.st with
    | .bad a => .next (if t.parked then s else s.traceBad t a)
    | .finished _ => .next (if t.parked then s else s.traceDone t.wid t.pend)
    | _ => .next s

/-! ## Shader bins (R253, R381) -/

/-- R253: a ray of the grid is traversing on the die. -/
def State.traversing (s : State) (gid socket : Nat) : Bool :=
  s.traces.any fun t => t.2.gid == gid && t.2.socket == socket && !t.2.parked && t.2.st == .traverse

/-- R381: a shader lane as it starts. DEDUCED, log 35. -/
def Warp.shaderLane (w : Warp) (l : Nat) (t : Trace) : Warp :=
  let kind := match t.st with | .shading k _ => k | _ => 0
  let hit := match t.st with | .shading _ (some h) => some h.info | _ => none
  let w := w.setVecs 0 l t.payload
  { w with hitRec := match hit with | some h => tset w.hitRec l h | none => w.hitRec
           rayInfo := tset w.rayInfo l
             { depth := BitVec.ofNat 32 t.depth, delivered := BitVec.ofNat 32 t.delivered,
               tmax := (t.ray[7]?).getD 0, tmin := (t.ray[6]?).getD 0, mask := BitVec.ofNat 32 t.mask,
               kind := BitVec.ofNat 32 kind } }

/-- R253: invocations in increasing material key, then in order of entry. -/
def insertInv (x : Nat × Nat × Nat) : List (Nat × Nat × Nat) → List (Nat × Nat × Nat)
  | [] => [x]
  | y :: r => if x.2.1 < y.2.1 then x :: y :: r else y :: insertInv x r

/-- R103, R253, R381: a team of up to 32 invocations of a bin launches, where a core of the grid's dies has room.
DESIGN CHOICE, log 23; DEDUCED, log 35; DEDUCED, log 39. -/
def State.launchBin (s : State) (die : Nat) (b : ShBin) : State :=
  match s.grid? b.gid with
  | none => s
  | some g =>
    let level := ((b.invs.filterMap fun x => tget s.traces x.1).map (·.depth)).foldl max 0
    match s.pick (s.singleCores b.gid g 32 level) with
    | (none, _) => s
    | (some core, s') =>
      match s'.scratchFor b.gid (groupOf (g.dieRank (socketOf core)) (socketOf core)) g.rec_.dieScratch with
      | none => s
      | some s' =>
        let invs := (b.invs.foldl (fun l x => insertInv x l) []).take 32
        let ids := invs.map (·.1)
        let s' := s'.modDie die fun d =>
          let left := b.invs.filter fun x => !invs.contains x
          { d with bins := if left.isEmpty then d.bins.erase b
              else d.bins.map fun x => if x == b then { b with invs := left } else x }
        let (tid, s') := { s' with fresh := s'.fresh + 1 }.startTeam g
          { gid := b.gid, kind := .shader ids, lin := (Config.freeWord s'.fresh).toNat, rank := 0, clu := 0,
            dieIdx := g.dieRank (socketOf core), core := core, entry := b.entry, threads := ids.length,
            params := g.rec_.params, replayed := false, recs := [] }
        ((List.range ids.length).zip ids).foldl (fun s x =>
          match tget s.traces x.2 with
          | none => s
          | some t =>
            let s := s.modWarp (widOf tid 0) fun w => w.shaderLane x.1 t
            s.modTeam tid fun tm => ((List.range t.galBytes).zip t.galPayload).foldl
              (fun tm y => tm.setGal (x.1 * t.galBytes + y.1) y.2) tm) s'

/-- R253: a bin that holds 32 invocations, or whose grid has no ray traversing on the die. -/
def execShaderBinLaunch (die entry : Nat) (s : State) : Out :=
  match s.pick ((s.die die).bins.filter fun b =>
    b.entry == entry && (32 ≤ b.invs.length || !s.traversing b.gid die)) with
  | (none, _) => .next s
  | (some b, s) => .next (s.launchBin die b)

/-- R253: a bin whose oldest invocation entered 1,000 ns ago. -/
def execShaderBinTimer (die entry : Nat) (s : State) : Out :=
  match s.pick ((s.die die).bins.filter fun b =>
    b.entry == entry && match b.invs.head? with | some x => x.2.2 + 1000 ≤ s.ns | none => false) with
  | (none, _) => .next s
  | (some b, s) => .next (s.launchBin die b)

/-! ## TRHIT and TRQRY (R383) -/

def HitRec.none_ : HitRec := ⟨0, 0, 0, 0, 0, 0, 0⟩
def RayInfo.none_ : RayInfo := ⟨0, 0, 0, 0, 0, 0⟩

/-- R383. -/
def HitRec.get (h : HitRec) (n : Nat) : W32 :=
  match n with
  | 0 => h.t
  | 1 => h.s
  | 2 => h.w
  | 3 => h.prim
  | 4 => h.geom
  | 5 => h.addr.extractLsb' 0 32
  | 6 => h.addr.extractLsb' 32 32
  | _ => h.flags

/-- R383. -/
def execTrhit (f : Fmt) (field : BitVec 3) (s : State) : Out :=
  s.counted (.trhit f field) 2 (s.alu1 (.trhit f field) f fun c l => ((tget c.w.hitRec l).getD HitRec.none_).get field.toNat)

/-- R383. -/
def RayInfo.get (x : RayInfo) (n : Nat) : W32 :=
  match n with
  | 0 => x.depth
  | 1 => x.delivered
  | 2 => x.tmax
  | 3 => x.tmin
  | 4 => x.mask
  | _ => x.kind

/-- R383. -/
def execTrqry (f : Fmt) (sel : BitVec 3) (s : State) : Out :=
  s.counted (.trqry f sel) 2 (s.alu1 (.trqry f sel) f fun c l => ((tget c.w.rayInfo l).getD RayInfo.none_).get sel.toNat)

end Sys2Proof.Machine
end

