-- ==== Sys2Proof/Machine/Retire.lean ====
section
/-! DEFINITION. EXIT, and the retirement of teams and grids (R72, R124, R127, R128, R131, R142, R314, R350, R357, R381,
R416). -/

namespace Sys2Proof.Machine

open Sys2Proof

/-! ## EXIT (R314) -/

/-- R124, R314: lanes leave the warp: every mask, their loops and their waits. -/
def Warp.exitLanes (w : Warp) (m : Mask) : Warp :=
  { w with
    exited := w.exited ||| m
    mask := (List.range 12).foldl (fun t i => cset t i (cget t i &&& ~~~m)) w.mask
    loops := w.loops.filter fun x => !m.getLsbD x.1
    waits := w.waits.filter fun x => !m.getLsbD x.1
    dirty := { w.dirty with masks := true } }

/-- R131, R134, R453: the items of exiting lanes of a root team, with the `ATOMO`s they executed; their exits are numbered for
the stair channels. -/
def State.itemsExit (s : State) (c : Ctx) (m : Mask) : State :=
  match c.t.kind with
  | .root =>
    let (id, s) := s.newId
    s.modGrid c.t.gid fun g => (lanesOf m).foldl (fun g l =>
      let i := (s.item c l).toNat
      { g with itemsExited := g.itemsExited ++ [i], exitSeq := tset g.exitSeq i (id, s.ns, c.t.core), atomoMade := tset g.atomoMade i (cget c.w.atomo l).toNat }) g
  | _ => s

/-- R127: every warp of a team has exited. -/
def State.teamDone (s : State) (tid : Nat) (t : Team) : Bool :=
  (t.wids tid).all fun wid => match s.warp? wid with | some w => w.alive == 0 | none => true

/-- R89, R127: a warp none of whose lanes remains leaves its sets and drains its update-only lines; with the last one the
team gives up its place on the core. -/
def State.warpExit (s : State) (wid : Nat) : State :=
  match s.warp? wid, s.team? (wid / 32) with
  | some w, some t =>
    let s := (s.setWarp wid { w with residence := .exited }).leavePart t.core wid w.num
    let s := w.contrib.foldl (fun s l => if (s.core t.core).isUpd l && w.sq.isEmpty && w.unack < 32 then s.drain t.core wid l
      else s) s
    if s.teamDone (wid / 32) t then
      let s := (t.wids (wid / 32)).foldl (fun s k => s.modWarp k fun w => { w with residence := .none }) s
      s.modTeam (wid / 32) fun t => { t with st := .ended }
    else s
  | _, _ => s

/-- R314: the on lanes end; the others continue at the next instruction (R313: no body is counted). -/
def State.exitOn (s : State) (c : Ctx) (on : Mask) : State :=
  let off := c.lanes &&& ~~~on
  let w := (lanesOf off).foldl (fun w l => { w with pc := cset w.pc l c.nextPc }) (c.w.exitLanes on)
  let s := s.setWarp c.wid (s.issued w.releaseMasks c.lanes)
  if on = 0 then s
  else
    let s := (s.itemsExit c on).shaderExit c.w c.t on
    let s := s.barsAfterExit c.wid
    let s := match s.warp? c.wid with
      | some w => if w.alive = 0 then s.warpExit c.wid else s
      | none => s
    s.checkStopped c.t.gid

/-- R185, R193, R381: the end of a shader: its lane's results are written, and its stores released at `.dev`; `none` while they
are not, or a drain to send. DEDUCED, log 35. -/
def State.shaderEnds (s : State) (c : Ctx) (on : Mask) : Option (Option Nat) :=
  match c.t.kind with
  | .shader _ => if on = 0 then some none else if s.drainedFor c on then s.handOff c else none
  | _ => some none

/-- R314, R185. -/
def execExit (f : Fmt) (s : State) : Out :=
  s.run (.exit f) fun c on =>
    match s.shaderEnds c on with
    | none => s
    | some (some l) => s.drain c.t.core c.wid l
    | some none => s.exitOn c on

/-! ## Teams (R127) -/

/-- R127: every store, reduction and drain of the team has been acknowledged. -/
def State.teamAcked (s : State) (tid : Nat) (t : Team) : Bool :=
  let k := s.core t.core
  (t.wids tid).all fun wid =>
    match s.warp? wid with
    | none => true
    | some w => w.sq.isEmpty && w.unack == 0 && w.contrib.all (fun l => !k.isUpd l && !k.unackedDrain l) &&
        !(s.cores.any fun c => c.2.inflight.any fun r => r.wid == wid)

/-- R127: the team may retire. -/
def State.teamMayRetire (s : State) (tid : Nat) (t : Team) : Bool :=
  t.st == .ended && s.teamDone tid t && s.teamAcked tid t && !(s.ops.any fun o => o.tid == tid) &&
    !(t.children.any s.childLive) && !(s.traces.any fun x => x.2.wid / 32 == tid)

/-- R127, R128, R357: a team retires: its buffer commits, a hall it still holds is given up as by `BKDONE`. -/
def State.retireTeam (s : State) (tid : Nat) : State :=
  let s := s.endReplay tid 0
  match s.team? tid with
  | none => s
  | some t =>
    let s := s.bkDone tid t
    let s := s.dropTeam tid
    let s := match t.kind with
      | .root => s.modGrid t.gid fun g => { g with rootRetired := g.rootRetired + 1 }
      | _ => s
    s.checkScratch t.gid t.group

def execTeamRetire (tid : Nat) (s : State) : Out :=
  match s.team? tid with
  | none => .next s
  | some t => .next (if s.teamMayRetire tid t then s.retireTeam tid else s)

/-! ## Grids (R127, R142, R143, R416) -/

/-- R127: every root team, node team and node is complete, and every predicate has been read. -/
def State.gridDone (s : State) (gid : Nat) (g : Grid) : Bool :=
  g.st == .live && g.rootsDone && !(s.teams.any fun t => t.2.gid == gid) && g.again.isEmpty && g.restore.isEmpty &&
    g.nodes.all fun n => s.nodeDone gid g n.1 && n.2.cond != .waiting && n.2.cond != .faulted

/-- R143: the node records of a grid that were discarded. -/
def Grid.discards (g : Grid) : Nat := (g.nodes.map fun n => n.2.discarded).foldl (· + ·) 0

/-- R127, R416: a complete grid stores its done value and is reported, and gives up all it holds. DEDUCED, log 45. -/
def execGridRetire (grid : Nat) (s : State) : Out :=
  match s.grid? grid with
  | none => .next s
  | some g =>
    let tells := g.notify || g.discards != 0
    if !s.gridDone grid g || (tells && !s.canReport) then .next s
    else
      let s := if g.rec_.doneAddr = 0 then s else s.vwrite g.asid g.rec_.doneAddr (natBytes 8 g.rec_.doneValue.toNat)
      let s := s.releaseGrid grid
      let s := s.modGrid grid fun g => { g with st := .retired, frame := none, frames := [], dbgEntry := none, held := false }
      let s := { s with gridsRetired := s.gridsRetired + 1 }
      .next (if tells then s.report (gridEvent g grid .retired (w64 g.discards)) else s)

end Sys2Proof.Machine
end

