-- ==== Sys2Proof/Machine/Context.lean ====
section
/-! DEFINITION. The saved contexts of warps and teams, byte by byte (R41 to R44, R447 to R449). -/

namespace Sys2Proof.Machine

open Sys2Proof

/-- R447: a context header. -/
def ctxHeader (gid lin warp saves : Nat) (offs : List Nat) : List Byte :=
  let h := natBytes 4 1 ++ natBytes 4 1 ++ natBytes 4 gid ++ natBytes 4 lin ++ natBytes 2 warp ++ natBytes 2 0 ++
    natBytes 4 saves ++ offs.flatMap (natBytes 4)
  h ++ List.replicate (128 - h.length) 0

/-! ## Saving a warp (R43, R44, R447) -/

/-- The writes of a save to a context: offset and bytes; `dirty` says whether a unit is written. -/
def State.warpWrites (s : State) (c : Ctx) (all : Bool) : List (Nat × List Byte) :=
  let w := c.w
  let r := c.g.rec_
  let sizes := r.warpSections
  let offs := sectionOffsets sizes
  let at_ := fun (i : Nat) => (offs[i]?).getD 0
  let d := w.dirty
  let on := fun (b : BitVec 1) => all || b == 1
  let vec := (List.range r.vec).filterMap fun i =>
    if on (cget d.vec i) then some (at_ 1 + 128 * i, laneWords fun l => cget w.vec (i * 32 + l)) else none
  let uni := (List.range r.uni).filterMap fun i =>
    if on (cget d.uni i) then some (at_ 2 + 4 * i, bytes4 (cget w.uni i)) else none
  let preds := if all || d.preds then [(at_ 3, (List.range 8).flatMap fun p => bytes4 (w.predWord p))] else []
  let tile := (List.range r.tile).filterMap fun i =>
    if on (cget d.tile i) then some (at_ 4 + 16 * i, natBytes 16 (cget w.tile i).toNat) else none
  let masks := if all || d.masks then [(at_ 5, (List.range 12).flatMap fun m => bytes4 (cget w.mask m))] else []
  let net := (List.range r.net).filterMap fun i =>
    if on (cget d.net i) then some (at_ 6 + 32 * i, natBytes 32 (cget w.net i).toNat) else none
  let window := fun (c : Cells 32) => (List.range 8).flatMap fun k => laneWords fun l => cget c (k * 32 + l)
  let win := if all || d.win then [(at_ 7, window w.win)] else []
  let stair := if r.stairEn = 0 then [] else (List.range 4).flatMap fun j =>
    if on (cget d.stair j) then
      ((List.range 8).map fun k => (at_ 8 + 128 * (8 * j + k), laneWords fun l => cget w.rdCnt ((8 * j + k) * 32 + l))) ++
        [(at_ 8 + 4096 + 128 * j, laneWords fun l => cget w.pubCnt (j * 32 + l))]
    else []
  let emu := if all || w.emu.inside then [(at_ 9, window w.emu.win)] else []
  let dbg := if all || w.dbg.inside then [(at_ 10, window w.dbg.win)] else []
  [(0, ctxHeader c.t.gid c.t.lin w.num (min (w.saves + 1) 0xFFFFFFFF) offs), (at_ 0, s.specialBytes c)] ++
    vec ++ uni ++ preds ++ tile ++ masks ++ net ++ win ++ stair ++ emu ++ dbg

def Dirty.clean : Dirty := { vec := [], uni := [], preds := false, tile := [], masks := false, net := [], win := false, stair := [] }

/-- R43, R44: the context of a warp is written, and its dirty bits are cleared; a `PROBE` in progress begins again after the
restore. DEDUCED, log 43. -/
def State.saveWarp (s : State) (wid : Nat) : State :=
  match s.ctxOf wid 0 with
  | none => s
  | some c =>
    let w := c.w
    s.setWarp wid { w with
      ckpt := (s.warpWrites c (!w.firstSaved)).foldl (fun k x => putBytes k x.1 x.2) w.ckpt
      dirty := Dirty.clean, firstSaved := true, saves := min (w.saves + 1) 0xFFFFFFFF, probe := [] }

/-- R170, R442: parked lanes are parked no more; a lane at a `TRACE` executes it again (R256). -/
def State.unpark (s : State) (wid : Nat) (m : Mask) : State :=
  s.modWarp wid fun w => { w with parked := w.parked &&& ~~~m, ready := w.ready &&& ~~~m }

/-- R44: the registers that the sections of a context hold. -/
def Warp.loadSections (w : Warp) (r : LaunchRec) : Warp :=
  let c := w.ckpt
  let at_ := fun (i : Nat) => ((sectionOffsets r.warpSections)[i]?).getD 0
  let run := fun (n len w off : Nat) => (csetAll [] ((List.range n).map fun i => (i, BitVec.ofNat w (ctxNat c (off + len * i) len))) : Cells w)
  let window := fun (off : Nat) => run 256 4 32 off
  { w with
    vec := run (32 * r.vec) 4 32 (at_ 1)
    uni := run r.uni 4 32 (at_ 2)
    pred := run 7 4 32 (at_ 3)
    tile := run r.tile 16 128 (at_ 4)
    mask := run 12 4 32 (at_ 5)
    net := run r.net 32 144 (at_ 6)
    win := window (at_ 7)
    rdCnt := if r.stairEn = 0 then w.rdCnt else run 1024 4 32 (at_ 8)
    pubCnt := if r.stairEn = 0 then w.pubCnt else run 128 4 32 (at_ 8 + 4096)
    emu := { w.emu with win := window (at_ 9) }
    dbg := { w.dbg with win := window (at_ 10) } }

/-- R44, R442: a restore loads every section and clears all dirty bits, and the lanes marked ready run; a warp that has never
been saved reads nothing. DEDUCED, log 43. -/
def State.loadWarp (s : State) (wid : Nat) : State :=
  match s.ctxOf wid 0 with
  | none => s
  | some c =>
    let r := c.g.rec_
    let w := if c.w.firstSaved then (c.w.loadSections r).loadSpecial (((sectionOffsets r.warpSections)[0]?).getD 0) else c.w
    (s.setWarp wid { w with dirty := Dirty.clean }).unpark wid w.ready

/-- R442, R448: parked lanes of a saved warp are marked ready in its checkpoint. -/
def State.markReady (s : State) (wid : Nat) (m : Mask) : State :=
  (s.modWarp wid fun w => { w with ready := w.ready ||| m }).resave wid

/-! ## Saving a team (R449) -/

/-- R449: the team special section. -/
def State.teamSpecial (s : State) (tid : Nat) (t : Team) (r : LaunchRec) : List Byte :=
  let bars := (List.range r.barTeam).flatMap fun i =>
    let b := s.bar .team tid i
    natBytes 4 b.arrived.length ++ natBytes 4 b.phase
  let h := natBytes 8 (~~~t.tagClear).toNat ++ (List.range 64).flatMap (fun g => natBytes 1 (t.tagCount g)) ++ bars
  h ++ List.replicate (200 - h.length) (0 : Byte) ++ natBytes 4 t.replayWord ++
    natBytes 4 (match t.hall with | some k => k + 1 | none => 0) ++ List.replicate 304 (0 : Byte)

/-- R39, R447: what has landed for one distance of a lane: ordinals beyond those it has read, and the exit. -/
def State.landWord (s : State) (c : Ctx) (l j k : Nat) : Nat :=
  let item := (s.item c l).toNat
  if item < k + 1 then 0
  else
    let (n, ex) := (s.core c.t.core).landedAt c.t.gid (item - (k + 1)) j
    min (n - (cget c.w.rdCnt ((8 * j + k) * 32 + l)).toNat) 32767 + 32768 * ex.toNat

/-- R449: the landings section: 64 bytes for each thread, two for each channel and distance (DESIGN CHOICE, log 43). -/
def State.landBytes (s : State) (tid : Nat) (t : Team) : List Byte :=
  (t.wids tid).flatMap fun wid =>
    match s.ctxOf wid 0 with
    | none => natBytes 2048 0
    | some c => (List.range 32).flatMap fun l => (List.range 32).flatMap fun i => natBytes 2 (s.landWord c l (i / 8) (i % 8))

/-- R449: the writes of a save to a team's context. -/
def State.teamWrites (s : State) (tid : Nat) (t : Team) (r : LaunchRec) (all : Bool) : List (Nat × List Byte) :=
  let offs := sectionOffsets r.teamSections
  let at_ := fun (i : Nat) => (offs[i]?).getD 0
  let acc := (List.range r.accGran).flatMap fun k =>
    if all || cget t.accDirty k == 1 then
      (List.range 8).map fun i =>
        (at_ 1 + 512 * (8 * k + i), (List.range 128).flatMap fun col => bytes4 (cget t.acc ((8 * k + i) * 128 + col)))
    else []
  let scale := if (all || t.scaleDirty) && r.accGran != 0 then
      [(at_ 2, (List.range (128 * r.accGran)).flatMap fun i => natBytes 2 (cget t.scale i).toNat)] else []
  let gal := (List.range (cdiv r.gallery 4096)).filterMap fun p =>
    if all || cget t.galDirty p == 1 then
      some (at_ 3 + 4096 * p, (List.range 4096).map fun i => t.galByte (4096 * p + i)) else none
  [(0, ctxHeader t.gid t.lin 0xFFFF (min (t.saves + 1) 0xFFFFFFFF) (offs.take 4)), (at_ 0, s.teamSpecial tid t r)] ++
    acc ++ scale ++ gal ++ (if r.stairEn = 0 || t.kind != .root then [] else [(at_ 4, s.landBytes tid t)])

/-- R45, R449: the context of a team is written, and its dirty bits are cleared. DEDUCED, log 43. -/
def State.saveTeam (s : State) (tid : Nat) : State :=
  match s.team? tid with
  | none => s
  | some t =>
    match s.grid? t.gid with
    | none => s
    | some g =>
      s.setTeam tid { t with
        ckpt := (s.teamWrites tid t g.rec_ (!t.firstSaved)).foldl (fun k x => putBytes k x.1 x.2) t.ckpt
        accDirty := [], scaleDirty := false, galDirty := [], firstSaved := true,
        saves := min (t.saves + 1) 0xFFFFFFFF }

/-- R44, R449: a team with what its context holds. -/
def Team.loadSections (t : Team) (r : LaunchRec) : Team :=
  let c := t.ckpt
  let at_ := fun (i : Nat) => ((sectionOffsets r.teamSections)[i]?).getD 0
  let rows := 8 * r.accGran
  { t with
    tagClear := ~~~w64 (ctxNat c (at_ 0) 8)
    tagCnt := ((List.range 64).map fun g => (g, ctxNat c (at_ 0 + 8 + g) 1)).filter (·.2 != 0)
    hall := (match ctxNat c (at_ 0 + 204) 4 with | 0 => none | k + 1 => some k)
    acc := csetAll [] ((List.range (rows * 128)).map fun i => (i, BitVec.ofNat 32 (ctxNat c (at_ 1 + 4 * i) 4)))
    scale := csetAll [] ((List.range (128 * r.accGran)).map fun i => (i, BitVec.ofNat 16 (ctxNat c (at_ 2 + 2 * i) 2)))
    gallery := csetAll [] ((List.range r.gallery).map fun i => (i, cget c (at_ 3 + i)))
    accDirty := [], scaleDirty := false, galDirty := [] }

/-- R39, R446, R449: what had landed for a restored team has landed at its core. -/
def State.loadLandings (s : State) (tid : Nat) (t : Team) (g : Grid) : State :=
  let at4 := ((sectionOffsets g.rec_.teamSections)[4]?).getD 0
  (t.wids tid).foldl (fun s wid =>
    match s.ctxOf wid 0 with
    | none => s
    | some c =>
      (List.range 1024).foldl (fun s i =>
        let (l, j, k) := (i / 32, i / 8 % 4, i % 8)
        let v := ctxNat t.ckpt (at4 + 2048 * (wid % 32) + 2 * i) 2
        if v = 0 then s
        else
          let p := (s.item c l).toNat - (k + 1)
          let (n, ex) := (s.core t.core).landedAt t.gid p j
          let n' := max n ((cget c.w.rdCnt ((8 * j + k) * 32 + l)).toNat + v % 32768)
          s.modCore t.core fun x => x.land t.gid p j n' (ex || 32768 ≤ v)) s) s

/-- R44, R446: a restored team's sections are loaded. DEDUCED, log 43. -/
def State.loadTeam (s : State) (tid : Nat) : State :=
  match s.team? tid with
  | none => s
  | some t =>
    match s.grid? t.gid with
    | none => s
    | some g =>
      if !t.firstSaved then s
      else
        let s := s.setTeam tid (t.loadSections g.rec_)
        if g.rec_.stairEn = 0 || t.kind != .root then s else s.loadLandings tid t g

end Sys2Proof.Machine
end

