-- ==== Sys2Proof/Machine/Issue.lean ====
section
/-! DEFINITION. Issue: fetch from the instruction cache, the decode checks that depend on the launch record, the scoreboard,
PC groups and their ranking, readiness and stalls (R31, R49, R67, R75, R78 to R80, R84 to R88, R130, R134, R212, R363,
R372). -/

namespace Sys2Proof.Machine

open Sys2Proof

/-! ## Fetch (R47, R49) -/

/-- The block of an instruction address. -/
def blockOf (pc : Nat) : Nat := pc / 384 * 384

/-- R49: the word at an address, from the block the core holds; `none` where the block is not there or the instruction could
not be supplied. -/
def State.fetch (s : State) (core gid pc : Nat) : Option IWord :=
  match tget (s.core core).icache (blockKey gid (blockOf pc)) with
  | none => none
  | some b =>
    let i := pc % 384 / 12
    if b.bad.any (·.1 == i) then none else some (wordOfBytes ((b.bytes.drop (12 * i)).take 12))

/-! ## Decode checks on the launch record (R31, R130, R134, R212, R363, R372) -/

/-- R130: a channel is enabled. -/
def LaunchRec.channelOn (r : LaunchRec) (j : Nat) : Bool := r.stairEn / 2 ^ j % 2 = 1

/-- The part of check 5 that depends on the launch record and on `%service`. -/
def Instr.contextOk (i : Instr) (r : LaunchRec) (full : Bool) : Bool :=
  (match i.shape with
    | some (f, _) => f.stairs.all fun x => r.channelOn x.1.toNat && (r.distances x.1.toNat).contains (x.2.toNat + 1)
    | none => true) &&
  match i with
  | .pubq _ j => r.channelOn j.toNat
  | .atomo _ _ _ _ _ => r.ordered
  | .mma _ acc16 _ slot _ _ =>
    let e := (r.slot slot.toNat).elem
    e != 0 && (full || e == 1 || e == 2) && !(acc16 && (e == 6 || e == 7))
  | .mlds _ _ _ slot =>
    let x := r.slot slot.toNat
    x.scale && x.elem != 0 && x.elem != 6 && x.elem != 7
  | _ => true

/-- R67, R68: the instruction a word is for a grid. -/
def State.decodeFor (s : State) (g : Grid) (w : IWord) : Instr :=
  let i := decodeWord w
  if Instr.contextOk i g.rec_ s.mg.full then i else .nonInstructionEncoding w .operand

/-! ## What a word reads and writes (R78) -/

/-- Registers, window slots and network registers that a word reads or writes. -/
structure Uses where
  vecs : List Nat
  unis : List Nat
  preds : List Nat
  wins : List Nat
  nets : List Nat
  deriving DecidableEq, Repr

def Uses.none_ : Uses := ⟨[], [], [], [], []⟩

def Uses.or (a b : Uses) : Uses :=
  ⟨a.vecs ++ b.vecs, a.unis ++ b.unis, a.preds ++ b.preds, a.wins ++ b.wins, a.nets ++ b.nets⟩

def runOf (i n : Nat) : List Nat := (List.range n).map (i + ·)

def srcUses (n : Nat) : Src → Uses
  | .vec _ i => { Uses.none_ with vecs := runOf i.toNat n }
  | .uni i => { Uses.none_ with unis := runOf i.toNat n }
  | .win _ k => { Uses.none_ with wins := runOf k.toNat n }
  | .pred _ p => { Uses.none_ with preds := [p.toNat] }
  | .net i => { Uses.none_ with nets := [i.toNat] }
  | _ => Uses.none_

def dstUses (k : DstKind) (d : Dst) : Uses :=
  let n := match k with | .vPair | .vuPair | .callPair => 2 | .vQuad => 4 | _ => 1
  match k, d with
  | .none, _ => Uses.none_
  | _, .vec i => { Uses.none_ with vecs := runOf i.toNat n }
  | _, .uni i => { Uses.none_ with unis := runOf i.toNat n }
  | _, .pred p => { Uses.none_ with preds := [p.toNat] }
  | _, _ => Uses.none_

def hsrcUses : HSrc → Uses
  | .vec i => { Uses.none_ with vecs := [i.toNat] }
  | .win k => { Uses.none_ with wins := [k.toNat] }
  | .const _ => Uses.none_

def halfReads (h : Half) : Uses := (hsrcUses h.a).or ((hsrcUses h.b).or (hsrcUses h.c))

def halfUses (h : Half) : Uses :=
  (halfReads h).or (if h.nwb || h.op == .hnop then Uses.none_ else { Uses.none_ with vecs := [h.d.toNat] })

/-- Registers beyond those its fields name that a word reads. -/
def extraReads (g : Grid) : Instr → Uses
  | .mov _ _ .fromIdx => { Uses.none_ with vecs := List.range 256 }
  | .trace f _ _ pw _ => match f.a with | .vec _ i => { Uses.none_ with vecs := runOf i.toNat (8 + pw.toNat) } | _ => Uses.none_
  | .nrec f n => match f.a with
    | .vec _ i => { Uses.none_ with vecs := runOf i.toNat (((tget g.nodes n.toNat).map (·.recBytes / 4)).getD 1) }
    | _ => Uses.none_
  | _ => Uses.none_

/-- Registers beyond those its fields name that a word writes. -/
def extraWrites : Instr → Uses
  | .mov _ _ .toIdx => { Uses.none_ with vecs := List.range 256 }
  | .setnetRaw f | .setnetPerm f => match f.d with | .cls3 i => { Uses.none_ with nets := [i.toNat] } | _ => Uses.none_
  | _ => Uses.none_

/-- R78, R88: what a word reads, its guard included. -/
def Instr.reads (g : Grid) (i : Instr) : Uses :=
  match i with
  | .pairedWord gd _ h1 h2 => ((halfReads h1).or (halfReads h2)).or { Uses.none_ with preds := [gd.p.toNat] }
  | _ =>
    match i.shape with
    | none => Uses.none_
    | some (f, sh) =>
      ((srcUses (srcSpan sh.a) f.a).or ((srcUses (srcSpan sh.b) f.b).or (srcUses (srcSpan sh.c) f.c))).or
        (({ Uses.none_ with preds := [f.g.p.toNat] }).or (extraReads g i))

/-- R78: what a word reads and writes. -/
def Instr.uses (g : Grid) (i : Instr) : Uses :=
  match i with
  | .pairedWord _ _ h1 h2 => (Instr.reads g i).or ((halfUses h1).or (halfUses h2))
  | _ =>
    match i.shape with
    | none => Uses.none_
    | some (f, sh) => (Instr.reads g i).or ((dstUses sh.dst f.d).or (extraWrites i))

/-! ## Pending writes (R78, R79) -/

/-- The vector registers a pending result marks. -/
def Pend.vecMarks (p : Pend) : List Nat :=
  (match p.dst with | .vec i => if p.words = 0 then [] else runOf i.toNat p.words | _ => []) ++
  match p.kind with | .trace b n => runOf b n | _ => []

/-- R78: a pending result that a word must wait for, in the lanes it issues for. -/
def Pend.blocks (p : Pend) (w : Warp) (lanes : Mask) (u : Uses) : Bool :=
  p.vecMarks.any (u.vecs.contains ·) ||
  (match p.dst with
    | .uni i => (runOf i.toNat p.words).any (u.unis.contains ·)
    | .pred k => u.preds.contains k.toNat
    | .cls3 k => u.nets.contains k.toNat
    | _ => false) ||
  u.wins.any fun k => (lanesOf lanes).any fun l =>
    let n := (tget w.winSeq l).getD 0
    match tget p.slots l with
    | none => false
    | some m => k < n && m ≤ n - 1 - k && n - 1 - k < m + p.words

/-- R52: the `WAIT` bits of a word. -/
def waitBits (w : IWord) : BitVec 3 := if w.extractLsb' 89 7 = 0x7F then 0 else w.extractLsb' 21 3

/-- R79: the value of a dependence counter. -/
def Warp.counter (w : Warp) (k : Nat) : Nat := (w.pend.filter (·.ctr == k)).length

/-- R76, R79, R325: the counter a word raises. -/
def Instr.raises : Instr → Option Nat
  | .ld _ _ _ _ _ _ | .ldc _ _ _ | .ldg _ _ _ _ | .ldh _ _ _ | .fil _ _ | .atom _ _ _ _ _ _ | .cas _ _ _ _ _
  | .atomo _ _ _ _ _ | .ldx _ _ _ | .bndp _ | .smplRd _ _ | .trace _ _ _ _ _ | .launch _ | .bkacq _ => some 0
  | .sfu _ _ _ | .vote _ _ _ | .elect _ _ | .perm _ _ | .slide _ _ _ _ _ | .bcast _ _ _ | .setnetRaw _ | .setnetPerm _
  | .redux _ _ _ | .scan _ _ _ _ | .matchK _ _ _ => some 1
  | .mrd _ _ _ | .trhit _ _ | .trqry _ _ => some 2
  | _ => none

/-- R78, R79: the scoreboard and the counters let a word issue for some lanes. -/
def Warp.boardOk (w : Warp) (g : Grid) (lanes : Mask) (word : IWord) (i : Instr) : Bool :=
  let u := Instr.uses g i
  w.pend.all (fun p => !p.blocks w lanes u) &&
  (List.range 3).all (fun k => !(waitBits word).getLsbD k || w.counter k = 0) &&
  match Instr.raises i with | some k => w.counter k < 63 | none => true

/-! ## PC groups (R84) -/

/-- The lanes that may issue or stand at a mask wait; lanes that wait at a barrier or for a `TRACE` are apart. -/
def Warp.standing (w : Warp) : List Nat :=
  (lanesOf w.runnable).filter fun l => match tget w.waits l with | some (.bar _ _) | some (.trace _) => false | _ => true

/-- R84: the PC groups. -/
def Warp.groups (w : Warp) : List Mask :=
  let ls := w.standing
  let pcs := ls.foldl (fun acc l => if acc.contains (cget w.pc l) then acc else acc ++ [cget w.pc l]) []
  pcs.map fun p => maskOf (ls.filter fun l => cget w.pc l == p)

/-- R84: the issue cycle of the warp in which a group last issued. -/
def Warp.lastGroup (w : Warp) (m : Mask) : Nat := ((lanesOf m).map fun l => (tget w.laneIssue l).getD 0).foldl max 0

/-- R84: group `a` ranks before group `b`. -/
def Warp.ranks (w : Warp) (a b : Mask) : Bool :=
  let old := fun (m : Mask) => 64 ≤ w.issues - w.lastGroup m
  let pc := fun (m : Mask) => (cget w.pc (lowest m)).toNat
  if old a != old b then old a
  else if old a && w.lastGroup a != w.lastGroup b then w.lastGroup a < w.lastGroup b
  else if !old a && count a != count b then count b < count a
  else pc a < pc b

def insertBy {α : Type} (lt : α → α → Bool) (x : α) : List α → List α
  | [] => [x]
  | y :: r => if lt x y then x :: y :: r else y :: insertBy lt x r

def sortBy {α : Type} (lt : α → α → Bool) (l : List α) : List α := l.foldl (fun acc x => insertBy lt x acc) []

/-! ## Long-latency dependences (R88) -/

/-- R349: the condition of a `TWAIT` does not hold. -/
def Ctx.tagsUnset (c : Ctx) (all : Bool) (m : W64) : Bool :=
  if all then m &&& c.t.tagClear != 0 else m != 0 && m &&& ~~~c.t.tagClear == 0

/-- R165, R328: the tag of an asynchronous operation that a word issues. -/
def Instr.tag? : Instr → Option (BitVec 6)
  | .cpy _ _ t | .cpyt _ _ _ _ t | .cpyxDie _ _ t | .cpyxPeer _ _ t | .dice _ t | .rast _ _ t | .rslv _ _ t => some t
  | _ => none

/-- R88, R132, R139, R165, R328, R344, R378: the next word of a group waits on a long-latency dependence. -/
def State.longWait (s : State) (c : Ctx) (i : Instr) : Bool :=
  let u := Instr.reads c.g i
  let on := match i.shape with | some (f, _) => c.on f.g | none => c.lanes
  (c.w.pend.any fun p => (p.ctr == 0 || p.ctr == 2) && p.blocks c.w c.lanes u) ||
  (match i.shape with | some (f, _) => !s.stairsReady c f on | none => false) ||
  match i with
  | .twait f all _ => c.tagsUnset all (s.tagMask c f)
  | .join _ | .waitm _ => (lanesOf c.lanes).all fun l => (tget c.w.waits l).isSome
  | .chwait f all =>
    let id := (s.uni c on f.a false) % 2 ^ 24
    c.t.children.any fun k => (all || k % 2 ^ 24 == id) && s.childLive k
  | .bkacq _ => on != 0 && c.t.hall.isNone && !((List.range 8).any fun h => (s.hall (socketOf c.t.core) h).free)
  | .barSync _ lvl _ => (s.barRelease c lvl).isNone
  | .nrec _ n => on != 0 && match tget c.g.nodes n.toNat with
    | some x => x.cond != .discard && 65536 < x.bin.length + count on
    | none => false
  | .probe _ _ => c.w.probe.any (·.pc == c.pc)
  | .smplWr _ _ => on != 0 && match c.t.hall with
    | some h => s.hallBusy c.w.tid h
    | none => false
  | .pubq _ j => s.pubWaits c j.toNat on
  | .nonInstructionEncoding _ _ => c.w.emuBusy && (c.nested c.lanes).isNone
  | .bkpt _ _ => on != 0 && c.w.dbgBusy && c.g.dbgEntry.isSome && (c.nested on).isNone
  | _ => on != 0 && (Instr.tag? i).any fun t => c.t.tagCount t.toNat = 63

/-! ## Readiness (R87) -/

/-- The next word of a group: the word and its instruction. -/
def State.nextWord (s : State) (wid : Nat) (m : Mask) : Option (Ctx × IWord × Instr) :=
  match s.ctxOf wid m with
  | none => none
  | some c =>
    match s.fetch c.t.core c.t.gid c.pc.toNat with
    | none => none
    | some w => some (c, w, s.decodeFor c.g w)

/-- R74, R445: the warp may issue at all: its team runs and its `STALL` count has expired. -/
def State.mayIssue (s : State) (wid : Nat) (w : Warp) : Bool :=
  w.paramsLoaded && (w.stallUntil < s.now || w.issues = 0) && match s.team? (wid / 32) with
    | some t => t.st == .running && (s.core t.core).inService && s.mg.halt = 0
    | none => false

/-- R77, R78: the special-function queue has a place for a word, and no granule of its rows is marked. -/
def State.portOk (s : State) (c : Ctx) (i : Instr) : Bool :=
  (match i with | .sfu _ _ _ => (s.part c.part).sfuRoom | _ => true) &&
  !(s.rowsBusy c i (match i.shape with | some (f, _) => c.on f.g | none => c.lanes))

/-- R78 to R80: the scoreboard admits the next word of a group. -/
def State.groupOk (s : State) (wid : Nat) (w : Warp) (m : Mask) : Option Issue :=
  match s.nextWord wid m with
  | none => none
  | some (c, word, i) => if w.boardOk c.g m word i && s.portOk c i then some ⟨wid, m, word⟩ else none

/-- R84, R87: the groups of a warp whose words the scoreboard admits, in their ranking. -/
def State.groupsOk (s : State) (wid : Nat) (w : Warp) : List Issue :=
  if s.mayIssue wid w then (sortBy w.ranks w.groups).filterMap (s.groupOk wid w) else []

/-- R87: the warp is ready: some group's word is admitted and waits on nothing. -/
def State.warpReady (s : State) (wid : Nat) : Bool :=
  match s.warp? wid with
  | none => false
  | some w => s.mayIssue wid w && w.groups.any fun m =>
    match s.nextWord wid m with
    | none => false
    | some (c, word, i) => w.boardOk c.g m word i && s.portOk c i && !s.longWait c i

/-- R88: the warp is stalled: every group waits on a long-latency dependence. -/
def State.stalled (s : State) (wid : Nat) : Bool :=
  match s.warp? wid with
  | none => false
  | some w => w.paramsLoaded && w.groups.all fun m =>
    match s.nextWord wid m with
    | none => false
    | some (c, _, i) => s.longWait c i

/-! ## The choice of a cycle (R75, R85, R87) -/

/-- R75: the units. -/
inductive ExUnit where
  | ab | a | b | sfu | xl | mem | mx | rn | ctl
  deriving DecidableEq, Repr

def IType.unitOf (t : IType) : ExUnit := if t.is32 then .ab else .b

def FType.unitOf : FType → ExUnit
  | .f32 => .ab
  | _ => .a

/-- R75: the unit of a standard word. -/
def Instr.unit : Instr → ExUnit
  | .iadd _ _ t _ | .isub _ _ t _ | .imin _ _ t | .imax _ _ t | .iabs _ _ t _ | .iset _ _ _ t _ => IType.unitOf t
  | .andB _ _ | .orB _ _ | .xorB _ _ | .andnB _ _ | .notB _ _ | .sel _ _ | .mov _ _ _ | .movi _ _ _ => .ab
  | .fadd _ _ t _ _ | .fsub _ _ t _ _ | .fmul _ _ t _ _ | .ffma _ _ t _ _ | .fmin _ _ t | .fmax _ _ t
  | .fset _ _ _ t _ _ | .frnd _ _ t _ | .fclas _ _ t => FType.unitOf t
  | .hdp2 _ _ _ _ | .fscl _ _ _ => .a
  | .imul _ _ _ | .imulh _ _ _ | .imad _ _ _ _ | .imadw _ _ _ | .shl _ _ | .shr _ _ | .sar _ _ | .rotl _ _
  | .funsh _ _ _ | .bfx _ _ _ | .bfi _ _ | .popc _ _ | .clz _ _ | .ctz _ _ | .brev _ _ | .lea _ _ _ | .add64 _ _
  | .sub64 _ _ | .set64 _ _ _ _ _ | .cvtTo _ _ _ _ | .cvtFrom _ _ _ | .cvtiI2f _ _ _ _ | .cvtiF2i _ _ _ _ _
  | .pack _ _ _ _ | .unpk _ _ _ | .dp2 _ _ | .dp4 _ _ _ | .dp8 _ _ | .pset _ _ | .pmov _ _ => .b
  | .sfu _ _ _ => .sfu
  | .setnetRaw _ | .setnetPerm _ | .perm _ _ | .slide _ _ _ _ _ | .bcast _ _ _ | .vote _ _ _ | .redux _ _ _
  | .scan _ _ _ _ | .matchK _ _ _ | .elect _ _ => .xl
  | .ld _ _ _ _ _ _ | .st _ _ _ _ _ _ | .ldc _ _ _ | .prf _ _ _ | .ldg _ _ _ _ | .stg _ _ _ _ | .ldh _ _ _ | .sth _ _ _
  | .spl _ _ | .fil _ _ | .atom _ _ _ _ _ _ | .cas _ _ _ _ _ | .red _ _ _ _ _ _ | .atomo _ _ _ _ _ | .ldx _ _ _
  | .fence _ _ _ | .fencex _ _ _ _ | .probe _ _ | .cpy _ _ _ | .cpyt _ _ _ _ _ | .cpyxDie _ _ _ | .cpyxPeer _ _ _ => .mem
  | .tdesc _ | .mma _ _ _ _ _ _ | .mzero _ _ | .mlda _ _ _ | .msta _ _ _ _ _ | .mrd _ _ _ | .mwr _ _ | .mlds _ _ _ _ => .mx
  | .bndp _ | .dice _ _ | .rast _ _ _ | .rslv _ _ _ | .smplWr _ _ | .smplRd _ _ | .trace _ _ _ _ _ | .trhit _ _
  | .trqry _ _ => .rn
  | _ => .ctl

/-- R86: the units of which one takes a word each cycle. -/
def ExUnit.port (x : ExUnit) : Bool := x == .mem || x == .mx || x == .rn

/-- R85, R86: two units take a word each in one cycle. -/
def ExUnit.both (x y : ExUnit) : Bool := (x != y || x == .ab) && !(x.port && y.port)

/-- R85: two words issue together (the bank rule of R82 is left out, log 26). -/
def coIssue (a b : Instr) : Bool :=
  let ok := fun (i : Instr) => Instr.unit i != ExUnit.ctl && match i.shape with | some (f, _) => !f.d.isUni | none => false
  ok a && ok b && ExUnit.both (Instr.unit a) (Instr.unit b)

/-- R87: the order in which active warps are given the issue slot. -/
def State.slotBefore (s : State) (a b : Nat) : Bool :=
  match s.warp? a, s.warp? b with
  | some x, some y =>
    if x.lastIssue != y.lastIssue then x.lastIssue < y.lastIssue
    else if x.num != y.num then x.num < y.num else x.tid < y.tid
  | _, _ => false

end Sys2Proof.Machine
end

