-- ==== Sys2Proof/Machine/Sched.lean ====
section
/-! DEFINITION. The sets of a partition and the swaps of registers (R87 to R91). -/

namespace Sys2Proof.Machine

open Sys2Proof

/-- R90, R132: how long a warp that is not active, or waits for a place, has been stalled or ready, and since when its held
`PUBQ`s have waited. DEDUCED, log 50. -/
def State.watchWarp (s : State) (wid : Nat) : State :=
  match s.warp? wid with
  | none => s
  | some w =>
    let since := fun (b : Bool) (t : Option Nat) => if b then t.or (some s.ns) else none
    let pubs := w.groups.filterMap fun m =>
      match s.nextWord wid m with
      | some (c, _, .pubq f j) => if s.pubWaits c j.toNat (c.on f.g) then some c.pc else none
      | _ => none
    s.setWarp wid (pubs.foldl (fun w pc => w.notePub pc s.ns)
      { w with stallSince := since (s.stalled wid) w.stallSince, readySince := since (s.warpReady wid) w.readySince })

/-- R90, R122, R132, R444: the times of the warps of partitions where some are not active, and of the grids that wait for
nothing. -/
def State.watch (s : State) : State :=
  let s := s.parts.foldl (fun s p =>
    if (p.2.pending ++ p.2.nonResident).isEmpty then s
    else (p.2.active ++ p.2.pending ++ p.2.nonResident).foldl State.watchWarp s) s
  { s with grids := s.grids.map fun g => if s.waits g.1 g.2 then g else (g.1, { g.2 with waitSinceNs := s.ns }) }

/-- A warp joins a set of its partition as its newest member (R89, R90). -/
def State.joinSet (s : State) (part wid : Nat) (r : Residence) : State :=
  let s := s.modWarp wid fun w => { w with residence := r, sinceCycle := s.now, sinceNs := s.ns, yielded := false, stallSince := none, readySince := none }
  s.modPart part fun p =>
    let a := p.active.filter (· != wid)
    let b := p.pending.filter (· != wid)
    let c := p.nonResident.filter (· != wid)
    match r with
    | .active => { p with active := a ++ [wid], pending := b, nonResident := c }
    | .pending => { p with active := a, pending := b ++ [wid], nonResident := c }
    | .nonResident => { p with active := a, pending := b, nonResident := c ++ [wid] }
    | _ => { p with active := a, pending := b, nonResident := c }

/-- R89: the oldest ready pending warp. -/
def State.oldestReady (s : State) (part : Nat) : Option Nat := (s.part part).pending.find? s.warpReady

/-- The cycles since a warp joined its set. -/
def State.inSetFor (s : State) (wid : Nat) : Nat := s.now - ((s.warp? wid).map (·.sinceCycle)).getD s.now

/-- R89: of some warps, the one that issued least recently; of two alike the earlier in the list (DESIGN CHOICE, log 80). -/
def State.leastRecent (s : State) (l : List Nat) : Option Nat :=
  l.foldl (fun acc x => match acc with
    | none => some x
    | some y => if ((s.warp? x).map (·.lastIssue)).getD 0 < ((s.warp? y).map (·.lastIssue)).getD 0 then some x
        else some y) none

/-- R89 rule 1. -/
def State.fillMove (s : State) (part : Nat) : Option Nat :=
  let p := s.part part
  if p.active.length < 8 then (s.oldestReady part).or p.pending.head? else none

/-- R89 rule 2: the active warps that may leave. -/
def State.stalledActive (s : State) (part : Nat) : List Nat :=
  if (s.oldestReady part).isSome then (s.part part).active.filter s.stalled else []

/-- R89 rule 3: the warp that leaves and the one that joins. -/
def State.ageMove (s : State) (part : Nat) : Option (Nat × Nat) :=
  match s.oldestReady part with
  | none => none
  | some x => if 2048 ≤ s.inSetFor x then (s.leastRecent (s.part part).active).map fun y => (y, x) else none

/-- R89 rule 4: the warp issued last in its partition, with `YIELD` 1. DEDUCED, log 50. -/
def State.justYielded (s : State) (part wid : Nat) : Bool :=
  match s.warp? wid with
  | none => false
  | some w => w.yielded && (s.part part).active.contains wid &&
      (s.part part).active.all fun k => ((s.warp? k).map (·.lastIssue)).getD 0 ≤ w.lastIssue

/-- R89 rule 4: the warps that may leave. -/
def State.yieldMoves (s : State) (part : Nat) : List Nat :=
  match s.oldestReady part with
  | none => []
  | some x => if 256 ≤ s.inSetFor x then (s.part part).active.filter (s.justYielded part) else []

/-- R89: one warp leaves the active set and another takes its place. -/
def State.exchange (s : State) (part out inn : Nat) : State :=
  (s.joinSet part out .pending).joinSet part inn .active

/-- R89 rule 1. -/
def execActiveSetFill (part : Nat) (s : State) : Out :=
  match s.fillMove part with
  | some x => .next (s.joinSet part x .active)
  | none => .next s

/-- R89 rule 2, where rule 1 does not apply. -/
def execStalledWarpExchange (part wid : Nat) (s : State) : Out :=
  match s.fillMove part, s.oldestReady part with
  | none, some x => .next (if (s.stalledActive part).contains wid then s.exchange part wid x else s)
  | _, _ => .next s

/-- R89 rule 3, where rules 1 and 2 do not apply. -/
def execPendingAgeExchange (part : Nat) (s : State) : Out :=
  match s.fillMove part, s.stalledActive part, s.ageMove part with
  | none, [], some (y, x) => .next (s.exchange part y x)
  | _, _, _ => .next s

/-- R89 rule 4, where rules 1 to 3 do not apply. -/
def execYieldExchange (part wid : Nat) (s : State) : Out :=
  match s.fillMove part, s.stalledActive part, s.ageMove part, s.oldestReady part with
  | none, [], none, some x => .next (if (s.yieldMoves part).contains wid then s.exchange part wid x else s)
  | _, _, _, _ => .next s

/-! ## Swaps (R90) -/

/-- R43, R90: every result that the warp has issued has been written. -/
def State.settled (s : State) (wid : Nat) : Bool :=
  match s.warp? wid with
  | none => true
  | some w => w.pend.isEmpty && !((s.team? (wid / 32)).any fun t => (s.core t.core).mxq.any (·.wid == wid))

/-- R90: the ready non-resident warps of a partition. -/
def State.readyOutside (s : State) (part : Nat) : List Nat := (s.part part).nonResident.filter s.warpReady

/-- The launch record under which a warp runs. -/
def State.recOf (s : State) (wid : Nat) : Option LaunchRec :=
  ((s.team? (wid / 32)).bind fun t => s.grid? t.gid).map (·.rec_)

/-- R17, R90: file space is free for a warp. -/
def State.roomFor (s : State) (part wid : Nat) : Bool :=
  match s.recOf wid with
  | some r => s.fileRoom part r
  | none => false

/-- The partition of a warp. -/
def State.partOfWarp (s : State) (wid : Nat) : Nat :=
  match s.team? (wid / 32) with
  | some t => partOf t.core (wid % 32)
  | none => 0

/-- R90: a pending warp stalled for more than 8 µs while a ready warp has no room. DEDUCED, log 50. -/
def State.maySwapOut (s : State) (wid : Nat) : Bool :=
  let p := s.partOfWarp wid
  match s.warp? wid with
  | none => false
  | some w => w.residence == .pending && s.stalled wid && s.settled wid && w.stallSince.any (· + 8000 < s.ns) &&
      (s.readyOutside p).any fun k => !s.roomFor p k

/-- R43, R90, R185: a warp's context is saved, and the warp is non-resident; the save is a release at `.dev`, and what that must
send first goes out instead. -/
def State.swapOut (s : State) (part wid : Nat) : State :=
  match s.ctxOf wid 0 with
  | none => s
  | some c =>
    match s.barRelease c .die with
    | none => s
    | some (some l) => s.drain c.t.core wid l
    | some none => ((s.saveWarp wid).modWarp wid fun w => { w with contrib := [] }).joinSet part wid .nonResident

/-- R44, R90, R185: a warp's context is restored, which is an acquire at `.dev`, and the warp is pending. A warp that has never
run reads nothing. -/
def State.swapIn (s : State) (part wid : Nat) : State :=
  ((s.loadWarp wid).modCore (((s.team? (wid / 32)).map (·.core)).getD 0) Core.invalidate).joinSet part wid .pending

/-- R90. -/
def execSwapOut (wid : Nat) (s : State) : Out :=
  .next (if s.maySwapOut wid then s.swapOut (s.partOfWarp wid) wid else s)

/-- R90: of some warps, the one that has been ready longest; of two alike the earlier in the list (DESIGN CHOICE, log 80). -/
def State.longestReady (s : State) (l : List Nat) : Option Nat :=
  let at_ := fun (k : Nat) => ((s.warp? k).bind (·.readySince)).getD s.ns
  l.foldl (fun acc x => match acc with
    | none => some x
    | some y => if at_ x < at_ y then some x else some y) none

/-- R90: the ready warp outside that has been ready longest, where there is room for it. DEDUCED, log 50. -/
def State.swapInNext (s : State) (part : Nat) : Option Nat := (s.longestReady (s.readyOutside part)).filter (s.roomFor part)

/-- R90. -/
def execSwapIn (part : Nat) (s : State) : Out :=
  match s.swapInNext part with
  | none => .next s
  | some k => .next (s.swapIn part k)

/-- R90, R91: the file-resident warp that a forced swap-in displaces: of the pending warps the one that issued least recently;
where none is pending, one that has exited and still holds its space, or else an active one (DEDUCED, log 28). -/
def State.displaced (s : State) (part : Nat) : Option Nat :=
  let p := s.part part
  ((s.leastRecent p.pending).or ((s.exitedIn part).head?)).or (s.leastRecent p.active)

/-- R90: a warp outside that has been ready for 8 µs without room, of several the one that has been ready longest
(DESIGN CHOICE, log 80), and the warp it displaces. DEDUCED, log 28. -/
def State.forced (s : State) (part : Nat) : Option (Nat × Nat) :=
  match s.longestReady ((s.readyOutside part).filter fun k =>
      !s.roomFor part k && ((s.warp? k).bind (·.readySince)).any (· + 8000 ≤ s.ns)) with
  | none => none
  | some k =>
    match s.displaced part with
    | none => none
    | some y => if s.settled y then some (k, y) else none

/-- R90: the displaced warp leaves the file; one that has exited has nothing to save. DEDUCED, log 28. -/
def State.displace (s : State) (part wid : Nat) : State :=
  if (s.exitedIn part).contains wid then s.modWarp wid fun w => { w with residence := .none } else s.swapOut part wid

def execForcedSwapIn (part : Nat) (s : State) : Out :=
  match s.forced part with
  | none => .next s
  | some (k, y) =>
    let s := s.displace part y
    .next (if s.roomFor part k then s.swapIn part k else s)

end Sys2Proof.Machine
end

