-- ==== Sys2Proof/Machine/Fault.lean ====
section
/-! DEFINITION. Fault records and their service (R167 to R171, R424, R441 to R443). -/

namespace Sys2Proof.Machine

open Sys2Proof

/-! ## Records (R168, R169) -/

/-- R168: the bytes of a record. -/
def FaultEvt.bytes (e : FaultEvt) (gid seq : Nat) : List Byte :=
  natBytes 8 seq ++ natBytes 8 e.va.toNat ++ natBytes 8 e.pc.toNat ++ bytes4 e.lanes ++ natBytes 4 (gid % 2 ^ 24) ++
  natBytes 1 e.socket ++ natBytes 1 e.core ++ natBytes 1 e.warp ++ natBytes 1 e.engine ++ bytes4 e.teamlin ++
  natBytes 1 e.kind ++ natBytes 1 e.ftype ++ natBytes 1 (e.whole.toNat + 2 * e.async.toNat + 4 * e.emu.toNat) ++
  natBytes 1 e.tag ++ bytes4 e.progress ++ natBytes 8 e.item.toNat ++ natBytes 8 0

/-- R168: the address of the slot of a record. -/
def LaunchRec.faultSlot (r : LaunchRec) (seq : Nat) : Nat := r.faultqBase + 64 * (seq % 2 ^ r.faultqLog2)

/-- R169: the slot of the grid's next record is free, its `SEQ` field being zero. DEDUCED, log 14; DEDUCED, log 52. -/
def State.slotFree (s : State) (g : Grid) : Bool :=
  match s.vpeek g.asid (g.rec_.faultSlot g.nextFaultSeq) 8 with
  | .ok bs => leNat bs == 0
  | .error _ => false

/-- R169, R441: the grid's oldest fault is written into its slot, and the fault interrupt is raised. Bytes of a slot that cannot be
written are dropped, and the record counts as written (DESIGN CHOICE, log 52). -/
def State.writeRecord (s : State) (gid : Nat) : State :=
  match s.grid? gid with
  | none => s
  | some g =>
    match g.faults with
    | [] => s
    | e :: rest =>
      if g.st != .live then s
      else
        let at_ := g.rec_.faultSlot g.nextFaultSeq
        let s := s.recallVa g.asid at_ 64
        if !s.slotFree g then s
        else
          let s := s.vwrite g.asid at_ (e.bytes gid g.nextFaultSeq)
          let r : FaultRec := { seq := g.nextFaultSeq, evt := e, released := false, unresolvable := false, resumed := false }
          let s := s.modGrid gid fun g =>
            { g with faults := rest, records := g.records ++ [r], nextFaultSeq := g.nextFaultSeq + 1 }
          { s with faultInt := true }

def execFaultRecordWrite (grid : Nat) (s : State) : Out := .next (s.writeRecord grid)

/-- R169: the slot of a waiting record is read again. -/
def execFaultSlotRecheck (grid : Nat) (s : State) : Out :=
  match s.grid? grid with
  | none => .next s
  | some g => .next (if g.faults.isEmpty then s else s.writeRecord grid)

/-- R441: some fault queue holds a slot whose `SEQ` is not zero. -/
def State.faultSlotsFull (s : State) : Bool :=
  s.grids.any fun g => (g.2.st == .live || !g.2.records.isEmpty) && (List.range (2 ^ g.2.rec_.faultqLog2)).any fun i =>
    match s.vpeek g.2.asid (g.2.rec_.faultSlot i) 8 with
    | .ok bs => leNat bs != 0
    | .error _ => false

/-- R441: the fault interrupt is pending while a slot is; whatever zeroes a slot ends it. -/
def State.settleFaultInt (s : State) : State := { s with faultInt := s.faultInt && s.faultSlotsFull }

/-! ## Resumption (R170, R171, R442, R443) -/

/-- R170: every record of the grid with a lower `SEQ` has resumed or been declared unresolvable. -/
def Grid.turn (g : Grid) (seq : Nat) : Bool := g.records.all fun r => seq ≤ r.seq || r.resumed || r.unresolvable

def Grid.modRecord (g : Grid) (seq : Nat) (f : FaultRec → FaultRec) : Grid :=
  { g with records := g.records.map fun r => if r.seq == seq then f r else r }

/-- R185: the release of a record by fault service is acquired at `.sys` by the core of the warp that executes again. -/
def State.acquireFor (s : State) (wid : Nat) : State :=
  match s.team? (wid / 32) with
  | some t => s.modCore t.core Core.invalidate
  | none => s

/-- R170, R185, R442: the parked work of a record goes on. -/
def State.resumeWork (s : State) (gid : Nat) (p : Parked) : State :=
  match p with
  | .lanes wid m =>
    match s.warp? wid with
    | none => s
    | some w =>
      if w.residence == .active || w.residence == .pending then (s.unpark wid m).acquireFor wid else s.markReady wid m
  | .op id => s.modOp id fun o => { o with suspended := false }
  | .req core id =>
    s.modCore core fun k => { k with inflight := k.inflight.map fun r => if r.id == id then { r with returned := false } else r }
  | .pend wid seq =>
    (s.acquireFor wid).modWarp wid fun w => { w with pend := w.pend.map fun p => if p.seq == seq then { p with returned := false } else p }
  | .predicate n =>
    s.modGrid gid fun g => { g with nodes := tmod g.nodes n fun x => { x with cond := .waiting } }

/-- R170, R443: a record whose turn has come resumes its work, or ends its grid; the end waits where its report cannot be held
(R423). -/
def State.settleRecord (s : State) (gid seq : Nat) : State :=
  match s.grid? gid with
  | none => s
  | some g =>
    match g.records.find? (·.seq == seq) with
    | none => s
    | some r =>
      if g.st != .live || r.resumed || !g.turn seq then s
      else if r.evt.ftype = 5 || r.unresolvable then (if s.canReport then s.terminateGrid gid .termFault (w64 seq) else s)
      else if r.released then (s.modGrid gid fun g => g.modRecord seq fun r => { r with resumed := true }).resumeWork gid r.evt.who
      else s

def execRecordResume (grid seq : Nat) (s : State) : Out := .next (s.settleRecord grid seq)

end Sys2Proof.Machine
end

