-- ==== Sys2Proof/Machine/Preempt.lean ====
section
/-! DEFINITION. Pre-emption: the request, aborts, saves and restores (R40, R43 to R45, R120, R128, R226, R444 to R449). -/

namespace Sys2Proof.Machine

open Sys2Proof

/-! ## Aborts (R128, R226) -/

/-- R128, R357: a replay-active team is aborted: its buffer, registers, gallery and rows are discarded, its bucket, and those
that waited for its commit, return as unstarted to the die where it ran, and the team is placed again. DEDUCED, log 45. -/
def State.abortTeam (s : State) (tid : Nat) : State :=
  match s.team? tid with
  | none => s
  | some t =>
    let s := s.dropTeam tid
    s.modGrid t.gid fun g =>
      { g with
        again := (t.lin, t.kind, t.recs) :: g.again
        waitSinceNs := if s.waits t.gid g then g.waitSinceNs else s.ns
        frame := g.frame.map fun f => (t.bucketsPending ++ t.bucket.toList).foldl (fun f b => f.giveBack (socketOf t.core) b) f }

/-! ## Restores (R446) -/

/-- R446: the die barriers of a die group that moves keep their state. -/
def State.moveBars (s : State) (gid old new : Nat) : State :=
  let key := fun (grp : Nat) => gid * 2 ^ 40 + grp
  { s with bars := s.bars.map fun b => if b.lvl == .die && b.owner == key old then { b with owner := key new } else b }

/-- R44, R185, R446: a saved team takes its place on a core, with every section loaded; a restore is no start (R149). -/
def State.restoreTeam (s : State) (gid : Nat) (g : Grid) (tid core : Nat) : State :=
  match s.team? tid with
  | none => s
  | some t =>
    let idx := g.restoredIdx t (socketOf core)
    let s := if g.rec_.barDie = 0 then s else s.moveBars gid t.group (groupOf idx (socketOf core))
    let s := (s.setTeam tid { t with core := core, st := .running, dieIdx := idx, placedNs := s.ns }).loadTeam tid
    let s := s.modCore core Core.invalidate
    (t.wids tid).foldl (fun s wid =>
      match s.warp? wid with
      | none => s
      | some w =>
        if w.alive = 0 then s.setWarp wid { w with residence := .exited }
        else (s.seatWarp core wid w.num g.rec_ { w with sinceCycle := s.now, sinceNs := s.ns }).loadWarp wid) s

/-- R118: the aborted teams of the clusters of a restored unit, placed beside it. -/
def State.besidePlans (s : State) (g : Grid) (l : List (Nat × Nat)) : List Plan :=
  l.flatMap fun x =>
    match s.team? x.1 with
    | none => []
    | some t =>
      if t.kind != .root then []
      else
        (g.again.filter fun a => a.2.1 == .root && (g.rec_.unitOf a.1).1 == t.clu).map fun a =>
          ⟨socketOf x.2, t.dieIdx, [(t.clu, (x.2 % 32 + 24 - t.rank % 24) % 24, [(a.1, (g.rec_.unitOf a.1).2, true)])]⟩

/-- R118, R446: the teams of a saved unit take their places, and the aborted teams of their clusters beside them. -/
def State.restoreUnit (s : State) (gid : Nat) (g : Grid) (l : List (Nat × Nat)) : State :=
  let s := l.foldl (fun s x => s.restoreTeam gid g x.1 x.2) s
  let ps := (s.besidePlans g l).foldl (fun ps p => if ps.contains p then ps else ps ++ [p]) []
  let s := ps.foldl (fun s p => s.runPlan gid g p) s
  (s.modGrid gid fun g =>
    { g with restore := g.restore.filter fun x => !l.any (·.1 == x)
             again := ps.foldl (fun a p => p.left a) g.again, waitSinceNs := s.ns, held := false }).unreserve gid

/-- R446: the next saved unit of a grid is restored; which of the eligible cores takes it is free. -/
def execTeamRestore (tid : Nat) (s : State) : Out :=
  match (s.team? tid).bind fun t => (s.grid? t.gid).map fun g => (t.gid, g) with
  | none => .next s
  | some (gid, g) =>
    if g.st != .live || g.restore.head? != some tid || !s.turnOf gid then .next s
    else
      match s.pick (s.restorePlans gid g) with
      | (none, _) => .next s
      | (some l, s) => .next (s.restoreUnit gid g l)

/-! ## The request (R444, R445) -/

/-- The state as it would be without some teams on their cores. -/
def State.without (s : State) (tids : List Nat) : State :=
  { s with teams := s.teams.map fun t => if tids.contains t.1 then (t.1, { t.2 with st := .saved }) else t }

/-- The next unit of a grid fits on a die. -/
def State.fitsOn (s : State) (gid : Nat) (g : Grid) (sock : Nat) : Bool :=
  (s.places gid g).any (fun p => match p with
    | .again p | .seq _ p => p.sock == sock
    | .againNode c => socketOf c == sock) ||
  (!g.restore.isEmpty && (s.restorePlans gid g).any fun l => l.any fun x => socketOf x.2 == sock) ||
  (s.dueNodes gid g).any fun n => (s.singleCores gid g n.2.threads 0).any fun c => socketOf c == sock

/-- R444: the units on a die that a grid may displace, in the order in which they are chosen. DEDUCED, log 51. -/
def State.victims (s : State) (g : Grid) (sock : Nat) : List (List (Nat × Team)) :=
  let prio := fun (t : Team) => ((s.grid? t.gid).map (·.prio)).getD 8
  let cand := s.teams.filter fun t => t.2.st == .running && socketOf t.2.core == sock && prio t.2 < g.prio
  let units := cand.foldl (fun (l : List (List (Nat × Team))) t =>
    if l.any fun u => u.any (·.1 == t.1) then l else l ++ [s.unitOfTeam t.1 t.2]) []
  let key := fun (u : List (Nat × Team)) =>
    ((u.head?.map fun t => prio t.2).getD 8, (u.map (·.2.placedNs)).foldl max 0, (u.map (·.1)).foldl max 0)
  sortBy (fun a b =>
    let (pa, na, ta) := key a
    let (pb, nb, tb) := key b
    pa < pb || (pa == pb && (nb < na || (nb == na && tb < ta)))) units

/-- R444: the fewest victims, in their order, without which the waiting unit fits. -/
def State.enoughVictims (s : State) (gid : Nat) (g : Grid) (sock : Nat) :
    List (List (Nat × Team)) → List Nat → Option (List Nat)
  | [], out => if (s.without out).fitsOn gid g sock then some out else none
  | u :: rest, out =>
    if (s.without out).fitsOn gid g sock then some out
    else s.enoughVictims gid g sock rest (out ++ u.map (·.1))

/-- R444: for each die where removing units of lower priority makes room, the victims. DEDUCED, log 51. -/
def State.preemptions (s : State) (gid : Nat) (g : Grid) : List (List Nat) :=
  let s := s.without ((s.teams.filter fun t => t.2.st == .halting).map (·.1))
  if !s.waits gid g || s.ns < g.waitSinceNs + 100000 || g.mask.any (s.fitsOn gid g) then []
  else g.mask.filterMap fun d => (s.enoughVictims gid g d (s.victims g d) []).bind fun l => if l.isEmpty then none else some l

/-- R445: a team is halted, or aborted while it is replay-active. DEDUCED, log 51. -/
def State.haltTeam (s : State) (tid : Nat) : State :=
  match s.team? tid with
  | none => s
  | some t =>
    if t.st != .running then s
    else if t.active then s.abortTeam tid
    else s.setTeam tid { t with st := .halting }

def execPreemptRequest (grid : Nat) (s : State) : Out :=
  match s.grid? grid with
  | none => .next s
  | some g =>
    if g.st != .live then .next s
    else
      match s.pick (s.preemptions grid g) with
      | (none, _) => .next s
      | (some l, s) => .next (l.foldl State.haltTeam s)

/-! ## The save (R43, R445) -/

/-- R445: a team's issued results are written and its operations that are not suspended are complete. -/
def State.teamDrained (s : State) (tid : Nat) (t : Team) : Bool :=
  (t.wids tid).all s.settled && !(s.ops.any fun o => o.tid == tid && !o.suspended)

/-- R155, R185: the update-only lines to which the team's warps contributed are drained, for the release of its save. -/
def State.drainTeam (s : State) (tid : Nat) (t : Team) : State :=
  (t.wids tid).foldl (fun s wid =>
    match s.warp? wid with
    | none => s
    | some w => if w.sq.isEmpty && w.unack < 32 then
        w.contrib.foldl (fun s l => if (s.core t.core).isUpd l then s.drain t.core wid l else s) s else s) s

/-- R445 to R449: a team's contexts are written, and it leaves its core. -/
def State.saveOut (s : State) (tid : Nat) (t : Team) : State :=
  let s := (t.wids tid).foldl (fun s wid => s.saveWarp wid) s
  let s := s.saveTeam tid
  let s := (t.wids tid).foldl (fun s wid =>
    (s.modWarp wid fun w => { w with residence := .none, contrib := [] }).leavePart t.core wid (wid % 32)) s
  s.modTeam tid fun t => { t with st := .saved }

/-- R120, R445: saved teams wait at the head of their grid's dispatch order, by linear index in an ordered grid. -/
def State.queueRestore (s : State) (gid : Nat) (tids : List Nat) : State :=
  s.modGrid gid fun g =>
    let l := tids ++ g.restore
    let lin := fun (x : Nat) => ((s.team? x).map (·.lin)).getD 0
    { g with restore := if g.rec_.ordered then sortBy (fun a b => lin a < lin b) l else l
             waitSinceNs := if s.waits gid g then g.waitSinceNs else s.ns }

def execPreemptSave (tid : Nat) (s : State) : Out :=
  match s.team? tid with
  | none => .next s
  | some t =>
    let us := s.unitOfTeam tid t
    let hs := us.filter fun x => x.2.st == .halting
    if t.st != .halting || !(hs.all fun x => s.teamDrained x.1 x.2) then .next s
    else if !(hs.all fun x => s.teamAcked x.1 x.2) then .next (hs.foldl (fun s x => s.drainTeam x.1 x.2) s)
    else .next ((hs.foldl (fun s x => s.saveOut x.1 x.2) s).queueRestore t.gid (hs.map (·.1)))

end Sys2Proof.Machine
end

