-- ==== Sys2Proof/Machine/Queues.lean ====
section
/-! DEFINITION. User queues, their packets and stops, and the handler queues (R222, R224, R411 to R423). A descriptor's
address is physical; `RING_BASE` and the addresses in packets are virtual (DEDUCED, log 14). -/

namespace Sys2Proof.Machine

open Sys2Proof

/-! ## Descriptors (R411, R412) -/

/-- R411: `READ_IDX` of a queue. DEDUCED, log 14. -/
def State.readIdx (s : State) (q : Queue) : Nat := s.peekN (q.desc + 28) 4

/-- R411: the virtual address of the slot of an index. -/
def Queue.slot (q : Queue) (i : Nat) : Nat := q.ring + 64 * (i % 2 ^ q.log2)

/-! ## Packets (R415, R416) -/

/-- R415. -/
structure Packet where
  at_ : Nat
  idx : Nat
  ptype : Nat
  barrier : Bool
  notify : Bool
  id : W32
  addr1 : Nat
  addr2 : Nat
  addr3 : Nat
  value : W64
  /-- a bit that is reserved in every packet is set -/
  bad : Bool
  deriving DecidableEq, Repr

def parsePacket (bs : List Byte) (at_ idx : Nat) : Packet where
  at_ := at_
  idx := idx
  ptype := field bs 0 1
  barrier := field bs 1 1 % 2 == 1
  notify := field bs 1 1 / 2 % 2 == 1
  id := BitVec.ofNat 32 (field bs 4 4)
  addr1 := field bs 8 8
  addr2 := field bs 16 8
  addr3 := field bs 24 8
  value := w64 (field bs 32 8)
  bad := field bs 1 1 / 4 != 0 || field bs 2 2 != 0 || (bs.drop 40).any (· != 0)

/-- R416: the target of a `FRAME` that is held for the next `LAUNCH`. -/
def frameNext : Nat := 0x8000000000000000

/-- R416, R418: a reserved field or bit is not zero. -/
def Packet.reserved (p : Packet) : Bool :=
  p.bad || match p.ptype with
    | 1 => p.addr3 != 0 || p.value != 0
    | 2 => p.addr2 != frameNext && p.addr2 / 2 ^ 24 != 0
    | 3 => p.addr2 != 0 || p.addr3 != 0
    | _ => p.addr1 != 0 || p.addr2 != 0 || p.addr3 != 0 || p.value != 0

/-- R416, R418: the address that breaks its alignment, as a report shows it. DEDUCED, log 16. -/
def Packet.misaligned (p : Packet) : Option Nat :=
  match p.ptype with
  | 1 => if p.addr1 % 256 != 0 then some p.addr1 else if p.addr2 % 4 != 0 then some p.addr2 else none
  | 2 => if p.addr1 % 64 != 0 then some p.addr1 else if p.addr3 % 8 != 0 then some p.addr3 else none
  | 3 => if p.addr1 % 8 != 0 then some p.addr1 else none
  | _ => none

/-- R414, R418: what stands at the head of a running queue. -/
inductive Head where
  | idle
  | bad (i : Nat) (d0 : Nat) (id : W32) (idx : Nat)
  | packet (p : Packet)
  deriving DecidableEq, Repr

/-- R414: the slot at `READ_IDX`; the header decides whether there is a packet. DEDUCED, log 14. -/
def State.head (s : State) (q : Queue) : Head :=
  let i := s.readIdx q
  let at_ := q.slot i
  if q.st != .running || q.kind != 0 || s.mg.halt != 0 then .idle
  else
    match s.vpeek q.asid at_ 8 with
    | .error _ => .bad 3 at_ 0 i
    | .ok hd =>
      let ty := field hd 0 1
      if ty = 0 && !q.resumed then .idle
      else if ty = 0 || 4 < ty then .bad 0 at_ (BitVec.ofNat 32 (field hd 4 4)) i
      else
        match s.vpeek q.asid at_ 64 with
        | .error _ => .bad 3 at_ (BitVec.ofNat 32 (field hd 4 4)) i
        | .ok bs => .packet (parsePacket bs at_ i)

/-- R416: every grid launched from the queue's earlier packets, and every earlier frame, is done with. DEDUCED, log 48. -/
def State.earlierDone (s : State) (q : Queue) : Bool :=
  let live := fun (k : Nat) => match s.grid? k with | some g => g.st == .live | none => false
  q.grids.all (fun k => !live k) && q.frameGrids.all fun k => !live k

/-! ## Stops (R418) -/

/-- R420: a report of a queue. DEDUCED, log 16. -/
def queueEvent (q : Queue) (qid : Nat) (c : Cause) (id : W32) (idx d0 : Nat) : HEvent where
  hq := q.handlerQ
  cause := c.code
  pktId := id
  qid := BitVec.ofNat 32 qid
  pktIdx := BitVec.ofNat 32 idx
  grid := 0
  teamlin := 0
  socket := 0
  core := 0
  warp := 0
  lanes := 0
  pc := 0
  d0 := w64 d0
  d1 := 0

/-- R418, R419: the descriptor of a queue that stops. -/
def State.writeStop (s : State) (q : Queue) (idx code : Nat) : State :=
  ((s.pwrite (q.desc + 44) (natBytes 4 idx)).pwrite (q.desc + 42) (natBytes 2 code)).pwrite (q.desc + 40) (natBytes 1 1)

/-- R418, R423: the queue stops at its packet, with a report; it waits where no further event can be held. -/
def State.stopQueue (s : State) (qid : Nat) (q : Queue) (c : Cause) (id : W32) (idx d0 : Nat) : State :=
  if !s.canReport then s
  else ((s.writeStop q idx c.code).modQueue qid fun q => { q with st := .stopped, stopReq := false }).report (queueEvent q qid c id idx d0)

/-- R418: the stop for what the device finds at the head of a queue without processing it. DEDUCED, log 16. -/
def State.stopHead (s : State) (qid : Nat) (q : Queue) : State :=
  match s.head q with
  | .idle => s
  | .bad i d0 id idx => s.stopQueue qid q (.qe i) id idx d0
  | .packet p =>
    if p.barrier && !s.earlierDone q then s
    else if p.reserved then s.stopQueue qid q (.qe 1) p.id p.idx p.at_
    else
      match p.misaligned with
      | some a => s.stopQueue qid q (.qe 2) p.id p.idx a
      | none => s

/-- The device reads the header of a queue's next slot (R414): bytes that are held as update-only lines are recalled. -/
def State.readHead (s : State) (qid : Nat) : State :=
  match s.queue? qid with
  | none => s
  | some q =>
    if q.st != .running || q.kind != 0 then s
    else
      let s := (s.recall none (q.desc / 128)).recallVa q.asid (q.slot (s.readIdx q)) 64
      s.stopHead qid q

/-- R413, R414: a doorbell prompts a read of the next header; its value has no effect. -/
def execDoorbellWrite (qid : Nat) (_val : W32) (s : State) : Out := .next (s.readHead qid)

/-- R414: the header is read again at least every 50 µs. -/
def execQueuePoll (qid : Nat) (s : State) : Out := .next (s.readHead qid)

/-! ## Intake (R414, R416, R417) -/

/-- R419: `QSTOP` stops a queue at an index. -/
def State.hostStop (s : State) (qid : Nat) (q : Queue) (idx : Nat) : State :=
  (s.writeStop q idx (Cause.qe 6).code).modQueue qid fun q => { q with st := .stopped, stopReq := false }

/-- R414: a packet is complete for intake: its header is zeroed and `READ_IDX` advances; a `QSTOP` that waited for it takes
effect (R419). DEDUCED, log 17. -/
def State.takePacket (s : State) (qid : Nat) (q : Queue) (p : Packet) : State :=
  let s := ((s.vwrite q.asid p.at_ (natBytes 8 0)).pwrite (q.desc + 28) (natBytes 4 (p.idx + 1))).modQueue qid fun q =>
    { q with resumed := false }
  if q.stopReq then s.hostStop qid q (p.idx + 1) else s

/-- R416, R419: the packet at the head has been started and waits: a `SIGNAL` for earlier grids and frames, a `FRAME` for the
frame of its grid before it. DEDUCED, log 17. -/
def State.inProgress (s : State) (q : Queue) : Bool :=
  match s.head q with
  | .packet p =>
    !p.reserved && p.misaligned.isNone && (!p.barrier || s.earlierDone q) &&
      (if p.ptype = 3 then !s.earlierDone q
       else p.ptype == 2 && p.addr2 != frameNext && match s.grid? p.addr2 with
         | some g => g.st == .live && g.asid == q.asid && (g.frame.isSome || !g.frames.isEmpty)
         | none => false)
  | _ => false

/-- The packet of a type at the head of a queue that may be processed now. -/
def State.packetOf (s : State) (qid ty : Nat) : Option (Queue × Packet) :=
  match s.queue? qid with
  | none => none
  | some q =>
    match s.head q with
    | .packet p => if p.ptype = ty && (!p.barrier || s.earlierDone q) then some (q, p) else none
    | _ => none

/-- R418: the packet's own checks pass. -/
def Packet.fine (p : Packet) : Bool := !p.reserved && p.misaligned.isNone

/-- R416: `LAUNCH`. -/
def execLaunchPacket (qid : Nat) (s : State) : Out :=
  match s.packetOf qid 1 with
  | none => .next s
  | some (q, p) =>
    if !p.fine then .next (s.stopHead qid q)
    else
      match s.submit q.asid p.addr1 none with
      | (.fault _ _, s) => .next (s.stopQueue qid q (.qe 3) p.id p.idx p.addr1)
      | (.rejected i, s') =>
        if !s.canReport then .next s
        else .next ((s'.stopQueue qid q (.lr i) p.id p.idx p.addr1).modQueue qid fun q => { q with heldFrames := [] })
      | (.ok r ns mask, s) =>
        let (gid, s) := s.accept r ns mask
          { asid := q.asid, qid := qid, handlerQ := q.handlerQ, pktId := p.id, pktIdx := BitVec.ofNat 32 p.idx,
            notify := p.notify, prioMax := q.prioMax, depth := 0, parentGid := none, parentTid := none,
            frames := q.heldFrames }
        let s := if p.addr2 = 0 then s else s.vwrite q.asid p.addr2 (natBytes 4 (gid % 2 ^ 24))
        .next ((s.takePacket qid q p).modQueue qid fun q =>
          { q with grids := q.grids ++ [gid], frameGrids := q.frameGrids ++ List.replicate q.heldFrames.length gid,
                   heldFrames := [] })

/-- R222: a frame descriptor. -/
def parseFrame (bs : List Byte) (qid : Nat) (q : Queue) (p : Packet) : Frame where
  width := field bs 0 2
  height := field bs 2 2
  spp := field bs 4 1
  deep := field bs 5 1
  fp32 := field bs 6 1 == 1
  lensA := BitVec.ofNat 32 (field bs 8 4)
  lensB := BitVec.ofNat 32 (field bs 12 4)
  znear := BitVec.ofNat 32 (field bs 16 4)
  rate := BitVec.ofNat 32 (field bs 20 4)
  listTable := field bs 24 8
  imageBase := field bs 32 8
  pitch := field bs 40 4
  ovBytes := field bs 44 4
  ovBase := field bs 48 8
  disp := []
  held := []
  doneCount := 0
  lost := []
  qid := qid
  hq := q.handlerQ
  pktId := p.id
  pktIdx := BitVec.ofNat 32 p.idx
  doneAddr := p.addr3
  doneValue := p.value
  notify := p.notify

/-- R222: the descriptor breaks a rule. -/
def frameBad (bs : List Byte) (f : Frame) : Bool :=
  let fin := fun (x : W32) => (f32 x).isFin
  f.width = 0 || 16384 < f.width || f.height = 0 || 16384 < f.height || f.spp = 0 || 64 < f.spp || f.deep = 0 || 8 < f.deep ||
  1 < field bs 6 1 || field bs 7 1 != 0 || !fin f.lensA || !fin f.lensB || !fin f.znear || !(f.znear.toInt > 0) ||
  !fin f.rate || !(Q.ofInt 1).le ((f32 f.rate).val.mul (Q.ofInt 4)) || !((f32 f.rate).val.le (Q.ofInt 16)) ||
  f.imageBase % 16 != 0 || f.pitch % 16 != 0 || f.ovBytes % 512 != 0 || f.ovBase % 512 != 0 || (bs.drop 56).any (· != 0)

/-- R416: `FRAME`; it waits while the render core is held (R461). DEDUCED, log 84. -/
def execFramePacket (qid : Nat) (s : State) : Out :=
  match s.packetOf qid 2 with
  | none => .next s
  | some (q, p) =>
    if !p.fine then .next (s.stopHead qid q)
    else if s.trust.held.contains 4 then .next s
    else
      match s.vread q.asid p.addr1 64 with
      | (.error _, s) => .next (s.stopQueue qid q (.qe 3) p.id p.idx p.addr1)
      | (.ok bs, s) =>
        let f := parseFrame bs qid q p
        if frameBad bs f then .next (s.stopQueue qid q (.qe 4) p.id p.idx p.addr1)
        else if p.addr2 = frameNext then
          .next ((s.takePacket qid q p).modQueue qid fun q => { q with heldFrames := q.heldFrames ++ [f] })
        else
          match s.grid? p.addr2 with
          | none => .next (s.stopQueue qid q (.qe 5) p.id p.idx p.at_)
          | some g =>
            if g.st != .live || g.asid != q.asid then .next (s.stopQueue qid q (.qe 5) p.id p.idx p.at_)
            else if g.frame.isSome || !g.frames.isEmpty then .next s
            else
              let s := s.modGrid p.addr2 fun g => { g with frame := some (f.opened g.mask) }
              .next ((s.takePacket qid q p).modQueue qid fun q => { q with frameGrids := q.frameGrids ++ [p.addr2] })

/-- R416: `SIGNAL`. DEDUCED, log 48. -/
def execSignalPacket (qid : Nat) (s : State) : Out :=
  match s.packetOf qid 3 with
  | none => .next s
  | some (q, p) =>
    if !p.fine then .next (s.stopHead qid q)
    else if !s.earlierDone q then .next s
    else
      let s := if p.addr1 = 0 then s else s.vwrite q.asid p.addr1 (natBytes 8 p.value.toNat)
      .next (s.takePacket qid q p)

/-- R416: `NOP`. -/
def execNopPacket (qid : Nat) (s : State) : Out :=
  match s.packetOf qid 4 with
  | none => .next s
  | some (q, p) => .next (if p.fine then s.takePacket qid q p else s.stopHead qid q)

/-! ## Handler packets (R420, R423) -/

/-- R420: the bytes of a handler packet. -/
def HEvent.bytes (e : HEvent) (hseq : Nat) : List Byte :=
  natBytes 1 6 ++ natBytes 1 0 ++ natBytes 2 e.cause ++ bytes4 e.pktId ++ bytes4 e.qid ++ bytes4 e.pktIdx ++
  natBytes 4 (e.grid.toNat % 2 ^ 24) ++ bytes4 e.teamlin ++ natBytes 1 e.socket ++ natBytes 1 e.core ++ natBytes 1 e.warp ++
  natBytes 1 0 ++ bytes4 e.lanes ++ natBytes 8 e.pc.toNat ++ natBytes 8 e.d0.toNat ++ natBytes 8 e.d1.toNat ++
  natBytes 4 hseq ++ natBytes 4 0

/-- R420: the next slot of a handler queue is free. DEDUCED, log 53. -/
def State.handlerFree (s : State) (q : Queue) : Bool :=
  match s.vpeek q.asid (q.slot (s.peekN (q.desc + 24) 4)) 1 with
  | .ok bs => leNat bs == 0
  | .error _ => false

/-- R423: `PENDING`: the events held because the ring is full. DEDUCED, log 53. -/
def State.settlePending (s : State) (qid : Nat) (q : Queue) : State :=
  let n := if s.handlerFree q then 0 else ((s.hevents.take 4096).filter (·.hq == qid)).length
  if s.peekN (q.desc + 48) 4 = n then s else s.pwrite (q.desc + 48) (natBytes 4 n)

/-- R420: the oldest event of a handler queue is written when the next slot is free; what waited for room among the held events
goes on (R423). DEDUCED, log 53. -/
def State.writeEvent (s : State) (qid : Nat) (q : Queue) (e : HEvent) : State :=
  let w := s.peekN (q.desc + 24) 4
  let s := s.recallVa q.asid (q.slot w) 64
  if !s.handlerFree q then s.settlePending qid q
  else
    let s := (s.vwrite q.asid (q.slot w) (e.bytes (q.hseq + 1))).pwrite (q.desc + 24) (natBytes 4 (w + 1))
    let s := { s with hevents := s.hevents.erase e }
    let s := ((s.modQueue qid fun q => { q with hseq := q.hseq + 1 }).settlePending qid q).settleFrames
    if e.cause < 0x40 then s.checkStopped e.grid.toNat else s

/-- The first event that waits for a handler queue. -/
def State.heldEvent (s : State) (qid : Nat) : Option (Queue × HEvent) :=
  match s.queue? qid with
  | none => none
  | some q => (s.hevents.find? (·.hq == qid)).map fun e => (q, e)

def execHandlerPacketWrite (qid : Nat) (s : State) : Out :=
  match s.heldEvent qid with
  | none => .next s
  | some (q, e) => .next (s.writeEvent qid q e)

/-- R420: the slot for a waiting event is read again at least every 50 µs. -/
def execHandlerSlotRecheck (qid : Nat) (s : State) : Out :=
  match s.heldEvent qid with
  | none => .next s
  | some (q, e) => .next (if s.handlerFree q then s.writeEvent qid q e else s)

end Sys2Proof.Machine
end

