-- ==== Sys2Proof/Machine/Commands.lean ====
section
/-! DEFINITION. The command mailbox, its commands and the management window (R419, R427 to R429, R439, R440, R443, R458,
R459, R464, R466, R467, R471, R474, R475). -/

namespace Sys2Proof.Machine

open Sys2Proof

/-! ## Messages (R427, R466) -/

/-- Bytes `off` to `off + n - 1` of a message, from byte 8 on. -/
def argN (m : Msg) (off n : Nat) : Nat := m.arg.toNat / 2 ^ (8 * (off - 8)) % 2 ^ (8 * n)

/-- R427: a message from its 32 bytes. -/
def msgOf (x : BitVec 256) : Msg :=
  let b := fun (i : Nat) => x.extractLsb' (8 * i) 8
  { opc := b 0, src := b 1, dst := b 2, zero3 := b 3, mseq := x.extractLsb' 32 32, arg := x.extractLsb' 64 192 }

def msgBits (m : Msg) : BitVec 256 := m.arg ++ (m.mseq ++ (m.zero3 ++ (m.dst ++ (m.src ++ m.opc))))

/-- R427, R428, R464, R474: the owner of a command. -/
def owner : Nat → Option Nat
  | 0x01 | 0x02 | 0x03 | 0x04 => some 0
  | 0x10 => some 1
  | 0x20 => some 2
  | 0x30 | 0x31 => some 7
  | 0x40 | 0x50 | 0x51 | 0x52 | 0x53 => some 6
  | _ => none

/-- R427: the statuses of a response. -/
inductive Status where
  | ok | badArg | noObject | busy | denied
  deriving DecidableEq, Repr

def Status.code : Status → Nat
  | .ok => 0
  | .badArg => 1
  | .noObject => 2
  | .busy => 3
  | .denied => 4

/-- R427: a response; `result` stands from byte 12 on. -/
def answerOf (m : Msg) (own : Nat) (st : Status) (result : Nat) : Msg :=
  { opc := m.opc ||| 0x80, src := BitVec.ofNat 8 own, dst := 8, zero3 := 0, mseq := m.mseq,
    arg := BitVec.ofNat 192 (Status.code st + 2 ^ 32 * result) }

/-- R427, R466, R467: the response is queued. -/
def State.respond (s : State) (m : Msg) (own : Nat) (st : Status) (result : Nat) : State :=
  { s with rspQ := s.rspQ ++ [answerOf m own st result], mg := { s.mg with int_ := s.mg.int_ ||| 4 } }

/-- R427: the inbound FIFO of a Summit core. -/
def State.fifo (s : State) (k : Nat) : List Msg := (tget s.mailbox k).getD []

/-- A command that its owner may carry out: for core 0 the next of the mailbox, otherwise the first command of the owner's
FIFO; there is room for its response, and the owner is not held (R461). DEDUCED, log 84. -/
def State.commandReady (s : State) (m : Msg) (opc own : Nat) : Bool :=
  m.opc.toNat == opc && s.rspQ.length < 64 && !s.trust.held.contains own &&
    if own = 0 then s.cmdQ.head? == some m else (s.fifo own).find? (fun x => x.src == 8) == some m

/-- The command has been taken. -/
def State.takeCommand (s : State) (m : Msg) (own : Nat) : State :=
  if own = 0 then { s with cmdQ := s.cmdQ.tail } else { s with mailbox := tset s.mailbox own ((s.fifo own).erase m) }

/-- A command that is refused or done at once: `f` gives the new state with the status and the result. -/
def State.command (s : State) (m : Msg) (opc own : Nat) (f : State → State × Status × Nat) : Out :=
  if s.commandReady m opc own then
    let r := f (s.takeCommand m own)
    .next (r.1.respond m own r.2.1 r.2.2)
  else .next s

/-- A command that is refused without an effect. -/
def refuse (s : State) (st : Status) : State × Status × Nat := (s, st, 0)

/-! ## Queues (R412, R419, R428) -/

/-- R412: an address of a descriptor in memory. DESIGN CHOICE, log 54. -/
def State.descOk (s : State) (a : Nat) : Bool := a % 64 = 0 && a + 64 ≤ s.osLimit

/-- R412: the descriptor is refused. DESIGN CHOICE, log 54. -/
def State.descBad (s : State) (bs : List Byte) : Bool :=
  let kind := field bs 39 1
  (bs.drop 52).any (· != 0) || field bs 38 1 < 4 || 16 < field bs 38 1 || 7 < field bs 41 1 || field bs 0 8 % 4096 != 0 ||
  1 < kind || (kind = 0 && (s.handlerAt (field bs 8 8) (field bs 36 2)).isNone) || (kind = 1 && field bs 8 8 != 0)

/-- The live queues. -/
def State.liveQueues (s : State) : List (Nat × Queue) := s.queues.filter fun q => q.2.st != .destroyed

/-- A queue identifier that is not in use, by a live queue or an event still held for a destroyed one; which one is free.
DESIGN CHOICE, log 54. -/
def State.newQid (s : State) : Option Nat :=
  let start := Config.freeNat s.fresh
  let ids := (List.range (s.liveQueues.length + s.hevents.length + 1)).map fun k => (start + k) % 65535 + 1
  ids.find? fun k => !s.liveQueues.any (·.1 == k) && !s.hevents.any (·.hq == k)

/-- R412: a new queue; it waits where the last free identifiers are those of events still held. DEDUCED, log 14;
DESIGN CHOICE, log 54. -/
def execQcreate (m : Msg) (s : State) : Out :=
  if s.liveQueues.length < 65535 && s.newQid.isNone then .next s
  else s.command m 0x01 0 fun s =>
    let a := argN m 8 8
    let s := s.recall none (a / 128)
    let bs := s.peek a 64
    if !s.descOk a || s.descBad bs then refuse s .badArg
    else if 65535 ≤ s.liveQueues.length then refuse s .busy
    else
      let id := s.newQid.getD 1
      let s := { s with fresh := s.fresh + 1 }
      let kind := field bs 39 1
      let asid := field bs 36 2
      let s := s.pwrite (a + 32) (natBytes 4 id)
      let s := s.pwrite (a + 16) (natBytes 8 (deviceWindow + 16384 * id))
      let s := s.pwrite (a + 40) (natBytes 1 0)
      let q : Queue :=
        { desc := a, ring := field bs 0 8, log2 := field bs 38 1, handlerQ := (s.handlerAt (field bs 8 8) asid).getD 0,
          asid := asid, kind := kind, prioMax := field bs 41 1, st := .running, grids := [], frameGrids := [],
          heldFrames := [], hseq := 0, resumed := false, stopReq := false }
      ({ s with queues := tset s.queues id q }, .ok, id + 2 ^ 32 * Config.doorbellPage id)

/-- A queue that a command names. -/
def State.queueArg (s : State) (m : Msg) : Option (Nat × Queue) :=
  match s.queue? (argN m 8 4) with
  | some q => if q.st == .destroyed then none else some (argN m 8 4, q)
  | none => none

/-- R423, R428: a queue is destroyed; events still held for a handler queue are written as its slots free. DEDUCED, log 53. -/
def execQdestroy (m : Msg) (s : State) : Out :=
  s.command m 0x02 0 fun s =>
    match s.queueArg m with
    | none => refuse s .noObject
    | some (id, q) =>
      if s.liveQueues.any (fun x => x.2.kind == 0 && x.2.handlerQ == id) ||
          s.grids.any (fun g => g.2.st == .live &&
            (g.2.handlerQ == id || (g.2.frame.toList ++ g.2.frames).any fun f => f.notify && f.hq == id)) then refuse s .busy
      else
        ((s.pwrite (q.desc + 40) (natBytes 1 2)).modQueue id fun q => { q with st := .destroyed, heldFrames := [] }, .ok, 0)

/-- R419: a stopped queue runs again, past its slot or at it. -/
def execQresume (m : Msg) (s : State) : Out :=
  s.command m 0x03 0 fun s =>
    match s.queueArg m with
    | none => refuse s .noObject
    | some (id, q) =>
      if q.st != .stopped then refuse s .busy
      else
        let i := s.readIdx q
        let skip := argN m 12 1 % 2 = 1
        let s := if skip then (s.vwrite q.asid (q.slot i) (natBytes 8 0)).pwrite (q.desc + 28) (natBytes 4 (i + 1)) else s
        let s := s.pwrite (q.desc + 40) (natBytes 1 0)
        (s.modQueue id fun q => { q with st := .running, resumed := !skip }, .ok, 0)

/-- R419: a running queue stops with `QE_HOST`, which no handler packet reports (R421): at once, or once the packet in
progress is complete for intake. DEDUCED, log 17. -/
def execQstop (m : Msg) (s : State) : Out :=
  s.command m 0x04 0 fun s =>
    match s.queueArg m with
    | none => refuse s .noObject
    | some (id, q) =>
      if q.st != .running then refuse s .busy
      else if s.inProgress q then (s.modQueue id fun q => { q with stopReq := true }, .ok, 0)
      else (s.hostStop id q (s.readIdx q), .ok, 0)

/-! ## Grids (R424, R428, R429) -/

/-- A grid that a command names and that has not retired. -/
def State.gridArg (s : State) (m : Msg) : Option (Nat × Grid) :=
  match s.grid? (argN m 8 4) with
  | some g => if g.st == .live then some (argN m 8 4, g) else none
  | none => none

/-- R423, R424, R428: a command that would terminate a grid waits where the report cannot be held. -/
def execGterm (m : Msg) (s : State) : Out :=
  if (s.gridArg m).isSome && !s.canReport then .next s
  else s.command m 0x10 1 fun s =>
    match s.gridArg m with
    | none => refuse s .noObject
    | some (id, _) => (s.terminateGrid id .termCmd 0, .ok, 0)

/-- R429: the entry stands at bytes 16 to 23 (DEDUCED, log 46). -/
def execDbgattach (m : Msg) (s : State) : Out :=
  s.command m 0x30 7 fun s =>
    match s.gridArg m with
    | none => refuse s .noObject
    | some (id, g) =>
      if argN m 16 8 % 12 != 0 then refuse s .badArg
      else if g.dbgEntry.isSome then refuse s .busy
      else (s.modGrid id fun g => { g with dbgEntry := some (argN m 16 8) }, .ok, 0)

def execDbgdetach (m : Msg) (s : State) : Out :=
  s.command m 0x31 7 fun s =>
    match s.gridArg m with
    | none => refuse s .noObject
    | some (id, g) =>
      if g.dbgEntry.isNone then refuse s .noObject
      else (s.modGrid id fun g => { g with dbgEntry := none }, .ok, 0)

/-! ## Memory commands (R439 to R443) -/

/-- R440: the action of a memory command. -/
def actionOf (m : Msg) : Nat := argN m 12 1

/-- R440: the arguments of `RELEASE` and `UNRESOLVABLE` are well formed. -/
def recordArg (m : Msg) : Bool := argN m 8 4 < 2 ^ 24 && argN m 13 3 = 0 && argN m 24 8 = 0

/-- R440: the record that a command names, or the status that refuses it. -/
def State.recordOf (s : State) (m : Msg) : Except Status (Nat × FaultRec) :=
  if !recordArg m then .error .badArg
  else
    match (s.grid? (argN m 8 4)).bind fun g => g.records.find? (·.seq == argN m 16 8) with
    | none => .error .noObject
    | some r => if r.resumed || r.unresolvable then .error .noObject else .ok (argN m 8 4, r)

/-- A memory command with its action. -/
def State.memCommand (s : State) (m : Msg) (action : Nat) (f : State → State × Status × Nat) : Out :=
  if actionOf m = action then s.command m 0x20 2 f else .next s

/-- R440, R441: `RELEASE`; a `FAULTREL` with an unassigned action is refused by the same owner. -/
def execRelease (m : Msg) (s : State) : Out :=
  if 3 < actionOf m then s.command m 0x20 2 fun s => refuse s .badArg
  else s.memCommand m 0 fun s =>
    match s.recordOf m with
    | .error e => refuse s e
    | .ok (id, r) =>
      if r.evt.ftype = 5 then refuse s .denied
      else ((s.modGrid id fun g => g.modRecord r.seq fun r => { r with released := true }).settleFaultInt, .ok, 0)

/-- R440, R443. -/
def execUnresolvable (m : Msg) (s : State) : Out :=
  s.memCommand m 1 fun s =>
    match s.recordOf m with
    | .error e => refuse s e
    | .ok (id, r) =>
      ((s.modGrid id fun g => g.modRecord r.seq fun r => { r with unresolvable := true }).settleRecord id r.seq, .ok, 0)

/-- R439: accesses of an address space that have been translated and not yet performed: queued and in flight, those of a
terminated grid among them, and those the matrix engine holds. DEDUCED, log 63. -/
def State.translated (s : State) (asid : Option Nat) : Bool :=
  let paged := fun (x : Loc) => x.sp == .mem || x.sp == .pcie
  let mine := fun (wid : Nat) => match (s.team? (wid / 32)).bind fun t => s.grid? t.gid with
    | some g => asid.isNone || asid == some g.asid
    | none => true
  (s.cores.any fun k => k.2.inflight.any (fun r => (r.sp == .mem || r.sp == .pcie) && mine r.wid) ||
    k.2.mxq.any fun x => mine x.wid && (x.rows.flatMap (·.2) ++ x.bWords.flatten).any paged) ||
  s.warps.any fun w => mine w.1 &&
    (w.2.sq.any (fun e => e.kind.touches.any fun x => paged x.1) ||
     w.2.pend.any fun p => p.kind.reads.any fun x => paged x.1)

/-- R438, R439: every cached translation for which `hit` holds is dropped, and the walkers' entries of the address spaces. -/
def State.dropTlb (s : State) (asid : Option Nat) (hit : TlbEnt → Bool) : State :=
  { s with tlb := s.tlb.filter fun t => !hit t
           cores := s.cores.map fun k => (k.1, { k.2 with tlb := k.2.tlb.filter fun t => !hit t })
           walkCache := s.walkCache.filter fun x => !(asid.isNone || asid == some x.asid) }

/-- R440: the ranges of `INVAL`. -/
def invalBad (m : Msg) : Bool :=
  argN m 14 2 != 0 || match argN m 13 1 with
    | 0 => argN m 10 2 != 0 || argN m 16 8 % 16384 != 0 || argN m 24 8 % 16384 != 0 || argN m 24 8 = 0
    | 1 => argN m 10 2 != 0 || argN m 16 16 != 0
    | 2 => argN m 8 4 != 0 || argN m 16 16 != 0
    | _ => true

/-- R438, R439: cached translations are dropped; the answer waits until every access already translated is performed.
DESIGN CHOICE, log 36; DEDUCED, log 63. -/
def execInval (m : Msg) (s : State) : Out :=
  if actionOf m != 2 then .next s
  else if invalBad m then s.command m 0x20 2 fun s => refuse s .badArg
  else
    let asid := if argN m 13 1 = 2 then none else some (argN m 8 2)
    if s.translated asid then .next s
    else s.command m 0x20 2 fun s =>
      let hit := fun (t : TlbEnt) => match asid with
        | none => true
        | some a => t.asid == a && (argN m 13 1 = 1 ||
            (argN m 16 8 ≤ t.page * 16384 && t.page * 16384 < argN m 16 8 + argN m 24 8))
      (s.dropTlb asid hit, .ok, 0)

/-- R440: the arguments of `ASIDTAB` break a rule. -/
def asidtabBad (m : Msg) : Bool := argN m 8 4 != 0 || argN m 13 3 != 0 || argN m 24 8 != 0 || argN m 16 8 % 4096 != 0

/-- R432, R439, R440: the table base; it acts as `INVAL` of every address space. DEDUCED, log 63. -/
def execAsidtab (m : Msg) (s : State) : Out :=
  if actionOf m = 3 && !asidtabBad m && !(s.grids.any fun g => g.2.st == .live) && s.translated none then .next s
  else s.memCommand m 3 fun s =>
    if asidtabBad m then refuse s .badArg
    else if s.grids.any fun g => g.2.st == .live then refuse s .busy
    else ({ s.dropTlb none (fun _ => true) with asidBase := argN m 16 8 }, .ok, 0)

/-! ## Exward bindings (R464) -/

/-- R464: whether the peer has bound the reverse pair is its own state, and free here. DESIGN CHOICE, log 65. -/
def execPeerbind (m : Msg) (s : State) : Out :=
  s.command m 0x40 6 fun s =>
    let port := argN m 10 1
    if 3 < port || argN m 11 1 != 0 || argN m 14 18 != 0 then refuse s .badArg
    else if s.mg.peerMask / 2 ^ port % 2 = 0 then refuse s .noObject
    else
      let (k, s) := s.choose 2
      if k = 0 then refuse s .denied
      else
        let others := s.peers.filter fun x => !(x.1 == port && x.2.1 == argN m 8 2)
        ({ s with peers := others ++ [(port, argN m 8 2, argN m 12 2)] }, .ok, 0)

/-! ## Images and the trust core (R458, R459, R474, R475) -/

/-- R459: the checks of an image for a target, in their order. -/
def Trust.accepts (t : Trust) (target : Nat) (bs : List Byte) : Bool :=
  let size := field bs 12 4
  let key := (bs.drop 80).take 97
  let slot := field bs 7 1
  let zero := fun (a n : Nat) => ((bs.drop a).take n).all (· == 0)
  384 ≤ bs.length && field bs 0 4 = 0x314B4941 && field bs 4 2 = 1 && zero 177 15 && zero 288 96 &&
  field bs 6 1 = target && slot < 4 && tget t.keyHash slot == some (sha384 key) && !t.revoked.contains slot &&
  (tget t.fused target).getD 0 ≤ field bs 8 4 &&
  size % 16 = 0 && size ≤ 2 ^ 24 && 384 + size ≤ bs.length &&
  sha384 ((bs.drop 384).take size) == (bs.drop 32).take 48 &&
  ecdsaOk (pointOf key) (sha384 (bs.take 192)) (field bs 192 48) (field bs 240 48)

/-- R458: what is kept of a running image. -/
def imageOf (bs : List Byte) : Image :=
  { target := field bs 6 1, secVersion := field bs 8 4, digest := (bs.drop 32).take 48, bytes := bs }

/-- R461: the image of a target that is accepted: of copy A, then of copy B. -/
def Trust.boot (t : Trust) (target : Nat) : Option Image :=
  let ok := fun (c : Tbl (List Byte)) => ((tget c target).filter fun bs => t.accepts target bs).map imageOf
  (ok t.flashA).or (ok t.flashB)

/-- R474: an image is verified, and its write to the inactive copy starts. DEDUCED, log 55. -/
def execFwstage (m : Msg) (s : State) : Out :=
  s.command m 0x50 6 fun s =>
    let a := argN m 8 8
    let hd := s.peek a 384
    let bs := s.peek a (384 + field hd 12 4 % (2 ^ 24 + 1))
    if a % 16 != 0 || argN m 16 16 != 0 then refuse s .badArg
    else if s.trust.staging.isSome then refuse s .busy
    else if s.osLimit < a + bs.length || 8 < field hd 6 1 || !s.trust.accepts (field hd 6 1) bs then refuse s .denied
    else ({ s with trust := { s.trust with staging := some (field hd 6 1, bs) } }, .ok, 0)

/-- R474: the staged copy becomes copy A, and the other copy B, for the next reset. DEDUCED, log 55. -/
def execFwactivate (m : Msg) (s : State) : Out :=
  s.command m 0x51 6 fun s =>
    let k := argN m 8 1
    let t := s.trust
    let set := fun (c : Tbl (List Byte)) (x : Option (List Byte)) => match x with
      | some b => tset c k b
      | none => tdel c k
    if argN m 9 23 != 0 then refuse s .badArg
    else if !t.staged.contains k then refuse s .noObject
    else ({ s with trust := { t with flashA := set t.flashA (tget t.flashB k), flashB := set t.flashB (tget t.flashA k),
                                     staged := t.staged.filter (· != k) } }, .ok, 0)

/-- R474: the fused minimum of a target rises. DEDUCED, log 55. -/
def execFwfuse (m : Msg) (s : State) : Out :=
  s.command m 0x52 6 fun s =>
    let k := argN m 8 1
    let v := argN m 12 4
    let active := ((tget s.trust.running k).map (·.secVersion)).getD 0
    if argN m 9 3 != 0 || argN m 16 16 != 0 || 8 < k then refuse s .badArg
    else if active < v || v < (tget s.trust.fused k).getD 0 then refuse s .denied
    else ({ s with trust := { s.trust with fused := tset s.trust.fused k v } }, .ok, 0)

/-- R467: `MG_STATUS`. -/
def Mg.status (g : Mg) : Nat :=
  g.stage * 2 ^ 32 + g.mdMask * 2 ^ 26 + g.cdMask * 2 ^ 20 + g.peerMask * 2 ^ 16 + (if g.full then 2 ^ 15 else 0) + g.halt

/-- R475: bytes 0 to 623 of a report. -/
def State.reportBytes (s : State) (nonce : Nat) : List Byte :=
  let im := fun (k : Nat) => tget s.trust.running k
  natBytes 4 0x54414B39 ++ natBytes 4 1 ++ natBytes 16 nonce ++ natBytes 8 s.mg.status ++
  (List.range 9).flatMap (fun k => natBytes 4 (((im k).map (·.secVersion)).getD 0)) ++ natBytes 12 0 ++
  (List.range 9).flatMap (fun k => ((im k).map (·.digest)).getD (List.replicate 48 (0 : Byte))) ++
  pointBytes (Point.mul (some p384G) s.trust.identity 384) ++ natBytes 15 0

/-- R475: a report with its signature. -/
def State.attestation (s : State) (nonce : Nat) : List Byte :=
  let b := s.reportBytes nonce
  let (r, x) := ecdsaSign s.trust.identity (sha384 b) (Config.signNonce s.fresh)
  b ++ natBytes 48 r ++ natBytes 48 x

/-- R474, R475. -/
def execAttest (m : Msg) (s : State) : Out :=
  s.command m 0x53 6 fun s =>
    if argN m 8 8 % 16 != 0 then refuse s .badArg
    else ({ (s.pwrite (argN m 8 8) (s.attestation (argN m 16 16))) with fresh := s.fresh + 1 }, .ok, 0)

/-! ## Routing (R427, R428) -/

/-- R428: a command that no owner carries out. DESIGN CHOICE, log 65. -/
def unassigned (m : Msg) : Bool := (owner m.opc.toNat).isNone

/-- R427, R428: core 0 sends the next command to its owner's FIFO, or answers it where it has none; any other message joins
its receiver's FIFO. A full FIFO makes the sender wait. DESIGN CHOICE, log 65. -/
def execSummitMailboxMessage (m : Msg) (s : State) : Out :=
  if s.cmdQ.head? == some m then
    if unassigned m then
      .next (if s.rspQ.length < 64 then ({ s with cmdQ := s.cmdQ.tail }).respond m 0 .badArg 0 else s)
    else
      match owner m.opc.toNat with
      | some (k + 1) =>
        if (s.fifo (k + 1)).length < 32 then
          .next { s with cmdQ := s.cmdQ.tail
                         mailbox := tset s.mailbox (k + 1) (s.fifo (k + 1) ++
                           [{ m with src := 8, dst := BitVec.ofNat 8 (k + 1) }]) }
        else .next s
      | _ => .next s
  else if m.src != 8 && m.dst.toNat < 8 && (s.fifo m.dst.toNat).length < 32 then
    .next { s with mailbox := tset s.mailbox m.dst.toNat (s.fifo m.dst.toNat ++ [m]) }
  else .next s

/-! ## Error records (R471) -/

/-- R471: the bytes of a record. -/
def ErrRec.bytes (e : ErrRec) (dropped : Nat) : List Byte :=
  natBytes 8 e.time ++ natBytes 1 e.socket ++ natBytes 1 e.struct ++ natBytes 1 e.sev ++ natBytes 1 0 ++ natBytes 4 e.unit ++
  natBytes 4 e.count ++ natBytes 4 dropped ++ natBytes 8 e.addr

/-- R466, R471: a ring has a free slot. -/
def ringFree (ring : W64) (wr rd : W32) : Bool := ring.toNat % 16 != 0 && (wr - rd).toNat < 2 ^ (ring.toNat % 16)

/-- R466: the address of a slot of a ring. -/
def ringSlot (ring : W64) (wr : W32) (size : Nat) : Nat :=
  ring.toNat % 2 ^ 52 / 4096 * 4096 + size * (wr.toNat % 2 ^ (ring.toNat % 16))

/-- R471: held records are written while the ring has room. -/
def State.writeErrors (s : State) : Nat → State
  | 0 => s
  | n + 1 =>
    match s.errHeld with
    | [] => s
    | e :: rest =>
      if !ringFree s.mg.errRing s.mg.errWr s.mg.errRd then s
      else
        let s := s.pwrite (ringSlot s.mg.errRing s.mg.errWr 32) (e.bytes s.errDropped)
        ({ s with errHeld := rest, errDropped := 0,
                  mg := { s.mg with errWr := s.mg.errWr + 1, int_ := s.mg.int_ ||| 2 } } : State).writeErrors n

/-- R471: beyond 4,096 held records the oldest of `SEV` 0 is dropped. -/
def dropOldest (l : List ErrRec) : List ErrRec × Nat :=
  if l.length ≤ 4096 then (l, 0)
  else
    match l.find? fun e => e.sev == 0 with
    | some e => (l.erase e, 1)
    | none => (l, 0)

/-- R471: an error record is written, or held. -/
def State.errRecord (s : State) (e : ErrRec) : State :=
  let s := ({ s with errHeld := s.errHeld ++ [e] } : State).writeErrors 1
  let (l, n) := dropOldest s.errHeld
  { s with errHeld := l, errDropped := s.errDropped + n }

/-! ## The management registers (R466, R467) -/

/-- R467: `MG_INT`. -/
def State.mgInt (s : State) : Nat := s.mg.int_.toNat / 2 * 2 + s.faultInt.toNat

/-- R466: a read of an aligned double of the window. -/
def State.mgRead (s : State) (off : Nat) : Nat :=
  match off with
  | 0x00 => 0x4B39 + Config.revision.toNat * 2 ^ 16
  | 0x08 => s.mg.status
  | 0x10 => 0
  | 0x18 => s.osLimit
  | 0x20 => s.mgInt
  | 0x28 => s.mg.intEn.toNat
  | 0x30 => s.mg.errRing.toNat
  | 0x38 => s.mg.errWr.toNat + s.mg.errRd.toNat * 2 ^ 32
  | 0x40 => s.mg.telRing.toNat
  | 0x48 => s.mg.telWr.toNat + s.mg.telRd.toNat * 2 ^ 32
  | 0x50 => s.mg.pwrLimit
  | 0x58 => s.mg.errThresh
  | 0x168 => s.cmdQ.length + s.rspQ.length * 256
  | _ =>
    if 0x140 ≤ off && off < 0x160 then
      match s.rspQ.head? with
      | some m => (msgBits m).toNat / 2 ^ (8 * (off - 0x140)) % 2 ^ 64
      | none => 0
    else 0

/-- R466: a ring register's value is in range. -/
def ringOk (v : W64) : Bool := v.toNat % 16 = 0 || 6 ≤ v.toNat % 16

/-- R11, R466: the fields of a ring register; its other bits are reserved. -/
def ringBits (v : W64) : W64 := v &&& 0x000FFFFFFFFFF00F

/-- R466: the oldest response is discarded. -/
def State.popResponse (s : State) : State := { s with rspQ := s.rspQ.tail }

def execMgRspPop (s : State) : Out := .next s.popResponse

/-- R11, R466: a write of a register; bits 63:6 of `MG_INT_EN` are taken as reserved (DESIGN CHOICE, log 81). -/
def State.mgWrite (s : State) (off : Nat) (v : W64) : State :=
  let g := s.mg
  match off with
  | 0x20 => { s with mg := { g with int_ := g.int_ &&& ~~~(v.setWidth 6 &&& 0x3E) } }
  | 0x28 => { s with mg := { g with intEn := v &&& 0x3F } }
  | 0x30 => if ringOk v then ({ s with mg := { g with errRing := ringBits v } } : State).writeErrors 4096 else s
  | 0x38 => ({ s with mg := { g with errRd := v.extractLsb' 32 32 } } : State).writeErrors 4096
  | 0x40 => if ringOk v then { s with mg := { g with telRing := ringBits v } } else s
  | 0x48 => { s with mg := { g with telRd := v.extractLsb' 32 32 } }
  | 0x50 => if 700 ≤ v.toNat && v.toNat ≤ 1400 then { s with mg := { g with pwrLimit := v.toNat } } else s
  | 0x58 => if 1 ≤ v.toNat && v.toNat ≤ 255 then { s with mg := { g with errThresh := v.toNat } } else s
  | 0x120 =>
    if 64 ≤ s.cmdQ.length then { s with mg := { g with int_ := g.int_ ||| 0x20 } }
    else { s with cmdQ := s.cmdQ ++ [msgOf g.cmd] }
  | 0x160 => s.popResponse
  | _ =>
    if 0x100 ≤ off && off < 0x120 && off % 8 = 0 then
      let sh := 8 * (off - 0x100)
      let hole : BitVec 256 := ~~~((BitVec.allOnes 64).setWidth 256 <<< sh)
      { s with mg := { g with cmd := (g.cmd &&& hole) ||| (v.setWidth 256 <<< sh) } }
    else s

def execManagementRegisterWrite (off : Nat) (val : W64) (s : State) : Out := .next (s.mgWrite off val)

end Sys2Proof.Machine
end

