-- ==== Sys2Proof/Machine/Boot.lean ====
section
/-! DEFINITION. Reset, boot and training, base and full service (R450, R451, R459 to R464, R474). -/

namespace Sys2Proof.Machine

open Sys2Proof

/-! ## Reset and boot (R461) -/

/-- What a reset leaves of the trust core's stores. -/
def Trust.kept (t : Trust) : Trust :=
  { Trust.reset with flashA := t.flashA, flashB := t.flashB, staged := t.staged, keyHash := t.keyHash, revoked := t.revoked,
                     fused := t.fused, identity := t.identity }

/-- R461, R467: the module out of reset: its state at reset, with what outlasts it: memory, the stores of the trust core, the
memory dies that are excluded (R470), the clocks and the outside world. DESIGN CHOICE, log 7; DEDUCED, log 62. -/
def State.outOfReset (s : State) : State :=
  { State.reset with
    mem := s.mem, hist := s.hist, trust := s.trust.kept, outOfService := s.outOfService.filter fun x => x.2.1 == 4
    peerOut := s.peerOut, pcieOut := s.pcieOut, now := s.now, ns := s.ns, resetNs := s.ns, inputs := s.inputs
    cores := (sockets.flatMap fun d => (List.range 24).map (d * 32 + ·)).map fun k => (k, { Core.reset with clockBase := s.now })
    fresh := s.fresh, nextId := s.nextId }

/-- R460: the application cluster's ranges: region 0 (below the range the device keeps, see `cpuMay`), region 2 and the
management window. The spec does not give the other cores' ranges. DESIGN CHOICE, log 59. -/
def appFilters : List Filter :=
  [{ agent := 8, base := 0, limit := 2 ^ 48, r := true, w := true, x := true },
   { agent := 8, base := 2 ^ 48, limit := 2 ^ 48 + 0x10000, r := true, w := true, x := false },
   { agent := 8, base := 2 ^ 49, limit := 2 ^ 49 + 2 ^ 48, r := true, w := true, x := false }]

/-- The module stops, with a reason (R467). DEDUCED, log 62. -/
def State.haltModule (s : State) (why : Nat) : State := { s with mg := { s.mg with stage := 0xFF, halt := why } }

/-- R461, step 4: a core's image is verified and started, or the core stays held. -/
def State.startImage (s : State) (k : Nat) : State :=
  match s.trust.boot k with
  | some im => { s with trust := { s.trust with running := tset s.trust.running k im } }
  | none => { s with trust := { s.trust with held := s.trust.held ++ [k] } }

/-- R461: steps 1 to 5, up to the training. -/
def State.bootSteps (s : State) : State :=
  match s.trust.boot 6 with
  | none => s.haltModule 1
  | some im =>
    let s := { s with trust := { s.trust with running := tset s.trust.running 6 im, filters := appFilters, locked := true } }
    let s := [0, 1, 2, 3, 4, 5, 7].foldl State.startImage s
    if [0, 1, 2, 3, 5].any s.trust.held.contains then s.haltModule 2 else { s with mg := { s.mg with stage := 5 } }

def execModuleReset (s : State) : Out := .next s.outOfReset.bootSteps

/-! ## Training (R461 to R463) -/

/-- A die is out of service: its attachment or its training failed (code 7, the model's own), or its memory (code 4).
DEDUCED, log 62. -/
def State.dieGone (s : State) (sock : Nat) : Bool := s.outOfService.any fun x => x.1 == sock && (x.2.1 == 7 || x.2.1 == 4)

/-- R467: a memory die is in service. -/
def State.memUp (s : State) (sock : Nat) : Bool := s.mg.mdMask / 2 ^ (sock - 7) % 2 = 1

/-- R461: a compute die has trained. -/
def State.computeUp (s : State) : Bool := sockets.any fun d => (s.die d).trained && !s.dieGone d

/-- R461, R463: the time within which a unit must train, in ns. -/
def trainLimit (sock : Nat) : Nat := if sock = 1 || sock = 7 || sock = 8 then 1000000000 else 30000000000

/-- R461, R463: the unit has time left to train; what takes part in boot step 5 must train within its 1 s. -/
def State.inTime (s : State) (sock : Nat) : Bool :=
  s.ns < s.resetNs + if s.mg.stage == 5 then 1000000000 else trainLimit sock

/-- R462: a compute die enters service. -/
def State.dieEnters (s : State) (d : Nat) : State :=
  let s := s.modDie d fun x => { x with trained := true, inService := true }
  { s with mg := { s.mg with cdMask := s.mg.cdMask ||| 2 ^ (d - 1) } }

/-- R157: the slices of some memory dies that are in service. -/
def State.slicesOf (s : State) (dies : List Nat) : List Nat :=
  dies.flatMap fun d => ((List.range 16).filter fun u => !s.outOfService.contains (d, 3, u)).map ((d - 7) * 16 + ·)

/-- R451, R463: the lines are homed over the slices of some memory dies, and C is theirs. -/
def State.homeOver (s : State) (dies : List Nat) : State := { s with memTrained := dies, slices := s.slicesOf dies }

/-- R461, R462: step 5 ends: the module halts, or base service begins with step 6 and one compute die: socket 1, or the
lowest-numbered that has trained where socket 1 is out. DEDUCED, log 62. -/
def State.settleBoot (s : State) : State :=
  if s.mg.stage != 5 then s
  else if (s.dieGone 1 && !s.computeUp) || (s.dieGone 7 && s.dieGone 8) then s.haltModule 5
  else
    let compute := (s.die 1).inService || (s.dieGone 1 && s.computeUp)
    let memory := [7, 8].all fun d => s.memUp d || s.dieGone d
    if compute && memory then
      let s := if (s.die 1).inService then s else ((sockets.find? fun d => (s.die d).trained && !s.dieGone d).map s.dieEnters).getD s
      let s := (s.startImage 8).homeOver ([7, 8].filter s.memUp)
      { s with mg := { s.mg with stage := 7 } }
    else s

/-- R462: training is possible: boot has reached its step 5, and the unit is not out of service. -/
def State.mayTrain (s : State) (sock : Nat) : Bool := (s.mg.stage == 5 || s.mg.stage == 7) && !s.dieGone sock

/-- R461, R462: a compute die has trained; it enters service, but for those other than socket 1 before base service
begins, of which one may take its place. -/
def execComputeDieTrained (socket : Nat) (s : State) : Out :=
  if sockets.contains socket && s.mayTrain socket && s.inTime socket && !(s.die socket).inService then
    if s.mg.stage == 5 && socket != 1 then .next (s.modDie socket fun d => { d with trained := true }).settleBoot
    else .next (s.dieEnters socket).settleBoot
  else .next s

/-- R461, R463: a memory die enters service. -/
def execMemoryDieTrained (socket : Nat) (s : State) : Out :=
  if 7 ≤ socket && socket ≤ 12 && s.mayTrain socket && s.inTime socket && !s.memUp socket then
    .next ({ s with mg := { s.mg with mdMask := s.mg.mdMask ||| 2 ^ (socket - 7) } } : State).settleBoot
  else .next s

/-- R461, R463: a unit that has not trained in its time goes out of service. DEDUCED, log 62. -/
def execTrainingTimeout (socket : Nat) (s : State) : Out :=
  let up := if socket ≤ 6 then (s.die socket).trained else s.memUp socket
  if 1 ≤ socket && socket ≤ 12 && s.mayTrain socket && !up && s.resetNs + trainLimit socket ≤ s.ns then
    .next ({ s with outOfService := s.outOfService ++ [(socket, 7, 0)] } : State).settleBoot
  else .next s

/-- R463: the transition: C rises to what has trained, the lines are rehomed, and `FULL` is set. The bytes of a die that has been
lost since stay with it (R470). DEDUCED, log 62. -/
def execFullServiceTransition (s : State) : Out :=
  let dies := (List.range 6).map (7 + ·)
  if s.mg.stage == 7 && !s.mg.full && dies.all (fun d => s.memUp d || s.dieGone d) then
    let s := s.homeOver (dies.filter fun d => s.memUp d || s.memTrained.contains d)
    .next { s with mg := { s.mg with full := true } }
  else .next s

/-- R464, R475: a peer's report verifies: its identity key is certified under a key-store root (PRESUMED, log 61) and its signature is
valid. -/
def State.reportOk (s : State) (bs : List Byte) : Bool :=
  let key := (bs.drop 512).take 97
  bs.length == 720 && field bs 0 4 = 0x54414B39 && field bs 4 4 = 1 &&
  ((List.range 4).any fun i => tget s.trust.keyHash i == some (sha384 key) && !s.trust.revoked.contains i) &&
  ecdsaOk (pointOf key) (sha384 (bs.take 624)) (field bs 624 48) (field bs 672 48)

/-- R462, R464: an Exward port trains and attests. PRESUMED, log 61. -/
def execExwardPortTrained (port : Nat) (report : List Byte) (s : State) : Out :=
  if port < 4 && s.mg.stage == 7 && s.reportOk report then
    .next { s with mg := { s.mg with peerMask := s.mg.peerMask ||| 2 ^ port } }
  else .next s

/-! ## Flash and power (R474) -/

/-- R474: the inactive copy has been written. -/
def execStageWriteComplete (s : State) : Out :=
  match s.trust.staging with
  | none => .next s
  | some (k, bs) =>
    let t := s.trust
    .next { s with trust := { t with staging := none, flashB := tset t.flashB k bs,
                                     staged := if t.staged.contains k then t.staged else t.staged ++ [k] } }

/-- R474: power is lost: a stage in progress ends and the active copy is unchanged; of the copy being written nothing is
known. Everything that a reset does not keep is lost, and memory with it. -/
def execPowerLoss (s : State) : Out :=
  let t := s.trust.kept
  let t := match s.trust.staging with
    | none => t
    | some (k, bs) =>
      { t with staged := t.staged.filter (· != k)
               flashB := tset t.flashB k ((List.range bs.length).map fun i => Config.freeByte (s.fresh + i)) }
  .next { State.reset with
    trust := t, outOfService := s.outOfService.filter fun x => x.2.1 == 4
    peerOut := s.peerOut, pcieOut := s.pcieOut, inputs := s.inputs, now := s.now, ns := s.ns, resetNs := s.ns
    fresh := s.fresh + ((s.trust.staging.map (·.2.length)).getD 0), nextId := s.nextId }

end Sys2Proof.Machine
end

