-- ==== Sys2Proof/Machine/Fleet.lean ====
section
/-! DEFINITION. Loss of scheduler state, link failures, errors and units that leave service, telemetry and power, and the
outside agents (R195, R226, R348, R413, R430, R431, R441, R455 to R457, R460, R464 to R473). -/

namespace Sys2Proof.Machine

open Sys2Proof

/-! ## The scheduling core (R430, R431) -/

/-- R430, step 3: the scheduling copy of a queue from its descriptor, where that is one of a live queue. DEDUCED, log 64. -/
def State.rereadQueue (s : State) (q : Queue) : Queue :=
  let bs := s.peek q.desc 64
  let asid := field bs 36 2
  if q.st == .destroyed || 1 < field bs 40 1 then q
  else { q with asid := asid, prioMax := field bs 41 1, handlerQ := (s.handlerAt (field bs 8 8) asid).getD q.handlerQ }

/-- R430, step 3: each queue's copy from its descriptor, and its list of launched grids from the grid table. -/
def State.rebuildQueues (s : State) : State :=
  let s := s.queues.foldl (fun s q => s.recall none (q.2.desc / 128)) s
  { s with queues := s.queues.map fun q =>
      (q.1, { s.rereadQueue q.2 with grids := (s.grids.filter fun g => g.2.st == .live && g.2.depth == 0 && g.2.qid == q.1 &&
                                                          q.2.grids.contains g.1).map (·.1) }) }

/-- R430, R461: the scheduling image is verified again; grids whose table entries fail the check are terminated, or every
grid where the reload fails. DEDUCED, log 64. -/
def State.reloadScheduler (s : State) (bad : List Nat) (verifies : Bool) : State :=
  let live := (s.grids.filter fun g => g.2.st == .live).map (·.1)
  if verifies && (s.trust.boot 1).isSome then
    ((live.filter bad.contains).foldl (fun s g => s.terminateGrid g .schedLost 0) s).rebuildQueues
  else (live.foldl (fun s g => s.terminateGrid g .schedLost 0) s).haltModule 3

/-- R430, R431: an error in the instruction memory alone loses no grid. DEDUCED, log 64. -/
def execSchedulerStateLoss (imem : Bool) (bad : List Nat) (verifies : Bool) (s : State) : Out :=
  .next (s.reloadScheduler (if imem then [] else bad) verifies)

/-! ## Units that leave service (R226, R470) -/

/-- R445, R470: the teams of a core leave it: aborted while they are replay-active, otherwise halted with their units to be
saved and restored elsewhere. DEDUCED, log 58. -/
def State.emptyCore (s : State) (core : Nat) : State :=
  ((s.teams.filter fun t => t.2.core == core && t.2.st == .running).flatMap fun t => (s.unitOfTeam t.1 t.2).map (·.1)).foldl
    State.haltTeam s

def State.coreOut (s : State) (core : Nat) : State := (s.modCore core fun k => { k with inService := false }).emptyCore core

/-- R226: the unstarted buckets of a die go to the die of the mask that holds the fewest. DEDUCED, log 58. -/
def Frame.leaveDie (f : Frame) (rest : List Nat) (sock : Nat) : Frame :=
  let (lo, hi, st) := f.die sock
  let bs := st ++ (tget f.held sock).getD [] ++ (List.range (hi - lo)).map (lo + ·)
  let least := (rest.map f.unstarted).foldl min ((rest.head?.map f.unstarted).getD 0)
  match rest.find? fun d => f.unstarted d == least with
  | none => f
  | some other =>
    let f := { f with disp := tset f.disp sock (0, 0, []), held := tdel f.held sock }
    bs.reverse.foldl (fun f b => f.giveBack other b) f

/-- R119: under block placement what a lost die had left to dispatch goes to the die of the mask that holds the fewest
undispatched units, the lower socket first. -/
def Grid.leaveDie (g : Grid) (up : List Nat) (sock : Nat) : Grid :=
  if !g.rec_.block then g
  else
    (List.range g.seqs.length).foldl (fun g i =>
      match g.seqs[i]? with
      | none => g
      | some q =>
        let load := fun (d : Nat) => ((g.seqs.filter fun x => x.sockets.contains d).map fun x => x.stop - x.nextUnit).foldl (· + ·) 0
        let least := (up.map load).foldl min ((up.head?.map load).getD 0)
        match if q.sockets.contains sock then up.find? fun d => load d == least else none with
        | some d => { g with seqs := g.seqs.set i { q with sockets := [d] } }
        | none => g) g

/-- R226: the report of a bucket whose team was not replay-active. -/
def bucketLost (g : Grid) (t : Team) (b : Nat) : HEvent :=
  { gridEvent g t.gid .bucketLost (w64 b) with
    teamlin := BitVec.ofNat 32 t.lin, socket := socketOf t.core, core := t.core % 32 }

/-- R119, R226, R455, R470: a compute die leaves service. A report of a lost bucket waits with the held events (R423, log 49).
DEDUCED, log 58. -/
def State.computeOut (s : State) (sock : Nat) : State :=
  let s := s.modDie sock fun d => { d with inService := false }
  let s := { s with mg := { s.mg with cdMask := s.mg.cdMask &&& (63 ^^^ 2 ^ (sock - 1)) } }
  let s := ((List.range 24).map (sock * 32 + ·)).foldl State.coreOut s
  let s := s.teams.foldl (fun s t =>
    match t.2.bucket, s.grid? t.2.gid with
    | some b, some g =>
      if socketOf t.2.core == sock && (s.team? t.1).isSome then
        (s.modGrid t.2.gid fun g => { g with frame := g.frame.map fun f => { f with lost := f.lost ++ [b] } }).report
          (bucketLost g t.2 b)
      else s
    | _, _ => s) s
  { s with grids := s.grids.map fun g =>
      let up := g.2.mask.filter fun d => (s.die d).inService
      (g.1, { g.2.leaveDie up sock with frame := g.2.frame.map fun f => f.leaveDie up sock }) }

/-- R470: a memory die leaves service: accesses to its lines fault (see `memLost`). -/
def State.memoryOut (s : State) (sock : Nat) : State :=
  { s with mg := { s.mg with mdMask := s.mg.mdMask &&& (63 ^^^ 2 ^ (sock - 7)) } }

/-- The unit is out of service already. -/
def State.isOut (s : State) (u : ErrUnit) : Bool := s.outOfService.contains (u.socket, u.code, u.unit)

/-- A record of an error. -/
def State.errOf (s : State) (u : ErrUnit) (sev count addr : Nat) : ErrRec where
  time := s.ns - s.resetNs
  socket := u.socket
  struct := u.code
  sev := sev
  unit := u.unit
  count := count
  addr := addr

/-- R470, R471: the unit leaves service, the status is updated, then the record is written; a memory die is then excluded at
the next boot, however it left (code 4). DEDUCED, log 58. -/
def State.leaveService (s : State) (u : ErrUnit) (count addr : Nat) : State :=
  if s.isOut u then s
  else
    let s := { s with outOfService := s.outOfService ++ [(u.socket, u.code, u.unit)] }
    let s := match u.code with
      | 0 | 1 => s.coreOut (u.socket * 32 + u.unit)
      | 2 => s.modHall u.socket u.unit fun h => { h with inService := false }
      | 3 => { s with slices := s.slices.filter (· != (u.socket - 7) * 16 + u.unit) }
      | 4 => s.memoryOut u.socket
      | 7 =>
        if u.socket ≤ 6 then s.computeOut u.socket
        else ({ s with outOfService := s.outOfService ++ [(u.socket, 4, 0)] } : State).memoryOut u.socket
      | _ => s
    s.errRecord (s.errOf u 2 count addr)

/-! ## Link failures (R348, R455 to R457) -/

/-- The socket of the unit that serves a location for a unit on socket `own`. -/
def State.locSocket (s : State) (own : Nat) (x : Loc) : Nat :=
  match x.sp with
  | .mem | .spill => s.homeDie x.line
  | .pcie | .doorbell => 0
  | _ => own

/-- The other end of a link that one socket uses toward another. -/
def farEnd (a b own : Nat) : Option Nat := if own = a then some b else if own = b then some a else none

/-- R457: the fault of a returned access of a shader core; no lane parks. DESIGN CHOICE, log 83. -/
def State.returnFault (s : State) (wid : Nat) (lanes : Mask) (pc : W64) (kind engine va : Nat) (emu : Bool) (who : Parked) :
    State :=
  match s.ctxOf wid lanes with
  | none => s
  | some c =>
    let e := { s.laneFault c c.w kind engine 0 lanes (w64 va) 4 with pc := pc, whole := false, async := true, emu := emu, who := who }
    s.modGrid c.t.gid fun g => { g with faults := g.faults ++ [e] }

/-- R168: the kind of a request's fault, and its engine. -/
def Req.faultKind (r : Req) : Nat × Nat :=
  match r.op with
  | .write _ => if r.mx then (7, 2) else (2, 0)
  | .ldx _ _ | .fill | .load _ => (1, 0)
  | _ => (3, 0)

/-- R453, R456: the requests that a socket has put on VC0 toward another and that are not known to be delivered, in their order: core
and request. -/
def State.onLink (s : State) (own far : Nat) : List (Nat × Req) :=
  sortBy (fun x y => x.2.id < y.2.id) ((s.cores.filter fun k => socketOf k.1 == own).flatMap fun k =>
    let held := heldReqs k.2.inflight
    (k.2.inflight.filter fun r => !r.arrived && !held.contains r && r.vc == 0 && s.targetSocket k.1 r == far &&
      (s.ctxOf r.wid r.lanes).isSome).map fun r => (k.1, r))

/-- R456, R457: of the requests on the link, those before a point that is free have been delivered, and the others come back with a
record each. DESIGN CHOICE, log 66. -/
def State.returnReqs (s : State) (own far : Nat) : State :=
  let l := s.onLink own far
  let (n, s) := s.choose (l.length + 1)
  let s := (l.take n).foldl (fun s x => s.modCore x.1 fun k =>
    { k with inflight := k.inflight.map fun r => if r.id == x.2.id then { r with arrived := true } else r }) s
  (l.drop n).foldl (fun s x =>
    let s := s.modCore x.1 fun k =>
      { k with inflight := k.inflight.map fun r => if r.id == x.2.id then { r with returned := true } else r }
    let k := x.2.faultKind
    s.returnFault x.2.wid x.2.lanes x.2.pc k.1 k.2 x.2.va x.2.emu (.req x.1 x.2.id)) s

/-- R168: the kind and the engine of a read's fault. -/
def PendKind.faultKind : PendKind → Nat × Nat
  | .bound _ _ _ _ => (9, 4)
  | _ => (1, 0)

/-- R456, R457: some of the reads that go to their targets without a request of the core come back.
DESIGN CHOICE, log 66. -/
def State.returnLoads (s : State) (a b wid : Nat) : State :=
  match s.warp? wid, s.team? (wid / 32) with
  | some w, some t =>
    match farEnd a b (socketOf t.core) with
    | none => s
    | some far =>
      w.pend.foldl (fun s p =>
        let asked := match p.kind with
          | .reply _ => true
          | .load l _ _ _ => l.any fun x => x.loc.sp.homed
          | _ => false
        if p.returned || asked || !p.kind.reads.any fun x => s.locSocket (socketOf t.core) x.1 == far then s
        else
          let (k, s) := s.choose 2
          if k = 0 then s
          else
            let s := s.modWarp wid fun w => { w with pend := w.pend.map fun q => if q.seq == p.seq then { q with returned := true } else q }
            let f := p.kind.faultKind
            s.returnFault wid p.lanes p.pc f.1 f.2 (((p.vas.head?).map (·.2)).getD 0) p.emu (.pend wid p.seq)) s
  | _, _ => s

/-- The state in which what lies on a socket is not reached, to find the accesses that use a link toward it. -/
def State.cut (s : State) (far : Nat) : State := { s with outOfService := s.outOfService ++ [(far, 7, 0)] }

/-- The state after a trial, with what the trial changed besides the operation put back; its fault is a link's error response. -/
def State.uncut (s t : State) (op : AsyncOp) : State :=
  ({ t with outOfService := s.outOfService, poison := s.poison } : State).modGrid op.gid fun g =>
    { g with faults := g.faults.map fun e => if e.who == .op op.id && e.ftype == 3 then { e with ftype := 4 } else e }

/-- A fault of the operation waits to be recorded. -/
def State.faulted (s : State) (op : AsyncOp) : Bool :=
  (s.grid? op.gid).any fun g => g.faults.any fun e => e.who == .op op.id

/-- R166, R457: a copy's chunk or a render operation's access that uses the link comes back, and the operation is suspended there.
DESIGN CHOICE, log 66. -/
def State.returnOp (s : State) (far : Nat) (o : AsyncOp) : State :=
  let trial := s.cut far
  match o.kind with
  | .dice _ | .rast _ | .rslv _ =>
    match s.renderStep o, trial.renderStep o with
    | .fault _ _ _ _, _ => s
    | _, .fault kind va 3 t => s.uncut (t.suspendOp o kind 4 0 va 3) o
    | _, _ => s
  | .dieCopy _ d _ grp =>
    if ((s.grid? o.gid).map fun g => g.dieSocket grp) == some far then s.suspendOp o 5 1 o.done (scratchWindow + d + o.done) 4 else s
  | kd =>
    let here := match kd with
      | .peerCopy _ d _ _ => if far = 0 then some (d + o.done) else none
      | _ => none
    let t := trial.copyChunk o
    if (s.copyChunk o).faulted o then s
    else if t.faulted o then s.uncut t o
    else match here with
      | some va => s.suspendOp o 5 1 o.done va 4
      | none => s

/-- R457: some of the copies and render operations whose next access uses the link are suspended. DESIGN CHOICE, log 66. -/
def State.returnOps (s : State) (a b : Nat) : State :=
  s.ops.foldl (fun s o =>
    match ((s.team? o.tid).map fun t => socketOf t.core).bind (farEnd a b) with
    | none => s
    | some far =>
      if o.suspended || (0 < o.kind.len && o.kind.len ≤ o.done) || !s.opMayStart o o.kind.spaces then s
      else
        let (k, s) := s.choose 2
        if k = 0 then s else s.returnOp far o) s

/-- R457, R471: requests of the application cores and of Summit that were on a link of socket 0 come back with a record each: how
many, of which of them and for which address is free. DESIGN CHOICE, log 66. -/
def State.returnSummit (s : State) (a b : Nat) : State :=
  if a != 0 && b != 0 then s
  else
    (List.range (Config.freeNat s.fresh)).foldl (fun s _ =>
      let (k, s) := s.choose 9
      { s.errRecord (s.errOf ⟨0, 0xFF, k⟩ 5 0 (Config.freeNat s.fresh % 2 ^ 52)) with fresh := s.fresh + 1 })
      { s with fresh := s.fresh + 1 }

/-- R456: the relay between two sockets. -/
def State.relay (s : State) (a b : Nat) : Option Nat :=
  let up := fun (x y : Nat) => !s.links.contains (min x y, max x y)
  (0 :: (sockets.filter fun d => (s.die d).inService) ++ ((List.range 6).map (7 + ·)).filter s.memUp).find? fun r =>
    r != a && r != b && up a r && up b r

/-- R455: the attachment of a die fails; a unit in the list with itself as its peer is the model's code for it. DEDUCED, log 66. -/
def State.failAttachment (s : State) (d : Nat) : State :=
  if d = 0 || 12 < d then s else s.leaveService ⟨d, 7, 0⟩ 0 0

/-- R455, R456: a link fails, or, where both ends are one die, its attachment; without a relay a socket leaves service.
DESIGN CHOICE, log 66. -/
def State.failLink (s : State) (a b : Nat) : State :=
  let key := (min a b, max a b)
  if a == b then s.failAttachment a
  else if 12 < a || 12 < b || s.links.contains key then s
  else
    let s := { s with links := s.links ++ [key] }
    let s := (s.returnReqs a b).returnReqs b a
    let s := s.warps.foldl (fun s w => s.returnLoads a b w.1) s
    let s := (s.returnOps a b).returnSummit a b
    let s := s.errRecord (s.errOf ⟨key.1, 5, key.2⟩ 3 0 0)
    match s.relay a b with
    | some _ => s
    | none => s.leaveService ⟨if a = 0 then b else if b = 0 then a else max a b, 7, 0⟩ 0 0

def execLinkFailure (a b : Nat) (s : State) : Out := .next (s.failLink a b)

/-- R348, R467: an Exward link fails or the peer refuses: the port's copies are suspended. -/
def execExwardLinkFailure (port : Nat) (s : State) : Out :=
  if s.mg.peerMask / 2 ^ port % 2 = 0 then .next s
  else
    let s := s.ops.foldl (fun s o =>
      match o.kind with
      | .peerCopy _ d n p => if p == port && !o.suspended && o.done < n then s.suspendOp o 5 1 o.done (d + o.done) 4 else s
      | _ => s) s
    .next { s with mg := { s.mg with peerMask := s.mg.peerMask &&& (15 ^^^ 2 ^ port) } }

/-! ## Errors (R468, R469) -/

/-- R468: a structure instance of the table. -/
def ErrUnit.valid (u : ErrUnit) : Bool :=
  match u.code with
  | 0 | 1 => 1 ≤ u.socket && u.socket ≤ 6 && u.unit < 24
  | 2 => 1 ≤ u.socket && u.socket ≤ 6 && u.unit < 8
  | 3 => 7 ≤ u.socket && u.socket ≤ 12 && u.unit < 16
  | 4 => 7 ≤ u.socket && u.socket ≤ 12 && u.unit < 4
  | 5 => u.socket ≤ 12 && u.unit ≤ 12 && !(u.socket == 0 && u.unit == 0)
  | 6 => u.socket = 0 && u.unit < 8
  | _ => false

/-- R468: the corrected errors of the instance in the last 60 s, with this one. -/
def State.countErr (s : State) (u : ErrUnit) : Nat × State :=
  let mine := fun (x : Nat × Nat × Nat × Nat) => x.1 == u.socket && x.2.1 == u.code && x.2.2.1 == u.unit
  let win := s.errWin.filter (fun x => !mine x || s.ns < x.2.2.2 + 60000000000) ++ [(u.socket, u.code, u.unit, s.ns)]
  ((win.filter mine).length, { s with errWin := win, corrTotal := s.corrTotal + 1 })

/-- R468: at the threshold the instance is taken out of service; a Summit core is halted and reloaded, and its count starts
again. DEDUCED, log 68. -/
def State.atThreshold (s : State) (u : ErrUnit) (n addr : Nat) : State :=
  match u.code with
  | 5 => s.failLink u.socket u.unit
  | 6 =>
    let s := { s with errWin := s.errWin.filter fun x => !(x.1 == 0 && x.2.1 == 6 && x.2.2.1 == u.unit) }
    if u.unit = 1 then s.reloadScheduler [] true else s
  | _ => s.leaveService u n addr

/-- R468, R471. DEDUCED, log 68. -/
def State.correctedErr (s : State) (u : ErrUnit) (addr : Nat) : State :=
  let (n, s) := s.countErr u
  let s := s.errRecord (s.errOf u 0 n addr)
  if s.mg.errThresh ≤ n then s.atThreshold u n addr else s

def execCorrectedError (u : ErrUnit) (addr : Nat) (s : State) : Out := .next (if ErrUnit.valid u then s.correctedErr u addr else s)

/-- R469: of some grids, those whose state lay in the failed word are terminated; which of them is free, but at most one.
DESIGN CHOICE, log 57. -/
def State.loseWord (s : State) (gids : List Nat) : State :=
  let gids := gids.foldl (fun l g => if l.contains g then l else l ++ [g]) []
  let (k, s) := s.choose (gids.length + 1)
  match gids[k]? with
  | some g => s.terminateGrid g .termFault 0
  | none => s

/-- The grids with teams on a core. -/
def State.gridsOn (s : State) (core : Nat) : List Nat := (s.placedOn core).map (·.2.gid)

/-- R469: an uncorrectable error. In code 1 a clean line is discarded; an update-only line has its only copy there. In code 2
a hall is clean that nobody holds, that nothing is carved from and whose contents await no holder of a live grid (R158).
DEDUCED, log 37; DESIGN CHOICE, log 57. -/
def State.uncorrectable (s : State) (u : ErrUnit) (addr : Nat) : State :=
  let core := u.socket * 32 + u.unit
  let line := addr / 128
  match u.code with
  | 0 => ((s.loseWord (s.gridsOn core)).errRecord (s.errOf u 1 0 addr)).leaveService u 0 addr
  | 1 =>
    if (s.core core).isUpd line then
      ((s.loseWord (s.gridsOn core)).errRecord (s.errOf u 1 0 addr)).leaveService u 0 addr
    else
      let s := s.modCore core fun k => { k.dropWords line (BitVec.allOnes 32) with ccache := tdel k.ccache line }
      s.errRecord (s.errOf u 1 0 addr)
  | 2 =>
    let h := s.hall u.socket u.unit
    let gids := h.grid.toList ++ h.carved.map (·.2)
    if h.holder.isNone && h.carved.isEmpty && !(h.grid.bind s.grid?).any (·.st == .live) then s.errRecord (s.errOf u 1 0 addr)
    else ((s.loseWord gids).errRecord (s.errOf u 1 0 addr)).leaveService u 0 addr
  | 3 | 4 =>
    let s := s.errRecord (s.errOf u 1 0 addr)
    ({ s with poison := if s.poison.contains line then s.poison else s.poison ++ [line] } : State).correctedErr u addr
  | _ => s.errRecord (s.errOf u 1 0 addr)

def execUncorrectableError (u : ErrUnit) (addr : Nat) (s : State) : Out := .next (if ErrUnit.valid u then s.uncorrectable u addr else s)

/-- R460, R471: a blocked access is counted. -/
def State.violation (s : State) (socket unit addr : Nat) : State := s.errRecord (s.errOf ⟨socket, 0xFF, unit⟩ 4 0 addr)

def execFilterViolation (socket : Nat) (unit : Nat) (addr : Nat) (s : State) : Out := .next (s.violation socket unit addr)

/-! ## Telemetry and power (R472, R473) -/

/-- The hottest die. -/
def Sensors.tmax (x : Sensors) : Nat := x.temps.foldl max 0

/-- R472: a telemetry record. DESIGN CHOICE, log 13. -/
def State.telemetry (s : State) (x : Sensors) : List Byte :=
  natBytes 8 (s.ns - s.resetNs) ++ natBytes 2 x.power ++ natBytes 2 s.mg.pwrLimit ++ natBytes 2 s.power.clkMhz ++
  natBytes 1 (Sensors.tmax x) ++ natBytes 1 s.power.tstate ++ (List.range 13).flatMap (fun i => natBytes 1 ((x.temps[i]?).getD 0)) ++
  natBytes 1 x.coolant ++ natBytes 2 0 ++ natBytes 8 s.corrTotal ++ natBytes 8 s.gridsRetired ++ natBytes 8 x.linkBytes ++
  natBytes 8 0

/-- R472: the record is written, or lost when the ring is full; the telemetry core writes none while it is held (R461).
DEDUCED, log 84. -/
def execTelemetryRecord (x : Sensors) (s : State) : Out :=
  let g := s.mg
  if ringFree g.telRing g.telWr g.telRd && !s.trust.held.contains 7 then
    let s := s.pwrite (ringSlot g.telRing g.telWr 64) (s.telemetry x)
    .next { s with mg := { s.mg with telWr := g.telWr + 1, int_ := g.int_ ||| 8 } }
  else .next s

/-- R473: the state of the limits; where both are exceeded, which of the two is shown is free. DESIGN CHOICE, log 56. -/
def State.limitState (s : State) (x : Sensors) : Nat × State :=
  let p : Bool := s.mg.pwrLimit < x.power
  let t : Bool := 95 < Sensors.tmax x
  if p && t then
    let (k, s) := s.choose 2
    (k + 1, s)
  else (if t then 2 else if p then 1 else 0, s)

/-- R473. DESIGN CHOICE, log 56. -/
def execPowerControlTick (x : Sensors) (s : State) : Out :=
  let (ts, s) := s.limitState x
  let above : Bool := s.mg.pwrLimit < x.power || 95 < Sensors.tmax x
  let under : Bool := 100 * x.power ≤ 95 * s.mg.pwrLimit && Sensors.tmax x ≤ 92
  let c := s.power.clkMhz
  let c := if above then max 1200 (c - 100) else if under then min 2900 (c + 100) else c
  let th : BitVec 6 := if ts = s.power.tstate then 0 else 0x10
  .next { s with power := { clkMhz := c, tstate := ts, pwr := x.power }, mg := { s.mg with int_ := s.mg.int_ ||| th } }

/-- R467, R473: a die at 110 °C halts every core of the module. -/
def execThermalShutdown (_socket : Nat) (s : State) : Out := .next (s.haltModule 4)

/-! ## Outside agents (R195, R413, R460, R464 to R466) -/

/-- R460: the application cluster's filters admit an access. DESIGN CHOICE, log 59. -/
def State.cpuMay (s : State) (write : Bool) (a n : Nat) : Bool :=
  (s.trust.filters.any fun f => f.agent == 8 && f.base ≤ a && a + n ≤ f.limit && (if write then f.w else f.r)) &&
  (2 ^ 48 ≤ a || a + n ≤ s.osLimit)

/-- R433: the queue whose doorbell page holds a physical address, with the offset in the page. -/
def State.doorbellAt (s : State) (a : Nat) : Option (Nat × Nat) :=
  (s.liveQueues.find? fun q => Config.doorbellPage q.1 / 16384 == a / 16384).map fun q => (q.1, a % 16384)

/-- R466: a store to the management window. DESIGN CHOICE, log 59. -/
def State.mgStore (s : State) (off : Nat) (bs : List Byte) : State :=
  if bs.length != 8 || off % 8 != 0 then s
  else s.mgWrite off (w64 (leNat bs))

/-- Bytes whose values the spec does not state. DESIGN CHOICE, log 12. -/
def State.freeBytes (s : State) (n : Nat) : List Byte × State :=
  ((List.range n).map fun i => Config.freeByte (s.fresh + i), { s with fresh := s.fresh + n })

/-- R195, R413, R441, R460, R466: an application core's load or store; what a load reads is in `hostRead`.
DESIGN CHOICE, log 59. -/
def execApplicationCoreAccess (write : Bool) (addr : Nat) (bytes : List Byte) (s : State) : Out :=
  let n := bytes.length
  match s.doorbellAt addr with
  | some (_, _ + 1) => .next (if write then s else { s with hostRead := natBytes n 0 })
  | some (q, 0) =>
    if write then .next { s with inputs := s.inputs ++ [.doorbellWrite q (BitVec.ofNat 32 (leNat bytes))] }
    else
      let (bs, s) := s.freeBytes n
      .next { s with hostRead := bs }
  | none =>
    if !s.cpuMay write addr n then .next (s.violation 0 8 addr)
    else if addr / 2 ^ 48 = 0 then
      if write then .next (s.pwrite addr bytes).settleFaultInt
      else
        let s := (List.range (n / 128 + 2)).foldl (fun s i => s.recall none (min (addr + 128 * i) (addr + n - 1) / 128)) s
        .next { s with hostRead := s.peek addr n }
    else if addr / 2 ^ 48 = 1 then
      let off := addr % 2 ^ 48
      if write then .next (s.mgStore off bytes)
      else .next { s with hostRead := natBytes n (if n = 8 && off % 8 = 0 then s.mgRead off else 0) }
    else if write then .next { s with pcieOut := s.pcieOut ++ [(addr % 2 ^ 48, bytes)] }
    else
      let (bs, s) := s.freeBytes n
      .next { s with hostRead := bs }

/-- R195, R460, R465: a device's write, performed at its homes; it reaches region 0 below the range the device keeps. -/
def execPcieWrite (_port : Nat) (_relaxed : Bool) (addr : Nat) (bytes : List Byte) (s : State) : Out :=
  .next (if addr + bytes.length ≤ s.osLimit then (s.pwrite addr bytes).settleFaultInt else s.violation 0 8 addr)

/-- R195, R465: a device's read returns the values at the target. -/
def execPcieDeviceRead (_port : Nat) (addr : Nat) (len : Nat) (s : State) : Out :=
  if addr + len ≤ s.osLimit then
    let s := (List.range (len / 128 + 2)).foldl (fun s i => s.recall none (min (addr + 128 * i) (addr + len - 1) / 128)) s
    .next { s with hostRead := s.peek addr len }
  else .next (s.violation 0 8 addr)

/-- R464: a peer's write to a bound address space is performed at its homes. -/
def execExwardPeerWrite (port : Nat) (asid : Nat) (va : Nat) (bytes : List Byte) (s : State) : Out :=
  .next (if s.peers.any fun x => x.1 == port && x.2.1 == asid then s.vwrite asid va bytes else s)

end Sys2Proof.Machine
end

