-- ==== Sys2Proof/Machine/Lanes.lean ====
section
/-! DEFINITION. Cross-lane instructions: lane groups, the lane network, slides, votes, reductions, matching (R295 to
R305). -/

namespace Sys2Proof.Machine

open Sys2Proof

/-! ## Lane groups (R295) -/

def Wid.lanes : Wid → Nat
  | .w32 => 32
  | .w16 => 16
  | .w8 => 8
  | .w4 => 4

/-- The first lane of a lane's group. -/
def groupBase (w l : Nat) : Nat := w * (l / w)

/-- The participating lanes of a lane's group, in increasing order. -/
def peers (on : Mask) (w l : Nat) : List Nat := (lanesOf on).filter fun j => groupBase w j == groupBase w l

/-- R295: a moved value, read from any lane. -/
def Ctx.moved (c : Ctx) (x : Src) (l : Nat) : W32 :=
  match x with
  | .vec _ i => cget c.w.vec (i.toNat * 32 + l)
  | _ => 0

/-! ## The lane network (R296 to R298) -/

/-- R296: the position bit that stage `s` pairs. -/
def stageBit (s : Nat) : Nat := if s ≤ 4 then 4 - s else s - 4

/-- R296: the lower position of switch `w` of a stage for bit `b`. -/
def switchLo (b w : Nat) : Nat := w / 2 ^ b * 2 ^ (b + 1) + w % 2 ^ b

/-- The switch of a stage for bit `b` that a position belongs to. -/
def switchOf (b p : Nat) : Nat := p / 2 ^ (b + 1) * 2 ^ b + p % 2 ^ b

/-- R296: one stage: the index from which position `p` takes its value. -/
def stageFrom (n : BitVec 144) (s p : Nat) : Nat :=
  let b := stageBit s
  if n.getLsbD (16 * s + switchOf b p) then p ^^^ 2 ^ b else p

/-- R296 `perm_route`: the lane whose value lane `l` receives, for group width `w`. -/
def permFrom (n : BitVec 144) (w l : Nat) : Nat :=
  (List.range 9).foldr (fun s p => if 2 ^ stageBit s < w then stageFrom n s p else p) l

/-- R298: the completed permutation: entries that a lower lane holds are replaced by the values no lane holds. -/
def completePerm (e : List Nat) : List Nat :=
  let keep := (List.range 32).map fun l => !(e.take l).contains (e[l]?.getD 0)
  let held := (List.range 32).filter fun v => ((List.range 32).any fun l => keep[l]?.getD false && e[l]?.getD 0 == v)
  let free := (List.range 32).filter fun v => !held.contains v
  ((List.range 32).foldl (fun (acc : List Nat × List Nat) l =>
    if keep[l]?.getD false then (acc.1 ++ [e[l]?.getD 0], acc.2)
    else (acc.1 ++ [acc.2.headD 0], acc.2.drop 1)) ([], free)).1

/-- R298: the smallest width that keeps every value of the permutation in its group. -/
def permWidth (p : List Nat) : Nat :=
  ([2, 4, 8, 16].find? fun w => (List.range 32).all fun l => groupBase w l == groupBase w (p[l]?.getD 0)).getD 32

/-- R298: a word realises a permutation and leaves every switch of the stages between groups at 0. -/
def netOk (n : BitVec 144) (p : List Nat) : Bool :=
  (List.range 32).all (fun l => permFrom n 32 l == p[l]?.getD 0) &&
  (List.range 9).all fun s => 2 ^ stageBit s < permWidth p || n.extractLsb' (16 * s) 16 == 0

/-- Follow one loop of the network: output `i` uses the lower half, its partner the upper one. -/
def colourLoop (half : Nat) (p : List Nat) : Nat → Nat → Tbl Nat → Tbl Nat
  | 0, _, t => t
  | fuel + 1, i, t =>
    match tget t i with
    | some _ => t
    | none =>
      let j := (i + half) % (2 * half)
      let t := tset (tset t i 0) j 1
      let v := p[j]?.getD 0
      colourLoop half p fuel (p.findIdx (· == (v + half) % (2 * half))) t

/-- The half of the network that each output uses. -/
def colours (half : Nat) (p : List Nat) : Tbl Nat :=
  (List.range (2 * half)).foldl (fun t i => colourLoop half p (2 * half + 1) i t) []

/-- The switches to set, as bit numbers of the control word, to route `p` over the positions from `base`; output i takes
the value at p[i]. -/
def routeBits : Nat → Nat → List Nat → List Nat
  | 0, base, p => if p.headD 0 = 1 then [16 * 4 + switchOf 0 base] else []
  | b + 1, base, p =>
    let half := 2 ^ (b + 1)
    let t := colours half p
    let side := fun i => (tget t i).getD 0
    let first := (List.range half).filter fun k => side (p.findIdx (· == k)) == 1
    let last := (List.range half).filter fun k => side k == 1
    let sub := fun u => (List.range half).map fun k =>
      (p[(if side k == u then k else k + half)]?.getD 0) % half
    first.map (fun k => 16 * (4 - (b + 1)) + switchOf (b + 1) (base + k)) ++
    last.map (fun k => 16 * (4 + (b + 1)) + switchOf (b + 1) (base + k)) ++
    routeBits b base (sub 0) ++ routeBits b (base + half) (sub 1)

/-- A word that realises a permutation under R298. DESIGN CHOICE, log 13. -/
def netWord (p : List Nat) : BitVec 144 :=
  let w := permWidth p
  let bits := (List.range (32 / w)).flatMap fun g =>
    routeBits (w.log2 - 1) (g * w) ((List.range w).map fun i => (p[g * w + i]?.getD 0) - g * w)
  bits.foldl (fun n k => n ||| (1#144 <<< k)) 0

/-- R298 `SETNET.raw`. -/
def execSetnetRaw (f : Fmt) (s : State) : Out :=
  s.counted (.setnetRaw f) 1 (s.run (.setnetRaw f) fun c on =>
    match f.a, f.d with
    | .uni i, .cls3 d =>
      let k := fun j => cget c.w.uni (i.toNat + j)
      let v : BitVec 144 := (k 4).extractLsb' 0 16 ++ (k 3 ++ (k 2 ++ (k 1 ++ k 0)))
      s.finish c f on c.lanes (if on = 0 then c.w else c.w.setNet d.toNat v)
    | _, _ => s)

/-- R298 `SETNET.perm`: which of the words that realise the permutation is written is free. -/
def execSetnetPerm (f : Fmt) (s : State) : Out :=
  s.counted (.setnetPerm f) 1 (s.run (.setnetPerm f) fun c on =>
    match f.d with
    | .cls3 d =>
      let p := completePerm ((List.range 32).map fun l => (c.moved f.a l).toNat % 32)
      let free := Config.freeNet s.fresh
      let v := if netOk free p then free else netWord p
      if on = 0 then s.finish c f on c.lanes c.w
      else ({ s with fresh := s.fresh + 1 } : State).finish c f on c.lanes (c.w.setNet d.toNat v)
    | _ => s)

/-- R297. -/
def execPerm (f : Fmt) (w : Wid) (s : State) : Out :=
  s.counted (.perm f w) 1 (s.alu1 (.perm f w) f fun c l =>
    match f.b with
    | .net i => c.moved f.a (permFrom (cget c.w.net i.toNat) (Wid.lanes w) l)
    | _ => 0)

/-! ## Slides and broadcasts (R300, R301) -/

/-- R300: the lane a slide takes its value from. -/
def slideFrom (down : Bool) (w k l : Nat) : Option Nat :=
  let i := l - groupBase w l
  if down then (if i + k < w then some (groupBase w l + (i + k)) else none)
  else if k ≤ i then some (groupBase w l + (i - k)) else none

/-- R300. -/
def execSlide (f : Fmt) (imm : BitVec 20) (down : Bool) (w : Wid) (fillC : Bool) (s : State) : Out :=
  s.counted (.slide f imm down w fillC) 1 (s.alu1 (.slide f imm down w fillC) f fun c l =>
    match slideFrom down (Wid.lanes w) (s.src c imm .raw f.b l).toNat l with
    | some j => c.moved f.a j
    | none => if fillC then s.src c imm .raw f.c l else 0)

/-- R301. -/
def execBcast (f : Fmt) (imm : BitVec 20) (w : Wid) (s : State) : Out :=
  s.counted (.bcast f imm w) 1 (s.alu1 (.bcast f imm w) f fun c l =>
    c.moved f.a (groupBase (Wid.lanes w) l + (s.src c imm .raw f.b l).toNat % Wid.lanes w))

/-! ## Votes and election (R302, R303) -/

/-- R302: the result in a lane from the values of the participating lanes of its group. -/
def voteVal (op : VOp) (vals : List (Nat × W32)) : W32 :=
  match op with
  | .all => boolWord (vals.all fun x => x.2 != 0)
  | .any => boolWord (vals.any fun x => x.2 != 0)
  | .ballot => maskOf ((vals.filter fun x => x.2 != 0).map (·.1))
  | .uni => boolWord (vals.all fun x => x.2 == (vals.head?.map (·.2)).getD 0)

/-- R302. -/
def execVote (f : Fmt) (op : VOp) (w : Wid) (s : State) : Out :=
  s.counted (.vote f op w) 1 (s.alu1 (.vote f op w) f fun c l =>
    voteVal op ((peers (c.on f.g) (Wid.lanes w) l).map fun j => (j, s.src c 0 .raw f.a j)))

/-- R303. -/
def execElect (f : Fmt) (w : Wid) (s : State) : Out :=
  s.counted (.elect f w) 1 (s.alu1 (.elect f w) f fun c l => boolWord ((peers (c.on f.g) (Wid.lanes w) l).head? == some l))

/-! ## Reductions and scans (R304) -/

/-- R304: an operation with its identity. -/
def ropIdent : ROp → W32
  | .addS | .maxN | .or | .xor => 0
  | .minS => 0x7FFFFFFF
  | .maxS => 0x80000000
  | .minN | .and => 0xFFFFFFFF

def ropApply (op : ROp) (a b : W32) : W32 :=
  match op with
  | .addS => a + b
  | .minS => if a.toInt ≤ b.toInt then a else b
  | .maxS => if a.toInt ≤ b.toInt then b else a
  | .minN => if a.toNat ≤ b.toNat then a else b
  | .maxN => if a.toNat ≤ b.toNat then b else a
  | .and => a &&& b
  | .or => a ||| b
  | .xor => a ^^^ b

/-- R304: the type of source A. -/
def ropTy (op : ROp) : Ty := if op.typed then .int 32 else .raw

/-- The reduction of the values of some lanes. -/
def State.reduce (s : State) (c : Ctx) (f : Fmt) (op : ROp) (lanes : List Nat) : W32 :=
  lanes.foldl (fun acc j => ropApply op acc (s.src c 0 (ropTy op) f.a j)) (ropIdent op)

/-- R304. -/
def execRedux (f : Fmt) (op : ROp) (w : Wid) (s : State) : Out :=
  s.counted (.redux f op w) 1 (s.alu1 (.redux f op w) f fun c l => s.reduce c f op (peers (c.on f.g) (Wid.lanes w) l))

/-- R304. -/
def execScan (f : Fmt) (op : ROp) (w : Wid) (excl : Bool) (s : State) : Out :=
  s.counted (.scan f op w excl) 1 (s.alu1 (.scan f op w excl) f fun c l =>
    s.reduce c f op ((peers (c.on f.g) (Wid.lanes w) l).filter fun j => if excl then j < l else j ≤ l))

/-! ## Matching keys (R305) -/

/-- R305. -/
def keyEq (b : MatchBy) (x y : W32) : Bool :=
  match b with
  | .f32 => ((f32 x).isNaN && (f32 y).isNaN) || fvEq (f32 x) (f32 y)
  | _ => x == y

/-- R305: the type of the key. -/
def keyTy : MatchBy → Ty
  | .bits => .raw
  | .f32 => .flt 32
  | _ => .int 32

/-- R305. -/
def execMatchK (f : Fmt) (by_ : MatchBy) (w : Wid) (s : State) : Out :=
  s.counted (.matchK f by_ w) 1 (s.alu1 (.matchK f by_ w) f fun c l =>
    let key := fun j => s.src c 0 (keyTy by_) f.a j
    maskOf ((peers (c.on f.g) (Wid.lanes w) l).filter fun j => keyEq by_ (key l) (key j)))

end Sys2Proof.Machine
end

