-- ==== Sys2Proof/Machine/Dispatch.lean ====
section
/-! DEFINITION. The meaning of every instruction, one arm per constructor. -/

namespace Sys2Proof.Machine

open Sys2Proof

def exec (i : Instr) (s : State) : Host.Outcome State Fault Refusal :=
  match i with
  | .nop h => Sys2Proof.Machine.execNop h s
  | .iadd f imm t sat => Sys2Proof.Machine.execIadd f imm t sat s
  | .isub f imm t sat => Sys2Proof.Machine.execIsub f imm t sat s
  | .imul f imm t => Sys2Proof.Machine.execImul f imm t s
  | .imulh f imm t => Sys2Proof.Machine.execImulh f imm t s
  | .imad f imm t sat => Sys2Proof.Machine.execImad f imm t sat s
  | .imadw f imm t => Sys2Proof.Machine.execImadw f imm t s
  | .imin f imm t => Sys2Proof.Machine.execImin f imm t s
  | .imax f imm t => Sys2Proof.Machine.execImax f imm t s
  | .iabs f imm t sat => Sys2Proof.Machine.execIabs f imm t sat s
  | .andB f imm => Sys2Proof.Machine.execAndB f imm s
  | .orB f imm => Sys2Proof.Machine.execOrB f imm s
  | .xorB f imm => Sys2Proof.Machine.execXorB f imm s
  | .andnB f imm => Sys2Proof.Machine.execAndnB f imm s
  | .notB f imm => Sys2Proof.Machine.execNotB f imm s
  | .shl f imm => Sys2Proof.Machine.execShl f imm s
  | .shr f imm => Sys2Proof.Machine.execShr f imm s
  | .sar f imm => Sys2Proof.Machine.execSar f imm s
  | .rotl f imm => Sys2Proof.Machine.execRotl f imm s
  | .funsh f imm right => Sys2Proof.Machine.execFunsh f imm right s
  | .bfx f imm t => Sys2Proof.Machine.execBfx f imm t s
  | .bfi f imm => Sys2Proof.Machine.execBfi f imm s
  | .popc f imm => Sys2Proof.Machine.execPopc f imm s
  | .clz f imm => Sys2Proof.Machine.execClz f imm s
  | .ctz f imm => Sys2Proof.Machine.execCtz f imm s
  | .brev f imm => Sys2Proof.Machine.execBrev f imm s
  | .iset f imm form t cmp => Sys2Proof.Machine.execIset f imm form t cmp s
  | .set64 f imm form uns cmp => Sys2Proof.Machine.execSet64 f imm form uns cmp s
  | .sel f imm => Sys2Proof.Machine.execSel f imm s
  | .lea f off shift => Sys2Proof.Machine.execLea f off shift s
  | .add64 f imm => Sys2Proof.Machine.execAdd64 f imm s
  | .sub64 f imm => Sys2Proof.Machine.execSub64 f imm s
  | .mov f imm mode => Sys2Proof.Machine.execMov f imm mode s
  | .movi f imm form => Sys2Proof.Machine.execMovi f imm form s
  | .pset f op => Sys2Proof.Machine.execPset f op s
  | .pmov f form => Sys2Proof.Machine.execPmov f form s
  | .fadd f imm t r sat => Sys2Proof.Machine.execFadd f imm t r sat s
  | .fsub f imm t r sat => Sys2Proof.Machine.execFsub f imm t r sat s
  | .fmul f imm t r sat => Sys2Proof.Machine.execFmul f imm t r sat s
  | .ffma f imm t r sat => Sys2Proof.Machine.execFfma f imm t r sat s
  | .fmin f imm t => Sys2Proof.Machine.execFmin f imm t s
  | .fmax f imm t => Sys2Proof.Machine.execFmax f imm t s
  | .fset f imm form t cmp unord => Sys2Proof.Machine.execFset f imm form t cmp unord s
  | .frnd f imm t r => Sys2Proof.Machine.execFrnd f imm t r s
  | .fclas f imm t => Sys2Proof.Machine.execFclas f imm t s
  | .fscl f imm r => Sys2Proof.Machine.execFscl f imm r s
  | .sfu f imm op => Sys2Proof.Machine.execSfu f imm op s
  | .sfuQueueEntry part => Sys2Proof.Machine.execSfuQueueEntry part s
  | .sfuResultWrite part op => Sys2Proof.Machine.execSfuResultWrite part op s
  | .cvtTo f imm r slot => Sys2Proof.Machine.execCvtTo f imm r slot s
  | .cvtFrom f imm slot => Sys2Proof.Machine.execCvtFrom f imm slot s
  | .cvtiI2f f imm t r => Sys2Proof.Machine.execCvtiI2f f imm t r s
  | .cvtiF2i f imm t r sat => Sys2Proof.Machine.execCvtiF2i f imm t r sat s
  | .pack f imm w sat => Sys2Proof.Machine.execPack f imm w sat s
  | .unpk f imm w => Sys2Proof.Machine.execUnpk f imm w s
  | .dp2 f sh => Sys2Proof.Machine.execDp2 f sh s
  | .dp4 f imm t => Sys2Proof.Machine.execDp4 f imm t s
  | .dp8 f imm => Sys2Proof.Machine.execDp8 f imm s
  | .hdp2 f imm t r => Sys2Proof.Machine.execHdp2 f imm t r s
  | .pairedWord g h h1 h2 => Sys2Proof.Machine.execPairedWord g h h1 h2 s
  | .setnetRaw f => Sys2Proof.Machine.execSetnetRaw f s
  | .setnetPerm f => Sys2Proof.Machine.execSetnetPerm f s
  | .perm f w => Sys2Proof.Machine.execPerm f w s
  | .slide f imm down w fillC => Sys2Proof.Machine.execSlide f imm down w fillC s
  | .bcast f imm w => Sys2Proof.Machine.execBcast f imm w s
  | .vote f op w => Sys2Proof.Machine.execVote f op w s
  | .elect f w => Sys2Proof.Machine.execElect f w s
  | .redux f op w => Sys2Proof.Machine.execRedux f op w s
  | .scan f op w excl => Sys2Proof.Machine.execScan f op w excl s
  | .matchK f by_ w => Sys2Proof.Machine.execMatchK f by_ w s
  | .bra f off => Sys2Proof.Machine.execBra f off s
  | .brx f => Sys2Proof.Machine.execBrx f s
  | .call f off => Sys2Proof.Machine.execCall f off s
  | .callx f => Sys2Proof.Machine.execCallx f s
  | .ret f => Sys2Proof.Machine.execRet f s
  | .loop f endN cnt => Sys2Proof.Machine.execLoop f endN cnt s
  | .exit f => Sys2Proof.Machine.execExit f s
  | .join f => Sys2Proof.Machine.execJoin f s
  | .leave f => Sys2Proof.Machine.execLeave f s
  | .waitm f => Sys2Proof.Machine.execWaitm f s
  | .mset f => Sys2Proof.Machine.execMset f s
  | .mget f => Sys2Proof.Machine.execMget f s
  | .trap f code => Sys2Proof.Machine.execTrap f code s
  | .bkpt f code => Sys2Proof.Machine.execBkpt f code s
  | .rte f => Sys2Proof.Machine.execRte f s
  | .emur f shiftRes => Sys2Proof.Machine.execEmur f shiftRes s
  | .srd f => Sys2Proof.Machine.execSrd f s
  | .swr f => Sys2Proof.Machine.execSwr f s
  | .nonInstructionEncoding w cause => Sys2Proof.Machine.execNonInstructionEncoding w cause s
  | .ld f size space ord scope off => Sys2Proof.Machine.execLd f size space ord scope off s
  | .st f size space ord scope off => Sys2Proof.Machine.execSt f size space ord scope off s
  | .ldc f wide off => Sys2Proof.Machine.execLdc f wide off s
  | .prf f l2 off => Sys2Proof.Machine.execPrf f l2 off s
  | .ldg f col e off => Sys2Proof.Machine.execLdg f col e off s
  | .stg f col e off => Sys2Proof.Machine.execStg f col e off s
  | .ldh f size off => Sys2Proof.Machine.execLdh f size off s
  | .sth f size off => Sys2Proof.Machine.execSth f size off s
  | .spl f off => Sys2Proof.Machine.execSpl f off s
  | .fil f off => Sys2Proof.Machine.execFil f off s
  | .atom f op t ord scope off => Sys2Proof.Machine.execAtom f op t ord scope off s
  | .cas f wide ord scope off => Sys2Proof.Machine.execCas f wide ord scope off s
  | .red f op t rel scope off => Sys2Proof.Machine.execRed f op t rel scope off s
  | .atomo f op t scope off => Sys2Proof.Machine.execAtomo f op t scope off s
  | .orderedAtomicApply grid item => Sys2Proof.Machine.execOrderedAtomicApply grid item s
  | .ldx f scope off => Sys2Proof.Machine.execLdx f scope off s
  | .fence f ord scope => Sys2Proof.Machine.execFence f ord scope s
  | .fencex f scope a b => Sys2Proof.Machine.execFencex f scope a b s
  | .probe f vcs => Sys2Proof.Machine.execProbe f vcs s
  | .flushProbeReturn wid vc dst => Sys2Proof.Machine.execFlushProbeReturn wid vc dst s
  | .cpy f dir tag => Sys2Proof.Machine.execCpy f dir tag s
  | .cpyt f col e rows tag => Sys2Proof.Machine.execCpyt f col e rows tag s
  | .cpyxDie f d tag => Sys2Proof.Machine.execCpyxDie f d tag s
  | .cpyxPeer f port tag => Sys2Proof.Machine.execCpyxPeer f port tag s
  | .copyChunkComplete op => Sys2Proof.Machine.execCopyChunkComplete op s
  | .asyncOperationComplete op => Sys2Proof.Machine.execAsyncOperationComplete op s
  | .twait f all acq => Sys2Proof.Machine.execTwait f all acq s
  | .tfst f => Sys2Proof.Machine.execTfst f s
  | .tclr f => Sys2Proof.Machine.execTclr f s
  | .barArv f lvl n => Sys2Proof.Machine.execBarArv f lvl n s
  | .barSync f lvl n => Sys2Proof.Machine.execBarSync f lvl n s
  | .pubq f j => Sys2Proof.Machine.execPubq f j s
  | .stairValueArrival grid core item ch => Sys2Proof.Machine.execStairValueArrival grid core item ch s
  | .stairStall wid => Sys2Proof.Machine.execStairStall wid s
  | .qstat f j k sel => Sys2Proof.Machine.execQstat f j k sel s
  | .nrec f node => Sys2Proof.Machine.execNrec f node s
  | .launch f => Sys2Proof.Machine.execLaunch f s
  | .chwait f all => Sys2Proof.Machine.execChwait f all s
  | .bkacq f => Sys2Proof.Machine.execBkacq f s
  | .bkdone f => Sys2Proof.Machine.execBkdone f s
  | .returnStackRefill die => Sys2Proof.Machine.execReturnStackRefill die s
  | .tdesc f => Sys2Proof.Machine.execTdesc f s
  | .mma f acc16 va slot col0 kstep => Sys2Proof.Machine.execMma f acc16 va slot col0 kstep s
  | .mxPassComplete core => Sys2Proof.Machine.execMxPassComplete core s
  | .mzero f g => Sys2Proof.Machine.execMzero f g s
  | .mlda f gal col0 => Sys2Proof.Machine.execMlda f gal col0 s
  | .msta f gal slot row0 col0 => Sys2Proof.Machine.execMsta f gal slot row0 col0 s
  | .mrd f row0 col => Sys2Proof.Machine.execMrd f row0 col s
  | .mwr f col => Sys2Proof.Machine.execMwr f col s
  | .mlds f gal e0 slot => Sys2Proof.Machine.execMlds f gal e0 slot s
  | .bndp f => Sys2Proof.Machine.execBndp f s
  | .dice f tag => Sys2Proof.Machine.execDice f tag s
  | .rast f grid tag => Sys2Proof.Machine.execRast f grid tag s
  | .rslv f tent tag => Sys2Proof.Machine.execRslv f tent tag s
  | .smplWr f e0 => Sys2Proof.Machine.execSmplWr f e0 s
  | .smplRd f e0 => Sys2Proof.Machine.execSmplRd f e0 s
  | .trace f mode mask pw miss => Sys2Proof.Machine.execTrace f mode mask pw miss s
  | .traceReturn id => Sys2Proof.Machine.execTraceReturn id s
  | .shaderBinLaunch die entry => Sys2Proof.Machine.execShaderBinLaunch die entry s
  | .shaderBinTimer die entry => Sys2Proof.Machine.execShaderBinTimer die entry s
  | .trhit f field => Sys2Proof.Machine.execTrhit f field s
  | .trqry f sel => Sys2Proof.Machine.execTrqry f sel s
  | .icacheFill grid core block => Sys2Proof.Machine.execIcacheFill grid core block s
  | .loadResultWrite wid => Sys2Proof.Machine.execLoadResultWrite wid s
  | .storeQueueDepart wid => Sys2Proof.Machine.execStoreQueueDepart wid s
  | .writeAcknowledge core req => Sys2Proof.Machine.execWriteAcknowledge core req s
  | .mergingFillReturn core line => Sys2Proof.Machine.execMergingFillReturn core line s
  | .l1Eviction core line => Sys2Proof.Machine.execL1Eviction core line s
  | .homeRecall line => Sys2Proof.Machine.execHomeRecall line s
  | .homeAluUpdate core req => Sys2Proof.Machine.execHomeAluUpdate core req s
  | .teamDispatch => Sys2Proof.Machine.execTeamDispatch s
  | .placementHold grid => Sys2Proof.Machine.execPlacementHold grid s
  | .paramLoad wid => Sys2Proof.Machine.execParamLoad wid s
  | .activeSetFill part => Sys2Proof.Machine.execActiveSetFill part s
  | .stalledWarpExchange part wid => Sys2Proof.Machine.execStalledWarpExchange part wid s
  | .pendingAgeExchange part => Sys2Proof.Machine.execPendingAgeExchange part s
  | .yieldExchange part wid => Sys2Proof.Machine.execYieldExchange part wid s
  | .swapOut wid => Sys2Proof.Machine.execSwapOut wid s
  | .swapIn part => Sys2Proof.Machine.execSwapIn part s
  | .forcedSwapIn part => Sys2Proof.Machine.execForcedSwapIn part s
  | .teamRetire tid => Sys2Proof.Machine.execTeamRetire tid s
  | .gridRetire grid => Sys2Proof.Machine.execGridRetire grid s
  | .nodeCountLaunch grid node => Sys2Proof.Machine.execNodeCountLaunch grid node s
  | .nodeTimerExpiry grid node => Sys2Proof.Machine.execNodeTimerExpiry grid node s
  | .nodeFinalLaunch grid node => Sys2Proof.Machine.execNodeFinalLaunch grid node s
  | .conditionalNodePredicate grid node => Sys2Proof.Machine.execConditionalNodePredicate grid node s
  | .faultRecordWrite grid => Sys2Proof.Machine.execFaultRecordWrite grid s
  | .faultSlotRecheck grid => Sys2Proof.Machine.execFaultSlotRecheck grid s
  | .recordResume grid seq => Sys2Proof.Machine.execRecordResume grid seq s
  | .preemptRequest grid => Sys2Proof.Machine.execPreemptRequest grid s
  | .preemptSave tid => Sys2Proof.Machine.execPreemptSave tid s
  | .teamRestore tid => Sys2Proof.Machine.execTeamRestore tid s
  | .doorbellWrite qid val => Sys2Proof.Machine.execDoorbellWrite qid val s
  | .queuePoll qid => Sys2Proof.Machine.execQueuePoll qid s
  | .launchPacket qid => Sys2Proof.Machine.execLaunchPacket qid s
  | .framePacket qid => Sys2Proof.Machine.execFramePacket qid s
  | .signalPacket qid => Sys2Proof.Machine.execSignalPacket qid s
  | .nopPacket qid => Sys2Proof.Machine.execNopPacket qid s
  | .handlerPacketWrite qid => Sys2Proof.Machine.execHandlerPacketWrite qid s
  | .handlerSlotRecheck qid => Sys2Proof.Machine.execHandlerSlotRecheck qid s
  | .qcreate m => Sys2Proof.Machine.execQcreate m s
  | .qdestroy m => Sys2Proof.Machine.execQdestroy m s
  | .qresume m => Sys2Proof.Machine.execQresume m s
  | .qstop m => Sys2Proof.Machine.execQstop m s
  | .gterm m => Sys2Proof.Machine.execGterm m s
  | .release m => Sys2Proof.Machine.execRelease m s
  | .unresolvable m => Sys2Proof.Machine.execUnresolvable m s
  | .inval m => Sys2Proof.Machine.execInval m s
  | .asidtab m => Sys2Proof.Machine.execAsidtab m s
  | .dbgattach m => Sys2Proof.Machine.execDbgattach m s
  | .dbgdetach m => Sys2Proof.Machine.execDbgdetach m s
  | .peerbind m => Sys2Proof.Machine.execPeerbind m s
  | .fwstage m => Sys2Proof.Machine.execFwstage m s
  | .fwactivate m => Sys2Proof.Machine.execFwactivate m s
  | .fwfuse m => Sys2Proof.Machine.execFwfuse m s
  | .attest m => Sys2Proof.Machine.execAttest m s
  | .summitMailboxMessage m => Sys2Proof.Machine.execSummitMailboxMessage m s
  | .mgRspPop => Sys2Proof.Machine.execMgRspPop s
  | .managementRegisterWrite off val => Sys2Proof.Machine.execManagementRegisterWrite off val s
  | .schedulerStateLoss imem bad verifies => Sys2Proof.Machine.execSchedulerStateLoss imem bad verifies s
  | .linkFailure a b => Sys2Proof.Machine.execLinkFailure a b s
  | .moduleReset => Sys2Proof.Machine.execModuleReset s
  | .trainingTimeout socket => Sys2Proof.Machine.execTrainingTimeout socket s
  | .computeDieTrained socket => Sys2Proof.Machine.execComputeDieTrained socket s
  | .exwardPortTrained port report => Sys2Proof.Machine.execExwardPortTrained port report s
  | .fullServiceTransition => Sys2Proof.Machine.execFullServiceTransition s
  | .correctedError u addr => Sys2Proof.Machine.execCorrectedError u addr s
  | .uncorrectableError u addr => Sys2Proof.Machine.execUncorrectableError u addr s
  | .filterViolation socket unit addr => Sys2Proof.Machine.execFilterViolation socket unit addr s
  | .telemetryRecord x => Sys2Proof.Machine.execTelemetryRecord x s
  | .powerControlTick x => Sys2Proof.Machine.execPowerControlTick x s
  | .thermalShutdown socket => Sys2Proof.Machine.execThermalShutdown socket s
  | .pcieWrite port relaxed addr bytes => Sys2Proof.Machine.execPcieWrite port relaxed addr bytes s
  | .exwardPeerWrite port asid va bytes => Sys2Proof.Machine.execExwardPeerWrite port asid va bytes s
  | .applicationCoreAccess write addr bytes => Sys2Proof.Machine.execApplicationCoreAccess write addr bytes s
  | .pcieDeviceRead port addr len => Sys2Proof.Machine.execPcieDeviceRead port addr len s
  | .memoryDieTrained socket => Sys2Proof.Machine.execMemoryDieTrained socket s
  | .exwardLinkFailure port => Sys2Proof.Machine.execExwardLinkFailure port s
  | .renderFaultSuspend op => Sys2Proof.Machine.execRenderFaultSuspend op s
  | .stageWriteComplete => Sys2Proof.Machine.execStageWriteComplete s
  | .powerLoss => Sys2Proof.Machine.execPowerLoss s

end Sys2Proof.Machine
end

