-- ==== Sys2Proof/Machine/Actions.lean ====
section
/-! DEFINITION. What the module may do next: the issues of the partitions and the events of the units; the passing of time; and
the placing of one instruction at the next issue (log 3, 4, 27). -/

namespace Sys2Proof.Machine

open Sys2Proof

/-! ## Time (R8, log 4) -/

/-- What follows from the state alone at any time: how long warps and grids have waited (R90, R122), and whether the fault interrupt
is still pending (R441). -/
def State.settle (s : State) : State := s.watch.settleFaultInt

/-- Free amounts of time pass: at least one cycle. DESIGN CHOICE, log 4. -/
def State.pass (s : State) : State :=
  { s with now := s.now + Config.freeCycles s.fresh + 1, ns := s.ns + Config.freeNs s.fresh, fresh := s.fresh + 1 }

/-- DESIGN CHOICE, log 4. -/
def State.tick (s : State) : State := s.settle.pass

/-! ## Issue (R84, R85, R87) -/

/-- The state in which an instruction is executed for some lanes. -/
def State.withCur (s : State) (x : Issue) : State := { s with cur := some x }

/-- The instruction that an issue executes. -/
def State.instrOf (s : State) (x : Issue) : Option Instr :=
  (s.ctxOf x.wid x.lanes).map fun c => s.decodeFor c.g x.word

/-- The issue as a step: the instruction decoded from its word is executed. -/
def State.runIssue (s : State) (x : Issue) : Out :=
  match s.instrOf x with
  | some i => exec i (s.withCur x)
  | none => .next s

/-- R87: the issue is more than a wait: the warp issues, stops, parks or exits. -/
def State.takes (s : State) (x : Issue) : Bool :=
  match s.runIssue x with
  | .next t =>
    match s.warp? x.wid, t.warp? x.wid with
    | some a, some b => a.issues != b.issues || a.stopped != b.stopped || a.parked != b.parked || a.exited != b.exited
    | _, _ => true
  | _ => true

/-- A list up to the first element with a property, and one more that may go with it. -/
def takeUntil {α : Type} (p : α → Bool) (also : α → α → Bool) : List α → List α
  | [] => []
  | [x] => [x]
  | x :: y :: r => if p x then (if also x y then [x, y] else [x]) else x :: takeUntil p also (y :: r)

/-- R85: two groups of one warp that may be issued in one cycle. DEDUCED, log 26. -/
def State.together (s : State) (x y : Issue) : Bool :=
  x.wid == y.wid && match s.instrOf x, s.instrOf y with
    | some i, some j => coIssue i j
    | _, _ => false

/-- R87: the issues of a partition: the warps in their order, their groups in their ranking, up to the first that does not
wait. -/
def State.partIssues (s : State) (p : Partition) : List Issue :=
  let all := (sortBy s.slotBefore p.active).flatMap fun wid =>
    match s.warp? wid with
    | some w => s.groupsOk wid w
    | none => []
  takeUntil s.takes s.together all

/-- The issues that may come next. -/
def State.issuesNow (s : State) : List Issue := s.parts.flatMap fun p => s.partIssues p.2

/-! ## Events -/

/-- R49: the blocks that warps need and their cores do not hold. -/
def State.blocksWanted (s : State) : List Instr :=
  s.warps.flatMap fun w =>
    match s.team? (w.1 / 32) with
    | none => []
    | some t =>
      if t.st != .running || !w.2.paramsLoaded then []
      else
        w.2.groups.filterMap fun m =>
          let pc := (cget w.2.pc (lowest m)).toNat
          let held := (tget (s.core t.core).icache (blockKey t.gid (blockOf pc))).isSome
          if (s.fetch t.core t.gid pc).isNone && (w.2.residence == .active || !held) then
            some (.icacheFill t.gid t.core (blockOf pc)) else none

/-- The events of warps. -/
def State.warpEvents (s : State) : List Instr :=
  s.warps.flatMap fun w =>
    (if w.2.pend.isEmpty then [] else [.loadResultWrite w.1]) ++
    (if w.2.sq.isEmpty && w.2.contrib.isEmpty then [] else [.storeQueueDepart w.1]) ++
    ((w.2.probe.flatMap (·.left)).map fun x => .flushProbeReturn w.1 x.1 x.2) ++
    (if w.2.pubWait.isEmpty then [] else [.stairStall w.1]) ++
    (if w.2.paramsLoaded then [] else [.paramLoad w.1]) ++
    (if w.2.residence == .pending then [.swapOut w.1] else [])

/-- The events of cores. -/
def State.coreEvents (s : State) : List Instr :=
  s.cores.flatMap fun k =>
    (k.2.inflight.flatMap fun r => match r.op with
      | .write _ => [.writeAcknowledge k.1 r.id]
      | .ordered i _ _ _ _ _ _ _ => match s.team? (r.wid / 32) with
        | some t => [.orderedAtomicApply t.gid i]
        | none => []
      | .fill => [.mergingFillReturn k.1 r.line]
      | .load _ => []
      | _ => [.homeAluUpdate k.1 r.id]) ++
    (k.2.l1.map fun x => .l1Eviction k.1 x.1) ++
    ((k.2.l1.filter fun x => x.2.upd.isSome).map fun x => .homeRecall x.1) ++
    (if k.2.mxq.isEmpty then [] else [.mxPassComplete k.1])

/-- The events of partitions. -/
def State.partEvents (s : State) : List Instr :=
  s.parts.flatMap fun p =>
    (if p.2.sfu.isEmpty then [] else .sfuQueueEntry p.1 :: (List.range p.2.sfu.length).map fun i => .sfuResultWrite p.1 i) ++
    (if p.2.pending.isEmpty then [] else
      [.activeSetFill p.1, .pendingAgeExchange p.1] ++ p.2.active.flatMap fun w =>
        [.stalledWarpExchange p.1 w, .yieldExchange p.1 w]) ++
    (if p.2.nonResident.isEmpty then [] else [.swapIn p.1, .forcedSwapIn p.1])

/-- The events of operations, traces and dies. -/
def State.unitEvents (s : State) : List Instr :=
  (s.ops.flatMap fun o => [.copyChunkComplete o.id, .asyncOperationComplete o.id, .renderFaultSuspend o.id]) ++
  (s.traces.map fun t => .traceReturn t.1) ++
  (s.dies.flatMap fun d => d.2.bins.flatMap fun b => [.shaderBinLaunch d.1 b.entry, .shaderBinTimer d.1 b.entry]) ++
  s.dies.filterMap fun d => if s.grids.any fun g => g.2.frame.any fun f => !((tget f.held d.1).getD []).isEmpty then
    some (.returnStackRefill d.1) else none

/-- The events of grids and teams. -/
def State.gridEvents (s : State) : List Instr :=
  (s.grids.flatMap fun g =>
    if g.2.st != .live then [] else
    (if s.waits g.1 g.2 then [.placementHold g.1, .preemptRequest g.1] else []) ++
    (if s.teams.any (fun t => t.2.gid == g.1) then [] else [.gridRetire g.1]) ++
    (g.2.nodes.flatMap fun n => [.nodeCountLaunch g.1 n.1, .nodeTimerExpiry g.1 n.1, .nodeFinalLaunch g.1 n.1,
      .conditionalNodePredicate g.1 n.1]) ++
    (if g.2.faults.isEmpty then [] else [.faultRecordWrite g.1, .faultSlotRecheck g.1]) ++
    ((g.2.records.filter fun r => !r.resumed).map fun r => .recordResume g.1 r.seq) ++
    ((g.2.restore.head?.map fun t => Instr.teamRestore t).toList) ++
    (if g.2.rec_.stairEn = 0 then [] else
      (s.teams.filter fun t => t.2.gid == g.1 && t.2.placed).flatMap fun t =>
        (s.landings g.1 g.2 t.2.core).map fun x => .stairValueArrival g.1 t.2.core x.1 x.2.1)) ++
  (if s.grids.any fun g => s.waits g.1 g.2 then [.teamDispatch] else []) ++
  s.teams.flatMap fun t => match t.2.st with
    | .ended => [.teamRetire t.1]
    | .halting => [.preemptSave t.1]
    | _ => []

/-- A command in its owner's hands. -/
def commandEvent (m : Msg) : List Instr :=
  match m.opc.toNat with
  | 0x01 => [.qcreate m]
  | 0x02 => [.qdestroy m]
  | 0x03 => [.qresume m]
  | 0x04 => [.qstop m]
  | 0x10 => [.gterm m]
  | 0x20 => match actionOf m with
    | 0 => [.release m]
    | 1 => [.unresolvable m]
    | 2 => [.inval m]
    | 3 => [.asidtab m]
    | _ => [.release m]
  | 0x30 => [.dbgattach m]
  | 0x31 => [.dbgdetach m]
  | 0x40 => [.peerbind m]
  | 0x50 => [.fwstage m]
  | 0x51 => [.fwactivate m]
  | 0x52 => [.fwfuse m]
  | 0x53 => [.attest m]
  | _ => []

/-- The events of Summit and of boot. -/
def State.summitEvents (s : State) : List Instr :=
  (s.queues.flatMap fun q => [.queuePoll q.1, .launchPacket q.1, .framePacket q.1, .signalPacket q.1, .nopPacket q.1,
    .handlerPacketWrite q.1, .handlerSlotRecheck q.1]) ++
  (s.cmdQ.head?.toList.flatMap fun m => Instr.summitMailboxMessage m :: commandEvent m) ++
  (s.mailbox.flatMap fun x => ((x.2.find? fun m => m.src == 8).toList).flatMap commandEvent) ++
  (if s.mg.stage = 7 && !s.mg.full then [.fullServiceTransition] else []) ++
  (if s.mg.stage = 5 || s.mg.stage = 7 then
    ((List.range 12).map (· + 1)).filterMap fun d =>
      if s.ns - s.resetNs < trainLimit d then none else some (.trainingTimeout d) else []) ++
  (if s.trust.staging.isSome then [.stageWriteComplete] else [])

/-- An event would change something. -/
def State.does (s : State) (i : Instr) : Bool :=
  match exec i { s with cur := none } with
  | .next t => t != { s with cur := none }
  | _ => true

/-- The events that may come next. DEDUCED, log 1. -/
def State.eventsNow (s : State) : List Instr :=
  (s.blocksWanted ++ s.warpEvents ++ s.coreEvents ++ s.partEvents ++ s.unitEvents ++ s.gridEvents ++ s.summitEvents).filter
    s.does

/-! ## Actions -/

/-- What the module may do in a step: issue an instruction, or an event of a unit. -/
inductive Action where
  | issue (x : Issue)
  | event (i : Instr)
  deriving DecidableEq, Repr

/-- The actions that are possible. DESIGN CHOICE, log 3. -/
def State.actions (s : State) : List Action := s.issuesNow.map .issue ++ s.eventsNow.map .event

def State.act (s : State) : Action → Out
  | .issue x => s.runIssue x
  | .event i => exec i { s with cur := none }

/-- One of the actions, by a free choice; with none, nothing but time passes. DESIGN CHOICE, log 3. -/
def State.actOne (s : State) (l : List Action) : Out :=
  match l with
  | [] => .next s
  | [a] => s.act a
  | l =>
    match s.pick l with
    | (some a, s) => s.act a
    | (none, s) => .next s

/-! ## One instruction at the next issue (DESIGN CHOICE, log 27) -/

/-- The launch record under which a placed instruction runs: every register it may name, every channel and slot.
DESIGN CHOICE, log 27. -/
def placedRec (entry : Nat) : LaunchRec where
  entry := entry
  paramBase := 0
  gx := 1
  gy := 1
  gz := 1
  tx := 32
  ty := 1
  tz := 1
  cx := 1
  cy := 1
  cz := 1
  block := false
  dieMask := 1
  vec := 256
  uni := 64
  tile := 8
  net := 4
  accGran := 64
  gallery := 327680
  barTeam := 16
  barClu := 8
  barDie := 0
  ordered := true
  replay := false
  priority := 0
  traceDepth := 8
  payloadRegs := 32
  faultqLog2 := 6
  payloadGal := 0
  nodeCount := 0
  stairEn := 15
  stairDist := 0xFFFFFFFF
  paramWords := 0
  stairDef := [0, 0, 0, 0]
  faultqBase := 0
  emuEntry := 0
  handlerQ := 0
  parent := 0
  nodeTable := 0
  dieScratch := 0
  spillBytes := 65536
  format := List.replicate 8 ⟨0, 1, 0, false, true⟩
  doneAddr := 0
  doneValue := 0

/-- The grid of a placed instruction: its one team has been dispatched. -/
def placedGrid (gid entry : Nat) : Grid where
  st := .live
  asid := 0
  qid := 0
  handlerQ := 0
  pktId := 0
  pktIdx := 0
  notify := false
  rec_ := placedRec entry
  prio := 0
  depth := 0
  parentGid := none
  parentTid := none
  order := gid
  mask := [1]
  seqs := [⟨0, [1], 1, 1⟩]
  again := []
  restore := []
  waitSinceNs := 0
  rootTeams := 1
  rootRetired := 0
  nodes := []
  pubs := []
  pubN := []
  rdN := []
  pubSeq := []
  exitSeq := []
  itemsExited := []
  atomoDone := []
  atomoMade := []
  frame := none
  frames := []
  faults := []
  records := []
  nextFaultSeq := 1
  children := []
  dbgEntry := none
  startMoment := 0
  discarded := 0
  held := false

/-- DESIGN CHOICE, log 27. -/
def placedTeam (gid : Nat) : Team where
  gid := gid
  kind := .root
  lin := 0
  rank := 0
  clu := 0
  dieIdx := 0
  core := 32
  nwarps := 1
  st := .running
  gallery := []
  galDirty := []
  acc := []
  accDirty := []
  scale := []
  scaleDirty := false
  firstSaved := false
  saves := 0
  tagClear := 0
  tagCnt := []
  active := false
  loss := 0
  replayed := false
  commit := []
  hall := none
  bucket := none
  children := []
  bucketsPending := []
  recs := []
  placedNs := 0
  ckpt := []

/-- The address at which an instruction is placed. DESIGN CHOICE, log 27. -/
def placedEntry : Nat := 0x300000

/-- A word held in the instruction cache of core 0 of socket 1, where the one warp of a grid with one team stands; that warp is
active, and the die has trained. DESIGN CHOICE, log 27. -/
def State.placeWord (s : State) (w : IWord) : State :=
  let gid := s.nextGid
  let tid := s.nextTid
  let wid := widOf tid 0
  let wp := { Warp.start tid 0 0xFFFFFFFF placedEntry 0 s.now s.ns with residence := .active }
  { s with
    inputs := []
    grids := tset s.grids gid (placedGrid gid placedEntry), nextGid := gid + 1
    teams := tset s.teams tid (placedTeam gid), nextTid := tid + 1
    warps := tset s.warps wid wp
    dies := tset s.dies 1 { s.die 1 with trained := true, inService := true }
    parts := tset s.parts (partOf 32 0) { s.part (partOf 32 0) with active := [wid] }
    cores := tset s.cores 32 { s.core 32 with
      icache := tset (s.core 32).icache (blockKey gid placedEntry)
        ⟨natBytes 12 w.toNat ++ List.replicate 372 0, []⟩, started := [gid] } }

end Sys2Proof.Machine
end

