-- ==== Sys2Proof/Machine/Step.lean ====
section
/-! DEFINITION. One step of the module: an input from outside, or one of the actions that are possible. -/

namespace Sys2Proof.Machine

open Sys2Proof

/-- Time passes, then the next input takes effect, or one action of the module (DESIGN CHOICE, log 3). -/
def step (s : State) : Host.Outcome State Fault Refusal :=
  let s := s.tick
  match s.inputs with
  | i :: rest => exec i { s with inputs := rest, cur := none }
  | [] => s.actOne s.actions

/-- The state with a word stored where the next step fetches (DESIGN CHOICE, log 27). -/
def State.withFetchWord (s : State) (nbits w : Nat) : State := s.placeWord (BitVec.ofNat 96 (w % 2 ^ nbits))

end Sys2Proof.Machine
end

