-- ==== Sys2Proof/Safety.lean ====
section
/-! DEFINITION. What a run of this machine may rely on: the invariant of its plain data and the terms in which statements speak
of a step. -/

namespace Sys2Proof.Machine

open Sys2Proof

/-- The canonical form of the memory (log 7): rising addresses, no byte listed as 0. -/
def State.MemInv (s : State) : Prop := Memory.wf s.mem = true

/-- A run ends in neither a fault nor a refusal: every stop that the spec describes is a next state. -/
def Safe (o : Out) : Prop := ∃ t, o = .next t

/-- R19, R39, R71: the current issue executes the word `i` with the fields `f` for the on lanes `on` of the context `c`: its
registers are declared where a lane is on, its stair values are present, and it reads no stair inside a handler. -/
structure State.Executes (s : State) (i : Instr) (c : Ctx) (f : Fmt) (on : Mask) : Prop where
  ctx : s.ctx? = some c
  shape : ∃ sh, i.shape = some (f, sh) ∧ (on = 0 ∨ shapeRidx c.g.rec_ sh f = none)
  lanes : on = c.on f.g
  outside : f.stairs = [] ∨ c.nested on = none
  present : s.stairsReady c f on = true

/-- Vector register `r` of lane `l` of a warp. -/
def State.vreg (s : State) (wid r l : Nat) : W32 := ((s.warp? wid).map fun w => cget w.vec (r * 32 + l)).getD 0

/-- Uniform register `k` of a warp. -/
def State.ureg (s : State) (wid k : Nat) : W32 := ((s.warp? wid).map fun w => cget w.uni k).getD 0

/-- Predicate `p` of a warp, one bit a lane (R21). -/
def State.preg (s : State) (wid p : Nat) : W32 := ((s.warp? wid).map fun w => w.predWord p).getD 0

/-- Lane mask `i` of a warp. -/
def State.mreg (s : State) (wid i : Nat) : Mask := ((s.warp? wid).map fun w => cget w.mask i).getD 0

/-- Window slot `k`, from 0 for `w1`, of a lane of a warp. -/
def State.wslot (s : State) (wid k l : Nat) : W32 := ((s.warp? wid).map fun w => cget w.win (k * 32 + l)).getD 0

/-- The program counter of a lane of a warp. -/
def State.lanePc (s : State) (wid l : Nat) : W64 := ((s.warp? wid).map fun w => cget w.pc l).getD 0

/-- No other warp, and nothing of the state but the warps and the grids' counts of stair reads, differs. -/
def State.OnlyWarp (s t : State) (wid : Nat) : Prop :=
  t = { s with warps := t.warps, grids := t.grids } ∧ (∀ j, j ≠ wid → t.warp? j = s.warp? j) ∧
    ∀ j, (t.grid? j).map (fun g => { g with rdN := [] }) = (s.grid? j).map (fun g => { g with rdN := [] })

/-- No lane of the context stands at the end of a loop body (R313). -/
def Ctx.noLoopEnd (c : Ctx) : Prop := ∀ l ∈ lanesOf c.lanes, ∀ e ∈ (tget c.w.loops l).getD [], c.pc.toNat ≠ e.stop.toNat

/-- The lanes of the context stand at the instruction after their own, every other lane where it was. -/
def State.Advanced (s t : State) (c : Ctx) : Prop :=
  ∀ l, l < 32 → t.lanePc c.wid l = if c.lanes.getLsbD l then c.nextPc else s.lanePc c.wid l

end Sys2Proof.Machine
end

