-- ==== Sys2Proof/Certificates/Slice0/Obligations.lean ====
section
/-! DEFINITION. The statements for the provers, with the terms they are written in. -/

namespace Sys2Proof.Claims

open Sys2Proof Sys2Proof.Machine

/-! ## Terms -/

/-- An instruction that issue executes: it has a word of its own or is a word that decodes to none. -/
def isWord : Instr → Bool
  | .pairedWord _ _ _ _ => true
  | .nonInstructionEncoding _ _ => true
  | i => i.shape.isSome

/-- The value an instruction computes in a lane from the state before it, with its flags (R263 to R305, R310, R352): the
instructions whose effect is to write a value they compute at once. -/
def valueOf (s : State) (c : Ctx) (l : Nat) (i : Instr) : Option (List W32 × Flags) :=
  let one := fun (x : W32) => some (([x], {}) : List W32 × Flags)
  let fl := fun (y : W32 × Flags) => some (([y.1], y.2) : List W32 × Flags)
  let two := fun (x : W64) => some ((words2 x, {}) : List W32 × Flags)
  let n := fun (imm : BitVec 20) (t : IType) (x : Src) => s.src c imm (IType.ty t) x l
  let r := fun (imm : BitVec 20) (x : Src) => s.src c imm .raw x l
  let q := fun (imm : BitVec 20) (t : FType) (x : Src) => s.src c imm (FType.ty t) x l
  let w := fun (imm : BitVec 20) (x : Src) => s.src c imm (.int 32) x l
  let d := fun (imm : BitVec 20) (x : Src) => s.src64 c imm x l
  match i with
  | .iadd f m t sat => fl (intBin t sat (· + ·) (n m t f.a) (n m t f.b))
  | .isub f m t sat => fl (intBin t sat (· - ·) (n m t f.a) (n m t f.b))
  | .imul f m t => fl (intBin t false (· * ·) (n m t f.a) (n m t f.b))
  | .imulh f m t => one (mulHigh t (n m t f.a) (n m t f.b))
  | .imad f m t sat => fl (intMad t sat (n m t f.a) (n m t f.b) (n m t f.c))
  | .imadw f m t => two (madWide t (n m t f.a) (n m t f.b) (d m f.c))
  | .imin f m t => fl (intBin t false (fun a b => if a ≤ b then a else b) (n m t f.a) (n m t f.b))
  | .imax f m t => fl (intBin t false (fun a b => if a ≤ b then b else a) (n m t f.a) (n m t f.b))
  | .iabs f m t sat => fl (intAbs t sat (n m t f.a))
  | .andB f m => one (r m f.a &&& r m f.b)
  | .orB f m => one (r m f.a ||| r m f.b)
  | .xorB f m => one (r m f.a ^^^ r m f.b)
  | .andnB f m => one (r m f.a &&& ~~~r m f.b)
  | .notB f m => one (~~~r m f.a)
  | .shl f m => one (shlV (r m f.a) (r m f.b))
  | .shr f m => one (shrV (r m f.a) (r m f.b))
  | .sar f m => one (sarV (r m f.a) (r m f.b))
  | .rotl f m => one (rotlV (r m f.a) (r m f.b))
  | .funsh f m right => one (funshV right (r m f.a) (r m f.b) (r m f.c))
  | .bfx f m t => one (bfxV t (r m f.a) (r m f.b) (r m f.c))
  | .bfi f m => one (bfiV (r m f.a) (r m f.b) (r m f.c))
  | .popc f m => one (popcV (r m f.a))
  | .clz f m => one (clzV (r m f.a))
  | .ctz f m => one (ctzV (r m f.a))
  | .brev f m => one (brevV (r m f.a))
  | .iset f m form t cmp => one (isetV form t cmp (n m t f.a) (n m t f.b))
  | .set64 f m form uns cmp => one (set64V form uns cmp (d m f.a) (d m f.b))
  | .sel f m => one (r m (if c.pbit f.c l then f.a else f.b))
  | .lea f off sh => two (leaV (d 0 f.a) (w 0 f.b) sh off)
  | .add64 f m => two (d m f.a + d m f.b)
  | .sub64 f m => two (d m f.a - d m f.b)
  | .mov f m .direct => one (r m f.a)
  | .movi _ m form => one (immVal form m)
  | .pset f op => one (boolWord (psetV op (c.pbit f.a l) (c.pbit f.b l)))
  | .pmov f .pk => one (maskOf ((lanesOf (c.on f.g)).filter fun j => c.pbit f.a j))
  | .pmov f .kp => one (boolWord ((r 0 f.a).getLsbD l))
  | .pmov f .pp => one (boolWord (c.pbit f.a l))
  | .fadd f m t k sat => fl (faddV t (rmOf k) sat (q m t f.a) (q m t f.b))
  | .fsub f m t k sat => fl (fsubV t (rmOf k) sat (q m t f.a) (q m t f.b))
  | .fmul f m t k sat => fl (fmulV t (rmOf k) sat (q m t f.a) (q m t f.b))
  | .ffma f m t k sat => fl (ffmaV t (rmOf k) sat (q m t f.a) (q m t f.b) (q m t f.c))
  | .fmin f m t => fl (fminmaxV true t (q m t f.a) (q m t f.b))
  | .fmax f m t => fl (fminmaxV false t (q m t f.a) (q m t f.b))
  | .fset f m form t cmp u => one (fsetV form t cmp u (q m t f.a) (q m t f.b))
  | .frnd f m t k => fl (frndV t (rmOf k) (q m t f.a))
  | .fclas f m t => one (fclasV t (q m t f.a))
  | .fscl f m k => fl (fsclV (rmOf k) (q m .f32 f.a) (w m f.b))
  | .cvtFrom f m k => one (elemTo32 (c.g.slot k.toNat).elem (r m f.a).toNat)
  | .cvtiI2f f m t k => fl (i2fV t (rmOf k) (w m f.a))
  | .cvtiF2i f m t k sat => fl (f2iV t (rmOf k) sat (q m .f32 f.a))
  | .pack f m k sat => fl (packV k sat (w m f.a) (w m f.b) (r m f.c))
  | .unpk f m k => one (unpkV k (r m f.a) (w m f.b))
  | .dp2 f sh => fl (dp2V sh.toNat (n 0 .s16x2 f.a) (n 0 .s16x2 f.b) (w 0 f.c))
  | .dp4 f m t => one (dpV t (n m .s8x4 f.a) (n m .s8x4 f.b) (w m f.c))
  | .dp8 f m => one (dpV .s4x8 (n m .s4x8 f.a) (n m .s4x8 f.b) (w m f.c))
  | .hdp2 f m t k => fl (hdp2V t (rmOf k) (q m .f16 f.a) (q m .f16 f.b) (q m .f32 f.c))
  | .perm f k => one (match f.b with
      | .net x => c.moved f.a (permFrom (cget c.w.net x.toNat) (Wid.lanes k) l)
      | _ => 0)
  | .slide f m down k fillC => one (match slideFrom down (Wid.lanes k) (r m f.b).toNat l with
      | some j => c.moved f.a j
      | none => if fillC then r m f.c else 0)
  | .bcast f m k => one (c.moved f.a (groupBase (Wid.lanes k) l + (r m f.b).toNat % Wid.lanes k))
  | .vote f op k => one (voteVal op ((peers (c.on f.g) (Wid.lanes k) l).map fun j => (j, s.src c 0 .raw f.a j)))
  | .elect f k => one (boolWord ((peers (c.on f.g) (Wid.lanes k) l).head? == some l))
  | .redux f op k => one (s.reduce c f op (peers (c.on f.g) (Wid.lanes k) l))
  | .scan f op k ex => one (s.reduce c f op
      ((peers (c.on f.g) (Wid.lanes k) l).filter fun j => if ex then j < l else j ≤ l))
  | .matchK f b k => one (maskOf ((peers (c.on f.g) (Wid.lanes k) l).filter fun j =>
      keyEq b (s.src c 0 (keyTy b) f.a l) (s.src c 0 (keyTy b) f.a j)))
  | .mget f => one (r 0 f.a)
  | .qstat _ j k sel => one (match sel with
      | .pub => cget c.w.pubCnt (j.toNat * 32 + l)
      | .rd => cget c.w.rdCnt ((8 * j.toNat + k.toNat) * 32 + l)
      | .ready => match c.t.kind with
        | .node _ _ _ => 1
        | _ => if (c.g.rec_.distances j.toNat).contains (k.toNat + 1) && (s.stair c j.toNat k.toNat l).isSome then 1 else 0)
  | _ => none

/-- The flags that the on lanes of an instruction raise: once for a uniform destination (R22, R208). -/
def flagsOf (d : Dst) (on : Mask) (val : Nat → List W32 × Flags) : BitVec 3 :=
  match d with
  | .uni _ => if on = 0 then 0 else (val (lowest on)).2.bits
  | _ => (lanesOf on).foldl (fun fl l => fl ||| (val l).2.bits) 0

/-- The words of a lane's window after results `vs` are shifted in, the last of them at `w1` (R32, R34). -/
def shifted (vs old : List W32) : List W32 := (vs.reverse ++ old).take 8

/-- The window of a lane, `w1` first. -/
def window (s : State) (wid l : Nat) : List W32 := (List.range 8).map fun k => s.wslot wid k l

/-- What the destination of an instruction holds after it, when its on lanes' results are `vs`: a vector register and the
window by lane; a uniform register once; a predicate by bit 0 of the value; and nothing else of those three (R14, R21 to
R24, R32, R34). -/
def Wrote (s t : State) (c : Ctx) (d : Dst) (on : Mask) (vs : Nat → List W32) : Prop :=
  (∀ r k, k < 32 → t.vreg c.wid r k =
    match d with
    | .vec i => if on.getLsbD k ∧ i.toNat ≤ r ∧ r - i.toNat < (vs k).length then (vs k).getD (r - i.toNat) 0
      else s.vreg c.wid r k
    | _ => s.vreg c.wid r k) ∧
  (∀ r, t.ureg c.wid r =
    match d with
    | .uni i => if on ≠ 0 ∧ i.toNat ≤ r ∧ r - i.toNat < (vs (lowest on)).length then
        (vs (lowest on)).getD (r - i.toNat) 0 else s.ureg c.wid r
    | _ => s.ureg c.wid r) ∧
  (∀ r k, k < 32 → (t.preg c.wid r).getLsbD k =
    match d with
    | .pred p => if r = p.toNat ∧ on.getLsbD k ∧ p ≠ 7 then ((vs k).headD 0).getLsbD 0 else (s.preg c.wid r).getLsbD k
    | _ => (s.preg c.wid r).getLsbD k) ∧
  (∀ k, k < 32 → window t c.wid k =
    if on.getLsbD k ∧ (d = .nwb ∨ ∃ i, d = .vec i) then shifted (vs k) (window s c.wid k) else window s c.wid k)

/-- The sticky flags of the warp are as they were. -/
def NoFlags (t : State) (c : Ctx) : Prop := ∃ w, t.warp? c.wid = some w ∧ w.fstat = c.w.fstat ∧ w.mstat = c.w.mstat

/-- The warp but for its program counters, its loops and the times of its issues. -/
def still (w v : Warp) : Prop :=
  v = { w with pc := v.pc, loops := v.loops, issues := v.issues, laneIssue := v.laneIssue, lastIssue := v.lastIssue,
               stallUntil := v.stallUntil, yielded := v.yielded }

/-- R76, R79: a counter has risen by one, with a mark on the result of a word that has issued for the lanes `on`. -/
def Raised (c : Ctx) (w : Warp) (ctr : Nat) (on : Mask) (d : Dst) : Prop :=
  w.nextSeq = c.w.nextSeq + 1 ∧ w.counter ctr = c.w.counter ctr + 1 ∧ ∃ q, w.pend = c.w.pend ++ [q] ∧
    q.kind = .counted ∧ q.ctr = ctr ∧ q.lanes = on ∧ q.dst = d ∧ q.seq = c.w.nextSeq

/-- A control transfer: the lanes stand at `pcs`; nothing but program counters, loops and issue times differs. -/
def Transferred (s t : State) (c : Ctx) (pcs : Nat → W64) : Prop :=
  (∀ l, l < 32 → t.lanePc c.wid l = pcs l) ∧ s.OnlyWarp t c.wid ∧ (∀ a, t.byte a = s.byte a) ∧
    ∃ w, t.warp? c.wid = some w ∧ still c.w w

/-- R316, R423: the warp's results are written and a report can be held: a stop happens now. -/
def MayStop (s : State) (c : Ctx) : Prop := s.drained c = true ∧ s.canReport = true

/-- R315, R420, R476: the lanes of `m` have stopped at the instruction, and one event with the cause waits to be written to
the grid's handler queue; nothing else differs but the times of the issue. -/
def StoppedWith (s t : State) (c : Ctx) (cause : Cause) (m : Mask) (d0 d1 : W64) : Prop :=
  (∃ w, t.warp? c.wid = some w ∧ w.stopped = c.w.stopped ||| m ∧
    w = { c.w with stopped := w.stopped, issues := w.issues, laneIssue := w.laneIssue, lastIssue := w.lastIssue,
                   stallUntil := w.stallUntil, yielded := w.yielded }) ∧
  (∃ e, t.hevents = s.hevents ++ [e] ∧ e.hq = c.g.handlerQ ∧ e.cause = cause.code ∧
    e.grid = BitVec.ofNat 32 c.t.gid ∧ e.teamlin = BitVec.ofNat 32 c.t.lin ∧ e.warp = c.w.num ∧ e.lanes = m ∧
    e.pc = c.pc ∧ e.d0 = d0 ∧ e.d1 = d1) ∧
  (∀ j, j ≠ c.wid → t.warp? j = s.warp? j) ∧ t = { s with warps := t.warps, hevents := t.hevents }

/-- The lanes on and not on, at a target and at the next instruction. -/
def branchPc (s : State) (c : Ctx) (on : Mask) (target : Nat → W64) (l : Nat) : W64 :=
  if on.getLsbD l then target l else if c.lanes.getLsbD l then c.nextPc else s.lanePc c.wid l

/-- No lane of `m` stands at the end of a body of its loops (R313). -/
def NoLoopEndAt (w : Warp) (m : Mask) : Prop :=
  ∀ l, l < 32 → m.getLsbD l → ∀ e ∈ (tget w.loops l).getD [], (cget w.pc l).toNat ≠ e.stop.toNat

/-- What a lane waits at when the on lanes of a word wait at `x`. -/
def waitsAt (c : Ctx) (on : Mask) (x : LaneWait) (l : Nat) : Option LaneWait :=
  if on.getLsbD l = true ∧ tget c.w.waits l = none then some x else tget c.w.waits l

end Sys2Proof.Claims

open Sys2Proof Sys2Proof.Machine Sys2Proof.Claims

/-! ## Value instructions -/

/-- R14, R21 to R24, R32, R34, R208 and the entries of chapters 10 and 11: a value instruction answers a next state. With
a vector destination each on lane of its registers holds the value and every other lane and register what it held, and the
words of the result enter the on lanes' windows, the last at `w1`, written to a register or not. With a uniform
destination the value is computed once, in the lowest on lane, and nothing is written when no lane is on. With a predicate
destination each on lane's bit is bit 0 of the value, and p7 reads true whatever is written to it. The flags accumulate in
`%fstat`. -/
def Obligations.ValueResults : Prop :=
  ∀ (s : State) (i : Instr) (c : Ctx) (f : Fmt) (on : Mask) (val : Nat → List W32 × Flags),
    s.Executes i c f on → (∀ l, valueOf s c l i = some (val l)) →
    ∃ t w, exec i s = .next t ∧ t.warp? c.wid = some w ∧ Wrote s t c f.d on (fun k => (val k).1) ∧
      t.preg c.wid 7 = BitVec.allOnes 32 ∧
      ((f.d = .nwb ∨ (∃ d, f.d = .vec d) ∨ (∃ d, f.d = .uni d) ∨ (∃ d, f.d = .pred d)) →
        w.fstat = c.w.fstat ||| flagsOf f.d on val)

/-- The frame of the value instructions: registers of classes that are not the destination's, masks, tiles, networks,
special registers, handlers, stores and loads in flight, every other warp and all of the rest of the state are unchanged;
a stair source alone changes the lane's read counts, `%qseal` and the grid's counts of reads. A cross-lane word with a lane
on has raised counter 1, and no other word any counter (R76, R79; how the model holds it: log 79). The active lanes continue
at the next instruction where none is at the end of a loop body, the other lanes stay, and the warp has issued once more
(R13, R84, R313). -/
def Obligations.ValueFrame : Prop :=
  ∀ (s : State) (i : Instr) (c : Ctx) (f : Fmt) (on : Mask) (val : Nat → List W32 × Flags),
    s.Executes i c f on → (∀ l, valueOf s c l i = some (val l)) →
    ∃ t w, exec i s = .next t ∧ t.warp? c.wid = some w ∧ s.OnlyWarp t c.wid ∧ (∀ a, t.byte a = s.byte a) ∧
      w = { c.w with vec := w.vec, uni := w.uni, pred := w.pred, win := w.win, winSeq := w.winSeq, fstat := w.fstat,
                     dirty := w.dirty, rdCnt := w.rdCnt, qseal := w.qseal, pc := w.pc, loops := w.loops,
                     issues := w.issues, laneIssue := w.laneIssue, lastIssue := w.lastIssue,
                     stallUntil := w.stallUntil, yielded := w.yielded, pend := w.pend, nextSeq := w.nextSeq } ∧
      (Instr.raises i = none ∨ on = 0 → w.pend = c.w.pend ∧ w.nextSeq = c.w.nextSeq) ∧
      (Instr.raises i ≠ none → on ≠ 0 → Raised c w 1 on f.d) ∧
      ((∀ d, f.d ≠ .vec d) → w.vec = c.w.vec) ∧ ((∀ d, f.d ≠ .uni d) → w.uni = c.w.uni) ∧
      ((∀ p, f.d ≠ .pred p) → w.pred = c.w.pred) ∧ (f.stairs = [] → w.rdCnt = c.w.rdCnt ∧ w.qseal = c.w.qseal) ∧
      (c.noLoopEnd → s.Advanced t c) ∧ w.issues = c.w.issues + 1

/-! ## Rules of single instructions -/

/-- R273, whole: `SEL` writes A or B by the predicate, inverted by its negate bit; other operands are reserved. R278,
whole: the four operations of two predicates, each negated first; other classes are reserved. And, of R21: `p7` reads true
in every lane, a value instruction's write to it is ignored, and `MSET` of a uniform register writes `m0` like the other
masks. -/
def Obligations.PredicatesAndSelect : Prop :=
  (∀ (s : State) (wid : Nat) (w : Warp), s.warp? wid = some w → s.preg wid 7 = BitVec.allOnes 32) ∧
  (∀ (s : State) (i : Instr) (c : Ctx) (f : Fmt) (on : Mask) (val : Nat → List W32 × Flags),
    s.Executes i c f on → (∀ l, valueOf s c l i = some (val l)) → f.d = .pred 7 →
    ∃ t, exec i s = .next t ∧ ∀ r, t.preg c.wid r = s.preg c.wid r) ∧
  (∀ (s : State) (c : Ctx) (f : Fmt) (on : Mask) (m : BitVec 8) (x : BitVec 6),
    s.Executes (.mset f) c f on → f.d = .cls3 m → f.a = .uni x → on ≠ 0 →
    ∃ t, exec (.mset f) s = .next t ∧ t.mreg c.wid m.toNat = s.ureg c.wid x.toNat) ∧
  (∀ (s : State) (c : Ctx) (f : Fmt) (on : Mask) (imm : BitVec 20),
     (∀ (neg : Bool) (p : BitVec 3), f.c = .pred neg p → s.Executes (.sel f imm) c f on →
       ∃ t, exec (.sel f imm) s = .next t ∧ Wrote s t c f.d on fun l =>
         [if (s.preg c.wid p.toNat).getLsbD l ≠ neg then s.src c imm .raw f.a l else s.src c imm .raw f.b l]) ∧
     ((Instr.sel f imm).wf = true → (∃ neg p, f.c = .pred neg p) ∧ f.a.negated = false ∧ f.b.negated = false)) ∧
  (∀ (s : State) (c : Ctx) (f : Fmt) (on : Mask) (op : POp),
     (∀ (x y : Bool) (p q : BitVec 3), f.a = .pred x p → f.b = .pred y q → s.Executes (.pset f op) c f on →
       ∃ t, exec (.pset f op) s = .next t ∧ Wrote s t c f.d on fun l =>
         let a := xor ((s.preg c.wid p.toNat).getLsbD l) x
         let b := xor ((s.preg c.wid q.toNat).getLsbD l) y
         [if (match op with | .and => a && b | .or => a || b | .xor => xor a b | .andn => a && !b) then 1 else 0]) ∧
     ((Instr.pset f op).wf = true → (∃ x p, f.a = .pred x p) ∧ ∃ y q, f.b = .pred y q))

/-- R268, whole: the four shifts, with counts of 32 and above, and no negate bit. R269, whole: the funnel shifts of B ×
2^32 + A by the lesser of C and 32; no negate bit. -/
def Obligations.ShiftsAndFunnels : Prop :=
  (∀ (s : State) (c : Ctx) (f : Fmt) (on : Mask) (imm : BitVec 20),
    let a := fun l => s.src c imm .raw f.a l
    let n := fun l => (s.src c imm .raw f.b l).toNat
    (s.Executes (.shl f imm) c f on → ∃ t, exec (.shl f imm) s = .next t ∧
      Wrote s t c f.d on fun l => [if n l < 32 then a l <<< n l else 0]) ∧
    (s.Executes (.shr f imm) c f on → ∃ t, exec (.shr f imm) s = .next t ∧
      Wrote s t c f.d on fun l => [if n l < 32 then a l >>> n l else 0]) ∧
    (s.Executes (.sar f imm) c f on → ∃ t, exec (.sar f imm) s = .next t ∧
      Wrote s t c f.d on fun l => [if n l < 32 then BitVec.ofInt 32 ((a l).toInt / 2 ^ n l)
        else if (a l).getLsbD 31 then 0xFFFFFFFF else 0]) ∧
    (s.Executes (.rotl f imm) c f on → ∃ t, exec (.rotl f imm) s = .next t ∧
      Wrote s t c f.d on fun l => [a l <<< (n l % 32) ||| a l >>> (32 - n l % 32)]) ∧
    (∀ i : Instr, i = .shl f imm ∨ i = .shr f imm ∨ i = .sar f imm ∨ i = .rotl f imm → i.wf = true →
      f.a.negated = false ∧ f.b.negated = false)) ∧
  (∀ (s : State) (c : Ctx) (f : Fmt) (on : Mask) (imm : BitVec 20) (right : Bool),
    (s.Executes (.funsh f imm right) c f on → ∃ t, exec (.funsh f imm right) s = .next t ∧
      Wrote s t c f.d on fun l =>
        let x := (s.src c imm .raw f.b l).toNat * 2 ^ 32 + (s.src c imm .raw f.a l).toNat
        let n := min (s.src c imm .raw f.c l).toNat 32
        [BitVec.ofNat 32 (if right then x / 2 ^ n else x * 2 ^ n / 2 ^ 32)]) ∧
    ((Instr.funsh f imm right).wf = true → f.a.negated = false ∧ f.b.negated = false ∧ f.c.negated = false))

/-- R271, whole: the counts of ones and zeros and the reversal; no negate bit. R275, whole: 64-bit sums and differences
modulo 2^64, a literal sign-extended, no flag. -/
def Obligations.BitCountsAndSums : Prop :=
  (∀ (s : State) (c : Ctx) (f : Fmt) (on : Mask) (imm : BitVec 20),
     let a := fun l => s.src c imm .raw f.a l
     (s.Executes (.popc f imm) c f on → ∃ t, exec (.popc f imm) s = .next t ∧ ∃ v : Nat → W32, Wrote s t c f.d on (fun l => [v l]) ∧
       ∀ l, (v l).toNat = ((List.range 32).filter fun j => (a l).getLsbD j).length) ∧
     (s.Executes (.clz f imm) c f on → ∃ t, exec (.clz f imm) s = .next t ∧ ∃ v : Nat → W32, Wrote s t c f.d on (fun l => [v l]) ∧
       ∀ l, (v l).toNat ≤ 32 ∧ (∀ j, j < 32 → 31 - j < (v l).toNat → (a l).getLsbD j = false) ∧
         (a l ≠ 0 → (v l).toNat ≤ 31 ∧ (a l).getLsbD (31 - (v l).toNat) = true) ∧ (a l = 0 → v l = 32)) ∧
     (s.Executes (.ctz f imm) c f on → ∃ t, exec (.ctz f imm) s = .next t ∧ ∃ v : Nat → W32, Wrote s t c f.d on (fun l => [v l]) ∧
       ∀ l, (∀ j, j < (v l).toNat → (a l).getLsbD j = false) ∧
         (a l ≠ 0 → (v l).toNat ≤ 31 ∧ (a l).getLsbD (v l).toNat = true) ∧ (a l = 0 → v l = 32)) ∧
     (s.Executes (.brev f imm) c f on → ∃ t, exec (.brev f imm) s = .next t ∧ ∃ v : Nat → W32, Wrote s t c f.d on (fun l => [v l]) ∧
       ∀ l j, j < 32 → (v l).getLsbD (31 - j) = (a l).getLsbD j) ∧
     (∀ i : Instr, i = .popc f imm ∨ i = .clz f imm ∨ i = .ctz f imm ∨ i = .brev f imm → i.wf = true →
       f.a.negated = false)) ∧
  (∀ (s : State) (c : Ctx) (f : Fmt) (on : Mask) (imm : BitVec 20),
     let a := fun l => s.src64 c imm f.a l
     let b := fun l => s.src64 c imm f.b l
     (s.Executes (.add64 f imm) c f on → ∃ t, exec (.add64 f imm) s = .next t ∧ NoFlags t c ∧
       Wrote s t c f.d on fun l => [(a l + b l).setWidth 32, (a l + b l) >>> 32 |>.setWidth 32]) ∧
     (s.Executes (.sub64 f imm) c f on → ∃ t, exec (.sub64 f imm) s = .next t ∧ NoFlags t c ∧
       Wrote s t c f.d on fun l => [(a l - b l).setWidth 32, (a l - b l) >>> 32 |>.setWidth 32]) ∧
     (∀ form l, s.src64 c imm (.imm form) l = (immVal form imm).signExtend 64))

/-- R303, whole: exactly the lowest participating lane of each group receives true; every source is unused. -/
def Obligations.Elect : Prop :=
  ∀ (s : State) (c : Ctx) (f : Fmt) (on : Mask) (k : Wid),
    (s.Executes (.elect f k) c f on →
      ∃ t, exec (.elect f k) s = .next t ∧ ∃ v : Nat → Bool, Wrote s t c f.d on (fun l => [if v l then 1 else 0]) ∧
        (∀ l, on.getLsbD l → (v l = true ↔ ∀ j, j < l → j / Wid.lanes k = l / Wid.lanes k → on.getLsbD j = false)) ∧
        (∀ l, on.getLsbD l → ∃ j, j / Wid.lanes k = l / Wid.lanes k ∧ on.getLsbD j = true ∧ v j = true ∧
          ∀ i, i / Wid.lanes k = l / Wid.lanes k → on.getLsbD i → v i = true → i = j)) ∧
    ((Instr.elect f k).wf = true → f.a = .zero ∧ f.b = .zero ∧ f.c = .zero)

/-! ## Words that do more than compute a value -/

/-- R262: `NOP` changes nothing but the program counters of its active lanes and the times of the issue. R307: `BRA`,
`BRX` and `RET`: on lanes continue at their targets, the other active lanes at the next instruction; a target that is no
instruction address stops its lanes with `IALIGN` (R47). R307: `CALL` and `CALLX` put the address of the next instruction
into the pair of each on lane and continue at the target. -/
def Obligations.Transfers : Prop :=
  (∀ (s : State) (c : Ctx) (f : Fmt) (on : Mask) (h : Hints), s.Executes (.nop h) c f on → c.noLoopEnd →
    ∃ t, exec (.nop h) s = .next t ∧ Transferred s t c fun l => if c.lanes.getLsbD l then c.nextPc else s.lanePc c.wid l) ∧
  (∀ (s : State) (i : Instr) (c : Ctx) (f : Fmt) (on : Mask) (off : BitVec 20) (target : Nat → W64),
    s.Executes i c f on →
    ((i = .bra f off ∧ target = fun _ => c.pc + 12 * off.signExtend 64) ∨
      ((i = .brx f ∨ i = .ret f) ∧ target = fun l => s.src64 c 0 f.a l)) →
    (c.noLoopEnd → (∀ l, on.getLsbD l → (target l).toNat % 12 = 0) →
      ∃ t, exec i s = .next t ∧ Transferred s t c (branchPc s c on target)) ∧
    (MayStop s c → (∃ l, l < 32 ∧ on.getLsbD l ∧ (target l).toNat % 12 ≠ 0) →
      ∃ t m, exec i s = .next t ∧ StoppedWith s t c .ialign m (target (lowest m)) 0 ∧
        ∀ l, l < 32 → (m.getLsbD l = true ↔ on.getLsbD l ∧ (target l).toNat % 12 ≠ 0))) ∧
  (∀ (s : State) (i : Instr) (c : Ctx) (f : Fmt) (on : Mask) (off : BitVec 20) (d : BitVec 8) (target : Nat → W64),
    s.Executes i c f on → f.d = .vec d → c.noLoopEnd →
    ((i = .call f off ∧ target = fun _ => c.pc + 12 * off.signExtend 64) ∨
      (i = .callx f ∧ target = fun l => s.src64 c 0 f.a l)) →
    (∀ l, on.getLsbD l → (target l).toNat % 12 = 0) →
    ∃ t, exec i s = .next t ∧ s.OnlyWarp t c.wid ∧ (∀ l, l < 32 → t.lanePc c.wid l = branchPc s c on target l) ∧
      (∀ r l, l < 32 → t.vreg c.wid r l =
        if on.getLsbD l ∧ r = d.toNat then c.nextPc.setWidth 32
        else if on.getLsbD l ∧ r = d.toNat + 1 then (c.nextPc >>> 32).setWidth 32
        else s.vreg c.wid r l) ∧ ∀ l, l < 32 → window t c.wid l = window s c.wid l)

/-- R276: a move from a register each lane names, and to one, where every named register is declared; otherwise, once the
warp may stop, the group stops with `RIDX` and the lowest on lane's bad index among the first. -/
def Obligations.IndexedMoves : Prop :=
  ∀ (s : State) (c : Ctx) (f : Fmt) (on : Mask) (imm : BitVec 20),
    let idx := fun l => (s.src c imm .raw f.a l).toNat
    (s.Executes (.mov f imm .fromIdx) c f on → (∀ l, on.getLsbD l → idx l < c.g.rec_.vec) →
      ∃ t, exec (.mov f imm .fromIdx) s = .next t ∧ Wrote s t c f.d on fun l => [s.vreg c.wid (idx l) l]) ∧
    (s.Executes (.mov f imm .toIdx) c f on → (∀ l, on.getLsbD l → idx l < c.g.rec_.vec) →
      ∃ t, exec (.mov f imm .toIdx) s = .next t ∧ (∀ r l, l < 32 → t.vreg c.wid r l =
        if on.getLsbD l ∧ r = idx l then s.src c imm .raw f.b l else s.vreg c.wid r l) ∧
        (∀ r, t.ureg c.wid r = s.ureg c.wid r) ∧ s.OnlyWarp t c.wid) ∧
    (∀ m x, (m = .fromIdx ∨ m = .toIdx) → s.Executes (.mov f imm m) c f on → MayStop s c → on.getLsbD x →
      c.g.rec_.vec ≤ idx x → (∀ l, l < x → on.getLsbD l → idx l < c.g.rec_.vec) →
      ∃ t, exec (.mov f imm m) s = .next t ∧ StoppedWith s t c .ridx c.lanes (w64 (idx x)) 0)

/-- R33, R63 to R65: both halves of a paired word read the state before it; the first writes, then the second, and each
that is not `HNOP` shifts the window. -/
def Obligations.PairedHalves : Prop :=
  ∀ (s : State) (c : Ctx) (g : Guard) (h : PHints) (h1 h2 : Half),
    s.ctx? = some c → (c.on g = 0 ∨ (halfRidx c.g.rec_ h1 = none ∧ halfRidx c.g.rec_ h2 = none)) →
    let writes := fun (x : Half) (r : Nat) => x.op ≠ .hnop ∧ x.nwb = false ∧ x.d.toNat = r
    let shifts := fun (x : Half) (l : Nat) => if x.op = .hnop then [] else [(c.halfVal x l).1]
    ∃ t, exec (.pairedWord g h h1 h2) s = .next t ∧ s.OnlyWarp t c.wid ∧
      (∀ r l, l < 32 → t.vreg c.wid r l =
        if (c.on g).getLsbD l ∧ writes h2 r then (c.halfVal h2 l).1
        else if (c.on g).getLsbD l ∧ writes h1 r then (c.halfVal h1 l).1
        else s.vreg c.wid r l) ∧
      (∀ l, l < 32 → window t c.wid l =
        if (c.on g).getLsbD l then shifted (shifts h1 l ++ shifts h2 l) (window s c.wid l) else window s c.wid l) ∧
      (∀ r, t.ureg c.wid r = s.ureg c.wid r) ∧ ∀ p, t.preg c.wid p = s.preg c.wid p

/-- R289: a conversion to a format slot writes the rounded element; under a stochastic mode `%srctr` rises by one in each
lane that converts, and otherwise stays. -/
def Obligations.StochasticConversion : Prop :=
  ∀ (s : State) (c : Ctx) (f : Fmt) (on : Mask) (imm : BitVec 20) (r : CvtRnd) (slot : BitVec 3),
    s.Executes (.cvtTo f imm r slot) c f on →
    let fs := c.g.slot slot.toNat
    ∃ t w, exec (.cvtTo f imm r slot) s = .next t ∧ t.warp? c.wid = some w ∧
      (Wrote s t c f.d on fun l =>
        [(cvtElem fs.elem (f32 (s.src c imm (.flt 32) f.a l))
          (cvtMode r fs (sr32 fs.seed (s.item c l) (cget c.w.srctr l))) fs.special).1]) ∧
      ∀ l, l < 32 → cget w.srctr l =
        if cvtStoch r fs = true ∧ on.getLsbD l ∧ (f.d.isUni = true → l = lowest on) then cget c.w.srctr l + 1
        else cget c.w.srctr l

/-- R311, R312: `LOOP`, where no active lane pushes outside the nesting rules or stands at the end of its loop's body: an on
lane whose count is not 0 pushes an entry for the body that follows, and every other active lane continues after the body,
out of the loops that it leaves. A lane that would nest wrongly stops with `LOOP_NEST`, and one at the end of its body with
`LOOP_END`. The model's own readings: log 33. -/
def Obligations.Loops : Prop :=
  ∀ (s : State) (c : Ctx) (f : Fmt) (on : Mask) (endN cnt : BitVec 10),
    s.Executes (.loop f endN cnt) c f on →
    let n := fun l => min ((s.src c 0 (.int 32) f.a l).toNat + cnt.toNat) 0xFFFFFFFF
    let last := c.pc + 12 * endN.setWidth 64
    let enters := fun l => on.getLsbD l = true ∧ n l ≠ 0
    let stack := fun l => (tget c.w.loops l).getD []
    let nests := fun l => c.lanes.getLsbD l = true ∧ enters l ∧
      (2 ≤ (stack l).length ∨
        ∃ e, stack l = [e] ∧ ¬(e.start.toNat ≤ c.pc.toNat + 12 ∧ c.pc.toNat + 12 * endN.toNat ≤ e.stop.toNat))
    let ends := fun l => c.lanes.getLsbD l = true ∧ ¬enters l ∧ ∃ e r, stack l = e :: r ∧ e.stop = c.pc
    ((∀ l, l < 32 → ¬nests l ∧ ¬ends l) →
      ∃ t w, exec (.loop f endN cnt) s = .next t ∧ t.warp? c.wid = some w ∧ still c.w w ∧ s.OnlyWarp t c.wid ∧
        ∀ l, l < 32 →
          (c.lanes.getLsbD l = true → enters l → cget w.pc l = c.nextPc ∧
            (tget w.loops l).getD [] = ⟨c.nextPc, last, BitVec.ofNat 32 (n l)⟩ :: stack l) ∧
          (c.lanes.getLsbD l = true → ¬enters l → cget w.pc l = last + 12 ∧
            (tget w.loops l).getD [] = loopLeave c.pc.toNat (last + 12).toNat (stack l)) ∧
          (c.lanes.getLsbD l = false → cget w.pc l = cget c.w.pc l ∧ (tget w.loops l).getD [] = stack l)) ∧
    (MayStop s c → (∃ l, l < 32 ∧ nests l) →
      ∃ t m, exec (.loop f endN cnt) s = .next t ∧ StoppedWith s t c .loopNest m 0 0 ∧
        ∀ l, l < 32 → (m.getLsbD l = true ↔ nests l)) ∧
    (MayStop s c → (∀ l, l < 32 → ¬nests l) → (∃ l, l < 32 ∧ ends l) →
      ∃ t m, exec (.loop f endN cnt) s = .next t ∧ StoppedWith s t c .loopEnd m 0 0 ∧
        ∀ l, l < 32 → (m.getLsbD l = true ↔ ends l))

/-- R125, R308 to R310: `JOIN` and `WAITM`: active lanes that the mask does not hold pass. Once every lane that it holds
waits at a word of the kind, for `JOIN` at this one, all of them go on; until then they wait where they are. `LEAVE` takes
the on lanes out of the mask and `MSET` sets it. `JOIN`, `WAITM` and `LEAVE` inside a handler, on a mask that holds a lane
outside it, stop the lanes in it (R71; the model's own readings: log 34). -/
def Obligations.LaneMasks : Prop :=
  ∀ (s : State) (i : Instr) (c : Ctx) (f : Fmt) (on : Mask) (m : BitVec 4),
    s.Executes i c f on → (∀ l, c.lanes.getLsbD l → cget c.w.pc l = c.pc) →
    ((i = .join f ∨ i = .waitm f) → f.a = .mask m → c.nestedMask on m.toNat = none →
      NoLoopEndAt c.w (c.lanes ||| c.w.holds m.toNat) →
      let x := if i = .join f then LaneWait.join m.toNat else .waitm m.toNat
      let held := c.w.holds m.toNat
      let met := fun l => waitsAt c c.lanes x l = some x ∧ (i = .join f → cget c.w.pc l = c.pc)
      ∃ t w, exec i s = .next t ∧ t.warp? c.wid = some w ∧ s.OnlyWarp t c.wid ∧ ∀ l, l < 32 →
        (c.lanes.getLsbD l = true → held.getLsbD l = false → cget w.pc l = c.nextPc ∧ tget w.waits l = none) ∧
        (c.lanes.getLsbD l = false → held.getLsbD l = false →
          cget w.pc l = cget c.w.pc l ∧ tget w.waits l = tget c.w.waits l) ∧
        (held.getLsbD l = true → (∀ k, k < 32 → held.getLsbD k = true → met k) →
          cget w.pc l = cget c.w.pc l + 12 ∧ tget w.waits l = none) ∧
        (held.getLsbD l = true → (∃ k, k < 32 ∧ held.getLsbD k = true ∧ ¬met k) →
          cget w.pc l = cget c.w.pc l ∧ tget w.waits l = waitsAt c c.lanes x l)) ∧
    (i = .leave f → f.a = .mask m → c.nestedMask on m.toNat = none →
      ∃ t, exec i s = .next t ∧ s.OnlyWarp t c.wid ∧ ∀ k, t.mreg c.wid k =
        if k = m.toNat then s.mreg c.wid k &&& ~~~on else s.mreg c.wid k) ∧
    (∀ k n, (i = .join f ∨ i = .waitm f ∨ i = .leave f) → f.a = .mask m → c.nestedMask on m.toNat = some (k, n) →
      MayStop s c → ∃ t, exec i s = .next t ∧ StoppedWith s t c k n 0 0) ∧
    (∀ d, i = .mset f → f.d = .cls3 d →
      ∃ t, exec i s = .next t ∧ s.OnlyWarp t c.wid ∧ ∀ k, t.mreg c.wid k =
        if k = d.toNat ∧ on ≠ 0 then
          match f.a with
          | .pred n p => maskOf ((lanesOf on).filter fun l => (s.preg c.wid p.toNat).getLsbD l != n)
          | x => s.src c 0 .raw x (lowest on)
        else s.mreg c.wid k)

/-- R315, R317: `TRAP`, and `BKPT` where no debug handler is set, stop the on lanes with their code; with no lane on both
pass. R317, R318: `BKPT` with a debug handler set takes the on lanes to it, with the code, the lanes and the address of
the next instruction recorded; inside a debug handler it stops the lanes that entered, with `DBG_NEST`. `RTE` waits until
every lane that entered has executed it and their results are written; it then takes them to `%dbg.pc` with the recorded
windows, or stops them with `IALIGN` where that is no instruction address. Outside a debug handler it stops with
`DBG_NEST`. The model's own readings: log 34. -/
def Obligations.TrapsAndDebugHandler : Prop :=
  (∀ (s : State) (i : Instr) (c : Ctx) (f : Fmt) (on : Mask) (code : BitVec 16), s.Executes i c f on →
    (i = .trap f code ∨ i = .bkpt f code) →
    (on = 0 → c.noLoopEnd → ∃ t, exec i s = .next t ∧ s.Advanced t c ∧ s.OnlyWarp t c.wid) ∧
    (on ≠ 0 → MayStop s c → i = .trap f code → ∃ t, exec i s = .next t ∧ StoppedWith s t c .trap on (code.setWidth 64) 0) ∧
    (on ≠ 0 → MayStop s c → i = .bkpt f code → c.g.dbgEntry = none → (∀ m, c.nested on ≠ some (.dbgNest, m)) →
      ∃ t, exec i s = .next t ∧ StoppedWith s t c .bkpt on (code.setWidth 64) 0) ∧
    (∀ m, on ≠ 0 → MayStop s c → i = .bkpt f code → c.nested on = some (.dbgNest, m) →
      ∃ t, exec i s = .next t ∧ StoppedWith s t c .dbgNest m 0 0)) ∧
  (∀ (s : State) (c : Ctx) (f : Fmt) (on : Mask),
    (∀ code e, s.Executes (.bkpt f code) c f on → (∀ m, c.nested on ≠ some (.dbgNest, m)) → c.g.dbgEntry = some e → on ≠ 0 →
      s.drained c = true → c.w.dbgBusy = false →
      ∃ t v, exec (.bkpt f code) s = .next t ∧ t.warp? c.wid = some v ∧ s.OnlyWarp t c.wid ∧
        v.dbg = { inside := true, fromEmu := c.w.emu.inside, code := code, lanes := on, pc := c.nextPc,
                  win := c.w.windowOf on } ∧ v.vec = c.w.vec ∧ v.win = c.w.win ∧
        ∀ l, l < 32 → t.lanePc c.wid l = if on.getLsbD l then BitVec.ofNat 64 e else s.lanePc c.wid l) ∧
    (s.Executes (.rte f) c f on →
      let outside := on &&& ~~~(if c.w.dbg.inside then c.w.dbg.lanes else 0)
      let m := c.w.dbg.lanes &&& ~~~c.w.exited
      let all := ∀ l, l < 32 → m.getLsbD l = true → waitsAt c on .rte l = some .rte
      (outside ≠ 0 → MayStop s c → ∃ t, exec (.rte f) s = .next t ∧ StoppedWith s t c .dbgNest outside 0 0) ∧
      (outside = 0 → ¬(all ∧ s.drainedFor c m = true) →
        ∃ t v, exec (.rte f) s = .next t ∧ t.warp? c.wid = some v ∧ s.OnlyWarp t c.wid ∧ v.dbg = c.w.dbg ∧ v.pc = c.w.pc ∧
          ∀ l, l < 32 → tget v.waits l = waitsAt c on .rte l) ∧
      (outside = 0 → all → s.drainedFor c m = true → c.w.dbg.pc.toNat % 12 ≠ 0 → MayStop s c →
        ∃ t, exec (.rte f) s = .next t ∧ StoppedWith s t c .ialign m c.w.dbg.pc 0) ∧
      (outside = 0 → all → s.drainedFor c m = true → c.w.dbg.pc.toNat % 12 = 0 → NoLoopEndAt c.w m →
        ∃ t v, exec (.rte f) s = .next t ∧ t.warp? c.wid = some v ∧ v.dbg = { c.w.dbg with inside := false } ∧
          s.OnlyWarp t c.wid ∧ v.vec = c.w.vec ∧ ∀ l, l < 32 →
            tget v.waits l = (if m.getLsbD l then none else waitsAt c on .rte l) ∧
            t.lanePc c.wid l = (if m.getLsbD l then c.w.dbg.pc else s.lanePc c.wid l) ∧
            window t c.wid l = if m.getLsbD l then (List.range 8).map fun k => cget c.w.dbg.win (k * 32 + l)
              else window s c.wid l)))

/-- R67 to R69: a word that fails a decode check: with no handler it stops the group with `ILL_ENC`, the word and the
number of the check; with a handler the group enters it, once the warp's results are written and no lane of the warp is in
it, with the emulation registers set and nothing of its registers, window, flags or memory changed; inside a handler it
stops the lanes that entered (R71). R72: `EMUR` waits until every lane that entered has executed it and their results are
written: they then leave the handler for the instruction after the failing word, with the windows recorded at entry, and
`%emu.res` shifted in under `.w`. Lanes that are not in the handler stop with `EMU_NEST`. The model's own readings: log 34. -/
def Obligations.IllegalWordsAndEmulation : Prop :=
  (∀ (s : State) (c : Ctx) (w : IWord) (cause : DecodeCause), s.ctx? = some c →
    (∀ k m, c.nested c.lanes = some (k, m) → MayStop s c →
      ∃ t, exec (.nonInstructionEncoding w cause) s = .next t ∧ StoppedWith s t c k m 0 0) ∧
    (c.nested c.lanes = none → c.g.rec_.emuEntry = 0 → MayStop s c →
      ∃ t, exec (.nonInstructionEncoding w cause) s = .next t ∧
        StoppedWith s t c .illEnc c.lanes (w.extractLsb' 0 64)
          ((w.extractLsb' 64 32).setWidth 64 ||| (BitVec.ofNat 64 (DecodeCause.num cause) <<< 32))) ∧
    (c.nested c.lanes = none → c.g.rec_.emuEntry ≠ 0 → c.w.emuBusy = true ∨ s.drained c = false →
      exec (.nonInstructionEncoding w cause) s = .next s) ∧
    (c.nested c.lanes = none → c.g.rec_.emuEntry ≠ 0 → c.w.emuBusy = false → s.drained c = true →
      ∃ t v, exec (.nonInstructionEncoding w cause) s = .next t ∧ t.warp? c.wid = some v ∧ s.OnlyWarp t c.wid ∧
        v.emu = { inside := true, word := w, cause := DecodeCause.num cause, lanes := c.lanes, pc := c.pc,
                  win := c.w.windowOf c.lanes } ∧ v.emuRes = [] ∧
        (∀ l, l < 32 → t.lanePc c.wid l =
          if c.lanes.getLsbD l then BitVec.ofNat 64 c.g.rec_.emuEntry else s.lanePc c.wid l) ∧
        v.vec = c.w.vec ∧ v.uni = c.w.uni ∧ v.pred = c.w.pred ∧ v.win = c.w.win ∧ v.fstat = c.w.fstat ∧
        v.rdCnt = c.w.rdCnt ∧ v.pubCnt = c.w.pubCnt ∧ ∀ a, t.byte a = s.byte a)) ∧
  (∀ (s : State) (c : Ctx) (f : Fmt) (on : Mask) (w : Bool), s.Executes (.emur f w) c f on →
    let outside := on &&& ~~~(if c.w.emu.inside then c.w.emu.lanes else 0)
    let m := c.w.emu.lanes &&& ~~~c.w.exited
    let all := on ≠ 0 ∧ ∀ l, l < 32 → m.getLsbD l = true → ∃ b, waitsAt c on (.emur w) l = some (.emur b)
    let off := c.lanes &&& ~~~on
    (outside ≠ 0 → MayStop s c → ∃ t, exec (.emur f w) s = .next t ∧ StoppedWith s t c .emuNest outside 0 0) ∧
    (outside = 0 → ¬(all ∧ s.drainedFor c m = true) → c.noLoopEnd →
      ∃ t v, exec (.emur f w) s = .next t ∧ t.warp? c.wid = some v ∧ s.OnlyWarp t c.wid ∧ v.emu = c.w.emu ∧
        ∀ l, l < 32 → tget v.waits l = waitsAt c on (.emur w) l ∧
          t.lanePc c.wid l = if off.getLsbD l then c.nextPc else s.lanePc c.wid l) ∧
    (outside = 0 → all → s.drainedFor c m = true → NoLoopEndAt c.w m → c.noLoopEnd → off &&& m = 0 →
      ∃ t v, exec (.emur f w) s = .next t ∧ t.warp? c.wid = some v ∧ v.emu = { c.w.emu with inside := false } ∧
        s.OnlyWarp t c.wid ∧ v.vec = c.w.vec ∧ ∀ l, l < 32 →
          tget v.waits l = (if m.getLsbD l then none else waitsAt c on (.emur w) l) ∧
          t.lanePc c.wid l = (if m.getLsbD l then c.w.emu.pc + 12 else if off.getLsbD l then c.nextPc
            else s.lanePc c.wid l) ∧
          window t c.wid l = if m.getLsbD l then
              shifted (if waitsAt c on (.emur w) l = some (.emur true) then [cget c.w.emuRes l] else [])
                ((List.range 8).map fun k => cget c.w.emu.win (k * 32 + l))
            else window s c.wid l))

/-- R321: `SRD` writes a special register's value, both words of a 64-bit one, and waits for instructions that may still
raise the flags it names. R322: `SWR` writes `%srctr` and `%emu.res` in each on lane and `%dbg.pc` once, and clears the bits
written as 1 of `%fstat`, `%mstat` and `%qseal`; it waits for instructions that may still write the register. No other
special register that a program writes, and no register of the other classes, changes. -/
def Obligations.SpecialRegisters : Prop :=
  ∀ (s : State) (c : Ctx) (f : Fmt) (on : Mask) (n : BitVec 8),
    (s.Executes (.srd f) c f on → f.a = .spec n →
      (s.flagsPending c n = true → exec (.srd f) s = .next s) ∧
      (s.flagsPending c n = false →
        ∃ t, exec (.srd f) s = .next t ∧ NoFlags t c ∧ s.OnlyWarp t c.wid ∧ (c.noLoopEnd → s.Advanced t c) ∧
          Wrote s t c f.d on fun l => if specIs64 n then words2 (s.special c n l) else [(s.special c n l).setWidth 32])) ∧
    (s.Executes (.swr f) c f on → f.d = .cls3 n →
      (s.specialPending c n = true → exec (.swr f) s = .next s) ∧
      (s.specialPending c n = false →
        ∃ t w, exec (.swr f) s = .next t ∧ t.warp? c.wid = some w ∧ s.OnlyWarp t c.wid ∧ (c.noLoopEnd → s.Advanced t c) ∧
          let x := s.src c 0 .raw f.a (lowest on)
          w.fstat = (if n = 0x1A ∧ on ≠ 0 then c.w.fstat &&& ~~~x.setWidth 3 else c.w.fstat) ∧
          w.mstat = (if n = 0x1B ∧ on ≠ 0 then c.w.mstat &&& ~~~x.setWidth 2 else c.w.mstat) ∧
          w.dbg = (if n = 0x42 ∧ on ≠ 0 then { c.w.dbg with pc := s.src64 c 0 f.a (lowest on) } else c.w.dbg) ∧
          (∀ l, l < 32 → cget w.srctr l =
            if n = 0x1C ∧ on.getLsbD l then s.src c 0 .raw f.a l else cget c.w.srctr l) ∧
          (∀ l, l < 32 → cget w.emuRes l =
            if n = 0x3C ∧ on.getLsbD l then s.src c 0 .raw f.a l else cget c.w.emuRes l) ∧
          (f.stairs = [] → ∀ l, l < 32 → cget w.qseal l =
            if n = 0x18 ∧ on.getLsbD l then cget c.w.qseal l &&& ~~~(s.src c 0 .raw f.a l).setWidth 5
            else cget c.w.qseal l) ∧
          w.vec = c.w.vec ∧ w.uni = c.w.uni ∧ w.pred = c.w.pred ∧ w.mask = c.w.mask ∧ w.win = c.w.win ∧ w.emu = c.w.emu))

/-- R124, R131, R134, R314: `EXIT`. With no lane on the group goes on. The on lanes of a root or node team leave the warp, its
masks and its loops; the items of a root team's have exited; the other active lanes go on at the next instruction. R185,
R381: a lane of a shader team leaves once its results are written and the release of its stores is done, and waits until
then (the model's own readings: log 35). -/
def Obligations.Exits : Prop :=
  ∀ (s : State) (c : Ctx) (f : Fmt) (on : Mask), s.Executes (.exit f) c f on →
    (on = 0 → c.w.waits = [] → ∃ t, exec (.exit f) s = .next t ∧ s.Advanced t c ∧ s.OnlyWarp t c.wid) ∧
    (on ≠ 0 → s.bars = [] → c.w.waits = [] → c.w.launched &&& ~~~(c.w.exited ||| on) &&& ~~~c.w.stopped ≠ 0 →
      c.wid / 32 = c.w.tid → (∀ x, c.t.kind ≠ .shader x) →
      ∃ t w g, exec (.exit f) s = .next t ∧ t.warp? c.wid = some w ∧ t.grid? c.t.gid = some g ∧
        w.exited = c.w.exited ||| on ∧
        (∀ k, k < 12 → cget w.mask k = cget c.w.mask k &&& ~~~on) ∧
        (∀ l, l < 32 → on.getLsbD l → tget w.loops l = none) ∧
        (∀ l, l < 32 → cget w.pc l =
          if c.lanes.getLsbD l ∧ on.getLsbD l = false then c.nextPc else cget c.w.pc l) ∧
        w.vec = c.w.vec ∧ w.uni = c.w.uni ∧ w.pred = c.w.pred ∧ t.mem = s.mem ∧ t.hevents = s.hevents ∧
        g.itemsExited = c.g.itemsExited ++
          (if c.t.kind = .root then (lanesOf on).map fun l => (s.item c l).toNat else [])) ∧
    (∀ x, on ≠ 0 → c.t.kind = .shader x →
      (s.shaderEnds c on = none → exec (.exit f) s = .next s) ∧
      (∀ l, s.shaderEnds c on = some (some l) → exec (.exit f) s = .next (s.drain c.t.core c.wid l)) ∧
      (s.shaderEnds c on = some none → s.bars = [] → c.w.waits = [] →
        c.w.launched &&& ~~~(c.w.exited ||| on) &&& ~~~c.w.stopped ≠ 0 → c.wid / 32 = c.w.tid →
        ∃ t w, exec (.exit f) s = .next t ∧ t.warp? c.wid = some w ∧ w.exited = c.w.exited ||| on ∧
          (∀ k, k < 12 → cget w.mask k = cget c.w.mask k &&& ~~~on)))

/-- R257, R350, R123: barriers of every level whose phase has seen no arrival, for a warp all of whose lanes stand at the word
with its earlier accesses and matrix operations done (R185): where it is the only participant, `BAR.arv` and `BAR.sync`
complete the phase and the lanes go on; where another warp of a team that takes part has yet to arrive, or a team that takes
part has yet to be placed, the lanes of `BAR.sync` wait where they are and those of `BAR.arv` go on. Until the earlier
accesses are done the word waits. An index at or above the declared count stops the group with `BAR_IDX`; inside a handler
the lanes that entered stop (R71). The model's own readings: log 32. -/
def Obligations.TeamBarriers : Prop :=
  ∀ (s : State) (i : Instr) (c : Ctx) (f : Fmt) (on : Mask) (n : BitVec 4) (lvl : BarLvl),
    s.Executes i c f on → (i = .barArv f lvl n ∨ i = .barSync f lvl n) →
    (∀ k m, c.nested on = some (k, m) → MayStop s c → ∃ t, exec i s = .next t ∧ StoppedWith s t c k m 0 0) ∧
    (c.nested on = none → c.g.rec_.bars lvl ≤ n.toNat → MayStop s c →
      ∃ t, exec i s = .next t ∧ StoppedWith s t c .barIdx c.lanes (n.setWidth 64) 0) ∧
    (c.nested on = none → n.toNat < c.g.rec_.bars lvl → s.barRelease c lvl = none → exec i s = .next s) ∧
    (c.nested on = none → n.toNat < c.g.rec_.bars lvl → s.barRelease c lvl = some none → c.w.waits = [] → c.noLoopEnd →
      (∀ l, c.lanes.getLsbD l → cget c.w.pc l = c.pc) → c.w.alive = c.lanes → c.lanes ≠ 0 → s.bars = [] →
      (lvl = .team ∨ c.t.commit = []) →
      let b := c.barOwner lvl
      (s.barTeams lvl b = ([(c.w.tid, c.t)], true) → c.t.nwarps = 1 → c.wid = widOf c.w.tid 0 →
        ∃ t, exec i s = .next t ∧ s.Advanced t c ∧ (t.bar lvl b n.toNat).phase = 1 ∧
          (t.bar lvl b n.toNat).arrived = [] ∧ t.mem = s.mem) ∧
      (((∃ x m k v, (x, m) ∈ (s.barTeams lvl b).1 ∧ k < m.nwarps ∧ s.warp? (widOf x k) = some v ∧ v.alive ≠ 0 ∧
          widOf x k ≠ c.wid) ∨ (s.barTeams lvl b).2 = false) →
        ∃ t w, exec i s = .next t ∧ t.warp? c.wid = some w ∧ (t.bar lvl b n.toNat).phase = 0 ∧
          (t.bar lvl b n.toNat).arrived = [(c.wid, i == .barSync f lvl n)] ∧
          ∀ l, c.lanes.getLsbD l →
            (i = .barSync f lvl n → cget w.pc l = c.pc ∧ tget w.waits l = some (.bar lvl n.toNat)) ∧
            (i = .barArv f lvl n → cget w.pc l = c.nextPc ∧ tget w.waits l = none)))

/-- R130 to R132, R136, R351: `PUBQ` appends each on lane's value to its item's channel and counts it, where no value of the
items is still to be released and no release fence of the warp is under way (R194); a lane whose count is full publishes
nothing and its `%qseal` bit is set; in a node team `PUBQ` has no effect. A held publish
waits, and its wait is timed. A landing brings the next value, or the exit of the item, into a core's stairs, the packets of
one channel between two sockets in their order (R453; log 73). A publish that has waited 100 ms is reported once, when the
warp's results are written, and no lane stops. -/
def Obligations.Stairs : Prop :=
  (∀ (s : State) (c : Ctx) (f : Fmt) (on : Mask) (j : BitVec 2),
    s.Executes (.pubq f j) c f on →
    let full := fun l => cget c.w.pubCnt (j.toNat * 32 + l) = 0xFFFFFFFF
    (∀ a b d, c.t.kind = .node a b d → f.stairs = [] →
      ∃ t, exec (.pubq f j) s = .next t ∧ s.OnlyWarp t c.wid ∧ (c.noLoopEnd → s.Advanced t c) ∧
        ∃ w, t.warp? c.wid = some w ∧ still c.w w) ∧
    ((∀ a b d, c.t.kind ≠ .node a b d) → s.pubWaits c j.toNat on = true →
      ∃ w, exec (.pubq f j) s = .next (s.setWarp c.wid w) ∧ w = { c.w with pubWait := w.pubWait } ∧
        ∃ ns b, (c.pc, ns, b) ∈ w.pubWait) ∧
    ((∀ a b d, c.t.kind ≠ .node a b d) → s.pubWaits c j.toNat on = false → c.w.releasing = true →
      exec (.pubq f j) s = .next s) ∧
    ((∀ a b d, c.t.kind ≠ .node a b d) → s.pubWaits c j.toNat on = false → c.w.releasing = false →
      (∀ l k, l < 32 → k < 32 → on.getLsbD l → on.getLsbD k → s.item c l = s.item c k → l = k) →
      ∃ t w, exec (.pubq f j) s = .next t ∧ t.warp? c.wid = some w ∧
        (∀ l, l < 32 → cget w.pubCnt (j.toNat * 32 + l) =
          if on.getLsbD l ∧ ¬full l then cget c.w.pubCnt (j.toNat * 32 + l) + 1 else cget c.w.pubCnt (j.toNat * 32 + l)) ∧
        (∀ l, l < 32 → on.getLsbD l → full l → (cget w.qseal l).getLsbD j.toNat = true) ∧
        (∀ g l, t.grid? c.t.gid = some g → l < 32 → on.getLsbD l → ¬full l →
          let p := chanKey (s.item c l).toNat j.toNat
          let k := (tget c.g.pubN p).getD 0 + 1
          tget g.pubN p = some k ∧ tget g.pubs (p * 2 ^ 33 + k) = some (s.src c 0 .raw f.a l)) ∧
        w.vec = c.w.vec ∧ t.mem = s.mem ∧ (c.noLoopEnd → s.Advanced t c))) ∧
  (∀ (s : State) (gid core item ch : Nat) (g : Grid), s.grid? gid = some g →
    let n := ((s.core core).landedAt gid item ch).1
    let ex := ((s.core core).landedAt gid item ch).2
    (s.stairFirst gid g core item ch = false → exec (.stairValueArrival gid core item ch) s = .next s) ∧
    (s.stairFirst gid g core item ch = true → n < (tget g.pubN (chanKey item ch)).getD 0 →
      ∃ t, exec (.stairValueArrival gid core item ch) s = .next t ∧ (t.core core).landedAt gid item ch = (n + 1, ex) ∧
        t = { s with cores := t.cores }) ∧
    (s.stairFirst gid g core item ch = true → (tget g.pubN (chanKey item ch)).getD 0 ≤ n →
      g.itemsExited.contains item = true → ex = false →
      ∃ t, exec (.stairValueArrival gid core item ch) s = .next t ∧ (t.core core).landedAt gid item ch = (n, true) ∧
        t = { s with cores := t.cores })) ∧
  (∀ (s : State) (wid : Nat) (w : Warp) (a : W64) (since : Nat) (pre post : List (W64 × Nat × Bool)) (c : Ctx),
    s.warp? wid = some w → w.pubWait = pre ++ (a, since, false) :: post →
    (∀ x, x ∈ pre → x.2.2 = true ∨ s.ns < x.2.1 + 100000000) → (a, since, false) ∉ post → since + 100000000 ≤ s.ns →
    s.ctxOf wid w.launched = some c → s.canReport = true → s.drained c = true →
    ∃ t v e, exec (.stairStall wid) s = .next t ∧ t.warp? wid = some v ∧
      v = { w with pubWait := pre ++ (a, since, true) :: post } ∧
      t.hevents = s.hevents ++ [e] ∧ e.cause = Cause.stairStall.code ∧ e.pc = a ∧ e.lanes = 0 ∧
      t = { s with warps := t.warps, hevents := t.hevents })

/-! ## Terms for accesses and units -/

namespace Sys2Proof.Claims

/-- A team that is not replay-active and runs no shader, whose warp has its own key: nothing it issues ends a replay
(R129). -/
def Plain (c : Ctx) : Prop := c.wid / 32 = c.w.tid ∧ c.t.active = false ∧ ∀ l, c.t.kind ≠ .shader l

/-- A word has issued: nothing differs but its warp, the grid's counts of stair reads, cached translations and free
choices; no byte of memory differs; the active lanes go on at the next instruction. -/
def Issued (s t : State) (c : Ctx) : Prop :=
  t = { s with warps := t.warps, grids := t.grids, tlb := t.tlb, walkCache := t.walkCache, cores := t.cores,
               fresh := t.fresh } ∧
    (∀ k, { t.core k with tlb := [] } = { s.core k with tlb := [] }) ∧
    (∀ j, j ≠ c.wid → t.warp? j = s.warp? j) ∧
    (∀ j, (t.grid? j).map (fun g => { g with rdN := [] }) = (s.grid? j).map (fun g => { g with rdN := [] })) ∧
    (∀ a, t.byte a = s.byte a) ∧ (c.noLoopEnd → s.Advanced t c)

/-- Some of the lanes are in the emulation handler (R168). -/
def inEmu (c : Ctx) (lanes : Mask) : Bool := c.w.emu.inside && lanes &&& c.w.emu.lanes != 0

/-- R78, R177: the results `ps` join the warp's pending results and the entries `es` its store queue, each marked where its
lanes are in the emulation handler; its registers are as they were. Which window entry a result will fill is left out. -/
def InMotion (t : State) (c : Ctx) (ps : List Pend) (es : List SqEnt) : Prop :=
  ∃ w qs xs, t.warp? c.wid = some w ∧ w.pend = c.w.pend ++ qs ∧ qs.map (fun q => { q with slots := [], emu := false }) = ps ∧
    w.sq = c.w.sq ++ xs ∧ xs.map (fun x => { x with emu := false }) = es ∧ (∀ q, q ∈ qs → q.emu = inEmu c q.lanes) ∧
    (∀ x, x ∈ xs → x.emu = inEmu c x.lanes) ∧ w.nextSeq = c.w.nextSeq + ps.length + es.length ∧ w.vec = c.w.vec ∧
    w.uni = c.w.uni ∧ w.pred = c.w.pred ∧ w.mask = c.w.mask ∧ w.fstat = c.w.fstat ∧ w.unack = c.w.unack

/-- R14: with no lane on the word does nothing but pass. -/
def PassesOff (s : State) (i : Instr) (c : Ctx) (on : Mask) : Prop :=
  on = 0 → ∃ t, exec i s = .next t ∧ Issued s t c ∧ InMotion t c [] []

/-- The lanes with their global addresses (R326). -/
def vasOf (s : State) (c : Ctx) (f : Fmt) (off : BitVec 20) (lanes : List Nat) : List (Nat × Nat) :=
  lanes.map fun l => (l, s.gaddr c f off l)

/-- The lanes with their addresses, translated in lane order; for a target that `served` names no memory request is made. -/
def reached (s : State) (c : Ctx) (f : Fmt) (off : BitVec 20) (lanes : List Nat) (scratch : Bool) (acc : Acc)
    (served : Loc → Bool) : List (Nat × Nat × Except Nat Loc) :=
  (s.locateEach c scratch acc served (vasOf s c f off lanes)).1

/-- No target is served without a request. -/
def unserved : Loc → Bool := fun _ => false

/-- R327: the addresses (or exact offsets) of some lanes are multiples of `n`. -/
def AllAligned (lanes : List Nat) (addr : Nat → Int) (n : Nat) : Prop := ∀ l, l ∈ lanes → addr l % n = 0

/-- Lane `l` is the first of the lanes that breaks a condition on its address; the group stops with the cause and that
address (R422, R476). -/
def StopsFirst (s : State) (i : Instr) (c : Ctx) (lanes : List Nat) (addr : Nat → Int) (ok : Nat → Prop) (cause : Cause) :
    Prop :=
  ∀ pre l post, lanes = pre ++ l :: post → (∀ k, k ∈ pre → ok k) → ¬ok l → MayStop s c →
    ∃ t, exec i s = .next t ∧ StoppedWith s t c cause c.lanes (ofInt 64 (addr l)) 0

/-- R327: the group stops at the first lane whose address is no multiple of `n`. -/
def StopsUnaligned (s : State) (i : Instr) (c : Ctx) (lanes : List Nat) (addr : Nat → Int) (n : Nat) (cause : Cause) : Prop :=
  StopsFirst s i c lanes addr (fun l => addr l % n = 0) cause

/-- No L1 holds an update-only line (R154): no access recalls one. -/
def Quiet (s : State) : Prop := ∀ l, s.holders l = []

/-- The number of `n` bytes at an address of a memory. -/
def numAt (m : Nat → Byte) (a n : Nat) : W64 := w64 (leNat ((List.range n).map fun i => m (a + i)))

/-- The memory with the low `n` bytes of a number stored at an address. -/
def putAt (m : Nat → Byte) (a n : Nat) (v : W64) : Nat → Byte :=
  fun x => if a ≤ x ∧ x < a + n then (v >>> (8 * (x - a))).setWidth 8 else m x

/-- R196, R336: atomics applied one after another: lane, address, operand. -/
def updates (op : AOp) (t : AType) (l : List (Nat × Nat × W64)) (m : Nat → Byte) : Nat → Byte :=
  l.foldl (fun m o => putAt m o.2.1 (AType.bytes t) (atomNew op t (numAt m o.2.1 (AType.bytes t)) o.2.2)) m

/-- R338: compare-and-swaps applied one after another: lane, address, compare, new. -/
def swaps (n : Nat) (l : List (Nat × Nat × W64 × W64)) (m : Nat → Byte) : Nat → Byte :=
  l.foldl (fun m o => if numAt m o.2.1 n = o.2.2.1 then putAt m o.2.1 n o.2.2.2 else m) m

/-- The request has left the core, and the warp's count of unacknowledged requests has fallen (R181); earlier requests of
its channel may have been delivered (R453). -/
def Served (s t : State) (core : Nat) (r : Req) : Prop :=
  (t.core core).inflight.map (fun x => { x with arrived := false }) =
      ((s.core core).inflight.filter (·.id != r.id)).map (fun x => { x with arrived := false }) ∧
    ∀ w, s.warp? r.wid = some w → ∃ v, t.warp? r.wid = some v ∧ v.unack = w.unack - (if r.acks then 1 else 0) ∧
      v.vec = w.vec ∧ v.uni = w.uni ∧ v.pred = w.pred ∧ v.pc = w.pc

/-- R197: lane `l` of a pending result of a warp has received words. -/
def Replied (t : State) (wid pend l : Nat) (vs : List W32) : Prop :=
  ∃ w, t.warp? wid = some w ∧ ∀ p, p ∈ w.pend → p.seq = pend → tget p.got l = some vs

/-- Whatever is cached, every one of some byte addresses translates. -/
def Translates (s : State) (c : Ctx) (acc : Acc) (l : List Nat) : Prop :=
  ∀ (s' : State) (l' : List Nat),
    s' = { s with tlb := s'.tlb, walkCache := s'.walkCache, cores := s'.cores, fresh := s'.fresh } →
    (∀ k, { s'.core k with tlb := [] } = { s.core k with tlb := [] }) → (∀ x, x ∈ l' → x ∈ l) →
    ∀ x, x ∈ (s'.locateBytes c acc l').1 → ∃ y, x.2 = .ok y

/-- R165, R328: an asynchronous operation of the team has been issued: it joins those in progress, and its tag's count has
risen. -/
def Started (s t : State) (c : Ctx) (on : Mask) (tag : BitVec 6) (k : OpKind) : Prop :=
  (∃ o, t.ops = s.ops ++ [o] ∧ o.kind = k ∧ o.gid = c.t.gid ∧ o.tid = c.w.tid ∧ o.wid = c.wid ∧ o.lanes = on ∧
    o.pc = c.pc ∧ o.tag = tag.toNat ∧ o.done = 0 ∧ o.suspended = false) ∧
  (∃ m, t.team? c.w.tid = some m ∧ m.tagCount tag.toNat = c.t.tagCount tag.toNat + 1 ∧
    m.tagClear = c.t.tagClear ||| (1#64 <<< tag.toNat)) ∧
  (∀ a, t.byte a = s.byte a) ∧ (∀ r l, t.vreg c.wid r l = s.vreg c.wid r l) ∧ (c.noLoopEnd → s.Advanced t c)

/-- R166, R168: an operation is suspended, with a record of its grid. -/
def Suspended (s t : State) (o : AsyncOp) (g : Grid) (kind engine va ftype : Nat) : Prop :=
  (∃ g' e, t.grid? o.gid = some g' ∧ g'.faults = g.faults ++ [e] ∧ e.kind = kind ∧ e.engine = engine ∧ e.ftype = ftype ∧
    e.va = w64 va ∧ e.pc = o.pc ∧ e.lanes = o.lanes ∧ e.async = true ∧ e.tag = o.tag) ∧
  t.ops = s.ops.map fun x => if x.id == o.id then { x with suspended := true } else x

/-- R427: a command has been answered: its response waits for the cluster, and `MG_INT` says so. -/
def Answered (s t : State) (m : Msg) (own : Nat) (st : Status) (result : Nat) : Prop :=
  t.rspQ = s.rspQ ++ [answerOf m own st result] ∧ t.mg.int_ = s.mg.int_ ||| 4

end Sys2Proof.Claims

/-! ## Special functions and the lane network -/

/-- R77, R287: a special function joins its partition's queue, where that has a place among 16, with its results as they will
be written, one for each accessing lane; with no lane on it passes, and it waits for a place. The first operation of the
queue that has not entered the unit enters it once it has issued and 4 cycles have passed since the one ahead of it; once it
has been in the unit for 20 or 28 cycles its results go to its destination and its flags to `%fstat`. The model's own
readings: log 15. -/
def Obligations.SpecialFunctions : Prop :=
  (∀ (s : State) (c : Ctx) (f : Fmt) (on : Mask) (imm : BitVec 20) (op : SfuOp),
    s.Executes (.sfu f imm op) c f on →
    let waiting := ((s.part c.part).sfu.filter fun e => e.entered.isNone).length
    (16 ≤ waiting → exec (.sfu f imm op) s = .next s) ∧
    (waiting < 16 → on = 0 → ∃ t, exec (.sfu f imm op) s = .next t ∧ s.OnlyWarp t c.wid ∧ (c.noLoopEnd → s.Advanced t c) ∧
      ∃ w, t.warp? c.wid = some w ∧ w.vec = c.w.vec ∧ w.uni = c.w.uni ∧ w.fstat = c.w.fstat ∧ w.pend = c.w.pend) ∧
    (waiting < 16 → on ≠ 0 →
      ∃ t w q, exec (.sfu f imm op) s = .next t ∧ t.warp? c.wid = some w ∧ w.pend = c.w.pend ++ [q] ∧
        q.seq = c.w.nextSeq ∧ q.ctr = 1 ∧ q.dst = f.d ∧ q.lanes = on ∧
        q.got = (accessLanes f.d on).map (fun l => (l, [(sfuEval op (s.src c imm (.flt 32) f.a l)).1])) ∧
        q.kind = .sfu (((accessLanes f.d on).map fun l =>
          (sfuEval op (s.src c imm (.flt 32) f.a l)).2.bits).foldl (· ||| ·) 0) ∧
        (t.part c.part).sfu = (s.part c.part).sfu ++ [⟨c.wid, c.w.nextSeq, SfuOp.slow op, s.now, none⟩] ∧
        w.vec = c.w.vec ∧ w.uni = c.w.uni ∧ w.fstat = c.w.fstat ∧ (c.noLoopEnd → s.Advanced t c))) ∧
  (∀ (s : State) (p : Nat) (e : SfuEnt) (pre rest : List SfuEnt),
    (s.part p).sfu = pre ++ e :: rest → (∀ x, x ∈ pre → x.entered ≠ none) → e.entered = none →
    (∀ x, x ∈ pre ++ rest → ¬(x.wid = e.wid ∧ x.pend = e.pend)) →
    let due := match (s.part p).lastEnter with
      | some c => max e.issued (c + 4)
      | none => e.issued
    (s.now < due → exec (.sfuQueueEntry p) s = .next s) ∧
    (due ≤ s.now →
      ∃ t, exec (.sfuQueueEntry p) s = .next t ∧ (t.part p).sfu = pre ++ { e with entered := some due } :: rest ∧
        (t.part p).lastEnter = some due ∧ t = { s with parts := t.parts })) ∧
  (∀ (s : State) (p k : Nat) (e : SfuEnt) (at_ : Nat) (w : Warp) (q : Pend) (fl : BitVec 3),
    (s.part p).sfu[k]? = some e → e.entered = some at_ →
    let ends := at_ + (if e.slow then 28 else 20)
    (s.now < ends → exec (.sfuResultWrite p k) s = .next s) ∧
    (ends ≤ s.now → s.warp? e.wid = some w → q ∈ w.pend → (∀ x, x ∈ w.pend → x.seq = q.seq → x = q) → q.seq = e.pend →
      q.kind = .sfu fl → (q.got.map (·.1)).Nodup → (∀ x, x ∈ q.got → x.1 < 32) →
      ∃ t x, exec (.sfuResultWrite p k) s = .next t ∧ t.warp? e.wid = some x ∧
        x.pend = w.pend.filter (·.seq != q.seq) ∧ x.fstat = w.fstat ||| fl ∧
        (t.part p).sfu = (s.part p).sfu.filter (fun y => !(y.wid == e.wid && y.pend == e.pend)) ∧
        (∀ d, q.dst = .vec d → x.uni = w.uni ∧ ∀ r l, l < 32 → t.vreg e.wid r l =
          match tget q.got l with
          | some vs => if d.toNat ≤ r ∧ r - d.toNat < vs.length then vs.getD (r - d.toNat) 0 else s.vreg e.wid r l
          | none => s.vreg e.wid r l) ∧
        (∀ d l vs, q.dst = .uni d → q.got = [(l, vs)] → x.vec = w.vec ∧ ∀ r, t.ureg e.wid r =
          if d.toNat ≤ r ∧ r - d.toNat < vs.length then vs.getD (r - d.toNat) 0 else s.ureg e.wid r) ∧
        (q.dst = .nwb → x.vec = w.vec ∧ x.uni = w.uni) ∧
        t = { s with parts := t.parts, warps := t.warps }))

/-- R298: `SETNET.raw` copies 144 bits of uniform registers to a network; `SETNET.perm` writes a word under which lane `l`
receives the value of the lane its register names, where the lanes name each lane once (and the word that the model
computes for the permutation, `netWord`, routes it). The model's own readings: log 13. -/
def Obligations.Networks : Prop :=
  ∀ (s : State) (c : Ctx) (f : Fmt) (on : Mask) (d : BitVec 8), f.d = .cls3 d →
    (∀ i, s.Executes (.setnetRaw f) c f on → f.a = .uni i → on ≠ 0 →
      ∃ t w, exec (.setnetRaw f) s = .next t ∧ t.warp? c.wid = some w ∧ Issued s t c ∧ w.vec = c.w.vec ∧ Raised c w 1 on f.d ∧
        (∀ k, k ≠ d.toNat → cget w.net k = cget c.w.net k) ∧ ∀ j, j < 144 →
          (cget w.net d.toNat).getLsbD j = (s.ureg c.wid (i.toNat + j / 32)).getLsbD (j % 32)) ∧
    (∀ n r, s.Executes (.setnetPerm f) c f on → f.a = .vec n r → on ≠ 0 →
      (∀ l k, l < 32 → k < 32 → (s.vreg c.wid r.toNat l).toNat % 32 = (s.vreg c.wid r.toNat k).toNat % 32 → l = k) →
      (let p := (List.range 32).map fun l => (s.vreg c.wid r.toNat l).toNat % 32; netOk (netWord p) p = true) →
      ∃ t w, exec (.setnetPerm f) s = .next t ∧ t.warp? c.wid = some w ∧ Issued s t c ∧ w.vec = c.w.vec ∧
        Raised c w 1 on f.d ∧ (∀ k, k ≠ d.toNat → cget w.net k = cget c.w.net k) ∧
        ∀ l, l < 32 → permFrom (cget w.net d.toNat) 32 l = (s.vreg c.wid r.toNat l).toNat % 32) ∧
    (∀ i, (i = .setnetRaw f ∧ (∃ u, f.a = .uni u)) ∨ i = .setnetPerm f → s.Executes i c f on → on = 0 →
      ∃ t w, exec i s = .next t ∧ t.warp? c.wid = some w ∧ Issued s t c ∧ w.net = c.w.net)

/-! ## Accesses at issue -/

/-- R326, R327, R329, R331: a load whose addresses are aligned and translate: one result is pending with the lanes'
targets; no register, and no byte of memory, differs yet. A lane all of whose bytes the core's caches hold makes no memory
request, and no error of the memory faults it (log 37). An unaligned address stops the group. -/
def Obligations.Loads : Prop :=
  ∀ (s : State) (i : Instr) (c : Ctx) (f : Fmt) (on : Mask) (off : BitVec 20) (n : Nat) (sg cst acq target : Bool)
    (lanes : List Nat), s.Executes i c f on →
    ((∃ size sp ord scope, i = .ld f size sp ord scope off ∧ sp ≠ .spl ∧ n = Size.bytes size ∧ sg = Size.signed size ∧
        cst = (sp == .cst) ∧ lanes = accessLanes f.d on ∧ acq = (sp == .glb && ord == .acq && Scope.wide scope) ∧
        target = (sp == .glb && Scope.wide scope)) ∨
      (∃ wide, i = .ldc f wide off ∧ f.d.isUni = true ∧ n = (if wide then 8 else 4) ∧ sg = false ∧ cst = true ∧
        lanes = [lowest on] ∧ acq = false ∧ target = false)) →
    let rs := reached s c f off lanes (!cst) .read fun x => !target && s.servedHere c.w.tid c.t.core cst n x
    let k := if cst then PendKind.constLoad (targetsOf rs) n sg f.d.isUni else .load (targetsOf rs) n sg f.d.isUni
    PassesOff s i c on ∧
    (on ≠ 0 → AllAligned lanes (fun l => (s.gaddr c f off l : Int)) n → faultsOf rs = [] →
      ∃ t, exec i s = .next t ∧ Issued s t c ∧
        InMotion t c [{ Pend.new k 0 on f.d (if n = 8 then 2 else 1) c.pc with
                        seq := c.w.nextSeq, acquire := acq, fromTarget := target, vas := vasOf s c f off lanes }] []) ∧
    (on ≠ 0 → StopsUnaligned s i c lanes (fun l => (s.gaddr c f off l : Int)) n .memAlign)

/-- R167: of a load with a vector destination whose addresses are aligned, the lanes that fault park at the word, with
records that hold their lanes, its address, the kind and an `FTYPE`; the other active lanes go on. -/
def Obligations.FaultingLanesPark : Prop :=
  ∀ (s : State) (c : Ctx) (f : Fmt) (on : Mask) (off : BitVec 20) (size : Size) (ord : Ord) (scope : Scope),
    let i := Instr.ld f size .glb ord scope off
    s.Executes i c f on → f.d.isUni = false → on ≠ 0 → c.noLoopEnd →
    AllAligned (lanesOf on) (fun l => (s.gaddr c f off l : Int)) (Size.bytes size) →
    let rs := reached s c f off (lanesOf on) true .read fun x =>
      !Scope.wide scope && s.servedHere c.w.tid c.t.core false (Size.bytes size) x
    let bad := maskOf ((faultsOf rs).map (·.lane))
    bad ≠ 0 →
    ∃ t w g new, exec i s = .next t ∧ t.warp? c.wid = some w ∧ w.parked = c.w.parked ||| bad ∧
      (∀ l, l < 32 → cget w.pc l = if c.lanes.getLsbD l ∧ bad.getLsbD l = false then c.nextPc else cget c.w.pc l) ∧
      t.grid? c.t.gid = some g ∧ g.faults = c.g.faults ++ new ∧ new ≠ [] ∧
      (∀ e, e ∈ new → e.pc = c.pc ∧ e.kind = 1 ∧ e.engine = 0 ∧ e.async = false ∧ e.lanes &&& ~~~bad = 0 ∧
        ∃ x, x ∈ faultsOf rs ∧ e.lanes.getLsbD x.lane = true ∧ e.va = w64 x.va ∧ e.ftype = x.ftype) ∧
      (∀ l, bad.getLsbD l → ∃ e, e ∈ new ∧ e.lanes.getLsbD l) ∧ w.vec = c.w.vec ∧ ∀ a, t.byte a = s.byte a

/-- R330: a store whose addresses are aligned and translate: one entry joins the store queue with each lane's target and
the low bytes of B, and no byte of memory differs yet. An unaligned address stops the group. -/
def Obligations.Stores : Prop :=
  ∀ (s : State) (c : Ctx) (f : Fmt) (on : Mask) (off : BitVec 20) (size : Size) (ord : Ord) (scope : Scope),
    let i := Instr.st f size .glb ord scope off
    let rs := reached s c f off (lanesOf on) true .write unserved
    s.Executes i c f on →
    PassesOff s i c on ∧
    (on ≠ 0 → Plain c →
      AllAligned (lanesOf on) (fun l => (s.gaddr c f off l : Int)) (Size.bytes size) → faultsOf rs = [] →
      ∃ t, exec i s = .next t ∧ Issued s t c ∧
        InMotion t c [] [⟨c.w.nextSeq, .store ((targetsOf rs).map fun x => (x, s.storeBytes c f size x.lane)), ord == .rel,
          scope, c.pc, on, vasOf s c f off (lanesOf on), false⟩]) ∧
    (on ≠ 0 → StopsUnaligned s i c (lanesOf on) (fun l => (s.gaddr c f off l : Int)) (Size.bytes size) .memAlign)

/-- R149, R199, R335: spill loads and stores within the area, whose lines meet no error. A store's entry joins the store queue
and the forwarding table with each on lane's bytes; a load's result is pending, with the bytes of the lanes whose bytes the
table holds; `FIL` and `SPL` move a word. Every target is a byte of the lane's own area, and a byte written there changes no
other byte of the warp's areas. No byte of memory differs. An unaligned offset stops the group, and lanes outside the area
park, with a record of `FTYPE` 5 that shows the offset. -/
def Obligations.SpillAccesses : Prop :=
  (∀ (s : State) (i : Instr) (c : Ctx) (f : Fmt) (on : Mask) (off : BitVec 20) (n : Nat), s.Executes i c f on →
    let o := fun (l : Nat) => s.soff c f off l
    let loc := fun (l : Nat) => (⟨.spill, spillKey c.wid l (o l).toNat⟩ : Loc)
    let inside := fun (l : Nat) => 0 ≤ o l ∧ o l < c.g.rec_.spillBytes
    let offs := fun (ls : List Nat) => ls.map fun l => (l, (o l).toNat)
    (∀ sg, ((i = .fil f off ∧ n = 4 ∧ sg = false) ∨
        (∃ size ord scope, i = .ld f size .spl ord scope off ∧ n = Size.bytes size ∧ sg = Size.signed size)) →
      let ls := accessLanes f.d on
      let table := fun (l : Nat) => c.w.forwarded l (o l).toNat n
      PassesOff s i c on ∧
      (on ≠ 0 → StopsUnaligned s i c ls o n .memAlign) ∧
      (on ≠ 0 → AllAligned ls o n → (∀ l, l ∈ ls → inside l ∧ s.lineBad (loc l).line = false) →
        ∃ t, exec i s = .next t ∧ Issued s t c ∧
          InMotion t c [{ Pend.new (.load ((ls.filter fun l => (table l).isNone).map fun l => ⟨l, loc l⟩) n sg f.d.isUni) 0
                            (maskOf ls) f.d (if n = 8 then 2 else 1) c.pc with
                          seq := c.w.nextSeq, vas := offs ls
                          got := ls.filterMap fun l => (table l).map fun bs => (l, loadWords n sg bs) }] [])) ∧
    (∀ bytes : Nat → List Byte, ((i = .spl f off ∧ n = 4 ∧ bytes = fun l => bytes4 (s.src c 0 .raw f.b l)) ∨
        (∃ size ord scope, i = .st f size .spl ord scope off ∧ n = Size.bytes size ∧ bytes = s.storeBytes c f size)) →
      let ls := lanesOf on
      PassesOff s i c on ∧
      (on ≠ 0 → StopsUnaligned s i c ls o n .memAlign) ∧
      (on ≠ 0 → AllAligned ls o n → (∀ l, l ∈ ls → inside l ∧ s.lineBad (loc l).line = false) →
        ∃ t w, exec i s = .next t ∧ Issued s t c ∧ t.warp? c.wid = some w ∧
          InMotion t c [] [⟨c.w.nextSeq, .store (ls.map fun l => (⟨l, loc l⟩, bytes l)), false, .team, c.pc, on, offs ls,
            false⟩] ∧
          w.fwd = (c.w.forward (ls.map fun l => (l, (o l).toNat, bytes l))).fwd) ∧
      (on ≠ 0 → AllAligned ls o n → (∀ l, l ∈ ls → ¬inside l) → c.noLoopEnd →
        ∃ t w g new, exec i s = .next t ∧ t.warp? c.wid = some w ∧ w.parked = c.w.parked ||| on ∧ w.sq = c.w.sq ∧
          t.grid? c.t.gid = some g ∧ g.faults = c.g.faults ++ new ∧ new ≠ [] ∧
          ∀ e, e ∈ new → e.kind = 2 ∧ e.engine = 0 ∧ e.ftype = 5 ∧ e.pc = c.pc ∧ ∃ l, l ∈ ls ∧ e.va = ofInt 64 (o l)))) ∧
  (∀ (s : State) (wid l o : Nat) (w : Warp) (b : Byte), s.warp? wid = some w → l < 32 → o < 65536 →
    ∃ v, (s.setLoc ⟨.spill, spillKey wid l o⟩ b).warp? wid = some v ∧
      ∀ k p, k < 32 → p < 65536 → v.spillByte (spillKey 0 k p) = if k = l ∧ p = o then b else w.spillByte (spillKey 0 k p))

/-- R161, R162, R333, R334: gallery and hall accesses within their ranges: a load's result or a store's entry is pending,
at each lane's place in the team's gallery or in the hall it holds; no byte of memory differs. A gallery offset that is no
multiple of 4 stops the group with `GAL_ALIGN`, and else one that reaches outside the gallery with `GAL_RANGE`. A hall access
without a hall stops it with `HALL_NONE`; else an unaligned offset with `MEM_ALIGN`, one outside the hall with `HALL_RANGE`,
and a store to the first 0x14000 bytes with `HALL_RO`. -/
def Obligations.GalleryAndHall : Prop :=
  ∀ (s : State) (c : Ctx) (f : Fmt) (on : Mask) (off : BitVec 20) (col : Bool) (e : Elem) (size : Size),
    let o := fun (l : Nat) => s.soff c f off l
    let gal := fun (l : Nat) => (⟨l, ⟨.gallery, galKey c.w.tid (o l).toNat⟩⟩ : LaneLoc)
    let hal := fun (l : Nat) => (⟨l, c.hallLoc (o l).toNat⟩ : LaneLoc)
    let n := Size.bytes size
    let inGal := fun (l : Nat) => 0 ≤ o l ∧ ∀ x, x ∈ galElems col (Elem.bits e) (o l).toNat → x.1 + 4 ≤ c.g.rec_.gallery
    let inHall := fun (l : Nat) => 0 ≤ o l ∧ o l < 0x600000
    let mayWrite := fun (l : Nat) => 0x14000 ≤ o l
    (∀ i ls, (i = .ldg f col e off ∧ ls = accessLanes f.d on) ∨ (i = .stg f col e off ∧ ls = lanesOf on) →
      s.Executes i c f on →
      PassesOff s i c on ∧ StopsUnaligned s i c ls o 4 .galAlign ∧
      (AllAligned ls o 4 → StopsFirst s i c ls o inGal .galRange) ∧
      (on ≠ 0 → AllAligned ls o 4 → (∀ l, l ∈ ls → inGal l) →
        ∃ t, exec i s = .next t ∧ Issued s t c ∧
          (i = .ldg f col e off → InMotion t c
            [{ Pend.new (.gather (ls.map gal) col (Elem.bits e)) 0 on f.d 1 c.pc with seq := c.w.nextSeq }] []) ∧
          (i = .stg f col e off → InMotion t c [] [⟨c.w.nextSeq,
            .scatter (ls.map fun l => (gal l, s.src c 0 .raw f.b l)) col (Elem.bits e), false, .team, c.pc, on, [], false⟩]))) ∧
    (∀ i ls, (i = .ldh f size off ∧ ls = accessLanes f.d on) ∨ (i = .sth f size off ∧ ls = lanesOf on) →
      s.Executes i c f on →
      PassesOff s i c on ∧
      (on ≠ 0 → c.t.hall = none → MayStop s c → ∃ t, exec i s = .next t ∧ StoppedWith s t c .hallNone c.lanes 0 0) ∧
      (c.t.hall.isSome = true →
        StopsUnaligned s i c ls o n .memAlign ∧
        (AllAligned ls o n → StopsFirst s i c ls o inHall .hallRange) ∧
        (AllAligned ls o n → (∀ l, l ∈ ls → inHall l) → i = .sth f size off → StopsFirst s i c ls o mayWrite .hallRo) ∧
        (on ≠ 0 → AllAligned ls o n → (∀ l, l ∈ ls → inHall l) → (i = .sth f size off → ∀ l, l ∈ ls → mayWrite l) →
          ∃ t, exec i s = .next t ∧ Issued s t c ∧
            (i = .ldh f size off → InMotion t c [{ Pend.new (.load (ls.map hal) n (Size.signed size) f.d.isUni) 0 on f.d
              (if n = 8 then 2 else 1) c.pc with seq := c.w.nextSeq }] []) ∧
            (i = .sth f size off → InMotion t c [] [⟨c.w.nextSeq,
              .store (ls.map fun l => (hal l, s.storeBytes c f size l)), false, .team, c.pc, on, [], false⟩]))))

/-- R336 to R341: atomics, reductions and gathers whose addresses are aligned and translate: one entry joins the store
queue with each lane's target and operands, and for all but `RED` a result waits for the values of the lanes; no byte of
memory differs yet. `ATOMO` of a root team takes the item's next ordinal, and in a node team it acts as `RED` (R136). An
unaligned address stops the group. -/
def Obligations.AtomicsAtIssue : Prop :=
  ∀ (s : State) (i : Instr) (c : Ctx) (f : Fmt) (on : Mask) (off : BitVec 20) (n : Nat) (acc : Acc),
    s.Executes i c f on →
    ((∃ op t ord scope, i = .atom f op t ord scope off ∧ n = AType.bytes t ∧ acc = .write) ∨
      (∃ wide ord scope, i = .cas f wide ord scope off ∧ n = (if wide then 8 else 4) ∧ acc = .write) ∨
      (∃ op t rel scope, i = .red f op t rel scope off ∧ n = AType.bytes t ∧ acc = .write) ∨
      (∃ op t scope, i = .atomo f op t scope off ∧ n = AType.bytes t ∧ acc = .write) ∨
      (∃ scope, i = .ldx f scope off ∧ n = 128 ∧ acc = .read)) →
    let gaddr := fun l => (s.gaddr c f off l : Int)
    let rs := (reached s c f off (lanesOf on) true acc unserved).map fun x => (x.1, x.2.1, noPcie x.2.2)
    let at_ := targetsOf rs
    let k := c.w.nextSeq
    let p := fun (words : Nat) (acq : Bool) =>
      { Pend.new (.reply (lanesOf on)) 0 on f.d words c.pc with seq := k, acquire := acq }
    let e := fun (seq : Nat) (kind : SqKind) (rel : Bool) (scope : Scope) =>
      (⟨seq, kind, rel, scope, c.pc, on, vasOf s c f off (lanesOf on), false⟩ : SqEnt)
    (on ≠ 0 → StopsUnaligned s i c (lanesOf on) gaddr n .memAlign) ∧
    (on = 0 → ∃ t, exec i s = .next t ∧ Issued s t c ∧ InMotion t c [] []) ∧
    (on ≠ 0 → Plain c → AllAligned (lanesOf on) gaddr n → faultsOf rs = [] →
      ∃ u, exec i s = .next u ∧ Issued s u c ∧
        (∀ op t ord scope, i = .atom f op t ord scope off →
          InMotion u c [p (n / 4) (Ord.acquires ord && Scope.wide scope)]
            [e (k + 1) (.atom op t (at_.map fun x => (x, s.atomOperand c f.b t x.lane)) k) (Ord.releases ord) scope]) ∧
        (∀ wide ord scope, i = .cas f wide ord scope off →
          let v := fun (x : Src) (l : Nat) => if wide then s.src64 c 0 x l else (s.src c 0 .raw x l).setWidth 64
          InMotion u c [p (n / 4) (Ord.acquires ord && Scope.wide scope)]
            [e (k + 1) (.cas wide (at_.map fun x => (x, v f.b x.lane, v f.c x.lane)) k) (Ord.releases ord) scope]) ∧
        (∀ op t rel scope, i = .red f op t rel scope off →
          InMotion u c [] [e k (.red op t (at_.map fun x => (x, s.atomOperand c f.b t x.lane)) (rel && Scope.wide scope))
            rel scope]) ∧
        (∀ scope, i = .ldx f scope off →
          InMotion u c [p 4 false] [e (k + 1) (.ldx (at_.map fun x => (x, s.src c 0 (.int 8) f.b x.lane)) k) false .team]) ∧
        (∀ op t scope a b d, i = .atomo f op t scope off → c.t.kind = .node a b d →
          InMotion u c [] [e k (.red op t (at_.map fun x => (x, s.atomOperand c f.b t x.lane)) false) false .team]) ∧
        (∀ op t scope, i = .atomo f op t scope off → c.t.kind = .root → on &&& c.w.parked = 0 → on &&& c.w.stopped = 0 →
          InMotion u c [p (n / 4) false]
            [e (k + 1) (.atomo op t (at_.map fun x => (x, s.atomOperand c f.b t x.lane, (s.item c x.lane).toNat,
              min ((cget c.w.atomo x.lane).toNat + 1) 0xFFFFFFFF)) k) false .team] ∧
          ∃ w, u.warp? c.wid = some w ∧ ∀ l, l < 32 → (cget w.atomo l).toNat =
            if on.getLsbD l then min ((cget c.w.atomo l).toNat + 1) 0xFFFFFFFF else (cget c.w.atomo l).toNat))

/-- R182, R189, R200, R342 to R344: a release side joins the store queue and an acquire side the pending results; `FENCEX`
acts on the classes it names, classes 3 and 6 as class 0, class 6 at `.app` at least, and its acquire side of class 0
invalidates the L1 at every scope. `PROBE` sends its probes once the warp's queue is empty, one for each channel it names
and each socket in service, and completes when all have returned; a probe returns once nothing that it follows is on its
channel (log 73). `PRF` has no effect. With no lane on each passes. -/
def Obligations.Fences : Prop :=
  ∀ (s : State) (c : Ctx) (f : Fmt) (on : Mask),
    let k := c.w.nextSeq
    let acq := fun (seq : Nat) (inval after : Bool) (cls : Nat) =>
      { Pend.new (.fence inval after cls) 3 0 (.vec 0) 0 c.pc with seq := seq }
    let rel := fun (scope : Scope) => (⟨k, .fence, true, scope, c.pc, on, [], false⟩ : SqEnt)
    (∀ i, ((∃ ord scope, i = .fence f ord scope) ∨ (∃ scope a b, i = .fencex f scope a b) ∨ (∃ vcs, i = .probe f vcs) ∨
      (∃ l2 off, i = .prf f l2 off)) → s.Executes i c f on → PassesOff s i c on) ∧
    (∀ ord scope, s.Executes (.fence f ord scope) c f on → on ≠ 0 → Plain c →
      ∃ t, exec (.fence f ord scope) s = .next t ∧ Issued s t c ∧
        let es : List SqEnt := if Ord.releases ord then [rel scope] else []
        InMotion t c (if Ord.acquires ord then [acq (k + es.length) (Scope.wide scope) (Ord.releases ord) 0] else []) es) ∧
    (∀ scope a b, s.Executes (.fencex f scope a b) c f on → on ≠ 0 → Plain c →
      let zero := fun (x : BitVec 3) => x == 0 || x == 3 || x == 6
      let scope' := if (a == 6 || b == 6) && [Scope.team, .clu, .die, .dev].contains scope then .app else scope
      ∃ t, exec (.fencex f scope a b) s = .next t ∧ Issued s t c ∧
        let es : List SqEnt := if zero a then [rel scope'] else []
        InMotion t c [acq (k + es.length) (zero b) (zero a) (if zero b then 0 else b.toNat)] es) ∧
    (∀ l2 off, s.Executes (.prf f l2 off) c f on →
      ∃ t, exec (.prf f l2 off) s = .next t ∧ Issued s t c ∧ InMotion t c [] []) ∧
    (∀ vcs, s.Executes (.probe f vcs) c f on → on ≠ 0 → Plain c →
      ((∀ p, p ∈ c.w.probe → p.pc ≠ c.pc) → c.w.sq ≠ [] → exec (.probe f vcs) s = .next s) ∧
      ((∀ p, p ∈ c.w.probe → p.pc ≠ c.pc) → c.w.sq = [] → ∃ t w p, exec (.probe f vcs) s = .next t ∧
        t = { s with warps := t.warps } ∧ t.warp? c.wid = some w ∧ w = { c.w with probe := c.w.probe ++ [p] } ∧
        p.pc = c.pc ∧ p.mark = s.nextId ∧ ∀ v d, (v, d) ∈ p.left ↔ v < 7 ∧ vcs.getLsbD v = true ∧ d ∈ s.probeTargets) ∧
      (∀ pre p post, c.w.probe = pre ++ p :: post → (∀ x, x ∈ pre → x.pc ≠ c.pc) → p.pc = c.pc →
        (p.left ≠ [] → exec (.probe f vcs) s = .next s) ∧
        (p.left = [] → ∃ t w, exec (.probe f vcs) s = .next t ∧ Issued s t c ∧ t.warp? c.wid = some w ∧
          w.probe = c.w.probe.filter (·.pc != c.pc)))) ∧
    (∀ vc dst pre p post, s.warp? c.wid = some c.w → s.team? (c.wid / 32) = some c.t → c.w.probe = pre ++ p :: post →
      (∀ x, x ∈ pre → (vc, dst) ∉ x.left) → (vc, dst) ∈ p.left → p ∉ post →
      (s.channelBusy (socketOf c.t.core) vc dst p.mark = true → exec (.flushProbeReturn c.wid vc dst) s = .next s) ∧
      (s.channelBusy (socketOf c.t.core) vc dst p.mark = false →
        ∃ t w, exec (.flushProbeReturn c.wid vc dst) s = .next t ∧ t.warp? c.wid = some w ∧
          w = { c.w with probe := pre ++ { p with left := p.left.erase (vc, dst) } :: post } ∧
          t = { s with warps := t.warps }))

/-! ## Requests at their targets -/

/-- R174, R181, R196, R336, R338, R341: where no other L1 holds the line as update-only, a request of region 0 that is the
first of its core for its target (R177) changes exactly the bytes its operation names: a write stores its bytes, the last of
a byte prevailing; an atomic applies its lanes in order and returns each value before; a gather changes nothing. The request
leaves the core and is acknowledged. R134, R197, R340: the ordered atomic of an item whose turn has come is applied, the
value before it is returned, and the item's count of applied ones rises; `%qseal` bit 4 is set where the item before has not
had its own; before its turn it waits. The model's own readings: log 19, 30. -/
def Obligations.RequestsPerformed : Prop :=
  (∀ (s : State) (core : Nat) (r : Req), s.firstReq core r.id = some r → r.sp = .mem →
    (∀ k, k ∈ s.holders r.line → k = core) →
    (∀ bs, r.op = .write bs → ∃ t, exec (.writeAcknowledge core r.id) s = .next t ∧ Served s t core r ∧
      ∀ a, t.byte a = ((bs.reverse.find? fun x => x.1 == a).map (·.2)).getD (s.byte a)) ∧
    (∀ op ty ops pend, r.op = .atom op ty ops pend → ∃ t, exec (.homeAluUpdate core r.id) s = .next t ∧ Served s t core r ∧
      (∀ a, t.byte a = updates op ty ops s.byte a) ∧
      ∀ p w pre o post, pend = some p → s.warp? r.wid = some w → ops = pre ++ o :: post → (∀ x, x ∈ post → x.1 ≠ o.1) →
        Replied t r.wid p o.1 (resultWords (AType.bytes ty) (numAt (updates op ty pre s.byte) o.2.1 (AType.bytes ty)))) ∧
    (∀ wide ops p, r.op = .cas wide ops p → ∃ t, exec (.homeAluUpdate core r.id) s = .next t ∧ Served s t core r ∧
      let n := if wide then 8 else 4
      (∀ a, t.byte a = swaps n ops s.byte a) ∧
      ∀ w pre o post, s.warp? r.wid = some w → ops = pre ++ o :: post → (∀ x, x ∈ post → x.1 ≠ o.1) →
        Replied t r.wid p o.1 (resultWords n (numAt (swaps n pre s.byte) o.2.1 n))) ∧
    (∀ ops p, r.op = .ldx ops p → ∃ t, exec (.homeAluUpdate core r.id) s = .next t ∧ Served s t core r ∧
      (∀ a, t.byte a = s.byte a) ∧
      ∀ w pre o post, s.warp? r.wid = some w → ops = pre ++ o :: post → (∀ x, x ∈ post → x.1 ≠ o.1) →
        Replied t r.wid p o.1 (s.gatherLine (r.wid / 32) .mem (r.line * 128) o.2))) ∧
  (∀ (s : State) (core req : Nat), s.firstReq core req = none →
    exec (.writeAcknowledge core req) s = .next s ∧ exec (.homeAluUpdate core req) s = .next s) ∧
  (∀ (s : State) (gid item core : Nat) (g : Grid) (r : Req) (ord lane : Nat) (op : AOp) (ty : AType) (addr p : Nat) (v : W64)
    (tm : Team) (w : Warp) (k : Core), s.grid? gid = some g → (core, k) ∈ s.cores → r ∈ k.inflight →
    r.op = .ordered item ord lane op ty addr v p → r.sp = .mem → s.team? (r.wid / 32) = some tm → tm.gid = gid →
    ord = min ((tget g.atomoDone item).getD 0 + 1) 0xFFFFFFFF →
    (∀ x k' r' lane' op' ty' addr' v' p', (x, k') ∈ s.cores → r' ∈ k'.inflight →
      r'.op = .ordered item ord lane' op' ty' addr' v' p' → x = core ∧ r' = r) →
    s.firstReq core r.id = some r → (∀ x, x ∈ s.holders r.line → x = core) → s.warp? r.wid = some w → lane < 32 →
    (g.atomoTurn ord item = false → exec (.orderedAtomicApply gid item) s = .next s) ∧
    (g.atomoTurn ord item = true →
      ∃ t g' w', exec (.orderedAtomicApply gid item) s = .next t ∧ t.grid? gid = some g' ∧
        g'.atomoDone = tset g.atomoDone item ord ∧ Served s t core r ∧
        (∀ a, t.byte a = updates op ty [(lane, addr, v)] s.byte a) ∧
        Replied t r.wid p lane (resultWords (AType.bytes ty) (numAt s.byte addr (AType.bytes ty))) ∧
        t.warp? r.wid = some w' ∧ w'.vec = w.vec ∧ cget w'.qseal lane =
          if item ≠ 0 ∧ (tget g.atomoDone (item - 1)).getD 0 < ord then cget w.qseal lane ||| 16 else cget w.qseal lane))

/-- R151, R177, R181: the first entry of a store queue, a store to lines of region 0 that are not update-only here, leaves as
one request for each line with its bytes, once no earlier load or fence of the warp is pending, its release (if it has one)
is done, the count of unacknowledged requests stays below 64 and the L1 has room: memory is as it was until the requests are
served. R35, R78, R152, R178: a pending load of region 0 whose turn it is, all of whose words are valid in the L1 (or
buffered by its team), is written: each lane's register has the words of the bytes that the core sees, and every other
register what it held. The model's own readings: log 24, 41. -/
def Obligations.StoresDepartLoadsReturn : Prop :=
  (∀ (s : State) (wid : Nat) (w : Warp) (tm : Team) (e : SqEnt) (rest : List SqEnt) (l : List (LaneLoc × List Byte)),
    s.warp? wid = some w → s.team? (wid / 32) = some tm → w.sq = e :: rest →
    let k := s.core tm.core
    let held := w.pend.any fun p => p.seq < e.seq && p.kind.holdsStores
    let wide := e.release && Scope.wide e.scope
    (held = true → exec (.storeQueueDepart wid) s = .next s) ∧
    (held = false → tm.active = false → e.kind = .store l → (∀ x, x ∈ l → x.1.loc.sp = .mem) →
      (wide = true → s.releaseDrain w tm.core = none ∧ s.released w tm.core = true) →
      (∀ x, x ∈ l → k.isUpd x.1.loc.line = false ∧ k.unackedDrain x.1.loc.line = false) →
      w.unack + (reqLines (l.map (·.1.loc))).length ≤ 63 → k.room (storeLines l) = true →
      ∃ t v rs, exec (.storeQueueDepart wid) s = .next t ∧ t.warp? wid = some v ∧ v.sq = rest ∧
        v.unack = w.unack + rs.length ∧ v.vec = w.vec ∧ (∀ a, t.byte a = s.byte a) ∧
        (t.core tm.core).inflight = k.inflight ++ rs ∧ rs.map (fun r => (r.sp, r.line)) = reqLines (l.map (·.1.loc)) ∧
        ∀ r, r ∈ rs → r.wid = wid ∧ r.acks = true ∧ r.pc = e.pc ∧ r.op = .write ((l.filter fun y =>
          y.1.loc.line == r.line).flatMap fun y => ((List.range y.2.length).map (y.1.loc.a + ·)).zip y.2))) ∧
  (∀ (s : State) (wid : Nat) (w : Warp) (tm : Team) (p : Pend) (l : List LaneLoc) (n : Nat) (sg : Bool) (d : BitVec 8),
    s.warp? wid = some w → s.team? (wid / 32) = some tm →
    (w.pend.filter fun q => (s.tryPend wid tm.core w q).isSome) = [p] →
    (∀ q, q ∈ w.pend → q.seq < p.seq → q.kind.ordered = false) →
    (∀ e, e ∈ w.sq → e.seq < p.seq → overlap e.kind.touches p.kind.reads = false) →
    (∀ r, r ∈ (s.core tm.core).inflight → r.wid = wid → r.op ≠ .load p.seq) →
    s.heldByAtomo wid tm.core (s.neededWords (wid / 32) p.kind.reads) = false → p ∈ w.pend →
    p.kind = .load l n sg false → l ≠ [] → p.dst = .vec d → p.got = [] → p.returned = false → p.fromTarget = false →
    p.acquire = false → (l.map (·.lane)).Nodup → n = 1 ∨ n = 2 ∨ n = 4 ∨ n = 8 →
    (∀ x, x ∈ l → x.lane < 32 ∧ x.loc.sp = .mem ∧ x.loc.a % n = 0 ∧
      (s.core tm.core).unackedDrain x.loc.line = false ∧
      (s.core tm.core).wordValid x.loc.line x.loc.word = true ∧
      (n = 8 → (s.core tm.core).wordValid x.loc.line (x.loc.word + 1) = true)) →
    let seen := fun (x : LaneLoc) => loadWords n sg
      ((List.range n).map fun i => s.loadByte (wid / 32) tm.core false { x.loc with a := x.loc.a + i })
    ∃ t v, exec (.loadResultWrite wid) s = .next t ∧ t.warp? wid = some v ∧ v.pend = w.pend.filter (·.seq != p.seq) ∧
      v.uni = w.uni ∧ v.pred = w.pred ∧ v.pc = w.pc ∧ t = { s with warps := t.warps } ∧
      (∀ x r, x ∈ l → t.vreg wid r x.lane =
        if d.toNat ≤ r ∧ r - d.toNat < (seen x).length then (seen x).getD (r - d.toNat) 0 else s.vreg wid r x.lane) ∧
      (∀ r k, k < 32 → (∀ x, x ∈ l → x.lane ≠ k) → t.vreg wid r k = s.vreg wid r k))

/-- R150 to R156, R175, R176: what the L1 holds. The fetch of a line, once it is the first request of its core for its home,
fills the words of the line that are invalid and await no store of the core (and the other words of their doubles: log 41)
with the home's, and leaves the rest; a line that the core holds as update-only meanwhile, and a full L1, take nothing. A line
leaves where no store to it waits; an update-only line that leaves is sent home as a request; a line that an access from
elsewhere waits for is recalled from every core, and its partials are applied at the home. No fill and no eviction changes a
byte of memory. R49, R50: a block enters the instruction cache as its bytes stood at one moment since the grid's launch. The
model's own readings: log 5. -/
def Obligations.LinesAndBlocks : Prop :=
  (∀ (s : State) (core line : Nat),
    (∀ r, (s.core core).inflight.find? (fun r => r.op == .fill && r.line == line) = some r →
      (s.firstReq core r.id = none → exec (.mergingFillReturn core line) s = .next s) ∧
      (s.firstReq core r.id = some r → (s.core core).isUpd line = true →
        exec (.mergingFillReturn core line) s = .next (s.doneReq core r)) ∧
      (s.firstReq core r.id = some r → (s.core core).isUpd line = false → (s.core core).room [line] = false →
        exec (.mergingFillReturn core line) s = .next s) ∧
      (s.firstReq core r.id = some r → (s.core core).isUpd line = false → (s.core core).room [line] = true →
        s.holders line = [] →
        ∃ t, exec (.mergingFillReturn core line) s = .next t ∧ t = { s with cores := t.cores, warps := t.warps } ∧
          Served s t core r ∧ ∀ j, j < 32 →
            (t.core core).wordValid line j = ((s.core core).wordValid line j || (s.core core).fills line j) ∧
            ((s.core core).fills line j = true → cget ((t.core core).line line).words j = s.homeWord line j) ∧
            ((s.core core).fills line j = false → (s.core core).wordValid line j = true →
              cget ((t.core core).line line).words j = cget ((s.core core).line line).words j))) ∧
    (line < 2 ^ 50 → ∀ j, s.homeWord line j = (numAt s.byte (line * 128 + 4 * j) 4).setWidth 32) ∧
    (∀ x, tget (s.core core).l1 line = some x → x.upd = none →
      ((∃ j, j < 32 ∧ (s.core core).unackedWord line j = true) → exec (.l1Eviction core line) s = .next s) ∧
      ((∀ j, j < 32 → (s.core core).unackedWord line j = false) →
        ∃ t, exec (.l1Eviction core line) s = .next t ∧ t = { s with cores := t.cores } ∧
          (∀ k, tget (t.core core).l1 k = if k = line then none else tget (s.core core).l1 k))) ∧
    (∀ x op ty m, tget (s.core core).l1 line = some x → x.upd = some (op, ty, m) →
      ∃ t r, exec (.l1Eviction core line) s = .next t ∧ (t.core core).isUpd line = false ∧ (∀ a, t.byte a = s.byte a) ∧
        (t.core core).inflight = (s.core core).inflight ++ [r] ∧ r.line = line ∧
        r.op = .atom op ty ((x.partials line).map fun p => (0, p.1, p.2)) none) ∧
    (let wanted := ∃ x k r, (x, k) ∈ s.cores ∧ r ∈ k.inflight ∧ r.sp = .mem ∧ r.line = line ∧ ∃ h, h ∈ s.holders line ∧ h ≠ x
     (¬wanted → exec (.homeRecall line) s = .next s) ∧
     (wanted → tsorted s.cores = true → ∃ t, exec (.homeRecall line) s = .next t ∧ t.holders line = []) ∧
     (∀ x op ty m, wanted → s.holders line = [core] → tget (s.core core).l1 line = some x → x.upd = some (op, ty, m) →
       ∃ t, exec (.homeRecall line) s = .next t ∧ (t.core core).isUpd line = false ∧
         ∀ a, t.byte a = updates op ty ((x.partials line).map fun p => (0, p.1, p.2)) s.byte a))) ∧
  (∀ (s : State) (gid core block : Nat) (g : Grid), s.grid? gid = some g → Quiet s → g.startMoment ≤ s.moment →
    ∃ t b m, exec (.icacheFill gid core block) s = .next t ∧ tget (t.core core).icache (blockKey gid block) = some b ∧
      b.bytes.length = 384 ∧ g.startMoment ≤ m ∧ m ≤ s.moment ∧ (∀ a, t.byte a = s.byte a) ∧
      ∀ i pa, i < 384 → block + i < 2 ^ 57 → (s.found (some core) g.asid (block + i)).length ≤ 1 →
        s.vloc (some core) g.asid (block + i) .fetch = .ok ⟨.mem, pa⟩ → b.bytes.getD i 0 = s.byteAt m pa)

/-! ## Copies and tags -/

/-- R345 to R348: a copy whose arguments pass their checks is issued: an operation starts with its tag. With no length it does
nothing, and with no lane on it passes; while the tag's count is full (R328) or a `FENCEX` of class 1 is unfinished (R189) it
waits. A copy whose arguments break a check stops the group with the check's cause and the argument, and a copy to a peer with
no port in service stops it with `PEER_NONE`. -/
def Obligations.CopiesIssued : Prop :=
  ∀ (s : State) (c : Ctx) (f : Fmt) (on : Mask) (tag : BitVec 6),
    let u := fun (x : Src) (wide : Bool) => s.uni c on x wide
    let copies := fun (i : Instr) (bad : Option (Cause × Nat)) (n : Nat) (k : OpKind) =>
      s.Executes i c f on →
      (on = 0 → ∃ t, exec i s = .next t ∧ s.OnlyWarp t c.wid ∧ (c.noLoopEnd → s.Advanced t c)) ∧
      (∀ cause x, bad = some (cause, x) → on ≠ 0 → MayStop s c →
        ∃ t, exec i s = .next t ∧ StoppedWith s t c cause c.lanes (w64 x) 0) ∧
      (bad = none → on ≠ 0 → n = 0 → ∃ t, exec i s = .next t ∧ s.OnlyWarp t c.wid ∧ (c.noLoopEnd → s.Advanced t c)) ∧
      (bad = none → on ≠ 0 → n ≠ 0 → c.t.tagCount tag.toNat = 63 ∨ c.w.fenced 1 = true → exec i s = .next s) ∧
      (bad = none → on ≠ 0 → n ≠ 0 → Plain c → c.t.tagCount tag.toNat ≠ 63 → c.w.fenced 1 = false →
        ∃ t, exec i s = .next t ∧ Started s t c on tag k)
    (∀ dir,
      let d := (dirSides dir).1
      let r := (dirSides dir).2
      let a := u f.a d.1
      let b := u f.b r.1
      let n := u f.c false
      let gal := if d.2 == .gallery then some (a, n) else if r.2 == .gallery then some (b, n) else none
      let hal := if d.2 == .hall then some (a, n) else if r.2 == .hall then some (b, n) else none
      copies (.cpy f dir tag) (c.copyCheck [n, a, b] none gal hal (d.2 == .hall)) n (.copy d.1 r.1 d.2 r.2 a b n)) ∧
    (∀ col e rows,
      let a := u f.a true
      let b := u f.b false
      let p := u f.c false
      let m := 32 / Elem.bits e
      let n := if col then 4096 * m else 128 * rows.toNat
      let arg := if b % (if col then 4096 * m else 128) ≠ 0 then some b
        else if col = true ∧ 32 * m < rows.toNat then some rows.toNat else none
      copies (.cpyt f col e rows tag) (c.copyCheck [a, b, p] arg (some (b, n)) none false) n
        (.square a b p rows.toNat col (Elem.bits e))) ∧
    (∀ d,
      let n := u f.c false
      let arg := if c.g.mask.length ≤ d.toNat then some d.toNat else none
      copies (.cpyxDie f d tag) (c.copyCheck [n, u f.a false, u f.b false] arg none none false) n
        (.dieCopy (u f.b false) (u f.a false) n d.toNat)) ∧
    (∀ port,
      let n := u f.c false
      (s.mg.peerMask ≠ 0 → copies (.cpyxPeer f port tag) (c.copyCheck [n, u f.a true, u f.b true] none none none false) n
        (.peerCopy (u f.b true) (u f.a true) n port.toNat)) ∧
      (s.Executes (.cpyxPeer f port tag) c f on → s.mg.peerMask = 0 →
        (on = 0 → ∃ t, exec (.cpyxPeer f port tag) s = .next t ∧ s.OnlyWarp t c.wid ∧ (c.noLoopEnd → s.Advanced t c)) ∧
        (on ≠ 0 → MayStop s c → ∃ t, exec (.cpyxPeer f port tag) s = .next t ∧ StoppedWith s t c .peerNone c.lanes 0 0)))

/-- R345, R347, R348: the checks of a copy's arguments: an argument that is no multiple of 4, or breaks a requirement of its
form, is the first cause; a gallery range past the gallery, and a hall range past the hall, without a hall or into its first
0x14000 bytes, the others. R165, R166, R190, R345: the next chunk of a copy, once the issuing warp's earlier accesses of its
spaces are done (R188), moves its bytes and no other, each to its target; where a byte of its source or its destination
faults, the copy is suspended with a record of its lowest faulting byte. A copy all of whose chunks are done completes, its
tag's count falls, and the tag is ready when the count is 0. R165, R192, R349: `TWAIT` passes when its condition holds, waits
while an operation may still bring it, and stops the group with `TAG_IDLE` where none can; `TFST` tests and `TCLR` clears bits
of `%tagready`. The model's own readings: log 21, 40, 72. -/
def Obligations.CopiesAndTags : Prop :=
  (∀ (c : Ctx) (args : List Nat) (arg : Option Nat) (gal hal : Option (Nat × Nat)) (dst : Bool),
    (c.copyCheck args arg gal hal dst = none ↔
      (∀ x, x ∈ args → x % 4 = 0) ∧ arg = none ∧ (∀ a n, gal = some (a, n) → a + n ≤ c.g.rec_.gallery) ∧
        (∀ a n, gal = none → hal = some (a, n) →
          a + n ≤ 0x600000 ∧ c.t.hall.isSome = true ∧ (dst = true → n ≠ 0 → 0x14000 ≤ a))) ∧
    (∀ x, x ∈ args → x % 4 ≠ 0 → ∃ y, c.copyCheck args arg gal hal dst = some (.cpyArg, y) ∧ y ∈ args ∧ y % 4 ≠ 0) ∧
    (∀ x, (∀ y, y ∈ args → y % 4 = 0) → arg = some x → c.copyCheck args arg gal hal dst = some (.cpyArg, x)) ∧
    (∀ a n, (∀ y, y ∈ args → y % 4 = 0) → arg = none → gal = some (a, n) → c.g.rec_.gallery < a + n →
      c.copyCheck args arg gal hal dst = some (.galRange, a)) ∧
    (∀ a n, (∀ y, y ∈ args → y % 4 = 0) → arg = none → gal = none → hal = some (a, n) →
      (0x600000 < a + n → c.copyCheck args arg gal hal dst = some (.hallRange, a)) ∧
      (a + n ≤ 0x600000 → c.t.hall = none → c.copyCheck args arg gal hal dst = some (.hallNone, 0)) ∧
      (a + n ≤ 0x600000 → c.t.hall.isSome = true → dst = true → n ≠ 0 → a < 0x14000 →
        c.copyCheck args arg gal hal dst = some (.hallRo, a)))) ∧
  (∀ (s : State) (o : AsyncOp) (tm : Team) (g : Grid), o ∈ s.ops → (∀ x, x ∈ s.ops → x.id = o.id → x = o) →
    s.team? o.tid = some tm → s.grid? o.gid = some g →
    let k := o.kind
    let sd := k.sides
    let ps := k.pairs o.done
    let grp := match k with
      | .dieCopy _ _ _ d => groupOf d (g.dieSocket d)
      | _ => tm.group
    let src := s.sideLocs o sd.1.1 sd.1.2 tm.group (sd.2.2 != .scratch) .read (ps.map (·.1))
    let dst := src.2.sideLocs o sd.2.1 sd.2.2 grp (sd.1.2 != .scratch) .write (ps.map (·.2))
    let noRender := ∀ x, x ∈ s.ops → (∀ y, x.kind ≠ .dice y) ∧ ∀ y, x.kind ≠ .rast y
    let renders := (∃ x, k = .dice x) ∨ (∃ x, k = .rast x) ∨ (∃ x, k = .rslv x)
    (o.suspended = true ∨ k.len ≤ o.done ∨ s.opMayStart o k.spaces = false →
      exec (.copyChunkComplete o.id) s = .next s) ∧
    (o.suspended = false → o.done < k.len → s.opMayStart o k.spaces = true → k.pastScratch g.rec_.dieScratch = none →
      (∀ c, s.ctxOf o.wid o.lanes = some c → ∀ a ft, lowestFault src.1 = some (a, ft) →
        ∃ t, exec (.copyChunkComplete o.id) s = .next t ∧ Suspended s t o g 4 1 (sideVa sd.1.1 sd.1.2 a) ft ∧
          ∀ a, t.byte a = s.byte a) ∧
      (∀ (ls : List Loc), Quiet s → (∀ a b d e, k ≠ .peerCopy a b d e) → src.1.map (·.2) = ls.map Except.ok →
        (∀ x, x ∈ ls → x.sp ∈ [Sp.mem, .scratch, .gallery, .hall]) → noRender →
        ∀ c, s.ctxOf o.wid o.lanes = some c → ∀ a ft, lowestFault dst.1 = some (a, ft) →
        ∃ t, exec (.copyChunkComplete o.id) s = .next t ∧ Suspended s t o g 5 1 (sideVa sd.2.1 sd.2.2 a) ft) ∧
      (∀ (ls ld : List Loc), Quiet s → (∀ a b d e, k ≠ .peerCopy a b d e) → src.1.map (·.2) = ls.map Except.ok →
        dst.1.map (·.2) = ld.map Except.ok → noRender →
        (∀ x, x ∈ ls ++ ld → x.sp ∈ [Sp.mem, .scratch, .gallery, .hall] ∧
          (x.sp = .scratch → (tget s.scratch (x.a / 2 ^ 22)).isSome = true) ∧
          (x.sp = .gallery → (s.team? (x.a / 2 ^ 20)).isSome = true)) → ld.Nodup →
        ∃ t, exec (.copyChunkComplete o.id) s = .next t ∧
          t.ops = s.ops.map (fun x => if x.id == o.id then { x with done := k.chunkEnd o.done } else x) ∧
          (∀ (i : Nat) x y, ld[i]? = some x → ls[i]? = some y → t.locByte x = s.locByte y) ∧
          ∀ x, x.sp ∈ [Sp.mem, .scratch, .gallery, .hall] → x ∉ ld → t.locByte x = s.locByte x) ∧
      (∀ d n p b ra (ls : List Loc), k = .peerCopy b d n p → Quiet s → src.1.map (·.2) = ls.map Except.ok →
        (∀ x, x ∈ ls → x.sp = .mem) → s.peerAsid o.gid p = some ra → s.mg.peerMask / 2 ^ p % 2 = 1 →
        ∃ t, exec (.copyChunkComplete o.id) s = .next t ∧
          t.ops = s.ops.map (fun x => if x.id == o.id then { x with done := k.chunkEnd o.done } else x) ∧
          t.peerOut = s.peerOut ++ [(p, ra, d + o.done, ls.map fun x => s.byte x.a)] ∧ ∀ a, t.byte a = s.byte a)) ∧
    (¬renders → o.done < k.len → exec (.asyncOperationComplete o.id) s = .next s) ∧
    (¬renders → k.len ≤ o.done → 0 < tm.tagCount o.tag → tm.st ≠ .saved → o.tag < 64 →
      ∃ t v, exec (.asyncOperationComplete o.id) s = .next t ∧ t.ops = s.ops.filter (·.id != o.id) ∧
        t.team? o.tid = some v ∧ t.mem = s.mem ∧
        v.tagCount o.tag = tm.tagCount o.tag - 1 ∧ (∀ k, k ≠ o.tag → v.tagCount k = tm.tagCount k) ∧
        v.tagClear.getLsbD o.tag = (if tm.tagCount o.tag = 1 then false else tm.tagClear.getLsbD o.tag) ∧
        ∀ k, k ≠ o.tag → v.tagClear.getLsbD k = tm.tagClear.getLsbD k)) ∧
  (∀ (s : State) (c : Ctx) (f : Fmt) (on : Mask),
    let m := s.src64 c 0 f.a (lowest c.lanes)
    let clear := m &&& c.t.tagClear
    let dead := ∀ g, g < 64 → clear.getLsbD g = true → c.t.tagCount g = 0
    (∀ all acq, s.Executes (.twait f all acq) c f on →
      ((if all then clear = 0 else m = 0 ∨ m &&& ~~~c.t.tagClear ≠ 0) →
        ∃ t w, exec (.twait f all acq) s = .next t ∧ t.warp? c.wid = some w ∧ w.vec = c.w.vec ∧ w.uni = c.w.uni ∧
          (∀ a, t.byte a = s.byte a) ∧ (c.noLoopEnd → s.Advanced t c) ∧
          t.core c.t.core = if acq then (s.core c.t.core).invalidate else s.core c.t.core) ∧
      (¬(if all then clear = 0 else m = 0 ∨ m &&& ~~~c.t.tagClear ≠ 0) →
        (¬dead → exec (.twait f all acq) s = .next s) ∧
        (dead → MayStop s c → ∃ t g, exec (.twait f all acq) s = .next t ∧ StoppedWith s t c .tagIdle c.lanes (w64 g) 0 ∧
          clear.getLsbD g = true ∧ ∀ k, k < g → clear.getLsbD k = false))) ∧
    (s.Executes (.tfst f) c f on → ∃ t, exec (.tfst f) s = .next t ∧ Wrote s t c f.d on fun _ => [if clear = 0 then 1 else 0]) ∧
    (s.Executes (.tclr f) c f on → ∃ t v w, exec (.tclr f) s = .next t ∧ t.team? c.w.tid = some v ∧
      v = { c.t with tagClear := c.t.tagClear ||| m } ∧ t.warp? c.wid = some w ∧ w.vec = c.w.vec ∧
      (∀ a, t.byte a = s.byte a) ∧ (c.noLoopEnd → s.Advanced t c)))

/-! ## Task generation and buckets -/

namespace Sys2Proof.Claims

/-- R185: a word that hands work on waits until the warp's earlier accesses and matrix operations are done. -/
def WaitsToHandOff (s : State) (i : Instr) (c : Ctx) : Prop := s.handOff c = none → exec i s = .next s

end Sys2Proof.Claims

/-- R126, R139, R143, R185, R353 to R355: where the warp's earlier accesses are done, `NREC` appends the on lanes' records to
the node's bin, and a node whose predicate was zero discards them; while they do not fit the bin it waits. Records outside the
declared registers stop the group with `RIDX`, a node that is not in the table with `NODE_IDX`, one that the team's node does
not feed with `NODE_EDGE`, and a bin that stays full until its predicate is read with `NODE_FULL`. `LAUNCH` of a record that is
accepted makes a child grid one level deeper and answers its identifier; one that is rejected is reported and answers
0x8000_0000; by a warp other than warp 0 it stops the group with `LAUNCH_WARP`. `CHWAIT` waits while a child it names is not
retired, and otherwise passes with an acquire. Inside a handler `LAUNCH` and `CHWAIT` stop its lanes (R71). With no lane on each
passes. The model's own readings: log 34, 38, 79. -/
def Obligations.Tasks : Prop :=
  ∀ (s : State) (c : Ctx) (f : Fmt) (on : Mask),
    (∀ i, ((∃ node, i = .nrec f node) ∨ i = .launch f ∨ ∃ all, i = .chwait f all) → s.Executes i c f on → PassesOff s i c on) ∧
    (∀ i cause m, (i = .launch f ∨ ∃ all, i = .chwait f all) → s.Executes i c f on → c.nested on = some (cause, m) →
      on &&& c.w.stopped = 0 → MayStop s c → ∃ t, exec i s = .next t ∧ StoppedWith s t c cause m 0 0) ∧
    (∀ node, s.Executes (.nrec f node) c f on → on ≠ 0 → MayStop s c →
      tget c.g.nodes node.toNat = none →
      ∃ t, exec (.nrec f node) s = .next t ∧ StoppedWith s t c .nodeIdx c.lanes (w64 node.toNat) 0) ∧
    (∀ node x ng a, s.Executes (.nrec f node) c f on → on ≠ 0 → f.a = .vec ng a → tget c.g.nodes node.toNat = some x →
      let i := Instr.nrec f node
      let reg := a.toNat + x.recBytes / 4 ≤ c.g.rec_.vec
      let fed := ∀ k p r, c.t.kind = .node k p r → x.feed.getLsbD k = true
      let fits := x.cond = .discard ∨ x.bin.length + count on ≤ 65536
      let stuck := x.cond ≠ .none ∧ x.cond ≠ .proceed ∧ s.feedersDone c.t.gid c.g node.toNat x = false
      (¬reg → MayStop s c → ∃ t, exec i s = .next t ∧ StoppedWith s t c .ridx c.lanes (w64 (max a.toNat c.g.rec_.vec)) 0) ∧
      (reg → ¬fed → MayStop s c → ∃ t, exec i s = .next t ∧ StoppedWith s t c .nodeEdge c.lanes (w64 node.toNat) 0) ∧
      (reg → fed → ¬fits → stuck → MayStop s c →
        ∃ t, exec i s = .next t ∧ StoppedWith s t c .nodeFull c.lanes (w64 node.toNat) 0) ∧
      (reg → fed → ¬fits → ¬stuck → exec i s = .next s) ∧
      (reg → fed → fits → WaitsToHandOff s i c) ∧
      (reg → fed → fits → Plain c → s.handOff c = some none →
        ∃ t g y, exec i s = .next t ∧ t.grid? c.t.gid = some g ∧ tget g.nodes node.toNat = some y ∧
          (x.cond = .discard → y = { x with discarded := x.discarded + count on }) ∧
          (x.cond ≠ .discard → (y.bin = x.bin ++ (lanesOf on).map fun l =>
              (List.range (x.recBytes / 4)).map fun k => s.vreg c.wid (a.toNat + k) l) ∧
            y = { x with bin := y.bin, binSinceNs := if x.bin = [] then s.ns else x.binSinceNs }) ∧
          (∀ n, n ≠ node.toNat → tget g.nodes n = tget c.g.nodes n) ∧
          (∀ r l, t.vreg c.wid r l = s.vreg c.wid r l) ∧ (∀ b, t.byte b = s.byte b) ∧ (c.noLoopEnd → s.Advanced t c))) ∧
    (s.Executes (.launch f) c f on → on ≠ 0 → c.nested on = none →
      (c.w.num ≠ 0 → on &&& c.w.stopped = 0 → MayStop s c →
        ∃ t, exec (.launch f) s = .next t ∧ StoppedWith s t c .launchWarp c.lanes 0 0) ∧
      (c.w.num = 0 → WaitsToHandOff s (.launch f) c) ∧
      ∀ d, f.d = .uni d → c.w.num = 0 → Plain c → s.handOff c = some none →
        let addr := s.uni c on f.a true
        let rejects := fun (k : Nat) => s.canReport = true → ∃ t w e, exec (.launch f) s = .next t ∧ t.warp? c.wid = some w ∧
          Raised c w 0 on f.d ∧ t.ureg c.wid d.toNat = 0x80000000 ∧ (∀ k, k ≠ d.toNat → t.ureg c.wid k = s.ureg c.wid k) ∧
          w.vec = c.w.vec ∧ t.hevents = s.hevents ++ [e] ∧ e.cause = (Cause.lr k).code ∧ e.d0 = w64 addr ∧ e.pc = c.pc ∧
          (∀ j, s.grid? j = none → t.grid? j = none)
        (addr % 256 ≠ 0 → rejects 0) ∧
        (addr % 256 = 0 → ∀ k s1, s.submit c.g.asid addr (some (c.g, c.t.gid, c.t.lin)) = (.rejected k, s1) → rejects k) ∧
        (addr % 256 = 0 → ∀ r ns mask s1, s.submit c.g.asid addr (some (c.g, c.t.gid, c.t.lin)) = (.ok r ns mask, s1) →
          s.nextGid ≠ c.t.gid →
          ∃ t w kid g, exec (.launch f) s = .next t ∧ kid = s.nextGid ∧ t.grid? kid = some g ∧ g.st = .live ∧ g.rec_ = r ∧
            g.asid = c.g.asid ∧ g.depth = c.g.depth + 1 ∧ g.parentGid = some c.t.gid ∧ t.nextGid = kid + 1 ∧
            t.warp? c.wid = some w ∧ Raised c w 0 on f.d ∧ t.ureg c.wid d.toNat = BitVec.ofNat 32 (kid % 2 ^ 24) ∧
            (∀ k, k ≠ d.toNat → t.ureg c.wid k = s.ureg c.wid k) ∧ w.vec = c.w.vec ∧ (c.noLoopEnd → s.Advanced t c))) ∧
    (∀ all, s.Executes (.chwait f all) c f on → on ≠ 0 → c.nested on = none →
      let waits := ∃ k, k ∈ c.t.children ∧ (all = true ∨ k % 2 ^ 24 = s.uni c on f.a false % 2 ^ 24) ∧
        ∃ g, s.grid? k = some g ∧ g.st = .live
      (waits → exec (.chwait f all) s = .next s) ∧
      (¬waits → ∃ t w, exec (.chwait f all) s = .next t ∧ t.warp? c.wid = some w ∧ w.vec = c.w.vec ∧ w.uni = c.w.uni ∧
        t.core c.t.core = (s.core c.t.core).invalidate ∧ (∀ a, t.byte a = s.byte a) ∧ (c.noLoopEnd → s.Advanced t c)))

/-- R225: a die takes the bucket at the top of its return stack, else the first of its range; with none of its own it steals from
the die with the most unstarted buckets (of equal ones the first of the mask): the top of its stack, else the upper half of its
range, whose first bucket it takes and whose rest becomes its own; with none anywhere it takes none, or waits for a bucket that
the render core holds. R159, R226, R356, R357: `BKACQ` on a die with a free hall takes such a bucket, whose index it
answers, and the team holds a free hall; with no bucket left in the frame, or no frame, it answers 0xFFFF_FFFF; with no
free hall it waits; a team that holds a hall stops with `HALL_HELD`, and inside a handler its lanes stop (R71). `BKDONE` gives
the hall up, and its bucket is done, or waits for the commit of a replay-active team; it waits for the team's render operations,
and without a hall it stops the group with `HALL_NONE`. With no lane on both pass. The render core, unless it is held
(R461), feeds a returned bucket back to a die's stack where that has room. The model's own readings: log 9, 34, 44, 79, 84. -/
def Obligations.Buckets : Prop :=
  (∀ (fr : Frame) (mask : List Nat) (d lo hi : Nat) (st : List Nat), fr.die d = (lo, hi, st) →
    (∀ b r, st = b :: r → ∃ fr', fr.take mask d = some (some (b, fr')) ∧ fr'.die d = (lo, hi, r) ∧
      (∀ k, k ≠ d → fr'.die k = fr.die k) ∧ fr' = { fr with disp := fr'.disp }) ∧
    (st = [] → lo < hi → ∃ fr', fr.take mask d = some (some (lo, fr')) ∧ fr'.die d = (lo + 1, hi, []) ∧
      (∀ k, k ≠ d → fr'.die k = fr.die k) ∧ fr' = { fr with disp := fr'.disp }) ∧
    (st = [] → hi ≤ lo → (∀ k, k ∈ mask → fr.unstarted k = 0) →
      fr.take mask d = if fr.anyHeld = true then none else some none) ∧
    (∀ pre v post vlo vhi vst, st = [] → hi ≤ lo → mask = pre ++ v :: post → 0 < fr.unstarted v →
      (∀ k, k ∈ pre → fr.unstarted k < fr.unstarted v) → (∀ k, k ∈ post → fr.unstarted k ≤ fr.unstarted v) →
      fr.die v = (vlo, vhi, vst) →
      (∀ b r, vst = b :: r → ∃ fr', fr.take mask d = some (some (b, fr')) ∧ fr'.die v = (vlo, vhi, r) ∧
        (∀ k, k ≠ v → fr'.die k = fr.die k) ∧ fr' = { fr with disp := fr'.disp }) ∧
      (vst = [] →
        let mid := vhi - (vhi - vlo + 1) / 2
        ∃ fr', fr.take mask d = some (some (mid, fr')) ∧ fr'.die v = (vlo, mid, []) ∧ fr'.die d = (mid + 1, vhi, []) ∧
          (∀ k, k ≠ v → k ≠ d → fr'.die k = fr.die k) ∧ fr' = { fr with disp := fr'.disp }))) ∧
  (∀ (s : State) (c : Ctx) (f : Fmt) (on : Mask) (d : BitVec 6), s.Executes (.bkacq f) c f on → f.d = .uni d →
    PassesOff s (.bkacq f) c on ∧
    (∀ cause m, c.nested on = some (cause, m) → on &&& c.w.stopped = 0 → MayStop s c →
      ∃ t, exec (.bkacq f) s = .next t ∧ StoppedWith s t c cause m 0 0) ∧
    (on ≠ 0 → c.nested on = none → c.t.hall.isSome = true → on &&& c.w.stopped = 0 → MayStop s c →
      ∃ t, exec (.bkacq f) s = .next t ∧ StoppedWith s t c .hallHeld c.lanes 0 0) ∧
    (on ≠ 0 → c.nested on = none → c.t.hall = none →
      let sock := socketOf c.t.core
      ((∃ h, h < 8 ∧ (s.hall sock h).free = true) →
        (∀ fr b fr', c.g.frame = some fr → fr.take c.g.mask sock = some (some (b, fr')) →
          ∃ t w h v g, exec (.bkacq f) s = .next t ∧ h < 8 ∧ (s.hall sock h).free = true ∧ t.team? c.w.tid = some v ∧
            v = { c.t with hall := some h, bucket := some b } ∧ (t.hall sock h).holder = some c.w.tid ∧
            (t.hall sock h).grid = some c.t.gid ∧ t.grid? c.t.gid = some g ∧ g.frame = some fr' ∧
            t.warp? c.wid = some w ∧ Raised c w 0 on f.d ∧ t.ureg c.wid d.toNat = BitVec.ofNat 32 b ∧
            (∀ a, t.byte a = s.byte a)) ∧
        (∀ fr, c.g.frame = some fr → fr.take c.g.mask sock = none → exec (.bkacq f) s = .next s) ∧
        ((c.g.frame = none ∨ ∃ fr, c.g.frame = some fr ∧ fr.take c.g.mask sock = some none) →
          ∃ t w, exec (.bkacq f) s = .next t ∧ t.ureg c.wid d.toNat = 0xFFFFFFFF ∧ t.warp? c.wid = some w ∧
            Raised c w 0 on f.d ∧ t.team? c.w.tid = some c.t ∧ t.dies = s.dies)) ∧
      ((∀ h, h < 8 → (s.hall sock h).free = false) → exec (.bkacq f) s = .next s))) ∧
  (∀ (s : State) (c : Ctx) (f : Fmt) (on : Mask), s.Executes (.bkdone f) c f on →
    PassesOff s (.bkdone f) c on ∧
    (on ≠ 0 → c.t.hall = none → MayStop s c →
      ∃ t, exec (.bkdone f) s = .next t ∧ StoppedWith s t c .hallNone c.lanes 0 0) ∧
    (on ≠ 0 → c.t.hall.isSome = true → s.renderBusy c.w.tid = true → exec (.bkdone f) s = .next s) ∧
    (∀ h, on ≠ 0 → c.t.hall = some h → s.renderBusy c.w.tid = false →
      ∃ t v g, exec (.bkdone f) s = .next t ∧ t.team? c.w.tid = some v ∧
        v = { c.t with hall := none, bucket := none
                       bucketsPending := c.t.bucketsPending ++ (if c.t.active then c.t.bucket.toList else []) } ∧
        (t.hall (socketOf c.t.core) h).holder = none ∧ (∀ r l, t.vreg c.wid r l = s.vreg c.wid r l) ∧
        t.grid? c.t.gid = some g ∧
        (c.t.active = true → g.frame = c.g.frame) ∧
        ∀ fr, c.t.active = false → c.g.frame = some fr →
          (fr.doneCount + 1 < fr.buckets → g.frame = some { fr with doneCount := fr.doneCount + 1 }) ∧
          (fr.buckets ≤ fr.doneCount + 1 → fr.doneAddr = 0 → (fr.notify = true → s.canReport = true) →
            g.frame = c.g.frames.head?.map (fun x => x.opened c.g.mask) ∧ g.frames = c.g.frames.tail ∧
            t.hevents.length = s.hevents.length + (if fr.notify then 1 else 0)))) ∧
  (∀ (s : State) (die gid : Nat),
    ∃ t, exec (.returnStackRefill die) s = .next t ∧ t = { s with grids := t.grids } ∧ (4 ∈ s.trust.held → t = s) ∧
      (s.grid? gid = none → t.grid? gid = none) ∧
      ∀ g, s.grid? gid = some g → ∃ g', t.grid? gid = some g' ∧ g' = { g with frame := g'.frame } ∧
        (g.frame = none → g'.frame = none) ∧
        ∀ fr lo hi st, g.frame = some fr → fr.die die = (lo, hi, st) → ∃ fr', g'.frame = some fr' ∧
          fr' = { fr with disp := fr'.disp, held := fr'.held } ∧
          (∀ k, k ≠ die → fr'.die k = fr.die k ∧ tget fr'.held k = tget fr.held k) ∧
          (∀ b r, 4 ∉ s.trust.held → tget fr.held die = some (b :: r) → st.length < 16 →
            fr'.die die = (lo, hi, b :: st) ∧ tget fr'.held die = some r) ∧
          ((∀ b r, tget fr.held die ≠ some (b :: r)) ∨ 16 ≤ st.length → fr' = fr))

/-! ## The matrix engine -/

namespace Sys2Proof.Claims

/-- The word at a target. -/
def wordAt (s : State) (x : Loc) : W32 := BitVec.ofNat 32 (leNat (s.locBytes x 4))

/-- Word `n` of a lane's run of targets. -/
def runWord (s : State) (m : List (Nat × List Loc)) (l n : Nat) : W32 :=
  wordAt s ((((tget m l).getD [])[4 * n]?).getD ⟨.gallery, 0⟩)

/-- No target of a run lies in a host's window. -/
def Local (m : List (Nat × List Loc)) : Prop := ∀ r x, r ∈ m → x ∈ r.2 → x.sp ≠ .pcie

/-- The row that lane `l` names from row `row0` on is one of the team's (R361). -/
def Ctx.rowIn (c : Ctx) (row0 l : Nat) : Prop := row0 + l < 8 * c.g.rec_.accGran

/-- R361: the group stops at the first lane whose row is none of the team's. -/
def StopsAtRow (s : State) (i : Instr) (c : Ctx) (on : Mask) (row0 : Nat) : Prop :=
  ∀ pre l post, lanesOf on = pre ++ l :: post → (∀ k, k ∈ pre → Ctx.rowIn c row0 k) → ¬Ctx.rowIn c row0 l →
    on &&& c.w.stopped = 0 → MayStop s c → ∃ t, exec i s = .next t ∧ StoppedWith s t c .ridx c.lanes (w64 (row0 + l)) 0

end Sys2Proof.Claims

/-- R359 to R361, R370: a descriptor is written to its tile register, or stops the group with `TDESC_BAD`; `MZERO` zeroes its
rows and no other cell; `MRD` and `MWR` move cells of the rows that the lanes name; a row outside the team's rows stops the group
with `RIDX`. R362, R368, R370 to R372: rows loaded and stored, and scales loaded, whose checks pass and whose targets translate, once
the warp's earlier matrix work and its accesses of the gallery and the die scratch are done: `MLDA` puts 16 words of each lane's
row into its cells; `MSTA` converts 16 cells of each lane's row by its slot (a slot of raw words takes them as they are), and
stores them to the gallery at once, or sends them to memory, where nothing differs yet, as requests of the warp; `MLDS` fills scale
memory with halfwords. A check that fails stops the group with its cause. Until their granules are unmarked and earlier work is
done, they wait. With no lane on they pass. The model's own readings: log 21, 77, 79. -/
def Obligations.AccumulatorMoves : Prop :=
  (∀ (s : State) (i : Instr) (c : Ctx) (f : Fmt) (on : Mask),
    ((i = .tdesc f ∧ (∃ a, f.a = .uni a) ∧ ∃ d, f.d = .cls3 d) ∨ (∃ g, i = .mzero f g) ∨ (∃ r x, i = .mrd f r x) ∨
      (∃ x, i = .mwr f x) ∨ (∃ g x, i = .mlda f g x) ∨ (∃ g a b x, i = .msta f g a b x) ∨ (∃ g e a, i = .mlds f g e a)) →
    s.Executes i c f on → PassesOff s i c on) ∧
  (∀ (s : State) (c : Ctx) (f : Fmt) (on : Mask), on ≠ 0 →
    (∀ a i, s.Executes (.tdesc f) c f on → f.a = .uni a → f.d = .cls3 i →
      let d : BitVec 128 := s.ureg c.wid (a.toNat + 3) ++ s.ureg c.wid (a.toNat + 2) ++ s.ureg c.wid (a.toNat + 1) ++
        s.ureg c.wid a.toNat
      (descBad d = false → ∃ t w, exec (.tdesc f) s = .next t ∧ t.warp? c.wid = some w ∧ Issued s t c ∧ w.vec = c.w.vec ∧
        w.uni = c.w.uni ∧ ∀ k, cget w.tile k = if k = i.toNat then d else cget c.w.tile k) ∧
      (descBad d = true → MayStop s c → ∃ t, exec (.tdesc f) s = .next t ∧ StoppedWith s t c .tdescBad c.lanes 0 0)) ∧
    (∀ g di, s.Executes (.mzero f g) c f on → f.d = .cls3 di →
      let i := Instr.mzero f g
      let top := 8 * di.toNat + 8 * (g.toNat + 1)
      (8 * c.g.rec_.accGran < top → MayStop s c →
        ∃ t, exec i s = .next t ∧ StoppedWith s t c .ridx c.lanes (w64 (max (8 * di.toNat) (8 * c.g.rec_.accGran))) 0) ∧
      (top ≤ 8 * c.g.rec_.accGran → s.mxQuiet c [] = false ∨ s.rowsBusy c i on = true → exec i s = .next s) ∧
      (top ≤ 8 * c.g.rec_.accGran → s.mxQuiet c [] = true → s.rowsBusy c i on = false →
        ∃ t v, exec i s = .next t ∧ t.team? c.w.tid = some v ∧ v.scale = c.t.scale ∧ v.gallery = c.t.gallery ∧
          (∀ row col, col < 128 → v.cell row col = if 8 * di.toNat ≤ row ∧ row < top then 0 else c.t.cell row col) ∧
          (∀ r l, t.vreg c.wid r l = s.vreg c.wid r l) ∧ (∀ a, t.byte a = s.byte a) ∧ (c.noLoopEnd → s.Advanced t c))) ∧
    (∀ i row0, ((∃ r x, i = .mrd f r x ∧ row0 = 8 * r.toNat) ∨ (∃ di x, i = .mwr f x ∧ f.d = .cls3 di ∧ row0 = 8 * di.toNat)) →
      s.Executes i c f on →
      StopsAtRow s i c on row0 ∧
      ((∀ l, l ∈ lanesOf on → Ctx.rowIn c row0 l) → s.mxQuiet c [] = false ∨ s.rowsBusy c i on = true → exec i s = .next s) ∧
      ((∀ l, l ∈ lanesOf on → Ctx.rowIn c row0 l) → s.mxQuiet c [] = true → s.rowsBusy c i on = false →
        (∀ r x, i = .mrd f r x →
          ∃ t w, exec i s = .next t ∧ t.warp? c.wid = some w ∧ Raised c w 2 on f.d ∧
            Wrote s t c f.d on fun l => [c.t.cell (row0 + l) x.toNat]) ∧
        (∀ x, i = .mwr f x →
          ∃ t v, exec i s = .next t ∧ t.team? c.w.tid = some v ∧
            (∀ row k, k < 128 → v.cell row k =
              if k = x.toNat ∧ row0 ≤ row ∧ on.getLsbD (row - row0) = true then s.src c 0 .raw f.a (row - row0)
              else c.t.cell row k) ∧ (∀ r l, t.vreg c.wid r l = s.vreg c.wid r l) ∧ (∀ a, t.byte a = s.byte a) ∧
              (c.noLoopEnd → s.Advanced t c))))) ∧
  (∀ (c : Ctx) (gal : Bool) (row0 n : Nat) (on : Mask) (a : Nat → Nat),
    (c.mxCheck gal row0 n on a = none ↔ ∀ l, l ∈ lanesOf on → Ctx.rowIn c row0 l ∧ a l % 4 = 0 ∧
      (gal = true → a l + n ≤ c.g.rec_.gallery)) ∧
    (∀ l, l ∈ lanesOf on → ¬Ctx.rowIn c row0 l → ∃ k, k ∈ lanesOf on ∧ ¬Ctx.rowIn c row0 k ∧
      c.mxCheck gal row0 n on a = some (.ridx, row0 + k)) ∧
    (∀ l, l ∈ lanesOf on → (∀ k, k ∈ lanesOf on → Ctx.rowIn c row0 k) → a l % 4 ≠ 0 → ∃ k, k ∈ lanesOf on ∧ a k % 4 ≠ 0 ∧
      c.mxCheck gal row0 n on a = some (if gal then .galAlign else .memAlign, a k)) ∧
    (∀ l, l ∈ lanesOf on → (∀ k, k ∈ lanesOf on → Ctx.rowIn c row0 k ∧ a k % 4 = 0) → gal = true →
      c.g.rec_.gallery < a l + n → ∃ k, k ∈ lanesOf on ∧ c.g.rec_.gallery < a k + n ∧
      c.mxCheck gal row0 n on a = some (.galRange, a k))) ∧
  (∀ (s : State) (c : Ctx) (f : Fmt) (on : Mask) (gal : Bool), on ≠ 0 → c.g.rec_.gallery ≤ 393216 →
    let a := s.mxAddr c f gal
    let ready := fun (i : Instr) => s.mxQuiet c [.gallery, .scratch] = true ∧ s.rowsBusy c i on = false
    (∀ i row0 n, ((∃ x di, i = .mlda f gal x ∧ f.d = .cls3 di ∧ row0 = 8 * di.toNat ∧ n = 64) ∨
        (∃ slot r x, i = .msta f gal slot r x ∧ row0 = 8 * r.toNat ∧ n = 2 * elemBits (c.g.rec_.slot slot.toNat).elem)) →
      s.Executes i c f on →
      (∀ cause x, c.mxCheck gal row0 n on a = some (cause, x) → MayStop s c →
        ∃ t, exec i s = .next t ∧ StoppedWith s t c cause c.lanes (w64 x) 0) ∧
      (c.mxCheck gal row0 n on a = none → ¬ready i → exec i s = .next s)) ∧
    (∀ col0 di, s.Executes (.mlda f gal col0) c f on → f.d = .cls3 di → c.mxCheck gal (8 * di.toNat) 64 on a = none →
      ready (.mlda f gal col0) →
      let m := s.mxRuns c gal 64 on .read a
      m.2.1 = [] → Quiet s → Local m.1 →
      ∃ t v, exec (.mlda f gal col0) s = .next t ∧ t.team? c.w.tid = some v ∧ v.gallery = c.t.gallery ∧
        (∀ x, t.byte x = s.byte x) ∧ (c.noLoopEnd → s.Advanced t c) ∧
        ∀ row col, col < 128 → v.cell row col =
          if 8 * di.toNat ≤ row ∧ on.getLsbD (row - 8 * di.toNat) = true ∧ 16 * col0.toNat ≤ col ∧ col < 16 * col0.toNat + 16
          then runWord s m.1 (row - 8 * di.toNat) (col - 16 * col0.toNat) else c.t.cell row col) ∧
    (∀ slot row0 col0,
      let i := Instr.msta f gal slot row0 col0
      let sl := c.g.rec_.slot slot.toNat
      let n := 2 * elemBits sl.elem
      let bs := fun (l : Nat) => s.mstaRow c sl (8 * row0.toNat + l) (16 * col0.toNat) l
      let m := s.mxRuns c gal n on .write a
      let flags := (lanesOf on).foldl (fun fl l => fl ||| (bs l).2.bits) 0
      let counts := cvtStoch .slot sl = true ∧ sl.elem ≠ 0 ∧ sl.elem < 6
      s.Executes i c f on → c.mxCheck gal (8 * row0.toNat) n on a = none → ready i →
      (sl.elem = 0 → ∀ l k j, k < 16 → j < 4 →
        (bs l).1[4 * k + j]? = some ((c.t.cell (8 * row0.toNat + l) (16 * col0.toNat + k) >>> (8 * j)).setWidth 8)) ∧
      (gal = true → (∀ l k, l ∈ lanesOf on → k ∈ lanesOf on → l ≠ k → a l + n ≤ a k ∨ a k + n ≤ a l) →
        ∃ t v w, exec i s = .next t ∧ t.team? c.w.tid = some v ∧ v.acc = c.t.acc ∧ (∀ x, t.byte x = s.byte x) ∧
          t.warp? c.wid = some w ∧ w.fstat = c.w.fstat ||| flags ∧ (c.noLoopEnd → s.Advanced t c) ∧
          (∀ l, l < 32 → cget w.srctr l = if on.getLsbD l = true ∧ counts then cget c.w.srctr l + 16 else cget c.w.srctr l) ∧
          (∀ l k, l ∈ lanesOf on → k < n → some (v.galByte (a l + k)) = (bs l).1[k]?) ∧
          ∀ x, (∀ l, l ∈ lanesOf on → x < a l ∨ a l + n ≤ x) → v.galByte x = c.t.galByte x) ∧
      (gal = false → Plain c → m.2.1 = [] → (reqLines (m.1.flatMap (·.2))).length ≤ 63 →
        c.w.unack + (reqLines (m.1.flatMap (·.2))).length ≤ 63 → s.firstUpd c.t.core (reqLines (m.1.flatMap (·.2))) = none →
        ∃ t w reqs, exec i s = .next t ∧ (∀ x, t.byte x = s.byte x) ∧ (c.noLoopEnd → s.Advanced t c) ∧
          t.warp? c.wid = some w ∧ w.fstat = c.w.fstat ||| flags ∧ w.unack = c.w.unack + reqs.length ∧
          (∀ l, l < 32 → cget w.srctr l = if on.getLsbD l = true ∧ counts then cget c.w.srctr l + 16 else cget c.w.srctr l) ∧
          (t.core c.t.core).inflight = (s.core c.t.core).inflight ++ reqs ∧
          reqs.map (fun r => (r.sp, r.line)) = reqLines (m.1.flatMap (·.2)) ∧
          (∀ r, r ∈ reqs → r.wid = c.wid ∧ r.acks = true ∧ r.mx = true ∧ r.pc = c.pc) ∧
          ∀ (x : Loc) (b : Byte), (∃ r l, r ∈ reqs ∧ r.op = .write l ∧ r.sp = x.sp ∧ (x.a, b) ∈ l) ↔
            ∃ (r : Nat × List Loc) (k : Nat), r ∈ m.1 ∧ r.2[k]? = some x ∧ (bs r.1).1[k]? = some b)) ∧
    (∀ e0 slot, s.Executes (.mlds f gal e0 slot) c f on →
      let i := Instr.mlds f gal e0 slot
      let n := (s.src c 0 .raw f.b (lowest on)).toNat
      let x := a (lowest on)
      let lim := 128 * c.g.rec_.accGran
      let m := s.mxRuns c gal (2 * n) (laneBit (lowest on)) .read fun _ => x
      let l := m.1.flatMap (·.2)
      (MayStop s c →
        (n % 2 = 1 → ∃ t, exec i s = .next t ∧ StoppedWith s t c .mxArg c.lanes 0 0) ∧
        (n % 2 = 0 → lim < e0.toNat + n → ∃ t, exec i s = .next t ∧ StoppedWith s t c .mxArg c.lanes (w64 (max e0.toNat lim)) 0) ∧
        (n % 2 = 0 → e0.toNat + n ≤ lim → x % 4 ≠ 0 → ∃ t, exec i s = .next t ∧ StoppedWith s t c .memAlign c.lanes (w64 x) 0) ∧
        (n % 2 = 0 → e0.toNat + n ≤ lim → x % 4 = 0 → gal = true → c.g.rec_.gallery < x + 2 * n →
          ∃ t, exec i s = .next t ∧ StoppedWith s t c .galRange c.lanes (w64 x) 0)) ∧
      (n % 2 = 0 → e0.toNat + n ≤ lim → x % 4 = 0 → (gal = true → x + 2 * n ≤ c.g.rec_.gallery) →
        (s.mxQuiet c [.gallery, .scratch] = false → exec i s = .next s) ∧
        (s.mxQuiet c [.gallery, .scratch] = true → m.2.1 = [] → Quiet s → Local m.1 →
          ∃ t v, exec i s = .next t ∧ t.team? c.w.tid = some v ∧ v.gallery = c.t.gallery ∧ v.acc = c.t.acc ∧
            (∀ x, t.byte x = s.byte x) ∧ (c.noLoopEnd → s.Advanced t c) ∧
            ∀ k, cget v.scale k = if e0.toNat ≤ k ∧ k < e0.toNat + n then
                (wordAt s ((l[(k - e0.toNat) / 2 * 4]?).getD ⟨.gallery, 0⟩)).extractLsb' (16 * ((k - e0.toNat) % 2)) 16
              else cget c.t.scale k))))

/-- R362 to R369: an `MMA` whose arguments, rows and addresses are good enters the engine as one entry for each quarter
that has on lanes, and its lanes go on; the progress of a quarter that held parked lanes returns to 0 with the last of them. A row
outside the team's stops the group with `RIDX`, and a wrong argument with `MX_ARG`. Until earlier work is done it waits. R365,
R368: a pass of the engine takes at most four entries that agree, begun with the first entry of a warp, and leaves the others; it
changes no accumulator cell outside their rows and columns; and a pass over one entry of an integer slot adds the products of its row and
its column to each cell, block by block (R217). The model's own readings: log 3, 21, 76. -/
def Obligations.MatrixMultiply : Prop :=
  (∀ (s : State) (c : Ctx) (f : Fmt) (on : Mask) (acc16 va : Bool) (slot col0 : BitVec 3) (kstep : Byte) (di : BitVec 8)
      (ti : BitVec 3),
    let i := Instr.mma f acc16 va slot col0 kstep
    s.Executes i c f on → f.d = .cls3 di → f.b = .tile ti →
    let d := cget c.w.tile ti.toNat
    let e := elemBits (c.g.rec_.slot slot.toNat).elem
    let row0 := 8 * di.toNat
    let c0 := 16 * col0.toNat
    let sa := (s.src c 0 .raw f.c (lowest on)).toNat
    let a := fun (l : Nat) => if va then ((s.src64 c 0 f.a l) + w64 (64 * kstep.toNat)).toNat
      else (s.src c 0 .raw f.a l).toNat + 64 * kstep.toNat
    let rows := (lanesOf on).flatMap fun l => (List.range 16).map fun i => a l + 4 * i
    let runs := bAddrs d e (kstep.toNat * sliceK e)
    let inRows := ∀ l, l ∈ lanesOf on → Ctx.rowIn c row0 l
    let totals := acc16 = true → c0 + 15 + descTot d ≤ 127
    let arg := c.mxArg on d slot.toNat kstep.toNat sa acc16
    PassesOff s i c on ∧
    (on ≠ 0 → StopsAtRow s i c on row0) ∧
    (on ≠ 0 → inRows → ¬totals → MayStop s c →
      ∃ t, exec i s = .next t ∧ StoppedWith s t c .ridx c.lanes (w64 (c0 + 15 + descTot d)) 0) ∧
    (∀ x, on ≠ 0 → inRows → totals → arg = some x → MayStop s c →
      ∃ t, exec i s = .next t ∧ StoppedWith s t c .mxArg c.lanes (w64 x) 0) ∧
    (on ≠ 0 → inRows → totals → arg = none → (∀ l, l ∈ lanesOf on → a l % 4 = 0) →
      (va = false → ∀ l, l ∈ lanesOf on → a l + 64 ≤ c.g.rec_.gallery) →
      (descGal d = true → ∀ x, x ∈ runs.flatten → x + 4 ≤ c.g.rec_.gallery) →
      let ready := c.w.fenced 2 = false ∧ s.mxDrained c = true ∧ s.rowsBusy c i on = false ∧
        ∀ x, x ∈ c.w.sq → ∀ y, y ∈ x.kind.touches → y.1.sp = .mem ∨ y.1.sp = .spill
      (¬ready → exec i s = .next s) ∧
      (ready → (va = true → Translates s c .read rows) → (descGal d = false → Translates s c .read runs.flatten) →
        ∃ t w es, exec i s = .next t ∧ t.warp? c.wid = some w ∧ w.vec = c.w.vec ∧
          w.parked = c.w.parked ∧ (∀ x, t.byte x = s.byte x) ∧ t.teams = s.teams ∧ (c.noLoopEnd → s.Advanced t c) ∧
          (∀ q, q < 4 → cget w.mprog q =
            if c.w.mpark &&& quarterMask q ≠ 0 ∧ c.w.mpark &&& ~~~on &&& quarterMask q = 0 then 0 else cget c.w.mprog q) ∧
          (t.core c.t.core).mxq = (s.core c.t.core).mxq ++ es ∧
          es.map (fun x => (x.quarter, x.rows.map (·.1))) =
            (((List.range 4).filter fun q => !(quarterLanes on q).isEmpty).map fun q => (q, quarterLanes on q)) ∧
          ∀ x, x ∈ es → x.wid = c.wid ∧ x.tid = c.w.tid ∧ x.desc = d ∧ x.row0 = row0 ∧ x.col0 = c0 ∧
            x.slot = slot.toNat ∧ x.acc16 = acc16 ∧ x.sa = sa ∧ x.kstep = kstep.toNat))) ∧
  (∀ (s s' : State) (core wid : Nat) (x : MxEnt) (pre post : List MxEnt), Quiet s →
    (s.core core).mxq = pre ++ x :: post → (∀ y, y ∈ pre → y.wid ≠ wid) → x.wid = wid →
    s.pick (((s.core core).mxq.map (·.wid)).foldl (fun l w => if l.contains w then l else l ++ [w]) []) = (some wid, s') →
    let ps := passOf x (s.core core).mxq [] 4
    ps.Sublist (s.core core).mxq ∧ ps.length ≤ 4 ∧ (∀ y, y ∈ ps → x.same y = true) ∧
    ((∀ y, y ∈ ps → y.col0 + 16 ≤ 128 ∧ (y.acc16 = true → y.col0 + 16 + descTot y.desc ≤ 128)) →
      ∃ t, exec (.mxPassComplete core) s = .next t ∧ (t.core core).mxq = ps.foldl (fun l p => l.erase p) (s.core core).mxq ∧
        (∀ a, t.byte a = s.byte a) ∧
        ∀ tid tm, s.team? tid = some tm → ∃ v, t.team? tid = some v ∧ v.gallery = tm.gallery ∧ v.scale = tm.scale ∧
          ∀ row col, col < 128 →
            (∀ y, y ∈ ps → y.tid = tid → (∀ r, r ∈ y.rows → row ≠ y.row0 + r.1) ∨
              ((col < y.col0 ∨ y.col0 + 16 ≤ col) ∧
                (y.acc16 = true → col < y.col0 + descTot y.desc ∨ y.col0 + 16 + descTot y.desc ≤ col))) →
            v.cell row col = tm.cell row col)) ∧
  (∀ (s : State) (core : Nat) (x : MxEnt) (tm : Team) (g : Grid) (lane n : Nat) (ls : List Loc), Quiet s →
    (s.core core).mxq = [x] → s.team? x.tid = some tm → s.grid? tm.gid = some g → x.acc16 = false →
    6 ≤ (g.rec_.slot x.slot).elem → x.col0 + 16 ≤ 128 → n < 16 → (x.rows.map (·.1)).Nodup → (lane, ls) ∈ x.rows →
    (∀ r l y, (r ∈ x.rows ∧ l = r.2 ∨ l ∈ x.bWords) → y ∈ l → y.sp ≠ .pcie) →
    let e := elemBits (g.rec_.slot x.slot).elem
    let a := ls.map (wordAt s)
    let b := x.bWords.map fun l => l.map (wordAt s)
    ∃ t v, exec (.mxPassComplete core) s = .next t ∧ t.team? x.tid = some v ∧
      v.cell (x.row0 + lane) (x.col0 + n) = (List.range (sliceK e / 32)).foldl (fun y blk =>
        (addAccInt y ((List.range 32).map fun i =>
          (sext (runElem a e (32 * blk + i)) e, sext (bElem x.desc e b (32 * blk + i) n) e))).1)
        (tm.cell (x.row0 + lane) (x.col0 + n)))

/-! ## Rendering -/

/-- R230, R373 to R377: `BNDP` of records on lines that translate leaves one result pending, with the four lines of each lane's
record; an address that is no multiple of 128 stops the group with `MEM_ALIGN`, and with no frame open `FRAME_NONE` does. `DICE`,
`RAST` and `RSLV` in a hall start an operation of their tag, and `RAST` marks its grid; without a hall, out of range, or of a grid
that is not diced, they stop the group. They wait while the tag's count is full, and all four for a `FENCEX` of class 4. With no
lane on they pass. A `RAST` whose turn it is and that has done every micropolygon completes and frees its grid; one that must
wait does nothing. -/
def Obligations.RenderOperations : Prop :=
  (∀ (s : State) (c : Ctx) (f : Fmt) (on : Mask), s.Executes (.bndp f) c f on →
    let a := fun (l : Nat) => (s.src64 c 0 f.a l).toNat
    let aligned := ∀ l, l ∈ lanesOf on → a l % 128 = 0
    PassesOff s (.bndp f) c on ∧
    StopsFirst s (.bndp f) c (lanesOf on) (fun l => (a l : Int)) (fun l => a l % 128 = 0) .memAlign ∧
    (on ≠ 0 → aligned → c.g.frame = none → MayStop s c →
      ∃ t, exec (.bndp f) s = .next t ∧ StoppedWith s t c .frameNone c.lanes 0 0) ∧
    (on ≠ 0 → aligned → c.g.frame.isSome = true → c.w.fenced 4 = true → exec (.bndp f) s = .next s) ∧
    (∀ fr, on ≠ 0 → aligned → c.g.frame = some fr → c.w.fenced 4 = false →
      Translates s c .read ((lanesOf on).flatMap fun l => (List.range 4).map fun i => a l + 128 * i) →
      ∃ t locs, exec (.bndp f) s = .next t ∧ Issued s t c ∧
        locs.map (fun x : LaneLoc => x.lane) = (lanesOf on).flatMap (List.replicate 4) ∧
        InMotion t c [{ Pend.new (.bound locs fr.znear fr.lensA fr.lensB) 0 on f.d 4 c.pc with seq := c.w.nextSeq }] [])) ∧
  (∀ (s : State) (c : Ctx) (f : Fmt) (on : Mask) (tag : BitVec 6) (i : Instr),
    (i = .dice f tag ∨ (∃ g, i = .rast f g tag) ∨ ∃ tent, i = .rslv f tent tag) → s.Executes i c f on →
    let x := s.uni c on f.a false
    let sock := socketOf c.t.core
    let good := fun (h : Nat) => (i = .dice f tag → x % 4 = 0 ∧ 0x535000 ≤ x ∧ x ≤ 0x5FFFFC) ∧
      ∀ g, i = .rast f g tag → (s.hall sock h).byte (0x602 + 64 * g.toNat) = 1
    PassesOff s i c on ∧
    (on ≠ 0 → c.t.hall = none → MayStop s c → ∃ t, exec i s = .next t ∧ StoppedWith s t c .hallNone c.lanes 0 0) ∧
    (∀ h, on ≠ 0 → c.t.hall = some h →
      (i = .dice f tag → ¬good h → MayStop s c → ∃ t, exec i s = .next t ∧ StoppedWith s t c .hallRange c.lanes (w64 x) 0) ∧
      (∀ g, i = .rast f g tag → ¬good h → MayStop s c →
        ∃ t, exec i s = .next t ∧ StoppedWith s t c .rastGrid c.lanes (w64 g.toNat) 0) ∧
      (good h → c.t.tagCount tag.toNat = 63 ∨ c.w.fenced 4 = true → exec i s = .next s) ∧
      (good h → c.t.tagCount tag.toNat ≠ 63 → c.w.fenced 4 = false →
        ∃ t, exec i s = .next t ∧
          (i = .dice f tag → Started s t c on tag (.dice x)) ∧
          (∀ tent, i = .rslv f tent tag → Started s t c on tag (.rslv tent)) ∧
          ((∀ g, i ≠ .rast f g tag) → t.dies = s.dies) ∧
          ∀ g, i = .rast f g tag → Started s t c on tag (.rast g.toNat) ∧
            ∀ o, (t.hall sock h).byte o = if o = 0x602 + 64 * g.toNat then 2 else (s.hall sock h).byte o))) ∧
  (∀ (s : State) (o : AsyncOp) (tm : Team) (g : Grid) (fr : Frame) (k : Nat), s.ops.find? (·.id == o.id) = some o →
    s.team? o.tid = some tm → s.grid? o.gid = some g → g.frame = some fr → o.kind = .rast k →
    let h := s.hall (socketOf tm.core) o.hall
    (o.suspended = true ∨ s.hallTurn o = false ∨ s.opMayStart o [.hall] = false →
      exec (.asyncOperationComplete o.id) s = .next s) ∧
    (o.suspended = false → s.hallTurn o = true → s.opMayStart o [.hall] = true → o.tag < 64 → 0 < tm.tagCount o.tag →
      (h.n (0x600 + 64 * k) 1 - 1) * (h.n (0x601 + 64 * k) 1 - 1) ≤ o.done →
      ∃ t v, exec (.asyncOperationComplete o.id) s = .next t ∧ t.ops = s.ops.filter (·.id != o.id) ∧ t.mem = s.mem ∧
        t.team? o.tid = some v ∧ v.tagCount o.tag = tm.tagCount o.tag - 1 ∧
        (t.hall (socketOf tm.core) o.hall).byte (0x602 + 64 * k) = 0))

/-- R240, R378: `SMPL.wr` writes the entries its lanes name, and nothing else of the hall, once the team's earlier `RAST`s and
`RSLV`s there have completed and the warp has no read of it pending; `SMPL.rd` leaves one result pending. Without a hall they stop
the group with `HALL_NONE`, and at an entry past 63 with `HALL_RANGE`; with no lane on they pass. R255: a render operation whose
read or write faults is suspended, with one record that names it, and one that does not fault goes on as it was. The model's own
readings: log 21, 40. -/
def Obligations.SamplePatterns : Prop :=
  (∀ (s : State) (c : Ctx) (f : Fmt) (on : Mask) (e0 : BitVec 6) (i : Instr),
    ((i = .smplWr f e0 ∧ ∃ n a, f.a = .vec n a) ∨ i = .smplRd f e0) → s.Executes i c f on →
    let sock := socketOf c.t.core
    let inRange := ∀ l, l ∈ lanesOf on → e0.toNat + l ≤ 63
    PassesOff s i c on ∧
    (on ≠ 0 → c.t.hall = none → MayStop s c → ∃ t, exec i s = .next t ∧ StoppedWith s t c .hallNone c.lanes 0 0) ∧
    (c.t.hall.isSome = true → StopsFirst s i c (lanesOf on) (fun l => ((e0.toNat + l : Nat) : Int)) (fun l => e0.toNat + l ≤ 63)
      .hallRange) ∧
    (∀ h n a, on ≠ 0 → c.t.hall = some h → inRange → i = .smplWr f e0 → f.a = .vec n a →
      let busy := s.hallBusy c.w.tid h = true ∨ ∃ p x, p ∈ c.w.pend ∧ x ∈ p.kind.reads ∧ x.1.sp = .hall
      let word := fun (i l : Nat) => s.vreg c.wid (a.toNat + i) l
      (busy → exec i s = .next s) ∧
      (¬busy → ∃ t, exec i s = .next t ∧ (∀ x, t.byte x = s.byte x) ∧ (c.noLoopEnd → s.Advanced t c) ∧
        (∀ r l, t.vreg c.wid r l = s.vreg c.wid r l) ∧
        (∀ l k, l ∈ lanesOf on → k < 16 → (t.hall sock h).byte (0x200 + 16 * (e0.toNat + l) + k) =
          if k < 8 then (word (k / 4) l >>> (8 * (k % 4))).setWidth 8
          else if k < 10 then (word 2 l >>> (8 * (k - 8))).setWidth 8 else 0) ∧
        ∀ o, (∀ l, l ∈ lanesOf on → o < 0x200 + 16 * (e0.toNat + l) ∨ 0x200 + 16 * (e0.toNat + l) + 16 ≤ o) →
          (t.hall sock h).byte o = (s.hall sock h).byte o)) ∧
    (∀ h, on ≠ 0 → c.t.hall = some h → inRange → i = .smplRd f e0 →
      ∃ t, exec i s = .next t ∧ Issued s t c ∧
        InMotion t c [{ Pend.new (.pattern ((lanesOf on).map fun l =>
          ⟨l, ⟨.hall, hallKey sock h (0x200 + 16 * (e0.toNat + l))⟩⟩)) 0 on f.d 4 c.pc with seq := c.w.nextSeq }] [])) ∧
  (∀ (s : State) (o : AsyncOp), s.ops.find? (·.id == o.id) = some o →
    (∀ (s1 : State) (c : Ctx) (kind va ft : Nat), s.renderStep o = .fault kind va ft s1 → s1.ctxOf o.wid o.lanes = some c →
      s1.grid? o.gid = some c.g →
      ∃ t g e, exec (.renderFaultSuspend o.id) s = .next t ∧ t.mem = s1.mem ∧
        (∀ x, x ∈ t.ops → x.id = o.id → x.suspended = true) ∧ t.grid? o.gid = some g ∧ g.faults = c.g.faults ++ [e] ∧
        e.va = w64 va ∧ e.kind = kind ∧ e.ftype = ft ∧ e.engine = 4 ∧ e.pc = o.pc ∧ e.lanes = o.lanes ∧ e.async = true ∧
        e.tag = o.tag ∧ e.who = .op o.id) ∧
    ((∀ kind va ft s1, s.renderStep o ≠ .fault kind va ft s1) → exec (.renderFaultSuspend o.id) s = .next s))

/-! ## Rays and shaders -/

namespace Sys2Proof.Claims

/-- R249 to R252, R256, R380: the traces of some lanes, each with its identifier, as it starts or goes on, and taken to its next
event in lane order. -/
def courses (s : State) (l : List Trace) : List (Nat × Trace × TrOut) × State :=
  l.foldl (fun a t =>
    let x := a.2.again t
    let o := x.2.2.traceNext x.2.1
    (a.1 ++ [(x.1, x.2.1, o.1)], o.2)) ([], s)

/-- The trace that a course leaves standing. -/
def courseOf : TrOut → Option Trace
  | .shade _ _ t => some t
  | .finish t => some t
  | .err .endless t => some t
  | .err _ _ => none

end Sys2Proof.Claims

/-- R249, R254, R256, R379, R380, R382: a `TRACE` whose checks pass, once the warp's earlier accesses are done: one trace for each
on lane within the trace depth whose course meets no fault stands at its next event, with one status pending, and the lanes wait
at the `TRACE`; a lane whose course faults parks with a record, and goes on from its last delivered hit when it executes again.
Where no lane is within the depth the statuses are 3 at once. A scene record that faults parks its lanes, and one that is
malformed or has no entry for `MISS`, or a malformed record on the course, stops the group with `RAY_NODE`; the registers of the
payload, its sizes, its gallery range and the record's alignment stop it with `RIDX`, `PAYLOAD`, `GAL_RANGE` and `MEM_ALIGN`. With
no lane on it passes. The model's own readings: log 25, 69, 71. -/
def Obligations.TracesStart : Prop :=
  ∀ (s : State) (c : Ctx) (f : Fmt) (on : Mask) (mode : TraceMode) (mask : Byte) (pw miss : BitVec 6) (n : Bool) (a : BitVec 8),
    let i := Instr.trace f mode mask pw miss
    s.Executes i c f on → f.a = .vec n a →
    let k := (s.src c 0 .raw f.c (lowest on)).toNat
    let gb := k % 2 ^ 20
    let per := k / 2 ^ 20 * 16
    let at_ := (s.src64 c 0 f.b (lowest on)).toNat
    let deep := (lanesOf on).filter fun l => c.g.rec_.traceDepth < s.traceDepth c l
    let goes := (lanesOf on).filter fun l => !deep.contains l
    let regs := a.toNat + 7 + pw.toNat < c.g.rec_.vec
    let sizes := pw.toNat ≤ c.g.rec_.payloadRegs ∧ 32 * per ≤ c.g.rec_.payloadGal
    let range := per ≠ 0 → gb + 32 * per ≤ c.g.rec_.gallery
    let stops := fun (cause : Cause) (d0 : Nat) => MayStop s c → ∃ t, exec i s = .next t ∧ StoppedWith s t c cause c.lanes (w64 d0) 0
    let bad := fun (d0 : Nat) => MayStop s c → ∃ t e w, exec i s = .next t ∧ t.hevents = s.hevents ++ [e] ∧
      e.cause = Cause.rayNode.code ∧ e.d0 = w64 d0 ∧ e.lanes = c.lanes ∧ e.pc = c.pc ∧ t.warp? c.wid = some w ∧
      w.stopped = c.w.stopped ||| c.lanes ∧ w.vec = c.w.vec ∧ w.win = c.w.win
    PassesOff s i c on ∧
    (on ≠ 0 →
      (¬regs → stops .ridx (max a.toNat c.g.rec_.vec)) ∧
      (regs → ¬sizes → stops .payload 0) ∧
      (regs → sizes → ¬range → stops .galRange gb) ∧
      (regs → sizes → range → c.w.fenced 5 = true ∨ s.handOff c = none → exec i s = .next s) ∧
      (regs → sizes → range → c.w.fenced 5 = false → s.handOff c = some none → c.t.commit = [] →
        (goes = [] → ∃ t w, exec i s = .next t ∧ t.warp? c.wid = some w ∧ w.pend = c.w.pend ∧ (c.noLoopEnd → s.Advanced t c) ∧
          Wrote s t c f.d on fun _ => [3]) ∧
        (goes ≠ [] → at_ % 32 ≠ 0 → stops .memAlign at_) ∧
        (goes ≠ [] → at_ % 32 = 0 →
          (∀ va ft s1, s.rayRead c.t.gid (socketOf c.t.core) at_ 32 = (.error (va, ft), s1) →
            ∃ t w g new, exec i s = .next t ∧ t.warp? c.wid = some w ∧ w.parked = c.w.parked ||| maskOf goes ∧
              w.pend = c.w.pend ∧ t.grid? c.t.gid = some g ∧ g.faults = c.g.faults ++ new ∧ new ≠ [] ∧
              ∀ e, e ∈ new → e.kind = 8 ∧ e.engine = 5 ∧ e.va = w64 va ∧ e.ftype = ft ∧ e.pc = c.pc) ∧
          (∀ bs s1, s.rayRead c.t.gid (socketOf c.t.core) at_ 32 = (.ok bs, s1) →
            let ts := goes.map (s1.newTrace c f.d a.toNat mode mask.toNat pw.toNat miss.toNat bs gb per)
            let os := (courses s1 ts).1
            let faults := os.filterMap fun x => match x.2.2 with
              | .err (.fault va ft) u => some (u.lane, va, ft)
              | _ => none
            let gone := maskOf (faults.map (·.1))
            let good := sceneBad bs = false ∧ miss.toNat < field bs 16 4
            (sceneBad bs = true → bad at_) ∧
            (sceneBad bs = false → ¬good → bad (field bs 8 8 + 32 * miss.toNat)) ∧
            (∀ pre x post d0 u, good → os = pre ++ x :: post → x.2.2 = .err (.bad d0) u →
              (∀ y, y ∈ pre → ∀ d v, y.2.2 ≠ .err (.bad d) v) → bad d0) ∧
            (good → (∀ x, x ∈ os → ∀ d v, x.2.2 ≠ .err (.bad d) v) → (os.map (·.1)).Nodup →
              Quiet s → maskOf goes &&& ~~~gone ≠ 0 →
              ∃ t w q g new, exec i s = .next t ∧ t.warp? c.wid = some w ∧ w.pend = c.w.pend ++ [q] ∧
                q.kind = .trace (a.toNat + 8) pw.toNat ∧ q.lanes = on &&& ~~~gone ∧ q.dst = f.d ∧ q.got = [] ∧
                w.uni = c.w.uni ∧ (∀ x, t.byte x = s.byte x) ∧
                (∀ r l, l < 32 → gone.getLsbD l = false → t.vreg c.wid r l = s.vreg c.wid r l) ∧
                (∀ l, l < 32 → cget w.pc l = cget c.w.pc l) ∧
                (∀ l, l < 32 → (c.lanes &&& ~~~gone).getLsbD l = true → tget c.w.waits l = none →
                  tget w.waits l = some (.trace c.w.nextSeq)) ∧
                w.parked = c.w.parked ||| gone ∧ t.grid? c.t.gid = some g ∧ g.faults = c.g.faults ++ new ∧
                (∀ e, e ∈ new → e.kind = 8 ∧ e.engine = 5 ∧ e.pc = c.pc ∧ ∃ x, x ∈ faults ∧ e.va = w64 x.2.1 ∧ e.ftype = x.2.2) ∧
                ∀ x, x ∈ os → (∀ va ft u, x.2.2 ≠ .err (.fault va ft) u) → tget t.traces x.1 = courseOf x.2.2)))))

/-- R381, R382: a `TRACE` all of whose traces have finished returns each payload to its lane's registers and gallery bytes, and each
status, with an acquire, and its lanes go on; until then nothing returns. R316, R379, R476: a malformed record met by a trace stops
the lanes at their `TRACE` with `RAY_NODE`, and its traces end. R253: a shader bin with 32 invocations, or of a grid no ray of which
traverses there, or whose oldest invocation is 1,000 ns old, launches a team of up to 32 of them in increasing material key, where
a core has room, with their payloads in its lanes. R383: `TRHIT` and `TRQRY` read what the lane holds of its trace. The model's
own readings: log 3, 25, 35, 39, 69, 79. -/
def Obligations.Shaders : Prop :=
  (∀ (s : State) (id : Nat) (tr : Trace) (w : Warp) (tm : Team), tget s.traces id = some tr → s.warp? tr.wid = some w →
    s.team? (tr.wid / 32) = some tm → (s.traces.map (·.1)).Nodup → (w.waits.map (·.1)).Nodup →
    let mine := s.tracesOf tr.wid tr.pend
    let held := maskOf ((w.waits.filter fun x => x.2 == .trace tr.pend).map (·.1))
    (tr.parked = true ∨ (∃ k h, tr.st = .shading k h) ∨ tr.st = .traverse → exec (.traceReturn id) s = .next s) ∧
    (∀ st, tr.st = .finished st → tr.parked = false → (∃ x, x ∈ mine ∧ x.2.status = none) → exec (.traceReturn id) s = .next s) ∧
    (∀ st p d pre post, tr.st = .finished st → tr.parked = false → (∀ x, x ∈ mine → x.2.status ≠ none) →
      w.pend = pre ++ p :: post → (∀ x, x ∈ pre ++ post → x.seq ≠ tr.pend) → p.seq = tr.pend → p.dst = .vec d →
      (mine.map (·.2.lane)).Nodup → (∀ x, x ∈ mine → x.2.lane < 32 ∧ x.2.galBase = tr.galBase ∧ x.2.galBytes = tr.galBytes) →
      let one := fun (k : Nat) => mine.find? fun x => x.2.lane == k
      ∃ t v u, exec (.traceReturn id) s = .next t ∧ (∀ x, x ∈ mine → tget t.traces x.1 = none) ∧ t.warp? tr.wid = some v ∧
        v.pend = pre ++ post ∧ v.uni = w.uni ∧ v.pred = w.pred ∧ t.mem = s.mem ∧
        (NoLoopEndAt w held → ∀ l, l < 32 → cget v.pc l = if held.getLsbD l then cget w.pc l + 12 else cget w.pc l) ∧
        t.core tm.core = (s.core tm.core).invalidate ∧
        (∀ x, x ∈ mine → tget v.hitRec x.2.lane = x.2.last) ∧
        (∀ r k, k < 32 → t.vreg tr.wid r k =
          if p.lanes.getLsbD k = true ∧ r = d.toNat then ((one k).bind (·.2.status)).getD 3
          else match one k with
            | some x => if x.2.base ≤ r ∧ r - x.2.base < x.2.payload.length then x.2.payload.getD (r - x.2.base) 0
              else s.vreg tr.wid r k
            | none => s.vreg tr.wid r k) ∧
        t.team? (tr.wid / 32) = some u ∧ ∀ x i, x ∈ mine → i < x.2.galBytes → i < x.2.galPayload.length →
          u.galByte (x.2.galBase + x.2.lane * x.2.galBytes + i) = x.2.galPayload.getD i 0) ∧
    (∀ a c, tr.st = .bad a → tr.parked = false → s.ctxOf tr.wid held = some c →
      let c' := { c with w := { c.w with pend := c.w.pend.filter (·.seq != tr.pend)
                                         waits := c.w.waits.filter (·.2 != .trace tr.pend) } }
      (¬MayStop s c' → exec (.traceReturn id) s = .next s) ∧
      (MayStop s c' → ∃ t, exec (.traceReturn id) s = .next t ∧ (∀ x, x ∈ mine → tget t.traces x.1 = none) ∧
        StoppedWith { s with traces := t.traces } t c' .rayNode held (w64 a) 0))) ∧
  (∀ (s s1 : State) (die e : Nat) (b : ShBin) (g : Grid) (i : Instr),
    ((i = .shaderBinLaunch die e ∧ s.pick ((s.die die).bins.filter fun b =>
        b.entry == e && (32 ≤ b.invs.length || !s.traversing b.gid die)) = (some b, s1)) ∨
      (i = .shaderBinTimer die e ∧ s.pick ((s.die die).bins.filter fun b =>
        b.entry == e && match b.invs.head? with | some x => x.2.2 + 1000 ≤ s.ns | none => false) = (some b, s1))) →
    s.grid? b.gid = some g → b.invs ≠ [] →
    s.singleCores b.gid g 32 (((b.invs.filterMap fun x => tget s.traces x.1).map (·.depth)).foldl max 0) ≠ [] →
    ∃ (t : State) (v : Team) (invs : List (Nat × Nat × Nat)), exec i s = .next t ∧ t.team? s.nextTid = some v ∧
      t.nextTid = s.nextTid + 1 ∧ v.gid = b.gid ∧ v.kind = .shader (invs.map (·.1)) ∧ v.st = .running ∧ v.nwarps = 1 ∧
      invs.length = min 32 b.invs.length ∧ (∀ x, x ∈ invs → x ∈ b.invs) ∧ invs.Pairwise (fun x y => x.2.1 ≤ y.2.1) ∧
      (∀ x y, x ∈ invs → y ∈ b.invs → y ∉ invs → x.2.1 ≤ y.2.1) ∧
      (b.invs.length ≤ 32 → (t.die die).bins = (s.die die).bins.erase b) ∧ t.mem = s.mem ∧
      (∀ l, l < invs.length → t.lanePc (widOf s.nextTid 0) l = w64 b.entry) ∧
      ∀ l x tr, invs[l]? = some x → tget s.traces x.1 = some tr → ∀ r, r < tr.payload.length →
        t.vreg (widOf s.nextTid 0) r l = tr.payload.getD r 0) ∧
  (∀ (s : State) (c : Ctx) (f : Fmt) (on : Mask) (n : BitVec 3) (i : Instr), s.Executes i c f on →
    let h := fun (l : Nat) => (tget c.w.hitRec l).getD HitRec.none_
    let x := fun (l : Nat) => (tget c.w.rayInfo l).getD RayInfo.none_
    (i = .trhit f n → ∃ t w, exec i s = .next t ∧ t.warp? c.wid = some w ∧ (on ≠ 0 → Raised c w 2 on f.d) ∧
      Wrote s t c f.d on fun l =>
        [if n = 0 then (h l).t else if n = 1 then (h l).s else if n = 2 then (h l).w else if n = 3 then (h l).prim
          else if n = 4 then (h l).geom else if n = 5 then (h l).addr.setWidth 32
          else if n = 6 then ((h l).addr >>> 32).setWidth 32 else (h l).flags]) ∧
    (i = .trqry f n → ∃ t w, exec i s = .next t ∧ t.warp? c.wid = some w ∧ (on ≠ 0 → Raised c w 2 on f.d) ∧
      Wrote s t c f.d on fun l =>
        [if n = 0 then (x l).depth else if n = 1 then (x l).delivered else if n = 2 then (x l).tmax else if n = 3 then (x l).tmin
          else if n = 4 then (x l).mask else (x l).kind]))

/-! ## Placement, retirement and node teams -/

/-- R118 to R120, R122, R128: of the grids in the order in which they are offered resources, the first that can place something
makes one of its placements (which one is free), and no longer waits: its teams run on the cores of the ring, and the place goes to
an aborted team, or to the next unit of a sequence, whose teams stand in the order of their rank; where that grid has a saved unit
or a node team to place, or no grid can place, nothing is dispatched. R122, R159: where a grid that waits longer than 20 µs cannot
place, it holds what frees for it if it has clusters or is die-resident, and the halls from which its die scratch is carved. R103: a
starting warp receives its parameters, or its lanes park at its first instruction. R127: a team that may retire is gone. R127,
R416: a grid that is complete stores its done value, is reported where that is asked for, and has retired. The model's own
readings: log 5, 45, 47. -/
def Obligations.Placement : Prop :=
  (∀ (s : State),
    ((∀ x, x ∈ s.offered → s.mayPlace x.1 x.2 = false) → exec .teamDispatch s = .next s) ∧
    (∀ gid g, s.offered.find? (fun x => s.mayPlace x.1 x.2) = some (gid, g) → s.places gid g = [] →
      exec .teamDispatch s = .next s) ∧
    (∀ gid g x s1, s.offered.find? (fun x => s.mayPlace x.1 x.2) = some (gid, g) → s.grid? gid = some g →
      s.pick (s.places gid g) = (some x, s1) →
      ∃ t g', exec .teamDispatch s = .next t ∧ t.grid? gid = some g' ∧ g'.waitSinceNs = s.ns ∧ g'.held = false ∧
        t.mem = s.mem ∧ (∀ k, k < s.nextTid → t.team? k = s.team? k) ∧
        (∀ p, (x = .again p ∨ ∃ i, x = .seq i p) →
          t.nextTid = s.nextTid + (p.units.map fun u => u.2.2.length).sum ∧
          ∀ u y, u ∈ p.units → y ∈ u.2.2 → ∃ k v, s.nextTid ≤ k ∧ k < t.nextTid ∧ t.team? k = some v ∧ v.gid = gid ∧
            v.kind = .root ∧ v.st = .running ∧ v.lin = y.1 ∧ v.rank = y.2.1 ∧ v.clu = u.1 ∧
            v.core = ringCore p.sock u.2.1 y.2.1 ∧ v.replayed = y.2.2) ∧
        (∀ p, x = .again p → g'.again = p.left g.again ∧ g'.seqs = g.seqs) ∧
        (∀ core, x = .againNode core → g'.seqs = g.seqs ∧ ∀ lin kind recs rest, g.again = (lin, kind, recs) :: rest →
          g'.again = rest ∧ ∃ v, t.team? s.nextTid = some v ∧ v.gid = gid ∧ v.core = core ∧ v.st = .running ∧
            v.replayed = true ∧ v.recs = recs) ∧
        (∀ i p, x = .seq i p → g'.again = g.again ∧ g'.seqs.length = g.seqs.length ∧ ∀ (j : Nat) q, g.seqs[j]? = some q →
          g'.seqs[j]? = some (if j = i then { q with nextUnit := q.nextUnit + p.units.length } else q))) ∧
    (∀ gid g i p, Place.seq i p ∈ s.places gid g → g.rec_.barDie = 0 →
      ∃ q c0 ts, g.seqs[i]? = some q ∧ q.nextUnit < q.stop ∧ p.sock ∈ q.sockets ∧ p.units = [(q.nextUnit, c0, ts)] ∧
        ts.map (·.1) = g.rec_.unitTeams q.nextUnit ∧ ts.map (·.2.1) = List.range g.rec_.cluster ∧ ∀ y, y ∈ ts → y.2.2 = false)) ∧
  (∀ (s : State) (gid : Nat) (g : Grid), s.grid? gid = some g →
    let due := s.waits gid g = true ∧ g.waitSinceNs + 20000 < s.ns ∧ s.mayPlace gid g = false
    (¬due → exec (.placementHold gid) s = .next s) ∧
    (due → ∃ t, exec (.placementHold gid) s = .next t ∧ t = { s with grids := t.grids, dies := t.dies } ∧
      t.grid? gid = some (if 1 < g.rec_.cluster ∨ g.rec_.barDie ≠ 0 then { g with held := true } else g) ∧
      ∀ d h, (t.hall d h) = if d ∈ s.scratchless gid g ∧ h ∈ [7, 6, 5] ∧ (s.hall d h).reserved = none
        then { s.hall d h with reserved := some gid } else s.hall d h)) ∧
  (∀ (s s1 : State) (wid : Nat) (w : Warp) (c : Ctx), s.warp? wid = some w →
    (w.paramsLoaded = true ∨ w.runnable = 0 → exec (.paramLoad wid) s = .next s) ∧
    (w.paramsLoaded = false → w.runnable ≠ 0 → s.ctxOf wid w.runnable = some c →
      (∀ ws, s.paramWords c c.g.rec_.params = (.ok ws, s1) → Quiet s →
        ∃ t v, exec (.paramLoad wid) s = .next t ∧ t.warp? wid = some v ∧ v.paramsLoaded = true ∧ v.vec = w.vec ∧ v.pc = w.pc ∧
          (∀ a, t.byte a = s.byte a) ∧ ∀ r, t.ureg wid r = if r < ws.length then ws.getD r 0 else s.ureg wid r) ∧
      (∀ va ft, s.paramWords c c.g.rec_.params = (.error (va, ft), s1) →
        ∃ t v g new, exec (.paramLoad wid) s = .next t ∧ t.warp? wid = some v ∧ w.runnable &&& ~~~v.parked = 0 ∧
          v.paramsLoaded = false ∧ t.grid? c.t.gid = some g ∧ g.faults = c.g.faults ++ new ∧ new ≠ [] ∧
          ∀ e, e ∈ new → e.kind = 1 ∧ e.engine = 0 ∧ e.va = w64 va ∧ e.ftype = ft ∧ e.pc = c.pc))) ∧
  (∀ (s : State) (tid : Nat) (v : Team), s.team? tid = some v →
    (s.teamMayRetire tid v = false → exec (.teamRetire tid) s = .next s) ∧
    (s.teamMayRetire tid v = true →
      ∃ t, exec (.teamRetire tid) s = .next t ∧ t.team? tid = none ∧ (∀ k, k ≠ tid → t.team? k = s.team? k) ∧
        (∀ wid, wid / 32 = tid → t.warp? wid = none) ∧ (v.active = false → v.hall = none → t.mem = s.mem ∧
          ∀ g, s.grid? v.gid = some g → t.grid? v.gid =
            some (if v.kind = .root then { g with rootRetired := g.rootRetired + 1 } else g)))) ∧
  (∀ (s : State) (gid : Nat) (g : Grid), s.grid? gid = some g →
    let tells := g.notify = true ∨ g.discards ≠ 0
    (s.gridDone gid g = false ∨ (tells ∧ s.canReport = false) → exec (.gridRetire gid) s = .next s) ∧
    (s.gridDone gid g = true → (tells → s.canReport = true) →
      ∃ t g', exec (.gridRetire gid) s = .next t ∧ t.grid? gid = some g' ∧ g'.st = .retired ∧ g'.frame = none ∧
        t.gridsRetired = s.gridsRetired + 1 ∧
        t.hevents = s.hevents ++ (if g.notify || g.discards != 0 then [gridEvent g gid .retired (w64 g.discards)] else []) ∧
        ∀ a, t.byte a = if g.rec_.doneAddr = 0 then s.byte a
          else (s.vwrite g.asid g.rec_.doneAddr (natBytes 8 g.rec_.doneValue.toNat)).byte a))

/-- R138 to R141: a node that launches, and whose bin holds `COUNT` records, or whose timer has expired, or whose feeders are
complete while none of its teams runs, launches one team with its first records, where a core has room and no grid goes before its
own; otherwise it launches none. R143: when its feeders are complete, a predicate that reads as other than 0 opens its node, one
that reads as 0 discards what the bin holds, and one whose read faults is recorded. The model's own readings: log 3, 23, 39, 45,
75. -/
def Obligations.NodeTeams : Prop :=
  (∀ (s : State) (gid n k : Nat) (g : Grid) (x : Node) (i : Instr), s.grid? gid = some g → g.st = .live →
    tget g.nodes n = some x →
    let due := (x.cond = .none ∨ x.cond = .proceed) ∧
      ((i = .nodeCountLaunch gid n ∧ x.count ≤ x.bin.length ∧ k = x.count) ∨
        (i = .nodeTimerExpiry gid n ∧ x.timer ≠ 0 ∧ x.bin ≠ [] ∧ x.binSinceNs + x.timer ≤ s.ns ∧ k = min x.count x.bin.length) ∨
        (i = .nodeFinalLaunch gid n ∧ s.feedersDone gid g n x = true ∧ s.nodeRuns gid n = false ∧
          k = min x.count x.bin.length))
    ((i = .nodeCountLaunch gid n ∧ k = x.count ∨
        (i = .nodeTimerExpiry gid n ∨ i = .nodeFinalLaunch gid n) ∧ k = min x.count x.bin.length) →
      ¬due ∨ k = 0 ∨ s.turnOf gid = false ∨ s.singleCores gid g x.threads 0 = [] → exec i s = .next s) ∧
    (due → k ≠ 0 → s.turnOf gid = true → s.singleCores gid g x.threads 0 ≠ [] → 1 ≤ x.threads →
      ∃ t g' v, exec i s = .next t ∧ t.grid? gid = some g' ∧
        tget g'.nodes n = some { x with bin := x.bin.drop k, launchedTeams := x.launchedTeams + 1 } ∧
        (∀ j, j ≠ n → tget g'.nodes j = tget g.nodes j) ∧ t.team? s.nextTid = some v ∧ t.nextTid = s.nextTid + 1 ∧
        v.gid = gid ∧ v.kind = .node n x.launchedTeams (x.bin.take k).length ∧ v.recs = x.bin.take k ∧ v.st = .running ∧
        v.core ∈ s.singleCores gid g x.threads 0 ∧
        t.lanePc (widOf s.nextTid 0) 0 = w64 x.entry ∧ t.mem = s.mem)) ∧
  (∀ (s s1 : State) (gid n : Nat) (g : Grid) (x : Node), s.grid? gid = some g → g.st = .live → tget g.nodes n = some x →
    (x.cond ≠ .waiting ∨ s.feedersDone gid g n x = false → exec (.conditionalNodePredicate gid n) s = .next s) ∧
    (x.cond = .waiting → s.feedersDone gid g n x = true →
      (∀ bs, s.vread g.asid x.predAddr 4 = (.ok bs, s1) →
        ∃ t g' y, exec (.conditionalNodePredicate gid n) s = .next t ∧ t.grid? gid = some g' ∧ tget g'.nodes n = some y ∧
          (leNat bs ≠ 0 → y = { x with cond := .proceed, binSinceNs := s.ns }) ∧
          (leNat bs = 0 → y = { x with cond := .discard, bin := [], discarded := x.discarded + x.bin.length }) ∧
          (g'.st = .live → ∀ j, j ≠ n → tget g'.nodes j = tget g.nodes j)) ∧
      (∀ ft va, s.vread g.asid x.predAddr 4 = (.error (ft, va), s1) →
        ∃ t g' e, exec (.conditionalNodePredicate gid n) s = .next t ∧ t.grid? gid = some g' ∧
          tget g'.nodes n = some { x with cond := .faulted } ∧ (∀ j, j ≠ n → tget g'.nodes j = tget g.nodes j) ∧
          g'.faults = g.faults ++ [e] ∧ e.kind = 1 ∧ e.engine = 7 ∧ e.async = true ∧ e.va = w64 x.predAddr ∧ e.ftype = ft)))

namespace Sys2Proof.Claims

/-- The set of a partition that a residence names. -/
def members (p : Partition) : Residence → List Nat
  | .active => p.active
  | .pending => p.pending
  | .nonResident => p.nonResident
  | _ => []

/-- R89, R90: a warp has joined a set of its partition as its newest member, now, and is in no other. -/
def Joined (s t : State) (part wid : Nat) (r : Residence) : Prop :=
  (∃ l, members (t.part part) r = l ++ [wid] ∧ wid ∉ l) ∧ (∀ q, q ≠ r → wid ∉ members (t.part part) q) ∧
    ∀ w, s.warp? wid = some w → ∃ v, t.warp? wid = some v ∧ v.residence = r ∧ v.sinceCycle = s.now ∧ v.sinceNs = s.ns

/-- What the lanes of a warp hold is what the lanes of another hold. -/
def SameRegs (v w : Warp) : Prop :=
  v.vec = w.vec ∧ v.uni = w.uni ∧ v.pred = w.pred ∧ v.win = w.win ∧ v.mask = w.mask ∧ v.pc = w.pc

/-- What the lanes of a warp hold is as it was. -/
def Kept (s t : State) (wid : Nat) : Prop := ∀ w, s.warp? wid = some w → ∃ v, t.warp? wid = some v ∧ SameRegs v w

/-- R44: a warp has been restored: it holds what its sections hold, or, where it has never been saved, what it held. -/
def Restored (s t : State) (wid : Nat) : Prop :=
  ∀ c, s.ctxOf wid 0 = some c → ∃ v, t.warp? wid = some v ∧
    SameRegs v (if c.w.firstSaved then
      (c.w.loadSections c.g.rec_).loadSpecial (((sectionOffsets c.g.rec_.warpSections)[0]?).getD 0) else c.w)

/-- R414: a packet has been taken: `READ_IDX` has advanced past it, and the queue runs on as `q`. -/
def Taken (t : State) (qid : Nat) (p : Packet) (q : Queue) : Prop :=
  t.queue? qid = some { q with resumed := false } ∧ t.peekN (q.desc + 28) 4 = (p.idx + 1) % 2 ^ 32

/-- R418: a queue has stopped: its descriptor says so with the index and the cause, nothing else of memory differs, and one
report of it waits. -/
def QueueStopped (s t : State) (qid : Nat) (q : Queue) (c : Cause) (id : W32) (idx d0 : Nat) : Prop :=
  t.queue? qid = some { q with st := .stopped, stopReq := false } ∧
    t.hevents = s.hevents ++ [queueEvent q qid c id idx d0] ∧
    ∀ a, t.byte a = putAt (putAt (putAt s.byte (q.desc + 44) 4 (w64 idx)) (q.desc + 42) 2 (w64 c.code)) (q.desc + 40) 1 1 a

end Sys2Proof.Claims

/-! ## The sets of a partition -/

/-- R89: the four rules by which warps move between the active and the pending set, each where those before it do not apply, for the
oldest ready pending warp; where none is ready the last three move none. R43, R44, R90, R185: a pending warp that has been stalled
too long while a ready one has no room leaves the file once its accesses are released; of the ready warps outside the one that has
been ready longest enters it where there is room, with what its context holds and an acquire; and one that has been ready for 8 µs
without room displaces another. The model's own readings: log 28, 43, 50, 80. -/
def Obligations.WarpSets : Prop :=
  ∀ (s : State) (part : Nat),
    let p := s.part part
    let readyAt := fun (k : Nat) => ((s.warp? k).bind (·.readySince)).getD s.ns
    (∀ x, p.active.length < 8 →
      (s.oldestReady part = some x ∨ (s.oldestReady part = none ∧ p.pending.head? = some x)) →
      ∃ t, exec (.activeSetFill part) s = .next t ∧ Joined s t part x .active ∧ Kept s t x ∧ t.mem = s.mem) ∧
    (8 ≤ p.active.length ∨ p.pending = [] → exec (.activeSetFill part) s = .next s) ∧
    (∀ y i, (i = .stalledWarpExchange part y ∨ i = .pendingAgeExchange part ∨ i = .yieldExchange part y) →
      s.oldestReady part = none → exec i s = .next s) ∧
    (∀ x y i, 8 ≤ p.active.length → s.oldestReady part = some x → y ∈ p.active → y ≠ x →
      ((i = .stalledWarpExchange part y ∧ s.stalled y = true) ∨
        ((∀ k, k ∈ p.active → s.stalled k = false) ∧
          ((i = .pendingAgeExchange part ∧ 2048 ≤ s.inSetFor x ∧ s.leastRecent p.active = some y) ∨
            (i = .yieldExchange part y ∧ 256 ≤ s.inSetFor x ∧ s.inSetFor x < 2048 ∧ s.justYielded part y = true)))) →
      ∃ t, exec i s = .next t ∧ Joined s t part y .pending ∧ Joined s t part x .active ∧ Kept s t y ∧ Kept s t x ∧
        t.mem = s.mem) ∧
    (∀ wid, s.maySwapOut wid = false → exec (.swapOut wid) s = .next s) ∧
    (∀ wid c, s.partOfWarp wid = part → s.maySwapOut wid = true → s.ctxOf wid 0 = some c →
      (s.barRelease c .die = none → exec (.swapOut wid) s = .next s) ∧
      (∀ l, s.barRelease c .die = some (some l) → exec (.swapOut wid) s = .next (s.drain c.t.core wid l)) ∧
      (s.barRelease c .die = some none →
        ∃ t, exec (.swapOut wid) s = .next t ∧ Joined s t part wid .nonResident ∧ Kept s t wid ∧ t.mem = s.mem)) ∧
    (∀ l k, s.longestReady l = some k → k ∈ l ∧ ∀ x, x ∈ l → readyAt k ≤ readyAt x) ∧
    (s.swapInNext part = none → exec (.swapIn part) s = .next s) ∧
    (∀ k tm, s.swapInNext part = some k → s.team? (k / 32) = some tm →
      k ∈ s.readyOutside part ∧ s.roomFor part k = true ∧
      ∃ t, exec (.swapIn part) s = .next t ∧ Joined s t part k .pending ∧ Restored s t k ∧
        t.core tm.core = (s.core tm.core).invalidate ∧ t.mem = s.mem) ∧
    (s.forced part = none → exec (.forcedSwapIn part) s = .next s) ∧
    (∀ k y, s.forced part = some (k, y) →
      k ∈ s.readyOutside part ∧ s.roomFor part k = false ∧ readyAt k + 8000 ≤ s.ns ∧
      ((s.displace part y).roomFor part k = false → exec (.forcedSwapIn part) s = .next (s.displace part y)) ∧
      (∀ c, (s.displace part y).roomFor part k = true → k ≠ y → y ∉ s.exitedIn part → s.ctxOf y 0 = some c →
        s.barRelease c .die = some none →
        ∃ t, exec (.forcedSwapIn part) s = .next t ∧ Joined s t part y .nonResident ∧ Kept s t y ∧
          Joined s t part k .pending ∧ Restored s t k ∧ t.mem = s.mem))

/-! ## Faults and pre-emption -/

/-- R168, R169: a grid's oldest fault is written as its record into a free slot, and raises the fault interrupt; with the slot taken
it waits. R170, R185, R442: a released record whose turn has come resumes its work: the lanes of a warp on its core with an acquire,
those of a saved warp by a mark in its context, an operation, a request, a pending read or a predicate. R424, R441, R443: one that
cannot be resolved, or whose fault is an access violation, ends the grid where its report can be held. Before its turn, or its
release, nothing resumes. The model's own readings: log 14, 49, 52. -/
def Obligations.FaultRecords : Prop :=
  (∀ (s : State) (gid : Nat) (g : Grid) (e : FaultEvt) (rest : List FaultEvt) (i : Instr), s.grid? gid = some g →
    g.st = .live → g.faults = e :: rest → Quiet s → (i = .faultRecordWrite gid ∨ i = .faultSlotRecheck gid) →
    (s.slotFree g = true → ∃ t, exec i s = .next t ∧ t.faultInt = true ∧
      t.grid? gid = some { g with faults := rest, nextFaultSeq := g.nextFaultSeq + 1,
                                  records := g.records ++ [⟨g.nextFaultSeq, e, false, false, false⟩] } ∧
      ∀ a, t.byte a =
        (s.vwrite g.asid (g.rec_.faultqBase + 64 * (g.nextFaultSeq % 2 ^ g.rec_.faultqLog2)) (e.bytes gid g.nextFaultSeq)).byte a) ∧
    (s.slotFree g = false → exec i s = .next s)) ∧
  (∀ (e : FaultEvt) (gid q : Nat),
    let b := e.bytes gid q
    b.length = 64 ∧ field b 0 8 = q % 2 ^ 64 ∧ field b 8 8 = e.va.toNat ∧ field b 16 8 = e.pc.toNat ∧
      field b 24 4 = e.lanes.toNat ∧ field b 28 4 = gid % 2 ^ 24 ∧ field b 36 4 = e.teamlin.toNat ∧
      field b 40 1 = e.kind % 256 ∧ field b 41 1 = e.ftype % 256 ∧ field b 48 8 = e.item.toNat) ∧
  (∀ (s : State) (gid seq : Nat) (g : Grid) (r : FaultRec), s.grid? gid = some g → g.st = .live →
    g.records.find? (·.seq == seq) = some r →
    let turn := ∀ x, x ∈ g.records → x.seq < seq → x.resumed = true ∨ x.unresolvable = true
    let ends := r.evt.ftype = 5 ∨ r.unresolvable = true
    (r.resumed = true ∨ ¬turn ∨ (¬ends ∧ r.released = false) ∨ (ends ∧ s.canReport = false) →
      exec (.recordResume gid seq) s = .next s) ∧
    (r.resumed = false → turn → ¬ends → r.released = true →
      ∃ t g', exec (.recordResume gid seq) s = .next t ∧ t.grid? gid = some g' ∧ t.mem = s.mem ∧
        (∀ x, x ∈ g'.records → x.seq = seq → x.resumed = true) ∧
        (∀ wid m w tm, r.evt.who = .lanes wid m → s.warp? wid = some w → (w.residence = .active ∨ w.residence = .pending) →
          s.team? (wid / 32) = some tm → t.core tm.core = (s.core tm.core).invalidate ∧
          t.warp? wid = some { w with parked := w.parked &&& ~~~m, ready := w.ready &&& ~~~m }) ∧
        (∀ wid m w, r.evt.who = .lanes wid m → s.warp? wid = some w → w.residence ≠ .active → w.residence ≠ .pending →
          ∃ v, t.warp? wid = some v ∧ v = { w with ready := w.ready ||| m, ckpt := v.ckpt }) ∧
        (∀ o, r.evt.who = .op o → t.ops = s.ops.map fun x => if x.id == o then { x with suspended := false } else x) ∧
        (∀ k q, r.evt.who = .req k q → (t.core k).inflight =
          (s.core k).inflight.map fun x => if x.id == q then { x with returned := false } else x) ∧
        (∀ wid q w, r.evt.who = .pend wid q → s.warp? wid = some w →
          t.warp? wid = some { w with pend := w.pend.map fun x => if x.seq == q then { x with returned := false } else x }) ∧
        ∀ n x, r.evt.who = .predicate n → tget g.nodes n = some x → tget g'.nodes n = some { x with cond := .waiting }) ∧
    (r.resumed = false → turn → ends → s.canReport = true →
      ∃ t g' e, exec (.recordResume gid seq) s = .next t ∧ t.grid? gid = some g' ∧ g'.st = .terminated ∧ e ∈ t.hevents ∧
        e.cause = Cause.termFault.code ∧ e.grid = BitVec.ofNat 32 gid ∧ e.d0 = w64 seq))

/-- R128, R444, R445: a pre-emption halts the teams of the units it takes, and aborts those that are replay-active, which are placed
again. R445, R446: a halted team of a unit whose work is done and whose stores are acknowledged is saved with what it holds, and waits
for its restore; until then it waits, and its update-only lines are drained; it is restored on the cores of one of its plans, and
where it is not its turn, or there is no plan, it waits. R43, R44: a warp saved for the first time and restored holds what it held.
The model's own readings: log 3, 43, 45, 51. -/
def Obligations.Preemption : Prop :=
  (∀ (s : State) (gid : Nat) (g : Grid), s.grid? gid = some g →
    (g.st ≠ .live ∨ s.preemptions gid g = [] → exec (.preemptRequest gid) s = .next s) ∧
    (∀ l s1, g.st = .live → s.pick (s.preemptions gid g) = (some l, s1) →
      ∃ t, exec (.preemptRequest gid) s = .next t ∧ t.mem = s.mem ∧ (∀ k, k ∉ l → t.team? k = s.team? k) ∧
        ∀ k v, k ∈ l → s.team? k = some v → v.st = .running →
          (v.active = false → t.team? k = some { v with st := .halting }) ∧
          (v.active = true → t.team? k = none ∧ ∀ h, s.grid? v.gid = some h →
            ∃ h', t.grid? v.gid = some h' ∧ (v.lin, v.kind, v.recs) ∈ h'.again))) ∧
  (∀ (s : State) (tid : Nat) (v : Team) (g : Grid), s.team? tid = some v → s.grid? v.gid = some g → v.st = .halting →
    let us := (s.unitOfTeam tid v).filter fun x => x.2.st == .halting
    let drained := ∀ x, x ∈ us → s.teamDrained x.1 x.2 = true
    let acked := ∀ x, x ∈ us → s.teamAcked x.1 x.2 = true
    (¬drained → exec (.preemptSave tid) s = .next s) ∧
    (drained → ¬acked → exec (.preemptSave tid) s = .next (us.foldl (fun s x => s.drainTeam x.1 x.2) s)) ∧
    (drained → acked →
      ∃ t u g', exec (.preemptSave tid) s = .next t ∧ t.team? tid = some u ∧ u.st = .saved ∧ u.gallery = v.gallery ∧
        u.acc = v.acc ∧ u.scale = v.scale ∧ t.grid? v.gid = some g' ∧ tid ∈ g'.restore ∧ t.mem = s.mem ∧
        (∀ wid r l, t.vreg wid r l = s.vreg wid r l) ∧ ∀ wid r, t.ureg wid r = s.ureg wid r)) ∧
  (∀ (s : State) (tid : Nat) (v : Team) (g : Grid), s.team? tid = some v → s.grid? v.gid = some g →
    (g.st ≠ .live ∨ g.restore.head? ≠ some tid ∨ s.turnOf v.gid = false ∨ s.restorePlans v.gid g = [] →
      exec (.teamRestore tid) s = .next s) ∧
    (∀ l s1, g.st = .live → g.restore.head? = some tid → s.turnOf v.gid = true →
      s.pick (s.restorePlans v.gid g) = (some l, s1) → (g.again = [] ∨ ∀ x, x ∈ l → x.1 < s.nextTid) →
      ∃ t g', exec (.teamRestore tid) s = .next t ∧ t.grid? v.gid = some g' ∧
        g'.restore = g.restore.filter (fun x => !l.any (·.1 == x)) ∧ g'.waitSinceNs = s.ns ∧ t.mem = s.mem ∧
        ∀ x u, x ∈ l → s.team? x.1 = some u → ∃ u' y, t.team? x.1 = some u' ∧ u'.st = .running ∧ y ∈ l ∧ y.1 = x.1 ∧
          u'.core = y.2)) ∧
  (∀ (s : State) (wid : Nat) (c : Ctx), s.ctxOf wid 0 = some c → c.w.firstSaved = false →
    let t := (s.saveWarp wid).loadWarp wid
    (∀ r l, r < c.g.rec_.vec → l < 32 → t.vreg wid r l = s.vreg wid r l) ∧
      (∀ r, r < c.g.rec_.uni → t.ureg wid r = s.ureg wid r) ∧ (∀ r, r < 7 → t.preg wid r = s.preg wid r) ∧
      (∀ r, r < 12 → t.mreg wid r = s.mreg wid r) ∧ (∀ k l, k < 8 → l < 32 → t.wslot wid k l = s.wslot wid k l) ∧
      ∀ l, l < 32 → t.lanePc wid l = s.lanePc wid l)

/-! ## Queues -/

/-- R413, R414, R418, R423: the head of a running user queue: a slot that cannot be read, an invalid header once the queue has been
resumed there and a type above 4 are wrong, and an invalid header otherwise leaves the queue idle. A doorbell and a poll read it:
what is wrong stops the queue with its cause, and so does a packet whose turn it is with a reserved field that is not zero
(`QE_RESERVED`) or an address that breaks its alignment (`QE_ALIGN`), where the report can be held; for everything else they have
no effect. R420, R423: the oldest event of a handler queue is written into a free slot, with its serial number, where no frame
waits to be reported and its grid does not end with it; with the slot taken it waits, and a write in vain counts the events that
wait. The model's own readings: log 14, 16, 48, 53. -/
def Obligations.QueueHeads : Prop :=
  (∀ (s : State) (q : Queue),
    let i := s.readIdx q
    let at_ := q.slot i
    (q.st ≠ .running ∨ q.kind ≠ 0 ∨ s.mg.halt ≠ 0 → s.head q = .idle) ∧
    (q.st = .running → q.kind = 0 → s.mg.halt = 0 →
      (∀ e, s.vpeek q.asid at_ 8 = .error e → s.head q = .bad 3 at_ 0 i) ∧
      ∀ hd, s.vpeek q.asid at_ 8 = .ok hd →
        (field hd 0 1 = 0 → q.resumed = false → s.head q = .idle) ∧
        ((field hd 0 1 = 0 ∧ q.resumed = true) ∨ 4 < field hd 0 1 → s.head q = .bad 0 at_ (BitVec.ofNat 32 (field hd 4 4)) i) ∧
        (1 ≤ field hd 0 1 → field hd 0 1 ≤ 4 →
          (∀ e, s.vpeek q.asid at_ 64 = .error e → s.head q = .bad 3 at_ (BitVec.ofNat 32 (field hd 4 4)) i) ∧
          ∀ bs, s.vpeek q.asid at_ 64 = .ok bs → s.head q = .packet (parsePacket bs at_ i)))) ∧
  (∀ (s : State) (qid : Nat) (v : W32) (q : Queue) (i : Instr), s.queue? qid = some q → Quiet s →
    (i = .doorbellWrite qid v ∨ i = .queuePoll qid) →
    (s.head q = .idle → exec i s = .next s) ∧
    (∀ k d0 id idx, s.head q = .bad k d0 id idx →
      (s.canReport = false → exec i s = .next s) ∧
      (s.canReport = true → ∃ t, exec i s = .next t ∧ QueueStopped s t qid q (.qe k) id idx d0)) ∧
    (∀ p, s.head q = .packet p →
      let turn := p.barrier = true → s.earlierDone q = true
      (¬turn ∨ (p.reserved = false ∧ p.misaligned = none) ∨ s.canReport = false → exec i s = .next s) ∧
      (turn → p.reserved = true → s.canReport = true →
        ∃ t, exec i s = .next t ∧ QueueStopped s t qid q (.qe 1) p.id p.idx p.at_) ∧
      (∀ a, turn → p.reserved = false → p.misaligned = some a → s.canReport = true →
        ∃ t, exec i s = .next t ∧ QueueStopped s t qid q (.qe 2) p.id p.idx a))) ∧
  (∀ (s : State) (qid : Nat) (q : Queue) (i : Instr), s.queue? qid = some q → Quiet s →
    (i = .handlerPacketWrite qid ∨ i = .handlerSlotRecheck qid) →
    (s.hevents.find? (·.hq == qid) = none → exec i s = .next s) ∧
    ∀ e, s.hevents.find? (·.hq == qid) = some e →
      let w := s.peekN (q.desc + 24) 4
      (s.handlerFree q = true → (0x40 ≤ e.cause ∨ s.allStopped e.grid.toNat = false) →
        (∀ x f, x ∈ s.grids → x.2.st = .live → x.2.frame = some f → f.doneCount < f.buckets) →
        ∃ t, exec i s = .next t ∧ t.hevents = s.hevents.erase e ∧ t.queue? qid = some { q with hseq := q.hseq + 1 } ∧
          t.peekN (q.desc + 24) 4 = (w + 1) % 2 ^ 32 ∧
          ∀ a, (a < q.desc + 24 ∨ q.desc + 28 ≤ a) → (a < q.desc + 48 ∨ q.desc + 52 ≤ a) →
            t.byte a = (s.vwrite q.asid (q.slot w) (e.bytes (q.hseq + 1))).byte a) ∧
      (s.handlerFree q = false → ∃ t, exec i s = .next t ∧ t.hevents = s.hevents ∧ t.queues = s.queues ∧
        (i = .handlerSlotRecheck qid → t = s) ∧
        (i = .handlerPacketWrite qid →
          t.peekN (q.desc + 48) 4 = ((s.hevents.take 4096).filter (·.hq == qid)).length ∧
          ∀ a, (a < q.desc + 48 ∨ q.desc + 52 ≤ a) → t.byte a = s.byte a)))

/-- R416 to R418: the packet at the head of a queue, where no `QSTOP` waits for it: before its turn it waits, and one that breaks a
check of R418 stops the queue. `LAUNCH` of a record that is accepted makes a grid with the frames held for it and stores its
identifier; one that is rejected stops the queue with the record's status. `FRAME` opens its frame or holds it for the next
`LAUNCH`; it waits for a frame before it, and a malformed descriptor or a grid that is not there stops the queue. `SIGNAL` stores its
value when every earlier grid and frame is done with, and waits before; `NOP` is taken. A read that faults stops the queue with
`QE_READ`. A `FRAME` waits while the render core is held (R461). Each packet that is taken advances `READ_IDX` and zeroes its
header. The model's own readings: log 14, 16, 17, 48, 74, 84. -/
def Obligations.Packets : Prop :=
  ∀ (s : State) (qid : Nat) (q : Queue) (p : Packet), s.queue? qid = some q → s.head q = .packet p → Quiet s →
    let turn := p.barrier = true → s.earlierDone q = true
    let stops := fun (i : Instr) (q' : Queue) (c : Cause) (d0 : Nat) => s.canReport = true →
      ∃ t, exec i s = .next t ∧ QueueStopped s t qid q' c p.id p.idx d0
    let zeroed := fun (s1 t : State) => ∀ a,
      t.byte a = putAt (s1.vwrite q.asid p.at_ (natBytes 8 0)).byte (q.desc + 28) 4 (w64 (p.idx + 1)) a
    (∀ i ty, ((i = .launchPacket qid ∧ ty = 1) ∨ (i = .framePacket qid ∧ ty = 2) ∨ (i = .signalPacket qid ∧ ty = 3) ∨
        (i = .nopPacket qid ∧ ty = 4)) →
      (p.ptype ≠ ty ∨ ¬turn → exec i s = .next s) ∧
      (p.ptype = ty → turn → p.reserved = true → stops i q (.qe 1) p.at_) ∧
      (∀ a, p.ptype = ty → turn → p.reserved = false → p.misaligned = some a → stops i q (.qe 2) a)) ∧
    (turn → p.reserved = false → p.misaligned = none → q.stopReq = false →
      (p.ptype = 1 →
        (∀ ft va s1, s.submit q.asid p.addr1 none = (.fault ft va, s1) → stops (.launchPacket qid) q (.qe 3) p.addr1) ∧
        (∀ k s1, s.submit q.asid p.addr1 none = (.rejected k, s1) →
          stops (.launchPacket qid) { q with heldFrames := [] } (.lr k) p.addr1) ∧
        (∀ r ns mask s1, s.submit q.asid p.addr1 none = (.ok r ns mask, s1) →
          ∃ t g, exec (.launchPacket qid) s = .next t ∧ t.grid? s1.nextGid = some g ∧ t.nextGid = s1.nextGid + 1 ∧
            g.st = .live ∧ g.rec_ = r ∧ g.asid = q.asid ∧ g.qid = qid ∧ g.notify = p.notify ∧ g.pktId = p.id ∧ g.depth = 0 ∧
            (r.handlerQ = 0 → g.handlerQ = q.handlerQ) ∧
            (g.frame = q.heldFrames.head?.map fun f => f.opened mask) ∧ g.frames = q.heldFrames.tail ∧
            zeroed (if p.addr2 = 0 then s1 else s1.vwrite q.asid p.addr2 (natBytes 4 (s1.nextGid % 2 ^ 24))) t ∧
            Taken t qid p { q with grids := q.grids ++ [s1.nextGid], heldFrames := [],
                                   frameGrids := q.frameGrids ++ List.replicate q.heldFrames.length s1.nextGid })) ∧
      (p.ptype = 2 → 4 ∈ s.trust.held → exec (.framePacket qid) s = .next s) ∧
      (p.ptype = 2 → 4 ∉ s.trust.held →
        (∀ e s1, s.vread q.asid p.addr1 64 = (.error e, s1) → stops (.framePacket qid) q (.qe 3) p.addr1) ∧
        (∀ bs s1, s.vread q.asid p.addr1 64 = (.ok bs, s1) →
          let fr := parseFrame bs qid q p
          (frameBad bs fr = true → stops (.framePacket qid) q (.qe 4) p.addr1) ∧
          (frameBad bs fr = false →
            (p.addr2 = frameNext → ∃ t, exec (.framePacket qid) s = .next t ∧ zeroed s1 t ∧
              Taken t qid p { q with heldFrames := q.heldFrames ++ [fr] }) ∧
            (p.addr2 ≠ frameNext → (∀ g, s.grid? p.addr2 = some g → g.st ≠ .live ∨ g.asid ≠ q.asid) →
              stops (.framePacket qid) q (.qe 5) p.at_) ∧
            (∀ g, p.addr2 ≠ frameNext → s.grid? p.addr2 = some g → g.st = .live → g.asid = q.asid →
              (g.frame.isSome = true ∨ g.frames ≠ [] → exec (.framePacket qid) s = .next s1) ∧
              (g.frame = none → g.frames = [] → ∃ t, exec (.framePacket qid) s = .next t ∧ zeroed s1 t ∧
                t.grid? p.addr2 = some { g with frame := some (fr.opened g.mask) } ∧
                Taken t qid p { q with frameGrids := q.frameGrids ++ [p.addr2] }))))) ∧
      (p.ptype = 3 →
        (s.earlierDone q = false → exec (.signalPacket qid) s = .next s) ∧
        (s.earlierDone q = true → ∃ t, exec (.signalPacket qid) s = .next t ∧ Taken t qid p q ∧
          zeroed (if p.addr1 = 0 then s else s.vwrite q.asid p.addr1 (natBytes 8 p.value.toNat)) t)) ∧
      (p.ptype = 4 → ∃ t, exec (.nopPacket qid) s = .next t ∧ Taken t qid p q ∧ zeroed s t))

namespace Sys2Proof.Claims

/-- R428, R440, R464, R474: the message, the operation and the owner of the instruction that carries out a command. -/
def commandOf : Instr → Option (Msg × Nat × Nat)
  | .qcreate m => some (m, 0x01, 0)
  | .qdestroy m => some (m, 0x02, 0)
  | .qresume m => some (m, 0x03, 0)
  | .qstop m => some (m, 0x04, 0)
  | .gterm m => some (m, 0x10, 1)
  | .release m | .unresolvable m | .inval m | .asidtab m => some (m, 0x20, 2)
  | .dbgattach m => some (m, 0x30, 7)
  | .dbgdetach m => some (m, 0x31, 7)
  | .peerbind m => some (m, 0x40, 6)
  | .fwstage m => some (m, 0x50, 6)
  | .fwactivate m => some (m, 0x51, 6)
  | .fwfuse m => some (m, 0x52, 6)
  | .attest m => some (m, 0x53, 6)
  | _ => none

/-- R440: the action that a memory command has. -/
def memAction : Instr → Option Nat
  | .release _ => some 0
  | .unresolvable _ => some 1
  | .inval _ => some 2
  | .asidtab _ => some 3
  | _ => none

/-- R427: a command has been taken: core 0's from the head of the mailbox, another core's from its FIFO. -/
def CommandTaken (s t : State) (m : Msg) (own : Nat) : Prop :=
  if own = 0 then t.cmdQ = s.cmdQ.tail else t.fifo own = (s.fifo own).erase m

/-- R427: a command is answered with a status and a result of zero, and has no effect. -/
def Refused (s : State) (i : Instr) (m : Msg) (own : Nat) (st : Status) : Prop :=
  ∃ t, exec i s = .next t ∧ Answered s t m own st 0 ∧ t.queues = s.queues ∧ t.grids = s.grids ∧ t.mem = s.mem ∧ t.tlb = s.tlb ∧
    t.cores = s.cores ∧ t.trust = s.trust ∧ t.peers = s.peers

end Sys2Proof.Claims

/-! ## Commands -/

/-- R412, R419, R423, R427, R428: a command that has reached its owner, with room for its response, is taken and answered; otherwise it
waits. `INVAL` and `ASIDTAB` wait for the accesses already translated, `GTERM` for room for its report, and `QCREATE` for an identifier
that no held event names. `QCREATE` makes a queue of the descriptor; `QDESTROY` ends one that nothing uses, and loses no event held for
it; `QRESUME` lets a stopped one run, past its slot or at it; `QSTOP` stops a running one with `QE_HOST`, and no packet reports that.
The model's own readings: log 14, 17, 53, 54, 65. -/
def Obligations.QueueCommands : Prop :=
  (∀ (s : State) (i : Instr) (m : Msg) (opc own : Nat), commandOf i = some (m, opc, own) →
    (s.commandReady m opc own = false → exec i s = .next s) ∧
    (s.commandReady m opc own = true →
      (∀ a, memAction i = some a → actionOf m = a ∨ (a = 0 ∧ 3 < actionOf m)) →
      (∀ x, i = .qcreate x → s.liveQueues.length + s.hevents.length < 65535) → (∀ x, i = .gterm x → s.canReport = true) →
      (∀ x, i = .inval x → invalBad m = true ∨ s.translated none = false) →
      (∀ x, i = .asidtab x → s.translated none = false) →
      ∃ t st r, exec i s = .next t ∧ Answered s t m own st r ∧ CommandTaken s t m own)) ∧
  (∀ (s : State) (m : Msg), s.commandReady m 0x01 0 = true → Quiet s →
    let a := argN m 8 8
    let bs := s.peek a 64
    let full := 65535 ≤ s.liveQueues.length
    let room := s.liveQueues.length + s.hevents.length < 65535
    (full ∨ room → s.descOk a = false ∨ s.descBad bs = true → Refused s (.qcreate m) m 0 .badArg) ∧
    (s.descOk a = true → s.descBad bs = false →
      (full → Refused s (.qcreate m) m 0 .busy) ∧
      (room → ∃ t id q, exec (.qcreate m) s = .next t ∧
        Answered s t m 0 .ok (id + 2 ^ 32 * Config.doorbellPage id) ∧ 1 ≤ id ∧ id ≤ 65535 ∧
        (∀ x, x ∈ s.liveQueues → x.1 ≠ id) ∧ (∀ e, e ∈ s.hevents → e.hq ≠ id) ∧ t.queue? id = some q ∧ (∀ k, k ≠ id → t.queue? k = s.queue? k) ∧
        q.desc = a ∧ q.ring = field bs 0 8 ∧ q.log2 = field bs 38 1 ∧ q.asid = field bs 36 2 ∧ q.kind = field bs 39 1 ∧
        q.prioMax = field bs 41 1 ∧ q.st = .running ∧ q.grids = [] ∧ q.hseq = 0 ∧
        (q.kind = 0 → s.handlerAt (field bs 8 8) q.asid = some q.handlerQ) ∧
        ∀ x, t.byte x = putAt (putAt (putAt s.byte (a + 32) 4 (w64 id)) (a + 16) 8 (w64 (deviceWindow + 16384 * id)))
          (a + 40) 1 0 x))) ∧
  (∀ (s : State) (m : Msg) (i : Instr) (opc : Nat), (i = .qdestroy m ∧ opc = 2) ∨ (i = .qresume m ∧ opc = 3) ∨
    (i = .qstop m ∧ opc = 4) → s.commandReady m opc 0 = true → s.queueArg m = none → Refused s i m 0 .noObject) ∧
  (∀ (s : State) (m : Msg) (id : Nat) (q : Queue), s.queueArg m = some (id, q) → Quiet s →
    let u := s.takeCommand m 0
    (s.commandReady m 0x02 0 = true →
      let used := (∃ x, x ∈ s.liveQueues ∧ x.2.kind = 0 ∧ x.2.handlerQ = id) ∨
        ∃ g, g ∈ s.grids ∧ g.2.st = .live ∧ (g.2.handlerQ = id ∨
          ∃ f, (g.2.frame = some f ∨ f ∈ g.2.frames) ∧ f.notify = true ∧ f.hq = id)
      (used → Refused s (.qdestroy m) m 0 .busy) ∧
      (¬ used → ∃ t, exec (.qdestroy m) s = .next t ∧ Answered s t m 0 .ok 0 ∧
        t.queue? id = some { q with st := .destroyed, heldFrames := [] } ∧
        t.hevents = s.hevents ∧ (∀ k, k ≠ id → t.queue? k = s.queue? k) ∧ ∀ x, t.byte x = putAt s.byte (q.desc + 40) 1 2 x)) ∧
    (s.commandReady m 0x03 0 = true →
      (q.st ≠ .stopped → Refused s (.qresume m) m 0 .busy) ∧
      (q.st = .stopped → ∃ t, exec (.qresume m) s = .next t ∧ Answered s t m 0 .ok 0 ∧
        (argN m 12 1 % 2 = 0 → t.queue? id = some { q with st := .running, resumed := true } ∧
          ∀ x, t.byte x = putAt s.byte (q.desc + 40) 1 0 x) ∧
        (argN m 12 1 % 2 = 1 → t.queue? id = some { q with st := .running, resumed := false } ∧
          ∀ x, t.byte x = putAt (putAt (u.vwrite q.asid (q.slot (s.readIdx q)) (natBytes 8 0)).byte (q.desc + 28) 4
            (w64 (s.readIdx q + 1))) (q.desc + 40) 1 0 x))) ∧
    (s.commandReady m 0x04 0 = true →
      (q.st ≠ .running → Refused s (.qstop m) m 0 .busy) ∧
      (q.st = .running → ∃ t, exec (.qstop m) s = .next t ∧ Answered s t m 0 .ok 0 ∧ t.hevents = s.hevents ∧
        (u.inProgress q = true → t.queue? id = some { q with stopReq := true } ∧ t.mem = s.mem) ∧
        (u.inProgress q = false → t.queue? id = some { q with st := .stopped, stopReq := false } ∧
          ∀ x, t.byte x = putAt (putAt (putAt s.byte (q.desc + 44) 4 (w64 (s.readIdx q))) (q.desc + 42) 2
            (w64 (Cause.qe 6).code)) (q.desc + 40) 1 1 x))))

/-- R423, R424, R428, R429, R439, R440, R464: what the commands of the other cores do: `GTERM` ends a grid, and waits where its report
cannot be held; `DBGATTACH` and `DBGDETACH` set and clear its debug entry; `RELEASE` and `UNRESOLVABLE` settle a fault record; an
unassigned action is refused; `INVAL` drops the translations of a range, of an address space or of all, from every cache that holds
them, and waits while an access so translated is not performed; `ASIDTAB` sets the table base and acts as `INVAL` of all; `PEERBIND`
binds a pair, or is denied, which the peer decides. The model's own readings: log 36, 46, 63, 65. -/
def Obligations.GridAndMemoryCommands : Prop :=
  (∀ (s : State) (m : Msg) (i : Instr) (opc own : Nat), (i = .gterm m ∧ opc = 0x10 ∧ own = 1) ∨
    (i = .dbgattach m ∧ opc = 0x30 ∧ own = 7) ∨ (i = .dbgdetach m ∧ opc = 0x31 ∧ own = 7) →
    s.commandReady m opc own = true →
    (s.gridArg m = none → Refused s i m own .noObject) ∧
    ∀ id g, s.gridArg m = some (id, g) →
      (i = .gterm m → s.canReport = false → exec i s = .next s) ∧
      (i = .gterm m → s.canReport = true → ∃ t g' e, exec i s = .next t ∧ Answered s t m own .ok 0 ∧ t.grid? id = some g' ∧ g'.st = .terminated ∧
        e ∈ t.hevents ∧ e.cause = Cause.termCmd.code ∧ e.grid = BitVec.ofNat 32 id) ∧
      (i = .dbgattach m →
        (argN m 16 8 % 12 ≠ 0 → Refused s i m own .badArg) ∧
        (argN m 16 8 % 12 = 0 → g.dbgEntry ≠ none → Refused s i m own .busy) ∧
        (argN m 16 8 % 12 = 0 → g.dbgEntry = none → ∃ t, exec i s = .next t ∧ Answered s t m own .ok 0 ∧
          t.grid? id = some { g with dbgEntry := some (argN m 16 8) })) ∧
      (i = .dbgdetach m →
        (g.dbgEntry = none → Refused s i m own .noObject) ∧
        (g.dbgEntry ≠ none → ∃ t, exec i s = .next t ∧ Answered s t m own .ok 0 ∧
          t.grid? id = some { g with dbgEntry := none }))) ∧
  (∀ (s : State) (m : Msg), s.commandReady m 0x20 2 = true →
    (3 < actionOf m → Refused s (.release m) m 2 .badArg) ∧
    (∀ st i, s.recordOf m = .error st → (i = .release m ∧ actionOf m = 0) ∨ (i = .unresolvable m ∧ actionOf m = 1) →
      Refused s i m 2 st) ∧
    (∀ id r g, s.recordOf m = .ok (id, r) → s.grid? id = some g →
      (actionOf m = 0 → r.evt.ftype = 5 → Refused s (.release m) m 2 .denied) ∧
      (actionOf m = 0 → r.evt.ftype ≠ 5 → ∃ t, exec (.release m) s = .next t ∧ Answered s t m 2 .ok 0 ∧
        t.grid? id = some (g.modRecord r.seq fun x => { x with released := true })) ∧
      (actionOf m = 1 → ∃ t g', exec (.unresolvable m) s = .next t ∧ Answered s t m 2 .ok 0 ∧ t.grid? id = some g' ∧
        (g.st = .live → g.turn r.seq = true → s.canReport = true → g'.st = .terminated ∧ ∃ e, e ∈ t.hevents ∧
          e.cause = Cause.termFault.code ∧ e.grid = BitVec.ofNat 32 id ∧ e.d0 = w64 r.seq) ∧
        (g.st ≠ .live ∨ g.turn r.seq = false ∨ s.canReport = false → g' = g.modRecord r.seq fun x => { x with unresolvable := true }))) ∧
    (actionOf m = 2 →
      (invalBad m = true → Refused s (.inval m) m 2 .badArg) ∧
      (invalBad m = false →
        let asid := if argN m 13 1 = 2 then none else some (argN m 8 2)
        let kept := fun (x : TlbEnt) => !(argN m 13 1 == 2 || (x.asid == argN m 8 2 && (argN m 13 1 == 1 ||
          (argN m 16 8 ≤ x.page * 16384 && x.page * 16384 < argN m 16 8 + argN m 24 8))))
        (s.translated asid = true → exec (.inval m) s = .next s) ∧
        (s.translated asid = false → ∃ t, exec (.inval m) s = .next t ∧ Answered s t m 2 .ok 0 ∧ t.tlb = s.tlb.filter kept ∧
          (∀ k, (t.core k).tlb = (s.core k).tlb.filter kept) ∧
          t.walkCache = s.walkCache.filter fun x => argN m 13 1 != 2 && x.asid != argN m 8 2))) ∧
    (actionOf m = 3 →
      let ill := argN m 8 4 ≠ 0 ∨ argN m 13 3 ≠ 0 ∨ argN m 24 8 ≠ 0 ∨ argN m 16 8 % 4096 ≠ 0
      let live := ∃ g, g ∈ s.grids ∧ g.2.st = .live
      (ill → Refused s (.asidtab m) m 2 .badArg) ∧ (¬ ill → live → Refused s (.asidtab m) m 2 .busy) ∧
      (¬ ill → ¬ live → s.translated none = true → exec (.asidtab m) s = .next s) ∧
      (¬ ill → ¬ live → s.translated none = false → ∃ t, exec (.asidtab m) s = .next t ∧ Answered s t m 2 .ok 0 ∧
        t.asidBase = argN m 16 8 ∧ t.tlb = [] ∧ (∀ k, (t.core k).tlb = []) ∧ t.walkCache = []))) ∧
  (∀ (s : State) (m : Msg), s.commandReady m 0x40 6 = true →
    let port := argN m 10 1
    (3 < port ∨ argN m 11 1 ≠ 0 ∨ argN m 14 18 ≠ 0 → Refused s (.peerbind m) m 6 .badArg) ∧
    (port ≤ 3 → argN m 11 1 = 0 → argN m 14 18 = 0 →
      (s.mg.peerMask / 2 ^ port % 2 = 0 → Refused s (.peerbind m) m 6 .noObject) ∧
      (s.mg.peerMask / 2 ^ port % 2 = 1 → ∃ t, exec (.peerbind m) s = .next t ∧
        ((Answered s t m 6 .denied 0 ∧ t.peers = s.peers) ∨
          (Answered s t m 6 .ok 0 ∧ t.peers = s.peers.filter (fun x => !(x.1 == port && x.2.1 == argN m 8 2)) ++
            [(port, argN m 8 2, argN m 12 2)])))))

/-- R427, R428, R458, R459, R466, R474, R475: the trust core's commands: `FWSTAGE` starts the write of an image that
passes every check, which ends in the other copy; `FWACTIVATE` exchanges the copies of a staged target; `FWFUSE` raises a
minimum up to the running image's version; `ATTEST` writes a report. Core 0 gives each command to its owner, in order;
what has no owner is answered `BAD_ARG`; a message of another core joins its receiver's FIFO; a full FIFO makes the sender wait. R9,
R11, R466: the management registers take what is written to them where it is in range, their reserved bits are ignored, and a write of
`MG_RSP_POP` discards the oldest response. The model's own readings: log 55, 60, 65, 81. -/
def Obligations.TrustAndManagement : Prop :=
  (∀ (s : State) (m : Msg), s.commandReady m 0x50 6 = true →
    let a := argN m 8 8
    let bs := s.peek a (384 + field (s.peek a 384) 12 4 % (2 ^ 24 + 1))
    let good := a + bs.length ≤ s.osLimit ∧ field bs 6 1 ≤ 8 ∧ s.trust.accepts (field bs 6 1) bs = true
    (a % 16 ≠ 0 ∨ argN m 16 16 ≠ 0 → Refused s (.fwstage m) m 6 .badArg) ∧
    (a % 16 = 0 → argN m 16 16 = 0 →
      (s.trust.staging ≠ none → Refused s (.fwstage m) m 6 .busy) ∧
      (s.trust.staging = none → ¬ good → Refused s (.fwstage m) m 6 .denied) ∧
      (s.trust.staging = none → good → ∃ t, exec (.fwstage m) s = .next t ∧ Answered s t m 6 .ok 0 ∧
        t.trust = { s.trust with staging := some (field bs 6 1, bs) } ∧ t.mem = s.mem))) ∧
  (∀ (s : State) (k : Nat) (bs : List Byte), s.trust.staging = some (k, bs) →
    ∃ t, exec .stageWriteComplete s = .next t ∧ t = { s with trust := t.trust } ∧ t.trust.staging = none ∧
      tget t.trust.flashB k = some bs ∧ t.trust.flashA = s.trust.flashA ∧ k ∈ t.trust.staged ∧
      ∀ j, j ≠ k → tget t.trust.flashB j = tget s.trust.flashB j) ∧
  (∀ (s : State) (m : Msg), s.commandReady m 0x51 6 = true →
    let k := argN m 8 1
    (argN m 9 23 ≠ 0 → Refused s (.fwactivate m) m 6 .badArg) ∧
    (argN m 9 23 = 0 → k ∉ s.trust.staged → Refused s (.fwactivate m) m 6 .noObject) ∧
    (argN m 9 23 = 0 → k ∈ s.trust.staged → ∃ t, exec (.fwactivate m) s = .next t ∧ Answered s t m 6 .ok 0 ∧
      tget t.trust.flashA k = tget s.trust.flashB k ∧ tget t.trust.flashB k = tget s.trust.flashA k ∧ k ∉ t.trust.staged ∧
      t.trust.running = s.trust.running ∧
      ∀ j, j ≠ k → tget t.trust.flashA j = tget s.trust.flashA j ∧ tget t.trust.flashB j = tget s.trust.flashB j)) ∧
  (∀ (s : State) (m : Msg), s.commandReady m 0x52 6 = true →
    let k := argN m 8 1
    let v := argN m 12 4
    let active := ((tget s.trust.running k).map (·.secVersion)).getD 0
    let fused := (tget s.trust.fused k).getD 0
    let ill := argN m 9 3 ≠ 0 ∨ argN m 16 16 ≠ 0 ∨ 8 < k
    (ill → Refused s (.fwfuse m) m 6 .badArg) ∧ (¬ ill → active < v ∨ v < fused → Refused s (.fwfuse m) m 6 .denied) ∧
    (¬ ill → v ≤ active → fused ≤ v → ∃ t, exec (.fwfuse m) s = .next t ∧ Answered s t m 6 .ok 0 ∧
      ∀ j, tget t.trust.fused j = if j = k then some v else tget s.trust.fused j)) ∧
  (∀ (s : State) (m : Msg), s.commandReady m 0x53 6 = true →
    let a := argN m 8 8
    (a % 16 ≠ 0 → Refused s (.attest m) m 6 .badArg) ∧
    (a % 16 = 0 → Quiet s → (∀ k im, tget s.trust.running k = some im → im.digest.length = 48) → ∃ t sig, exec (.attest m) s = .next t ∧ Answered s t m 6 .ok 0 ∧ sig.length = 96 ∧
      t.peek a 720 = s.reportBytes (argN m 16 16) ++ sig ∧ (∀ x, x < a ∨ a + 720 ≤ x → t.byte x = s.byte x) ∧
      field (t.peek a 720) 0 4 = 0x54414B39 ∧ field (t.peek a 720) 8 16 = argN m 16 16 ∧
      field (t.peek a 720) 24 8 = s.mg.status % 2 ^ 64)) ∧
  (∀ (s : State) (m : Msg) (rest : List Msg), s.cmdQ = m :: rest →
    (unassigned m = true → s.rspQ.length < 64 → ∃ t, exec (.summitMailboxMessage m) s = .next t ∧ t.cmdQ = rest ∧
      Answered s t m 0 .badArg 0) ∧
    ∀ k, unassigned m = false → owner m.opc.toNat = some k →
      (k = 0 → exec (.summitMailboxMessage m) s = .next s) ∧
      (k ≠ 0 → (s.fifo k).length < 32 → ∃ t, exec (.summitMailboxMessage m) s = .next t ∧ t.cmdQ = rest ∧
        t.fifo k = s.fifo k ++ [{ m with src := 8, dst := BitVec.ofNat 8 k }] ∧ ∀ j, j ≠ k → t.fifo j = s.fifo j) ∧
      (k ≠ 0 → 32 ≤ (s.fifo k).length → exec (.summitMailboxMessage m) s = .next s)) ∧
  (∀ (s : State) (m : Msg), s.cmdQ.head? ≠ some m →
    let k := m.dst.toNat
    (m.src ≠ 8 → k < 8 → (s.fifo k).length < 32 → ∃ t, exec (.summitMailboxMessage m) s = .next t ∧ t.cmdQ = s.cmdQ ∧
      t.fifo k = s.fifo k ++ [m] ∧ ∀ j, j ≠ k → t.fifo j = s.fifo j) ∧
    (m.src = 8 ∨ 8 ≤ k ∨ 32 ≤ (s.fifo k).length → exec (.summitMailboxMessage m) s = .next s)) ∧
  (∀ (s : State) (off : Nat) (v : W64), s.errHeld = [] →
    let bits : W64 := v &&& 0x000FFFFFFFFFF00F
    ∃ t, exec (.managementRegisterWrite off v) s = .next t ∧
      t = { s with mg := { s.mg with int_ := t.mg.int_, intEn := t.mg.intEn, errRing := t.mg.errRing, errRd := t.mg.errRd,
                                     telRing := t.mg.telRing, telRd := t.mg.telRd, pwrLimit := t.mg.pwrLimit,
                                     errThresh := t.mg.errThresh, cmd := t.mg.cmd }
                   cmdQ := t.cmdQ, rspQ := t.rspQ } ∧
      t.mg.int_ = (if off = 0x20 then s.mg.int_ &&& ~~~(v.setWidth 6 &&& 0x3E)
        else if off = 0x120 ∧ 64 ≤ s.cmdQ.length then s.mg.int_ ||| 0x20 else s.mg.int_) ∧
      t.mg.intEn = (if off = 0x28 then v &&& 0x3F else s.mg.intEn) ∧
      t.mg.errRing = (if off = 0x30 ∧ ringOk v = true then bits else s.mg.errRing) ∧
      t.mg.errRd = (if off = 0x38 then v.extractLsb' 32 32 else s.mg.errRd) ∧
      t.mg.telRing = (if off = 0x40 ∧ ringOk v = true then bits else s.mg.telRing) ∧
      t.mg.telRd = (if off = 0x48 then v.extractLsb' 32 32 else s.mg.telRd) ∧
      t.mg.pwrLimit = (if off = 0x50 ∧ 700 ≤ v.toNat ∧ v.toNat ≤ 1400 then v.toNat else s.mg.pwrLimit) ∧
      t.mg.errThresh = (if off = 0x58 ∧ 1 ≤ v.toNat ∧ v.toNat ≤ 255 then v.toNat else s.mg.errThresh) ∧
      t.cmdQ = (if off = 0x120 ∧ s.cmdQ.length < 64 then s.cmdQ ++ [msgOf s.mg.cmd] else s.cmdQ) ∧
      t.rspQ = (if off = 0x160 then s.rspQ.tail else s.rspQ) ∧
      ∀ k i, k < 4 → i < 64 → t.mg.cmd.getLsbD (64 * k + i) =
        if off = 0x100 + 8 * k then v.getLsbD i else s.mg.cmd.getLsbD (64 * k + i)) ∧
  (∀ s : State, exec .mgRspPop s = .next { s with rspQ := s.rspQ.tail })

namespace Sys2Proof.Claims

/-- R471: with the error ring disabled and the store of records not full, a record is held, and nothing else differs but the
counts of errors. -/
def RecordHeld (s t : State) (e : ErrRec) : Prop :=
  t = { s with errHeld := s.errHeld ++ [e], errWin := t.errWin, corrTotal := t.corrTotal }

/-- R467: the module has stopped with a reason. -/
def Halted (t : State) (why : Nat) : Prop := t.mg.stage = 0xFF ∧ t.mg.halt = why

/-- R461: nothing runs, waits or is registered: what a reset leaves of the machine's work. -/
def Cleared (t : State) : Prop :=
  t.grids = [] ∧ t.teams = [] ∧ t.warps = [] ∧ t.queues = [] ∧ t.hevents = [] ∧ t.ops = [] ∧ t.traces = [] ∧ t.cmdQ = [] ∧
    t.rspQ = [] ∧ t.tlb = [] ∧ t.peers = [] ∧ t.links = [] ∧ t.cur = none

end Sys2Proof.Claims

/-! ## Errors, telemetry, power and outside agents -/

/-- R348, R430, R431, R455 to R457, R460, R468 to R471: a failed scheduling reload halts the module and ends every grid; one that
verifies loses no grid but those whose entries failed, and reads each live queue's descriptor again. A failed link leaves service, and
without a relay so does a socket; each request that had left over it has been delivered, or comes back with its fault; a failed
attachment takes its die out of service. A failed port suspends its copies. A corrected error is counted and recorded, and at the
threshold its unit leaves service; an uncorrectable one takes a core out of service, or a core or a hall whose only copy of a word was
lost, or makes the next access to its line fault. A filter violation is recorded. The model's own readings: log 37, 57, 58, 64, 66, 68.
-/
def Obligations.Errors : Prop :=
  (∀ (s : State) (imem verifies : Bool) (bad : List Nat),
    (verifies = false ∨ s.trust.boot 1 = none → ∃ t, exec (.schedulerStateLoss imem bad verifies) s = .next t ∧ Halted t 3 ∧
      ∀ k g, t.grid? k = some g → g.st ≠ .live) ∧
    (verifies = true → s.trust.boot 1 ≠ none → ∃ t, exec (.schedulerStateLoss imem bad verifies) s = .next t ∧ t.mg = s.mg ∧
      (imem = true → Quiet s → t.grids = s.grids ∧ t.teams = s.teams ∧ t.warps = s.warps ∧ t.mem = s.mem ∧
        ∀ id q, s.queue? id = some q → ∃ q', t.queue? id = some q' ∧
          let bs := s.peek q.desc 64
          (q.st ≠ .destroyed → field bs 40 1 ≤ 1 → q'.asid = field bs 36 2 ∧ q'.prioMax = field bs 41 1 ∧
            ∀ h, s.handlerAt (field bs 8 8) (field bs 36 2) = some h → q'.handlerQ = h) ∧
          (∀ k g, (k, g) ∈ s.grids → g.st = .live → g.depth = 0 → g.qid = id → k ∈ q.grids → k ∈ q'.grids) ∧
          q' = { q with asid := q'.asid, prioMax := q'.prioMax, handlerQ := q'.handlerQ, grids := q'.grids }) ∧
      (imem = false → ∀ k g, k ∈ bad → t.grid? k = some g → g.st ≠ .live))) ∧
  (∀ (s : State) (a b : Nat),
    let key := (min a b, max a b)
    (a = b → a = 0 ∨ 12 < a → exec (.linkFailure a b) s = .next s) ∧
    (a = b → 1 ≤ a → a ≤ 12 → ∃ t, exec (.linkFailure a b) s = .next t ∧ (a, 7, 0) ∈ t.outOfService ∧
      ((a, 7, 0) ∉ s.outOfService → (a ≤ 6 → (t.die a).inService = false) ∧
        (7 ≤ a → t.memUp a = false ∧ (a, 4, 0) ∈ t.outOfService))) ∧
    (a ≠ b → 12 < a ∨ 12 < b ∨ key ∈ s.links → exec (.linkFailure a b) s = .next s) ∧
    (a ≠ b → a ≤ 12 → b ≤ 12 → key ∉ s.links → ∃ t, exec (.linkFailure a b) s = .next t ∧ t.links = s.links ++ [key] ∧
      (({ s with links := s.links ++ [key] } : State).relay a b ≠ none → t.outOfService = s.outOfService ∧
        (Quiet s → s.ops = [] → ∀ x, x ∈ s.onLink a b ++ s.onLink b a → ∃ r, r ∈ (t.core x.1).inflight ∧ r.id = x.2.id ∧
          (r.arrived = true ∨ (r.returned = true ∧
            ∃ k g e, t.grid? k = some g ∧ e ∈ g.faults ∧ e.who = .req x.1 x.2.id)))) ∧
      (({ s with links := s.links ++ [key] } : State).relay a b = none →
        ((if a = 0 then b else if b = 0 then a else max a b), 7, 0) ∈ t.outOfService))) ∧
  (∀ (s : State) (port : Nat),
    (s.mg.peerMask / 2 ^ port % 2 = 0 → exec (.exwardLinkFailure port) s = .next s) ∧
    (s.mg.peerMask / 2 ^ port % 2 = 1 → ∃ t, exec (.exwardLinkFailure port) s = .next t ∧
      t.mg = { s.mg with peerMask := s.mg.peerMask &&& (15 ^^^ 2 ^ port) } ∧ t.mem = s.mem ∧
      ∀ o a d n, s.ops = [o] → o.kind = .peerCopy a d n port → o.done < n → (s.ctxOf o.wid o.lanes).isSome = true →
        t.ops = [{ o with suspended := true }])) ∧
  (∀ (s : State) (u : ErrUnit) (addr : Nat),
    (ErrUnit.valid u = false → exec (.correctedError u addr) s = .next s ∧ exec (.uncorrectableError u addr) s = .next s) ∧
    (ErrUnit.valid u = true →
      let n := (s.countErr u).1
      (∃ t, exec (.correctedError u addr) s = .next t ∧ t.corrTotal = s.corrTotal + 1 ∧
        (n < s.mg.errThresh → s.mg.errRing = 0 → s.errHeld.length < 4096 → RecordHeld s t (s.errOf u 0 n addr)) ∧
        (s.mg.errThresh ≤ n → u.code ≤ 4 → (u.socket, u.code, u.unit) ∈ t.outOfService) ∧
        (s.mg.errThresh ≤ n → u.code = 2 → s.isOut u = false → (t.hall u.socket u.unit).inService = false) ∧
        (s.mg.errThresh ≤ n → u.code = 3 → s.isOut u = false → (u.socket - 7) * 16 + u.unit ∉ t.slices) ∧
        (s.mg.errThresh ≤ n → u.code = 4 → s.isOut u = false → t.memUp u.socket = false)) ∧
      (u.code = 0 → s.isOut u = false → ∃ t, exec (.uncorrectableError u addr) s = .next t ∧
        (u.socket, u.code, u.unit) ∈ t.outOfService ∧ (t.core (u.socket * 32 + u.unit)).inService = false) ∧
      (u.code = 1 → ∃ t, exec (.uncorrectableError u addr) s = .next t ∧
        ((s.core (u.socket * 32 + u.unit)).isUpd (addr / 128) = true → (u.socket, 1, u.unit) ∈ t.outOfService) ∧
        ((s.core (u.socket * 32 + u.unit)).isUpd (addr / 128) = false → t.outOfService = s.outOfService ∧ t.grids = s.grids)) ∧
      (u.code = 2 → ∃ t, exec (.uncorrectableError u addr) s = .next t ∧
        let h := s.hall u.socket u.unit
        let live := ∃ k g, h.grid = some k ∧ s.grid? k = some g ∧ g.st = .live
        (h.holder = none → h.carved = [] → ¬ live → t.outOfService = s.outOfService ∧ t.grids = s.grids) ∧
        (h.holder ≠ none ∨ h.carved ≠ [] ∨ live → (u.socket, 2, u.unit) ∈ t.outOfService)) ∧
      (u.code = 3 ∨ u.code = 4 → ∃ t, exec (.uncorrectableError u addr) s = .next t ∧ addr / 128 ∈ t.poison ∧
        t.corrTotal = s.corrTotal + 1))) ∧
  (∀ (s : State) (socket unit addr : Nat), s.mg.errRing = 0 → s.errHeld.length < 4096 →
    ∃ t, exec (.filterViolation socket unit addr) s = .next t ∧ RecordHeld s t (s.errOf ⟨socket, 0xFF, unit⟩ 4 0 addr))

/-- R195, R413, R433, R441, R460, R464 to R466, R472, R473: a telemetry record is written, or lost where the ring is full; the
power core moves the clock by 100 MHz within its bounds; writes of devices, of peers and of application cores are
performed, their reads return what is there, and what the filters block is recorded; the fault interrupt lasts while a slot of a fault
queue is taken. The telemetry core writes nothing while it is held (R461). The model's own readings: log 12, 13, 56, 59, 84. -/
def Obligations.TelemetryPowerAndAgents : Prop :=
  (∀ (s : State) (x : Sensors),
    let slot := ringSlot s.mg.telRing s.mg.telWr 64
    (ringFree s.mg.telRing s.mg.telWr s.mg.telRd = false ∨ 7 ∈ s.trust.held → exec (.telemetryRecord x) s = .next s) ∧
    (ringFree s.mg.telRing s.mg.telWr s.mg.telRd = true → 7 ∉ s.trust.held → Quiet s → ∃ t, exec (.telemetryRecord x) s = .next t ∧
      t.mg = { s.mg with telWr := s.mg.telWr + 1, int_ := s.mg.int_ ||| 8 } ∧ t.peek slot 64 = s.telemetry x ∧
      ∀ a, a < slot ∨ slot + 64 ≤ a → t.byte a = s.byte a)) ∧
  (∀ (s : State) (x : Sensors),
    let p := s.mg.pwrLimit < x.power
    let h := 95 < Sensors.tmax x
    let low := 100 * x.power ≤ 95 * s.mg.pwrLimit ∧ Sensors.tmax x ≤ 92
    ∃ t, exec (.powerControlTick x) s = .next t ∧ t = { s with power := t.power, mg := t.mg, fresh := t.fresh } ∧
      (p ∨ h → t.power.clkMhz = max 1200 (s.power.clkMhz - 100)) ∧
      (¬ p → ¬ h → low → t.power.clkMhz = min 2900 (s.power.clkMhz + 100)) ∧
      (¬ p → ¬ h → ¬ low → t.power.clkMhz = s.power.clkMhz) ∧
      (¬ p → ¬ h → t.power.tstate = 0) ∧ (p → ¬ h → t.power.tstate = 1) ∧ (¬ p → h → t.power.tstate = 2) ∧
      (p → h → t.power.tstate = 1 ∨ t.power.tstate = 2) ∧
      t.mg = { s.mg with int_ := s.mg.int_ ||| (if t.power.tstate = s.power.tstate then 0 else 0x10) }) ∧
  (∀ (s : State) (port addr : Nat) (relaxed : Bool) (bytes : List Byte), Quiet s →
    (addr + bytes.length ≤ s.osLimit → ∃ t, exec (.pcieWrite port relaxed addr bytes) s = .next t ∧
      t.faultInt = (s.faultInt && t.faultSlotsFull) ∧
      ∀ a, t.byte a = if addr ≤ a ∧ a < addr + bytes.length then bytes.getD (a - addr) 0 else s.byte a) ∧
    (s.osLimit < addr + bytes.length → s.mg.errRing = 0 → s.errHeld.length < 4096 →
      ∃ t, exec (.pcieWrite port relaxed addr bytes) s = .next t ∧ RecordHeld s t (s.errOf ⟨0, 0xFF, 8⟩ 4 0 addr)) ∧
    ∀ n, (addr + n ≤ s.osLimit → ∃ t, exec (.pcieDeviceRead port addr n) s = .next t ∧ t.hostRead = s.peek addr n ∧
        t.mem = s.mem) ∧
      (s.osLimit < addr + n → s.mg.errRing = 0 → s.errHeld.length < 4096 →
        ∃ t, exec (.pcieDeviceRead port addr n) s = .next t ∧ RecordHeld s t (s.errOf ⟨0, 0xFF, 8⟩ 4 0 addr))) ∧
  (∀ (s : State) (port asid va : Nat) (bytes : List Byte),
    ((∀ r, (port, asid, r) ∉ s.peers) → exec (.exwardPeerWrite port asid va bytes) s = .next s) ∧
    ((∃ r, (port, asid, r) ∈ s.peers) → ∃ t, exec (.exwardPeerWrite port asid va bytes) s = .next t ∧
      t = s.vwrite asid va bytes ∧
      ∀ b a, Quiet s → bytes = [b] → s.vloc none asid va .write = .ok ⟨.mem, a⟩ →
        ∀ x, t.byte x = if x = a then b else s.byte x)) ∧
  (∀ (s : State) (addr : Nat) (bytes : List Byte), Quiet s →
    let acc := fun w => Instr.applicationCoreAccess w addr bytes
    let n := bytes.length
    let off := addr % 2 ^ 48
    (∀ q, s.doorbellAt addr = some (q, 0) → ∃ t, exec (acc true) s = .next t ∧
      t.inputs = s.inputs ++ [.doorbellWrite q (BitVec.ofNat 32 (leNat bytes))] ∧ t.mem = s.mem) ∧
    (∀ q k, s.doorbellAt addr = some (q, k) → k ≠ 0 → exec (acc true) s = .next s ∧
      exec (acc false) s = .next { s with hostRead := natBytes n 0 }) ∧
    (s.doorbellAt addr = none → ∀ w,
      (s.cpuMay w addr n = false → s.mg.errRing = 0 → s.errHeld.length < 4096 →
        ∃ t, exec (acc w) s = .next t ∧ RecordHeld s t (s.errOf ⟨0, 0xFF, 8⟩ 4 0 addr)) ∧
      (s.cpuMay w addr n = true →
        (addr < 2 ^ 48 → w = true → ∃ t, exec (acc w) s = .next t ∧ t.faultInt = (s.faultInt && t.faultSlotsFull) ∧
          ∀ a, t.byte a = if addr ≤ a ∧ a < addr + n then bytes.getD (a - addr) 0 else s.byte a) ∧
        (addr < 2 ^ 48 → w = false → ∃ t, exec (acc w) s = .next t ∧ t.hostRead = s.peek addr n ∧ t.mem = s.mem) ∧
        (addr / 2 ^ 48 = 1 → w = false → exec (acc w) s =
          .next { s with hostRead := natBytes n (if n = 8 ∧ off % 8 = 0 then s.mgRead off else 0) }) ∧
        (addr / 2 ^ 48 = 1 → w = true → n = 8 → off % 8 = 0 →
          exec (acc w) s = exec (.managementRegisterWrite off (w64 (leNat bytes))) s) ∧
        (addr / 2 ^ 48 = 1 → w = true → n ≠ 8 ∨ off % 8 ≠ 0 → exec (acc w) s = .next s) ∧
        (2 ≤ addr / 2 ^ 48 → w = true → exec (acc w) s = .next { s with pcieOut := s.pcieOut ++ [(off, bytes)] }))))

/-! ## Boot -/

/-- R461 to R464, R467, R473, R474: a reset clears the machine, keeps the flash, and starts the images that verify, or
halts with the stage 0xFF that the model shows for a halt; a die that trains in its time enters service, and one that has not
leaves it; base service begins with the memory dies of step 5 and one compute die, socket 1 or the lowest in its place, and full
service once every memory die has trained or gone; at 110 °C every core halts; a loss of power ends a stage in progress and
leaves the active copies. The model's own readings: log 56, 61, 62. -/
def Obligations.Boot : Prop :=
  (∀ s : State, ∃ t, exec .moduleReset s = .next t ∧ Cleared t ∧ t.trust.flashA = s.trust.flashA ∧
    t.trust.flashB = s.trust.flashB ∧ t.trust.fused = s.trust.fused ∧
    (s.trust.boot 6 = none → Halted t 1) ∧
    (∀ im, s.trust.boot 6 = some im → tget t.trust.running 6 = some im ∧ t.trust.locked = true ∧
      ((∀ k, k ∈ [0, 1, 2, 3, 5] → s.trust.boot k ≠ none) → t.mg = { Mg.reset with stage := 5 } ∧
        ∀ k, k < 8 → tget t.trust.running k = s.trust.boot k) ∧
      ((∃ k, k ∈ [0, 1, 2, 3, 5] ∧ s.trust.boot k = none) → Halted t 2))) ∧
  (∀ (s : State) (socket : Nat), socket ∈ sockets → s.mayTrain socket = true → s.inTime socket = true →
    (s.die socket).inService = false →
    let both := s.memUp 7 = true ∧ s.memUp 8 = true ∧ s.dieGone 7 = false
    let begun := fun (t : State) => t.mg.stage = 7 ∧ t.memTrained = [7, 8] ∧ t.slices = s.slicesOf [7, 8]
    let entered := fun (t : State) => t.die socket = { s.die socket with trained := true, inService := true } ∧
      t.mg.cdMask = s.mg.cdMask ||| 2 ^ (socket - 1) ∧ t.grids = s.grids ∧ t.mem = s.mem
    (s.mg.stage = 7 ∨ socket = 1 → ∃ t, exec (.computeDieTrained socket) s = .next t ∧ entered t ∧
      (s.mg.stage = 7 → t.mg.stage = 7) ∧ (s.mg.stage = 5 → both → begun t)) ∧
    (s.mg.stage = 5 → socket ≠ 1 →
      ((s.die 1).inService = false → s.dieGone 1 = false → s.dieGone 7 = false → exec (.computeDieTrained socket) s =
        .next (s.modDie socket fun d => { d with trained := true })) ∧
      ((s.die 1).inService = false → s.dieGone 1 = true → (∀ d, d < socket → (s.die d).trained = false) → both →
        ∃ t, exec (.computeDieTrained socket) s = .next t ∧ entered t ∧ begun t))) ∧
  (∀ (s : State) (socket : Nat), s.inTime socket = false → exec (.computeDieTrained socket) s = .next s ∧
    exec (.memoryDieTrained socket) s = .next s) ∧
  (∀ (s : State) (socket : Nat), 7 ≤ socket → socket ≤ 12 → s.mayTrain socket = true → s.inTime socket = true →
    s.memUp socket = false →
    ∃ t, exec (.memoryDieTrained socket) s = .next t ∧ t.memUp socket = true ∧ t.grids = s.grids ∧ t.mem = s.mem ∧
      t.mg.mdMask = s.mg.mdMask ||| 2 ^ (socket - 7) ∧ (s.mg.stage = 7 → t.mg.stage = 7 ∧ t.memTrained = s.memTrained) ∧
      (s.mg.stage = 5 → (s.die 1).inService = true → s.dieGone 1 = false → (socket = 7 ∧ s.memUp 8 = true) ∨ (socket = 8 ∧ s.memUp 7 = true) →
        t.mg.stage = 7 ∧ t.memTrained = [7, 8] ∧ t.slices = s.slicesOf [7, 8])) ∧
  (∀ (s : State) (socket : Nat), 1 ≤ socket → socket ≤ 12 →
    (if socket ≤ 6 then (s.die socket).trained else s.memUp socket) = false →
    (s.ns < s.resetNs + trainLimit socket → exec (.trainingTimeout socket) s = .next s) ∧
    (s.mayTrain socket = true → s.resetNs + trainLimit socket ≤ s.ns →
      ∃ t, exec (.trainingTimeout socket) s = .next t ∧ t.outOfService = s.outOfService ++ [(socket, 7, 0)] ∧
        (s.mg.stage = 5 → socket = 1 → s.computeUp = false → Halted t 5))) ∧
  (∀ s : State, s.mg.stage = 7 → s.mg.full = false → (∀ d, 7 ≤ d → d ≤ 12 → s.memUp d = true ∨ s.dieGone d = true) →
    ∃ t, exec .fullServiceTransition s = .next t ∧
      t = { s with mg := { s.mg with full := true }, memTrained := t.memTrained, slices := t.slices } ∧
      (∀ d, d ∈ t.memTrained ↔ 7 ≤ d ∧ d ≤ 12 ∧ (s.memUp d = true ∨ d ∈ s.memTrained)) ∧
      ∀ d u, 7 ≤ d → u < 16 → ((d - 7) * 16 + u ∈ t.slices ↔ d ∈ t.memTrained ∧ (d, 3, u) ∉ s.outOfService)) ∧
  (∀ (s : State) (d : Nat), 7 ≤ d → d ≤ 12 → s.memUp d = false → s.dieGone d = false →
    exec .fullServiceTransition s = .next s) ∧
  (∀ (s : State) (port : Nat) (report : List Byte), port < 4 → s.mg.stage = 7 →
    (s.reportOk report = false → exec (.exwardPortTrained port report) s = .next s) ∧
    (s.reportOk report = true → ∃ t, exec (.exwardPortTrained port report) s = .next t ∧
      t = { s with mg := { s.mg with peerMask := s.mg.peerMask ||| 2 ^ port } })) ∧
  (∀ (s : State) (socket : Nat), ∃ t, exec (.thermalShutdown socket) s = .next t ∧ Halted t 4 ∧
    ∀ wid w, t.groupsOk wid w = []) ∧
  (∀ s : State, ∃ t, exec .powerLoss s = .next t ∧ Cleared t ∧ t.mem = [] ∧ t.mg = Mg.reset ∧ t.trust.staging = none ∧
    t.trust.flashA = s.trust.flashA ∧
    (s.trust.staging = none → t.trust.flashB = s.trust.flashB ∧ t.trust.staged = s.trust.staged) ∧
    ∀ k bs, s.trust.staging = some (k, bs) → k ∉ t.trust.staged ∧ (tget t.trust.flashB k).map List.length = some bs.length ∧
      ∀ j, j ≠ k → tget t.trust.flashB j = tget s.trust.flashB j)

namespace Sys2Proof.Claims

/-- R31: the encoding of a source field that is not used: class 2, index 0x10. -/
def blank : BitVec 12 := 2#3 ++ 0x010#9

end Sys2Proof.Claims

/-! ## Encoding, steps and invariants -/

/-- R46, R47, R51 to R68: words written out field by field from the tables of the encoding are read as the instructions
they stand for: `OP`, `SUB`, `MOD`, destination, three sources, guard, hints and bits 19:0; a paired word; and four words
that fail a check, each with its cause. -/
def Obligations.DecodedWords : Prop :=
  decode (0x00#7 ++ 0#5 ++ 0#5 ++ 0#11 ++ blank ++ blank ++ blank ++ 7#4 ++ 0#8 ++ 0#20) = .ok (.nop ⟨0, false, 0, false⟩) ∧
  decode (0x01#7 ++ 1#5 ++ 1#5 ++ (0#3 ++ 5#8) ++ (0#3 ++ 0x101#9) ++ (1#3 ++ 2#9) ++ blank ++ 0#4 ++ 0#8 ++ 0#20) =
    .ok (.iadd ⟨⟨false, 0⟩, ⟨0, false, 0, false⟩, .vec 5, .vec true 1, .uni 2, .zero⟩ 0 .n32 true) ∧
  decode (0x1A#7 ++ 0#5 ++ 3#5 ++ (0#3 ++ 9#8) ++ (2#3 ++ 1#9) ++ (3#3 ++ 0x0B#9) ++ (4#3 ++ 1#9) ++ 0xF#4 ++ 0#8 ++ 0#20) =
    .error .operand ∧
  decode (0x1A#7 ++ 0#5 ++ 3#5 ++ (0#3 ++ 9#8) ++ (2#3 ++ 1#9) ++ (3#3 ++ 0x0B#9) ++ (4#3 ++ 1#9) ++ 9#4 ++ 0xA4#8 ++ 0x12345#20) =
    .ok (.ffma ⟨⟨true, 1⟩, ⟨5, false, 2, false⟩, .vec 9, .win false 0, .stair 1 3, .imm 1⟩ 0x12345 .f32 .rup false) ∧
  decode (0x39#7 ++ 0#5 ++ 0#5 ++ 0#11 ++ blank ++ blank ++ blank ++ 3#4 ++ 0#8 ++ 0xFFFFE#20) =
    .ok (.bra ⟨⟨false, 3⟩, ⟨0, false, 0, false⟩, .vec 0, .zero, .zero, .zero⟩ 0xFFFFE) ∧
  decode (0x50#7 ++ (4#3 ++ 0#2) ++ (1#2 ++ 3#3) ++ (0#3 ++ 4#8) ++ (0#3 ++ 6#9) ++ blank ++ blank ++ 7#4 ++ 0#8 ++ 0x00010#20) =
    .ok (.ld ⟨.always, ⟨0, false, 0, false⟩, .vec 4, .vec false 6, .zero, .zero⟩ .w32 .glb .acq .dev 0x10) ∧
  decode (0x59#7 ++ (0#3 ++ 2#2) ++ (0#2 ++ 4#3) ++ (0#3 ++ 4#8) ++ (0#3 ++ 6#9) ++ (0#3 ++ 8#9) ++ blank ++ 7#4 ++ 0#8 ++ 0#20) =
    .ok (.atom ⟨.always, ⟨0, false, 0, false⟩, .vec 4, .vec false 6, .vec false 8, .zero⟩ .add .n64 .rlx .app 0) ∧
  decode (0x6E#7 ++ 4#5 ++ 2#5 ++ (3#3 ++ 7#8) ++ (0#3 ++ 6#9) ++ (1#3 ++ 0x51#9) ++ (1#3 ++ 9#9) ++ 7#4 ++ 0#8 ++
      (3#3 ++ 0x0F#8 ++ 0#9)) =
    .ok (.mma ⟨.always, ⟨0, false, 0, false⟩, .cls3 7, .vec false 6, .tile 1, .uni 9⟩ false true 2 3 0x0F) ∧
  decode (0x7F#7 ++ (4#6 ++ 1#1 ++ 0#1 ++ 0#1 ++ 3#7 ++ 1#8 ++ 0x82#8 ++ 0x95#8) ++
      (13#6 ++ 0#1 ++ 1#1 ++ 1#1 ++ 0#7 ++ 4#8 ++ 5#8 ++ 0x90#8) ++ 2#4 ++ 3#3 ++ 1#1 ++ 0#1) =
    .ok (.pairedWord ⟨false, 2⟩ ⟨3, true, false⟩ ⟨.ffmaF32, true, false, false, 3, .vec 1, .win 1, .const 5⟩
      ⟨.iaddS32, false, true, true, 0, .vec 4, .vec 5, .const 0⟩) ∧
  decode (0x28#7 ++ 0#5 ++ 0#5 ++ 0#11 ++ blank ++ blank ++ blank ++ 7#4 ++ 0#8 ++ 0#20) = .error .op ∧
  decode (0x01#7 ++ 6#5 ++ 0#5 ++ 0#11 ++ blank ++ blank ++ blank ++ 7#4 ++ 0#8 ++ 0#20) = .error .sub ∧
  decode (0x01#7 ++ 0#5 ++ 2#5 ++ 0#11 ++ blank ++ blank ++ blank ++ 7#4 ++ 0#8 ++ 0#20) = .error .mod

/-- R46 to R65: every well-formed instruction, with every value of its operands, has a word, and that word is read as it.
-/
def Obligations.DecodeOfEncode : Prop := ∀ i : Instr, i.wf = true → ∃ w, encode i = some w ∧ decode w = .ok i

/-- R46 to R67: an instruction that is read from a word is well formed, and its word is that word: no bit of a word that
decodes is ignored. -/
def Obligations.EncodeOfDecode : Prop := ∀ (w : IWord) (i : Instr), decode w = .ok i → i.wf = true ∧ encode i = some w

/-- R47 to R49, R66 to R68, R84: an issue acts for lanes of a warp on the word that its core's instruction cache holds at
their program counter; it executes the instruction which that word decodes to, or the non-instruction encoding where a
check fails. A step lets time pass, then takes the next input from outside, or one of the actions that are possible. The
model's own readings: log 3, 4, 27. -/
def Obligations.StepRunsDecodedInstruction : Prop :=
  (∀ (s : State) (x : Issue), x ∈ s.issuesNow →
    ∃ c, s.ctxOf x.wid x.lanes = some c ∧ s.fetch c.t.core c.t.gid c.pc.toNat = some x.word) ∧
  (∀ (s : State) (x : Issue) (c : Ctx), s.ctxOf x.wid x.lanes = some c →
    (∀ i, decode x.word = .ok i → Instr.contextOk i c.g.rec_ s.mg.full = true →
      s.act (.issue x) = exec i (s.withCur x)) ∧
    (∀ i, decode x.word = .ok i → Instr.contextOk i c.g.rec_ s.mg.full = false →
      s.act (.issue x) = exec (.nonInstructionEncoding x.word .operand) (s.withCur x)) ∧
    (∀ e, decode x.word = .error e → s.act (.issue x) = exec (.nonInstructionEncoding x.word e) (s.withCur x))) ∧
  (∀ s : State, s.now < s.tick.now ∧ s.ns ≤ s.tick.ns ∧
    s.tick = { s.watch with faultInt := s.faultInt && s.watch.faultSlotsFull, now := s.tick.now, ns := s.tick.ns,
                            fresh := s.tick.fresh }) ∧
  (∀ (s : State) (i : Instr) (rest : List Instr), s.inputs = i :: rest →
    step s = exec i { s.tick with inputs := rest, cur := none }) ∧
  (∀ s : State, s.inputs = [] →
    (∀ a, s.tick.actions = [a] → step s = s.tick.act a) ∧ (s.tick.actions = [] → step s = .next s.tick) ∧
    (s.tick.actions ≠ [] → ∃ a n, a ∈ s.tick.actions ∧ step s = ({ s.tick with fresh := n } : State).act a))

/-- R476 and the stops of every chapter are next states: no instruction, no event and no step of the machine ends in a
fault or a refusal of the model. -/
def Obligations.NeverStops : Prop := (∀ (i : Instr) (s : State), Safe (exec i s)) ∧ ∀ s : State, Safe (step s)

/-- R466, R467, R473: what the management registers show after a reset, before any die has trained; no grid, queue or
response is there; and memory is in its canonical form. The model's own readings: log 7, 10, 56. -/
def Obligations.ResetValues : Prop :=
  State.reset.MemInv ∧ State.reset.mg.status = 2 ^ 32 ∧ State.reset.mgRead 0x20 = 0 ∧ State.reset.mgRead 0x28 = 0 ∧
    State.reset.mgRead 0x50 = 1400 ∧ State.reset.mgRead 0x58 = 16 ∧ State.reset.mgRead 0x140 = 0 ∧
    State.reset.mgRead 0x168 = 0 ∧ State.reset.power.clkMhz = 2900 ∧ State.reset.grids = [] ∧ State.reset.queues = [] ∧
    State.reset.issuesNow = [] ∧ ∀ k, (State.reset.die k).inService = false

/-- log 7: the memory keeps its canonical form, rising addresses and no byte listed as 0, through every instruction, every
event and every step, from every state. The model's own readings: log 7. -/
def Obligations.MemoryStaysCanonical : Prop :=
  (∀ (i : Instr) (s t : State), s.MemInv → exec i s = .next t → t.MemInv) ∧
    ∀ s t : State, s.MemInv → step s = .next t → t.MemInv
end

