-- ==== Sys2Proof/Laws/Table.lean ====
section
/-! SUPPORT. Tables, cells and lane masks: what a read answers after a write, and the canonical forms. -/

namespace Sys2Proof.Machine

open Sys2Proof

variable {α : Type} {w : Nat}

/-! ## Reads after writes -/

@[simp] theorem tget_nil (k : Nat) : tget ([] : Tbl α) k = none := rfl

theorem tget_cons (j : Nat) (x : α) (r : Tbl α) (k : Nat) :
    tget ((j, x) :: r) k = if j = k then some x else tget r k := rfl

@[simp] theorem tget_tset_same (t : Tbl α) (k : Nat) (v : α) : tget (tset t k v) k = some v := by
  induction t with
  | nil => simp [tset, tget]
  | cons x r ih => obtain ⟨j, x⟩ := x; grind [tset, tget]

theorem tget_tset_ne (t : Tbl α) {k j : Nat} (v : α) (h : j ≠ k) : tget (tset t k v) j = tget t j := by
  induction t with
  | nil => grind [tset, tget]
  | cons x r ih => obtain ⟨i, x⟩ := x; grind [tset, tget]

theorem tget_tset (t : Tbl α) (k j : Nat) (v : α) : tget (tset t k v) j = if j = k then some v else tget t j := by
  by_cases h : j = k
  · subst h; simp
  · simp [h, tget_tset_ne t v h]

theorem tget_tmod (t : Tbl α) (k j : Nat) (f : α → α) :
    tget (tmod t k f) j = if j = k then (tget t k).map f else tget t j := by
  unfold tmod
  cases h : tget t k <;> by_cases e : j = k <;> simp [tget_tset, e, h]

@[simp] theorem tget_tmod_same (t : Tbl α) (k : Nat) (f : α → α) : tget (tmod t k f) k = (tget t k).map f := by
  simp [tget_tmod]

theorem tget_tmod_ne (t : Tbl α) {k j : Nat} (f : α → α) (h : j ≠ k) : tget (tmod t k f) j = tget t j := by
  simp [tget_tmod, h]

/-! ## The canonical order -/

/-- Every key of a table is at least `n`. -/
def above (t : Tbl α) (n : Nat) : Prop := ∀ x ∈ t, n ≤ x.1

theorem tsorted_cons (j : Nat) (x : α) (r : Tbl α) :
    tsorted ((j, x) :: r) = true ↔ above r (j + 1) ∧ tsorted r = true := by
  induction r generalizing j x with
  | nil => simp [tsorted, above]
  | cons y r ih =>
    obtain ⟨k, y⟩ := y
    simp only [tsorted, Bool.and_eq_true, decide_eq_true_eq]
    constructor
    · rintro ⟨h, hs⟩
      refine ⟨?_, hs⟩
      have := (ih k y).1 hs
      intro z hz
      rcases List.mem_cons.1 hz with rfl | hz
      · exact h
      · have := this.1 z hz; omega
    · rintro ⟨h, hs⟩
      exact ⟨h (k, y) (by simp), hs⟩

theorem above_tset {t : Tbl α} {n k : Nat} (v : α) (h : above t n) (hk : n ≤ k) : above (tset t k v) n := by
  induction t with
  | nil => simp [tset, above, hk]
  | cons x r ih =>
    obtain ⟨j, x⟩ := x
    have hj : n ≤ j := h (j, x) (by simp)
    have hr : above r n := fun z hz => h z (List.mem_cons_of_mem _ hz)
    have ih := ih hr
    unfold tset
    split
    · intro z hz
      rcases List.mem_cons.1 hz with rfl | hz
      · exact hk
      · exact h z hz
    · split
      · intro z hz
        rcases List.mem_cons.1 hz with rfl | hz
        · exact hk
        · exact hr z hz
      · intro z hz
        rcases List.mem_cons.1 hz with rfl | hz
        · exact hj
        · exact ih z hz

theorem above_tdel {t : Tbl α} {n : Nat} (k : Nat) (h : above t n) : above (tdel t k) n := by
  induction t with
  | nil => simpa [tdel] using h
  | cons x r ih =>
    obtain ⟨j, x⟩ := x
    have hr : above r n := fun z hz => h z (List.mem_cons_of_mem _ hz)
    unfold tdel
    split
    · exact ih hr
    · intro z hz
      rcases List.mem_cons.1 hz with rfl | hz
      · exact h _ (by simp)
      · exact ih hr z hz

theorem tsorted_tset (t : Tbl α) (k : Nat) (v : α) (h : tsorted t = true) : tsorted (tset t k v) = true := by
  induction t with
  | nil => rfl
  | cons x r ih =>
    obtain ⟨j, x⟩ := x
    rw [tsorted_cons] at h
    have ih := ih h.2
    unfold tset
    split
    · rename_i hk
      rw [tsorted_cons, tsorted_cons]
      refine ⟨?_, h⟩
      intro z hz
      rcases List.mem_cons.1 hz with rfl | hz
      · exact hk
      · have := h.1 z hz; omega
    · split
      · rename_i e
        subst e
        rw [tsorted_cons]; exact h
      · rw [tsorted_cons]
        exact ⟨above_tset v h.1 (by omega), ih⟩

theorem tsorted_tdel (t : Tbl α) (k : Nat) (h : tsorted t = true) : tsorted (tdel t k) = true := by
  induction t with
  | nil => exact h
  | cons x r ih =>
    obtain ⟨j, x⟩ := x
    rw [tsorted_cons] at h
    unfold tdel
    split
    · exact ih h.2
    · rw [tsorted_cons]; exact ⟨above_tdel k h.1, ih h.2⟩

theorem tget_of_above {t : Tbl α} {n k : Nat} (h : above t n) (hk : k < n) : tget t k = none := by
  induction t with
  | nil => rfl
  | cons x r ih =>
    obtain ⟨j, x⟩ := x
    have hj : n ≤ j := h (j, x) (by simp)
    rw [tget_cons, if_neg (by omega)]
    exact ih fun z hz => h z (List.mem_cons_of_mem _ hz)

theorem tget_tdel (t : Tbl α) (k j : Nat) : tget (tdel t k) j = if j = k then none else tget t j := by
  induction t with
  | nil => simp [tdel]
  | cons x r ih => obtain ⟨i, x⟩ := x; grind [tdel, tget]

/-! ## Cells -/

theorem cwf_iff (c : Cells w) : cwf c = true ↔ tsorted c = true ∧ ∀ x ∈ c, x.2 ≠ 0 := by
  simp [cwf]

@[simp] theorem cwf_nil : cwf ([] : Cells w) = true := rfl

theorem mem_tset {t : Tbl α} {k : Nat} {v : α} {x : Nat × α} (h : x ∈ tset t k v) : x = (k, v) ∨ x ∈ t := by
  induction t with
  | nil => left; simpa [tset, tset.eq_1] using h
  | cons y r ih => obtain ⟨j, y⟩ := y; grind [tset]

theorem mem_tdel {t : Tbl α} {k : Nat} {x : Nat × α} (h : x ∈ tdel t k) : x ∈ t := by
  induction t with
  | nil => simp [tdel] at h
  | cons y r ih => obtain ⟨j, y⟩ := y; grind [tdel]

/-- A write of a cell keeps the canonical form. -/
theorem cwf_cset (c : Cells w) (k : Nat) (v : BitVec w) (h : cwf c = true) : cwf (cset c k v) = true := by
  rw [cwf_iff] at h ⊢
  unfold cset
  split
  · exact ⟨tsorted_tdel c k h.1, fun x hx => h.2 x (mem_tdel hx)⟩
  · rename_i hv
    refine ⟨tsorted_tset c k v h.1, fun x hx => ?_⟩
    rcases mem_tset hx with rfl | hx
    · exact hv
    · exact h.2 x hx

/-- A read of a cell after a write. -/
theorem cget_cset (c : Cells w) (k j : Nat) (v : BitVec w) :
    cget (cset c k v) j = if j = k then v else cget c j := by
  unfold cset cget
  split
  · rename_i hv
    rw [tget_tdel]
    by_cases e : j = k <;> simp [e, hv]
  · rw [tget_tset]
    by_cases e : j = k <;> simp [e]

@[simp] theorem cget_cset_same (c : Cells w) (k : Nat) (v : BitVec w) : cget (cset c k v) k = v := by
  simp [cget_cset]

theorem cget_cset_ne (c : Cells w) {k j : Nat} (v : BitVec w) (h : j ≠ k) : cget (cset c k v) j = cget c j := by
  simp [cget_cset, h]

@[simp] theorem cget_nil (k : Nat) : cget ([] : Cells w) k = 0 := rfl

/-! ## Lanes -/

theorem mem_lanesOf (m : Mask) (l : Nat) : l ∈ lanesOf m ↔ l < 32 ∧ m.getLsbD l = true := by
  simp [lanesOf]

theorem lanesOf_nodup (m : Mask) : (lanesOf m).Nodup := List.Pairwise.filter _ List.nodup_range

@[simp] theorem lanesOf_zero : lanesOf 0 = [] := by decide

theorem lanesOf_lt {m : Mask} {l : Nat} (h : l ∈ lanesOf m) : l < 32 := ((mem_lanesOf m l).1 h).1

theorem getLsbD_laneBit (l k : Nat) (h : k < 32) : (laneBit l).getLsbD k = decide (k = l) := by
  unfold laneBit
  rw [BitVec.getLsbD_shiftLeft]
  by_cases e : k = l
  · subst e; simp [h]
  · by_cases hl : k < l
    · simp [hl, e]
    · have : k - l ≠ 0 := by omega
      simp [hl, e, h, BitVec.getLsbD_one, this]

theorem getLsbD_foldl_laneBit (ls : List Nat) (m : Mask) (k : Nat) (h : k < 32) :
    (ls.foldl (fun m x => m ||| laneBit x) m).getLsbD k = (m.getLsbD k || ls.contains k) := by
  induction ls generalizing m with
  | nil => simp
  | cons x r ih =>
    simp only [List.foldl_cons, ih, BitVec.getLsbD_or, getLsbD_laneBit x k h, List.contains_cons, Bool.or_assoc]
    congr 1

/-- The bits of the mask of a list of lanes. -/
theorem getLsbD_maskOf (ls : List Nat) (k : Nat) (h : k < 32) : (maskOf ls).getLsbD k = ls.contains k := by
  rw [maskOf, getLsbD_foldl_laneBit ls 0 k h]
  simp

/-- A mask is the mask of its lanes. -/
theorem maskOf_lanesOf (m : Mask) : maskOf (lanesOf m) = m := by
  apply BitVec.eq_of_getLsbD_eq
  intro i hi
  rw [getLsbD_maskOf _ _ hi, Bool.eq_iff_iff, List.contains_iff_mem, mem_lanesOf]
  simp [hi]

/-! ## Bytes -/

@[simp] theorem natBytes_length (n v : Nat) : (natBytes n v).length = n := by
  induction n generalizing v with
  | zero => rfl
  | succ n ih => simp [natBytes, ih]

/-- R4: the bytes of a number that fits give the number back. -/
theorem leNat_natBytes (n v : Nat) (h : v < 256 ^ n) : leNat (natBytes n v) = v := by
  induction n generalizing v with
  | zero => simp at h; subst h; rfl
  | succ n ih =>
    have hlt : v / 256 < 256 ^ n := by
      rw [Nat.div_lt_iff_lt_mul (by decide), ← Nat.pow_succ]; exact h
    simp only [natBytes, leNat, List.foldr_cons]
    have := ih (v / 256) hlt
    simp only [leNat] at this
    rw [this, BitVec.toNat_ofNat]
    omega

end Sys2Proof.Machine
end

