-- ==== Sys2Proof/Laws/State.lean ====
section
/-! SUPPORT. Every field of the state after every update of Ops.lean, and every field of a warp after every update of
Operands.lean, by `rfl`; and what a lookup answers after an update. -/

namespace Sys2Proof.Machine

open Sys2Proof

/-! ## `State.setWarp` -/

@[simp] theorem State.setWarp_mem (s : State) (wid : Nat) (w : Warp) : (s.setWarp wid w).mem = s.mem := rfl
@[simp] theorem State.setWarp_hist (s : State) (wid : Nat) (w : Warp) : (s.setWarp wid w).hist = s.hist := rfl
@[simp] theorem State.setWarp_tlb (s : State) (wid : Nat) (w : Warp) : (s.setWarp wid w).tlb = s.tlb := rfl
@[simp] theorem State.setWarp_walkCache (s : State) (wid : Nat) (w : Warp) : (s.setWarp wid w).walkCache = s.walkCache := rfl
@[simp] theorem State.setWarp_slices (s : State) (wid : Nat) (w : Warp) : (s.setWarp wid w).slices = s.slices := rfl
@[simp] theorem State.setWarp_asidBase (s : State) (wid : Nat) (w : Warp) : (s.setWarp wid w).asidBase = s.asidBase := rfl
@[simp] theorem State.setWarp_grids (s : State) (wid : Nat) (w : Warp) : (s.setWarp wid w).grids = s.grids := rfl
@[simp] theorem State.setWarp_nextGid (s : State) (wid : Nat) (w : Warp) : (s.setWarp wid w).nextGid = s.nextGid := rfl
@[simp] theorem State.setWarp_teams (s : State) (wid : Nat) (w : Warp) : (s.setWarp wid w).teams = s.teams := rfl
@[simp] theorem State.setWarp_nextTid (s : State) (wid : Nat) (w : Warp) : (s.setWarp wid w).nextTid = s.nextTid := rfl
@[simp] theorem State.setWarp_warps (s : State) (wid : Nat) (w : Warp) : (s.setWarp wid w).warps = tset s.warps wid w := rfl
@[simp] theorem State.setWarp_cores (s : State) (wid : Nat) (w : Warp) : (s.setWarp wid w).cores = s.cores := rfl
@[simp] theorem State.setWarp_parts (s : State) (wid : Nat) (w : Warp) : (s.setWarp wid w).parts = s.parts := rfl
@[simp] theorem State.setWarp_dies (s : State) (wid : Nat) (w : Warp) : (s.setWarp wid w).dies = s.dies := rfl
@[simp] theorem State.setWarp_scratch (s : State) (wid : Nat) (w : Warp) : (s.setWarp wid w).scratch = s.scratch := rfl
@[simp] theorem State.setWarp_bars (s : State) (wid : Nat) (w : Warp) : (s.setWarp wid w).bars = s.bars := rfl
@[simp] theorem State.setWarp_ops (s : State) (wid : Nat) (w : Warp) : (s.setWarp wid w).ops = s.ops := rfl
@[simp] theorem State.setWarp_traces (s : State) (wid : Nat) (w : Warp) : (s.setWarp wid w).traces = s.traces := rfl
@[simp] theorem State.setWarp_queues (s : State) (wid : Nat) (w : Warp) : (s.setWarp wid w).queues = s.queues := rfl
@[simp] theorem State.setWarp_hevents (s : State) (wid : Nat) (w : Warp) : (s.setWarp wid w).hevents = s.hevents := rfl
@[simp] theorem State.setWarp_mailbox (s : State) (wid : Nat) (w : Warp) : (s.setWarp wid w).mailbox = s.mailbox := rfl
@[simp] theorem State.setWarp_cmdQ (s : State) (wid : Nat) (w : Warp) : (s.setWarp wid w).cmdQ = s.cmdQ := rfl
@[simp] theorem State.setWarp_rspQ (s : State) (wid : Nat) (w : Warp) : (s.setWarp wid w).rspQ = s.rspQ := rfl
@[simp] theorem State.setWarp_mg (s : State) (wid : Nat) (w : Warp) : (s.setWarp wid w).mg = s.mg := rfl
@[simp] theorem State.setWarp_faultInt (s : State) (wid : Nat) (w : Warp) : (s.setWarp wid w).faultInt = s.faultInt := rfl
@[simp] theorem State.setWarp_errWin (s : State) (wid : Nat) (w : Warp) : (s.setWarp wid w).errWin = s.errWin := rfl
@[simp] theorem State.setWarp_errHeld (s : State) (wid : Nat) (w : Warp) : (s.setWarp wid w).errHeld = s.errHeld := rfl
@[simp] theorem State.setWarp_errDropped (s : State) (wid : Nat) (w : Warp) : (s.setWarp wid w).errDropped = s.errDropped := rfl
@[simp] theorem State.setWarp_corrTotal (s : State) (wid : Nat) (w : Warp) : (s.setWarp wid w).corrTotal = s.corrTotal := rfl
@[simp] theorem State.setWarp_gridsRetired (s : State) (wid : Nat) (w : Warp) : (s.setWarp wid w).gridsRetired = s.gridsRetired := rfl
@[simp] theorem State.setWarp_outOfService (s : State) (wid : Nat) (w : Warp) : (s.setWarp wid w).outOfService = s.outOfService := rfl
@[simp] theorem State.setWarp_poison (s : State) (wid : Nat) (w : Warp) : (s.setWarp wid w).poison = s.poison := rfl
@[simp] theorem State.setWarp_links (s : State) (wid : Nat) (w : Warp) : (s.setWarp wid w).links = s.links := rfl
@[simp] theorem State.setWarp_memTrained (s : State) (wid : Nat) (w : Warp) : (s.setWarp wid w).memTrained = s.memTrained := rfl
@[simp] theorem State.setWarp_trust (s : State) (wid : Nat) (w : Warp) : (s.setWarp wid w).trust = s.trust := rfl
@[simp] theorem State.setWarp_power (s : State) (wid : Nat) (w : Warp) : (s.setWarp wid w).power = s.power := rfl
@[simp] theorem State.setWarp_peers (s : State) (wid : Nat) (w : Warp) : (s.setWarp wid w).peers = s.peers := rfl
@[simp] theorem State.setWarp_peerOut (s : State) (wid : Nat) (w : Warp) : (s.setWarp wid w).peerOut = s.peerOut := rfl
@[simp] theorem State.setWarp_pcieOut (s : State) (wid : Nat) (w : Warp) : (s.setWarp wid w).pcieOut = s.pcieOut := rfl
@[simp] theorem State.setWarp_hostRead (s : State) (wid : Nat) (w : Warp) : (s.setWarp wid w).hostRead = s.hostRead := rfl
@[simp] theorem State.setWarp_now (s : State) (wid : Nat) (w : Warp) : (s.setWarp wid w).now = s.now := rfl
@[simp] theorem State.setWarp_ns (s : State) (wid : Nat) (w : Warp) : (s.setWarp wid w).ns = s.ns := rfl
@[simp] theorem State.setWarp_resetNs (s : State) (wid : Nat) (w : Warp) : (s.setWarp wid w).resetNs = s.resetNs := rfl
@[simp] theorem State.setWarp_cur (s : State) (wid : Nat) (w : Warp) : (s.setWarp wid w).cur = s.cur := rfl
@[simp] theorem State.setWarp_inputs (s : State) (wid : Nat) (w : Warp) : (s.setWarp wid w).inputs = s.inputs := rfl
@[simp] theorem State.setWarp_fresh (s : State) (wid : Nat) (w : Warp) : (s.setWarp wid w).fresh = s.fresh := rfl
@[simp] theorem State.setWarp_nextId (s : State) (wid : Nat) (w : Warp) : (s.setWarp wid w).nextId = s.nextId := rfl

/-! ## `State.modWarp` -/

@[simp] theorem State.modWarp_mem (s : State) (wid : Nat) (f : Warp → Warp) : (s.modWarp wid f).mem = s.mem := rfl
@[simp] theorem State.modWarp_hist (s : State) (wid : Nat) (f : Warp → Warp) : (s.modWarp wid f).hist = s.hist := rfl
@[simp] theorem State.modWarp_tlb (s : State) (wid : Nat) (f : Warp → Warp) : (s.modWarp wid f).tlb = s.tlb := rfl
@[simp] theorem State.modWarp_walkCache (s : State) (wid : Nat) (f : Warp → Warp) : (s.modWarp wid f).walkCache = s.walkCache := rfl
@[simp] theorem State.modWarp_slices (s : State) (wid : Nat) (f : Warp → Warp) : (s.modWarp wid f).slices = s.slices := rfl
@[simp] theorem State.modWarp_asidBase (s : State) (wid : Nat) (f : Warp → Warp) : (s.modWarp wid f).asidBase = s.asidBase := rfl
@[simp] theorem State.modWarp_grids (s : State) (wid : Nat) (f : Warp → Warp) : (s.modWarp wid f).grids = s.grids := rfl
@[simp] theorem State.modWarp_nextGid (s : State) (wid : Nat) (f : Warp → Warp) : (s.modWarp wid f).nextGid = s.nextGid := rfl
@[simp] theorem State.modWarp_teams (s : State) (wid : Nat) (f : Warp → Warp) : (s.modWarp wid f).teams = s.teams := rfl
@[simp] theorem State.modWarp_nextTid (s : State) (wid : Nat) (f : Warp → Warp) : (s.modWarp wid f).nextTid = s.nextTid := rfl
@[simp] theorem State.modWarp_warps (s : State) (wid : Nat) (f : Warp → Warp) : (s.modWarp wid f).warps = tmod s.warps wid f := rfl
@[simp] theorem State.modWarp_cores (s : State) (wid : Nat) (f : Warp → Warp) : (s.modWarp wid f).cores = s.cores := rfl
@[simp] theorem State.modWarp_parts (s : State) (wid : Nat) (f : Warp → Warp) : (s.modWarp wid f).parts = s.parts := rfl
@[simp] theorem State.modWarp_dies (s : State) (wid : Nat) (f : Warp → Warp) : (s.modWarp wid f).dies = s.dies := rfl
@[simp] theorem State.modWarp_scratch (s : State) (wid : Nat) (f : Warp → Warp) : (s.modWarp wid f).scratch = s.scratch := rfl
@[simp] theorem State.modWarp_bars (s : State) (wid : Nat) (f : Warp → Warp) : (s.modWarp wid f).bars = s.bars := rfl
@[simp] theorem State.modWarp_ops (s : State) (wid : Nat) (f : Warp → Warp) : (s.modWarp wid f).ops = s.ops := rfl
@[simp] theorem State.modWarp_traces (s : State) (wid : Nat) (f : Warp → Warp) : (s.modWarp wid f).traces = s.traces := rfl
@[simp] theorem State.modWarp_queues (s : State) (wid : Nat) (f : Warp → Warp) : (s.modWarp wid f).queues = s.queues := rfl
@[simp] theorem State.modWarp_hevents (s : State) (wid : Nat) (f : Warp → Warp) : (s.modWarp wid f).hevents = s.hevents := rfl
@[simp] theorem State.modWarp_mailbox (s : State) (wid : Nat) (f : Warp → Warp) : (s.modWarp wid f).mailbox = s.mailbox := rfl
@[simp] theorem State.modWarp_cmdQ (s : State) (wid : Nat) (f : Warp → Warp) : (s.modWarp wid f).cmdQ = s.cmdQ := rfl
@[simp] theorem State.modWarp_rspQ (s : State) (wid : Nat) (f : Warp → Warp) : (s.modWarp wid f).rspQ = s.rspQ := rfl
@[simp] theorem State.modWarp_mg (s : State) (wid : Nat) (f : Warp → Warp) : (s.modWarp wid f).mg = s.mg := rfl
@[simp] theorem State.modWarp_faultInt (s : State) (wid : Nat) (f : Warp → Warp) : (s.modWarp wid f).faultInt = s.faultInt := rfl
@[simp] theorem State.modWarp_errWin (s : State) (wid : Nat) (f : Warp → Warp) : (s.modWarp wid f).errWin = s.errWin := rfl
@[simp] theorem State.modWarp_errHeld (s : State) (wid : Nat) (f : Warp → Warp) : (s.modWarp wid f).errHeld = s.errHeld := rfl
@[simp] theorem State.modWarp_errDropped (s : State) (wid : Nat) (f : Warp → Warp) : (s.modWarp wid f).errDropped = s.errDropped := rfl
@[simp] theorem State.modWarp_corrTotal (s : State) (wid : Nat) (f : Warp → Warp) : (s.modWarp wid f).corrTotal = s.corrTotal := rfl
@[simp] theorem State.modWarp_gridsRetired (s : State) (wid : Nat) (f : Warp → Warp) : (s.modWarp wid f).gridsRetired = s.gridsRetired := rfl
@[simp] theorem State.modWarp_outOfService (s : State) (wid : Nat) (f : Warp → Warp) : (s.modWarp wid f).outOfService = s.outOfService := rfl
@[simp] theorem State.modWarp_poison (s : State) (wid : Nat) (f : Warp → Warp) : (s.modWarp wid f).poison = s.poison := rfl
@[simp] theorem State.modWarp_links (s : State) (wid : Nat) (f : Warp → Warp) : (s.modWarp wid f).links = s.links := rfl
@[simp] theorem State.modWarp_memTrained (s : State) (wid : Nat) (f : Warp → Warp) : (s.modWarp wid f).memTrained = s.memTrained := rfl
@[simp] theorem State.modWarp_trust (s : State) (wid : Nat) (f : Warp → Warp) : (s.modWarp wid f).trust = s.trust := rfl
@[simp] theorem State.modWarp_power (s : State) (wid : Nat) (f : Warp → Warp) : (s.modWarp wid f).power = s.power := rfl
@[simp] theorem State.modWarp_peers (s : State) (wid : Nat) (f : Warp → Warp) : (s.modWarp wid f).peers = s.peers := rfl
@[simp] theorem State.modWarp_peerOut (s : State) (wid : Nat) (f : Warp → Warp) : (s.modWarp wid f).peerOut = s.peerOut := rfl
@[simp] theorem State.modWarp_pcieOut (s : State) (wid : Nat) (f : Warp → Warp) : (s.modWarp wid f).pcieOut = s.pcieOut := rfl
@[simp] theorem State.modWarp_hostRead (s : State) (wid : Nat) (f : Warp → Warp) : (s.modWarp wid f).hostRead = s.hostRead := rfl
@[simp] theorem State.modWarp_now (s : State) (wid : Nat) (f : Warp → Warp) : (s.modWarp wid f).now = s.now := rfl
@[simp] theorem State.modWarp_ns (s : State) (wid : Nat) (f : Warp → Warp) : (s.modWarp wid f).ns = s.ns := rfl
@[simp] theorem State.modWarp_resetNs (s : State) (wid : Nat) (f : Warp → Warp) : (s.modWarp wid f).resetNs = s.resetNs := rfl
@[simp] theorem State.modWarp_cur (s : State) (wid : Nat) (f : Warp → Warp) : (s.modWarp wid f).cur = s.cur := rfl
@[simp] theorem State.modWarp_inputs (s : State) (wid : Nat) (f : Warp → Warp) : (s.modWarp wid f).inputs = s.inputs := rfl
@[simp] theorem State.modWarp_fresh (s : State) (wid : Nat) (f : Warp → Warp) : (s.modWarp wid f).fresh = s.fresh := rfl
@[simp] theorem State.modWarp_nextId (s : State) (wid : Nat) (f : Warp → Warp) : (s.modWarp wid f).nextId = s.nextId := rfl

/-! ## `State.setTeam` -/

@[simp] theorem State.setTeam_mem (s : State) (tid : Nat) (t : Team) : (s.setTeam tid t).mem = s.mem := rfl
@[simp] theorem State.setTeam_hist (s : State) (tid : Nat) (t : Team) : (s.setTeam tid t).hist = s.hist := rfl
@[simp] theorem State.setTeam_tlb (s : State) (tid : Nat) (t : Team) : (s.setTeam tid t).tlb = s.tlb := rfl
@[simp] theorem State.setTeam_walkCache (s : State) (tid : Nat) (t : Team) : (s.setTeam tid t).walkCache = s.walkCache := rfl
@[simp] theorem State.setTeam_slices (s : State) (tid : Nat) (t : Team) : (s.setTeam tid t).slices = s.slices := rfl
@[simp] theorem State.setTeam_asidBase (s : State) (tid : Nat) (t : Team) : (s.setTeam tid t).asidBase = s.asidBase := rfl
@[simp] theorem State.setTeam_grids (s : State) (tid : Nat) (t : Team) : (s.setTeam tid t).grids = s.grids := rfl
@[simp] theorem State.setTeam_nextGid (s : State) (tid : Nat) (t : Team) : (s.setTeam tid t).nextGid = s.nextGid := rfl
@[simp] theorem State.setTeam_teams (s : State) (tid : Nat) (t : Team) : (s.setTeam tid t).teams = tset s.teams tid t := rfl
@[simp] theorem State.setTeam_nextTid (s : State) (tid : Nat) (t : Team) : (s.setTeam tid t).nextTid = s.nextTid := rfl
@[simp] theorem State.setTeam_warps (s : State) (tid : Nat) (t : Team) : (s.setTeam tid t).warps = s.warps := rfl
@[simp] theorem State.setTeam_cores (s : State) (tid : Nat) (t : Team) : (s.setTeam tid t).cores = s.cores := rfl
@[simp] theorem State.setTeam_parts (s : State) (tid : Nat) (t : Team) : (s.setTeam tid t).parts = s.parts := rfl
@[simp] theorem State.setTeam_dies (s : State) (tid : Nat) (t : Team) : (s.setTeam tid t).dies = s.dies := rfl
@[simp] theorem State.setTeam_scratch (s : State) (tid : Nat) (t : Team) : (s.setTeam tid t).scratch = s.scratch := rfl
@[simp] theorem State.setTeam_bars (s : State) (tid : Nat) (t : Team) : (s.setTeam tid t).bars = s.bars := rfl
@[simp] theorem State.setTeam_ops (s : State) (tid : Nat) (t : Team) : (s.setTeam tid t).ops = s.ops := rfl
@[simp] theorem State.setTeam_traces (s : State) (tid : Nat) (t : Team) : (s.setTeam tid t).traces = s.traces := rfl
@[simp] theorem State.setTeam_queues (s : State) (tid : Nat) (t : Team) : (s.setTeam tid t).queues = s.queues := rfl
@[simp] theorem State.setTeam_hevents (s : State) (tid : Nat) (t : Team) : (s.setTeam tid t).hevents = s.hevents := rfl
@[simp] theorem State.setTeam_mailbox (s : State) (tid : Nat) (t : Team) : (s.setTeam tid t).mailbox = s.mailbox := rfl
@[simp] theorem State.setTeam_cmdQ (s : State) (tid : Nat) (t : Team) : (s.setTeam tid t).cmdQ = s.cmdQ := rfl
@[simp] theorem State.setTeam_rspQ (s : State) (tid : Nat) (t : Team) : (s.setTeam tid t).rspQ = s.rspQ := rfl
@[simp] theorem State.setTeam_mg (s : State) (tid : Nat) (t : Team) : (s.setTeam tid t).mg = s.mg := rfl
@[simp] theorem State.setTeam_faultInt (s : State) (tid : Nat) (t : Team) : (s.setTeam tid t).faultInt = s.faultInt := rfl
@[simp] theorem State.setTeam_errWin (s : State) (tid : Nat) (t : Team) : (s.setTeam tid t).errWin = s.errWin := rfl
@[simp] theorem State.setTeam_errHeld (s : State) (tid : Nat) (t : Team) : (s.setTeam tid t).errHeld = s.errHeld := rfl
@[simp] theorem State.setTeam_errDropped (s : State) (tid : Nat) (t : Team) : (s.setTeam tid t).errDropped = s.errDropped := rfl
@[simp] theorem State.setTeam_corrTotal (s : State) (tid : Nat) (t : Team) : (s.setTeam tid t).corrTotal = s.corrTotal := rfl
@[simp] theorem State.setTeam_gridsRetired (s : State) (tid : Nat) (t : Team) : (s.setTeam tid t).gridsRetired = s.gridsRetired := rfl
@[simp] theorem State.setTeam_outOfService (s : State) (tid : Nat) (t : Team) : (s.setTeam tid t).outOfService = s.outOfService := rfl
@[simp] theorem State.setTeam_poison (s : State) (tid : Nat) (t : Team) : (s.setTeam tid t).poison = s.poison := rfl
@[simp] theorem State.setTeam_links (s : State) (tid : Nat) (t : Team) : (s.setTeam tid t).links = s.links := rfl
@[simp] theorem State.setTeam_memTrained (s : State) (tid : Nat) (t : Team) : (s.setTeam tid t).memTrained = s.memTrained := rfl
@[simp] theorem State.setTeam_trust (s : State) (tid : Nat) (t : Team) : (s.setTeam tid t).trust = s.trust := rfl
@[simp] theorem State.setTeam_power (s : State) (tid : Nat) (t : Team) : (s.setTeam tid t).power = s.power := rfl
@[simp] theorem State.setTeam_peers (s : State) (tid : Nat) (t : Team) : (s.setTeam tid t).peers = s.peers := rfl
@[simp] theorem State.setTeam_peerOut (s : State) (tid : Nat) (t : Team) : (s.setTeam tid t).peerOut = s.peerOut := rfl
@[simp] theorem State.setTeam_pcieOut (s : State) (tid : Nat) (t : Team) : (s.setTeam tid t).pcieOut = s.pcieOut := rfl
@[simp] theorem State.setTeam_hostRead (s : State) (tid : Nat) (t : Team) : (s.setTeam tid t).hostRead = s.hostRead := rfl
@[simp] theorem State.setTeam_now (s : State) (tid : Nat) (t : Team) : (s.setTeam tid t).now = s.now := rfl
@[simp] theorem State.setTeam_ns (s : State) (tid : Nat) (t : Team) : (s.setTeam tid t).ns = s.ns := rfl
@[simp] theorem State.setTeam_resetNs (s : State) (tid : Nat) (t : Team) : (s.setTeam tid t).resetNs = s.resetNs := rfl
@[simp] theorem State.setTeam_cur (s : State) (tid : Nat) (t : Team) : (s.setTeam tid t).cur = s.cur := rfl
@[simp] theorem State.setTeam_inputs (s : State) (tid : Nat) (t : Team) : (s.setTeam tid t).inputs = s.inputs := rfl
@[simp] theorem State.setTeam_fresh (s : State) (tid : Nat) (t : Team) : (s.setTeam tid t).fresh = s.fresh := rfl
@[simp] theorem State.setTeam_nextId (s : State) (tid : Nat) (t : Team) : (s.setTeam tid t).nextId = s.nextId := rfl

/-! ## `State.modTeam` -/

@[simp] theorem State.modTeam_mem (s : State) (tid : Nat) (f : Team → Team) : (s.modTeam tid f).mem = s.mem := rfl
@[simp] theorem State.modTeam_hist (s : State) (tid : Nat) (f : Team → Team) : (s.modTeam tid f).hist = s.hist := rfl
@[simp] theorem State.modTeam_tlb (s : State) (tid : Nat) (f : Team → Team) : (s.modTeam tid f).tlb = s.tlb := rfl
@[simp] theorem State.modTeam_walkCache (s : State) (tid : Nat) (f : Team → Team) : (s.modTeam tid f).walkCache = s.walkCache := rfl
@[simp] theorem State.modTeam_slices (s : State) (tid : Nat) (f : Team → Team) : (s.modTeam tid f).slices = s.slices := rfl
@[simp] theorem State.modTeam_asidBase (s : State) (tid : Nat) (f : Team → Team) : (s.modTeam tid f).asidBase = s.asidBase := rfl
@[simp] theorem State.modTeam_grids (s : State) (tid : Nat) (f : Team → Team) : (s.modTeam tid f).grids = s.grids := rfl
@[simp] theorem State.modTeam_nextGid (s : State) (tid : Nat) (f : Team → Team) : (s.modTeam tid f).nextGid = s.nextGid := rfl
@[simp] theorem State.modTeam_teams (s : State) (tid : Nat) (f : Team → Team) : (s.modTeam tid f).teams = tmod s.teams tid f := rfl
@[simp] theorem State.modTeam_nextTid (s : State) (tid : Nat) (f : Team → Team) : (s.modTeam tid f).nextTid = s.nextTid := rfl
@[simp] theorem State.modTeam_warps (s : State) (tid : Nat) (f : Team → Team) : (s.modTeam tid f).warps = s.warps := rfl
@[simp] theorem State.modTeam_cores (s : State) (tid : Nat) (f : Team → Team) : (s.modTeam tid f).cores = s.cores := rfl
@[simp] theorem State.modTeam_parts (s : State) (tid : Nat) (f : Team → Team) : (s.modTeam tid f).parts = s.parts := rfl
@[simp] theorem State.modTeam_dies (s : State) (tid : Nat) (f : Team → Team) : (s.modTeam tid f).dies = s.dies := rfl
@[simp] theorem State.modTeam_scratch (s : State) (tid : Nat) (f : Team → Team) : (s.modTeam tid f).scratch = s.scratch := rfl
@[simp] theorem State.modTeam_bars (s : State) (tid : Nat) (f : Team → Team) : (s.modTeam tid f).bars = s.bars := rfl
@[simp] theorem State.modTeam_ops (s : State) (tid : Nat) (f : Team → Team) : (s.modTeam tid f).ops = s.ops := rfl
@[simp] theorem State.modTeam_traces (s : State) (tid : Nat) (f : Team → Team) : (s.modTeam tid f).traces = s.traces := rfl
@[simp] theorem State.modTeam_queues (s : State) (tid : Nat) (f : Team → Team) : (s.modTeam tid f).queues = s.queues := rfl
@[simp] theorem State.modTeam_hevents (s : State) (tid : Nat) (f : Team → Team) : (s.modTeam tid f).hevents = s.hevents := rfl
@[simp] theorem State.modTeam_mailbox (s : State) (tid : Nat) (f : Team → Team) : (s.modTeam tid f).mailbox = s.mailbox := rfl
@[simp] theorem State.modTeam_cmdQ (s : State) (tid : Nat) (f : Team → Team) : (s.modTeam tid f).cmdQ = s.cmdQ := rfl
@[simp] theorem State.modTeam_rspQ (s : State) (tid : Nat) (f : Team → Team) : (s.modTeam tid f).rspQ = s.rspQ := rfl
@[simp] theorem State.modTeam_mg (s : State) (tid : Nat) (f : Team → Team) : (s.modTeam tid f).mg = s.mg := rfl
@[simp] theorem State.modTeam_faultInt (s : State) (tid : Nat) (f : Team → Team) : (s.modTeam tid f).faultInt = s.faultInt := rfl
@[simp] theorem State.modTeam_errWin (s : State) (tid : Nat) (f : Team → Team) : (s.modTeam tid f).errWin = s.errWin := rfl
@[simp] theorem State.modTeam_errHeld (s : State) (tid : Nat) (f : Team → Team) : (s.modTeam tid f).errHeld = s.errHeld := rfl
@[simp] theorem State.modTeam_errDropped (s : State) (tid : Nat) (f : Team → Team) : (s.modTeam tid f).errDropped = s.errDropped := rfl
@[simp] theorem State.modTeam_corrTotal (s : State) (tid : Nat) (f : Team → Team) : (s.modTeam tid f).corrTotal = s.corrTotal := rfl
@[simp] theorem State.modTeam_gridsRetired (s : State) (tid : Nat) (f : Team → Team) : (s.modTeam tid f).gridsRetired = s.gridsRetired := rfl
@[simp] theorem State.modTeam_outOfService (s : State) (tid : Nat) (f : Team → Team) : (s.modTeam tid f).outOfService = s.outOfService := rfl
@[simp] theorem State.modTeam_poison (s : State) (tid : Nat) (f : Team → Team) : (s.modTeam tid f).poison = s.poison := rfl
@[simp] theorem State.modTeam_links (s : State) (tid : Nat) (f : Team → Team) : (s.modTeam tid f).links = s.links := rfl
@[simp] theorem State.modTeam_memTrained (s : State) (tid : Nat) (f : Team → Team) : (s.modTeam tid f).memTrained = s.memTrained := rfl
@[simp] theorem State.modTeam_trust (s : State) (tid : Nat) (f : Team → Team) : (s.modTeam tid f).trust = s.trust := rfl
@[simp] theorem State.modTeam_power (s : State) (tid : Nat) (f : Team → Team) : (s.modTeam tid f).power = s.power := rfl
@[simp] theorem State.modTeam_peers (s : State) (tid : Nat) (f : Team → Team) : (s.modTeam tid f).peers = s.peers := rfl
@[simp] theorem State.modTeam_peerOut (s : State) (tid : Nat) (f : Team → Team) : (s.modTeam tid f).peerOut = s.peerOut := rfl
@[simp] theorem State.modTeam_pcieOut (s : State) (tid : Nat) (f : Team → Team) : (s.modTeam tid f).pcieOut = s.pcieOut := rfl
@[simp] theorem State.modTeam_hostRead (s : State) (tid : Nat) (f : Team → Team) : (s.modTeam tid f).hostRead = s.hostRead := rfl
@[simp] theorem State.modTeam_now (s : State) (tid : Nat) (f : Team → Team) : (s.modTeam tid f).now = s.now := rfl
@[simp] theorem State.modTeam_ns (s : State) (tid : Nat) (f : Team → Team) : (s.modTeam tid f).ns = s.ns := rfl
@[simp] theorem State.modTeam_resetNs (s : State) (tid : Nat) (f : Team → Team) : (s.modTeam tid f).resetNs = s.resetNs := rfl
@[simp] theorem State.modTeam_cur (s : State) (tid : Nat) (f : Team → Team) : (s.modTeam tid f).cur = s.cur := rfl
@[simp] theorem State.modTeam_inputs (s : State) (tid : Nat) (f : Team → Team) : (s.modTeam tid f).inputs = s.inputs := rfl
@[simp] theorem State.modTeam_fresh (s : State) (tid : Nat) (f : Team → Team) : (s.modTeam tid f).fresh = s.fresh := rfl
@[simp] theorem State.modTeam_nextId (s : State) (tid : Nat) (f : Team → Team) : (s.modTeam tid f).nextId = s.nextId := rfl

/-! ## `State.modGrid` -/

@[simp] theorem State.modGrid_mem (s : State) (gid : Nat) (f : Grid → Grid) : (s.modGrid gid f).mem = s.mem := rfl
@[simp] theorem State.modGrid_hist (s : State) (gid : Nat) (f : Grid → Grid) : (s.modGrid gid f).hist = s.hist := rfl
@[simp] theorem State.modGrid_tlb (s : State) (gid : Nat) (f : Grid → Grid) : (s.modGrid gid f).tlb = s.tlb := rfl
@[simp] theorem State.modGrid_walkCache (s : State) (gid : Nat) (f : Grid → Grid) : (s.modGrid gid f).walkCache = s.walkCache := rfl
@[simp] theorem State.modGrid_slices (s : State) (gid : Nat) (f : Grid → Grid) : (s.modGrid gid f).slices = s.slices := rfl
@[simp] theorem State.modGrid_asidBase (s : State) (gid : Nat) (f : Grid → Grid) : (s.modGrid gid f).asidBase = s.asidBase := rfl
@[simp] theorem State.modGrid_grids (s : State) (gid : Nat) (f : Grid → Grid) : (s.modGrid gid f).grids = tmod s.grids gid f := rfl
@[simp] theorem State.modGrid_nextGid (s : State) (gid : Nat) (f : Grid → Grid) : (s.modGrid gid f).nextGid = s.nextGid := rfl
@[simp] theorem State.modGrid_teams (s : State) (gid : Nat) (f : Grid → Grid) : (s.modGrid gid f).teams = s.teams := rfl
@[simp] theorem State.modGrid_nextTid (s : State) (gid : Nat) (f : Grid → Grid) : (s.modGrid gid f).nextTid = s.nextTid := rfl
@[simp] theorem State.modGrid_warps (s : State) (gid : Nat) (f : Grid → Grid) : (s.modGrid gid f).warps = s.warps := rfl
@[simp] theorem State.modGrid_cores (s : State) (gid : Nat) (f : Grid → Grid) : (s.modGrid gid f).cores = s.cores := rfl
@[simp] theorem State.modGrid_parts (s : State) (gid : Nat) (f : Grid → Grid) : (s.modGrid gid f).parts = s.parts := rfl
@[simp] theorem State.modGrid_dies (s : State) (gid : Nat) (f : Grid → Grid) : (s.modGrid gid f).dies = s.dies := rfl
@[simp] theorem State.modGrid_scratch (s : State) (gid : Nat) (f : Grid → Grid) : (s.modGrid gid f).scratch = s.scratch := rfl
@[simp] theorem State.modGrid_bars (s : State) (gid : Nat) (f : Grid → Grid) : (s.modGrid gid f).bars = s.bars := rfl
@[simp] theorem State.modGrid_ops (s : State) (gid : Nat) (f : Grid → Grid) : (s.modGrid gid f).ops = s.ops := rfl
@[simp] theorem State.modGrid_traces (s : State) (gid : Nat) (f : Grid → Grid) : (s.modGrid gid f).traces = s.traces := rfl
@[simp] theorem State.modGrid_queues (s : State) (gid : Nat) (f : Grid → Grid) : (s.modGrid gid f).queues = s.queues := rfl
@[simp] theorem State.modGrid_hevents (s : State) (gid : Nat) (f : Grid → Grid) : (s.modGrid gid f).hevents = s.hevents := rfl
@[simp] theorem State.modGrid_mailbox (s : State) (gid : Nat) (f : Grid → Grid) : (s.modGrid gid f).mailbox = s.mailbox := rfl
@[simp] theorem State.modGrid_cmdQ (s : State) (gid : Nat) (f : Grid → Grid) : (s.modGrid gid f).cmdQ = s.cmdQ := rfl
@[simp] theorem State.modGrid_rspQ (s : State) (gid : Nat) (f : Grid → Grid) : (s.modGrid gid f).rspQ = s.rspQ := rfl
@[simp] theorem State.modGrid_mg (s : State) (gid : Nat) (f : Grid → Grid) : (s.modGrid gid f).mg = s.mg := rfl
@[simp] theorem State.modGrid_faultInt (s : State) (gid : Nat) (f : Grid → Grid) : (s.modGrid gid f).faultInt = s.faultInt := rfl
@[simp] theorem State.modGrid_errWin (s : State) (gid : Nat) (f : Grid → Grid) : (s.modGrid gid f).errWin = s.errWin := rfl
@[simp] theorem State.modGrid_errHeld (s : State) (gid : Nat) (f : Grid → Grid) : (s.modGrid gid f).errHeld = s.errHeld := rfl
@[simp] theorem State.modGrid_errDropped (s : State) (gid : Nat) (f : Grid → Grid) : (s.modGrid gid f).errDropped = s.errDropped := rfl
@[simp] theorem State.modGrid_corrTotal (s : State) (gid : Nat) (f : Grid → Grid) : (s.modGrid gid f).corrTotal = s.corrTotal := rfl
@[simp] theorem State.modGrid_gridsRetired (s : State) (gid : Nat) (f : Grid → Grid) : (s.modGrid gid f).gridsRetired = s.gridsRetired := rfl
@[simp] theorem State.modGrid_outOfService (s : State) (gid : Nat) (f : Grid → Grid) : (s.modGrid gid f).outOfService = s.outOfService := rfl
@[simp] theorem State.modGrid_poison (s : State) (gid : Nat) (f : Grid → Grid) : (s.modGrid gid f).poison = s.poison := rfl
@[simp] theorem State.modGrid_links (s : State) (gid : Nat) (f : Grid → Grid) : (s.modGrid gid f).links = s.links := rfl
@[simp] theorem State.modGrid_memTrained (s : State) (gid : Nat) (f : Grid → Grid) : (s.modGrid gid f).memTrained = s.memTrained := rfl
@[simp] theorem State.modGrid_trust (s : State) (gid : Nat) (f : Grid → Grid) : (s.modGrid gid f).trust = s.trust := rfl
@[simp] theorem State.modGrid_power (s : State) (gid : Nat) (f : Grid → Grid) : (s.modGrid gid f).power = s.power := rfl
@[simp] theorem State.modGrid_peers (s : State) (gid : Nat) (f : Grid → Grid) : (s.modGrid gid f).peers = s.peers := rfl
@[simp] theorem State.modGrid_peerOut (s : State) (gid : Nat) (f : Grid → Grid) : (s.modGrid gid f).peerOut = s.peerOut := rfl
@[simp] theorem State.modGrid_pcieOut (s : State) (gid : Nat) (f : Grid → Grid) : (s.modGrid gid f).pcieOut = s.pcieOut := rfl
@[simp] theorem State.modGrid_hostRead (s : State) (gid : Nat) (f : Grid → Grid) : (s.modGrid gid f).hostRead = s.hostRead := rfl
@[simp] theorem State.modGrid_now (s : State) (gid : Nat) (f : Grid → Grid) : (s.modGrid gid f).now = s.now := rfl
@[simp] theorem State.modGrid_ns (s : State) (gid : Nat) (f : Grid → Grid) : (s.modGrid gid f).ns = s.ns := rfl
@[simp] theorem State.modGrid_resetNs (s : State) (gid : Nat) (f : Grid → Grid) : (s.modGrid gid f).resetNs = s.resetNs := rfl
@[simp] theorem State.modGrid_cur (s : State) (gid : Nat) (f : Grid → Grid) : (s.modGrid gid f).cur = s.cur := rfl
@[simp] theorem State.modGrid_inputs (s : State) (gid : Nat) (f : Grid → Grid) : (s.modGrid gid f).inputs = s.inputs := rfl
@[simp] theorem State.modGrid_fresh (s : State) (gid : Nat) (f : Grid → Grid) : (s.modGrid gid f).fresh = s.fresh := rfl
@[simp] theorem State.modGrid_nextId (s : State) (gid : Nat) (f : Grid → Grid) : (s.modGrid gid f).nextId = s.nextId := rfl

/-! ## `State.setCore` -/

@[simp] theorem State.setCore_mem (s : State) (k : Nat) (c : Core) : (s.setCore k c).mem = s.mem := rfl
@[simp] theorem State.setCore_hist (s : State) (k : Nat) (c : Core) : (s.setCore k c).hist = s.hist := rfl
@[simp] theorem State.setCore_tlb (s : State) (k : Nat) (c : Core) : (s.setCore k c).tlb = s.tlb := rfl
@[simp] theorem State.setCore_walkCache (s : State) (k : Nat) (c : Core) : (s.setCore k c).walkCache = s.walkCache := rfl
@[simp] theorem State.setCore_slices (s : State) (k : Nat) (c : Core) : (s.setCore k c).slices = s.slices := rfl
@[simp] theorem State.setCore_asidBase (s : State) (k : Nat) (c : Core) : (s.setCore k c).asidBase = s.asidBase := rfl
@[simp] theorem State.setCore_grids (s : State) (k : Nat) (c : Core) : (s.setCore k c).grids = s.grids := rfl
@[simp] theorem State.setCore_nextGid (s : State) (k : Nat) (c : Core) : (s.setCore k c).nextGid = s.nextGid := rfl
@[simp] theorem State.setCore_teams (s : State) (k : Nat) (c : Core) : (s.setCore k c).teams = s.teams := rfl
@[simp] theorem State.setCore_nextTid (s : State) (k : Nat) (c : Core) : (s.setCore k c).nextTid = s.nextTid := rfl
@[simp] theorem State.setCore_warps (s : State) (k : Nat) (c : Core) : (s.setCore k c).warps = s.warps := rfl
@[simp] theorem State.setCore_cores (s : State) (k : Nat) (c : Core) : (s.setCore k c).cores = tset s.cores k c := rfl
@[simp] theorem State.setCore_parts (s : State) (k : Nat) (c : Core) : (s.setCore k c).parts = s.parts := rfl
@[simp] theorem State.setCore_dies (s : State) (k : Nat) (c : Core) : (s.setCore k c).dies = s.dies := rfl
@[simp] theorem State.setCore_scratch (s : State) (k : Nat) (c : Core) : (s.setCore k c).scratch = s.scratch := rfl
@[simp] theorem State.setCore_bars (s : State) (k : Nat) (c : Core) : (s.setCore k c).bars = s.bars := rfl
@[simp] theorem State.setCore_ops (s : State) (k : Nat) (c : Core) : (s.setCore k c).ops = s.ops := rfl
@[simp] theorem State.setCore_traces (s : State) (k : Nat) (c : Core) : (s.setCore k c).traces = s.traces := rfl
@[simp] theorem State.setCore_queues (s : State) (k : Nat) (c : Core) : (s.setCore k c).queues = s.queues := rfl
@[simp] theorem State.setCore_hevents (s : State) (k : Nat) (c : Core) : (s.setCore k c).hevents = s.hevents := rfl
@[simp] theorem State.setCore_mailbox (s : State) (k : Nat) (c : Core) : (s.setCore k c).mailbox = s.mailbox := rfl
@[simp] theorem State.setCore_cmdQ (s : State) (k : Nat) (c : Core) : (s.setCore k c).cmdQ = s.cmdQ := rfl
@[simp] theorem State.setCore_rspQ (s : State) (k : Nat) (c : Core) : (s.setCore k c).rspQ = s.rspQ := rfl
@[simp] theorem State.setCore_mg (s : State) (k : Nat) (c : Core) : (s.setCore k c).mg = s.mg := rfl
@[simp] theorem State.setCore_faultInt (s : State) (k : Nat) (c : Core) : (s.setCore k c).faultInt = s.faultInt := rfl
@[simp] theorem State.setCore_errWin (s : State) (k : Nat) (c : Core) : (s.setCore k c).errWin = s.errWin := rfl
@[simp] theorem State.setCore_errHeld (s : State) (k : Nat) (c : Core) : (s.setCore k c).errHeld = s.errHeld := rfl
@[simp] theorem State.setCore_errDropped (s : State) (k : Nat) (c : Core) : (s.setCore k c).errDropped = s.errDropped := rfl
@[simp] theorem State.setCore_corrTotal (s : State) (k : Nat) (c : Core) : (s.setCore k c).corrTotal = s.corrTotal := rfl
@[simp] theorem State.setCore_gridsRetired (s : State) (k : Nat) (c : Core) : (s.setCore k c).gridsRetired = s.gridsRetired := rfl
@[simp] theorem State.setCore_outOfService (s : State) (k : Nat) (c : Core) : (s.setCore k c).outOfService = s.outOfService := rfl
@[simp] theorem State.setCore_poison (s : State) (k : Nat) (c : Core) : (s.setCore k c).poison = s.poison := rfl
@[simp] theorem State.setCore_links (s : State) (k : Nat) (c : Core) : (s.setCore k c).links = s.links := rfl
@[simp] theorem State.setCore_memTrained (s : State) (k : Nat) (c : Core) : (s.setCore k c).memTrained = s.memTrained := rfl
@[simp] theorem State.setCore_trust (s : State) (k : Nat) (c : Core) : (s.setCore k c).trust = s.trust := rfl
@[simp] theorem State.setCore_power (s : State) (k : Nat) (c : Core) : (s.setCore k c).power = s.power := rfl
@[simp] theorem State.setCore_peers (s : State) (k : Nat) (c : Core) : (s.setCore k c).peers = s.peers := rfl
@[simp] theorem State.setCore_peerOut (s : State) (k : Nat) (c : Core) : (s.setCore k c).peerOut = s.peerOut := rfl
@[simp] theorem State.setCore_pcieOut (s : State) (k : Nat) (c : Core) : (s.setCore k c).pcieOut = s.pcieOut := rfl
@[simp] theorem State.setCore_hostRead (s : State) (k : Nat) (c : Core) : (s.setCore k c).hostRead = s.hostRead := rfl
@[simp] theorem State.setCore_now (s : State) (k : Nat) (c : Core) : (s.setCore k c).now = s.now := rfl
@[simp] theorem State.setCore_ns (s : State) (k : Nat) (c : Core) : (s.setCore k c).ns = s.ns := rfl
@[simp] theorem State.setCore_resetNs (s : State) (k : Nat) (c : Core) : (s.setCore k c).resetNs = s.resetNs := rfl
@[simp] theorem State.setCore_cur (s : State) (k : Nat) (c : Core) : (s.setCore k c).cur = s.cur := rfl
@[simp] theorem State.setCore_inputs (s : State) (k : Nat) (c : Core) : (s.setCore k c).inputs = s.inputs := rfl
@[simp] theorem State.setCore_fresh (s : State) (k : Nat) (c : Core) : (s.setCore k c).fresh = s.fresh := rfl
@[simp] theorem State.setCore_nextId (s : State) (k : Nat) (c : Core) : (s.setCore k c).nextId = s.nextId := rfl

/-! ## `State.modCore` -/

@[simp] theorem State.modCore_mem (s : State) (k : Nat) (f : Core → Core) : (s.modCore k f).mem = s.mem := rfl
@[simp] theorem State.modCore_hist (s : State) (k : Nat) (f : Core → Core) : (s.modCore k f).hist = s.hist := rfl
@[simp] theorem State.modCore_tlb (s : State) (k : Nat) (f : Core → Core) : (s.modCore k f).tlb = s.tlb := rfl
@[simp] theorem State.modCore_walkCache (s : State) (k : Nat) (f : Core → Core) : (s.modCore k f).walkCache = s.walkCache := rfl
@[simp] theorem State.modCore_slices (s : State) (k : Nat) (f : Core → Core) : (s.modCore k f).slices = s.slices := rfl
@[simp] theorem State.modCore_asidBase (s : State) (k : Nat) (f : Core → Core) : (s.modCore k f).asidBase = s.asidBase := rfl
@[simp] theorem State.modCore_grids (s : State) (k : Nat) (f : Core → Core) : (s.modCore k f).grids = s.grids := rfl
@[simp] theorem State.modCore_nextGid (s : State) (k : Nat) (f : Core → Core) : (s.modCore k f).nextGid = s.nextGid := rfl
@[simp] theorem State.modCore_teams (s : State) (k : Nat) (f : Core → Core) : (s.modCore k f).teams = s.teams := rfl
@[simp] theorem State.modCore_nextTid (s : State) (k : Nat) (f : Core → Core) : (s.modCore k f).nextTid = s.nextTid := rfl
@[simp] theorem State.modCore_warps (s : State) (k : Nat) (f : Core → Core) : (s.modCore k f).warps = s.warps := rfl
@[simp] theorem State.modCore_cores (s : State) (k : Nat) (f : Core → Core) : (s.modCore k f).cores = tset s.cores k (f (s.core k)) := rfl
@[simp] theorem State.modCore_parts (s : State) (k : Nat) (f : Core → Core) : (s.modCore k f).parts = s.parts := rfl
@[simp] theorem State.modCore_dies (s : State) (k : Nat) (f : Core → Core) : (s.modCore k f).dies = s.dies := rfl
@[simp] theorem State.modCore_scratch (s : State) (k : Nat) (f : Core → Core) : (s.modCore k f).scratch = s.scratch := rfl
@[simp] theorem State.modCore_bars (s : State) (k : Nat) (f : Core → Core) : (s.modCore k f).bars = s.bars := rfl
@[simp] theorem State.modCore_ops (s : State) (k : Nat) (f : Core → Core) : (s.modCore k f).ops = s.ops := rfl
@[simp] theorem State.modCore_traces (s : State) (k : Nat) (f : Core → Core) : (s.modCore k f).traces = s.traces := rfl
@[simp] theorem State.modCore_queues (s : State) (k : Nat) (f : Core → Core) : (s.modCore k f).queues = s.queues := rfl
@[simp] theorem State.modCore_hevents (s : State) (k : Nat) (f : Core → Core) : (s.modCore k f).hevents = s.hevents := rfl
@[simp] theorem State.modCore_mailbox (s : State) (k : Nat) (f : Core → Core) : (s.modCore k f).mailbox = s.mailbox := rfl
@[simp] theorem State.modCore_cmdQ (s : State) (k : Nat) (f : Core → Core) : (s.modCore k f).cmdQ = s.cmdQ := rfl
@[simp] theorem State.modCore_rspQ (s : State) (k : Nat) (f : Core → Core) : (s.modCore k f).rspQ = s.rspQ := rfl
@[simp] theorem State.modCore_mg (s : State) (k : Nat) (f : Core → Core) : (s.modCore k f).mg = s.mg := rfl
@[simp] theorem State.modCore_faultInt (s : State) (k : Nat) (f : Core → Core) : (s.modCore k f).faultInt = s.faultInt := rfl
@[simp] theorem State.modCore_errWin (s : State) (k : Nat) (f : Core → Core) : (s.modCore k f).errWin = s.errWin := rfl
@[simp] theorem State.modCore_errHeld (s : State) (k : Nat) (f : Core → Core) : (s.modCore k f).errHeld = s.errHeld := rfl
@[simp] theorem State.modCore_errDropped (s : State) (k : Nat) (f : Core → Core) : (s.modCore k f).errDropped = s.errDropped := rfl
@[simp] theorem State.modCore_corrTotal (s : State) (k : Nat) (f : Core → Core) : (s.modCore k f).corrTotal = s.corrTotal := rfl
@[simp] theorem State.modCore_gridsRetired (s : State) (k : Nat) (f : Core → Core) : (s.modCore k f).gridsRetired = s.gridsRetired := rfl
@[simp] theorem State.modCore_outOfService (s : State) (k : Nat) (f : Core → Core) : (s.modCore k f).outOfService = s.outOfService := rfl
@[simp] theorem State.modCore_poison (s : State) (k : Nat) (f : Core → Core) : (s.modCore k f).poison = s.poison := rfl
@[simp] theorem State.modCore_links (s : State) (k : Nat) (f : Core → Core) : (s.modCore k f).links = s.links := rfl
@[simp] theorem State.modCore_memTrained (s : State) (k : Nat) (f : Core → Core) : (s.modCore k f).memTrained = s.memTrained := rfl
@[simp] theorem State.modCore_trust (s : State) (k : Nat) (f : Core → Core) : (s.modCore k f).trust = s.trust := rfl
@[simp] theorem State.modCore_power (s : State) (k : Nat) (f : Core → Core) : (s.modCore k f).power = s.power := rfl
@[simp] theorem State.modCore_peers (s : State) (k : Nat) (f : Core → Core) : (s.modCore k f).peers = s.peers := rfl
@[simp] theorem State.modCore_peerOut (s : State) (k : Nat) (f : Core → Core) : (s.modCore k f).peerOut = s.peerOut := rfl
@[simp] theorem State.modCore_pcieOut (s : State) (k : Nat) (f : Core → Core) : (s.modCore k f).pcieOut = s.pcieOut := rfl
@[simp] theorem State.modCore_hostRead (s : State) (k : Nat) (f : Core → Core) : (s.modCore k f).hostRead = s.hostRead := rfl
@[simp] theorem State.modCore_now (s : State) (k : Nat) (f : Core → Core) : (s.modCore k f).now = s.now := rfl
@[simp] theorem State.modCore_ns (s : State) (k : Nat) (f : Core → Core) : (s.modCore k f).ns = s.ns := rfl
@[simp] theorem State.modCore_resetNs (s : State) (k : Nat) (f : Core → Core) : (s.modCore k f).resetNs = s.resetNs := rfl
@[simp] theorem State.modCore_cur (s : State) (k : Nat) (f : Core → Core) : (s.modCore k f).cur = s.cur := rfl
@[simp] theorem State.modCore_inputs (s : State) (k : Nat) (f : Core → Core) : (s.modCore k f).inputs = s.inputs := rfl
@[simp] theorem State.modCore_fresh (s : State) (k : Nat) (f : Core → Core) : (s.modCore k f).fresh = s.fresh := rfl
@[simp] theorem State.modCore_nextId (s : State) (k : Nat) (f : Core → Core) : (s.modCore k f).nextId = s.nextId := rfl

/-! ## `State.modPart` -/

@[simp] theorem State.modPart_mem (s : State) (k : Nat) (f : Partition → Partition) : (s.modPart k f).mem = s.mem := rfl
@[simp] theorem State.modPart_hist (s : State) (k : Nat) (f : Partition → Partition) : (s.modPart k f).hist = s.hist := rfl
@[simp] theorem State.modPart_tlb (s : State) (k : Nat) (f : Partition → Partition) : (s.modPart k f).tlb = s.tlb := rfl
@[simp] theorem State.modPart_walkCache (s : State) (k : Nat) (f : Partition → Partition) : (s.modPart k f).walkCache = s.walkCache := rfl
@[simp] theorem State.modPart_slices (s : State) (k : Nat) (f : Partition → Partition) : (s.modPart k f).slices = s.slices := rfl
@[simp] theorem State.modPart_asidBase (s : State) (k : Nat) (f : Partition → Partition) : (s.modPart k f).asidBase = s.asidBase := rfl
@[simp] theorem State.modPart_grids (s : State) (k : Nat) (f : Partition → Partition) : (s.modPart k f).grids = s.grids := rfl
@[simp] theorem State.modPart_nextGid (s : State) (k : Nat) (f : Partition → Partition) : (s.modPart k f).nextGid = s.nextGid := rfl
@[simp] theorem State.modPart_teams (s : State) (k : Nat) (f : Partition → Partition) : (s.modPart k f).teams = s.teams := rfl
@[simp] theorem State.modPart_nextTid (s : State) (k : Nat) (f : Partition → Partition) : (s.modPart k f).nextTid = s.nextTid := rfl
@[simp] theorem State.modPart_warps (s : State) (k : Nat) (f : Partition → Partition) : (s.modPart k f).warps = s.warps := rfl
@[simp] theorem State.modPart_cores (s : State) (k : Nat) (f : Partition → Partition) : (s.modPart k f).cores = s.cores := rfl
@[simp] theorem State.modPart_parts (s : State) (k : Nat) (f : Partition → Partition) : (s.modPart k f).parts = tset s.parts k (f (s.part k)) := rfl
@[simp] theorem State.modPart_dies (s : State) (k : Nat) (f : Partition → Partition) : (s.modPart k f).dies = s.dies := rfl
@[simp] theorem State.modPart_scratch (s : State) (k : Nat) (f : Partition → Partition) : (s.modPart k f).scratch = s.scratch := rfl
@[simp] theorem State.modPart_bars (s : State) (k : Nat) (f : Partition → Partition) : (s.modPart k f).bars = s.bars := rfl
@[simp] theorem State.modPart_ops (s : State) (k : Nat) (f : Partition → Partition) : (s.modPart k f).ops = s.ops := rfl
@[simp] theorem State.modPart_traces (s : State) (k : Nat) (f : Partition → Partition) : (s.modPart k f).traces = s.traces := rfl
@[simp] theorem State.modPart_queues (s : State) (k : Nat) (f : Partition → Partition) : (s.modPart k f).queues = s.queues := rfl
@[simp] theorem State.modPart_hevents (s : State) (k : Nat) (f : Partition → Partition) : (s.modPart k f).hevents = s.hevents := rfl
@[simp] theorem State.modPart_mailbox (s : State) (k : Nat) (f : Partition → Partition) : (s.modPart k f).mailbox = s.mailbox := rfl
@[simp] theorem State.modPart_cmdQ (s : State) (k : Nat) (f : Partition → Partition) : (s.modPart k f).cmdQ = s.cmdQ := rfl
@[simp] theorem State.modPart_rspQ (s : State) (k : Nat) (f : Partition → Partition) : (s.modPart k f).rspQ = s.rspQ := rfl
@[simp] theorem State.modPart_mg (s : State) (k : Nat) (f : Partition → Partition) : (s.modPart k f).mg = s.mg := rfl
@[simp] theorem State.modPart_faultInt (s : State) (k : Nat) (f : Partition → Partition) : (s.modPart k f).faultInt = s.faultInt := rfl
@[simp] theorem State.modPart_errWin (s : State) (k : Nat) (f : Partition → Partition) : (s.modPart k f).errWin = s.errWin := rfl
@[simp] theorem State.modPart_errHeld (s : State) (k : Nat) (f : Partition → Partition) : (s.modPart k f).errHeld = s.errHeld := rfl
@[simp] theorem State.modPart_errDropped (s : State) (k : Nat) (f : Partition → Partition) : (s.modPart k f).errDropped = s.errDropped := rfl
@[simp] theorem State.modPart_corrTotal (s : State) (k : Nat) (f : Partition → Partition) : (s.modPart k f).corrTotal = s.corrTotal := rfl
@[simp] theorem State.modPart_gridsRetired (s : State) (k : Nat) (f : Partition → Partition) : (s.modPart k f).gridsRetired = s.gridsRetired := rfl
@[simp] theorem State.modPart_outOfService (s : State) (k : Nat) (f : Partition → Partition) : (s.modPart k f).outOfService = s.outOfService := rfl
@[simp] theorem State.modPart_poison (s : State) (k : Nat) (f : Partition → Partition) : (s.modPart k f).poison = s.poison := rfl
@[simp] theorem State.modPart_links (s : State) (k : Nat) (f : Partition → Partition) : (s.modPart k f).links = s.links := rfl
@[simp] theorem State.modPart_memTrained (s : State) (k : Nat) (f : Partition → Partition) : (s.modPart k f).memTrained = s.memTrained := rfl
@[simp] theorem State.modPart_trust (s : State) (k : Nat) (f : Partition → Partition) : (s.modPart k f).trust = s.trust := rfl
@[simp] theorem State.modPart_power (s : State) (k : Nat) (f : Partition → Partition) : (s.modPart k f).power = s.power := rfl
@[simp] theorem State.modPart_peers (s : State) (k : Nat) (f : Partition → Partition) : (s.modPart k f).peers = s.peers := rfl
@[simp] theorem State.modPart_peerOut (s : State) (k : Nat) (f : Partition → Partition) : (s.modPart k f).peerOut = s.peerOut := rfl
@[simp] theorem State.modPart_pcieOut (s : State) (k : Nat) (f : Partition → Partition) : (s.modPart k f).pcieOut = s.pcieOut := rfl
@[simp] theorem State.modPart_hostRead (s : State) (k : Nat) (f : Partition → Partition) : (s.modPart k f).hostRead = s.hostRead := rfl
@[simp] theorem State.modPart_now (s : State) (k : Nat) (f : Partition → Partition) : (s.modPart k f).now = s.now := rfl
@[simp] theorem State.modPart_ns (s : State) (k : Nat) (f : Partition → Partition) : (s.modPart k f).ns = s.ns := rfl
@[simp] theorem State.modPart_resetNs (s : State) (k : Nat) (f : Partition → Partition) : (s.modPart k f).resetNs = s.resetNs := rfl
@[simp] theorem State.modPart_cur (s : State) (k : Nat) (f : Partition → Partition) : (s.modPart k f).cur = s.cur := rfl
@[simp] theorem State.modPart_inputs (s : State) (k : Nat) (f : Partition → Partition) : (s.modPart k f).inputs = s.inputs := rfl
@[simp] theorem State.modPart_fresh (s : State) (k : Nat) (f : Partition → Partition) : (s.modPart k f).fresh = s.fresh := rfl
@[simp] theorem State.modPart_nextId (s : State) (k : Nat) (f : Partition → Partition) : (s.modPart k f).nextId = s.nextId := rfl

/-! ## `State.modDie` -/

@[simp] theorem State.modDie_mem (s : State) (k : Nat) (f : Die → Die) : (s.modDie k f).mem = s.mem := rfl
@[simp] theorem State.modDie_hist (s : State) (k : Nat) (f : Die → Die) : (s.modDie k f).hist = s.hist := rfl
@[simp] theorem State.modDie_tlb (s : State) (k : Nat) (f : Die → Die) : (s.modDie k f).tlb = s.tlb := rfl
@[simp] theorem State.modDie_walkCache (s : State) (k : Nat) (f : Die → Die) : (s.modDie k f).walkCache = s.walkCache := rfl
@[simp] theorem State.modDie_slices (s : State) (k : Nat) (f : Die → Die) : (s.modDie k f).slices = s.slices := rfl
@[simp] theorem State.modDie_asidBase (s : State) (k : Nat) (f : Die → Die) : (s.modDie k f).asidBase = s.asidBase := rfl
@[simp] theorem State.modDie_grids (s : State) (k : Nat) (f : Die → Die) : (s.modDie k f).grids = s.grids := rfl
@[simp] theorem State.modDie_nextGid (s : State) (k : Nat) (f : Die → Die) : (s.modDie k f).nextGid = s.nextGid := rfl
@[simp] theorem State.modDie_teams (s : State) (k : Nat) (f : Die → Die) : (s.modDie k f).teams = s.teams := rfl
@[simp] theorem State.modDie_nextTid (s : State) (k : Nat) (f : Die → Die) : (s.modDie k f).nextTid = s.nextTid := rfl
@[simp] theorem State.modDie_warps (s : State) (k : Nat) (f : Die → Die) : (s.modDie k f).warps = s.warps := rfl
@[simp] theorem State.modDie_cores (s : State) (k : Nat) (f : Die → Die) : (s.modDie k f).cores = s.cores := rfl
@[simp] theorem State.modDie_parts (s : State) (k : Nat) (f : Die → Die) : (s.modDie k f).parts = s.parts := rfl
@[simp] theorem State.modDie_dies (s : State) (k : Nat) (f : Die → Die) : (s.modDie k f).dies = tset s.dies k (f (s.die k)) := rfl
@[simp] theorem State.modDie_scratch (s : State) (k : Nat) (f : Die → Die) : (s.modDie k f).scratch = s.scratch := rfl
@[simp] theorem State.modDie_bars (s : State) (k : Nat) (f : Die → Die) : (s.modDie k f).bars = s.bars := rfl
@[simp] theorem State.modDie_ops (s : State) (k : Nat) (f : Die → Die) : (s.modDie k f).ops = s.ops := rfl
@[simp] theorem State.modDie_traces (s : State) (k : Nat) (f : Die → Die) : (s.modDie k f).traces = s.traces := rfl
@[simp] theorem State.modDie_queues (s : State) (k : Nat) (f : Die → Die) : (s.modDie k f).queues = s.queues := rfl
@[simp] theorem State.modDie_hevents (s : State) (k : Nat) (f : Die → Die) : (s.modDie k f).hevents = s.hevents := rfl
@[simp] theorem State.modDie_mailbox (s : State) (k : Nat) (f : Die → Die) : (s.modDie k f).mailbox = s.mailbox := rfl
@[simp] theorem State.modDie_cmdQ (s : State) (k : Nat) (f : Die → Die) : (s.modDie k f).cmdQ = s.cmdQ := rfl
@[simp] theorem State.modDie_rspQ (s : State) (k : Nat) (f : Die → Die) : (s.modDie k f).rspQ = s.rspQ := rfl
@[simp] theorem State.modDie_mg (s : State) (k : Nat) (f : Die → Die) : (s.modDie k f).mg = s.mg := rfl
@[simp] theorem State.modDie_faultInt (s : State) (k : Nat) (f : Die → Die) : (s.modDie k f).faultInt = s.faultInt := rfl
@[simp] theorem State.modDie_errWin (s : State) (k : Nat) (f : Die → Die) : (s.modDie k f).errWin = s.errWin := rfl
@[simp] theorem State.modDie_errHeld (s : State) (k : Nat) (f : Die → Die) : (s.modDie k f).errHeld = s.errHeld := rfl
@[simp] theorem State.modDie_errDropped (s : State) (k : Nat) (f : Die → Die) : (s.modDie k f).errDropped = s.errDropped := rfl
@[simp] theorem State.modDie_corrTotal (s : State) (k : Nat) (f : Die → Die) : (s.modDie k f).corrTotal = s.corrTotal := rfl
@[simp] theorem State.modDie_gridsRetired (s : State) (k : Nat) (f : Die → Die) : (s.modDie k f).gridsRetired = s.gridsRetired := rfl
@[simp] theorem State.modDie_outOfService (s : State) (k : Nat) (f : Die → Die) : (s.modDie k f).outOfService = s.outOfService := rfl
@[simp] theorem State.modDie_poison (s : State) (k : Nat) (f : Die → Die) : (s.modDie k f).poison = s.poison := rfl
@[simp] theorem State.modDie_links (s : State) (k : Nat) (f : Die → Die) : (s.modDie k f).links = s.links := rfl
@[simp] theorem State.modDie_memTrained (s : State) (k : Nat) (f : Die → Die) : (s.modDie k f).memTrained = s.memTrained := rfl
@[simp] theorem State.modDie_trust (s : State) (k : Nat) (f : Die → Die) : (s.modDie k f).trust = s.trust := rfl
@[simp] theorem State.modDie_power (s : State) (k : Nat) (f : Die → Die) : (s.modDie k f).power = s.power := rfl
@[simp] theorem State.modDie_peers (s : State) (k : Nat) (f : Die → Die) : (s.modDie k f).peers = s.peers := rfl
@[simp] theorem State.modDie_peerOut (s : State) (k : Nat) (f : Die → Die) : (s.modDie k f).peerOut = s.peerOut := rfl
@[simp] theorem State.modDie_pcieOut (s : State) (k : Nat) (f : Die → Die) : (s.modDie k f).pcieOut = s.pcieOut := rfl
@[simp] theorem State.modDie_hostRead (s : State) (k : Nat) (f : Die → Die) : (s.modDie k f).hostRead = s.hostRead := rfl
@[simp] theorem State.modDie_now (s : State) (k : Nat) (f : Die → Die) : (s.modDie k f).now = s.now := rfl
@[simp] theorem State.modDie_ns (s : State) (k : Nat) (f : Die → Die) : (s.modDie k f).ns = s.ns := rfl
@[simp] theorem State.modDie_resetNs (s : State) (k : Nat) (f : Die → Die) : (s.modDie k f).resetNs = s.resetNs := rfl
@[simp] theorem State.modDie_cur (s : State) (k : Nat) (f : Die → Die) : (s.modDie k f).cur = s.cur := rfl
@[simp] theorem State.modDie_inputs (s : State) (k : Nat) (f : Die → Die) : (s.modDie k f).inputs = s.inputs := rfl
@[simp] theorem State.modDie_fresh (s : State) (k : Nat) (f : Die → Die) : (s.modDie k f).fresh = s.fresh := rfl
@[simp] theorem State.modDie_nextId (s : State) (k : Nat) (f : Die → Die) : (s.modDie k f).nextId = s.nextId := rfl

/-! ## `State.modHall` -/

@[simp] theorem State.modHall_mem (s : State) (d h : Nat) (f : Hall → Hall) : (s.modHall d h f).mem = s.mem := rfl
@[simp] theorem State.modHall_hist (s : State) (d h : Nat) (f : Hall → Hall) : (s.modHall d h f).hist = s.hist := rfl
@[simp] theorem State.modHall_tlb (s : State) (d h : Nat) (f : Hall → Hall) : (s.modHall d h f).tlb = s.tlb := rfl
@[simp] theorem State.modHall_walkCache (s : State) (d h : Nat) (f : Hall → Hall) : (s.modHall d h f).walkCache = s.walkCache := rfl
@[simp] theorem State.modHall_slices (s : State) (d h : Nat) (f : Hall → Hall) : (s.modHall d h f).slices = s.slices := rfl
@[simp] theorem State.modHall_asidBase (s : State) (d h : Nat) (f : Hall → Hall) : (s.modHall d h f).asidBase = s.asidBase := rfl
@[simp] theorem State.modHall_grids (s : State) (d h : Nat) (f : Hall → Hall) : (s.modHall d h f).grids = s.grids := rfl
@[simp] theorem State.modHall_nextGid (s : State) (d h : Nat) (f : Hall → Hall) : (s.modHall d h f).nextGid = s.nextGid := rfl
@[simp] theorem State.modHall_teams (s : State) (d h : Nat) (f : Hall → Hall) : (s.modHall d h f).teams = s.teams := rfl
@[simp] theorem State.modHall_nextTid (s : State) (d h : Nat) (f : Hall → Hall) : (s.modHall d h f).nextTid = s.nextTid := rfl
@[simp] theorem State.modHall_warps (s : State) (d h : Nat) (f : Hall → Hall) : (s.modHall d h f).warps = s.warps := rfl
@[simp] theorem State.modHall_cores (s : State) (d h : Nat) (f : Hall → Hall) : (s.modHall d h f).cores = s.cores := rfl
@[simp] theorem State.modHall_parts (s : State) (d h : Nat) (f : Hall → Hall) : (s.modHall d h f).parts = s.parts := rfl
@[simp] theorem State.modHall_dies (s : State) (d h : Nat) (f : Hall → Hall) : (s.modHall d h f).dies = tset s.dies d { s.die d with halls := tset (s.die d).halls h (f ((s.die d).hall h)) } := rfl
@[simp] theorem State.modHall_scratch (s : State) (d h : Nat) (f : Hall → Hall) : (s.modHall d h f).scratch = s.scratch := rfl
@[simp] theorem State.modHall_bars (s : State) (d h : Nat) (f : Hall → Hall) : (s.modHall d h f).bars = s.bars := rfl
@[simp] theorem State.modHall_ops (s : State) (d h : Nat) (f : Hall → Hall) : (s.modHall d h f).ops = s.ops := rfl
@[simp] theorem State.modHall_traces (s : State) (d h : Nat) (f : Hall → Hall) : (s.modHall d h f).traces = s.traces := rfl
@[simp] theorem State.modHall_queues (s : State) (d h : Nat) (f : Hall → Hall) : (s.modHall d h f).queues = s.queues := rfl
@[simp] theorem State.modHall_hevents (s : State) (d h : Nat) (f : Hall → Hall) : (s.modHall d h f).hevents = s.hevents := rfl
@[simp] theorem State.modHall_mailbox (s : State) (d h : Nat) (f : Hall → Hall) : (s.modHall d h f).mailbox = s.mailbox := rfl
@[simp] theorem State.modHall_cmdQ (s : State) (d h : Nat) (f : Hall → Hall) : (s.modHall d h f).cmdQ = s.cmdQ := rfl
@[simp] theorem State.modHall_rspQ (s : State) (d h : Nat) (f : Hall → Hall) : (s.modHall d h f).rspQ = s.rspQ := rfl
@[simp] theorem State.modHall_mg (s : State) (d h : Nat) (f : Hall → Hall) : (s.modHall d h f).mg = s.mg := rfl
@[simp] theorem State.modHall_faultInt (s : State) (d h : Nat) (f : Hall → Hall) : (s.modHall d h f).faultInt = s.faultInt := rfl
@[simp] theorem State.modHall_errWin (s : State) (d h : Nat) (f : Hall → Hall) : (s.modHall d h f).errWin = s.errWin := rfl
@[simp] theorem State.modHall_errHeld (s : State) (d h : Nat) (f : Hall → Hall) : (s.modHall d h f).errHeld = s.errHeld := rfl
@[simp] theorem State.modHall_errDropped (s : State) (d h : Nat) (f : Hall → Hall) : (s.modHall d h f).errDropped = s.errDropped := rfl
@[simp] theorem State.modHall_corrTotal (s : State) (d h : Nat) (f : Hall → Hall) : (s.modHall d h f).corrTotal = s.corrTotal := rfl
@[simp] theorem State.modHall_gridsRetired (s : State) (d h : Nat) (f : Hall → Hall) : (s.modHall d h f).gridsRetired = s.gridsRetired := rfl
@[simp] theorem State.modHall_outOfService (s : State) (d h : Nat) (f : Hall → Hall) : (s.modHall d h f).outOfService = s.outOfService := rfl
@[simp] theorem State.modHall_poison (s : State) (d h : Nat) (f : Hall → Hall) : (s.modHall d h f).poison = s.poison := rfl
@[simp] theorem State.modHall_links (s : State) (d h : Nat) (f : Hall → Hall) : (s.modHall d h f).links = s.links := rfl
@[simp] theorem State.modHall_memTrained (s : State) (d h : Nat) (f : Hall → Hall) : (s.modHall d h f).memTrained = s.memTrained := rfl
@[simp] theorem State.modHall_trust (s : State) (d h : Nat) (f : Hall → Hall) : (s.modHall d h f).trust = s.trust := rfl
@[simp] theorem State.modHall_power (s : State) (d h : Nat) (f : Hall → Hall) : (s.modHall d h f).power = s.power := rfl
@[simp] theorem State.modHall_peers (s : State) (d h : Nat) (f : Hall → Hall) : (s.modHall d h f).peers = s.peers := rfl
@[simp] theorem State.modHall_peerOut (s : State) (d h : Nat) (f : Hall → Hall) : (s.modHall d h f).peerOut = s.peerOut := rfl
@[simp] theorem State.modHall_pcieOut (s : State) (d h : Nat) (f : Hall → Hall) : (s.modHall d h f).pcieOut = s.pcieOut := rfl
@[simp] theorem State.modHall_hostRead (s : State) (d h : Nat) (f : Hall → Hall) : (s.modHall d h f).hostRead = s.hostRead := rfl
@[simp] theorem State.modHall_now (s : State) (d h : Nat) (f : Hall → Hall) : (s.modHall d h f).now = s.now := rfl
@[simp] theorem State.modHall_ns (s : State) (d h : Nat) (f : Hall → Hall) : (s.modHall d h f).ns = s.ns := rfl
@[simp] theorem State.modHall_resetNs (s : State) (d h : Nat) (f : Hall → Hall) : (s.modHall d h f).resetNs = s.resetNs := rfl
@[simp] theorem State.modHall_cur (s : State) (d h : Nat) (f : Hall → Hall) : (s.modHall d h f).cur = s.cur := rfl
@[simp] theorem State.modHall_inputs (s : State) (d h : Nat) (f : Hall → Hall) : (s.modHall d h f).inputs = s.inputs := rfl
@[simp] theorem State.modHall_fresh (s : State) (d h : Nat) (f : Hall → Hall) : (s.modHall d h f).fresh = s.fresh := rfl
@[simp] theorem State.modHall_nextId (s : State) (d h : Nat) (f : Hall → Hall) : (s.modHall d h f).nextId = s.nextId := rfl

/-! ## `State.modQueue` -/

@[simp] theorem State.modQueue_mem (s : State) (q : Nat) (f : Queue → Queue) : (s.modQueue q f).mem = s.mem := rfl
@[simp] theorem State.modQueue_hist (s : State) (q : Nat) (f : Queue → Queue) : (s.modQueue q f).hist = s.hist := rfl
@[simp] theorem State.modQueue_tlb (s : State) (q : Nat) (f : Queue → Queue) : (s.modQueue q f).tlb = s.tlb := rfl
@[simp] theorem State.modQueue_walkCache (s : State) (q : Nat) (f : Queue → Queue) : (s.modQueue q f).walkCache = s.walkCache := rfl
@[simp] theorem State.modQueue_slices (s : State) (q : Nat) (f : Queue → Queue) : (s.modQueue q f).slices = s.slices := rfl
@[simp] theorem State.modQueue_asidBase (s : State) (q : Nat) (f : Queue → Queue) : (s.modQueue q f).asidBase = s.asidBase := rfl
@[simp] theorem State.modQueue_grids (s : State) (q : Nat) (f : Queue → Queue) : (s.modQueue q f).grids = s.grids := rfl
@[simp] theorem State.modQueue_nextGid (s : State) (q : Nat) (f : Queue → Queue) : (s.modQueue q f).nextGid = s.nextGid := rfl
@[simp] theorem State.modQueue_teams (s : State) (q : Nat) (f : Queue → Queue) : (s.modQueue q f).teams = s.teams := rfl
@[simp] theorem State.modQueue_nextTid (s : State) (q : Nat) (f : Queue → Queue) : (s.modQueue q f).nextTid = s.nextTid := rfl
@[simp] theorem State.modQueue_warps (s : State) (q : Nat) (f : Queue → Queue) : (s.modQueue q f).warps = s.warps := rfl
@[simp] theorem State.modQueue_cores (s : State) (q : Nat) (f : Queue → Queue) : (s.modQueue q f).cores = s.cores := rfl
@[simp] theorem State.modQueue_parts (s : State) (q : Nat) (f : Queue → Queue) : (s.modQueue q f).parts = s.parts := rfl
@[simp] theorem State.modQueue_dies (s : State) (q : Nat) (f : Queue → Queue) : (s.modQueue q f).dies = s.dies := rfl
@[simp] theorem State.modQueue_scratch (s : State) (q : Nat) (f : Queue → Queue) : (s.modQueue q f).scratch = s.scratch := rfl
@[simp] theorem State.modQueue_bars (s : State) (q : Nat) (f : Queue → Queue) : (s.modQueue q f).bars = s.bars := rfl
@[simp] theorem State.modQueue_ops (s : State) (q : Nat) (f : Queue → Queue) : (s.modQueue q f).ops = s.ops := rfl
@[simp] theorem State.modQueue_traces (s : State) (q : Nat) (f : Queue → Queue) : (s.modQueue q f).traces = s.traces := rfl
@[simp] theorem State.modQueue_queues (s : State) (q : Nat) (f : Queue → Queue) : (s.modQueue q f).queues = tmod s.queues q f := rfl
@[simp] theorem State.modQueue_hevents (s : State) (q : Nat) (f : Queue → Queue) : (s.modQueue q f).hevents = s.hevents := rfl
@[simp] theorem State.modQueue_mailbox (s : State) (q : Nat) (f : Queue → Queue) : (s.modQueue q f).mailbox = s.mailbox := rfl
@[simp] theorem State.modQueue_cmdQ (s : State) (q : Nat) (f : Queue → Queue) : (s.modQueue q f).cmdQ = s.cmdQ := rfl
@[simp] theorem State.modQueue_rspQ (s : State) (q : Nat) (f : Queue → Queue) : (s.modQueue q f).rspQ = s.rspQ := rfl
@[simp] theorem State.modQueue_mg (s : State) (q : Nat) (f : Queue → Queue) : (s.modQueue q f).mg = s.mg := rfl
@[simp] theorem State.modQueue_faultInt (s : State) (q : Nat) (f : Queue → Queue) : (s.modQueue q f).faultInt = s.faultInt := rfl
@[simp] theorem State.modQueue_errWin (s : State) (q : Nat) (f : Queue → Queue) : (s.modQueue q f).errWin = s.errWin := rfl
@[simp] theorem State.modQueue_errHeld (s : State) (q : Nat) (f : Queue → Queue) : (s.modQueue q f).errHeld = s.errHeld := rfl
@[simp] theorem State.modQueue_errDropped (s : State) (q : Nat) (f : Queue → Queue) : (s.modQueue q f).errDropped = s.errDropped := rfl
@[simp] theorem State.modQueue_corrTotal (s : State) (q : Nat) (f : Queue → Queue) : (s.modQueue q f).corrTotal = s.corrTotal := rfl
@[simp] theorem State.modQueue_gridsRetired (s : State) (q : Nat) (f : Queue → Queue) : (s.modQueue q f).gridsRetired = s.gridsRetired := rfl
@[simp] theorem State.modQueue_outOfService (s : State) (q : Nat) (f : Queue → Queue) : (s.modQueue q f).outOfService = s.outOfService := rfl
@[simp] theorem State.modQueue_poison (s : State) (q : Nat) (f : Queue → Queue) : (s.modQueue q f).poison = s.poison := rfl
@[simp] theorem State.modQueue_links (s : State) (q : Nat) (f : Queue → Queue) : (s.modQueue q f).links = s.links := rfl
@[simp] theorem State.modQueue_memTrained (s : State) (q : Nat) (f : Queue → Queue) : (s.modQueue q f).memTrained = s.memTrained := rfl
@[simp] theorem State.modQueue_trust (s : State) (q : Nat) (f : Queue → Queue) : (s.modQueue q f).trust = s.trust := rfl
@[simp] theorem State.modQueue_power (s : State) (q : Nat) (f : Queue → Queue) : (s.modQueue q f).power = s.power := rfl
@[simp] theorem State.modQueue_peers (s : State) (q : Nat) (f : Queue → Queue) : (s.modQueue q f).peers = s.peers := rfl
@[simp] theorem State.modQueue_peerOut (s : State) (q : Nat) (f : Queue → Queue) : (s.modQueue q f).peerOut = s.peerOut := rfl
@[simp] theorem State.modQueue_pcieOut (s : State) (q : Nat) (f : Queue → Queue) : (s.modQueue q f).pcieOut = s.pcieOut := rfl
@[simp] theorem State.modQueue_hostRead (s : State) (q : Nat) (f : Queue → Queue) : (s.modQueue q f).hostRead = s.hostRead := rfl
@[simp] theorem State.modQueue_now (s : State) (q : Nat) (f : Queue → Queue) : (s.modQueue q f).now = s.now := rfl
@[simp] theorem State.modQueue_ns (s : State) (q : Nat) (f : Queue → Queue) : (s.modQueue q f).ns = s.ns := rfl
@[simp] theorem State.modQueue_resetNs (s : State) (q : Nat) (f : Queue → Queue) : (s.modQueue q f).resetNs = s.resetNs := rfl
@[simp] theorem State.modQueue_cur (s : State) (q : Nat) (f : Queue → Queue) : (s.modQueue q f).cur = s.cur := rfl
@[simp] theorem State.modQueue_inputs (s : State) (q : Nat) (f : Queue → Queue) : (s.modQueue q f).inputs = s.inputs := rfl
@[simp] theorem State.modQueue_fresh (s : State) (q : Nat) (f : Queue → Queue) : (s.modQueue q f).fresh = s.fresh := rfl
@[simp] theorem State.modQueue_nextId (s : State) (q : Nat) (f : Queue → Queue) : (s.modQueue q f).nextId = s.nextId := rfl

/-! ## `State.report` -/

@[simp] theorem State.report_mem (s : State) (e : HEvent) : (s.report e).mem = s.mem := rfl
@[simp] theorem State.report_hist (s : State) (e : HEvent) : (s.report e).hist = s.hist := rfl
@[simp] theorem State.report_tlb (s : State) (e : HEvent) : (s.report e).tlb = s.tlb := rfl
@[simp] theorem State.report_walkCache (s : State) (e : HEvent) : (s.report e).walkCache = s.walkCache := rfl
@[simp] theorem State.report_slices (s : State) (e : HEvent) : (s.report e).slices = s.slices := rfl
@[simp] theorem State.report_asidBase (s : State) (e : HEvent) : (s.report e).asidBase = s.asidBase := rfl
@[simp] theorem State.report_grids (s : State) (e : HEvent) : (s.report e).grids = s.grids := rfl
@[simp] theorem State.report_nextGid (s : State) (e : HEvent) : (s.report e).nextGid = s.nextGid := rfl
@[simp] theorem State.report_teams (s : State) (e : HEvent) : (s.report e).teams = s.teams := rfl
@[simp] theorem State.report_nextTid (s : State) (e : HEvent) : (s.report e).nextTid = s.nextTid := rfl
@[simp] theorem State.report_warps (s : State) (e : HEvent) : (s.report e).warps = s.warps := rfl
@[simp] theorem State.report_cores (s : State) (e : HEvent) : (s.report e).cores = s.cores := rfl
@[simp] theorem State.report_parts (s : State) (e : HEvent) : (s.report e).parts = s.parts := rfl
@[simp] theorem State.report_dies (s : State) (e : HEvent) : (s.report e).dies = s.dies := rfl
@[simp] theorem State.report_scratch (s : State) (e : HEvent) : (s.report e).scratch = s.scratch := rfl
@[simp] theorem State.report_bars (s : State) (e : HEvent) : (s.report e).bars = s.bars := rfl
@[simp] theorem State.report_ops (s : State) (e : HEvent) : (s.report e).ops = s.ops := rfl
@[simp] theorem State.report_traces (s : State) (e : HEvent) : (s.report e).traces = s.traces := rfl
@[simp] theorem State.report_queues (s : State) (e : HEvent) : (s.report e).queues = s.queues := rfl
@[simp] theorem State.report_hevents (s : State) (e : HEvent) : (s.report e).hevents = s.hevents ++ [e] := rfl
@[simp] theorem State.report_mailbox (s : State) (e : HEvent) : (s.report e).mailbox = s.mailbox := rfl
@[simp] theorem State.report_cmdQ (s : State) (e : HEvent) : (s.report e).cmdQ = s.cmdQ := rfl
@[simp] theorem State.report_rspQ (s : State) (e : HEvent) : (s.report e).rspQ = s.rspQ := rfl
@[simp] theorem State.report_mg (s : State) (e : HEvent) : (s.report e).mg = s.mg := rfl
@[simp] theorem State.report_faultInt (s : State) (e : HEvent) : (s.report e).faultInt = s.faultInt := rfl
@[simp] theorem State.report_errWin (s : State) (e : HEvent) : (s.report e).errWin = s.errWin := rfl
@[simp] theorem State.report_errHeld (s : State) (e : HEvent) : (s.report e).errHeld = s.errHeld := rfl
@[simp] theorem State.report_errDropped (s : State) (e : HEvent) : (s.report e).errDropped = s.errDropped := rfl
@[simp] theorem State.report_corrTotal (s : State) (e : HEvent) : (s.report e).corrTotal = s.corrTotal := rfl
@[simp] theorem State.report_gridsRetired (s : State) (e : HEvent) : (s.report e).gridsRetired = s.gridsRetired := rfl
@[simp] theorem State.report_outOfService (s : State) (e : HEvent) : (s.report e).outOfService = s.outOfService := rfl
@[simp] theorem State.report_poison (s : State) (e : HEvent) : (s.report e).poison = s.poison := rfl
@[simp] theorem State.report_links (s : State) (e : HEvent) : (s.report e).links = s.links := rfl
@[simp] theorem State.report_memTrained (s : State) (e : HEvent) : (s.report e).memTrained = s.memTrained := rfl
@[simp] theorem State.report_trust (s : State) (e : HEvent) : (s.report e).trust = s.trust := rfl
@[simp] theorem State.report_power (s : State) (e : HEvent) : (s.report e).power = s.power := rfl
@[simp] theorem State.report_peers (s : State) (e : HEvent) : (s.report e).peers = s.peers := rfl
@[simp] theorem State.report_peerOut (s : State) (e : HEvent) : (s.report e).peerOut = s.peerOut := rfl
@[simp] theorem State.report_pcieOut (s : State) (e : HEvent) : (s.report e).pcieOut = s.pcieOut := rfl
@[simp] theorem State.report_hostRead (s : State) (e : HEvent) : (s.report e).hostRead = s.hostRead := rfl
@[simp] theorem State.report_now (s : State) (e : HEvent) : (s.report e).now = s.now := rfl
@[simp] theorem State.report_ns (s : State) (e : HEvent) : (s.report e).ns = s.ns := rfl
@[simp] theorem State.report_resetNs (s : State) (e : HEvent) : (s.report e).resetNs = s.resetNs := rfl
@[simp] theorem State.report_cur (s : State) (e : HEvent) : (s.report e).cur = s.cur := rfl
@[simp] theorem State.report_inputs (s : State) (e : HEvent) : (s.report e).inputs = s.inputs := rfl
@[simp] theorem State.report_fresh (s : State) (e : HEvent) : (s.report e).fresh = s.fresh := rfl
@[simp] theorem State.report_nextId (s : State) (e : HEvent) : (s.report e).nextId = s.nextId := rfl

/-! ## `State.poke` -/

@[simp] theorem State.poke_mem (s : State) (a : Nat) (b : Byte) : (s.poke a b).mem = memSet s.mem a b := rfl
@[simp] theorem State.poke_hist (s : State) (a : Nat) (b : Byte) : (s.poke a b).hist = (a, s.byte a) :: s.hist := rfl
@[simp] theorem State.poke_tlb (s : State) (a : Nat) (b : Byte) : (s.poke a b).tlb = s.tlb := rfl
@[simp] theorem State.poke_walkCache (s : State) (a : Nat) (b : Byte) : (s.poke a b).walkCache = s.walkCache := rfl
@[simp] theorem State.poke_slices (s : State) (a : Nat) (b : Byte) : (s.poke a b).slices = s.slices := rfl
@[simp] theorem State.poke_asidBase (s : State) (a : Nat) (b : Byte) : (s.poke a b).asidBase = s.asidBase := rfl
@[simp] theorem State.poke_grids (s : State) (a : Nat) (b : Byte) : (s.poke a b).grids = s.grids := rfl
@[simp] theorem State.poke_nextGid (s : State) (a : Nat) (b : Byte) : (s.poke a b).nextGid = s.nextGid := rfl
@[simp] theorem State.poke_teams (s : State) (a : Nat) (b : Byte) : (s.poke a b).teams = s.teams := rfl
@[simp] theorem State.poke_nextTid (s : State) (a : Nat) (b : Byte) : (s.poke a b).nextTid = s.nextTid := rfl
@[simp] theorem State.poke_warps (s : State) (a : Nat) (b : Byte) : (s.poke a b).warps = s.warps := rfl
@[simp] theorem State.poke_cores (s : State) (a : Nat) (b : Byte) : (s.poke a b).cores = s.cores := rfl
@[simp] theorem State.poke_parts (s : State) (a : Nat) (b : Byte) : (s.poke a b).parts = s.parts := rfl
@[simp] theorem State.poke_dies (s : State) (a : Nat) (b : Byte) : (s.poke a b).dies = s.dies := rfl
@[simp] theorem State.poke_scratch (s : State) (a : Nat) (b : Byte) : (s.poke a b).scratch = s.scratch := rfl
@[simp] theorem State.poke_bars (s : State) (a : Nat) (b : Byte) : (s.poke a b).bars = s.bars := rfl
@[simp] theorem State.poke_ops (s : State) (a : Nat) (b : Byte) : (s.poke a b).ops = s.ops := rfl
@[simp] theorem State.poke_traces (s : State) (a : Nat) (b : Byte) : (s.poke a b).traces = s.traces := rfl
@[simp] theorem State.poke_queues (s : State) (a : Nat) (b : Byte) : (s.poke a b).queues = s.queues := rfl
@[simp] theorem State.poke_hevents (s : State) (a : Nat) (b : Byte) : (s.poke a b).hevents = s.hevents := rfl
@[simp] theorem State.poke_mailbox (s : State) (a : Nat) (b : Byte) : (s.poke a b).mailbox = s.mailbox := rfl
@[simp] theorem State.poke_cmdQ (s : State) (a : Nat) (b : Byte) : (s.poke a b).cmdQ = s.cmdQ := rfl
@[simp] theorem State.poke_rspQ (s : State) (a : Nat) (b : Byte) : (s.poke a b).rspQ = s.rspQ := rfl
@[simp] theorem State.poke_mg (s : State) (a : Nat) (b : Byte) : (s.poke a b).mg = s.mg := rfl
@[simp] theorem State.poke_faultInt (s : State) (a : Nat) (b : Byte) : (s.poke a b).faultInt = s.faultInt := rfl
@[simp] theorem State.poke_errWin (s : State) (a : Nat) (b : Byte) : (s.poke a b).errWin = s.errWin := rfl
@[simp] theorem State.poke_errHeld (s : State) (a : Nat) (b : Byte) : (s.poke a b).errHeld = s.errHeld := rfl
@[simp] theorem State.poke_errDropped (s : State) (a : Nat) (b : Byte) : (s.poke a b).errDropped = s.errDropped := rfl
@[simp] theorem State.poke_corrTotal (s : State) (a : Nat) (b : Byte) : (s.poke a b).corrTotal = s.corrTotal := rfl
@[simp] theorem State.poke_gridsRetired (s : State) (a : Nat) (b : Byte) : (s.poke a b).gridsRetired = s.gridsRetired := rfl
@[simp] theorem State.poke_outOfService (s : State) (a : Nat) (b : Byte) : (s.poke a b).outOfService = s.outOfService := rfl
@[simp] theorem State.poke_poison (s : State) (a : Nat) (b : Byte) : (s.poke a b).poison = s.poison := rfl
@[simp] theorem State.poke_links (s : State) (a : Nat) (b : Byte) : (s.poke a b).links = s.links := rfl
@[simp] theorem State.poke_memTrained (s : State) (a : Nat) (b : Byte) : (s.poke a b).memTrained = s.memTrained := rfl
@[simp] theorem State.poke_trust (s : State) (a : Nat) (b : Byte) : (s.poke a b).trust = s.trust := rfl
@[simp] theorem State.poke_power (s : State) (a : Nat) (b : Byte) : (s.poke a b).power = s.power := rfl
@[simp] theorem State.poke_peers (s : State) (a : Nat) (b : Byte) : (s.poke a b).peers = s.peers := rfl
@[simp] theorem State.poke_peerOut (s : State) (a : Nat) (b : Byte) : (s.poke a b).peerOut = s.peerOut := rfl
@[simp] theorem State.poke_pcieOut (s : State) (a : Nat) (b : Byte) : (s.poke a b).pcieOut = s.pcieOut := rfl
@[simp] theorem State.poke_hostRead (s : State) (a : Nat) (b : Byte) : (s.poke a b).hostRead = s.hostRead := rfl
@[simp] theorem State.poke_now (s : State) (a : Nat) (b : Byte) : (s.poke a b).now = s.now := rfl
@[simp] theorem State.poke_ns (s : State) (a : Nat) (b : Byte) : (s.poke a b).ns = s.ns := rfl
@[simp] theorem State.poke_resetNs (s : State) (a : Nat) (b : Byte) : (s.poke a b).resetNs = s.resetNs := rfl
@[simp] theorem State.poke_cur (s : State) (a : Nat) (b : Byte) : (s.poke a b).cur = s.cur := rfl
@[simp] theorem State.poke_inputs (s : State) (a : Nat) (b : Byte) : (s.poke a b).inputs = s.inputs := rfl
@[simp] theorem State.poke_fresh (s : State) (a : Nat) (b : Byte) : (s.poke a b).fresh = s.fresh := rfl
@[simp] theorem State.poke_nextId (s : State) (a : Nat) (b : Byte) : (s.poke a b).nextId = s.nextId := rfl

/-! ## `State.pass` -/

@[simp] theorem State.pass_mem (s : State) : (s.pass).mem = s.mem := rfl
@[simp] theorem State.pass_hist (s : State) : (s.pass).hist = s.hist := rfl
@[simp] theorem State.pass_tlb (s : State) : (s.pass).tlb = s.tlb := rfl
@[simp] theorem State.pass_walkCache (s : State) : (s.pass).walkCache = s.walkCache := rfl
@[simp] theorem State.pass_slices (s : State) : (s.pass).slices = s.slices := rfl
@[simp] theorem State.pass_asidBase (s : State) : (s.pass).asidBase = s.asidBase := rfl
@[simp] theorem State.pass_grids (s : State) : (s.pass).grids = s.grids := rfl
@[simp] theorem State.pass_nextGid (s : State) : (s.pass).nextGid = s.nextGid := rfl
@[simp] theorem State.pass_teams (s : State) : (s.pass).teams = s.teams := rfl
@[simp] theorem State.pass_nextTid (s : State) : (s.pass).nextTid = s.nextTid := rfl
@[simp] theorem State.pass_warps (s : State) : (s.pass).warps = s.warps := rfl
@[simp] theorem State.pass_cores (s : State) : (s.pass).cores = s.cores := rfl
@[simp] theorem State.pass_parts (s : State) : (s.pass).parts = s.parts := rfl
@[simp] theorem State.pass_dies (s : State) : (s.pass).dies = s.dies := rfl
@[simp] theorem State.pass_scratch (s : State) : (s.pass).scratch = s.scratch := rfl
@[simp] theorem State.pass_bars (s : State) : (s.pass).bars = s.bars := rfl
@[simp] theorem State.pass_ops (s : State) : (s.pass).ops = s.ops := rfl
@[simp] theorem State.pass_traces (s : State) : (s.pass).traces = s.traces := rfl
@[simp] theorem State.pass_queues (s : State) : (s.pass).queues = s.queues := rfl
@[simp] theorem State.pass_hevents (s : State) : (s.pass).hevents = s.hevents := rfl
@[simp] theorem State.pass_mailbox (s : State) : (s.pass).mailbox = s.mailbox := rfl
@[simp] theorem State.pass_cmdQ (s : State) : (s.pass).cmdQ = s.cmdQ := rfl
@[simp] theorem State.pass_rspQ (s : State) : (s.pass).rspQ = s.rspQ := rfl
@[simp] theorem State.pass_mg (s : State) : (s.pass).mg = s.mg := rfl
@[simp] theorem State.pass_faultInt (s : State) : (s.pass).faultInt = s.faultInt := rfl
@[simp] theorem State.pass_errWin (s : State) : (s.pass).errWin = s.errWin := rfl
@[simp] theorem State.pass_errHeld (s : State) : (s.pass).errHeld = s.errHeld := rfl
@[simp] theorem State.pass_errDropped (s : State) : (s.pass).errDropped = s.errDropped := rfl
@[simp] theorem State.pass_corrTotal (s : State) : (s.pass).corrTotal = s.corrTotal := rfl
@[simp] theorem State.pass_gridsRetired (s : State) : (s.pass).gridsRetired = s.gridsRetired := rfl
@[simp] theorem State.pass_outOfService (s : State) : (s.pass).outOfService = s.outOfService := rfl
@[simp] theorem State.pass_poison (s : State) : (s.pass).poison = s.poison := rfl
@[simp] theorem State.pass_links (s : State) : (s.pass).links = s.links := rfl
@[simp] theorem State.pass_memTrained (s : State) : (s.pass).memTrained = s.memTrained := rfl
@[simp] theorem State.pass_trust (s : State) : (s.pass).trust = s.trust := rfl
@[simp] theorem State.pass_power (s : State) : (s.pass).power = s.power := rfl
@[simp] theorem State.pass_peers (s : State) : (s.pass).peers = s.peers := rfl
@[simp] theorem State.pass_peerOut (s : State) : (s.pass).peerOut = s.peerOut := rfl
@[simp] theorem State.pass_pcieOut (s : State) : (s.pass).pcieOut = s.pcieOut := rfl
@[simp] theorem State.pass_hostRead (s : State) : (s.pass).hostRead = s.hostRead := rfl
@[simp] theorem State.pass_now (s : State) : (s.pass).now = s.now + Config.freeCycles s.fresh + 1 := rfl
@[simp] theorem State.pass_ns (s : State) : (s.pass).ns = s.ns + Config.freeNs s.fresh := rfl
@[simp] theorem State.pass_resetNs (s : State) : (s.pass).resetNs = s.resetNs := rfl
@[simp] theorem State.pass_cur (s : State) : (s.pass).cur = s.cur := rfl
@[simp] theorem State.pass_inputs (s : State) : (s.pass).inputs = s.inputs := rfl
@[simp] theorem State.pass_fresh (s : State) : (s.pass).fresh = s.fresh + 1 := rfl
@[simp] theorem State.pass_nextId (s : State) : (s.pass).nextId = s.nextId := rfl

/-! ## `State.settleFaultInt` -/

@[simp] theorem State.settleFaultInt_mem (s : State) : (s.settleFaultInt).mem = s.mem := rfl
@[simp] theorem State.settleFaultInt_hist (s : State) : (s.settleFaultInt).hist = s.hist := rfl
@[simp] theorem State.settleFaultInt_tlb (s : State) : (s.settleFaultInt).tlb = s.tlb := rfl
@[simp] theorem State.settleFaultInt_walkCache (s : State) : (s.settleFaultInt).walkCache = s.walkCache := rfl
@[simp] theorem State.settleFaultInt_slices (s : State) : (s.settleFaultInt).slices = s.slices := rfl
@[simp] theorem State.settleFaultInt_asidBase (s : State) : (s.settleFaultInt).asidBase = s.asidBase := rfl
@[simp] theorem State.settleFaultInt_grids (s : State) : (s.settleFaultInt).grids = s.grids := rfl
@[simp] theorem State.settleFaultInt_nextGid (s : State) : (s.settleFaultInt).nextGid = s.nextGid := rfl
@[simp] theorem State.settleFaultInt_teams (s : State) : (s.settleFaultInt).teams = s.teams := rfl
@[simp] theorem State.settleFaultInt_nextTid (s : State) : (s.settleFaultInt).nextTid = s.nextTid := rfl
@[simp] theorem State.settleFaultInt_warps (s : State) : (s.settleFaultInt).warps = s.warps := rfl
@[simp] theorem State.settleFaultInt_cores (s : State) : (s.settleFaultInt).cores = s.cores := rfl
@[simp] theorem State.settleFaultInt_parts (s : State) : (s.settleFaultInt).parts = s.parts := rfl
@[simp] theorem State.settleFaultInt_dies (s : State) : (s.settleFaultInt).dies = s.dies := rfl
@[simp] theorem State.settleFaultInt_scratch (s : State) : (s.settleFaultInt).scratch = s.scratch := rfl
@[simp] theorem State.settleFaultInt_bars (s : State) : (s.settleFaultInt).bars = s.bars := rfl
@[simp] theorem State.settleFaultInt_ops (s : State) : (s.settleFaultInt).ops = s.ops := rfl
@[simp] theorem State.settleFaultInt_traces (s : State) : (s.settleFaultInt).traces = s.traces := rfl
@[simp] theorem State.settleFaultInt_queues (s : State) : (s.settleFaultInt).queues = s.queues := rfl
@[simp] theorem State.settleFaultInt_hevents (s : State) : (s.settleFaultInt).hevents = s.hevents := rfl
@[simp] theorem State.settleFaultInt_mailbox (s : State) : (s.settleFaultInt).mailbox = s.mailbox := rfl
@[simp] theorem State.settleFaultInt_cmdQ (s : State) : (s.settleFaultInt).cmdQ = s.cmdQ := rfl
@[simp] theorem State.settleFaultInt_rspQ (s : State) : (s.settleFaultInt).rspQ = s.rspQ := rfl
@[simp] theorem State.settleFaultInt_mg (s : State) : (s.settleFaultInt).mg = s.mg := rfl
@[simp] theorem State.settleFaultInt_faultInt (s : State) : (s.settleFaultInt).faultInt = (s.faultInt && s.faultSlotsFull) := rfl
@[simp] theorem State.settleFaultInt_errWin (s : State) : (s.settleFaultInt).errWin = s.errWin := rfl
@[simp] theorem State.settleFaultInt_errHeld (s : State) : (s.settleFaultInt).errHeld = s.errHeld := rfl
@[simp] theorem State.settleFaultInt_errDropped (s : State) : (s.settleFaultInt).errDropped = s.errDropped := rfl
@[simp] theorem State.settleFaultInt_corrTotal (s : State) : (s.settleFaultInt).corrTotal = s.corrTotal := rfl
@[simp] theorem State.settleFaultInt_gridsRetired (s : State) : (s.settleFaultInt).gridsRetired = s.gridsRetired := rfl
@[simp] theorem State.settleFaultInt_outOfService (s : State) : (s.settleFaultInt).outOfService = s.outOfService := rfl
@[simp] theorem State.settleFaultInt_poison (s : State) : (s.settleFaultInt).poison = s.poison := rfl
@[simp] theorem State.settleFaultInt_links (s : State) : (s.settleFaultInt).links = s.links := rfl
@[simp] theorem State.settleFaultInt_memTrained (s : State) : (s.settleFaultInt).memTrained = s.memTrained := rfl
@[simp] theorem State.settleFaultInt_trust (s : State) : (s.settleFaultInt).trust = s.trust := rfl
@[simp] theorem State.settleFaultInt_power (s : State) : (s.settleFaultInt).power = s.power := rfl
@[simp] theorem State.settleFaultInt_peers (s : State) : (s.settleFaultInt).peers = s.peers := rfl
@[simp] theorem State.settleFaultInt_peerOut (s : State) : (s.settleFaultInt).peerOut = s.peerOut := rfl
@[simp] theorem State.settleFaultInt_pcieOut (s : State) : (s.settleFaultInt).pcieOut = s.pcieOut := rfl
@[simp] theorem State.settleFaultInt_hostRead (s : State) : (s.settleFaultInt).hostRead = s.hostRead := rfl
@[simp] theorem State.settleFaultInt_now (s : State) : (s.settleFaultInt).now = s.now := rfl
@[simp] theorem State.settleFaultInt_ns (s : State) : (s.settleFaultInt).ns = s.ns := rfl
@[simp] theorem State.settleFaultInt_resetNs (s : State) : (s.settleFaultInt).resetNs = s.resetNs := rfl
@[simp] theorem State.settleFaultInt_cur (s : State) : (s.settleFaultInt).cur = s.cur := rfl
@[simp] theorem State.settleFaultInt_inputs (s : State) : (s.settleFaultInt).inputs = s.inputs := rfl
@[simp] theorem State.settleFaultInt_fresh (s : State) : (s.settleFaultInt).fresh = s.fresh := rfl
@[simp] theorem State.settleFaultInt_nextId (s : State) : (s.settleFaultInt).nextId = s.nextId := rfl

/-! ## `State.withCur` -/

@[simp] theorem State.withCur_mem (s : State) (x : Issue) : (s.withCur x).mem = s.mem := rfl
@[simp] theorem State.withCur_hist (s : State) (x : Issue) : (s.withCur x).hist = s.hist := rfl
@[simp] theorem State.withCur_tlb (s : State) (x : Issue) : (s.withCur x).tlb = s.tlb := rfl
@[simp] theorem State.withCur_walkCache (s : State) (x : Issue) : (s.withCur x).walkCache = s.walkCache := rfl
@[simp] theorem State.withCur_slices (s : State) (x : Issue) : (s.withCur x).slices = s.slices := rfl
@[simp] theorem State.withCur_asidBase (s : State) (x : Issue) : (s.withCur x).asidBase = s.asidBase := rfl
@[simp] theorem State.withCur_grids (s : State) (x : Issue) : (s.withCur x).grids = s.grids := rfl
@[simp] theorem State.withCur_nextGid (s : State) (x : Issue) : (s.withCur x).nextGid = s.nextGid := rfl
@[simp] theorem State.withCur_teams (s : State) (x : Issue) : (s.withCur x).teams = s.teams := rfl
@[simp] theorem State.withCur_nextTid (s : State) (x : Issue) : (s.withCur x).nextTid = s.nextTid := rfl
@[simp] theorem State.withCur_warps (s : State) (x : Issue) : (s.withCur x).warps = s.warps := rfl
@[simp] theorem State.withCur_cores (s : State) (x : Issue) : (s.withCur x).cores = s.cores := rfl
@[simp] theorem State.withCur_parts (s : State) (x : Issue) : (s.withCur x).parts = s.parts := rfl
@[simp] theorem State.withCur_dies (s : State) (x : Issue) : (s.withCur x).dies = s.dies := rfl
@[simp] theorem State.withCur_scratch (s : State) (x : Issue) : (s.withCur x).scratch = s.scratch := rfl
@[simp] theorem State.withCur_bars (s : State) (x : Issue) : (s.withCur x).bars = s.bars := rfl
@[simp] theorem State.withCur_ops (s : State) (x : Issue) : (s.withCur x).ops = s.ops := rfl
@[simp] theorem State.withCur_traces (s : State) (x : Issue) : (s.withCur x).traces = s.traces := rfl
@[simp] theorem State.withCur_queues (s : State) (x : Issue) : (s.withCur x).queues = s.queues := rfl
@[simp] theorem State.withCur_hevents (s : State) (x : Issue) : (s.withCur x).hevents = s.hevents := rfl
@[simp] theorem State.withCur_mailbox (s : State) (x : Issue) : (s.withCur x).mailbox = s.mailbox := rfl
@[simp] theorem State.withCur_cmdQ (s : State) (x : Issue) : (s.withCur x).cmdQ = s.cmdQ := rfl
@[simp] theorem State.withCur_rspQ (s : State) (x : Issue) : (s.withCur x).rspQ = s.rspQ := rfl
@[simp] theorem State.withCur_mg (s : State) (x : Issue) : (s.withCur x).mg = s.mg := rfl
@[simp] theorem State.withCur_faultInt (s : State) (x : Issue) : (s.withCur x).faultInt = s.faultInt := rfl
@[simp] theorem State.withCur_errWin (s : State) (x : Issue) : (s.withCur x).errWin = s.errWin := rfl
@[simp] theorem State.withCur_errHeld (s : State) (x : Issue) : (s.withCur x).errHeld = s.errHeld := rfl
@[simp] theorem State.withCur_errDropped (s : State) (x : Issue) : (s.withCur x).errDropped = s.errDropped := rfl
@[simp] theorem State.withCur_corrTotal (s : State) (x : Issue) : (s.withCur x).corrTotal = s.corrTotal := rfl
@[simp] theorem State.withCur_gridsRetired (s : State) (x : Issue) : (s.withCur x).gridsRetired = s.gridsRetired := rfl
@[simp] theorem State.withCur_outOfService (s : State) (x : Issue) : (s.withCur x).outOfService = s.outOfService := rfl
@[simp] theorem State.withCur_poison (s : State) (x : Issue) : (s.withCur x).poison = s.poison := rfl
@[simp] theorem State.withCur_links (s : State) (x : Issue) : (s.withCur x).links = s.links := rfl
@[simp] theorem State.withCur_memTrained (s : State) (x : Issue) : (s.withCur x).memTrained = s.memTrained := rfl
@[simp] theorem State.withCur_trust (s : State) (x : Issue) : (s.withCur x).trust = s.trust := rfl
@[simp] theorem State.withCur_power (s : State) (x : Issue) : (s.withCur x).power = s.power := rfl
@[simp] theorem State.withCur_peers (s : State) (x : Issue) : (s.withCur x).peers = s.peers := rfl
@[simp] theorem State.withCur_peerOut (s : State) (x : Issue) : (s.withCur x).peerOut = s.peerOut := rfl
@[simp] theorem State.withCur_pcieOut (s : State) (x : Issue) : (s.withCur x).pcieOut = s.pcieOut := rfl
@[simp] theorem State.withCur_hostRead (s : State) (x : Issue) : (s.withCur x).hostRead = s.hostRead := rfl
@[simp] theorem State.withCur_now (s : State) (x : Issue) : (s.withCur x).now = s.now := rfl
@[simp] theorem State.withCur_ns (s : State) (x : Issue) : (s.withCur x).ns = s.ns := rfl
@[simp] theorem State.withCur_resetNs (s : State) (x : Issue) : (s.withCur x).resetNs = s.resetNs := rfl
@[simp] theorem State.withCur_cur (s : State) (x : Issue) : (s.withCur x).cur = some x := rfl
@[simp] theorem State.withCur_inputs (s : State) (x : Issue) : (s.withCur x).inputs = s.inputs := rfl
@[simp] theorem State.withCur_fresh (s : State) (x : Issue) : (s.withCur x).fresh = s.fresh := rfl
@[simp] theorem State.withCur_nextId (s : State) (x : Issue) : (s.withCur x).nextId = s.nextId := rfl

/-! ## `Warp.setVec` -/

@[simp] theorem Warp.setVec_tid (w : Warp) (r l : Nat) (v : W32) : (w.setVec r l v).tid = w.tid := rfl
@[simp] theorem Warp.setVec_num (w : Warp) (r l : Nat) (v : W32) : (w.setVec r l v).num = w.num := rfl
@[simp] theorem Warp.setVec_launched (w : Warp) (r l : Nat) (v : W32) : (w.setVec r l v).launched = w.launched := rfl
@[simp] theorem Warp.setVec_exited (w : Warp) (r l : Nat) (v : W32) : (w.setVec r l v).exited = w.exited := rfl
@[simp] theorem Warp.setVec_parked (w : Warp) (r l : Nat) (v : W32) : (w.setVec r l v).parked = w.parked := rfl
@[simp] theorem Warp.setVec_stopped (w : Warp) (r l : Nat) (v : W32) : (w.setVec r l v).stopped = w.stopped := rfl
@[simp] theorem Warp.setVec_ready (w : Warp) (r l : Nat) (v : W32) : (w.setVec r l v).ready = w.ready := rfl
@[simp] theorem Warp.setVec_pc (w : Warp) (r l : Nat) (v : W32) : (w.setVec r l v).pc = w.pc := rfl
@[simp] theorem Warp.setVec_waits (w : Warp) (r l : Nat) (v : W32) : (w.setVec r l v).waits = w.waits := rfl
@[simp] theorem Warp.setVec_vec (w : Warp) (r l : Nat) (v : W32) : (w.setVec r l v).vec = cset w.vec (r * 32 + l) v := rfl
@[simp] theorem Warp.setVec_uni (w : Warp) (r l : Nat) (v : W32) : (w.setVec r l v).uni = w.uni := rfl
@[simp] theorem Warp.setVec_pred (w : Warp) (r l : Nat) (v : W32) : (w.setVec r l v).pred = w.pred := rfl
@[simp] theorem Warp.setVec_tile (w : Warp) (r l : Nat) (v : W32) : (w.setVec r l v).tile = w.tile := rfl
@[simp] theorem Warp.setVec_mask (w : Warp) (r l : Nat) (v : W32) : (w.setVec r l v).mask = w.mask := rfl
@[simp] theorem Warp.setVec_net (w : Warp) (r l : Nat) (v : W32) : (w.setVec r l v).net = w.net := rfl
@[simp] theorem Warp.setVec_win (w : Warp) (r l : Nat) (v : W32) : (w.setVec r l v).win = w.win := rfl
@[simp] theorem Warp.setVec_winSeq (w : Warp) (r l : Nat) (v : W32) : (w.setVec r l v).winSeq = w.winSeq := rfl
@[simp] theorem Warp.setVec_rdCnt (w : Warp) (r l : Nat) (v : W32) : (w.setVec r l v).rdCnt = w.rdCnt := rfl
@[simp] theorem Warp.setVec_pubCnt (w : Warp) (r l : Nat) (v : W32) : (w.setVec r l v).pubCnt = w.pubCnt := rfl
@[simp] theorem Warp.setVec_loops (w : Warp) (r l : Nat) (v : W32) : (w.setVec r l v).loops = w.loops := rfl
@[simp] theorem Warp.setVec_fstat (w : Warp) (r l : Nat) (v : W32) : (w.setVec r l v).fstat = w.fstat := rfl
@[simp] theorem Warp.setVec_mstat (w : Warp) (r l : Nat) (v : W32) : (w.setVec r l v).mstat = w.mstat := rfl
@[simp] theorem Warp.setVec_qseal (w : Warp) (r l : Nat) (v : W32) : (w.setVec r l v).qseal = w.qseal := rfl
@[simp] theorem Warp.setVec_srctr (w : Warp) (r l : Nat) (v : W32) : (w.setVec r l v).srctr = w.srctr := rfl
@[simp] theorem Warp.setVec_atomo (w : Warp) (r l : Nat) (v : W32) : (w.setVec r l v).atomo = w.atomo := rfl
@[simp] theorem Warp.setVec_mprog (w : Warp) (r l : Nat) (v : W32) : (w.setVec r l v).mprog = w.mprog := rfl
@[simp] theorem Warp.setVec_mpark (w : Warp) (r l : Nat) (v : W32) : (w.setVec r l v).mpark = w.mpark := rfl
@[simp] theorem Warp.setVec_emu (w : Warp) (r l : Nat) (v : W32) : (w.setVec r l v).emu = w.emu := rfl
@[simp] theorem Warp.setVec_emuRes (w : Warp) (r l : Nat) (v : W32) : (w.setVec r l v).emuRes = w.emuRes := rfl
@[simp] theorem Warp.setVec_dbg (w : Warp) (r l : Nat) (v : W32) : (w.setVec r l v).dbg = w.dbg := rfl
@[simp] theorem Warp.setVec_spill (w : Warp) (r l : Nat) (v : W32) : (w.setVec r l v).spill = w.spill := rfl
@[simp] theorem Warp.setVec_fwd (w : Warp) (r l : Nat) (v : W32) : (w.setVec r l v).fwd = w.fwd := rfl
@[simp] theorem Warp.setVec_pend (w : Warp) (r l : Nat) (v : W32) : (w.setVec r l v).pend = w.pend := rfl
@[simp] theorem Warp.setVec_sq (w : Warp) (r l : Nat) (v : W32) : (w.setVec r l v).sq = w.sq := rfl
@[simp] theorem Warp.setVec_unack (w : Warp) (r l : Nat) (v : W32) : (w.setVec r l v).unack = w.unack := rfl
@[simp] theorem Warp.setVec_nextSeq (w : Warp) (r l : Nat) (v : W32) : (w.setVec r l v).nextSeq = w.nextSeq := rfl
@[simp] theorem Warp.setVec_contrib (w : Warp) (r l : Nat) (v : W32) : (w.setVec r l v).contrib = w.contrib := rfl
@[simp] theorem Warp.setVec_probe (w : Warp) (r l : Nat) (v : W32) : (w.setVec r l v).probe = w.probe := rfl
@[simp] theorem Warp.setVec_paramsLoaded (w : Warp) (r l : Nat) (v : W32) : (w.setVec r l v).paramsLoaded = w.paramsLoaded := rfl
@[simp] theorem Warp.setVec_stallUntil (w : Warp) (r l : Nat) (v : W32) : (w.setVec r l v).stallUntil = w.stallUntil := rfl
@[simp] theorem Warp.setVec_lastIssue (w : Warp) (r l : Nat) (v : W32) : (w.setVec r l v).lastIssue = w.lastIssue := rfl
@[simp] theorem Warp.setVec_issues (w : Warp) (r l : Nat) (v : W32) : (w.setVec r l v).issues = w.issues := rfl
@[simp] theorem Warp.setVec_laneIssue (w : Warp) (r l : Nat) (v : W32) : (w.setVec r l v).laneIssue = w.laneIssue := rfl
@[simp] theorem Warp.setVec_yielded (w : Warp) (r l : Nat) (v : W32) : (w.setVec r l v).yielded = w.yielded := rfl
@[simp] theorem Warp.setVec_residence (w : Warp) (r l : Nat) (v : W32) : (w.setVec r l v).residence = w.residence := rfl
@[simp] theorem Warp.setVec_sinceCycle (w : Warp) (r l : Nat) (v : W32) : (w.setVec r l v).sinceCycle = w.sinceCycle := rfl
@[simp] theorem Warp.setVec_sinceNs (w : Warp) (r l : Nat) (v : W32) : (w.setVec r l v).sinceNs = w.sinceNs := rfl
@[simp] theorem Warp.setVec_stallSince (w : Warp) (r l : Nat) (v : W32) : (w.setVec r l v).stallSince = w.stallSince := rfl
@[simp] theorem Warp.setVec_readySince (w : Warp) (r l : Nat) (v : W32) : (w.setVec r l v).readySince = w.readySince := rfl
@[simp] theorem Warp.setVec_dirty (w : Warp) (r l : Nat) (v : W32) : (w.setVec r l v).dirty = { w.dirty with vec := cset w.dirty.vec r 1 } := rfl
@[simp] theorem Warp.setVec_saves (w : Warp) (r l : Nat) (v : W32) : (w.setVec r l v).saves = w.saves := rfl
@[simp] theorem Warp.setVec_firstSaved (w : Warp) (r l : Nat) (v : W32) : (w.setVec r l v).firstSaved = w.firstSaved := rfl
@[simp] theorem Warp.setVec_ckpt (w : Warp) (r l : Nat) (v : W32) : (w.setVec r l v).ckpt = w.ckpt := rfl
@[simp] theorem Warp.setVec_pubWait (w : Warp) (r l : Nat) (v : W32) : (w.setVec r l v).pubWait = w.pubWait := rfl
@[simp] theorem Warp.setVec_hitRec (w : Warp) (r l : Nat) (v : W32) : (w.setVec r l v).hitRec = w.hitRec := rfl
@[simp] theorem Warp.setVec_rayInfo (w : Warp) (r l : Nat) (v : W32) : (w.setVec r l v).rayInfo = w.rayInfo := rfl
@[simp] theorem Warp.setVec_hitKey (w : Warp) (r l : Nat) (v : W32) : (w.setVec r l v).hitKey = w.hitKey := rfl

/-! ## `Warp.setUni` -/

@[simp] theorem Warp.setUni_tid (w : Warp) (r : Nat) (v : W32) : (w.setUni r v).tid = w.tid := rfl
@[simp] theorem Warp.setUni_num (w : Warp) (r : Nat) (v : W32) : (w.setUni r v).num = w.num := rfl
@[simp] theorem Warp.setUni_launched (w : Warp) (r : Nat) (v : W32) : (w.setUni r v).launched = w.launched := rfl
@[simp] theorem Warp.setUni_exited (w : Warp) (r : Nat) (v : W32) : (w.setUni r v).exited = w.exited := rfl
@[simp] theorem Warp.setUni_parked (w : Warp) (r : Nat) (v : W32) : (w.setUni r v).parked = w.parked := rfl
@[simp] theorem Warp.setUni_stopped (w : Warp) (r : Nat) (v : W32) : (w.setUni r v).stopped = w.stopped := rfl
@[simp] theorem Warp.setUni_ready (w : Warp) (r : Nat) (v : W32) : (w.setUni r v).ready = w.ready := rfl
@[simp] theorem Warp.setUni_pc (w : Warp) (r : Nat) (v : W32) : (w.setUni r v).pc = w.pc := rfl
@[simp] theorem Warp.setUni_waits (w : Warp) (r : Nat) (v : W32) : (w.setUni r v).waits = w.waits := rfl
@[simp] theorem Warp.setUni_vec (w : Warp) (r : Nat) (v : W32) : (w.setUni r v).vec = w.vec := rfl
@[simp] theorem Warp.setUni_uni (w : Warp) (r : Nat) (v : W32) : (w.setUni r v).uni = cset w.uni r v := rfl
@[simp] theorem Warp.setUni_pred (w : Warp) (r : Nat) (v : W32) : (w.setUni r v).pred = w.pred := rfl
@[simp] theorem Warp.setUni_tile (w : Warp) (r : Nat) (v : W32) : (w.setUni r v).tile = w.tile := rfl
@[simp] theorem Warp.setUni_mask (w : Warp) (r : Nat) (v : W32) : (w.setUni r v).mask = w.mask := rfl
@[simp] theorem Warp.setUni_net (w : Warp) (r : Nat) (v : W32) : (w.setUni r v).net = w.net := rfl
@[simp] theorem Warp.setUni_win (w : Warp) (r : Nat) (v : W32) : (w.setUni r v).win = w.win := rfl
@[simp] theorem Warp.setUni_winSeq (w : Warp) (r : Nat) (v : W32) : (w.setUni r v).winSeq = w.winSeq := rfl
@[simp] theorem Warp.setUni_rdCnt (w : Warp) (r : Nat) (v : W32) : (w.setUni r v).rdCnt = w.rdCnt := rfl
@[simp] theorem Warp.setUni_pubCnt (w : Warp) (r : Nat) (v : W32) : (w.setUni r v).pubCnt = w.pubCnt := rfl
@[simp] theorem Warp.setUni_loops (w : Warp) (r : Nat) (v : W32) : (w.setUni r v).loops = w.loops := rfl
@[simp] theorem Warp.setUni_fstat (w : Warp) (r : Nat) (v : W32) : (w.setUni r v).fstat = w.fstat := rfl
@[simp] theorem Warp.setUni_mstat (w : Warp) (r : Nat) (v : W32) : (w.setUni r v).mstat = w.mstat := rfl
@[simp] theorem Warp.setUni_qseal (w : Warp) (r : Nat) (v : W32) : (w.setUni r v).qseal = w.qseal := rfl
@[simp] theorem Warp.setUni_srctr (w : Warp) (r : Nat) (v : W32) : (w.setUni r v).srctr = w.srctr := rfl
@[simp] theorem Warp.setUni_atomo (w : Warp) (r : Nat) (v : W32) : (w.setUni r v).atomo = w.atomo := rfl
@[simp] theorem Warp.setUni_mprog (w : Warp) (r : Nat) (v : W32) : (w.setUni r v).mprog = w.mprog := rfl
@[simp] theorem Warp.setUni_mpark (w : Warp) (r : Nat) (v : W32) : (w.setUni r v).mpark = w.mpark := rfl
@[simp] theorem Warp.setUni_emu (w : Warp) (r : Nat) (v : W32) : (w.setUni r v).emu = w.emu := rfl
@[simp] theorem Warp.setUni_emuRes (w : Warp) (r : Nat) (v : W32) : (w.setUni r v).emuRes = w.emuRes := rfl
@[simp] theorem Warp.setUni_dbg (w : Warp) (r : Nat) (v : W32) : (w.setUni r v).dbg = w.dbg := rfl
@[simp] theorem Warp.setUni_spill (w : Warp) (r : Nat) (v : W32) : (w.setUni r v).spill = w.spill := rfl
@[simp] theorem Warp.setUni_fwd (w : Warp) (r : Nat) (v : W32) : (w.setUni r v).fwd = w.fwd := rfl
@[simp] theorem Warp.setUni_pend (w : Warp) (r : Nat) (v : W32) : (w.setUni r v).pend = w.pend := rfl
@[simp] theorem Warp.setUni_sq (w : Warp) (r : Nat) (v : W32) : (w.setUni r v).sq = w.sq := rfl
@[simp] theorem Warp.setUni_unack (w : Warp) (r : Nat) (v : W32) : (w.setUni r v).unack = w.unack := rfl
@[simp] theorem Warp.setUni_nextSeq (w : Warp) (r : Nat) (v : W32) : (w.setUni r v).nextSeq = w.nextSeq := rfl
@[simp] theorem Warp.setUni_contrib (w : Warp) (r : Nat) (v : W32) : (w.setUni r v).contrib = w.contrib := rfl
@[simp] theorem Warp.setUni_probe (w : Warp) (r : Nat) (v : W32) : (w.setUni r v).probe = w.probe := rfl
@[simp] theorem Warp.setUni_paramsLoaded (w : Warp) (r : Nat) (v : W32) : (w.setUni r v).paramsLoaded = w.paramsLoaded := rfl
@[simp] theorem Warp.setUni_stallUntil (w : Warp) (r : Nat) (v : W32) : (w.setUni r v).stallUntil = w.stallUntil := rfl
@[simp] theorem Warp.setUni_lastIssue (w : Warp) (r : Nat) (v : W32) : (w.setUni r v).lastIssue = w.lastIssue := rfl
@[simp] theorem Warp.setUni_issues (w : Warp) (r : Nat) (v : W32) : (w.setUni r v).issues = w.issues := rfl
@[simp] theorem Warp.setUni_laneIssue (w : Warp) (r : Nat) (v : W32) : (w.setUni r v).laneIssue = w.laneIssue := rfl
@[simp] theorem Warp.setUni_yielded (w : Warp) (r : Nat) (v : W32) : (w.setUni r v).yielded = w.yielded := rfl
@[simp] theorem Warp.setUni_residence (w : Warp) (r : Nat) (v : W32) : (w.setUni r v).residence = w.residence := rfl
@[simp] theorem Warp.setUni_sinceCycle (w : Warp) (r : Nat) (v : W32) : (w.setUni r v).sinceCycle = w.sinceCycle := rfl
@[simp] theorem Warp.setUni_sinceNs (w : Warp) (r : Nat) (v : W32) : (w.setUni r v).sinceNs = w.sinceNs := rfl
@[simp] theorem Warp.setUni_stallSince (w : Warp) (r : Nat) (v : W32) : (w.setUni r v).stallSince = w.stallSince := rfl
@[simp] theorem Warp.setUni_readySince (w : Warp) (r : Nat) (v : W32) : (w.setUni r v).readySince = w.readySince := rfl
@[simp] theorem Warp.setUni_dirty (w : Warp) (r : Nat) (v : W32) : (w.setUni r v).dirty = { w.dirty with uni := cset w.dirty.uni r 1 } := rfl
@[simp] theorem Warp.setUni_saves (w : Warp) (r : Nat) (v : W32) : (w.setUni r v).saves = w.saves := rfl
@[simp] theorem Warp.setUni_firstSaved (w : Warp) (r : Nat) (v : W32) : (w.setUni r v).firstSaved = w.firstSaved := rfl
@[simp] theorem Warp.setUni_ckpt (w : Warp) (r : Nat) (v : W32) : (w.setUni r v).ckpt = w.ckpt := rfl
@[simp] theorem Warp.setUni_pubWait (w : Warp) (r : Nat) (v : W32) : (w.setUni r v).pubWait = w.pubWait := rfl
@[simp] theorem Warp.setUni_hitRec (w : Warp) (r : Nat) (v : W32) : (w.setUni r v).hitRec = w.hitRec := rfl
@[simp] theorem Warp.setUni_rayInfo (w : Warp) (r : Nat) (v : W32) : (w.setUni r v).rayInfo = w.rayInfo := rfl
@[simp] theorem Warp.setUni_hitKey (w : Warp) (r : Nat) (v : W32) : (w.setUni r v).hitKey = w.hitKey := rfl

/-! ## `Warp.setMask` -/

@[simp] theorem Warp.setMask_tid (w : Warp) (i : Nat) (m : Mask) : (w.setMask i m).tid = w.tid := rfl
@[simp] theorem Warp.setMask_num (w : Warp) (i : Nat) (m : Mask) : (w.setMask i m).num = w.num := rfl
@[simp] theorem Warp.setMask_launched (w : Warp) (i : Nat) (m : Mask) : (w.setMask i m).launched = w.launched := rfl
@[simp] theorem Warp.setMask_exited (w : Warp) (i : Nat) (m : Mask) : (w.setMask i m).exited = w.exited := rfl
@[simp] theorem Warp.setMask_parked (w : Warp) (i : Nat) (m : Mask) : (w.setMask i m).parked = w.parked := rfl
@[simp] theorem Warp.setMask_stopped (w : Warp) (i : Nat) (m : Mask) : (w.setMask i m).stopped = w.stopped := rfl
@[simp] theorem Warp.setMask_ready (w : Warp) (i : Nat) (m : Mask) : (w.setMask i m).ready = w.ready := rfl
@[simp] theorem Warp.setMask_pc (w : Warp) (i : Nat) (m : Mask) : (w.setMask i m).pc = w.pc := rfl
@[simp] theorem Warp.setMask_waits (w : Warp) (i : Nat) (m : Mask) : (w.setMask i m).waits = w.waits := rfl
@[simp] theorem Warp.setMask_vec (w : Warp) (i : Nat) (m : Mask) : (w.setMask i m).vec = w.vec := rfl
@[simp] theorem Warp.setMask_uni (w : Warp) (i : Nat) (m : Mask) : (w.setMask i m).uni = w.uni := rfl
@[simp] theorem Warp.setMask_pred (w : Warp) (i : Nat) (m : Mask) : (w.setMask i m).pred = w.pred := rfl
@[simp] theorem Warp.setMask_tile (w : Warp) (i : Nat) (m : Mask) : (w.setMask i m).tile = w.tile := rfl
@[simp] theorem Warp.setMask_mask (w : Warp) (i : Nat) (m : Mask) : (w.setMask i m).mask = cset w.mask i m := rfl
@[simp] theorem Warp.setMask_net (w : Warp) (i : Nat) (m : Mask) : (w.setMask i m).net = w.net := rfl
@[simp] theorem Warp.setMask_win (w : Warp) (i : Nat) (m : Mask) : (w.setMask i m).win = w.win := rfl
@[simp] theorem Warp.setMask_winSeq (w : Warp) (i : Nat) (m : Mask) : (w.setMask i m).winSeq = w.winSeq := rfl
@[simp] theorem Warp.setMask_rdCnt (w : Warp) (i : Nat) (m : Mask) : (w.setMask i m).rdCnt = w.rdCnt := rfl
@[simp] theorem Warp.setMask_pubCnt (w : Warp) (i : Nat) (m : Mask) : (w.setMask i m).pubCnt = w.pubCnt := rfl
@[simp] theorem Warp.setMask_loops (w : Warp) (i : Nat) (m : Mask) : (w.setMask i m).loops = w.loops := rfl
@[simp] theorem Warp.setMask_fstat (w : Warp) (i : Nat) (m : Mask) : (w.setMask i m).fstat = w.fstat := rfl
@[simp] theorem Warp.setMask_mstat (w : Warp) (i : Nat) (m : Mask) : (w.setMask i m).mstat = w.mstat := rfl
@[simp] theorem Warp.setMask_qseal (w : Warp) (i : Nat) (m : Mask) : (w.setMask i m).qseal = w.qseal := rfl
@[simp] theorem Warp.setMask_srctr (w : Warp) (i : Nat) (m : Mask) : (w.setMask i m).srctr = w.srctr := rfl
@[simp] theorem Warp.setMask_atomo (w : Warp) (i : Nat) (m : Mask) : (w.setMask i m).atomo = w.atomo := rfl
@[simp] theorem Warp.setMask_mprog (w : Warp) (i : Nat) (m : Mask) : (w.setMask i m).mprog = w.mprog := rfl
@[simp] theorem Warp.setMask_mpark (w : Warp) (i : Nat) (m : Mask) : (w.setMask i m).mpark = w.mpark := rfl
@[simp] theorem Warp.setMask_emu (w : Warp) (i : Nat) (m : Mask) : (w.setMask i m).emu = w.emu := rfl
@[simp] theorem Warp.setMask_emuRes (w : Warp) (i : Nat) (m : Mask) : (w.setMask i m).emuRes = w.emuRes := rfl
@[simp] theorem Warp.setMask_dbg (w : Warp) (i : Nat) (m : Mask) : (w.setMask i m).dbg = w.dbg := rfl
@[simp] theorem Warp.setMask_spill (w : Warp) (i : Nat) (m : Mask) : (w.setMask i m).spill = w.spill := rfl
@[simp] theorem Warp.setMask_fwd (w : Warp) (i : Nat) (m : Mask) : (w.setMask i m).fwd = w.fwd := rfl
@[simp] theorem Warp.setMask_pend (w : Warp) (i : Nat) (m : Mask) : (w.setMask i m).pend = w.pend := rfl
@[simp] theorem Warp.setMask_sq (w : Warp) (i : Nat) (m : Mask) : (w.setMask i m).sq = w.sq := rfl
@[simp] theorem Warp.setMask_unack (w : Warp) (i : Nat) (m : Mask) : (w.setMask i m).unack = w.unack := rfl
@[simp] theorem Warp.setMask_nextSeq (w : Warp) (i : Nat) (m : Mask) : (w.setMask i m).nextSeq = w.nextSeq := rfl
@[simp] theorem Warp.setMask_contrib (w : Warp) (i : Nat) (m : Mask) : (w.setMask i m).contrib = w.contrib := rfl
@[simp] theorem Warp.setMask_probe (w : Warp) (i : Nat) (m : Mask) : (w.setMask i m).probe = w.probe := rfl
@[simp] theorem Warp.setMask_paramsLoaded (w : Warp) (i : Nat) (m : Mask) : (w.setMask i m).paramsLoaded = w.paramsLoaded := rfl
@[simp] theorem Warp.setMask_stallUntil (w : Warp) (i : Nat) (m : Mask) : (w.setMask i m).stallUntil = w.stallUntil := rfl
@[simp] theorem Warp.setMask_lastIssue (w : Warp) (i : Nat) (m : Mask) : (w.setMask i m).lastIssue = w.lastIssue := rfl
@[simp] theorem Warp.setMask_issues (w : Warp) (i : Nat) (m : Mask) : (w.setMask i m).issues = w.issues := rfl
@[simp] theorem Warp.setMask_laneIssue (w : Warp) (i : Nat) (m : Mask) : (w.setMask i m).laneIssue = w.laneIssue := rfl
@[simp] theorem Warp.setMask_yielded (w : Warp) (i : Nat) (m : Mask) : (w.setMask i m).yielded = w.yielded := rfl
@[simp] theorem Warp.setMask_residence (w : Warp) (i : Nat) (m : Mask) : (w.setMask i m).residence = w.residence := rfl
@[simp] theorem Warp.setMask_sinceCycle (w : Warp) (i : Nat) (m : Mask) : (w.setMask i m).sinceCycle = w.sinceCycle := rfl
@[simp] theorem Warp.setMask_sinceNs (w : Warp) (i : Nat) (m : Mask) : (w.setMask i m).sinceNs = w.sinceNs := rfl
@[simp] theorem Warp.setMask_stallSince (w : Warp) (i : Nat) (m : Mask) : (w.setMask i m).stallSince = w.stallSince := rfl
@[simp] theorem Warp.setMask_readySince (w : Warp) (i : Nat) (m : Mask) : (w.setMask i m).readySince = w.readySince := rfl
@[simp] theorem Warp.setMask_dirty (w : Warp) (i : Nat) (m : Mask) : (w.setMask i m).dirty = { w.dirty with masks := true } := rfl
@[simp] theorem Warp.setMask_saves (w : Warp) (i : Nat) (m : Mask) : (w.setMask i m).saves = w.saves := rfl
@[simp] theorem Warp.setMask_firstSaved (w : Warp) (i : Nat) (m : Mask) : (w.setMask i m).firstSaved = w.firstSaved := rfl
@[simp] theorem Warp.setMask_ckpt (w : Warp) (i : Nat) (m : Mask) : (w.setMask i m).ckpt = w.ckpt := rfl
@[simp] theorem Warp.setMask_pubWait (w : Warp) (i : Nat) (m : Mask) : (w.setMask i m).pubWait = w.pubWait := rfl
@[simp] theorem Warp.setMask_hitRec (w : Warp) (i : Nat) (m : Mask) : (w.setMask i m).hitRec = w.hitRec := rfl
@[simp] theorem Warp.setMask_rayInfo (w : Warp) (i : Nat) (m : Mask) : (w.setMask i m).rayInfo = w.rayInfo := rfl
@[simp] theorem Warp.setMask_hitKey (w : Warp) (i : Nat) (m : Mask) : (w.setMask i m).hitKey = w.hitKey := rfl

/-! ## `Warp.setTile` -/

@[simp] theorem Warp.setTile_tid (w : Warp) (i : Nat) (v : BitVec 128) : (w.setTile i v).tid = w.tid := rfl
@[simp] theorem Warp.setTile_num (w : Warp) (i : Nat) (v : BitVec 128) : (w.setTile i v).num = w.num := rfl
@[simp] theorem Warp.setTile_launched (w : Warp) (i : Nat) (v : BitVec 128) : (w.setTile i v).launched = w.launched := rfl
@[simp] theorem Warp.setTile_exited (w : Warp) (i : Nat) (v : BitVec 128) : (w.setTile i v).exited = w.exited := rfl
@[simp] theorem Warp.setTile_parked (w : Warp) (i : Nat) (v : BitVec 128) : (w.setTile i v).parked = w.parked := rfl
@[simp] theorem Warp.setTile_stopped (w : Warp) (i : Nat) (v : BitVec 128) : (w.setTile i v).stopped = w.stopped := rfl
@[simp] theorem Warp.setTile_ready (w : Warp) (i : Nat) (v : BitVec 128) : (w.setTile i v).ready = w.ready := rfl
@[simp] theorem Warp.setTile_pc (w : Warp) (i : Nat) (v : BitVec 128) : (w.setTile i v).pc = w.pc := rfl
@[simp] theorem Warp.setTile_waits (w : Warp) (i : Nat) (v : BitVec 128) : (w.setTile i v).waits = w.waits := rfl
@[simp] theorem Warp.setTile_vec (w : Warp) (i : Nat) (v : BitVec 128) : (w.setTile i v).vec = w.vec := rfl
@[simp] theorem Warp.setTile_uni (w : Warp) (i : Nat) (v : BitVec 128) : (w.setTile i v).uni = w.uni := rfl
@[simp] theorem Warp.setTile_pred (w : Warp) (i : Nat) (v : BitVec 128) : (w.setTile i v).pred = w.pred := rfl
@[simp] theorem Warp.setTile_tile (w : Warp) (i : Nat) (v : BitVec 128) : (w.setTile i v).tile = cset w.tile i v := rfl
@[simp] theorem Warp.setTile_mask (w : Warp) (i : Nat) (v : BitVec 128) : (w.setTile i v).mask = w.mask := rfl
@[simp] theorem Warp.setTile_net (w : Warp) (i : Nat) (v : BitVec 128) : (w.setTile i v).net = w.net := rfl
@[simp] theorem Warp.setTile_win (w : Warp) (i : Nat) (v : BitVec 128) : (w.setTile i v).win = w.win := rfl
@[simp] theorem Warp.setTile_winSeq (w : Warp) (i : Nat) (v : BitVec 128) : (w.setTile i v).winSeq = w.winSeq := rfl
@[simp] theorem Warp.setTile_rdCnt (w : Warp) (i : Nat) (v : BitVec 128) : (w.setTile i v).rdCnt = w.rdCnt := rfl
@[simp] theorem Warp.setTile_pubCnt (w : Warp) (i : Nat) (v : BitVec 128) : (w.setTile i v).pubCnt = w.pubCnt := rfl
@[simp] theorem Warp.setTile_loops (w : Warp) (i : Nat) (v : BitVec 128) : (w.setTile i v).loops = w.loops := rfl
@[simp] theorem Warp.setTile_fstat (w : Warp) (i : Nat) (v : BitVec 128) : (w.setTile i v).fstat = w.fstat := rfl
@[simp] theorem Warp.setTile_mstat (w : Warp) (i : Nat) (v : BitVec 128) : (w.setTile i v).mstat = w.mstat := rfl
@[simp] theorem Warp.setTile_qseal (w : Warp) (i : Nat) (v : BitVec 128) : (w.setTile i v).qseal = w.qseal := rfl
@[simp] theorem Warp.setTile_srctr (w : Warp) (i : Nat) (v : BitVec 128) : (w.setTile i v).srctr = w.srctr := rfl
@[simp] theorem Warp.setTile_atomo (w : Warp) (i : Nat) (v : BitVec 128) : (w.setTile i v).atomo = w.atomo := rfl
@[simp] theorem Warp.setTile_mprog (w : Warp) (i : Nat) (v : BitVec 128) : (w.setTile i v).mprog = w.mprog := rfl
@[simp] theorem Warp.setTile_mpark (w : Warp) (i : Nat) (v : BitVec 128) : (w.setTile i v).mpark = w.mpark := rfl
@[simp] theorem Warp.setTile_emu (w : Warp) (i : Nat) (v : BitVec 128) : (w.setTile i v).emu = w.emu := rfl
@[simp] theorem Warp.setTile_emuRes (w : Warp) (i : Nat) (v : BitVec 128) : (w.setTile i v).emuRes = w.emuRes := rfl
@[simp] theorem Warp.setTile_dbg (w : Warp) (i : Nat) (v : BitVec 128) : (w.setTile i v).dbg = w.dbg := rfl
@[simp] theorem Warp.setTile_spill (w : Warp) (i : Nat) (v : BitVec 128) : (w.setTile i v).spill = w.spill := rfl
@[simp] theorem Warp.setTile_fwd (w : Warp) (i : Nat) (v : BitVec 128) : (w.setTile i v).fwd = w.fwd := rfl
@[simp] theorem Warp.setTile_pend (w : Warp) (i : Nat) (v : BitVec 128) : (w.setTile i v).pend = w.pend := rfl
@[simp] theorem Warp.setTile_sq (w : Warp) (i : Nat) (v : BitVec 128) : (w.setTile i v).sq = w.sq := rfl
@[simp] theorem Warp.setTile_unack (w : Warp) (i : Nat) (v : BitVec 128) : (w.setTile i v).unack = w.unack := rfl
@[simp] theorem Warp.setTile_nextSeq (w : Warp) (i : Nat) (v : BitVec 128) : (w.setTile i v).nextSeq = w.nextSeq := rfl
@[simp] theorem Warp.setTile_contrib (w : Warp) (i : Nat) (v : BitVec 128) : (w.setTile i v).contrib = w.contrib := rfl
@[simp] theorem Warp.setTile_probe (w : Warp) (i : Nat) (v : BitVec 128) : (w.setTile i v).probe = w.probe := rfl
@[simp] theorem Warp.setTile_paramsLoaded (w : Warp) (i : Nat) (v : BitVec 128) : (w.setTile i v).paramsLoaded = w.paramsLoaded := rfl
@[simp] theorem Warp.setTile_stallUntil (w : Warp) (i : Nat) (v : BitVec 128) : (w.setTile i v).stallUntil = w.stallUntil := rfl
@[simp] theorem Warp.setTile_lastIssue (w : Warp) (i : Nat) (v : BitVec 128) : (w.setTile i v).lastIssue = w.lastIssue := rfl
@[simp] theorem Warp.setTile_issues (w : Warp) (i : Nat) (v : BitVec 128) : (w.setTile i v).issues = w.issues := rfl
@[simp] theorem Warp.setTile_laneIssue (w : Warp) (i : Nat) (v : BitVec 128) : (w.setTile i v).laneIssue = w.laneIssue := rfl
@[simp] theorem Warp.setTile_yielded (w : Warp) (i : Nat) (v : BitVec 128) : (w.setTile i v).yielded = w.yielded := rfl
@[simp] theorem Warp.setTile_residence (w : Warp) (i : Nat) (v : BitVec 128) : (w.setTile i v).residence = w.residence := rfl
@[simp] theorem Warp.setTile_sinceCycle (w : Warp) (i : Nat) (v : BitVec 128) : (w.setTile i v).sinceCycle = w.sinceCycle := rfl
@[simp] theorem Warp.setTile_sinceNs (w : Warp) (i : Nat) (v : BitVec 128) : (w.setTile i v).sinceNs = w.sinceNs := rfl
@[simp] theorem Warp.setTile_stallSince (w : Warp) (i : Nat) (v : BitVec 128) : (w.setTile i v).stallSince = w.stallSince := rfl
@[simp] theorem Warp.setTile_readySince (w : Warp) (i : Nat) (v : BitVec 128) : (w.setTile i v).readySince = w.readySince := rfl
@[simp] theorem Warp.setTile_dirty (w : Warp) (i : Nat) (v : BitVec 128) : (w.setTile i v).dirty = { w.dirty with tile := cset w.dirty.tile i 1 } := rfl
@[simp] theorem Warp.setTile_saves (w : Warp) (i : Nat) (v : BitVec 128) : (w.setTile i v).saves = w.saves := rfl
@[simp] theorem Warp.setTile_firstSaved (w : Warp) (i : Nat) (v : BitVec 128) : (w.setTile i v).firstSaved = w.firstSaved := rfl
@[simp] theorem Warp.setTile_ckpt (w : Warp) (i : Nat) (v : BitVec 128) : (w.setTile i v).ckpt = w.ckpt := rfl
@[simp] theorem Warp.setTile_pubWait (w : Warp) (i : Nat) (v : BitVec 128) : (w.setTile i v).pubWait = w.pubWait := rfl
@[simp] theorem Warp.setTile_hitRec (w : Warp) (i : Nat) (v : BitVec 128) : (w.setTile i v).hitRec = w.hitRec := rfl
@[simp] theorem Warp.setTile_rayInfo (w : Warp) (i : Nat) (v : BitVec 128) : (w.setTile i v).rayInfo = w.rayInfo := rfl
@[simp] theorem Warp.setTile_hitKey (w : Warp) (i : Nat) (v : BitVec 128) : (w.setTile i v).hitKey = w.hitKey := rfl

/-! ## `Warp.setNet` -/

@[simp] theorem Warp.setNet_tid (w : Warp) (i : Nat) (v : BitVec 144) : (w.setNet i v).tid = w.tid := rfl
@[simp] theorem Warp.setNet_num (w : Warp) (i : Nat) (v : BitVec 144) : (w.setNet i v).num = w.num := rfl
@[simp] theorem Warp.setNet_launched (w : Warp) (i : Nat) (v : BitVec 144) : (w.setNet i v).launched = w.launched := rfl
@[simp] theorem Warp.setNet_exited (w : Warp) (i : Nat) (v : BitVec 144) : (w.setNet i v).exited = w.exited := rfl
@[simp] theorem Warp.setNet_parked (w : Warp) (i : Nat) (v : BitVec 144) : (w.setNet i v).parked = w.parked := rfl
@[simp] theorem Warp.setNet_stopped (w : Warp) (i : Nat) (v : BitVec 144) : (w.setNet i v).stopped = w.stopped := rfl
@[simp] theorem Warp.setNet_ready (w : Warp) (i : Nat) (v : BitVec 144) : (w.setNet i v).ready = w.ready := rfl
@[simp] theorem Warp.setNet_pc (w : Warp) (i : Nat) (v : BitVec 144) : (w.setNet i v).pc = w.pc := rfl
@[simp] theorem Warp.setNet_waits (w : Warp) (i : Nat) (v : BitVec 144) : (w.setNet i v).waits = w.waits := rfl
@[simp] theorem Warp.setNet_vec (w : Warp) (i : Nat) (v : BitVec 144) : (w.setNet i v).vec = w.vec := rfl
@[simp] theorem Warp.setNet_uni (w : Warp) (i : Nat) (v : BitVec 144) : (w.setNet i v).uni = w.uni := rfl
@[simp] theorem Warp.setNet_pred (w : Warp) (i : Nat) (v : BitVec 144) : (w.setNet i v).pred = w.pred := rfl
@[simp] theorem Warp.setNet_tile (w : Warp) (i : Nat) (v : BitVec 144) : (w.setNet i v).tile = w.tile := rfl
@[simp] theorem Warp.setNet_mask (w : Warp) (i : Nat) (v : BitVec 144) : (w.setNet i v).mask = w.mask := rfl
@[simp] theorem Warp.setNet_net (w : Warp) (i : Nat) (v : BitVec 144) : (w.setNet i v).net = cset w.net i v := rfl
@[simp] theorem Warp.setNet_win (w : Warp) (i : Nat) (v : BitVec 144) : (w.setNet i v).win = w.win := rfl
@[simp] theorem Warp.setNet_winSeq (w : Warp) (i : Nat) (v : BitVec 144) : (w.setNet i v).winSeq = w.winSeq := rfl
@[simp] theorem Warp.setNet_rdCnt (w : Warp) (i : Nat) (v : BitVec 144) : (w.setNet i v).rdCnt = w.rdCnt := rfl
@[simp] theorem Warp.setNet_pubCnt (w : Warp) (i : Nat) (v : BitVec 144) : (w.setNet i v).pubCnt = w.pubCnt := rfl
@[simp] theorem Warp.setNet_loops (w : Warp) (i : Nat) (v : BitVec 144) : (w.setNet i v).loops = w.loops := rfl
@[simp] theorem Warp.setNet_fstat (w : Warp) (i : Nat) (v : BitVec 144) : (w.setNet i v).fstat = w.fstat := rfl
@[simp] theorem Warp.setNet_mstat (w : Warp) (i : Nat) (v : BitVec 144) : (w.setNet i v).mstat = w.mstat := rfl
@[simp] theorem Warp.setNet_qseal (w : Warp) (i : Nat) (v : BitVec 144) : (w.setNet i v).qseal = w.qseal := rfl
@[simp] theorem Warp.setNet_srctr (w : Warp) (i : Nat) (v : BitVec 144) : (w.setNet i v).srctr = w.srctr := rfl
@[simp] theorem Warp.setNet_atomo (w : Warp) (i : Nat) (v : BitVec 144) : (w.setNet i v).atomo = w.atomo := rfl
@[simp] theorem Warp.setNet_mprog (w : Warp) (i : Nat) (v : BitVec 144) : (w.setNet i v).mprog = w.mprog := rfl
@[simp] theorem Warp.setNet_mpark (w : Warp) (i : Nat) (v : BitVec 144) : (w.setNet i v).mpark = w.mpark := rfl
@[simp] theorem Warp.setNet_emu (w : Warp) (i : Nat) (v : BitVec 144) : (w.setNet i v).emu = w.emu := rfl
@[simp] theorem Warp.setNet_emuRes (w : Warp) (i : Nat) (v : BitVec 144) : (w.setNet i v).emuRes = w.emuRes := rfl
@[simp] theorem Warp.setNet_dbg (w : Warp) (i : Nat) (v : BitVec 144) : (w.setNet i v).dbg = w.dbg := rfl
@[simp] theorem Warp.setNet_spill (w : Warp) (i : Nat) (v : BitVec 144) : (w.setNet i v).spill = w.spill := rfl
@[simp] theorem Warp.setNet_fwd (w : Warp) (i : Nat) (v : BitVec 144) : (w.setNet i v).fwd = w.fwd := rfl
@[simp] theorem Warp.setNet_pend (w : Warp) (i : Nat) (v : BitVec 144) : (w.setNet i v).pend = w.pend := rfl
@[simp] theorem Warp.setNet_sq (w : Warp) (i : Nat) (v : BitVec 144) : (w.setNet i v).sq = w.sq := rfl
@[simp] theorem Warp.setNet_unack (w : Warp) (i : Nat) (v : BitVec 144) : (w.setNet i v).unack = w.unack := rfl
@[simp] theorem Warp.setNet_nextSeq (w : Warp) (i : Nat) (v : BitVec 144) : (w.setNet i v).nextSeq = w.nextSeq := rfl
@[simp] theorem Warp.setNet_contrib (w : Warp) (i : Nat) (v : BitVec 144) : (w.setNet i v).contrib = w.contrib := rfl
@[simp] theorem Warp.setNet_probe (w : Warp) (i : Nat) (v : BitVec 144) : (w.setNet i v).probe = w.probe := rfl
@[simp] theorem Warp.setNet_paramsLoaded (w : Warp) (i : Nat) (v : BitVec 144) : (w.setNet i v).paramsLoaded = w.paramsLoaded := rfl
@[simp] theorem Warp.setNet_stallUntil (w : Warp) (i : Nat) (v : BitVec 144) : (w.setNet i v).stallUntil = w.stallUntil := rfl
@[simp] theorem Warp.setNet_lastIssue (w : Warp) (i : Nat) (v : BitVec 144) : (w.setNet i v).lastIssue = w.lastIssue := rfl
@[simp] theorem Warp.setNet_issues (w : Warp) (i : Nat) (v : BitVec 144) : (w.setNet i v).issues = w.issues := rfl
@[simp] theorem Warp.setNet_laneIssue (w : Warp) (i : Nat) (v : BitVec 144) : (w.setNet i v).laneIssue = w.laneIssue := rfl
@[simp] theorem Warp.setNet_yielded (w : Warp) (i : Nat) (v : BitVec 144) : (w.setNet i v).yielded = w.yielded := rfl
@[simp] theorem Warp.setNet_residence (w : Warp) (i : Nat) (v : BitVec 144) : (w.setNet i v).residence = w.residence := rfl
@[simp] theorem Warp.setNet_sinceCycle (w : Warp) (i : Nat) (v : BitVec 144) : (w.setNet i v).sinceCycle = w.sinceCycle := rfl
@[simp] theorem Warp.setNet_sinceNs (w : Warp) (i : Nat) (v : BitVec 144) : (w.setNet i v).sinceNs = w.sinceNs := rfl
@[simp] theorem Warp.setNet_stallSince (w : Warp) (i : Nat) (v : BitVec 144) : (w.setNet i v).stallSince = w.stallSince := rfl
@[simp] theorem Warp.setNet_readySince (w : Warp) (i : Nat) (v : BitVec 144) : (w.setNet i v).readySince = w.readySince := rfl
@[simp] theorem Warp.setNet_dirty (w : Warp) (i : Nat) (v : BitVec 144) : (w.setNet i v).dirty = { w.dirty with net := cset w.dirty.net i 1 } := rfl
@[simp] theorem Warp.setNet_saves (w : Warp) (i : Nat) (v : BitVec 144) : (w.setNet i v).saves = w.saves := rfl
@[simp] theorem Warp.setNet_firstSaved (w : Warp) (i : Nat) (v : BitVec 144) : (w.setNet i v).firstSaved = w.firstSaved := rfl
@[simp] theorem Warp.setNet_ckpt (w : Warp) (i : Nat) (v : BitVec 144) : (w.setNet i v).ckpt = w.ckpt := rfl
@[simp] theorem Warp.setNet_pubWait (w : Warp) (i : Nat) (v : BitVec 144) : (w.setNet i v).pubWait = w.pubWait := rfl
@[simp] theorem Warp.setNet_hitRec (w : Warp) (i : Nat) (v : BitVec 144) : (w.setNet i v).hitRec = w.hitRec := rfl
@[simp] theorem Warp.setNet_rayInfo (w : Warp) (i : Nat) (v : BitVec 144) : (w.setNet i v).rayInfo = w.rayInfo := rfl
@[simp] theorem Warp.setNet_hitKey (w : Warp) (i : Nat) (v : BitVec 144) : (w.setNet i v).hitKey = w.hitKey := rfl

/-! ## `Warp.raise` -/

@[simp] theorem Warp.raise_tid (w : Warp) (fl : Flags) : (w.raise fl).tid = w.tid := rfl
@[simp] theorem Warp.raise_num (w : Warp) (fl : Flags) : (w.raise fl).num = w.num := rfl
@[simp] theorem Warp.raise_launched (w : Warp) (fl : Flags) : (w.raise fl).launched = w.launched := rfl
@[simp] theorem Warp.raise_exited (w : Warp) (fl : Flags) : (w.raise fl).exited = w.exited := rfl
@[simp] theorem Warp.raise_parked (w : Warp) (fl : Flags) : (w.raise fl).parked = w.parked := rfl
@[simp] theorem Warp.raise_stopped (w : Warp) (fl : Flags) : (w.raise fl).stopped = w.stopped := rfl
@[simp] theorem Warp.raise_ready (w : Warp) (fl : Flags) : (w.raise fl).ready = w.ready := rfl
@[simp] theorem Warp.raise_pc (w : Warp) (fl : Flags) : (w.raise fl).pc = w.pc := rfl
@[simp] theorem Warp.raise_waits (w : Warp) (fl : Flags) : (w.raise fl).waits = w.waits := rfl
@[simp] theorem Warp.raise_vec (w : Warp) (fl : Flags) : (w.raise fl).vec = w.vec := rfl
@[simp] theorem Warp.raise_uni (w : Warp) (fl : Flags) : (w.raise fl).uni = w.uni := rfl
@[simp] theorem Warp.raise_pred (w : Warp) (fl : Flags) : (w.raise fl).pred = w.pred := rfl
@[simp] theorem Warp.raise_tile (w : Warp) (fl : Flags) : (w.raise fl).tile = w.tile := rfl
@[simp] theorem Warp.raise_mask (w : Warp) (fl : Flags) : (w.raise fl).mask = w.mask := rfl
@[simp] theorem Warp.raise_net (w : Warp) (fl : Flags) : (w.raise fl).net = w.net := rfl
@[simp] theorem Warp.raise_win (w : Warp) (fl : Flags) : (w.raise fl).win = w.win := rfl
@[simp] theorem Warp.raise_winSeq (w : Warp) (fl : Flags) : (w.raise fl).winSeq = w.winSeq := rfl
@[simp] theorem Warp.raise_rdCnt (w : Warp) (fl : Flags) : (w.raise fl).rdCnt = w.rdCnt := rfl
@[simp] theorem Warp.raise_pubCnt (w : Warp) (fl : Flags) : (w.raise fl).pubCnt = w.pubCnt := rfl
@[simp] theorem Warp.raise_loops (w : Warp) (fl : Flags) : (w.raise fl).loops = w.loops := rfl
@[simp] theorem Warp.raise_fstat (w : Warp) (fl : Flags) : (w.raise fl).fstat = w.fstat ||| fl.bits := rfl
@[simp] theorem Warp.raise_mstat (w : Warp) (fl : Flags) : (w.raise fl).mstat = w.mstat := rfl
@[simp] theorem Warp.raise_qseal (w : Warp) (fl : Flags) : (w.raise fl).qseal = w.qseal := rfl
@[simp] theorem Warp.raise_srctr (w : Warp) (fl : Flags) : (w.raise fl).srctr = w.srctr := rfl
@[simp] theorem Warp.raise_atomo (w : Warp) (fl : Flags) : (w.raise fl).atomo = w.atomo := rfl
@[simp] theorem Warp.raise_mprog (w : Warp) (fl : Flags) : (w.raise fl).mprog = w.mprog := rfl
@[simp] theorem Warp.raise_mpark (w : Warp) (fl : Flags) : (w.raise fl).mpark = w.mpark := rfl
@[simp] theorem Warp.raise_emu (w : Warp) (fl : Flags) : (w.raise fl).emu = w.emu := rfl
@[simp] theorem Warp.raise_emuRes (w : Warp) (fl : Flags) : (w.raise fl).emuRes = w.emuRes := rfl
@[simp] theorem Warp.raise_dbg (w : Warp) (fl : Flags) : (w.raise fl).dbg = w.dbg := rfl
@[simp] theorem Warp.raise_spill (w : Warp) (fl : Flags) : (w.raise fl).spill = w.spill := rfl
@[simp] theorem Warp.raise_fwd (w : Warp) (fl : Flags) : (w.raise fl).fwd = w.fwd := rfl
@[simp] theorem Warp.raise_pend (w : Warp) (fl : Flags) : (w.raise fl).pend = w.pend := rfl
@[simp] theorem Warp.raise_sq (w : Warp) (fl : Flags) : (w.raise fl).sq = w.sq := rfl
@[simp] theorem Warp.raise_unack (w : Warp) (fl : Flags) : (w.raise fl).unack = w.unack := rfl
@[simp] theorem Warp.raise_nextSeq (w : Warp) (fl : Flags) : (w.raise fl).nextSeq = w.nextSeq := rfl
@[simp] theorem Warp.raise_contrib (w : Warp) (fl : Flags) : (w.raise fl).contrib = w.contrib := rfl
@[simp] theorem Warp.raise_probe (w : Warp) (fl : Flags) : (w.raise fl).probe = w.probe := rfl
@[simp] theorem Warp.raise_paramsLoaded (w : Warp) (fl : Flags) : (w.raise fl).paramsLoaded = w.paramsLoaded := rfl
@[simp] theorem Warp.raise_stallUntil (w : Warp) (fl : Flags) : (w.raise fl).stallUntil = w.stallUntil := rfl
@[simp] theorem Warp.raise_lastIssue (w : Warp) (fl : Flags) : (w.raise fl).lastIssue = w.lastIssue := rfl
@[simp] theorem Warp.raise_issues (w : Warp) (fl : Flags) : (w.raise fl).issues = w.issues := rfl
@[simp] theorem Warp.raise_laneIssue (w : Warp) (fl : Flags) : (w.raise fl).laneIssue = w.laneIssue := rfl
@[simp] theorem Warp.raise_yielded (w : Warp) (fl : Flags) : (w.raise fl).yielded = w.yielded := rfl
@[simp] theorem Warp.raise_residence (w : Warp) (fl : Flags) : (w.raise fl).residence = w.residence := rfl
@[simp] theorem Warp.raise_sinceCycle (w : Warp) (fl : Flags) : (w.raise fl).sinceCycle = w.sinceCycle := rfl
@[simp] theorem Warp.raise_sinceNs (w : Warp) (fl : Flags) : (w.raise fl).sinceNs = w.sinceNs := rfl
@[simp] theorem Warp.raise_stallSince (w : Warp) (fl : Flags) : (w.raise fl).stallSince = w.stallSince := rfl
@[simp] theorem Warp.raise_readySince (w : Warp) (fl : Flags) : (w.raise fl).readySince = w.readySince := rfl
@[simp] theorem Warp.raise_dirty (w : Warp) (fl : Flags) : (w.raise fl).dirty = w.dirty := rfl
@[simp] theorem Warp.raise_saves (w : Warp) (fl : Flags) : (w.raise fl).saves = w.saves := rfl
@[simp] theorem Warp.raise_firstSaved (w : Warp) (fl : Flags) : (w.raise fl).firstSaved = w.firstSaved := rfl
@[simp] theorem Warp.raise_ckpt (w : Warp) (fl : Flags) : (w.raise fl).ckpt = w.ckpt := rfl
@[simp] theorem Warp.raise_pubWait (w : Warp) (fl : Flags) : (w.raise fl).pubWait = w.pubWait := rfl
@[simp] theorem Warp.raise_hitRec (w : Warp) (fl : Flags) : (w.raise fl).hitRec = w.hitRec := rfl
@[simp] theorem Warp.raise_rayInfo (w : Warp) (fl : Flags) : (w.raise fl).rayInfo = w.rayInfo := rfl
@[simp] theorem Warp.raise_hitKey (w : Warp) (fl : Flags) : (w.raise fl).hitKey = w.hitKey := rfl

/-! ## `Warp.raiseM` -/

@[simp] theorem Warp.raiseM_tid (w : Warp) (fl : BitVec 2) : (w.raiseM fl).tid = w.tid := rfl
@[simp] theorem Warp.raiseM_num (w : Warp) (fl : BitVec 2) : (w.raiseM fl).num = w.num := rfl
@[simp] theorem Warp.raiseM_launched (w : Warp) (fl : BitVec 2) : (w.raiseM fl).launched = w.launched := rfl
@[simp] theorem Warp.raiseM_exited (w : Warp) (fl : BitVec 2) : (w.raiseM fl).exited = w.exited := rfl
@[simp] theorem Warp.raiseM_parked (w : Warp) (fl : BitVec 2) : (w.raiseM fl).parked = w.parked := rfl
@[simp] theorem Warp.raiseM_stopped (w : Warp) (fl : BitVec 2) : (w.raiseM fl).stopped = w.stopped := rfl
@[simp] theorem Warp.raiseM_ready (w : Warp) (fl : BitVec 2) : (w.raiseM fl).ready = w.ready := rfl
@[simp] theorem Warp.raiseM_pc (w : Warp) (fl : BitVec 2) : (w.raiseM fl).pc = w.pc := rfl
@[simp] theorem Warp.raiseM_waits (w : Warp) (fl : BitVec 2) : (w.raiseM fl).waits = w.waits := rfl
@[simp] theorem Warp.raiseM_vec (w : Warp) (fl : BitVec 2) : (w.raiseM fl).vec = w.vec := rfl
@[simp] theorem Warp.raiseM_uni (w : Warp) (fl : BitVec 2) : (w.raiseM fl).uni = w.uni := rfl
@[simp] theorem Warp.raiseM_pred (w : Warp) (fl : BitVec 2) : (w.raiseM fl).pred = w.pred := rfl
@[simp] theorem Warp.raiseM_tile (w : Warp) (fl : BitVec 2) : (w.raiseM fl).tile = w.tile := rfl
@[simp] theorem Warp.raiseM_mask (w : Warp) (fl : BitVec 2) : (w.raiseM fl).mask = w.mask := rfl
@[simp] theorem Warp.raiseM_net (w : Warp) (fl : BitVec 2) : (w.raiseM fl).net = w.net := rfl
@[simp] theorem Warp.raiseM_win (w : Warp) (fl : BitVec 2) : (w.raiseM fl).win = w.win := rfl
@[simp] theorem Warp.raiseM_winSeq (w : Warp) (fl : BitVec 2) : (w.raiseM fl).winSeq = w.winSeq := rfl
@[simp] theorem Warp.raiseM_rdCnt (w : Warp) (fl : BitVec 2) : (w.raiseM fl).rdCnt = w.rdCnt := rfl
@[simp] theorem Warp.raiseM_pubCnt (w : Warp) (fl : BitVec 2) : (w.raiseM fl).pubCnt = w.pubCnt := rfl
@[simp] theorem Warp.raiseM_loops (w : Warp) (fl : BitVec 2) : (w.raiseM fl).loops = w.loops := rfl
@[simp] theorem Warp.raiseM_fstat (w : Warp) (fl : BitVec 2) : (w.raiseM fl).fstat = w.fstat := rfl
@[simp] theorem Warp.raiseM_mstat (w : Warp) (fl : BitVec 2) : (w.raiseM fl).mstat = w.mstat ||| fl := rfl
@[simp] theorem Warp.raiseM_qseal (w : Warp) (fl : BitVec 2) : (w.raiseM fl).qseal = w.qseal := rfl
@[simp] theorem Warp.raiseM_srctr (w : Warp) (fl : BitVec 2) : (w.raiseM fl).srctr = w.srctr := rfl
@[simp] theorem Warp.raiseM_atomo (w : Warp) (fl : BitVec 2) : (w.raiseM fl).atomo = w.atomo := rfl
@[simp] theorem Warp.raiseM_mprog (w : Warp) (fl : BitVec 2) : (w.raiseM fl).mprog = w.mprog := rfl
@[simp] theorem Warp.raiseM_mpark (w : Warp) (fl : BitVec 2) : (w.raiseM fl).mpark = w.mpark := rfl
@[simp] theorem Warp.raiseM_emu (w : Warp) (fl : BitVec 2) : (w.raiseM fl).emu = w.emu := rfl
@[simp] theorem Warp.raiseM_emuRes (w : Warp) (fl : BitVec 2) : (w.raiseM fl).emuRes = w.emuRes := rfl
@[simp] theorem Warp.raiseM_dbg (w : Warp) (fl : BitVec 2) : (w.raiseM fl).dbg = w.dbg := rfl
@[simp] theorem Warp.raiseM_spill (w : Warp) (fl : BitVec 2) : (w.raiseM fl).spill = w.spill := rfl
@[simp] theorem Warp.raiseM_fwd (w : Warp) (fl : BitVec 2) : (w.raiseM fl).fwd = w.fwd := rfl
@[simp] theorem Warp.raiseM_pend (w : Warp) (fl : BitVec 2) : (w.raiseM fl).pend = w.pend := rfl
@[simp] theorem Warp.raiseM_sq (w : Warp) (fl : BitVec 2) : (w.raiseM fl).sq = w.sq := rfl
@[simp] theorem Warp.raiseM_unack (w : Warp) (fl : BitVec 2) : (w.raiseM fl).unack = w.unack := rfl
@[simp] theorem Warp.raiseM_nextSeq (w : Warp) (fl : BitVec 2) : (w.raiseM fl).nextSeq = w.nextSeq := rfl
@[simp] theorem Warp.raiseM_contrib (w : Warp) (fl : BitVec 2) : (w.raiseM fl).contrib = w.contrib := rfl
@[simp] theorem Warp.raiseM_probe (w : Warp) (fl : BitVec 2) : (w.raiseM fl).probe = w.probe := rfl
@[simp] theorem Warp.raiseM_paramsLoaded (w : Warp) (fl : BitVec 2) : (w.raiseM fl).paramsLoaded = w.paramsLoaded := rfl
@[simp] theorem Warp.raiseM_stallUntil (w : Warp) (fl : BitVec 2) : (w.raiseM fl).stallUntil = w.stallUntil := rfl
@[simp] theorem Warp.raiseM_lastIssue (w : Warp) (fl : BitVec 2) : (w.raiseM fl).lastIssue = w.lastIssue := rfl
@[simp] theorem Warp.raiseM_issues (w : Warp) (fl : BitVec 2) : (w.raiseM fl).issues = w.issues := rfl
@[simp] theorem Warp.raiseM_laneIssue (w : Warp) (fl : BitVec 2) : (w.raiseM fl).laneIssue = w.laneIssue := rfl
@[simp] theorem Warp.raiseM_yielded (w : Warp) (fl : BitVec 2) : (w.raiseM fl).yielded = w.yielded := rfl
@[simp] theorem Warp.raiseM_residence (w : Warp) (fl : BitVec 2) : (w.raiseM fl).residence = w.residence := rfl
@[simp] theorem Warp.raiseM_sinceCycle (w : Warp) (fl : BitVec 2) : (w.raiseM fl).sinceCycle = w.sinceCycle := rfl
@[simp] theorem Warp.raiseM_sinceNs (w : Warp) (fl : BitVec 2) : (w.raiseM fl).sinceNs = w.sinceNs := rfl
@[simp] theorem Warp.raiseM_stallSince (w : Warp) (fl : BitVec 2) : (w.raiseM fl).stallSince = w.stallSince := rfl
@[simp] theorem Warp.raiseM_readySince (w : Warp) (fl : BitVec 2) : (w.raiseM fl).readySince = w.readySince := rfl
@[simp] theorem Warp.raiseM_dirty (w : Warp) (fl : BitVec 2) : (w.raiseM fl).dirty = w.dirty := rfl
@[simp] theorem Warp.raiseM_saves (w : Warp) (fl : BitVec 2) : (w.raiseM fl).saves = w.saves := rfl
@[simp] theorem Warp.raiseM_firstSaved (w : Warp) (fl : BitVec 2) : (w.raiseM fl).firstSaved = w.firstSaved := rfl
@[simp] theorem Warp.raiseM_ckpt (w : Warp) (fl : BitVec 2) : (w.raiseM fl).ckpt = w.ckpt := rfl
@[simp] theorem Warp.raiseM_pubWait (w : Warp) (fl : BitVec 2) : (w.raiseM fl).pubWait = w.pubWait := rfl
@[simp] theorem Warp.raiseM_hitRec (w : Warp) (fl : BitVec 2) : (w.raiseM fl).hitRec = w.hitRec := rfl
@[simp] theorem Warp.raiseM_rayInfo (w : Warp) (fl : BitVec 2) : (w.raiseM fl).rayInfo = w.rayInfo := rfl
@[simp] theorem Warp.raiseM_hitKey (w : Warp) (fl : BitVec 2) : (w.raiseM fl).hitKey = w.hitKey := rfl

/-! ## `Warp.setLoops` -/

@[simp] theorem Warp.setLoops_tid (w : Warp) (l : Nat) (st : List LoopEnt) : (w.setLoops l st).tid = w.tid := rfl
@[simp] theorem Warp.setLoops_num (w : Warp) (l : Nat) (st : List LoopEnt) : (w.setLoops l st).num = w.num := rfl
@[simp] theorem Warp.setLoops_launched (w : Warp) (l : Nat) (st : List LoopEnt) : (w.setLoops l st).launched = w.launched := rfl
@[simp] theorem Warp.setLoops_exited (w : Warp) (l : Nat) (st : List LoopEnt) : (w.setLoops l st).exited = w.exited := rfl
@[simp] theorem Warp.setLoops_parked (w : Warp) (l : Nat) (st : List LoopEnt) : (w.setLoops l st).parked = w.parked := rfl
@[simp] theorem Warp.setLoops_stopped (w : Warp) (l : Nat) (st : List LoopEnt) : (w.setLoops l st).stopped = w.stopped := rfl
@[simp] theorem Warp.setLoops_ready (w : Warp) (l : Nat) (st : List LoopEnt) : (w.setLoops l st).ready = w.ready := rfl
@[simp] theorem Warp.setLoops_pc (w : Warp) (l : Nat) (st : List LoopEnt) : (w.setLoops l st).pc = w.pc := rfl
@[simp] theorem Warp.setLoops_waits (w : Warp) (l : Nat) (st : List LoopEnt) : (w.setLoops l st).waits = w.waits := rfl
@[simp] theorem Warp.setLoops_vec (w : Warp) (l : Nat) (st : List LoopEnt) : (w.setLoops l st).vec = w.vec := rfl
@[simp] theorem Warp.setLoops_uni (w : Warp) (l : Nat) (st : List LoopEnt) : (w.setLoops l st).uni = w.uni := rfl
@[simp] theorem Warp.setLoops_pred (w : Warp) (l : Nat) (st : List LoopEnt) : (w.setLoops l st).pred = w.pred := rfl
@[simp] theorem Warp.setLoops_tile (w : Warp) (l : Nat) (st : List LoopEnt) : (w.setLoops l st).tile = w.tile := rfl
@[simp] theorem Warp.setLoops_mask (w : Warp) (l : Nat) (st : List LoopEnt) : (w.setLoops l st).mask = w.mask := rfl
@[simp] theorem Warp.setLoops_net (w : Warp) (l : Nat) (st : List LoopEnt) : (w.setLoops l st).net = w.net := rfl
@[simp] theorem Warp.setLoops_win (w : Warp) (l : Nat) (st : List LoopEnt) : (w.setLoops l st).win = w.win := rfl
@[simp] theorem Warp.setLoops_winSeq (w : Warp) (l : Nat) (st : List LoopEnt) : (w.setLoops l st).winSeq = w.winSeq := rfl
@[simp] theorem Warp.setLoops_rdCnt (w : Warp) (l : Nat) (st : List LoopEnt) : (w.setLoops l st).rdCnt = w.rdCnt := rfl
@[simp] theorem Warp.setLoops_pubCnt (w : Warp) (l : Nat) (st : List LoopEnt) : (w.setLoops l st).pubCnt = w.pubCnt := rfl
@[simp] theorem Warp.setLoops_loops (w : Warp) (l : Nat) (st : List LoopEnt) : (w.setLoops l st).loops = if st.isEmpty then tdel w.loops l else tset w.loops l st := rfl
@[simp] theorem Warp.setLoops_fstat (w : Warp) (l : Nat) (st : List LoopEnt) : (w.setLoops l st).fstat = w.fstat := rfl
@[simp] theorem Warp.setLoops_mstat (w : Warp) (l : Nat) (st : List LoopEnt) : (w.setLoops l st).mstat = w.mstat := rfl
@[simp] theorem Warp.setLoops_qseal (w : Warp) (l : Nat) (st : List LoopEnt) : (w.setLoops l st).qseal = w.qseal := rfl
@[simp] theorem Warp.setLoops_srctr (w : Warp) (l : Nat) (st : List LoopEnt) : (w.setLoops l st).srctr = w.srctr := rfl
@[simp] theorem Warp.setLoops_atomo (w : Warp) (l : Nat) (st : List LoopEnt) : (w.setLoops l st).atomo = w.atomo := rfl
@[simp] theorem Warp.setLoops_mprog (w : Warp) (l : Nat) (st : List LoopEnt) : (w.setLoops l st).mprog = w.mprog := rfl
@[simp] theorem Warp.setLoops_mpark (w : Warp) (l : Nat) (st : List LoopEnt) : (w.setLoops l st).mpark = w.mpark := rfl
@[simp] theorem Warp.setLoops_emu (w : Warp) (l : Nat) (st : List LoopEnt) : (w.setLoops l st).emu = w.emu := rfl
@[simp] theorem Warp.setLoops_emuRes (w : Warp) (l : Nat) (st : List LoopEnt) : (w.setLoops l st).emuRes = w.emuRes := rfl
@[simp] theorem Warp.setLoops_dbg (w : Warp) (l : Nat) (st : List LoopEnt) : (w.setLoops l st).dbg = w.dbg := rfl
@[simp] theorem Warp.setLoops_spill (w : Warp) (l : Nat) (st : List LoopEnt) : (w.setLoops l st).spill = w.spill := rfl
@[simp] theorem Warp.setLoops_fwd (w : Warp) (l : Nat) (st : List LoopEnt) : (w.setLoops l st).fwd = w.fwd := rfl
@[simp] theorem Warp.setLoops_pend (w : Warp) (l : Nat) (st : List LoopEnt) : (w.setLoops l st).pend = w.pend := rfl
@[simp] theorem Warp.setLoops_sq (w : Warp) (l : Nat) (st : List LoopEnt) : (w.setLoops l st).sq = w.sq := rfl
@[simp] theorem Warp.setLoops_unack (w : Warp) (l : Nat) (st : List LoopEnt) : (w.setLoops l st).unack = w.unack := rfl
@[simp] theorem Warp.setLoops_nextSeq (w : Warp) (l : Nat) (st : List LoopEnt) : (w.setLoops l st).nextSeq = w.nextSeq := rfl
@[simp] theorem Warp.setLoops_contrib (w : Warp) (l : Nat) (st : List LoopEnt) : (w.setLoops l st).contrib = w.contrib := rfl
@[simp] theorem Warp.setLoops_probe (w : Warp) (l : Nat) (st : List LoopEnt) : (w.setLoops l st).probe = w.probe := rfl
@[simp] theorem Warp.setLoops_paramsLoaded (w : Warp) (l : Nat) (st : List LoopEnt) : (w.setLoops l st).paramsLoaded = w.paramsLoaded := rfl
@[simp] theorem Warp.setLoops_stallUntil (w : Warp) (l : Nat) (st : List LoopEnt) : (w.setLoops l st).stallUntil = w.stallUntil := rfl
@[simp] theorem Warp.setLoops_lastIssue (w : Warp) (l : Nat) (st : List LoopEnt) : (w.setLoops l st).lastIssue = w.lastIssue := rfl
@[simp] theorem Warp.setLoops_issues (w : Warp) (l : Nat) (st : List LoopEnt) : (w.setLoops l st).issues = w.issues := rfl
@[simp] theorem Warp.setLoops_laneIssue (w : Warp) (l : Nat) (st : List LoopEnt) : (w.setLoops l st).laneIssue = w.laneIssue := rfl
@[simp] theorem Warp.setLoops_yielded (w : Warp) (l : Nat) (st : List LoopEnt) : (w.setLoops l st).yielded = w.yielded := rfl
@[simp] theorem Warp.setLoops_residence (w : Warp) (l : Nat) (st : List LoopEnt) : (w.setLoops l st).residence = w.residence := rfl
@[simp] theorem Warp.setLoops_sinceCycle (w : Warp) (l : Nat) (st : List LoopEnt) : (w.setLoops l st).sinceCycle = w.sinceCycle := rfl
@[simp] theorem Warp.setLoops_sinceNs (w : Warp) (l : Nat) (st : List LoopEnt) : (w.setLoops l st).sinceNs = w.sinceNs := rfl
@[simp] theorem Warp.setLoops_stallSince (w : Warp) (l : Nat) (st : List LoopEnt) : (w.setLoops l st).stallSince = w.stallSince := rfl
@[simp] theorem Warp.setLoops_readySince (w : Warp) (l : Nat) (st : List LoopEnt) : (w.setLoops l st).readySince = w.readySince := rfl
@[simp] theorem Warp.setLoops_dirty (w : Warp) (l : Nat) (st : List LoopEnt) : (w.setLoops l st).dirty = w.dirty := rfl
@[simp] theorem Warp.setLoops_saves (w : Warp) (l : Nat) (st : List LoopEnt) : (w.setLoops l st).saves = w.saves := rfl
@[simp] theorem Warp.setLoops_firstSaved (w : Warp) (l : Nat) (st : List LoopEnt) : (w.setLoops l st).firstSaved = w.firstSaved := rfl
@[simp] theorem Warp.setLoops_ckpt (w : Warp) (l : Nat) (st : List LoopEnt) : (w.setLoops l st).ckpt = w.ckpt := rfl
@[simp] theorem Warp.setLoops_pubWait (w : Warp) (l : Nat) (st : List LoopEnt) : (w.setLoops l st).pubWait = w.pubWait := rfl
@[simp] theorem Warp.setLoops_hitRec (w : Warp) (l : Nat) (st : List LoopEnt) : (w.setLoops l st).hitRec = w.hitRec := rfl
@[simp] theorem Warp.setLoops_rayInfo (w : Warp) (l : Nat) (st : List LoopEnt) : (w.setLoops l st).rayInfo = w.rayInfo := rfl
@[simp] theorem Warp.setLoops_hitKey (w : Warp) (l : Nat) (st : List LoopEnt) : (w.setLoops l st).hitKey = w.hitKey := rfl

/-! ## `Warp.setWait` -/

@[simp] theorem Warp.setWait_tid (w : Warp) (ls : List Nat) (x : LaneWait) : (w.setWait ls x).tid = w.tid := rfl
@[simp] theorem Warp.setWait_num (w : Warp) (ls : List Nat) (x : LaneWait) : (w.setWait ls x).num = w.num := rfl
@[simp] theorem Warp.setWait_launched (w : Warp) (ls : List Nat) (x : LaneWait) : (w.setWait ls x).launched = w.launched := rfl
@[simp] theorem Warp.setWait_exited (w : Warp) (ls : List Nat) (x : LaneWait) : (w.setWait ls x).exited = w.exited := rfl
@[simp] theorem Warp.setWait_parked (w : Warp) (ls : List Nat) (x : LaneWait) : (w.setWait ls x).parked = w.parked := rfl
@[simp] theorem Warp.setWait_stopped (w : Warp) (ls : List Nat) (x : LaneWait) : (w.setWait ls x).stopped = w.stopped := rfl
@[simp] theorem Warp.setWait_ready (w : Warp) (ls : List Nat) (x : LaneWait) : (w.setWait ls x).ready = w.ready := rfl
@[simp] theorem Warp.setWait_pc (w : Warp) (ls : List Nat) (x : LaneWait) : (w.setWait ls x).pc = w.pc := rfl
@[simp] theorem Warp.setWait_waits (w : Warp) (ls : List Nat) (x : LaneWait) : (w.setWait ls x).waits = ls.foldl (fun t l => tset t l x) w.waits := rfl
@[simp] theorem Warp.setWait_vec (w : Warp) (ls : List Nat) (x : LaneWait) : (w.setWait ls x).vec = w.vec := rfl
@[simp] theorem Warp.setWait_uni (w : Warp) (ls : List Nat) (x : LaneWait) : (w.setWait ls x).uni = w.uni := rfl
@[simp] theorem Warp.setWait_pred (w : Warp) (ls : List Nat) (x : LaneWait) : (w.setWait ls x).pred = w.pred := rfl
@[simp] theorem Warp.setWait_tile (w : Warp) (ls : List Nat) (x : LaneWait) : (w.setWait ls x).tile = w.tile := rfl
@[simp] theorem Warp.setWait_mask (w : Warp) (ls : List Nat) (x : LaneWait) : (w.setWait ls x).mask = w.mask := rfl
@[simp] theorem Warp.setWait_net (w : Warp) (ls : List Nat) (x : LaneWait) : (w.setWait ls x).net = w.net := rfl
@[simp] theorem Warp.setWait_win (w : Warp) (ls : List Nat) (x : LaneWait) : (w.setWait ls x).win = w.win := rfl
@[simp] theorem Warp.setWait_winSeq (w : Warp) (ls : List Nat) (x : LaneWait) : (w.setWait ls x).winSeq = w.winSeq := rfl
@[simp] theorem Warp.setWait_rdCnt (w : Warp) (ls : List Nat) (x : LaneWait) : (w.setWait ls x).rdCnt = w.rdCnt := rfl
@[simp] theorem Warp.setWait_pubCnt (w : Warp) (ls : List Nat) (x : LaneWait) : (w.setWait ls x).pubCnt = w.pubCnt := rfl
@[simp] theorem Warp.setWait_loops (w : Warp) (ls : List Nat) (x : LaneWait) : (w.setWait ls x).loops = w.loops := rfl
@[simp] theorem Warp.setWait_fstat (w : Warp) (ls : List Nat) (x : LaneWait) : (w.setWait ls x).fstat = w.fstat := rfl
@[simp] theorem Warp.setWait_mstat (w : Warp) (ls : List Nat) (x : LaneWait) : (w.setWait ls x).mstat = w.mstat := rfl
@[simp] theorem Warp.setWait_qseal (w : Warp) (ls : List Nat) (x : LaneWait) : (w.setWait ls x).qseal = w.qseal := rfl
@[simp] theorem Warp.setWait_srctr (w : Warp) (ls : List Nat) (x : LaneWait) : (w.setWait ls x).srctr = w.srctr := rfl
@[simp] theorem Warp.setWait_atomo (w : Warp) (ls : List Nat) (x : LaneWait) : (w.setWait ls x).atomo = w.atomo := rfl
@[simp] theorem Warp.setWait_mprog (w : Warp) (ls : List Nat) (x : LaneWait) : (w.setWait ls x).mprog = w.mprog := rfl
@[simp] theorem Warp.setWait_mpark (w : Warp) (ls : List Nat) (x : LaneWait) : (w.setWait ls x).mpark = w.mpark := rfl
@[simp] theorem Warp.setWait_emu (w : Warp) (ls : List Nat) (x : LaneWait) : (w.setWait ls x).emu = w.emu := rfl
@[simp] theorem Warp.setWait_emuRes (w : Warp) (ls : List Nat) (x : LaneWait) : (w.setWait ls x).emuRes = w.emuRes := rfl
@[simp] theorem Warp.setWait_dbg (w : Warp) (ls : List Nat) (x : LaneWait) : (w.setWait ls x).dbg = w.dbg := rfl
@[simp] theorem Warp.setWait_spill (w : Warp) (ls : List Nat) (x : LaneWait) : (w.setWait ls x).spill = w.spill := rfl
@[simp] theorem Warp.setWait_fwd (w : Warp) (ls : List Nat) (x : LaneWait) : (w.setWait ls x).fwd = w.fwd := rfl
@[simp] theorem Warp.setWait_pend (w : Warp) (ls : List Nat) (x : LaneWait) : (w.setWait ls x).pend = w.pend := rfl
@[simp] theorem Warp.setWait_sq (w : Warp) (ls : List Nat) (x : LaneWait) : (w.setWait ls x).sq = w.sq := rfl
@[simp] theorem Warp.setWait_unack (w : Warp) (ls : List Nat) (x : LaneWait) : (w.setWait ls x).unack = w.unack := rfl
@[simp] theorem Warp.setWait_nextSeq (w : Warp) (ls : List Nat) (x : LaneWait) : (w.setWait ls x).nextSeq = w.nextSeq := rfl
@[simp] theorem Warp.setWait_contrib (w : Warp) (ls : List Nat) (x : LaneWait) : (w.setWait ls x).contrib = w.contrib := rfl
@[simp] theorem Warp.setWait_probe (w : Warp) (ls : List Nat) (x : LaneWait) : (w.setWait ls x).probe = w.probe := rfl
@[simp] theorem Warp.setWait_paramsLoaded (w : Warp) (ls : List Nat) (x : LaneWait) : (w.setWait ls x).paramsLoaded = w.paramsLoaded := rfl
@[simp] theorem Warp.setWait_stallUntil (w : Warp) (ls : List Nat) (x : LaneWait) : (w.setWait ls x).stallUntil = w.stallUntil := rfl
@[simp] theorem Warp.setWait_lastIssue (w : Warp) (ls : List Nat) (x : LaneWait) : (w.setWait ls x).lastIssue = w.lastIssue := rfl
@[simp] theorem Warp.setWait_issues (w : Warp) (ls : List Nat) (x : LaneWait) : (w.setWait ls x).issues = w.issues := rfl
@[simp] theorem Warp.setWait_laneIssue (w : Warp) (ls : List Nat) (x : LaneWait) : (w.setWait ls x).laneIssue = w.laneIssue := rfl
@[simp] theorem Warp.setWait_yielded (w : Warp) (ls : List Nat) (x : LaneWait) : (w.setWait ls x).yielded = w.yielded := rfl
@[simp] theorem Warp.setWait_residence (w : Warp) (ls : List Nat) (x : LaneWait) : (w.setWait ls x).residence = w.residence := rfl
@[simp] theorem Warp.setWait_sinceCycle (w : Warp) (ls : List Nat) (x : LaneWait) : (w.setWait ls x).sinceCycle = w.sinceCycle := rfl
@[simp] theorem Warp.setWait_sinceNs (w : Warp) (ls : List Nat) (x : LaneWait) : (w.setWait ls x).sinceNs = w.sinceNs := rfl
@[simp] theorem Warp.setWait_stallSince (w : Warp) (ls : List Nat) (x : LaneWait) : (w.setWait ls x).stallSince = w.stallSince := rfl
@[simp] theorem Warp.setWait_readySince (w : Warp) (ls : List Nat) (x : LaneWait) : (w.setWait ls x).readySince = w.readySince := rfl
@[simp] theorem Warp.setWait_dirty (w : Warp) (ls : List Nat) (x : LaneWait) : (w.setWait ls x).dirty = w.dirty := rfl
@[simp] theorem Warp.setWait_saves (w : Warp) (ls : List Nat) (x : LaneWait) : (w.setWait ls x).saves = w.saves := rfl
@[simp] theorem Warp.setWait_firstSaved (w : Warp) (ls : List Nat) (x : LaneWait) : (w.setWait ls x).firstSaved = w.firstSaved := rfl
@[simp] theorem Warp.setWait_ckpt (w : Warp) (ls : List Nat) (x : LaneWait) : (w.setWait ls x).ckpt = w.ckpt := rfl
@[simp] theorem Warp.setWait_pubWait (w : Warp) (ls : List Nat) (x : LaneWait) : (w.setWait ls x).pubWait = w.pubWait := rfl
@[simp] theorem Warp.setWait_hitRec (w : Warp) (ls : List Nat) (x : LaneWait) : (w.setWait ls x).hitRec = w.hitRec := rfl
@[simp] theorem Warp.setWait_rayInfo (w : Warp) (ls : List Nat) (x : LaneWait) : (w.setWait ls x).rayInfo = w.rayInfo := rfl
@[simp] theorem Warp.setWait_hitKey (w : Warp) (ls : List Nat) (x : LaneWait) : (w.setWait ls x).hitKey = w.hitKey := rfl

/-! ## `State.issued`: the warp after a word of it has been issued (R80, R84) -/

@[simp] theorem State.issued_tid (s : State) (w : Warp) (m : Mask) : (s.issued w m).tid = w.tid := rfl
@[simp] theorem State.issued_num (s : State) (w : Warp) (m : Mask) : (s.issued w m).num = w.num := rfl
@[simp] theorem State.issued_launched (s : State) (w : Warp) (m : Mask) : (s.issued w m).launched = w.launched := rfl
@[simp] theorem State.issued_exited (s : State) (w : Warp) (m : Mask) : (s.issued w m).exited = w.exited := rfl
@[simp] theorem State.issued_parked (s : State) (w : Warp) (m : Mask) : (s.issued w m).parked = w.parked := rfl
@[simp] theorem State.issued_stopped (s : State) (w : Warp) (m : Mask) : (s.issued w m).stopped = w.stopped := rfl
@[simp] theorem State.issued_ready (s : State) (w : Warp) (m : Mask) : (s.issued w m).ready = w.ready := rfl
@[simp] theorem State.issued_pc (s : State) (w : Warp) (m : Mask) : (s.issued w m).pc = w.pc := rfl
@[simp] theorem State.issued_waits (s : State) (w : Warp) (m : Mask) : (s.issued w m).waits = w.waits := rfl
@[simp] theorem State.issued_vec (s : State) (w : Warp) (m : Mask) : (s.issued w m).vec = w.vec := rfl
@[simp] theorem State.issued_uni (s : State) (w : Warp) (m : Mask) : (s.issued w m).uni = w.uni := rfl
@[simp] theorem State.issued_pred (s : State) (w : Warp) (m : Mask) : (s.issued w m).pred = w.pred := rfl
@[simp] theorem State.issued_tile (s : State) (w : Warp) (m : Mask) : (s.issued w m).tile = w.tile := rfl
@[simp] theorem State.issued_mask (s : State) (w : Warp) (m : Mask) : (s.issued w m).mask = w.mask := rfl
@[simp] theorem State.issued_net (s : State) (w : Warp) (m : Mask) : (s.issued w m).net = w.net := rfl
@[simp] theorem State.issued_win (s : State) (w : Warp) (m : Mask) : (s.issued w m).win = w.win := rfl
@[simp] theorem State.issued_winSeq (s : State) (w : Warp) (m : Mask) : (s.issued w m).winSeq = w.winSeq := rfl
@[simp] theorem State.issued_rdCnt (s : State) (w : Warp) (m : Mask) : (s.issued w m).rdCnt = w.rdCnt := rfl
@[simp] theorem State.issued_pubCnt (s : State) (w : Warp) (m : Mask) : (s.issued w m).pubCnt = w.pubCnt := rfl
@[simp] theorem State.issued_loops (s : State) (w : Warp) (m : Mask) : (s.issued w m).loops = w.loops := rfl
@[simp] theorem State.issued_fstat (s : State) (w : Warp) (m : Mask) : (s.issued w m).fstat = w.fstat := rfl
@[simp] theorem State.issued_mstat (s : State) (w : Warp) (m : Mask) : (s.issued w m).mstat = w.mstat := rfl
@[simp] theorem State.issued_qseal (s : State) (w : Warp) (m : Mask) : (s.issued w m).qseal = w.qseal := rfl
@[simp] theorem State.issued_srctr (s : State) (w : Warp) (m : Mask) : (s.issued w m).srctr = w.srctr := rfl
@[simp] theorem State.issued_atomo (s : State) (w : Warp) (m : Mask) : (s.issued w m).atomo = w.atomo := rfl
@[simp] theorem State.issued_mprog (s : State) (w : Warp) (m : Mask) : (s.issued w m).mprog = w.mprog := rfl
@[simp] theorem State.issued_mpark (s : State) (w : Warp) (m : Mask) : (s.issued w m).mpark = w.mpark := rfl
@[simp] theorem State.issued_emu (s : State) (w : Warp) (m : Mask) : (s.issued w m).emu = w.emu := rfl
@[simp] theorem State.issued_emuRes (s : State) (w : Warp) (m : Mask) : (s.issued w m).emuRes = w.emuRes := rfl
@[simp] theorem State.issued_dbg (s : State) (w : Warp) (m : Mask) : (s.issued w m).dbg = w.dbg := rfl
@[simp] theorem State.issued_spill (s : State) (w : Warp) (m : Mask) : (s.issued w m).spill = w.spill := rfl
@[simp] theorem State.issued_fwd (s : State) (w : Warp) (m : Mask) : (s.issued w m).fwd = w.fwd := rfl
@[simp] theorem State.issued_pend (s : State) (w : Warp) (m : Mask) : (s.issued w m).pend = w.pend := rfl
@[simp] theorem State.issued_sq (s : State) (w : Warp) (m : Mask) : (s.issued w m).sq = w.sq := rfl
@[simp] theorem State.issued_unack (s : State) (w : Warp) (m : Mask) : (s.issued w m).unack = w.unack := rfl
@[simp] theorem State.issued_nextSeq (s : State) (w : Warp) (m : Mask) : (s.issued w m).nextSeq = w.nextSeq := rfl
@[simp] theorem State.issued_contrib (s : State) (w : Warp) (m : Mask) : (s.issued w m).contrib = w.contrib := rfl
@[simp] theorem State.issued_probe (s : State) (w : Warp) (m : Mask) : (s.issued w m).probe = w.probe := rfl
@[simp] theorem State.issued_paramsLoaded (s : State) (w : Warp) (m : Mask) : (s.issued w m).paramsLoaded = w.paramsLoaded := rfl
@[simp] theorem State.issued_residence (s : State) (w : Warp) (m : Mask) : (s.issued w m).residence = w.residence := rfl
@[simp] theorem State.issued_sinceCycle (s : State) (w : Warp) (m : Mask) : (s.issued w m).sinceCycle = w.sinceCycle := rfl
@[simp] theorem State.issued_sinceNs (s : State) (w : Warp) (m : Mask) : (s.issued w m).sinceNs = w.sinceNs := rfl
@[simp] theorem State.issued_stallSince (s : State) (w : Warp) (m : Mask) : (s.issued w m).stallSince = w.stallSince := rfl
@[simp] theorem State.issued_readySince (s : State) (w : Warp) (m : Mask) : (s.issued w m).readySince = w.readySince := rfl
@[simp] theorem State.issued_dirty (s : State) (w : Warp) (m : Mask) : (s.issued w m).dirty = w.dirty := rfl
@[simp] theorem State.issued_saves (s : State) (w : Warp) (m : Mask) : (s.issued w m).saves = w.saves := rfl
@[simp] theorem State.issued_firstSaved (s : State) (w : Warp) (m : Mask) : (s.issued w m).firstSaved = w.firstSaved := rfl
@[simp] theorem State.issued_ckpt (s : State) (w : Warp) (m : Mask) : (s.issued w m).ckpt = w.ckpt := rfl
@[simp] theorem State.issued_pubWait (s : State) (w : Warp) (m : Mask) : (s.issued w m).pubWait = w.pubWait := rfl
@[simp] theorem State.issued_hitRec (s : State) (w : Warp) (m : Mask) : (s.issued w m).hitRec = w.hitRec := rfl
@[simp] theorem State.issued_rayInfo (s : State) (w : Warp) (m : Mask) : (s.issued w m).rayInfo = w.rayInfo := rfl
@[simp] theorem State.issued_hitKey (s : State) (w : Warp) (m : Mask) : (s.issued w m).hitKey = w.hitKey := rfl
@[simp] theorem State.issued_issues (s : State) (w : Warp) (m : Mask) : (s.issued w m).issues = w.issues + 1 := rfl
@[simp] theorem State.issued_lastIssue (s : State) (w : Warp) (m : Mask) : (s.issued w m).lastIssue = s.now := rfl

/-! ## Lookups after updates -/

@[simp] theorem State.warp?_setWarp (s : State) (i j : Nat) (w : Warp) :
    (s.setWarp i w).warp? j = if j = i then some w else s.warp? j := tget_tset _ _ _ _

@[simp] theorem State.warp?_modWarp (s : State) (i j : Nat) (f : Warp → Warp) :
    (s.modWarp i f).warp? j = if j = i then (s.warp? i).map f else s.warp? j := tget_tmod _ _ _ _

@[simp] theorem State.team?_setTeam (s : State) (i j : Nat) (t : Team) :
    (s.setTeam i t).team? j = if j = i then some t else s.team? j := tget_tset _ _ _ _

@[simp] theorem State.team?_modTeam (s : State) (i j : Nat) (f : Team → Team) :
    (s.modTeam i f).team? j = if j = i then (s.team? i).map f else s.team? j := tget_tmod _ _ _ _

@[simp] theorem State.grid?_modGrid (s : State) (i j : Nat) (f : Grid → Grid) :
    (s.modGrid i f).grid? j = if j = i then (s.grid? i).map f else s.grid? j := tget_tmod _ _ _ _

@[simp] theorem State.queue?_modQueue (s : State) (i j : Nat) (f : Queue → Queue) :
    (s.modQueue i f).queue? j = if j = i then (s.queue? i).map f else s.queue? j := tget_tmod _ _ _ _

@[simp] theorem State.core_setCore (s : State) (i j : Nat) (c : Core) :
    (s.setCore i c).core j = if j = i then c else s.core j := by
  simp only [State.core, State.setCore_cores, tget_tset]
  split <;> rfl

@[simp] theorem State.core_modCore (s : State) (i j : Nat) (f : Core → Core) :
    (s.modCore i f).core j = if j = i then f (s.core i) else s.core j := by simp [State.modCore]

@[simp] theorem State.part_modPart (s : State) (i j : Nat) (f : Partition → Partition) :
    (s.modPart i f).part j = if j = i then f (s.part i) else s.part j := by
  simp only [State.part, State.modPart_parts, tget_tset]
  split <;> rfl

@[simp] theorem State.die_modDie (s : State) (i j : Nat) (f : Die → Die) :
    (s.modDie i f).die j = if j = i then f (s.die i) else s.die j := by
  simp only [State.die, State.modDie_dies, tget_tset]
  split <;> rfl

/-! ## Updates that do not meet -/

@[simp] theorem State.team?_setWarp (s : State) (wid : Nat) (w : Warp) (j : Nat) : (s.setWarp wid w).team? j = s.team? j := rfl
@[simp] theorem State.grid?_setWarp (s : State) (wid : Nat) (w : Warp) (j : Nat) : (s.setWarp wid w).grid? j = s.grid? j := rfl
@[simp] theorem State.queue?_setWarp (s : State) (wid : Nat) (w : Warp) (j : Nat) : (s.setWarp wid w).queue? j = s.queue? j := rfl
@[simp] theorem State.core_setWarp (s : State) (wid : Nat) (w : Warp) (j : Nat) : (s.setWarp wid w).core j = s.core j := rfl
@[simp] theorem State.part_setWarp (s : State) (wid : Nat) (w : Warp) (j : Nat) : (s.setWarp wid w).part j = s.part j := rfl
@[simp] theorem State.die_setWarp (s : State) (wid : Nat) (w : Warp) (j : Nat) : (s.setWarp wid w).die j = s.die j := rfl
@[simp] theorem State.byte_setWarp (s : State) (wid : Nat) (w : Warp) (j : Nat) : (s.setWarp wid w).byte j = s.byte j := rfl
@[simp] theorem State.team?_modWarp (s : State) (wid : Nat) (f : Warp → Warp) (j : Nat) : (s.modWarp wid f).team? j = s.team? j := rfl
@[simp] theorem State.grid?_modWarp (s : State) (wid : Nat) (f : Warp → Warp) (j : Nat) : (s.modWarp wid f).grid? j = s.grid? j := rfl
@[simp] theorem State.queue?_modWarp (s : State) (wid : Nat) (f : Warp → Warp) (j : Nat) : (s.modWarp wid f).queue? j = s.queue? j := rfl
@[simp] theorem State.core_modWarp (s : State) (wid : Nat) (f : Warp → Warp) (j : Nat) : (s.modWarp wid f).core j = s.core j := rfl
@[simp] theorem State.part_modWarp (s : State) (wid : Nat) (f : Warp → Warp) (j : Nat) : (s.modWarp wid f).part j = s.part j := rfl
@[simp] theorem State.die_modWarp (s : State) (wid : Nat) (f : Warp → Warp) (j : Nat) : (s.modWarp wid f).die j = s.die j := rfl
@[simp] theorem State.byte_modWarp (s : State) (wid : Nat) (f : Warp → Warp) (j : Nat) : (s.modWarp wid f).byte j = s.byte j := rfl
@[simp] theorem State.warp?_setTeam (s : State) (tid : Nat) (t : Team) (j : Nat) : (s.setTeam tid t).warp? j = s.warp? j := rfl
@[simp] theorem State.grid?_setTeam (s : State) (tid : Nat) (t : Team) (j : Nat) : (s.setTeam tid t).grid? j = s.grid? j := rfl
@[simp] theorem State.queue?_setTeam (s : State) (tid : Nat) (t : Team) (j : Nat) : (s.setTeam tid t).queue? j = s.queue? j := rfl
@[simp] theorem State.core_setTeam (s : State) (tid : Nat) (t : Team) (j : Nat) : (s.setTeam tid t).core j = s.core j := rfl
@[simp] theorem State.part_setTeam (s : State) (tid : Nat) (t : Team) (j : Nat) : (s.setTeam tid t).part j = s.part j := rfl
@[simp] theorem State.die_setTeam (s : State) (tid : Nat) (t : Team) (j : Nat) : (s.setTeam tid t).die j = s.die j := rfl
@[simp] theorem State.byte_setTeam (s : State) (tid : Nat) (t : Team) (j : Nat) : (s.setTeam tid t).byte j = s.byte j := rfl
@[simp] theorem State.warp?_modTeam (s : State) (tid : Nat) (f : Team → Team) (j : Nat) : (s.modTeam tid f).warp? j = s.warp? j := rfl
@[simp] theorem State.grid?_modTeam (s : State) (tid : Nat) (f : Team → Team) (j : Nat) : (s.modTeam tid f).grid? j = s.grid? j := rfl
@[simp] theorem State.queue?_modTeam (s : State) (tid : Nat) (f : Team → Team) (j : Nat) : (s.modTeam tid f).queue? j = s.queue? j := rfl
@[simp] theorem State.core_modTeam (s : State) (tid : Nat) (f : Team → Team) (j : Nat) : (s.modTeam tid f).core j = s.core j := rfl
@[simp] theorem State.part_modTeam (s : State) (tid : Nat) (f : Team → Team) (j : Nat) : (s.modTeam tid f).part j = s.part j := rfl
@[simp] theorem State.die_modTeam (s : State) (tid : Nat) (f : Team → Team) (j : Nat) : (s.modTeam tid f).die j = s.die j := rfl
@[simp] theorem State.byte_modTeam (s : State) (tid : Nat) (f : Team → Team) (j : Nat) : (s.modTeam tid f).byte j = s.byte j := rfl
@[simp] theorem State.warp?_modGrid (s : State) (gid : Nat) (f : Grid → Grid) (j : Nat) : (s.modGrid gid f).warp? j = s.warp? j := rfl
@[simp] theorem State.team?_modGrid (s : State) (gid : Nat) (f : Grid → Grid) (j : Nat) : (s.modGrid gid f).team? j = s.team? j := rfl
@[simp] theorem State.queue?_modGrid (s : State) (gid : Nat) (f : Grid → Grid) (j : Nat) : (s.modGrid gid f).queue? j = s.queue? j := rfl
@[simp] theorem State.core_modGrid (s : State) (gid : Nat) (f : Grid → Grid) (j : Nat) : (s.modGrid gid f).core j = s.core j := rfl
@[simp] theorem State.part_modGrid (s : State) (gid : Nat) (f : Grid → Grid) (j : Nat) : (s.modGrid gid f).part j = s.part j := rfl
@[simp] theorem State.die_modGrid (s : State) (gid : Nat) (f : Grid → Grid) (j : Nat) : (s.modGrid gid f).die j = s.die j := rfl
@[simp] theorem State.byte_modGrid (s : State) (gid : Nat) (f : Grid → Grid) (j : Nat) : (s.modGrid gid f).byte j = s.byte j := rfl
@[simp] theorem State.warp?_setCore (s : State) (k : Nat) (c : Core) (j : Nat) : (s.setCore k c).warp? j = s.warp? j := rfl
@[simp] theorem State.team?_setCore (s : State) (k : Nat) (c : Core) (j : Nat) : (s.setCore k c).team? j = s.team? j := rfl
@[simp] theorem State.grid?_setCore (s : State) (k : Nat) (c : Core) (j : Nat) : (s.setCore k c).grid? j = s.grid? j := rfl
@[simp] theorem State.queue?_setCore (s : State) (k : Nat) (c : Core) (j : Nat) : (s.setCore k c).queue? j = s.queue? j := rfl
@[simp] theorem State.part_setCore (s : State) (k : Nat) (c : Core) (j : Nat) : (s.setCore k c).part j = s.part j := rfl
@[simp] theorem State.die_setCore (s : State) (k : Nat) (c : Core) (j : Nat) : (s.setCore k c).die j = s.die j := rfl
@[simp] theorem State.byte_setCore (s : State) (k : Nat) (c : Core) (j : Nat) : (s.setCore k c).byte j = s.byte j := rfl
@[simp] theorem State.warp?_modCore (s : State) (k : Nat) (f : Core → Core) (j : Nat) : (s.modCore k f).warp? j = s.warp? j := rfl
@[simp] theorem State.team?_modCore (s : State) (k : Nat) (f : Core → Core) (j : Nat) : (s.modCore k f).team? j = s.team? j := rfl
@[simp] theorem State.grid?_modCore (s : State) (k : Nat) (f : Core → Core) (j : Nat) : (s.modCore k f).grid? j = s.grid? j := rfl
@[simp] theorem State.queue?_modCore (s : State) (k : Nat) (f : Core → Core) (j : Nat) : (s.modCore k f).queue? j = s.queue? j := rfl
@[simp] theorem State.part_modCore (s : State) (k : Nat) (f : Core → Core) (j : Nat) : (s.modCore k f).part j = s.part j := rfl
@[simp] theorem State.die_modCore (s : State) (k : Nat) (f : Core → Core) (j : Nat) : (s.modCore k f).die j = s.die j := rfl
@[simp] theorem State.byte_modCore (s : State) (k : Nat) (f : Core → Core) (j : Nat) : (s.modCore k f).byte j = s.byte j := rfl
@[simp] theorem State.warp?_modPart (s : State) (k : Nat) (f : Partition → Partition) (j : Nat) : (s.modPart k f).warp? j = s.warp? j := rfl
@[simp] theorem State.team?_modPart (s : State) (k : Nat) (f : Partition → Partition) (j : Nat) : (s.modPart k f).team? j = s.team? j := rfl
@[simp] theorem State.grid?_modPart (s : State) (k : Nat) (f : Partition → Partition) (j : Nat) : (s.modPart k f).grid? j = s.grid? j := rfl
@[simp] theorem State.queue?_modPart (s : State) (k : Nat) (f : Partition → Partition) (j : Nat) : (s.modPart k f).queue? j = s.queue? j := rfl
@[simp] theorem State.core_modPart (s : State) (k : Nat) (f : Partition → Partition) (j : Nat) : (s.modPart k f).core j = s.core j := rfl
@[simp] theorem State.die_modPart (s : State) (k : Nat) (f : Partition → Partition) (j : Nat) : (s.modPart k f).die j = s.die j := rfl
@[simp] theorem State.byte_modPart (s : State) (k : Nat) (f : Partition → Partition) (j : Nat) : (s.modPart k f).byte j = s.byte j := rfl
@[simp] theorem State.warp?_modDie (s : State) (k : Nat) (f : Die → Die) (j : Nat) : (s.modDie k f).warp? j = s.warp? j := rfl
@[simp] theorem State.team?_modDie (s : State) (k : Nat) (f : Die → Die) (j : Nat) : (s.modDie k f).team? j = s.team? j := rfl
@[simp] theorem State.grid?_modDie (s : State) (k : Nat) (f : Die → Die) (j : Nat) : (s.modDie k f).grid? j = s.grid? j := rfl
@[simp] theorem State.queue?_modDie (s : State) (k : Nat) (f : Die → Die) (j : Nat) : (s.modDie k f).queue? j = s.queue? j := rfl
@[simp] theorem State.core_modDie (s : State) (k : Nat) (f : Die → Die) (j : Nat) : (s.modDie k f).core j = s.core j := rfl
@[simp] theorem State.part_modDie (s : State) (k : Nat) (f : Die → Die) (j : Nat) : (s.modDie k f).part j = s.part j := rfl
@[simp] theorem State.byte_modDie (s : State) (k : Nat) (f : Die → Die) (j : Nat) : (s.modDie k f).byte j = s.byte j := rfl
@[simp] theorem State.warp?_modHall (s : State) (d h : Nat) (f : Hall → Hall) (j : Nat) : (s.modHall d h f).warp? j = s.warp? j := rfl
@[simp] theorem State.team?_modHall (s : State) (d h : Nat) (f : Hall → Hall) (j : Nat) : (s.modHall d h f).team? j = s.team? j := rfl
@[simp] theorem State.grid?_modHall (s : State) (d h : Nat) (f : Hall → Hall) (j : Nat) : (s.modHall d h f).grid? j = s.grid? j := rfl
@[simp] theorem State.queue?_modHall (s : State) (d h : Nat) (f : Hall → Hall) (j : Nat) : (s.modHall d h f).queue? j = s.queue? j := rfl
@[simp] theorem State.core_modHall (s : State) (d h : Nat) (f : Hall → Hall) (j : Nat) : (s.modHall d h f).core j = s.core j := rfl
@[simp] theorem State.part_modHall (s : State) (d h : Nat) (f : Hall → Hall) (j : Nat) : (s.modHall d h f).part j = s.part j := rfl
@[simp] theorem State.byte_modHall (s : State) (d h : Nat) (f : Hall → Hall) (j : Nat) : (s.modHall d h f).byte j = s.byte j := rfl
@[simp] theorem State.warp?_modQueue (s : State) (q : Nat) (f : Queue → Queue) (j : Nat) : (s.modQueue q f).warp? j = s.warp? j := rfl
@[simp] theorem State.team?_modQueue (s : State) (q : Nat) (f : Queue → Queue) (j : Nat) : (s.modQueue q f).team? j = s.team? j := rfl
@[simp] theorem State.grid?_modQueue (s : State) (q : Nat) (f : Queue → Queue) (j : Nat) : (s.modQueue q f).grid? j = s.grid? j := rfl
@[simp] theorem State.core_modQueue (s : State) (q : Nat) (f : Queue → Queue) (j : Nat) : (s.modQueue q f).core j = s.core j := rfl
@[simp] theorem State.part_modQueue (s : State) (q : Nat) (f : Queue → Queue) (j : Nat) : (s.modQueue q f).part j = s.part j := rfl
@[simp] theorem State.die_modQueue (s : State) (q : Nat) (f : Queue → Queue) (j : Nat) : (s.modQueue q f).die j = s.die j := rfl
@[simp] theorem State.byte_modQueue (s : State) (q : Nat) (f : Queue → Queue) (j : Nat) : (s.modQueue q f).byte j = s.byte j := rfl
@[simp] theorem State.warp?_report (s : State) (e : HEvent) (j : Nat) : (s.report e).warp? j = s.warp? j := rfl
@[simp] theorem State.team?_report (s : State) (e : HEvent) (j : Nat) : (s.report e).team? j = s.team? j := rfl
@[simp] theorem State.grid?_report (s : State) (e : HEvent) (j : Nat) : (s.report e).grid? j = s.grid? j := rfl
@[simp] theorem State.queue?_report (s : State) (e : HEvent) (j : Nat) : (s.report e).queue? j = s.queue? j := rfl
@[simp] theorem State.core_report (s : State) (e : HEvent) (j : Nat) : (s.report e).core j = s.core j := rfl
@[simp] theorem State.part_report (s : State) (e : HEvent) (j : Nat) : (s.report e).part j = s.part j := rfl
@[simp] theorem State.die_report (s : State) (e : HEvent) (j : Nat) : (s.report e).die j = s.die j := rfl
@[simp] theorem State.byte_report (s : State) (e : HEvent) (j : Nat) : (s.report e).byte j = s.byte j := rfl
@[simp] theorem State.warp?_poke (s : State) (a : Nat) (b : Byte) (j : Nat) : (s.poke a b).warp? j = s.warp? j := rfl
@[simp] theorem State.team?_poke (s : State) (a : Nat) (b : Byte) (j : Nat) : (s.poke a b).team? j = s.team? j := rfl
@[simp] theorem State.grid?_poke (s : State) (a : Nat) (b : Byte) (j : Nat) : (s.poke a b).grid? j = s.grid? j := rfl
@[simp] theorem State.queue?_poke (s : State) (a : Nat) (b : Byte) (j : Nat) : (s.poke a b).queue? j = s.queue? j := rfl
@[simp] theorem State.core_poke (s : State) (a : Nat) (b : Byte) (j : Nat) : (s.poke a b).core j = s.core j := rfl
@[simp] theorem State.part_poke (s : State) (a : Nat) (b : Byte) (j : Nat) : (s.poke a b).part j = s.part j := rfl
@[simp] theorem State.die_poke (s : State) (a : Nat) (b : Byte) (j : Nat) : (s.poke a b).die j = s.die j := rfl
@[simp] theorem State.warp?_pass (s : State) (j : Nat) : (s.pass).warp? j = s.warp? j := rfl
@[simp] theorem State.team?_pass (s : State) (j : Nat) : (s.pass).team? j = s.team? j := rfl
@[simp] theorem State.grid?_pass (s : State) (j : Nat) : (s.pass).grid? j = s.grid? j := rfl
@[simp] theorem State.queue?_pass (s : State) (j : Nat) : (s.pass).queue? j = s.queue? j := rfl
@[simp] theorem State.core_pass (s : State) (j : Nat) : (s.pass).core j = s.core j := rfl
@[simp] theorem State.part_pass (s : State) (j : Nat) : (s.pass).part j = s.part j := rfl
@[simp] theorem State.die_pass (s : State) (j : Nat) : (s.pass).die j = s.die j := rfl
@[simp] theorem State.byte_pass (s : State) (j : Nat) : (s.pass).byte j = s.byte j := rfl
@[simp] theorem State.warp?_settleFaultInt (s : State) (j : Nat) : (s.settleFaultInt).warp? j = s.warp? j := rfl
@[simp] theorem State.team?_settleFaultInt (s : State) (j : Nat) : (s.settleFaultInt).team? j = s.team? j := rfl
@[simp] theorem State.grid?_settleFaultInt (s : State) (j : Nat) : (s.settleFaultInt).grid? j = s.grid? j := rfl
@[simp] theorem State.queue?_settleFaultInt (s : State) (j : Nat) : (s.settleFaultInt).queue? j = s.queue? j := rfl
@[simp] theorem State.core_settleFaultInt (s : State) (j : Nat) : (s.settleFaultInt).core j = s.core j := rfl
@[simp] theorem State.part_settleFaultInt (s : State) (j : Nat) : (s.settleFaultInt).part j = s.part j := rfl
@[simp] theorem State.die_settleFaultInt (s : State) (j : Nat) : (s.settleFaultInt).die j = s.die j := rfl
@[simp] theorem State.byte_settleFaultInt (s : State) (j : Nat) : (s.settleFaultInt).byte j = s.byte j := rfl
@[simp] theorem State.warp?_withCur (s : State) (x : Issue) (j : Nat) : (s.withCur x).warp? j = s.warp? j := rfl
@[simp] theorem State.team?_withCur (s : State) (x : Issue) (j : Nat) : (s.withCur x).team? j = s.team? j := rfl
@[simp] theorem State.grid?_withCur (s : State) (x : Issue) (j : Nat) : (s.withCur x).grid? j = s.grid? j := rfl
@[simp] theorem State.queue?_withCur (s : State) (x : Issue) (j : Nat) : (s.withCur x).queue? j = s.queue? j := rfl
@[simp] theorem State.core_withCur (s : State) (x : Issue) (j : Nat) : (s.withCur x).core j = s.core j := rfl
@[simp] theorem State.part_withCur (s : State) (x : Issue) (j : Nat) : (s.withCur x).part j = s.part j := rfl
@[simp] theorem State.die_withCur (s : State) (x : Issue) (j : Nat) : (s.withCur x).die j = s.die j := rfl
@[simp] theorem State.byte_withCur (s : State) (x : Issue) (j : Nat) : (s.withCur x).byte j = s.byte j := rfl

/-! ## The passing of time changes no more than these -/

theorem State.watchWarp_frame (s : State) (wid : Nat) : ∃ ws, s.watchWarp wid = { s with warps := ws } := by
  unfold State.watchWarp
  split
  · exact ⟨s.warps, rfl⟩
  · exact ⟨_, rfl⟩

theorem State.watchWarps_frame (l : List Nat) (s : State) : ∃ ws, l.foldl State.watchWarp s = { s with warps := ws } := by
  induction l generalizing s with
  | nil => exact ⟨s.warps, rfl⟩
  | cons x l ih =>
    obtain ⟨ws, h⟩ := s.watchWarp_frame x
    obtain ⟨us, k⟩ := ih { s with warps := ws }
    exact ⟨us, by rw [List.foldl_cons, h, k]⟩

theorem State.watchParts_frame (l : List (Nat × Partition)) (s : State) :
    ∃ ws, l.foldl (fun s p => if (p.2.pending ++ p.2.nonResident).isEmpty then s
      else (p.2.active ++ p.2.pending ++ p.2.nonResident).foldl State.watchWarp s) s = { s with warps := ws } := by
  induction l generalizing s with
  | nil => exact ⟨s.warps, rfl⟩
  | cons x l ih =>
    rw [List.foldl_cons]
    split
    · exact ih s
    · obtain ⟨ws, h⟩ := State.watchWarps_frame (x.2.active ++ x.2.pending ++ x.2.nonResident) s
      obtain ⟨us, k⟩ := ih { s with warps := ws }
      exact ⟨us, by rw [h, k]⟩

/-- R90, R122, R132: keeping the times of warps and grids changes nothing but warps and grids. -/
theorem State.watch_frame (s : State) : ∃ ws gs, s.watch = { s with warps := ws, grids := gs } := by
  obtain ⟨ws, h⟩ := State.watchParts_frame s.parts s
  exact ⟨ws, _, by rw [State.watch, h]⟩

@[simp] theorem State.tick_mem (s : State) : s.tick.mem = s.mem := by
  obtain ⟨_, _, h⟩ := s.watch_frame
  simp [State.tick, State.settle, h]

@[simp] theorem State.tick_inputs (s : State) : s.tick.inputs = s.inputs := by
  obtain ⟨_, _, h⟩ := s.watch_frame
  simp [State.tick, State.settle, h]


end Sys2Proof.Machine
end

