-- ==== Sys2Proof/Laws/Memory.lean ====
section
/-! SUPPORT. Device memory: a read after a write, and the canonical form, which every operation keeps (log 7). -/

namespace Sys2Proof.Machine

open Sys2Proof

/-- A write of a byte keeps the canonical form. -/
theorem memory_wf_memSet (m : List Host.Cell) (a : Nat) (b : Byte) (h : Memory.wf m = true) :
    Memory.wf (memSet m a b) = true := cwf_cset (w := 8) m a b h

theorem memByte_memSet (m : List Host.Cell) (a x : Nat) (b : Byte) :
    memByte (memSet m a b) x = if x = a then b else memByte m x := cget_cset (w := 8) m a x b

theorem State.byte_poke (s : State) (a x : Nat) (b : Byte) :
    (s.poke a b).byte x = if x = a then b else s.byte x := memByte_memSet s.mem a x b

theorem State.memInv_reset : State.reset.MemInv := rfl

theorem State.memInv_poke {s : State} (a : Nat) (b : Byte) (h : s.MemInv) : (s.poke a b).MemInv :=
  memory_wf_memSet s.mem a b h

theorem State.memInv_pokes {s : State} (l : List (Nat × Byte)) (h : s.MemInv) : (s.pokes l).MemInv := by
  unfold State.pokes
  induction l generalizing s with
  | nil => exact h
  | cons x r ih => exact ih (State.memInv_poke x.1 x.2 h)

theorem State.memInv_pokeBytes {s : State} (a : Nat) (bs : List Byte) (h : s.MemInv) : (s.pokeBytes a bs).MemInv :=
  State.memInv_pokes _ h

/-- Everything but the memory and its history is as it was. -/
theorem State.poke_frame (s : State) (a : Nat) (b : Byte) :
    s.poke a b = { s with mem := (s.poke a b).mem, hist := (s.poke a b).hist } := rfl

theorem State.pokes_frame (s : State) (l : List (Nat × Byte)) :
    s.pokes l = { s with mem := (s.pokes l).mem, hist := (s.pokes l).hist } := by
  unfold State.pokes
  induction l generalizing s with
  | nil => rfl
  | cons x r ih =>
    simp only [List.foldl_cons]
    rw [ih (s.poke x.1 x.2)]
    rfl

/-- A byte that no write names is unchanged. -/
theorem State.byte_pokes_of_not_mem (s : State) (l : List (Nat × Byte)) (x : Nat) (h : ∀ y ∈ l, y.1 ≠ x) :
    (s.pokes l).byte x = s.byte x := by
  unfold State.pokes
  induction l generalizing s with
  | nil => rfl
  | cons y r ih =>
    simp only [List.foldl_cons]
    rw [ih (s.poke y.1 y.2) fun z hz => h z (List.mem_cons_of_mem _ hz), State.byte_poke,
      if_neg fun e => h y (by simp) e.symm]

/-- Writes of different addresses: each address holds its own byte. -/
theorem State.byte_pokes_of_mem (s : State) (l : List (Nat × Byte)) (hn : (l.map (·.1)).Nodup) (y : Nat × Byte)
    (hy : y ∈ l) : (s.pokes l).byte y.1 = y.2 := by
  unfold State.pokes
  induction l generalizing s with
  | nil => cases hy
  | cons z r ih =>
    simp only [List.map_cons, List.nodup_cons] at hn
    rcases List.mem_cons.1 hy with rfl | hy
    · have := State.byte_pokes_of_not_mem (s.poke y.1 y.2) r y.1
        fun q hq e => hn.1 (List.mem_map.2 ⟨q, hq, e⟩)
      simp only [State.pokes] at this
      simp only [List.foldl_cons, this, State.byte_poke, if_true]
    · exact ih (s.poke z.1 z.2) hn.2 hy

/-- Consecutive bytes: what lies outside them is unchanged. -/
theorem State.byte_pokeBytes_outside (s : State) (a : Nat) (bs : List Byte) (x : Nat) (h : x < a ∨ a + bs.length ≤ x) :
    (s.pokeBytes a bs).byte x = s.byte x := by
  refine State.byte_pokes_of_not_mem s _ x fun y hy e => ?_
  have := (List.of_mem_zip hy).1
  simp only [List.mem_map, List.mem_range] at this
  obtain ⟨i, hi, hx⟩ := this
  omega

/-- Consecutive bytes: each is read back. -/
theorem State.byte_pokeBytes_inside (s : State) (a : Nat) (bs : List Byte) (i : Nat) (h : i < bs.length) :
    (s.pokeBytes a bs).byte (a + i) = bs[i] := by
  have := State.byte_pokes_of_mem s (((List.range bs.length).map (a + ·)).zip bs) (by
    rw [List.map_fst_zip (by simp)]
    exact List.Pairwise.map _ (fun _ _ e q => e (Nat.add_left_cancel q)) List.nodup_range) (a + i, bs[i]) (by
    rw [List.mem_iff_getElem]
    exact ⟨i, by simpa using h, by simp⟩)
  exact this

/-- R4: a number written as bytes is read back. -/
theorem State.peek_pokeBytes (s : State) (a : Nat) (bs : List Byte) : (s.pokeBytes a bs).peek a bs.length = bs := by
  apply List.ext_getElem (by simp [State.peek])
  intro i h₁ h₂
  simp [State.peek, State.byte_pokeBytes_inside s a bs i h₂]

/-- A state that differs elsewhere than in its memory keeps the canonical form. -/
theorem State.memInv_of_mem_eq {s t : State} (e : t.mem = s.mem) (h : s.MemInv) : t.MemInv := by
  unfold State.MemInv; rw [e]; exact h

end Sys2Proof.Machine
end

