-- ==== Sys2Proof/Laws/Operands.lean ====
section
/-! SUPPORT. Operand delivery: what `run`, `emit`, `finish` and `stopLanes` can do, said once. -/

namespace Sys2Proof.Machine

open Sys2Proof

/-! ## Running a word -/

/-- A word that executes has the effect of its meaning. -/
theorem run_executes {s : State} {i : Instr} {c : Ctx} {f : Fmt} {on : Mask} (h : s.Executes i c f on)
    (k : Ctx → Mask → State) : s.run i k = .next (k c on) := by
  obtain ⟨hc, ⟨sh, hs, hr⟩, ho, hf, hp⟩ := h
  subst ho
  have h1 : (if f.stairs.isEmpty then none else c.nested (c.on f.g)) = none := by
    rcases hf with hf | hf <;> simp [hf]
  have h2 : (if c.on f.g = 0 then none else shapeRidx c.g.rec_ sh f) = none := by
    rcases hr with hr | hr <;> simp [hr]
  unfold State.run
  simp only [hc, hs, h1, h2, hp, if_true]

/-- A word always answers a next state. -/
theorem run_next (s : State) (i : Instr) (k : Ctx → Mask → State) : ∃ t, s.run i k = .next t := by
  unfold State.run
  split
  · dsimp only
    split
    · exact ⟨_, rfl⟩
    · split
      · exact ⟨_, rfl⟩
      · split <;> exact ⟨_, rfl⟩
  · exact ⟨_, rfl⟩

theorem alu_next (s : State) (i : Instr) (f : Fmt) (val : Ctx → Nat → List W32 × Flags) : ∃ t, s.alu i f val = .next t :=
  run_next _ _ _

theorem alu1_next (s : State) (i : Instr) (f : Fmt) (val : Ctx → Nat → W32) : ∃ t, s.alu1 i f val = .next t :=
  alu_next _ _ _ _

/-- A value instruction that executes: its results go to the destination and its lanes go on. -/
theorem alu_executes {s : State} {i : Instr} {c : Ctx} {f : Fmt} {on : Mask} (h : s.Executes i c f on)
    (val : Ctx → Nat → List W32 × Flags) :
    s.alu i f val = .next (s.finish c f on c.lanes (c.emit f.d on (val c))) := run_executes h _

theorem alu1_executes {s : State} {i : Instr} {c : Ctx} {f : Fmt} {on : Mask} (h : s.Executes i c f on)
    (val : Ctx → Nat → W32) :
    s.alu1 i f val = .next (s.finish c f on c.lanes (c.emit f.d on fun l => ([val c l], {}))) := alu_executes h _

/-- What the context of the current issue is. -/
theorem ctx_some {s : State} {c : Ctx} (h : s.ctx? = some c) :
    s.warp? c.wid = some c.w ∧ s.team? c.w.tid = some c.t ∧ s.grid? c.t.gid = some c.g ∧
      c.pc = cget c.w.pc (lowest c.lanes) ∧ ∃ x, s.cur = some x ∧ x.wid = c.wid ∧ x.lanes = c.lanes := by
  unfold State.ctx? at h
  cases hx : s.cur with
  | none => simp [hx] at h
  | some x =>
    simp only [hx, Option.bind_some, State.ctxOf] at h
    cases hw : s.warp? x.wid with
    | none => simp [hw] at h
    | some w =>
      simp only [hw] at h
      cases ht : s.team? w.tid with
      | none => simp [ht] at h
      | some t =>
        simp only [ht] at h
        cases hg : s.grid? t.gid with
        | none => simp [hg] at h
        | some g =>
          simp only [hg, Option.some.injEq] at h
          subst h
          exact ⟨hw, ht, hg, rfl, x, rfl, rfl, rfl⟩

/-! ## The fields a lane's result can change -/

/-- The warp but for the registers and flags that results reach. -/
def Warp.stem (w : Warp) : Warp :=
  { w with vec := [], uni := [], pred := [], win := [], winSeq := [], fstat := 0, dirty := ⟨[], [], false, [], false, [], false, []⟩ }

@[simp] theorem stem_setVec (w : Warp) (r l : Nat) (v : W32) : (w.setVec r l v).stem = w.stem := rfl
@[simp] theorem stem_setUni (w : Warp) (r : Nat) (v : W32) : (w.setUni r v).stem = w.stem := rfl
@[simp] theorem stem_push (w : Warp) (l : Nat) (v : W32) : (w.push l v).stem = w.stem := rfl
@[simp] theorem stem_raise (w : Warp) (fl : Flags) : (w.raise fl).stem = w.stem := rfl
@[simp] theorem stem_setPred (w : Warp) (p l : Nat) (b : Bool) : (w.setPred p l b).stem = w.stem := by
  unfold Warp.setPred; split <;> rfl

/-- An invariant of a fold. -/
theorem foldl_keeps {α β γ : Type} (p : β → γ) (g : β → α → β) (h : ∀ b a, p (g b a) = p b) (l : List α) (b : β) :
    p (l.foldl g b) = p b := by
  induction l generalizing b with
  | nil => rfl
  | cons a r ih => rw [List.foldl_cons, ih, h]

@[simp] theorem stem_setVecs (w : Warp) (r l : Nat) (vs : List W32) : (w.setVecs r l vs).stem = w.stem :=by
  unfold Warp.setVecs
  apply foldl_keeps Warp.stem; intro _ _; rfl
@[simp] theorem stem_setUnis (w : Warp) (r : Nat) (vs : List W32) : (w.setUnis r vs).stem = w.stem :=by
  unfold Warp.setUnis
  apply foldl_keeps Warp.stem; intro _ _; rfl
@[simp] theorem stem_pushAll (w : Warp) (l : Nat) (vs : List W32) : (w.pushAll l vs).stem = w.stem :=by
  unfold Warp.pushAll
  apply foldl_keeps Warp.stem; intro _ _; rfl
@[simp] theorem stem_putLane (w : Warp) (d : Dst) (l : Nat) (vs : List W32) : (w.putLane d l vs).stem = w.stem := by
  unfold Warp.putLane; split <;> simp

/-- Results reach registers, the window and the flags only. -/
@[simp] theorem stem_emit (c : Ctx) (d : Dst) (on : Mask) (val : Nat → List W32 × Flags) :
    (c.emit d on val).stem = c.w.stem := by
  unfold Ctx.emit
  split
  · split <;> simp
  · exact foldl_keeps Warp.stem _ (fun b a => by simp) _ _

/-! ## Registers after a result -/

@[simp] theorem push_vec (w : Warp) (l : Nat) (v : W32) : (w.push l v).vec = w.vec := rfl
@[simp] theorem push_uni (w : Warp) (l : Nat) (v : W32) : (w.push l v).uni = w.uni := rfl
@[simp] theorem push_pred (w : Warp) (l : Nat) (v : W32) : (w.push l v).pred = w.pred := rfl
@[simp] theorem push_fstat (w : Warp) (l : Nat) (v : W32) : (w.push l v).fstat = w.fstat := rfl
@[simp] theorem pushAll_vec (w : Warp) (l : Nat) (vs : List W32) : (w.pushAll l vs).vec = w.vec :=by
  unfold Warp.pushAll
  apply foldl_keeps Warp.vec; intro _ _; rfl
@[simp] theorem pushAll_uni (w : Warp) (l : Nat) (vs : List W32) : (w.pushAll l vs).uni = w.uni :=by
  unfold Warp.pushAll
  apply foldl_keeps Warp.uni; intro _ _; rfl
@[simp] theorem pushAll_pred (w : Warp) (l : Nat) (vs : List W32) : (w.pushAll l vs).pred = w.pred :=by
  unfold Warp.pushAll
  apply foldl_keeps Warp.pred; intro _ _; rfl
@[simp] theorem pushAll_fstat (w : Warp) (l : Nat) (vs : List W32) : (w.pushAll l vs).fstat = w.fstat :=by
  unfold Warp.pushAll
  apply foldl_keeps Warp.fstat; intro _ _; rfl
@[simp] theorem setVecs_uni (w : Warp) (r l : Nat) (vs : List W32) : (w.setVecs r l vs).uni = w.uni :=by
  unfold Warp.setVecs
  apply foldl_keeps Warp.uni; intro _ _; rfl
@[simp] theorem setVecs_pred (w : Warp) (r l : Nat) (vs : List W32) : (w.setVecs r l vs).pred = w.pred :=by
  unfold Warp.setVecs
  apply foldl_keeps Warp.pred; intro _ _; rfl
@[simp] theorem setVecs_win (w : Warp) (r l : Nat) (vs : List W32) : (w.setVecs r l vs).win = w.win :=by
  unfold Warp.setVecs
  apply foldl_keeps Warp.win; intro _ _; rfl
@[simp] theorem setVecs_fstat (w : Warp) (r l : Nat) (vs : List W32) : (w.setVecs r l vs).fstat = w.fstat :=by
  unfold Warp.setVecs
  apply foldl_keeps Warp.fstat; intro _ _; rfl
@[simp] theorem setUnis_vec (w : Warp) (r : Nat) (vs : List W32) : (w.setUnis r vs).vec = w.vec :=by
  unfold Warp.setUnis
  apply foldl_keeps Warp.vec; intro _ _; rfl
@[simp] theorem setUnis_pred (w : Warp) (r : Nat) (vs : List W32) : (w.setUnis r vs).pred = w.pred :=by
  unfold Warp.setUnis
  apply foldl_keeps Warp.pred; intro _ _; rfl
@[simp] theorem setUnis_win (w : Warp) (r : Nat) (vs : List W32) : (w.setUnis r vs).win = w.win :=by
  unfold Warp.setUnis
  apply foldl_keeps Warp.win; intro _ _; rfl
@[simp] theorem setUnis_fstat (w : Warp) (r : Nat) (vs : List W32) : (w.setUnis r vs).fstat = w.fstat :=by
  unfold Warp.setUnis
  apply foldl_keeps Warp.fstat; intro _ _; rfl
@[simp] theorem setPred_vec (w : Warp) (p l : Nat) (b : Bool) : (w.setPred p l b).vec = w.vec := by
  unfold Warp.setPred; split <;> rfl
@[simp] theorem setPred_uni (w : Warp) (p l : Nat) (b : Bool) : (w.setPred p l b).uni = w.uni := by
  unfold Warp.setPred; split <;> rfl
@[simp] theorem setPred_win (w : Warp) (p l : Nat) (b : Bool) : (w.setPred p l b).win = w.win := by
  unfold Warp.setPred; split <;> rfl
@[simp] theorem setPred_fstat (w : Warp) (p l : Nat) (b : Bool) : (w.setPred p l b).fstat = w.fstat := by
  unfold Warp.setPred; split <;> rfl

/-- The vector registers after the words `vs` of a lane's result. -/
theorem cget_setVecs (w : Warp) (r l : Nat) (vs : List W32) (q k : Nat) (hl : l < 32) (hk : k < 32) :
    cget (w.setVecs r l vs).vec (q * 32 + k) =
      if h : k = l ∧ r ≤ q ∧ q - r < vs.length then vs[q - r]'h.2.2 else cget w.vec (q * 32 + k) := by
  have gen : ∀ (n : Nat) (vs : List W32) (w : Warp) (r : Nat),
      cget (((List.range' n vs.length).zip vs).foldl (fun w x => w.setVec (r + x.1) l x.2) w).vec (q * 32 + k) =
        if h : k = l ∧ r + n ≤ q ∧ q - (r + n) < vs.length then vs[q - (r + n)]'h.2.2 else cget w.vec (q * 32 + k) := by
    intro n vs
    induction vs generalizing n with
    | nil => intro w r; simp
    | cons v vs ih =>
      intro w r
      simp only [List.length_cons, List.range'_succ, List.zip_cons_cons, List.foldl_cons]
      rw [ih (n + 1)]
      simp only [Warp.setVec_vec, cget_cset]
      by_cases e : k = l
      · subst e
        by_cases h1 : q = r + n
        · subst h1
          simp <;> (intro h; omega)
        · have h2 : ¬ q * 32 + k = (r + n) * 32 + k := by omega
          simp only [h2, if_false, true_and]
          by_cases h3 : r + n ≤ q
          · have h4 : q - (r + n) = (q - (r + (n + 1))) + 1 := by omega
            by_cases h5 : q - (r + (n + 1)) < vs.length
            · rw [dif_pos ⟨by omega, h5⟩, dif_pos ⟨h3, by omega⟩]
              simp only [h4, List.getElem_cons_succ]
            · rw [dif_neg (by omega), dif_neg (by omega)]
          · rw [dif_neg (by omega), dif_neg (by omega)]
      · have h2 : ¬ q * 32 + k = (r + n) * 32 + l := by omega
        simp [e, h2]
  have := gen 0 vs w r
  simpa [Warp.setVecs, List.range_eq_range'] using this

/-- The uniform registers after the words `vs` of a result. -/
theorem cget_setUnis (w : Warp) (r : Nat) (vs : List W32) (q : Nat) :
    cget (w.setUnis r vs).uni q = if h : r ≤ q ∧ q - r < vs.length then vs[q - r]'h.2 else cget w.uni q := by
  have gen : ∀ (n : Nat) (vs : List W32) (w : Warp) (r : Nat),
      cget (((List.range' n vs.length).zip vs).foldl (fun w x => w.setUni (r + x.1) x.2) w).uni q =
        if h : r + n ≤ q ∧ q - (r + n) < vs.length then vs[q - (r + n)]'h.2 else cget w.uni q := by
    intro n vs
    induction vs generalizing n with
    | nil => intro w r; simp
    | cons v vs ih =>
      intro w r
      simp only [List.length_cons, List.range'_succ, List.zip_cons_cons, List.foldl_cons]
      rw [ih (n + 1)]
      simp only [Warp.setUni_uni, cget_cset]
      by_cases h1 : q = r + n
      · subst h1
        simp <;> (intro h; omega)
      · simp only [h1, if_false]
        by_cases h3 : r + n ≤ q
        · have h4 : q - (r + n) = (q - (r + (n + 1))) + 1 := by omega
          by_cases h5 : q - (r + (n + 1)) < vs.length
          · rw [dif_pos ⟨by omega, h5⟩, dif_pos ⟨h3, by omega⟩]
            simp only [h4, List.getElem_cons_succ]
          · rw [dif_neg (by omega), dif_neg (by omega)]
        · rw [dif_neg (by omega), dif_neg (by omega)]
  have := gen 0 vs w r
  simpa [Warp.setUnis, List.range_eq_range'] using this

/-- A predicate after a lane's bit is written (R21). -/
theorem predWord_setPred (w : Warp) (p l : Nat) (b : Bool) (q k : Nat) (hk : k < 32) :
    ((w.setPred p l b).predWord q).getLsbD k =
      if q = p ∧ k = l ∧ p ≠ 7 then b else (w.predWord q).getLsbD k := by
  unfold Warp.setPred
  by_cases h7 : p = 7
  · simp [h7]
  · simp only [h7, if_false]
    unfold Warp.predWord
    by_cases hq : q = 7
    · subst hq; simp [Ne.symm h7]
    · simp only [hq, if_false, cget_cset]
      by_cases e : q = p
      · subst e
        have hb := getLsbD_laneBit l k hk
        by_cases e : k = l
        · subst e
          simp only [decide_true] at hb
          cases b <;>
            simp [-BitVec.getLsbD_eq_getElem, BitVec.getLsbD_and, BitVec.getLsbD_or, BitVec.getLsbD_not, hb, hk, h7]
        · simp only [e, decide_false] at hb
          cases b <;>
            simp [-BitVec.getLsbD_eq_getElem, BitVec.getLsbD_and, BitVec.getLsbD_or, BitVec.getLsbD_not, hb, hk, e]
      · simp [e]

/-! ## Lane by lane -/

/-- A fold over the lanes of a mask, observed where each lane acts only for itself. -/
theorem foldl_lanes {β γ : Type} (p : β → γ) (g : β → Nat → β) (k : Nat) (ls : List Nat) (hn : ls.Nodup) (b : β)
    (hne : ∀ b l, l ≠ k → p (g b l) = p b) :
    p (ls.foldl g b) = if k ∈ ls then p (g ((ls.takeWhile (· != k)).foldl g b) k) else p b := by
  induction ls generalizing b with
  | nil => simp
  | cons l r ih =>
    rw [List.nodup_cons] at hn
    rw [List.foldl_cons, ih hn.2]
    by_cases e : l = k
    · subst e
      simp [hn.1]
    · have e' : k ≠ l := fun h => e h.symm
      by_cases hm : k ∈ r
      · simp [hm, e]
      · simp [hm, e', hne b l e]

/-- The vector registers after an instruction whose destination is a vector register (R14, R23). -/
theorem vec_emit (c : Ctx) (d : BitVec 8) (on : Mask) (val : Nat → List W32 × Flags) (q k : Nat) (hk : k < 32) :
    cget (c.emit (.vec d) on val).vec (q * 32 + k) =
      if h : on.getLsbD k = true ∧ d.toNat ≤ q ∧ q - d.toNat < (val k).1.length then (val k).1[q - d.toNat]'h.2.2
      else cget c.w.vec (q * 32 + k) := by
  have key : ∀ (b : Warp) (l : Nat), l < 32 → cget (((b.putLane (.vec d) l (val l).1).raise (val l).2)).vec (q * 32 + k) =
      if h : k = l ∧ d.toNat ≤ q ∧ q - d.toNat < (val l).1.length then (val l).1[q - d.toNat]'h.2.2
      else cget b.vec (q * 32 + k) := by
    intro b l hl
    simp only [Warp.raise_vec, Warp.putLane, pushAll_vec]
    exact cget_setVecs b d.toNat l (val l).1 q k hl hk
  have main : ∀ (ls : List Nat), (∀ l ∈ ls, l < 32) → ls.Nodup → ∀ b : Warp,
      cget (ls.foldl (fun w l => (w.putLane (.vec d) l (val l).1).raise (val l).2) b).vec (q * 32 + k) =
        if h : k ∈ ls ∧ d.toNat ≤ q ∧ q - d.toNat < (val k).1.length then (val k).1[q - d.toNat]'h.2.2
        else cget b.vec (q * 32 + k) := by
    intro ls
    induction ls with
    | nil => intro _ _ b; simp
    | cons l r ih =>
      intro hlt hn b
      rw [List.nodup_cons] at hn
      rw [List.foldl_cons, ih (fun x hx => hlt x (List.mem_cons_of_mem _ hx)) hn.2, key b l (hlt l (by simp))]
      by_cases e : k = l
      · subst e
        simp [hn.1]
      · simp [e]
  have := main (lanesOf on) (fun l hl => lanesOf_lt hl) (lanesOf_nodup on) c.w
  simpa [Ctx.emit, mem_lanesOf, hk] using this

/-- The predicates after an instruction whose destination is a predicate (R21, R23). -/
theorem pred_emit (c : Ctx) (p : BitVec 3) (on : Mask) (val : Nat → List W32 × Flags) (q k : Nat) (hk : k < 32) :
    ((c.emit (.pred p) on val).predWord q).getLsbD k =
      if q = p.toNat ∧ on.getLsbD k = true ∧ p.toNat ≠ 7 then (((val k).1.headD 0).getLsbD 0)
      else (c.w.predWord q).getLsbD k := by
  have main : ∀ (ls : List Nat), ls.Nodup → ∀ b : Warp,
      ((ls.foldl (fun w l => (w.putLane (.pred p) l (val l).1).raise (val l).2) b).predWord q).getLsbD k =
        if q = p.toNat ∧ k ∈ ls ∧ p.toNat ≠ 7 then (((val k).1.headD 0).getLsbD 0) else (b.predWord q).getLsbD k := by
    intro ls
    induction ls with
    | nil => intro _ b; simp
    | cons l r ih =>
      intro hn b
      rw [List.nodup_cons] at hn
      have hr : ∀ (w : Warp) (fl : Flags), (w.raise fl).predWord q = w.predWord q := fun _ _ => rfl
      rw [List.foldl_cons, ih hn.2, hr]
      simp only [Warp.putLane]
      rw [predWord_setPred _ _ _ _ _ _ hk]
      by_cases e : k = l
      · subst e
        simp [hn.1]
      · simp [e]
  have := main (lanesOf on) (lanesOf_nodup on) c.w
  simpa [Ctx.emit, mem_lanesOf, hk] using this

/-- The uniform registers after an instruction whose destination is a uniform register (R22). -/
theorem uni_emit (c : Ctx) (d : BitVec 6) (on : Mask) (val : Nat → List W32 × Flags) (q : Nat) :
    cget (c.emit (.uni d) on val).uni q =
      if h : on ≠ 0 ∧ d.toNat ≤ q ∧ q - d.toNat < (val (lowest on)).1.length then
        (val (lowest on)).1[q - d.toNat]'h.2.2
      else cget c.w.uni q := by
  unfold Ctx.emit
  by_cases h0 : on = 0
  · simp [h0]
  · simp only [h0, if_false, Warp.raise_uni, cget_setUnis, ne_eq, not_false_eq_true, true_and]

/-! ## Completion -/

/-- The lanes of a list continue, each with its loops settled; nothing but program counters and loop stacks differs. -/
theorem advance_frame (c : Ctx) (w : Warp) (m : Mask) :
    c.advance w m = { w with pc := (c.advance w m).pc, loops := (c.advance w m).loops } := by
  have : ∀ (ls : List Nat) (w : Warp),
      ls.foldl (fun w l => w.settle l c.pc c.nextPc false) w =
        { w with pc := (ls.foldl (fun w l => w.settle l c.pc c.nextPc false) w).pc,
                 loops := (ls.foldl (fun w l => w.settle l c.pc c.nextPc false) w).loops } := by
    intro ls
    induction ls with
    | nil => intro w; rfl
    | cons l r ih =>
      intro w
      rw [List.foldl_cons, ih]
      rfl
  exact this _ _

/-- R313: away from the end of a loop body, a lane continues at the next instruction with its loops unchanged. -/
theorem loopCount_away (a nx : Nat) (st : List LoopEnt) (h : ∀ e ∈ st, a ≠ e.stop.toNat) : loopCount a nx st = (nx, st) := by
  cases st with
  | nil => rfl
  | cons e r => simp [loopCount, h e (by simp)]

theorem settle_pc_ne (w : Warp) {l k : Nat} (a nx : W64) (taken : Bool) (h : k ≠ l) :
    cget (w.settle l a nx taken).pc k = cget w.pc k := by
  unfold Warp.settle
  dsimp only
  split <;> simp [cget_cset_ne _ _ h]

theorem tget_setLoops (w : Warp) (l k : Nat) (st : List LoopEnt) :
    (tget (w.setLoops l st).loops k).getD [] = if k = l then st else (tget w.loops k).getD [] := by
  simp only [Warp.setLoops_loops]
  split
  · rename_i h
    rw [tget_tdel]
    split
    · simpa using h.symm
    · rfl
  · rw [tget_tset]
    split <;> rfl

/-- The program counters after lanes that are not at the end of a loop body complete (R313). -/
theorem advance_pc (c : Ctx) (w : Warp) (m : Mask) (k : Nat) (hk : k < 32)
    (h : ∀ l ∈ lanesOf m, ∀ e ∈ (tget w.loops l).getD [], c.pc.toNat ≠ e.stop.toNat) :
    cget (c.advance w m).pc k = if m.getLsbD k then c.nextPc else cget w.pc k := by
  have main : ∀ (ls : List Nat), ls.Nodup → ∀ w : Warp,
      (∀ l ∈ ls, ∀ e ∈ (tget w.loops l).getD [], c.pc.toNat ≠ e.stop.toNat) →
      cget (ls.foldl (fun w l => w.settle l c.pc c.nextPc false) w).pc k = if k ∈ ls then c.nextPc else cget w.pc k := by
    intro ls
    induction ls with
    | nil => intro _ w _; simp
    | cons l r ih =>
      intro hn w hw
      rw [List.nodup_cons] at hn
      have hl := loopCount_away c.pc.toNat c.nextPc.toNat _ (hw l (by simp))
      rw [List.foldl_cons, ih hn.2]
      · by_cases e : k = l
        · subst e
          simp [hn.1, Warp.settle, hl]
        · simp [e, settle_pc_ne _ _ _ _ e]
      · intro j hj e he
        have hjl : j ≠ l := fun q => hn.1 (q ▸ hj)
        refine hw j (List.mem_cons_of_mem _ hj) e ?_
        simp only [Warp.settle, hl] at he
        change e ∈ (tget (w.setLoops l _).loops j).getD [] at he
        rw [tget_setLoops, if_neg hjl] at he
        exact he
  have := main (lanesOf m) (lanesOf_nodup m) w h
  simpa [Ctx.advance, mem_lanesOf, hk] using this

/-- The counts of stair reads (R38): nothing of the warp but `rdCnt`, `qseal` and the dirty bits differs. -/
theorem countStair_frame (s : State) (c : Ctx) (w : Warp) (j k : Nat) (on : Mask) :
    s.countStair c w j k on = { w with rdCnt := (s.countStair c w j k on).rdCnt, qseal := (s.countStair c w j k on).qseal,
                                       dirty := (s.countStair c w j k on).dirty } := by
  unfold State.countStair
  generalize lanesOf on = ls
  induction ls generalizing w with
  | nil => rfl
  | cons l r ih =>
    simp only [List.foldl_cons]
    rw [ih]

/-- An instruction without a stair source completes. -/
theorem finish_plain (s : State) (c : Ctx) (f : Fmt) (on lanes : Mask) (w : Warp) (h : f.stairs = []) :
    s.finish c f on lanes w = s.setWarp c.wid (s.issued (c.advance w lanes) lanes) := by
  simp [State.finish, h]

/-- The warp with the stair reads of a word counted (R38). -/
def State.readsCounted (s : State) (c : Ctx) (f : Fmt) (on : Mask) (w : Warp) : Warp :=
  match f.stairs.head? with
  | none => w
  | some (j, k) => s.countStair c w j.toNat k.toNat on

theorem counted_plain (s : State) (c : Ctx) (f : Fmt) (on : Mask) (w : Warp) (h : f.stairs = []) :
    s.readsCounted c f on w = w := by simp [State.readsCounted, h]

theorem counted_frame (s : State) (c : Ctx) (f : Fmt) (on : Mask) (w : Warp) :
    s.readsCounted c f on w = { w with rdCnt := (s.readsCounted c f on w).rdCnt, qseal := (s.readsCounted c f on w).qseal,
                                       dirty := (s.readsCounted c f on w).dirty } := by
  unfold State.readsCounted
  split
  · rfl
  · exact countStair_frame _ _ _ _ _ _

/-- The warp after a completed word. -/
def State.finished (s : State) (c : Ctx) (f : Fmt) (on lanes : Mask) (w : Warp) : Warp :=
  s.issued (c.advance (s.readsCounted c f on w) lanes) lanes

/-- Completion changes the warp, and the grid's counts of stair reads where the word reads a stair. -/
theorem finish_eq (s : State) (c : Ctx) (f : Fmt) (on lanes : Mask) (w : Warp) :
    s.finish c f on lanes w =
      { s with warps := tset s.warps c.wid (s.finished c f on lanes w), grids := (s.finish c f on lanes w).grids } := by
  unfold State.finish State.finished State.readsCounted
  cases f.stairs.head? with
  | none => rfl
  | some p =>
    obtain ⟨j, k⟩ := p
    simp only
    unfold State.noteReads
    split <;> rfl

theorem finish_warp? (s : State) (c : Ctx) (f : Fmt) (on lanes : Mask) (w : Warp) (j : Nat) :
    (s.finish c f on lanes w).warp? j = if j = c.wid then some (s.finished c f on lanes w) else s.warp? j := by
  rw [finish_eq]; exact tget_tset _ _ _ _

theorem finish_grids (s : State) (c : Ctx) (f : Fmt) (on lanes : Mask) (w : Warp) (i : Nat) :
    ((s.finish c f on lanes w).grid? i).map (fun x => { x with rdN := [] }) =
      (s.grid? i).map (fun x => { x with rdN := [] }) := by
  unfold State.finish
  split
  · rfl
  · dsimp only
    unfold State.noteReads
    split
    · simp only [State.grid?, State.setWarp_grids, State.modGrid_grids, tget_tmod]
      split
      · subst_vars
        cases tget s.grids c.t.gid <;> rfl
      · rfl
    · rfl

/-- Completion touches nothing but its warp and the counts of stair reads. -/
theorem finish_onlyWarp (s : State) (c : Ctx) (f : Fmt) (on lanes : Mask) (w : Warp) :
    s.OnlyWarp (s.finish c f on lanes w) c.wid := by
  refine ⟨?_, fun j hj => by rw [finish_warp?, if_neg hj], finish_grids s c f on lanes w⟩
  have h := finish_eq s c f on lanes w
  generalize s.finish c f on lanes w = u at h ⊢
  rw [h]

/-- The warp after completion: what the results left, with program counters, loops, stair counts and issue times. -/
theorem finished_frame (s : State) (c : Ctx) (f : Fmt) (on lanes : Mask) (w : Warp) :
    let v := s.finished c f on lanes w
    v = { w with pc := v.pc, loops := v.loops, rdCnt := v.rdCnt, qseal := v.qseal, dirty := v.dirty, issues := v.issues,
                 laneIssue := v.laneIssue, lastIssue := v.lastIssue, stallUntil := v.stallUntil, yielded := v.yielded } := by
  intro v
  have h1 := advance_frame c (s.readsCounted c f on w) lanes
  have h2 := counted_frame s c f on w
  simp only [v, State.finished, State.issued]
  rw [h1, h2]

/-- The program counters after completion, for lanes that are not at the end of a loop body. -/
theorem finished_pc (s : State) (c : Ctx) (f : Fmt) (on lanes : Mask) (w : Warp) (k : Nat) (hk : k < 32)
    (h : ∀ l ∈ lanesOf lanes, ∀ e ∈ (tget w.loops l).getD [], c.pc.toNat ≠ e.stop.toNat) :
    cget (s.finished c f on lanes w).pc k = if lanes.getLsbD k then c.nextPc else cget w.pc k := by
  have h2 := counted_frame s c f on w
  have e : (s.readsCounted c f on w).loops = w.loops := by rw [h2]
  have e2 : (s.readsCounted c f on w).pc = w.pc := by rw [h2]
  unfold State.finished
  rw [State.issued_pc, advance_pc c _ lanes k hk (by rw [e]; exact h), e2]

/-! ## Stops -/

/-- A stop that the warp's results and the report queue let through: the lanes stop and one report waits to be written
(R315, R316, R423); otherwise nothing happens yet. -/
theorem stopLanes_now (s : State) (c : Ctx) (cause : Cause) (m : Mask) (d0 d1 : W64) (hd : s.drained c = true)
    (hr : s.canReport = true) :
    s.stopLanes c cause m d0 d1 =
      (s.setWarp c.wid (s.issued { c.w with stopped := c.w.stopped ||| m } m)).report
        (warpEvent c.g c.t c.w cause m c.pc d0 d1) := by
  simp [State.stopLanes, hd, hr]

theorem stopLanes_waits (s : State) (c : Ctx) (cause : Cause) (m : Mask) (d0 d1 : W64)
    (h : s.drained c = false ∨ s.canReport = false) : s.stopLanes c cause m d0 d1 = s := by
  rcases h with h | h <;> simp [State.stopLanes, h]

/-- A stop touches no memory. -/
theorem stopLanes_mem (s : State) (c : Ctx) (cause : Cause) (m : Mask) (d0 d1 : W64) :
    (s.stopLanes c cause m d0 d1).mem = s.mem := by
  unfold State.stopLanes; split <;> rfl

end Sys2Proof.Machine
end

