-- ==== Sys2Proof/Laws/Window.lean ====
section
/-! SUPPORT. The window (R32 to R34) and the flags of a result (R208). -/

namespace Sys2Proof.Machine

open Sys2Proof

/-- R32: the slots of the lanes after one value is shifted into lane `l`. -/
theorem cget_push (w : Warp) (l : Nat) (v : W32) (k j : Nat) (hl : l < 32) (hj : j < 32) :
    cget (w.push l v).win (k * 32 + j) =
      if j = l ∧ k < 8 then (if k = 0 then v else cget w.win ((k - 1) * 32 + l)) else cget w.win (k * 32 + j) := by
  have e : (w.push l v).win =
      cset (cset (cset (cset (cset (cset (cset (cset w.win (7 * 32 + l) (cget w.win (6 * 32 + l))) (6 * 32 + l)
        (cget w.win (5 * 32 + l))) (5 * 32 + l) (cget w.win (4 * 32 + l))) (4 * 32 + l) (cget w.win (3 * 32 + l)))
        (3 * 32 + l) (cget w.win (2 * 32 + l))) (2 * 32 + l) (cget w.win (1 * 32 + l))) (1 * 32 + l)
        (cget w.win (0 * 32 + l))) l v := rfl
  rw [e]
  simp only [cget_cset]
  by_cases h : j = l
  · subst h
    by_cases h8 : k < 8
    · have : k = 0 ∨ k = 1 ∨ k = 2 ∨ k = 3 ∨ k = 4 ∨ k = 5 ∨ k = 6 ∨ k = 7 := by omega
      rcases this with rfl | rfl | rfl | rfl | rfl | rfl | rfl | rfl <;> simp
    · simp only [h8, and_false, if_false]
      repeat rw [if_neg (by omega)]
  · simp only [h, false_and, if_false]
    repeat rw [if_neg (by omega)]

/-- The window of a lane, `w1` first. -/
def Warp.window (w : Warp) (l : Nat) : List W32 := (List.range 8).map fun k => cget w.win (k * 32 + l)

theorem window_push (w : Warp) (l : Nat) (v : W32) (hl : l < 32) : (w.push l v).window l = (v :: w.window l).take 8 := by
  have h := fun k => cget_push w l v k l hl hl
  simp only [true_and] at h
  unfold Warp.window
  simp [List.range_succ, h]

theorem window_push_ne (w : Warp) {l j : Nat} (v : W32) (hl : l < 32) (hj : j < 32) (h : j ≠ l) :
    (w.push l v).window j = w.window j := by
  unfold Warp.window
  congr 1
  funext k
  rw [cget_push w l v k j hl hj, if_neg (fun q => h q.1)]

/-- R34: the words of a result enter in order, the last at `w1`. -/
theorem window_pushAll (w : Warp) (l : Nat) (vs : List W32) (hl : l < 32) :
    (w.pushAll l vs).window l = (vs.reverse ++ w.window l).take 8 := by
  unfold Warp.pushAll
  induction vs generalizing w with
  | nil => simp [Warp.window, List.range_succ]
  | cons v r ih =>
    rw [List.foldl_cons, ih, window_push w l v hl]
    simp only [List.reverse_cons, List.append_assoc, List.singleton_append]
    rw [List.take_append, List.take_append, List.take_take]
    congr 1
    congr 1
    omega

theorem window_pushAll_ne (w : Warp) {l j : Nat} (vs : List W32) (hl : l < 32) (hj : j < 32) (h : j ≠ l) :
    (w.pushAll l vs).window j = w.window j := by
  unfold Warp.pushAll
  induction vs generalizing w with
  | nil => rfl
  | cons v r ih => rw [List.foldl_cons, ih, window_push_ne w v hl hj h]

theorem window_of_win {a b : Warp} (h : a.win = b.win) (l : Nat) : a.window l = b.window l := by
  unfold Warp.window; rw [h]

/-- R32, R34: the window of a lane after an instruction. -/
theorem window_emit (c : Ctx) (d : Dst) (on : Mask) (val : Nat → List W32 × Flags) (k : Nat) (hk : k < 32) :
    (c.emit d on val).window k =
      if on.getLsbD k = true ∧ (d = .nwb ∨ ∃ i, d = .vec i) then ((val k).1.reverse ++ c.w.window k).take 8
      else c.w.window k := by
  have main : (d = .nwb ∨ ∃ i, d = .vec i) → ∀ (ls : List Nat), (∀ l ∈ ls, l < 32) → ls.Nodup → ∀ b : Warp,
      (ls.foldl (fun w l => (w.putLane d l (val l).1).raise (val l).2) b).window k =
        if k ∈ ls then ((val k).1.reverse ++ b.window k).take 8 else b.window k := by
    intro hd ls
    induction ls with
    | nil => intro _ _ b; simp
    | cons l r ih =>
      intro hlt hn b
      rw [List.nodup_cons] at hn
      have hl := hlt l (by simp)
      have hp : ((b.putLane d l (val l).1).raise (val l).2).window k = (b.pushAll l (val l).1).window k := by
        apply window_of_win
        rcases hd with rfl | ⟨i, rfl⟩
        · rfl
        · simp only [Warp.raise_win, Warp.putLane]
          have : ∀ (vs : List W32) (x y : Warp), x.win = y.win → (x.pushAll l vs).win = (y.pushAll l vs).win := by
            intro vs
            induction vs with
            | nil => intro x y h; exact h
            | cons v vs ih =>
              intro x y h
              have : (x.push l v).win = (y.push l v).win := by simp only [Warp.push, h]
              exact ih _ _ this
          exact this _ _ _ (by simp)
      rw [List.foldl_cons, ih (fun x hx => hlt x (List.mem_cons_of_mem _ hx)) hn.2, hp]
      by_cases e : k = l
      · subst e
        simp [hn.1, window_pushAll _ _ _ hk]
      · simp [e, window_pushAll_ne _ _ hl hk e]
  by_cases hd : d = .nwb ∨ ∃ i, d = .vec i
  · have := main hd (lanesOf on) (fun l hl => lanesOf_lt hl) (lanesOf_nodup on) c.w
    have e : c.emit d on val = (lanesOf on).foldl (fun w l => (w.putLane d l (val l).1).raise (val l).2) c.w := by
      rcases hd with rfl | ⟨i, rfl⟩ <;> rfl
    rw [e, this]
    simp only [hd, and_true, mem_lanesOf, hk, true_and]
  · simp only [hd, and_false, if_false]
    apply window_of_win
    unfold Ctx.emit
    split
    · split <;> simp
    · apply foldl_keeps Warp.win
      intro b l
      cases d <;> simp_all [Warp.putLane]

@[simp] theorem putLane_fstat (w : Warp) (d : Dst) (l : Nat) (vs : List W32) : (w.putLane d l vs).fstat = w.fstat := by
  unfold Warp.putLane; split <;> simp

/-- R208: the flags of the on lanes accumulate. -/
theorem fstat_emit (c : Ctx) (d : Dst) (on : Mask) (val : Nat → List W32 × Flags) (hd : ∀ i, d ≠ .uni i) :
    (c.emit d on val).fstat = c.w.fstat ||| (lanesOf on).foldl (fun fl l => fl ||| (val l).2.bits) 0 := by
  have e : c.emit d on val = (lanesOf on).foldl (fun w l => (w.putLane d l (val l).1).raise (val l).2) c.w := by
    unfold Ctx.emit; split
    · exact absurd rfl (hd _)
    · rfl
  rw [e]
  have : ∀ (ls : List Nat) (w : Warp) (a b : BitVec 3), w.fstat = a ||| b →
      (ls.foldl (fun w l => (w.putLane d l (val l).1).raise (val l).2) w).fstat =
        a ||| ls.foldl (fun fl l => fl ||| (val l).2.bits) b := by
    intro ls
    induction ls with
    | nil => intro w a b h; exact h
    | cons l r ih =>
      intro w a b h
      rw [List.foldl_cons, List.foldl_cons]
      exact ih _ _ _ (by simp [h, BitVec.or_assoc])
  exact this (lanesOf on) c.w c.w.fstat 0 (by simp)

theorem fstat_emit_uni (c : Ctx) (i : BitVec 6) (on : Mask) (val : Nat → List W32 × Flags) :
    (c.emit (.uni i) on val).fstat = c.w.fstat ||| if on = 0 then 0 else (val (lowest on)).2.bits := by
  change (if on = 0 then c.w else (c.w.setUnis i.toNat (val (lowest on)).1).raise (val (lowest on)).2).fstat = _
  split <;> simp

end Sys2Proof.Machine
end

