-- ==== Sys2Proof/Tests/Slice0.lean ====
section
/-! SUPPORT. Tests: ill-formed terms that the checks refuse, words written out from the tables of the encoding, small steps, and
for every statement a state and operands that meet its hypotheses. -/

namespace Sys2Proof.Tests

set_option Elab.async false

open Sys2Proof Sys2Proof.Machine Sys2Proof.Claims

/-! ## A small machine: one grid, one team, one warp -/

def pc0 : Nat := 0x300000

/-- A warp at the entry, of 32 lanes. -/
def w0 : Warp := { Warp.start 0 0 0xFFFFFFFF pc0 0 0 0 with residence := .active }

def t0 : Team := placedTeam 1

def g0 : Grid := placedGrid 1 pc0

/-- The machine with the warp's lanes `m` issuing. -/
def kit (w : Warp) (t : Team) (g : Grid) (m : Mask) : State :=
  { State.reset with grids := [(1, g)], nextGid := 2, teams := [(0, t)], nextTid := 1, warps := [(0, w)], cur := some ⟨0, m, 0⟩ }

/-- The context of that issue. -/
def kc (w : Warp) (t : Team) (g : Grid) (m : Mask) : Ctx := ⟨0, m, cget w.pc (lowest m), w, t, g⟩

/-- What `Executes` asks of the small machine. -/
def kitOk (i : Instr) (f : Fmt) (w : Warp) (t : Team) (g : Grid) (m : Mask) : Bool :=
  let c := kc w t g m
  w.tid == 0 && t.gid == 1 && (f.stairs.isEmpty || (c.nested (c.on f.g)).isNone) && (kit w t g m).stairsReady c f (c.on f.g) &&
    match i.shape with
    | some (f', sh) => f' == f && (c.on f.g == 0 || (shapeRidx g.rec_ sh f).isNone)
    | none => false

theorem kit_executes {i : Instr} {f : Fmt} {w : Warp} {t : Team} {g : Grid} {m : Mask} (h : kitOk i f w t g m = true) :
    (kit w t g m).Executes i (kc w t g m) f ((kc w t g m).on f.g) := by
  simp only [kitOk, Bool.and_eq_true, beq_iff_eq, Bool.or_eq_true, List.isEmpty_iff, Option.isNone_iff_eq_none] at h
  obtain ⟨⟨⟨⟨k1, k2⟩, k3⟩, k4⟩, k5⟩ := h
  split at k5
  · rename_i f' sh hs
    simp only [Bool.and_eq_true, beq_iff_eq, Bool.or_eq_true, Option.isNone_iff_eq_none] at k5
    obtain ⟨rfl, k5⟩ := k5
    refine ⟨?_, ⟨sh, hs, k5⟩, rfl, k3, k4⟩
    simp only [State.ctx?, kit, Option.bind, State.ctxOf, State.warp?, State.team?, State.grid?, tget, kc, k1, k2, if_true]
  · exact absurd k5 (by decide)

/-- Operand fields: destination and sources, always executed. -/
def fm (d : Dst) (a : Src := .zero) (b : Src := .zero) (c : Src := .zero) (g : Guard := .always) : Fmt :=
  ⟨g, ⟨0, false, 0, false⟩, d, a, b, c⟩

def v (i : BitVec 8) : Src := .vec false i

/-- The small machine as it starts, at an instruction. -/
theorem runs (i : Instr) (f : Fmt) (h : kitOk i f w0 t0 g0 0xFFFFFFFF = true) :
    (kit w0 t0 g0 0xFFFFFFFF).Executes i (kc w0 t0 g0 0xFFFFFFFF) f ((kc w0 t0 g0 0xFFFFFFFF).on f.g) := kit_executes h

/-! ## Witnesses of the hypotheses: values, transfers, masks, traps -/

/-- The machine as it starts, and the context of its issue. -/
def s0 : State := kit w0 t0 g0 0xFFFFFFFF
def c0 : Ctx := kc w0 t0 g0 0xFFFFFFFF

/-- A value that the meaning of a value instruction computes. -/
def valAt (i : Instr) (l : Nat) : List W32 × Flags := (valueOf s0 c0 l i).getD ([], {})

def addU : Instr := .iadd (fm (.uni 3) (.uni 1) (.const false 1)) 0 .n32 true
def addN : Instr := .iadd (fm .nwb (v 1) (.win true 0)) 0 .s32 true
def addV : Instr := .fadd (fm (.vec 255) (v 254) (.imm 0)) 0x12345 .f32 .rne true
def setP : Instr := .iset (fm (.pred 7) (v 1) (v 2)) 0 .p .s32 .lt

theorem witness_ValueResults_vector : ∃ (s : State) (i : Instr) (c : Ctx) (f : Fmt) (on : Mask) (val : Nat → List W32 × Flags),
    s.Executes i c f on ∧ (∀ l, valueOf s c l i = some (val l)) ∧ f.d = .vec 255 :=
  ⟨_, addV, _, fm (.vec 255) (v 254) (.imm 0), _, valAt addV, runs _ _ (by decide), fun _ => rfl, rfl⟩

theorem witness_ValueResults_nwb : ∃ (s : State) (i : Instr) (c : Ctx) (f : Fmt) (on : Mask) (val : Nat → List W32 × Flags),
    s.Executes i c f on ∧ (∀ l, valueOf s c l i = some (val l)) ∧ f.d = .nwb :=
  ⟨_, addN, _, fm .nwb (v 1) (.win true 0), _, valAt addN, runs _ _ (by decide), fun _ => rfl, rfl⟩

theorem witness_ValueResults_uniform : ∃ (s : State) (i : Instr) (c : Ctx) (f : Fmt) (on : Mask) (val : Nat → List W32 × Flags),
    s.Executes i c f on ∧ (∀ l, valueOf s c l i = some (val l)) ∧ f.d = .uni 3 :=
  ⟨_, addU, _, fm (.uni 3) (.uni 1) (.const false 1), _, valAt addU, runs _ _ (by decide), fun _ => rfl, rfl⟩

theorem witness_ValueFrame : ∃ (s : State) (i : Instr) (c : Ctx) (f : Fmt) (on : Mask) (val : Nat → List W32 × Flags),
    s.Executes i c f on ∧ (∀ l, valueOf s c l i = some (val l)) ∧ f.stairs = [] ∧ c.w.loops = [] ∧
      (∀ d, f.d ≠ .vec d) ∧ (∀ d, f.d ≠ .uni d) :=
  ⟨_, setP, _, fm (.pred 7) (v 1) (v 2), _, valAt setP, runs _ _ (by decide), fun _ => rfl, rfl, rfl, by decide, by decide⟩

theorem witness_PredicatesAndSelect_p7 : ∃ (s : State) (i : Instr) (c : Ctx) (f : Fmt) (on : Mask)
    (val : Nat → List W32 × Flags), s.Executes i c f on ∧ (∀ l, valueOf s c l i = some (val l)) ∧ f.d = .pred 7 :=
  ⟨_, setP, _, fm (.pred 7) (v 1) (v 2), _, valAt setP, runs _ _ (by decide), fun _ => rfl, rfl⟩

theorem witness_PredicatesAndSelect_mset : ∃ (s : State) (c : Ctx) (f : Fmt) (on : Mask), s.Executes (.mset f) c f on ∧
    f.d = .cls3 0 ∧ f.a = .uni 63 ∧ on ≠ 0 :=
  ⟨_, _, fm (.cls3 0) (.uni 63), _, runs _ _ (by decide), rfl, rfl, by decide⟩

theorem witness_PredicatesAndSelect_sel : ∃ (s : State) (c : Ctx) (f : Fmt) (on : Mask), s.Executes (.sel f 0) c f on ∧
    f.c = .pred true 7 ∧ (Instr.sel f 0).wf = true :=
  ⟨_, _, fm (.vec 0) (v 1) (v 2) (.pred true 7), _, runs _ _ (by decide), rfl, by decide⟩

theorem witness_PredicatesAndSelect_pset : ∃ (s : State) (c : Ctx) (f : Fmt) (on : Mask), s.Executes (.pset f .andn) c f on ∧
    f.a = .pred true 0 ∧ f.b = .pred false 6 ∧ (Instr.pset f .andn).wf = true :=
  ⟨_, _, fm (.pred 1) (.pred true 0) (.pred false 6), _, runs _ _ (by decide), rfl, rfl, by decide⟩

theorem witness_ShiftsAndFunnels : ∃ (s : State) (c : Ctx) (f : Fmt) (on : Mask), s.Executes (.shl f 0) c f on ∧
    s.Executes (.shr f 0) c f on ∧ s.Executes (.sar f 0) c f on ∧ s.Executes (.rotl f 0) c f on ∧ (Instr.shl f 0).wf = true :=
  ⟨_, _, fm (.vec 3) (v 1) (v 2), _, runs _ _ (by decide), runs _ _ (by decide), runs _ _ (by decide), runs _ _ (by decide),
    by decide⟩

theorem witness_ShiftsAndFunnels_funsh : ∃ (s : State) (c : Ctx) (f : Fmt) (on : Mask), s.Executes (.funsh f 0 true) c f on ∧
    (Instr.funsh f 0 true).wf = true :=
  ⟨_, _, fm (.vec 3) (v 1) (v 2) (v 4), _, runs _ _ (by decide), by decide⟩

theorem witness_BitCountsAndSums : ∃ (s : State) (c : Ctx) (f : Fmt) (on : Mask), s.Executes (.popc f 0) c f on ∧
    s.Executes (.clz f 0) c f on ∧ s.Executes (.ctz f 0) c f on ∧ s.Executes (.brev f 0) c f on ∧ (Instr.clz f 0).wf = true :=
  ⟨_, _, fm (.uni 0) (.uni 5), _, runs _ _ (by decide), runs _ _ (by decide), runs _ _ (by decide), runs _ _ (by decide),
    by decide⟩

theorem witness_BitCountsAndSums_sums : ∃ (s : State) (c : Ctx) (f : Fmt) (on : Mask), s.Executes (.add64 f 0xFFFFF) c f on ∧
    s.Executes (.sub64 f 0xFFFFF) c f on :=
  ⟨_, _, fm (.vec 254) (v 0) (.imm 1), _, runs _ _ (by decide), runs _ _ (by decide)⟩

theorem witness_Elect : ∃ (s : State) (c : Ctx) (f : Fmt) (on : Mask), s.Executes (.elect f .w4) c f on ∧
    (Instr.elect f .w4).wf = true := ⟨_, _, fm (.pred 0), _, runs _ _ (by decide), by decide⟩

theorem noLoop (c : Ctx) (h : c.w.loops = []) : c.noLoopEnd := fun l _ e he => by
  rw [h] at he; exact absurd he (by simp [tget])

theorem c0_noLoopEnd : c0.noLoopEnd := noLoop _ rfl

theorem witness_Transfers_nop : ∃ (s : State) (c : Ctx) (f : Fmt) (on : Mask), s.Executes (.nop ⟨0, false, 0, false⟩) c f on ∧
    c.noLoopEnd := ⟨_, _, fm (.vec 0), _, runs _ _ (by decide), c0_noLoopEnd⟩

theorem witness_Transfers_bra : ∃ (s : State) (i : Instr) (c : Ctx) (f : Fmt) (on : Mask) (target : Nat → W64),
    s.Executes i c f on ∧ i = .bra f 0x7FFFF ∧ target = (fun _ => c.pc + 12 * (0x7FFFF#20).signExtend 64) ∧ c.noLoopEnd ∧
      ∀ l, on.getLsbD l → (target l).toNat % 12 = 0 :=
  ⟨_, _, _, fm (.vec 0), _, _, runs (.bra _ _) _ (by decide), rfl, rfl, c0_noLoopEnd, fun _ _ => by decide⟩

/-- The warp whose lanes read an odd address. -/
def wOdd : Warp := { w0 with uni := [(2, 13)] }

theorem witness_Transfers_stop : ∃ (s : State) (i : Instr) (c : Ctx) (f : Fmt) (on : Mask) (target : Nat → W64),
    s.Executes i c f on ∧ i = .ret f ∧ target = (fun l => s.src64 c 0 f.a l) ∧ MayStop s c ∧
      ∃ l, l < 32 ∧ on.getLsbD l ∧ (target l).toNat % 12 ≠ 0 :=
  ⟨_, _, _, fm (.vec 0) (.uni 2), _, _, kit_executes (i := .ret _) (w := wOdd) (t := t0) (g := g0) (m := 1) (by decide), rfl, rfl,
    by unfold MayStop; decide, 0, by decide, by decide, by decide⟩

theorem witness_Transfers_call : ∃ (s : State) (c : Ctx) (f : Fmt) (on : Mask) (target : Nat → W64),
    s.Executes (.call f 0xFFFFF) c f on ∧ f.d = .vec 254 ∧ c.noLoopEnd ∧
      target = (fun _ => c.pc + 12 * (0xFFFFF#20).signExtend 64) ∧ ∀ l, on.getLsbD l → (target l).toNat % 12 = 0 :=
  ⟨_, _, fm (.vec 254), _, _, runs _ _ (by decide), rfl, c0_noLoopEnd, rfl, fun _ _ => by decide⟩

theorem witness_IndexedMoves : ∃ (s : State) (c : Ctx) (f : Fmt) (on : Mask), s.Executes (.mov f 0 .fromIdx) c f on ∧
    ∀ l, on.getLsbD l → (s.src c 0 .raw f.a l).toNat < c.g.rec_.vec :=
  ⟨_, _, fm (.vec 1) (.spec 0), _, runs _ _ (by decide), fun l h => by
    have : ∀ l, l < 32 → (s0.src c0 0 .raw (.spec 0) l).toNat < 256 := by decide
    by_cases hl : l < 32
    · exact this l hl
    · have h' : (kc w0 t0 g0 0xFFFFFFFF).on Guard.always = 0xFFFFFFFF := by decide
      rw [show (fm (.vec 1) (.spec 0)).g = Guard.always from rfl, h'] at h
      rw [BitVec.getLsbD_of_ge _ _ (by omega)] at h; exact absurd h (by decide)⟩

theorem witness_IndexedMoves_stop : ∃ (s : State) (c : Ctx) (f : Fmt) (on : Mask) (x : Nat),
    s.Executes (.mov f 0 .toIdx) c f on ∧ MayStop s c ∧ on.getLsbD x ∧ c.g.rec_.vec ≤ (s.src c 0 .raw f.a x).toNat ∧
      ∀ l, l < x → on.getLsbD l → (s.src c 0 .raw f.a l).toNat < c.g.rec_.vec :=
  ⟨_, _, fm (.vec 0) (.uni 2) (v 1), _, 0,
    kit_executes (w := { w0 with uni := [(2, 256)] }) (t := t0) (g := g0) (m := 0xFFFFFFFF) (by decide), by unfold MayStop; decide,
    by decide, by decide, fun l h => absurd h (by omega)⟩

theorem witness_PairedHalves : ∃ (s : State) (c : Ctx) (g : Guard) (h1 h2 : Half), s.ctx? = some c ∧ c.on g ≠ 0 ∧
    halfRidx c.g.rec_ h1 = none ∧ halfRidx c.g.rec_ h2 = none ∧ h1.op ≠ .hnop ∧ h2.op = .hnop :=
  ⟨s0, c0, .always, ⟨.ffmaF32, true, false, false, 127, .vec 1, .win 7, .const 15⟩,
    ⟨.hnop, false, false, false, 0, .const 0, .const 0, .const 0⟩, by decide, by decide, by decide, by decide, by decide, rfl⟩

theorem witness_StochasticConversion : ∃ (s : State) (c : Ctx) (f : Fmt) (on : Mask), s.Executes (.cvtTo f 0 .sr 7) c f on ∧
    cvtStoch .sr (c.g.slot 7) = true ∧ on ≠ 0 := ⟨_, _, fm (.vec 1) (v 2), _, runs _ _ (by decide), by decide, by decide⟩

/-- What holds for the 32 lanes holds for every lane of a mask. -/
theorem onLanes {m : Mask} {P : Nat → Prop} (h : ∀ l, l < 32 → m.getLsbD l → P l) : ∀ l, m.getLsbD l → P l := fun l hl => by
  by_cases k : l < 32
  · exact h l k hl
  · rw [BitVec.getLsbD_of_ge _ _ (by omega)] at hl
    exact absurd hl (by decide)

theorem noLoopAt (w : Warp) (m : Mask) (h : w.loops = []) : NoLoopEndAt w m := fun l _ _ e he => by
  rw [h] at he; exact absurd he (by simp [tget])

theorem witness_Loops : ∃ (s : State) (c : Ctx) (f : Fmt) (on : Mask), s.Executes (.loop f 1023 1) c f on ∧
    ∀ l, (tget c.w.loops l).getD [] = [] :=
  ⟨_, _, fm (.vec 0) (v 1), _, runs _ _ (by decide), fun _ => rfl⟩

/-- A warp whose lane 0 is in two loops. -/
def wLoops : Warp := { w0 with loops := [(0, [⟨0x300000, 0x300018, 2⟩, ⟨0x300000, 0x300024, 2⟩])] }

theorem witness_Loops_nest : ∃ (s : State) (c : Ctx) (f : Fmt) (on : Mask) (l : Nat), s.Executes (.loop f 2 1) c f on ∧ MayStop s c ∧
    l < 32 ∧ c.lanes.getLsbD l = true ∧ on.getLsbD l = true ∧ min ((s.src c 0 (.int 32) f.a l).toNat + 1) 0xFFFFFFFF ≠ 0 ∧
    2 ≤ ((tget c.w.loops l).getD []).length :=
  ⟨_, _, fm (.vec 0) (v 1), _, 0, kit_executes (w := wLoops) (t := t0) (g := g0) (m := 1) (by decide), by unfold MayStop; decide,
    by decide, by decide, by decide, by decide, by decide⟩

/-- A warp whose lane 0 stands at the end of its loop's body. -/
def wLoopEnd : Warp := { w0 with loops := [(0, [⟨0x2FFFF4, 0x300000, 2⟩])] }

theorem witness_Loops_end : ∃ (s : State) (c : Ctx) (f : Fmt) (on : Mask) (e : LoopEnt), s.Executes (.loop f 2 0) c f on ∧
    MayStop s c ∧ c.lanes = 1 ∧ min ((s.src c 0 (.int 32) f.a 0).toNat + 0) 0xFFFFFFFF = 0 ∧
    (tget c.w.loops 0).getD [] = [e] ∧ e.stop = c.pc :=
  ⟨_, _, fm (.vec 0) (v 1), _, _, kit_executes (w := wLoopEnd) (t := t0) (g := g0) (m := 1) (by decide), by unfold MayStop; decide,
    rfl, by decide, rfl, by decide⟩

theorem c0_pcs : ∀ l, c0.lanes.getLsbD l → cget c0.w.pc l = c0.pc :=
  onLanes fun l h _ => (by decide : ∀ l, l < 32 → cget w0.pc l = c0.pc) l h

theorem witness_LaneMasks_pass : ∃ (s : State) (i : Instr) (c : Ctx) (f : Fmt) (on : Mask), s.Executes i c f on ∧
    (∀ l, c.lanes.getLsbD l → cget c.w.pc l = c.pc) ∧ i = .join f ∧ f.a = .mask 0 ∧ c.nestedMask on 0 = none ∧
    NoLoopEndAt c.w (c.lanes ||| c.w.holds 0) ∧ ∀ k, k < 32 → (c.w.holds 0).getLsbD k = true →
      waitsAt c c.lanes (.join 0) k = some (.join 0) ∧ cget c.w.pc k = c.pc :=
  ⟨_, _, _, fm (.vec 0) (.mask 0), _, runs (.join _) _ (by decide), c0_pcs, rfl, rfl, by decide, noLoopAt _ _ rfl, by decide⟩

theorem witness_LaneMasks_wait : ∃ (s : State) (i : Instr) (c : Ctx) (f : Fmt) (on : Mask), s.Executes i c f on ∧
    (∀ l, c.lanes.getLsbD l → cget c.w.pc l = c.pc) ∧ i = .waitm f ∧ f.a = .mask 0 ∧ c.nestedMask on 0 = none ∧
    NoLoopEndAt c.w (c.lanes ||| c.w.holds 0) ∧ ∃ k, k < 32 ∧ (c.w.holds 0).getLsbD k = true ∧
      waitsAt c c.lanes (.waitm 0) k ≠ some (.waitm 0) :=
  ⟨_, _, _, fm (.vec 0) (.mask 0), _, kit_executes (i := .waitm _) (w := w0) (t := t0) (g := g0) (m := 1) (by decide),
    onLanes fun l h _ => (by decide : ∀ l, l < 32 → cget w0.pc l = BitVec.ofNat 64 pc0) l h, rfl, rfl, by decide, noLoopAt _ _ rfl,
    31, by decide, by decide, by decide⟩

theorem witness_LaneMasks_leave : ∃ (s : State) (c : Ctx) (f : Fmt) (on : Mask), s.Executes (.leave f) c f on ∧
    c.nestedMask on 11 = none ∧ f.a = .mask 11 := ⟨_, _, fm (.vec 0) (.mask 11), _, runs _ _ (by decide), by decide, rfl⟩

/-- A warp whose lane 0 is inside the debug handler. -/
def wDbg0 : Warp := { w0 with dbg := ⟨true, false, 1, 1, 24, []⟩ }

theorem witness_LaneMasks_nested : ∃ (s : State) (c : Ctx) (f : Fmt) (on : Mask), s.Executes (.join f) c f on ∧ f.a = .mask 0 ∧
    c.nestedMask on 0 = some (.dbgNest, 1) ∧ MayStop s c :=
  ⟨_, _, fm (.vec 0) (.mask 0), _, kit_executes (w := wDbg0) (t := t0) (g := g0) (m := 1) (by decide), rfl, by decide,
    by unfold MayStop; decide⟩

theorem witness_LaneMasks_mset : ∃ (s : State) (c : Ctx) (f : Fmt) (on : Mask), s.Executes (.mset f) c f on ∧ f.d = .cls3 11 ∧
    f.a = .pred true 7 ∧ on ≠ 0 := ⟨_, _, fm (.cls3 11) (.pred true 7), _, runs _ _ (by decide), rfl, rfl, by decide⟩

theorem witness_Traps : ∃ (s : State) (c : Ctx) (f : Fmt) (on : Mask), s.Executes (.trap f 0xFFFF) c f on ∧ on ≠ 0 ∧
    MayStop s c ∧ s.Executes (.bkpt f 0) c f on ∧ c.g.dbgEntry = none ∧ c.nested on = none :=
  ⟨_, _, fm (.vec 0), _, runs _ _ (by decide), by decide, by unfold MayStop; decide, runs _ _ (by decide), rfl, by decide⟩

theorem witness_Traps_off : ∃ (s : State) (c : Ctx) (f : Fmt) (on : Mask), s.Executes (.trap f 0) c f on ∧ on = 0 ∧
    c.noLoopEnd :=
  ⟨_, _, fm (.vec 0) .zero .zero .zero ⟨false, 0⟩, _, runs _ _ (by decide), by decide, c0_noLoopEnd⟩

theorem witness_Traps_handler : ∃ (s : State) (c : Ctx) (f : Fmt) (on : Mask), s.Executes (.bkpt f 1) c f on ∧
    c.nested on = none ∧ c.g.dbgEntry = some 24 ∧ on ≠ 0 ∧ s.drained c = true ∧ c.w.dbgBusy = false :=
  ⟨_, _, fm (.vec 0), _, kit_executes (w := w0) (t := t0) (g := { g0 with dbgEntry := some 24 }) (m := 1) (by decide), by decide,
    rfl, by decide, by decide, by decide⟩

theorem witness_Traps_nested : ∃ (s : State) (c : Ctx) (f : Fmt) (on : Mask), s.Executes (.bkpt f 1) c f on ∧ on ≠ 0 ∧ MayStop s c ∧
    c.nested on = some (.dbgNest, 1) :=
  ⟨_, _, fm (.vec 0), _, kit_executes (w := wDbg0) (t := t0) (g := g0) (m := 0xFFFFFFFF) (by decide), by decide,
    by unfold MayStop; decide, by decide⟩

/-- A warp whose 32 lanes are inside the debug handler, to return to an address. -/
def wDbg (pc : W64) : Warp := { w0 with dbg := ⟨true, false, 1, 0xFFFFFFFF, pc, []⟩ }

theorem witness_Traps_rte : ∃ (s : State) (c : Ctx) (f : Fmt) (on : Mask), s.Executes (.rte f) c f on ∧
    on &&& ~~~(if c.w.dbg.inside then c.w.dbg.lanes else 0) = 0 ∧
    (∀ l, l < 32 → (c.w.dbg.lanes &&& ~~~c.w.exited).getLsbD l = true → waitsAt c on .rte l = some .rte) ∧
    s.drainedFor c (c.w.dbg.lanes &&& ~~~c.w.exited) = true ∧ c.w.dbg.pc.toNat % 12 = 0 ∧ NoLoopEndAt c.w (c.w.dbg.lanes &&& ~~~c.w.exited) :=
  ⟨_, _, fm (.vec 0), _, kit_executes (w := wDbg 24) (t := t0) (g := g0) (m := 0xFFFFFFFF) (by decide), by decide, by decide,
    by decide, by decide, noLoopAt _ _ rfl⟩

theorem witness_Traps_rte_ialign : ∃ (s : State) (c : Ctx) (f : Fmt) (on : Mask), s.Executes (.rte f) c f on ∧
    on &&& ~~~(if c.w.dbg.inside then c.w.dbg.lanes else 0) = 0 ∧
    (∀ l, l < 32 → (c.w.dbg.lanes &&& ~~~c.w.exited).getLsbD l = true → waitsAt c on .rte l = some .rte) ∧
    s.drainedFor c (c.w.dbg.lanes &&& ~~~c.w.exited) = true ∧ c.w.dbg.pc.toNat % 12 ≠ 0 ∧ MayStop s c :=
  ⟨_, _, fm (.vec 0), _, kit_executes (w := wDbg 25) (t := t0) (g := g0) (m := 0xFFFFFFFF) (by decide), by decide, by decide,
    by decide, by decide, by unfold MayStop; decide⟩

theorem witness_Traps_rte_wait : ∃ (s : State) (c : Ctx) (f : Fmt) (on : Mask) (l : Nat), s.Executes (.rte f) c f on ∧
    on &&& ~~~(if c.w.dbg.inside then c.w.dbg.lanes else 0) = 0 ∧ l < 32 ∧ (c.w.dbg.lanes &&& ~~~c.w.exited).getLsbD l = true ∧
    waitsAt c on .rte l ≠ some .rte :=
  ⟨_, _, fm (.vec 0), _, 5, kit_executes (w := wDbg 24) (t := t0) (g := g0) (m := 1) (by decide), by decide, by decide, by decide,
    by decide⟩

theorem witness_Traps_rte_outside : ∃ (s : State) (c : Ctx) (f : Fmt) (on : Mask), s.Executes (.rte f) c f on ∧
    on &&& ~~~(if c.w.dbg.inside then c.w.dbg.lanes else 0) ≠ 0 ∧ MayStop s c :=
  ⟨_, _, fm (.vec 0), _, kit_executes (w := wDbg0) (t := t0) (g := g0) (m := 3) (by decide), by decide, by unfold MayStop; decide⟩

theorem witness_IllegalWords : ∃ (s : State) (c : Ctx), s.ctx? = some c ∧ c.nested c.lanes = none ∧ MayStop s c ∧
    c.g.rec_.emuEntry = 0 := ⟨s0, c0, by decide, by decide, by unfold MayStop; decide, rfl⟩

theorem witness_IllegalWords_nested : ∃ (s : State) (c : Ctx), s.ctx? = some c ∧ c.nested c.lanes = some (.dbgNest, 1) ∧
    MayStop s c := ⟨kit wDbg0 t0 g0 1, kc wDbg0 t0 g0 1, by decide, by decide, by unfold MayStop; decide⟩

/-- A grid with an emulation handler. -/
def gEmu : Grid := { g0 with rec_ := { g0.rec_ with emuEntry := 12 } }

theorem witness_IllegalWords_handler : ∃ (s : State) (c : Ctx), s.ctx? = some c ∧ c.nested c.lanes = none ∧
    c.g.rec_.emuEntry ≠ 0 ∧ c.w.emuBusy = false ∧ s.drained c = true :=
  ⟨kit w0 t0 gEmu 1, kc w0 t0 gEmu 1, by decide, by decide, by decide, by decide, by decide⟩

/-- A warp of which these lanes are inside the emulation handler. -/
def wEmu (m : Mask) : Warp := { w0 with emu := ⟨true, 0, 1, m, 0, []⟩ }

theorem witness_IllegalWords_busy : ∃ (s : State) (c : Ctx), s.ctx? = some c ∧ c.nested c.lanes = none ∧
    c.g.rec_.emuEntry ≠ 0 ∧ c.w.emuBusy = true :=
  ⟨kit (wEmu 2) t0 gEmu 1, kc (wEmu 2) t0 gEmu 1, by decide, by decide, by decide, by decide⟩

theorem witness_Emulation_return : ∃ (s : State) (c : Ctx) (f : Fmt) (on : Mask), s.Executes (.emur f true) c f on ∧
    on &&& ~~~(if c.w.emu.inside then c.w.emu.lanes else 0) = 0 ∧ on ≠ 0 ∧
    (∀ l, l < 32 → (c.w.emu.lanes &&& ~~~c.w.exited).getLsbD l = true → waitsAt c on (.emur true) l = some (.emur true)) ∧
    s.drainedFor c (c.w.emu.lanes &&& ~~~c.w.exited) = true ∧ NoLoopEndAt c.w (c.w.emu.lanes &&& ~~~c.w.exited) ∧ c.noLoopEnd ∧
    c.lanes &&& ~~~on &&& (c.w.emu.lanes &&& ~~~c.w.exited) = 0 :=
  ⟨_, _, fm (.vec 0), _, kit_executes (w := wEmu 0xFFFFFFFF) (t := t0) (g := gEmu) (m := 0xFFFFFFFF) (by decide), by decide,
    by decide, by decide, by decide, noLoopAt _ _ rfl, noLoop _ rfl, by decide⟩

theorem witness_Emulation_wait : ∃ (s : State) (c : Ctx) (f : Fmt) (on : Mask) (l : Nat), s.Executes (.emur f false) c f on ∧
    on &&& ~~~(if c.w.emu.inside then c.w.emu.lanes else 0) = 0 ∧ l < 32 ∧ (c.w.emu.lanes &&& ~~~c.w.exited).getLsbD l = true ∧
    waitsAt c on (.emur false) l = none ∧ c.noLoopEnd :=
  ⟨_, _, fm (.vec 0), _, 1, kit_executes (w := wEmu 3) (t := t0) (g := gEmu) (m := 1) (by decide), by decide, by decide, by decide,
    by decide, noLoop _ rfl⟩

theorem witness_Emulation_outside : ∃ (s : State) (c : Ctx) (f : Fmt) (on : Mask), s.Executes (.emur f false) c f on ∧
    on &&& ~~~(if c.w.emu.inside then c.w.emu.lanes else 0) ≠ 0 ∧ MayStop s c :=
  ⟨_, _, fm (.vec 0), _, runs _ _ (by decide), by decide, by unfold MayStop; decide⟩

theorem witness_SpecialRegisters : ∃ (s : State) (c : Ctx) (f : Fmt) (on : Mask), s.Executes (.srd f) c f on ∧
    f.a = .spec 0x42 ∧ s.flagsPending c 0x42 = false := ⟨_, _, fm (.vec 254) (.spec 0x42), _, runs _ _ (by decide), rfl, by decide⟩

/-- A warp with a special-function result to come and an ordered atomic in its store queue. -/
def wBusy : Warp :=
  { w0 with pend := [Pend.new (.sfu 2) 0 1 (.vec 9) 1 0], sq := [⟨4, .atomo .add .s32 [] 5, false, .dev, 0, 1, [], false⟩] }

theorem witness_SpecialRegisters_waits : ∃ (s : State) (c : Ctx) (f f' : Fmt) (on : Mask), s.Executes (.srd f) c f on ∧
    f.a = .spec 0x1A ∧ s.flagsPending c 0x1A = true ∧ s.Executes (.swr f') c f' on ∧ f'.d = .cls3 0x18 ∧
    s.specialPending c 0x18 = true :=
  ⟨_, _, fm (.vec 2) (.spec 0x1A), fm (.cls3 0x18) (.uni 2), _,
    kit_executes (w := wBusy) (t := t0) (g := g0) (m := 1) (by decide), rfl, by decide,
    kit_executes (w := wBusy) (t := t0) (g := g0) (m := 1) (by decide), rfl, by decide⟩

theorem witness_SpecialRegisters_write : ∀ n : BitVec 8, n = 0x18 ∨ n = 0x1A ∨ n = 0x1B ∨ n = 0x1C ∨ n = 0x3C ∨ n = 0x42 →
    ∃ (s : State) (c : Ctx) (f : Fmt) (on : Mask), s.Executes (.swr f) c f on ∧ f.d = .cls3 n ∧
      s.specialPending c n = false ∧ f.stairs = [] := by
  intro n h
  rcases h with rfl | rfl | rfl | rfl | rfl | rfl <;>
    exact ⟨_, _, fm (.cls3 _) (.uni 2), _, runs (.swr _) _ (by decide), rfl, by decide, rfl⟩

theorem witness_Exits : ∃ (s : State) (c : Ctx) (f : Fmt) (on : Mask), s.Executes (.exit f) c f on ∧ c.w.waits = [] ∧ on ≠ 0 ∧
    c.t.kind = .root ∧ s.bars = [] ∧ c.w.launched &&& ~~~(c.w.exited ||| on) &&& ~~~c.w.stopped ≠ 0 ∧
    c.wid / 32 = c.w.tid :=
  ⟨_, _, fm (.vec 0), _, kit_executes (w := w0) (t := t0) (g := g0) (m := 1) (by decide), rfl, by decide, rfl, rfl, by decide, rfl⟩

theorem witness_Exits_off : ∃ (s : State) (c : Ctx) (f : Fmt) (on : Mask), s.Executes (.exit f) c f on ∧ c.w.waits = [] ∧
    on = 0 := ⟨_, _, fm (.vec 0) .zero .zero .zero ⟨false, 0⟩, _, runs _ _ (by decide), rfl, by decide⟩

/-- A shader team. -/
def tSh : Team := { t0 with kind := .shader [] }

theorem witness_Exits_shader : ∃ (s : State) (c : Ctx) (f : Fmt) (on : Mask), s.Executes (.exit f) c f on ∧ on ≠ 0 ∧
    c.t.kind = .shader [] ∧ s.shaderEnds c on = some none ∧ s.bars = [] ∧ c.w.waits = [] ∧
    c.w.launched &&& ~~~(c.w.exited ||| on) &&& ~~~c.w.stopped ≠ 0 ∧ c.wid / 32 = c.w.tid :=
  ⟨_, _, fm (.vec 0), _, kit_executes (w := w0) (t := tSh) (g := g0) (m := 1) (by decide), by decide, rfl, by decide, rfl, rfl,
    by decide, rfl⟩

theorem witness_Exits_shader_waits : ∃ (s : State) (c : Ctx) (f : Fmt) (on : Mask), s.Executes (.exit f) c f on ∧ on ≠ 0 ∧
    c.t.kind = .shader [] ∧ s.shaderEnds c on = none :=
  ⟨_, _, fm (.vec 0), _, kit_executes (w := wBusy) (t := tSh) (g := g0) (m := 1) (by decide), by decide, rfl, by decide⟩

/-- The small machine with a lane's partial sum in its core's L1. -/
def sPart (t : Team) : State :=
  { kit { w0 with contrib := [3] } t g0 1 with
    cores := [(32, { Core.reset with l1 := [(3, ⟨0, [], some (.add, .n32, 1)⟩)] })] }

theorem witness_Exits_shader_drains : ∃ (s : State) (c : Ctx) (f : Fmt) (on : Mask) (l : Nat), s.Executes (.exit f) c f on ∧ on ≠ 0 ∧
    c.t.kind = .shader [] ∧ s.shaderEnds c on = some (some l) :=
  ⟨sPart tSh, kc { w0 with contrib := [3] } tSh g0 1, fm (.vec 0), _, 3,
    ⟨by decide, ⟨_, rfl, Or.inr (by decide)⟩, rfl, Or.inl rfl, by decide⟩, by decide, rfl, by decide⟩

theorem witness_TeamBarriers_completes : ∀ i, i = .barArv (fm (.vec 0)) .team 15 ∨ i = .barSync (fm (.vec 0)) .team 0 →
    ∃ (s : State) (c : Ctx) (f : Fmt) (on : Mask) (n : BitVec 4), s.Executes i c f on ∧
      (i = .barArv f .team n ∨ i = .barSync f .team n) ∧ c.nested on = none ∧ n.toNat < c.g.rec_.bars .team ∧
      s.barRelease c .team = some none ∧ c.w.waits = [] ∧ c.noLoopEnd ∧ (∀ l, c.lanes.getLsbD l → cget c.w.pc l = c.pc) ∧
      c.w.alive = c.lanes ∧ c.lanes ≠ 0 ∧ s.bars = [] ∧ s.barTeams .team (c.barOwner .team) = ([(c.w.tid, c.t)], true) ∧
      c.t.nwarps = 1 ∧ c.wid = widOf c.w.tid 0 := by
  intro i h
  rcases h with rfl | rfl
  · exact ⟨s0, c0, fm (.vec 0), _, 15, runs _ _ (by decide), Or.inl rfl, by decide, by decide, by decide, rfl, c0_noLoopEnd,
      c0_pcs, by decide, by decide, by decide, rfl, rfl, rfl⟩
  · exact ⟨s0, c0, fm (.vec 0), _, 0, runs _ _ (by decide), Or.inr rfl, by decide, by decide, by decide, rfl, c0_noLoopEnd,
      c0_pcs, by decide, by decide, by decide, rfl, rfl, rfl⟩

/-- A team of two warps, the second of which has not arrived. -/
def sTwo : State := { kit w0 { t0 with nwarps := 2 } g0 0xFFFFFFFF with warps := [(0, w0), (1, { w0 with num := 1 })] }
def cTwo : Ctx := kc w0 { t0 with nwarps := 2 } g0 0xFFFFFFFF

theorem sTwo_executes (i : Instr) (h : i.shape = some (fm (.vec 0), { dst := .none, guard7 := true })) :
    sTwo.Executes i cTwo (fm (.vec 0)) 0xFFFFFFFF :=
  ⟨by decide, ⟨_, h, Or.inr (by decide)⟩, by decide, Or.inl rfl, by decide⟩

theorem witness_TeamBarriers_waits : ∃ (s : State) (c : Ctx) (f : Fmt) (on : Mask) (n : BitVec 4) (x k : Nat) (m : Team) (v : Warp),
    s.Executes (.barSync f .team n) c f on ∧ s.Executes (.barArv f .team n) c f on ∧ c.nested on = none ∧
    n.toNat < c.g.rec_.bars .team ∧ s.barRelease c .team = some none ∧ c.w.waits = [] ∧ c.noLoopEnd ∧
    (∀ l, c.lanes.getLsbD l → cget c.w.pc l = c.pc) ∧ c.w.alive = c.lanes ∧ c.lanes ≠ 0 ∧ s.bars = [] ∧
    (x, m) ∈ (s.barTeams .team (c.barOwner .team)).1 ∧ k < m.nwarps ∧ s.warp? (widOf x k) = some v ∧ v.alive ≠ 0 ∧
    widOf x k ≠ c.wid :=
  ⟨sTwo, cTwo, fm (.vec 0), _, 15, 0, 1, { t0 with nwarps := 2 }, { w0 with num := 1 }, sTwo_executes _ rfl, sTwo_executes _ rfl,
    by decide, by decide, by decide, rfl, c0_noLoopEnd, c0_pcs, by decide, by decide, by decide, by decide, by decide, rfl,
    by decide, by decide⟩

/-- A grid with a cluster and a die barrier, an aborted team of whose first cluster waits to be placed again, and whose first die
has a team left to dispatch. -/
def gBar : Grid :=
  { g0 with rec_ := { g0.rec_ with barDie := 1, gx := 2, cx := 2 }, again := [(1, .root, [])], seqs := [⟨0, [1], 0, 1⟩] }

theorem witness_TeamBarriers_unplaced : ∀ lvl, lvl = .clu ∨ lvl = .die →
    ∃ (s : State) (c : Ctx) (f : Fmt) (on : Mask), s.Executes (.barSync f lvl 0) c f on ∧ c.nested on = none ∧
      0 < c.g.rec_.bars lvl ∧ s.barRelease c lvl = some none ∧ c.t.commit = [] ∧ (s.barTeams lvl (c.barOwner lvl)).2 = false := by
  intro lvl h
  rcases h with rfl | rfl <;>
    exact ⟨_, _, fm (.vec 0), _, kit_executes (i := .barSync _ _ _) (w := w0) (t := t0) (g := gBar) (m := 0xFFFFFFFF) (by decide),
      by decide, by decide, by decide, rfl, by decide⟩

theorem witness_TeamBarriers_stops : ∃ (s s' : State) (c c' : Ctx) (f : Fmt) (on on' : Mask), s.Executes (.barArv f .die 0) c f on ∧
    c.nested on = none ∧ c.g.rec_.bars .die ≤ 0 ∧ MayStop s c ∧ s'.Executes (.barSync f .team 0) c' f on' ∧
    c'.nested on' = some (.dbgNest, 1) ∧ MayStop s' c' :=
  ⟨_, _, _, _, fm (.vec 0), _, _, runs _ _ (by decide), by decide, by decide, by unfold MayStop; decide,
    kit_executes (w := wDbg0) (t := t0) (g := g0) (m := 1) (by decide), by decide, by unfold MayStop; decide⟩

theorem witness_TeamBarriers_earlier : ∃ (s : State) (c : Ctx) (f : Fmt) (on : Mask), s.Executes (.barSync f .team 0) c f on ∧
    c.nested on = none ∧ 0 < c.g.rec_.bars .team ∧ s.barRelease c .team = none :=
  ⟨_, _, fm (.vec 0), _, kit_executes (w := wBusy) (t := t0) (g := g0) (m := 1) (by decide), by decide, by decide, by decide⟩

theorem witness_Stairs_publish : ∃ (s : State) (c : Ctx) (f : Fmt) (on : Mask) (j : BitVec 2), s.Executes (.pubq f j) c f on ∧
    c.t.kind = .root ∧ s.pubWaits c j.toNat on = false ∧ c.w.releasing = false ∧
    ∀ l, l < 32 → on.getLsbD l → l = 0 :=
  ⟨_, _, fm (.vec 0) (v 1), _, 3, kit_executes (i := .pubq _ 3) (w := w0) (t := t0) (g := g0) (m := 1) (by decide), rfl, by decide,
    by decide, by decide⟩

theorem witness_Stairs_node : ∃ (s : State) (c : Ctx) (f : Fmt) (on : Mask), s.Executes (.pubq f 0) c f on ∧
    c.t.kind = .node 0 0 0 ∧ f.stairs = [] :=
  ⟨_, _, fm (.vec 0) (v 1), _, kit_executes (w := w0) (t := { t0 with kind := .node 0 0 0 }) (g := g0) (m := 1) (by decide), rfl, rfl⟩

/-- A grid with 17 values of item 0 published, none of them read. -/
def gHeld : Grid := { g0 with pubN := [(0, 16)], rec_ := { g0.rec_ with gx := 2 } }

theorem witness_Stairs_held : ∃ (s : State) (c : Ctx) (f : Fmt) (on : Mask), s.Executes (.pubq f 0) c f on ∧ c.t.kind = .root ∧
    s.pubWaits c 0 on = true :=
  ⟨_, _, fm (.vec 0) (v 1), _, kit_executes (w := w0) (t := t0) (g := gHeld) (m := 1) (by decide), rfl, by decide⟩

theorem witness_Stairs_fence : ∃ (s : State) (c : Ctx) (f : Fmt) (on : Mask), s.Executes (.pubq f 0) c f on ∧ c.t.kind = .root ∧
    s.pubWaits c 0 on = false ∧ c.w.releasing = true :=
  ⟨_, _, fm (.vec 0) (v 1), _, kit_executes (w := { w0 with sq := [⟨4, .fence, true, .dev, 0, 1, [], false⟩] }) (t := t0) (g := g0) (m := 1)
    (by decide), rfl, by decide, by decide⟩

/-- A grid with one published value of item 5, channel 1, and an item that has exited. -/
def gPub : Grid := { g0 with pubN := [(21, 1)], itemsExited := [6], rec_ := { g0.rec_ with gx := 2 } }

theorem witness_Stairs_landing : ∃ (s : State) (gid core item ch : Nat) (g : Grid), s.grid? gid = some g ∧
    s.stairFirst gid g core item ch = true ∧
    ((s.core core).landedAt gid item ch).1 < (tget g.pubN (chanKey item ch)).getD 0 :=
  ⟨kit w0 t0 gPub 1, 1, 32, 5, 1, gPub, rfl, by decide +kernel, by decide⟩

theorem witness_Stairs_exit : ∃ (s : State) (gid core item ch : Nat) (g : Grid), s.grid? gid = some g ∧
    s.stairFirst gid g core item ch = true ∧
    (tget g.pubN (chanKey item ch)).getD 0 ≤ ((s.core core).landedAt gid item ch).1 ∧ g.itemsExited.contains item = true ∧
    ((s.core core).landedAt gid item ch).2 = false :=
  ⟨kit w0 t0 gPub 1, 1, 32, 6, 1, gPub, rfl, by decide +kernel, by decide, by decide, by decide⟩

theorem witness_Stairs_stall : ∃ (s : State) (wid : Nat) (w : Warp) (a : W64) (since : Nat) (c : Ctx), s.warp? wid = some w ∧
    w.pubWait = [] ++ (a, since, false) :: [] ∧ since + 100000000 ≤ s.ns ∧ s.ctxOf wid w.launched = some c ∧ s.canReport = true ∧
    s.drained c = true :=
  ⟨{ kit { w0 with pubWait := [(24, 5, false)] } t0 g0 1 with ns := 100000005 }, 0, _, 24, 5, _, rfl, rfl, by decide, rfl,
    by decide, by decide⟩

theorem witness_SpecialFunctions : ∃ (s : State) (c : Ctx) (f : Fmt) (on : Mask), s.Executes (.sfu f 0 .rsq) c f on ∧
    ((s.part c.part).sfu.filter fun e => e.entered.isNone).length < 16 ∧ on ≠ 0 :=
  ⟨_, _, fm (.vec 1) (v 2), _, runs _ _ (by decide), by decide, by decide⟩

theorem witness_SpecialFunctions_off : ∃ (s : State) (c : Ctx) (f : Fmt) (on : Mask), s.Executes (.sfu f 0 .rsq) c f on ∧
    ((s.part c.part).sfu.filter fun e => e.entered.isNone).length < 16 ∧ on = 0 :=
  ⟨_, _, fm (.vec 1) (v 2) .zero .zero ⟨false, 0⟩, _, runs _ _ (by decide), by decide, by decide⟩

/-- The small machine, whose partition's queue holds special-function operations. -/
def sSfu (now : Nat) (l : List SfuEnt) (w : Warp) : State :=
  { kit w t0 g0 1 with now := now, parts := [((kc w t0 g0 1).part, { Partition.reset with sfu := l, lastEnter := some 4 })] }

theorem witness_SpecialFunctions_full : ∃ (s : State) (c : Ctx) (f : Fmt) (on : Mask), s.Executes (.sfu f 0 .rsq) c f on ∧
    16 ≤ ((s.part c.part).sfu.filter fun e => e.entered.isNone).length :=
  ⟨sSfu 9 (List.replicate 16 ⟨1, 3, true, 7, none⟩) w0, kc w0 t0 g0 1, fm (.vec 1) (v 2), _,
    ⟨by decide, ⟨_, rfl, Or.inr (by decide)⟩, rfl, Or.inl rfl, by decide⟩, by decide⟩

theorem witness_SpecialFunctions_enter : ∀ now, now = 7 ∨ now = 8 → ∃ (s : State) (p : Nat) (e : SfuEnt) (pre rest : List SfuEnt),
    s.now = now ∧ (s.part p).sfu = pre ++ e :: rest ∧ (∀ x, x ∈ pre → x.entered ≠ none) ∧ e.entered = none ∧
    (∀ x, x ∈ pre ++ rest → ¬(x.wid = e.wid ∧ x.pend = e.pend)) ∧ (s.part p).lastEnter = some 4 ∧ max e.issued (4 + 4) = 8 :=
  fun now _ => ⟨sSfu now [⟨0, 2, true, 1, some 4⟩, ⟨0, 3, true, 7, none⟩] w0, (kc w0 t0 g0 1).part, ⟨0, 3, true, 7, none⟩,
    [⟨0, 2, true, 1, some 4⟩], [], rfl, rfl, by decide, rfl, by decide, rfl, by decide⟩

/-- A warp with one special-function result to come. -/
def wSfu (d : Dst) : Warp := { w0 with pend := [{ Pend.new (.sfu 2) 0 1 d 1 0 with seq := 3, got := [(0, [0x3F800000])] }] }

theorem witness_SpecialFunctions_write : ∀ d, d = .vec 9 ∨ d = .uni 9 ∨ d = .nwb → ∃ (s : State) (p k : Nat) (e : SfuEnt) (at_ : Nat)
    (w : Warp) (q : Pend) (l : Nat) (x : W32), (s.part p).sfu[k]? = some e ∧ e.entered = some at_ ∧
    at_ + (if e.slow then 28 else 20) ≤ s.now ∧ s.warp? e.wid = some w ∧ w.pend = [q] ∧ q.seq = e.pend ∧ q.kind = .sfu 2 ∧
    q.dst = d ∧ q.got = [(l, [x])] ∧ l < 32 := fun d _ =>
  ⟨sSfu 38 [⟨0, 3, true, 7, some 10⟩] (wSfu d), (kc w0 t0 g0 1).part, 0, ⟨0, 3, true, 7, some 10⟩, 10, wSfu d, _, 0, 0x3F800000, rfl,
    rfl, Nat.le_refl 38, rfl, rfl, rfl, rfl, rfl, rfl, by decide⟩

theorem witness_SpecialFunctions_busy : ∃ (s : State) (p k : Nat) (e : SfuEnt) (at_ : Nat), (s.part p).sfu[k]? = some e ∧
    e.entered = some at_ ∧ s.now < at_ + (if e.slow then 28 else 20) :=
  ⟨sSfu 37 [⟨0, 3, true, 7, some 10⟩] w0, (kc w0 t0 g0 1).part, 0, ⟨0, 3, true, 7, some 10⟩, 10, rfl, rfl, by decide⟩

theorem witness_Networks_raw : ∃ (s : State) (c : Ctx) (f : Fmt) (on : Mask), f.d = .cls3 3 ∧ s.Executes (.setnetRaw f) c f on ∧
    f.a = .uni 59 ∧ on ≠ 0 := ⟨_, _, fm (.cls3 3) (.uni 59), _, rfl, runs _ _ (by decide), rfl, by decide⟩

theorem witness_Networks_off : ∃ (s : State) (c : Ctx) (f : Fmt) (on : Mask), f.d = .cls3 3 ∧ s.Executes (.setnetPerm f) c f on ∧
    on = 0 := ⟨_, _, fm (.cls3 3) (v 0) .zero .zero ⟨false, 0⟩, _, rfl, runs _ _ (by decide), by decide⟩

/-- A warp whose lane l names lane 31 - l in v0. -/
def wRev : Warp := { w0 with vec := (List.range 31).map fun l => (l, BitVec.ofNat 32 (31 - l)) }

theorem witness_Networks_perm : ∃ (s : State) (c : Ctx) (f : Fmt) (on : Mask), f.d = .cls3 0 ∧ s.Executes (.setnetPerm f) c f on ∧
    f.a = .vec false 0 ∧ on ≠ 0 ∧
    (∀ l k, l < 32 → k < 32 → (s.vreg c.wid 0 l).toNat % 32 = (s.vreg c.wid 0 k).toNat % 32 → l = k) ∧
    (let p := (List.range 32).map fun l => (s.vreg c.wid 0 l).toNat % 32; netOk (netWord p) p = true) :=
  ⟨_, _, fm (.cls3 0) (v 0), _, rfl, kit_executes (w := wRev) (t := t0) (g := g0) (m := 0xFFFFFFFF) (by decide), rfl, by decide,
    by
      have h : ∀ l, l < 32 → ((kit wRev t0 g0 0xFFFFFFFF).vreg 0 0 l).toNat % 32 = 31 - l := by decide
      intro l k hl hk e
      rw [show (kc wRev t0 g0 0xFFFFFFFF).wid = 0 from rfl, h l hl, h k hk] at e
      omega, by decide +kernel⟩

/-! ## Witnesses: accesses -/

/-- A grid with 64 KiB of die scratch; a uniform pair holds the window's address and one beyond it. -/
def gScr : Grid := { g0 with rec_ := { g0.rec_ with dieScratch := 65536 } }
def wScr : Warp := { w0 with uni := [(2, 0xFFC00000), (3, 0x01FFFFFF), (4, 0xFFC10000), (5, 0x01FFFFFF)] }

/-- Lane 0 of the small machine with die scratch. -/
def sScr : State := kit wScr t0 gScr 1
def cScr : Ctx := kc wScr t0 gScr 1

theorem runsScr (i : Instr) (f : Fmt) (h : kitOk i f wScr t0 gScr 1 = true) : sScr.Executes i cScr f (cScr.on f.g) :=
  kit_executes h

theorem witness_Loads_ld : ∃ (s : State) (i : Instr) (c : Ctx) (f : Fmt) (on : Mask) (off : BitVec 20) (n : Nat)
    (lanes : List Nat), s.Executes i c f on ∧ on ≠ 0 ∧ i = .ld f .w64 .glb .acq .dev off ∧ n = Size.bytes .w64 ∧
    lanes = accessLanes f.d on ∧ AllAligned lanes (fun l => (s.gaddr c f off l : Int)) n ∧
    faultsOf (reached s c f off lanes true .read fun _ => false) = [] :=
  ⟨_, _, _, fm (.vec 254) (.uni 2), _, 0xFFF8, 8, _, runsScr (.ld _ .w64 .glb .acq .dev _) _ (by decide), by decide, rfl, rfl, rfl,
    by unfold AllAligned; decide, by decide⟩

theorem witness_Loads_unaligned : ∃ (s : State) (i : Instr) (c : Ctx) (f : Fmt) (on : Mask) (off : BitVec 20) (n l : Nat),
    s.Executes i c f on ∧ on ≠ 0 ∧ i = .ld f .n16 .glb .rlx .team off ∧ n = Size.bytes .n16 ∧ accessLanes f.d on = [] ++ l :: [] ∧
    (s.gaddr c f off l : Int) % n ≠ 0 ∧ MayStop s c :=
  ⟨_, _, _, fm (.vec 1) (.uni 2), _, 1, 2, 0, runsScr (.ld _ .n16 .glb .rlx .team _) _ (by decide), by decide, rfl, rfl, by decide,
    by decide, by unfold MayStop; decide⟩

theorem witness_Loads_ldc : ∃ (s : State) (i : Instr) (c : Ctx) (f : Fmt) (on : Mask) (off : BitVec 20), s.Executes i c f on ∧
    on = 0 ∧ i = .ldc f true off ∧ f.d.isUni = true :=
  ⟨_, _, _, fm (.uni 8) (.uni 2) .zero .zero ⟨false, 0⟩, _, 0xFFF8, runsScr (.ldc _ true _) _ (by decide), by decide, rfl, rfl⟩

theorem witness_FaultingLanesPark : ∃ (s : State) (c : Ctx) (f : Fmt) (on : Mask) (off : BitVec 20),
    s.Executes (.ld f .n8 .glb .rlx .dev off) c f on ∧ f.d = .vec 1 ∧ on ≠ 0 ∧ c.noLoopEnd ∧
    AllAligned (lanesOf on) (fun l => (s.gaddr c f off l : Int)) (Size.bytes .n8) ∧
    maskOf ((faultsOf (reached s c f off (lanesOf on) true .read fun _ => false)).map (·.lane)) ≠ 0 :=
  ⟨_, _, fm (.vec 1) (.uni 4), _, 0, runsScr (.ld _ .n8 .glb .rlx .dev _) _ (by decide), rfl, by decide, noLoop _ rfl,
    by unfold AllAligned; decide, by decide⟩

theorem plain0 (w : Warp) (g : Grid) (m : Mask) (h : w.tid = 0) : Plain (kc w t0 g m) :=
  ⟨by simp [kc, h], rfl, fun l => by simp [kc, t0, placedTeam]⟩

theorem witness_Stores : ∃ (s : State) (c : Ctx) (f : Fmt) (on : Mask) (off : BitVec 20),
    s.Executes (.st f .w32 .glb .rel .sys off) c f on ∧ on ≠ 0 ∧ Plain c ∧
    AllAligned (lanesOf on) (fun l => (s.gaddr c f off l : Int)) (Size.bytes .w32) ∧
    faultsOf (reached s c f off (lanesOf on) true .write unserved) = [] :=
  ⟨_, _, fm (.vec 0) (.uni 2) (v 1), _, 0xFFFC, runsScr (.st _ .w32 .glb .rel .sys _) _ (by decide), by decide, plain0 _ _ _ rfl,
    by unfold AllAligned; decide, by decide⟩

theorem witness_Stores_unaligned : ∃ (s : State) (c : Ctx) (f : Fmt) (on : Mask) (off : BitVec 20) (l : Nat),
    s.Executes (.st f .w32 .glb .rlx .team off) c f on ∧ on ≠ 0 ∧ lanesOf on = [] ++ l :: [] ∧
    (s.gaddr c f off l : Int) % Size.bytes .w32 ≠ 0 ∧ MayStop s c :=
  ⟨_, _, fm (.vec 0) (.uni 2) (v 1), _, 2, 0, runsScr (.st _ .w32 .glb .rlx .team _) _ (by decide), by decide,
    by decide, by decide, by unfold MayStop; decide⟩

theorem witness_SpillAccesses : ∃ (s : State) (c : Ctx) (f f' : Fmt) (on : Mask) (off : BitVec 20),
    s.Executes (.fil f off) c f on ∧ s.Executes (.st f' .w32 .spl .rlx .team off) c f' on ∧ on ≠ 0 ∧
    ∀ l, l ∈ lanesOf on → 0 ≤ s.soff c f off l ∧ s.soff c f off l < c.g.rec_.spillBytes ∧ s.soff c f off l % 4 = 0 ∧
      s.lineBad (Loc.line ⟨.spill, spillKey c.wid l (s.soff c f off l).toNat⟩) = false :=
  ⟨_, _, fm (.vec 1) (v 2), fm (.vec 0) (v 2) (v 3), _, 0xFFFC, runs _ _ (by decide), runs _ _ (by decide), by decide, by decide⟩

/-- A warp whose first spill offsets lie past the area. -/
def wFar : Warp := { w0 with vec := [(64, 0x10000)] }

theorem witness_SpillAccesses_park : ∃ (s : State) (c : Ctx) (f : Fmt) (on : Mask), s.Executes (.spl f 0) c f on ∧ on ≠ 0 ∧
    AllAligned (lanesOf on) (fun l => s.soff c f 0 l) 4 ∧ c.noLoopEnd ∧
    ∀ l, l ∈ lanesOf on → ¬(0 ≤ s.soff c f 0 l ∧ s.soff c f 0 l < c.g.rec_.spillBytes) :=
  ⟨_, _, fm (.vec 0) (v 2) (v 3), _, kit_executes (w := wFar) (t := t0) (g := g0) (m := 1) (by decide), by decide,
    by unfold AllAligned; decide, noLoop _ rfl, by decide⟩

theorem witness_SpillAccesses_unaligned : ∃ (s : State) (c : Ctx) (f : Fmt) (on : Mask) (l : Nat), s.Executes (.fil f 2) c f on ∧
    on ≠ 0 ∧ accessLanes f.d on = [] ++ l :: [] ∧ s.soff c f 2 l % 4 ≠ 0 ∧ MayStop s c :=
  ⟨_, _, fm (.vec 1) (v 2), _, 0, kit_executes (w := w0) (t := t0) (g := g0) (m := 1) (by decide), by decide, by decide, by decide,
    by unfold MayStop; decide⟩

theorem witness_SpillAccesses_byte : ∃ (s : State) (w : Warp) (l o : Nat), s.warp? 0 = some w ∧ l < 32 ∧ o < 65536 :=
  ⟨s0, w0, 31, 65535, rfl, by decide, by decide⟩

theorem witness_Gallery : ∃ (s : State) (c : Ctx) (f f' : Fmt) (on : Mask) (off : BitVec 20), on ≠ 0 ∧
    s.Executes (.ldg f true .e8 off) c f on ∧ s.Executes (.stg f' true .e8 off) c f' on ∧ lanesOf on = [0] ∧
    0 ≤ s.soff c f off 0 ∧ s.soff c f off 0 % 4 = 0 ∧
    ∀ x, x ∈ galElems true (Elem.bits .e8) (s.soff c f off 0).toNat → x.1 + 4 ≤ c.g.rec_.gallery :=
  ⟨_, _, fm (.vec 1) (v 2), fm (.vec 0) (v 2) (v 3), _, 0x8000, by decide, runsScr _ _ (by decide), runsScr _ _ (by decide),
    by decide, by decide, by decide, by decide⟩

theorem witness_Gallery_unaligned : ∃ (s : State) (c : Ctx) (f : Fmt) (on : Mask) (l : Nat),
    s.Executes (.stg f false .e32 3) c f on ∧ lanesOf on = [] ++ l :: [] ∧ s.soff c f 3 l % 4 ≠ 0 ∧ MayStop s c :=
  ⟨_, _, fm (.vec 0) (v 2) (v 3), _, 0, runsScr _ _ (by decide), by decide, by decide, by unfold MayStop; decide⟩

/-- A lane's offset is the end of the gallery, of the hall, or the first byte of the hall. -/
def wOff : Warp := { w0 with vec := [(64, 0x50000), (96, 0x600000)] }

theorem witness_Gallery_range : ∃ (s : State) (c : Ctx) (f : Fmt) (on : Mask) (l : Nat), s.Executes (.ldg f false .e32 0) c f on ∧
    accessLanes f.d on = [] ++ l :: [] ∧ AllAligned [l] (fun l => s.soff c f 0 l) 4 ∧
    ¬(∀ x, x ∈ galElems false (Elem.bits .e32) (s.soff c f 0 l).toNat → x.1 + 4 ≤ c.g.rec_.gallery) ∧ MayStop s c :=
  ⟨_, _, fm (.vec 1) (v 2), _, 0, kit_executes (w := wOff) (t := t0) (g := g0) (m := 1) (by decide), by decide,
    by unfold AllAligned; decide, by decide, by unfold MayStop; decide⟩

/-- A team that holds hall 3. -/
def tHall : Team := { t0 with hall := some 3 }

theorem witness_Hall : ∃ (s : State) (c : Ctx) (f f' : Fmt) (on : Mask) (off : BitVec 20), on ≠ 0 ∧ c.t.hall.isSome = true ∧
    s.Executes (.ldh f .w64 off) c f on ∧ s.Executes (.sth f' .w64 off) c f' on ∧ lanesOf on = [0] ∧
    0x14000 ≤ s.soff c f off 0 ∧ s.soff c f off 0 < 0x600000 ∧ s.soff c f off 0 % 8 = 0 :=
  ⟨_, _, fm (.vec 2) (v 2), fm (.vec 0) (v 2) (v 4), _, 0x14000, by decide, rfl,
    kit_executes (w := w0) (t := tHall) (g := g0) (m := 1) (by decide),
    kit_executes (w := w0) (t := tHall) (g := g0) (m := 1) (by decide), by decide, by decide, by decide, by decide⟩

theorem witness_Hall_stops : ∃ (s : State) (c : Ctx) (f f' : Fmt) (on : Mask) (l : Nat), c.t.hall.isSome = true ∧
    s.Executes (.ldh f .n8 0) c f on ∧ accessLanes f.d on = [] ++ l :: [] ∧ ¬s.soff c f 0 l < 0x600000 ∧
    s.Executes (.sth f' .w64 4) c f' on ∧ lanesOf on = [] ++ l :: [] ∧ s.soff c f' 4 l % 8 ≠ 0 ∧
    s.Executes (.sth f' .w64 8) c f' on ∧ s.soff c f' 8 l % 8 = 0 ∧ 0 ≤ s.soff c f' 8 l ∧ ¬0x14000 ≤ s.soff c f' 8 l ∧
    MayStop s c :=
  ⟨_, _, fm (.vec 2) (v 3), fm (.vec 0) (v 9) (v 4), _, 0, rfl,
    kit_executes (w := wOff) (t := tHall) (g := g0) (m := 1) (by decide), by decide, by decide,
    kit_executes (w := wOff) (t := tHall) (g := g0) (m := 1) (by decide), by decide, by decide,
    kit_executes (w := wOff) (t := tHall) (g := g0) (m := 1) (by decide), by decide, by decide, by decide, by unfold MayStop; decide⟩

theorem witness_Hall_none : ∃ (s : State) (c : Ctx) (f : Fmt) (on : Mask), on ≠ 0 ∧ s.Executes (.sth f .n8 0x14000) c f on ∧
    c.t.hall = none ∧ MayStop s c :=
  ⟨_, _, fm (.vec 0) (v 2) (v 4), _, by decide, runs _ _ (by decide), rfl, by unfold MayStop; decide⟩

/-- What the statement asks of an access at issue. -/
def IssuesAt (s : State) (i : Instr) (c : Ctx) (f : Fmt) (on : Mask) (off : BitVec 20) (n : Nat) (acc : Acc) : Prop :=
  s.Executes i c f on ∧ on ≠ 0 ∧ Plain c ∧ AllAligned (lanesOf on) (fun l => (s.gaddr c f off l : Int)) n ∧
    faultsOf ((reached s c f off (lanesOf on) true acc unserved).map fun x => (x.1, x.2.1, noPcie x.2.2)) = []

theorem witness_Atomics_atom : ∃ s i c f on off, IssuesAt s i c f on off 8 .write ∧ i = .atom f .inc .n64 .ar .sys off :=
  ⟨_, _, _, fm (.vec 254) (.uni 2) (v 0), _, 0xFFF8, ⟨runsScr (.atom _ .inc .n64 .ar .sys _) _ (by decide), by decide,
    plain0 _ _ _ rfl, by unfold AllAligned; decide, by decide⟩, rfl⟩

theorem witness_Atomics_cas : ∃ s i c f on off, IssuesAt s i c f on off 4 .write ∧ i = .cas f false .acq .dev off :=
  ⟨_, _, _, fm (.vec 255) (.uni 2) (v 0) (v 1), _, 0xFFFC, ⟨runsScr (.cas _ false .acq .dev _) _ (by decide), by decide,
    plain0 _ _ _ rfl, by unfold AllAligned; decide, by decide⟩, rfl⟩

theorem witness_Atomics_red : ∃ s i c f on off, IssuesAt s i c f on off 4 .write ∧ i = .red f .max .f32 true .clu off :=
  ⟨_, _, _, fm (.vec 0) (.uni 2) (v 0), _, 0, ⟨runsScr (.red _ .max .f32 true .clu _) _ (by decide), by decide,
    plain0 _ _ _ rfl, by unfold AllAligned; decide, by decide⟩, rfl⟩

theorem witness_Atomics_ldx : ∃ s i c f on off, IssuesAt s i c f on off 128 .read ∧ i = .ldx f .team off :=
  ⟨_, _, _, fm (.vec 252) (.uni 2) (v 0), _, 0xFF80, ⟨runsScr (.ldx _ .team _) _ (by decide), by decide, plain0 _ _ _ rfl,
    by unfold AllAligned; decide, by decide⟩, rfl⟩

theorem witness_Atomics_atomo : ∃ s i c f on off, IssuesAt s i c f on off 4 .write ∧ i = .atomo f .add .s32 .dev off ∧
    c.t.kind = .root ∧ on &&& c.w.parked = 0 ∧ on &&& c.w.stopped = 0 :=
  ⟨_, _, _, fm .nwb (.uni 2) (v 0), _, 4, ⟨runsScr (.atomo _ .add .s32 .dev _) _ (by decide), by decide, plain0 _ _ _ rfl,
    by unfold AllAligned; decide, by decide⟩, rfl, rfl, by decide, by decide⟩

/-- A node team. -/
def tNode : Team := { t0 with kind := .node 0 0 0 }

theorem witness_Atomics_node : ∃ s i c f on off, IssuesAt s i c f on off 4 .write ∧ i = .atomo f .add .s32 .dev off ∧
    c.t.kind = .node 0 0 0 :=
  ⟨_, _, _, fm .nwb (.uni 2) (v 0), _, 4, ⟨kit_executes (i := .atomo _ .add .s32 .dev _) (w := wScr) (t := tNode) (g := gScr) (m := 1)
    (by decide), by decide, ⟨rfl, rfl, fun l => by simp [kc, tNode]⟩, by unfold AllAligned; decide, by decide⟩, rfl, rfl⟩

theorem witness_Atomics_stops : ∃ (s : State) (i i' : Instr) (c : Ctx) (f f' : Fmt) (on on' : Mask) (l : Nat), s.Executes i c f on ∧
    i = .red f .max .f32 true .clu 2 ∧ on ≠ 0 ∧ lanesOf on = [] ++ l :: [] ∧ (s.gaddr c f 2 l : Int) % 4 ≠ 0 ∧ MayStop s c ∧
    s.Executes i' c f' on' ∧ i' = .red f' .max .f32 true .clu 2 ∧ on' = 0 :=
  ⟨_, _, _, _, fm (.vec 0) (.uni 2) (v 0), fm (.vec 0) (.uni 2) (v 0) .zero ⟨false, 0⟩, _, _, 0,
    runsScr (.red _ .max .f32 true .clu _) _ (by decide), rfl, by decide, by decide, by decide, by unfold MayStop; decide,
    runsScr (.red _ .max .f32 true .clu _) _ (by decide), rfl, by decide⟩

theorem witness_Fences : ∃ (s : State) (c : Ctx) (f : Fmt) (on : Mask), on ≠ 0 ∧ Plain c ∧ s.Executes (.fence f .ar .sys) c f on ∧
    s.Executes (.fencex f .dev 1 5) c f on ∧ s.Executes (.fencex f .dev 3 0) c f on ∧ s.Executes (.probe f 0x7F) c f on ∧
    c.w.probe = [] ∧ c.w.sq = [] :=
  ⟨_, _, fm (.vec 0), _, by decide, plain0 w0 g0 0xFFFFFFFF rfl, runs _ _ (by decide), runs _ _ (by decide), runs _ _ (by decide),
    runs _ _ (by decide), rfl, rfl⟩

theorem witness_Fences_prf : ∃ (s : State) (c : Ctx) (f : Fmt) (on : Mask), s.Executes (.prf f true 0x80000) c f on :=
  ⟨_, _, fm (.vec 0) (.uni 2), _, runs _ _ (by decide)⟩

/-- Warps with a probe sent at the small machine's address: a warp that waits for it, one for which it has returned, and one whose store
queue holds its probe back. -/
def wProbe (l : List (Nat × Nat)) : Warp := { w0 with probe := [⟨BitVec.ofNat 64 pc0, l, 9⟩] }
def wNoProbe : Warp := { w0 with sq := [⟨4, .fence, true, .dev, 0, 1, [], false⟩] }

theorem witness_Fences_probe : ∀ l, l = [] ∨ l = [(6, 12)] → ∃ (s : State) (c : Ctx) (f : Fmt) (on : Mask) (p : ProbeWait), on ≠ 0 ∧
    Plain c ∧ s.Executes (.probe f 1) c f on ∧ c.w.probe = [] ++ p :: [] ∧ p.pc = c.pc ∧ p.left = l := by
  intro l h
  rcases h with rfl | rfl <;>
    exact ⟨_, _, fm (.vec 0), _, ⟨BitVec.ofNat 64 pc0, _, 9⟩, by decide, plain0 _ _ _ rfl,
      kit_executes (w := wProbe _) (t := t0) (g := g0) (m := 1) (by decide), rfl, by decide, rfl⟩

theorem witness_Fences_probe_waits : ∃ (s : State) (c : Ctx) (f : Fmt) (on : Mask), on ≠ 0 ∧ Plain c ∧
    s.Executes (.probe f 1) c f on ∧ c.w.probe = [] ∧ c.w.sq ≠ [] :=
  ⟨_, _, fm (.vec 0), _, by decide, plain0 _ _ _ rfl, kit_executes (w := wNoProbe) (t := t0) (g := g0) (m := 1) (by decide), rfl,
    by decide⟩

theorem witness_Fences_return : ∃ (s : State) (c : Ctx) (p : ProbeWait), s.warp? c.wid = some c.w ∧
    s.team? (c.wid / 32) = some c.t ∧ c.w.probe = [] ++ p :: [] ∧ (6, 12) ∈ p.left ∧
    s.channelBusy (socketOf c.t.core) 6 12 p.mark = false :=
  ⟨kit (wProbe [(6, 12)]) t0 g0 1, kc (wProbe [(6, 12)]) t0 g0 1, _, rfl, rfl, rfl, by decide, by decide⟩

/-! ## Witnesses: requests, queues and lines -/

/-- Core 32 with requests in flight and L1 lines. -/
def sCore (k : Core) (w : Warp) : State := { kit w t0 g0 1 with cores := [(32, k)] }

def reqOf (op : ReqOp) : Req := ⟨7, 0, .mem, 3, op, true, 0, 1, 0, false, false, false, false⟩

def kReq (op : ReqOp) : Core := { Core.reset with inflight := [reqOf op] }

/-- A warp that waits for the reply of its pending result 4. -/
def wReply : Warp := { w0 with pend := [{ Pend.new (.reply [0]) 0 1 (.vec 9) 2 0 with seq := 4 }], unack := 1 }

theorem witness_Fences_return_waits : ∃ (s : State) (c : Ctx) (p : ProbeWait), s.warp? c.wid = some c.w ∧
    s.team? (c.wid / 32) = some c.t ∧ c.w.probe = [] ++ p :: [] ∧ (0, 7) ∈ p.left ∧
    s.channelBusy (socketOf c.t.core) 0 7 p.mark = true :=
  ⟨sCore (kReq (.write [(384, 1)])) (wProbe [(0, 7)]), kc (wProbe [(0, 7)]) t0 g0 1, _, rfl, rfl, rfl, by decide, by decide⟩

theorem witness_Requests : ∀ op, op = .write [(384, 1), (384, 2)] ∨ op = .atom .add .n64 [(0, 384, 5), (0, 384, 6)] (some 4) ∨
    op = .cas true [(0, 504, 0, 9)] 4 ∨ op = .ldx [(0, 0xFF)] 4 →
    ∃ (s : State) (core : Nat) (r : Req), s.firstReq core r.id = some r ∧ r.sp = .mem ∧
      (∀ k, k ∈ s.holders r.line → k = core) ∧ r.op = op := by
  intro op h
  exact ⟨sCore (kReq op) wReply, 32, reqOf op, by rcases h with rfl | rfl | rfl | rfl <;> decide, rfl,
    by rcases h with rfl | rfl | rfl | rfl <;> decide, rfl⟩

theorem witness_Requests_last : ∃ (s : State) (core : Nat) (r : Req) (w : Warp) (pre : List (Nat × Nat × W64))
    (o : Nat × Nat × W64) (post : List (Nat × Nat × W64)), s.firstReq core r.id = some r ∧
    r.op = .atom .add .n64 (pre ++ o :: post) (some 4) ∧ s.warp? r.wid = some w ∧ ∀ x, x ∈ post → x.1 ≠ o.1 :=
  ⟨sCore (kReq (.atom .add .n64 [(0, 384, 5), (0, 384, 6)] (some 4))) wReply, 32, reqOf _, _, [(0, 384, 5)], (0, 384, 6), [],
    by decide, rfl, rfl, by decide⟩

theorem witness_Requests_waits : ∃ (s : State) (core req : Nat), s.firstReq core req = none := ⟨s0, 32, 7, by decide⟩

theorem witness_Requests_ordered : ∀ item turn, (item = 0 ∧ turn = true) ∨ (item = 1 ∧ turn = false) →
    ∃ (s : State) (gid core : Nat) (g : Grid) (r : Req) (ord lane : Nat) (tm : Team) (w : Warp)
    (k : Core), s.grid? gid = some g ∧ s.cores = [(core, k)] ∧ k.inflight = [r] ∧
    r.op = .ordered item ord lane .min .s32 400 4 1 ∧ r.sp = .mem ∧ s.firstReq core r.id = some r ∧ s.team? (r.wid / 32) = some tm ∧
    tm.gid = gid ∧ s.warp? r.wid = some w ∧ lane < 32 ∧ ord = min ((tget g.atomoDone item).getD 0 + 1) 0xFFFFFFFF ∧
    (∀ x, x ∈ s.holders r.line → x = core) ∧ g.atomoTurn ord item = turn := by
  intro item turn h
  rcases h with ⟨rfl, rfl⟩ | ⟨rfl, rfl⟩ <;>
    exact ⟨sCore (kReq (.ordered _ 1 31 .min .s32 400 4 1)) wReply, 1, 32, g0, reqOf _, 1, 31, t0, _, _, rfl, rfl, rfl, rfl, rfl,
      by decide, rfl, rfl, rfl, by decide, by decide, by decide, by decide⟩

/-- A warp whose first store-queue entry stores at the end of line 3. -/
def wStore : Warp :=
  { w0 with sq := [⟨2, .store [(⟨31, ⟨.mem, 508⟩⟩, [1, 2, 3, 4])], false, .team, 0, 0x80000000, [], false⟩], unack := 62 }

theorem witness_StoresDepart : ∃ (s : State) (wid : Nat) (w : Warp) (tm : Team) (e : SqEnt) (l : List (LaneLoc × List Byte)),
    s.warp? wid = some w ∧ s.team? (wid / 32) = some tm ∧ w.sq = [e] ∧ w.pend = [] ∧ tm.active = false ∧ e.kind = .store l ∧
    (∀ x, x ∈ l → x.1.loc.sp = .mem) ∧ e.release = false ∧ l ≠ [] ∧
    (∀ x, x ∈ l → (s.core tm.core).isUpd x.1.loc.line = false ∧ (s.core tm.core).unackedDrain x.1.loc.line = false) ∧
    w.unack + (reqLines (l.map (·.1.loc))).length ≤ 63 ∧ (s.core tm.core).room (storeLines l) = true :=
  ⟨kit wStore t0 g0 1, 0, _, t0, _, _, rfl, rfl, rfl, rfl, rfl, rfl, by decide, rfl, by decide, by decide, by decide, by decide⟩

theorem witness_StoresDepart_waits : ∃ (s : State) (wid : Nat) (w : Warp) (tm : Team) (e : SqEnt), s.warp? wid = some w ∧
    s.team? (wid / 32) = some tm ∧ w.sq = [e] ∧ (w.pend.any fun p => p.seq < e.seq && p.kind.holdsStores) = true :=
  ⟨kit { wStore with pend := [Pend.new (.load [⟨31, ⟨.mem, 0⟩⟩] 8 true false) 0 0x80000000 (.vec 2) 2 0] } t0 g0 1, 0, _, t0, _, rfl,
    rfl, rfl, by decide⟩

/-- A core that holds the last two words of line 3, and a warp that loads them. -/
def sLoad : State :=
  sCore { Core.reset with l1 := [(3, ⟨0xC0000000, [], none⟩)] }
    { w0 with pend := [Pend.new (.load [⟨31, ⟨.mem, 504⟩⟩] 8 true false) 0 0x80000000 (.vec 2) 2 0] }

theorem witness_LoadsReturn : ∃ (s : State) (wid : Nat) (w : Warp) (tm : Team) (p : Pend) (l : List LaneLoc) (n : Nat)
    (d : BitVec 8), s.warp? wid = some w ∧ s.team? (wid / 32) = some tm ∧
    (w.pend.filter fun q => (s.tryPend wid tm.core w q).isSome) = [p] ∧ w.sq = [] ∧ w.pend = [p] ∧
    (s.core tm.core).inflight = [] ∧ s.heldByAtomo wid tm.core (s.neededWords (wid / 32) p.kind.reads) = false ∧
    p.kind = .load l n true false ∧ l ≠ [] ∧
    p.dst = .vec d ∧ p.got = [] ∧ p.returned = false ∧ p.fromTarget = false ∧ p.acquire = false ∧ (l.map (·.lane)).Nodup ∧ n = 8 ∧
    ∀ x, x ∈ l → x.lane < 32 ∧ x.loc.sp = .mem ∧ x.loc.a % n = 0 ∧ (s.core tm.core).unackedDrain x.loc.line = false ∧
      (s.core tm.core).wordValid x.loc.line x.loc.word = true ∧ (s.core tm.core).wordValid x.loc.line (x.loc.word + 1) = true :=
  ⟨sLoad, 0, _, t0, _, _, 8, 2, rfl, rfl, by decide, rfl, rfl, rfl, by decide, rfl, by decide, rfl, rfl, rfl, rfl, rfl, by decide, rfl,
    by decide⟩

/-- A request for line 3 by a core that holds one word of it. -/
def fillReq : Req := { reqOf .fill with acks := false }
def kFill : Core := { Core.reset with inflight := [fillReq], l1 := [(3, ⟨2, [(1, 7)], none⟩)] }

theorem witness_Lines_fill : ∃ (s : State) (core line : Nat) (r : Req),
    (s.core core).inflight.find? (fun r => r.op == .fill && r.line == line) = some r ∧ s.firstReq core r.id = some r ∧
    (s.core core).isUpd line = false ∧ (s.core core).room [line] = true ∧ s.holders line = [] ∧
    (s.core core).fills line 0 = true ∧ (s.core core).fills line 1 = false ∧ (s.core core).wordValid line 1 = true :=
  ⟨sCore { kFill with inflight := [fillReq, { reqOf (.write [(388, 1)]) with id := 8 }] } w0, 32, 3,
    fillReq, by decide, by decide, by decide, by decide, by decide, by decide, by decide, by decide⟩

theorem witness_Lines_fill_upd : ∃ (s : State) (core line : Nat) (r : Req),
    (s.core core).inflight.find? (fun r => r.op == .fill && r.line == line) = some r ∧ s.firstReq core r.id = some r ∧
    (s.core core).isUpd line = true :=
  ⟨sCore { kFill with l1 := [(3, ⟨1, [], some (.add, .n32, 1)⟩)] } w0, 32, 3, fillReq, by decide, by decide, by decide⟩

theorem witness_Lines_fill_waits : ∃ (s : State) (core line : Nat) (r : Req),
    (s.core core).inflight.find? (fun r => r.op == .fill && r.line == line) = some r ∧ s.firstReq core r.id = none :=
  ⟨sCore { kFill with inflight := [{ fillReq with returned := true }] } w0, 32, 3, { fillReq with returned := true }, by decide,
    by decide⟩

/-- A core whose L1 is full. -/
def kFull : Core := { Core.reset with inflight := [fillReq], l1 := (List.range 1536).map fun i => (i + 4, ⟨1, [], none⟩) }

theorem witness_Lines_fill_full : ∃ (s : State) (core line : Nat) (r : Req),
    (s.core core).inflight.find? (fun r => r.op == .fill && r.line == line) = some r ∧ s.firstReq core r.id = some r ∧
    (s.core core).isUpd line = false ∧ (s.core core).room [line] = false :=
  ⟨sCore kFull w0, 32, 3, fillReq, by decide, by decide +kernel, by decide +kernel, by decide +kernel⟩

theorem witness_Lines_evict : ∃ (s : State) (core line : Nat) (x : L1Line), tget (s.core core).l1 line = some x ∧ x.upd = none ∧
    ∀ j, j < 32 → (s.core core).unackedWord line j = false := ⟨sCore kFill w0, 32, 3, _, rfl, rfl, by decide⟩

theorem witness_Lines_evict_waits : ∃ (s : State) (core line : Nat) (x : L1Line), tget (s.core core).l1 line = some x ∧
    x.upd = none ∧ ∃ j, j < 32 ∧ (s.core core).unackedWord line j = true :=
  ⟨sCore { kFill with inflight := [reqOf (.write [(384, 1)])] } w0, 32, 3, _, rfl, rfl, 0, by decide, by decide⟩

/-- A core whose line 3 is update-only. -/
def kUpd : Core := { Core.reset with l1 := [(3, ⟨1, [(0, 7)], some (.add, .s32, 1)⟩)], updOrder := [3] }

/-- That core, and another that waits for the line. -/
def sUpd : State := { kit w0 t0 g0 1 with cores := [(32, kUpd), (64, { Core.reset with inflight := [fillReq] })] }

theorem witness_Lines_upd : ∃ (s : State) (core line : Nat) (x : L1Line) (op : AOp) (ty : AType) (m : Mask) (other : Nat) (r : Req),
    s.holders line = [core] ∧ tget (s.core core).l1 line = some x ∧ x.upd = some (op, ty, m) ∧ core ≠ other ∧
    (other, s.core other) ∈ s.cores ∧ r ∈ (s.core other).inflight ∧ r.sp = .mem ∧ r.line = line ∧ tsorted s.cores = true :=
  ⟨sUpd, 32, 3, _, .add, .s32, 1, 64, fillReq, by decide, rfl, rfl, by decide, by decide, by decide, rfl, rfl, by decide⟩

theorem quiet (s : State) (h : s.cores = []) : Quiet s := fun l => by simp [State.holders, h]

theorem witness_Blocks : ∃ (s : State) (gid _core _block : Nat) (g : Grid), s.grid? gid = some g ∧ Quiet s ∧
    g.startMoment ≤ s.moment := ⟨s0, 1, 32, 0x300000, g0, rfl, quiet _ rfl, by decide⟩

/-! ## Witnesses: copies, tags, tasks and buckets -/

/-- A grid with the die mask 1, 2; a warp whose uniform registers hold copy arguments: u2 a gallery offset 16 bytes below the
end, u4 a length of 16, u6 an address, u8 a pitch of 0. -/
def gCpy : Grid := { g0 with mask := [1, 2] }
def wCpy : Warp := { w0 with uni := [(2, 0x4FFF0), (4, 16), (6, 0xFFFFFFFC), (7, 1)] }

theorem runsCpy (i : Instr) (f : Fmt) (h : kitOk i f wCpy t0 gCpy 1 = true) :
    (kit wCpy t0 gCpy 1).Executes i (kc wCpy t0 gCpy 1) f ((kc wCpy t0 gCpy 1).on f.g) := kit_executes h

theorem witness_CopiesIssued_cpy : ∃ (s : State) (c : Ctx) (f : Fmt) (on : Mask) (tag : BitVec 6) (dir : CpyDir), on ≠ 0 ∧ Plain c ∧
    c.t.tagCount tag.toNat ≠ 63 ∧ c.w.fenced 1 = false ∧ s.Executes (.cpy f dir tag) c f on ∧ dir = .gl2gal ∧
    s.uni c on f.c false ≠ 0 ∧ c.copyCheck [s.uni c on f.c false, s.uni c on f.a false, s.uni c on f.b true] none
      (some (s.uni c on f.a false, s.uni c on f.c false)) none false = none :=
  ⟨_, _, fm (.vec 0) (.uni 2) (.uni 6) (.uni 4), _, 63, .gl2gal, by decide, plain0 wCpy gCpy 1 rfl, by decide, by decide,
    runsCpy _ _ (by decide), rfl, by decide, by decide⟩

theorem witness_CopiesIssued_waits : ∃ (s : State) (c : Ctx) (f : Fmt) (on : Mask) (tag : BitVec 6) (dir : CpyDir), on ≠ 0 ∧
    c.t.tagCount tag.toNat = 63 ∧ s.Executes (.cpy f dir tag) c f on ∧ dir = .gl2gal ∧
    s.uni c on f.c false ≠ 0 ∧ c.copyCheck [s.uni c on f.c false, s.uni c on f.a false, s.uni c on f.b true] none
      (some (s.uni c on f.a false, s.uni c on f.c false)) none false = none :=
  ⟨_, _, fm (.vec 0) (.uni 2) (.uni 6) (.uni 4), _, 63, .gl2gal, by decide, by decide,
    kit_executes (w := wCpy) (t := { t0 with tagCnt := [(63, 63)] }) (g := gCpy) (m := 1) (by decide), rfl, by decide, by decide⟩

/-- A range that ends past the gallery. -/
theorem witness_CopiesIssued_stop : ∃ (s : State) (c : Ctx) (f : Fmt) (on : Mask) (tag : BitVec 6) (dir : CpyDir) (x : Nat),
    on ≠ 0 ∧ s.Executes (.cpy f dir tag) c f on ∧ dir = .gl2gal ∧ MayStop s c ∧
    c.copyCheck [s.uni c on f.c false, s.uni c on f.a false, s.uni c on f.b true] none
      (some (s.uni c on f.a false, s.uni c on f.c false)) none false = some (.galRange, x) :=
  ⟨_, _, fm (.vec 0) (.uni 2) (.uni 6) (.uni 2), _, 63, .gl2gal, 0x4FFF0, by decide, runsCpy _ _ (by decide), rfl,
    by unfold MayStop; decide, by decide⟩

theorem witness_CopiesIssued_off : ∃ (s : State) (c : Ctx) (f : Fmt) (on : Mask) (tag : BitVec 6) (dir : CpyDir), on = 0 ∧
    s.Executes (.cpy f dir tag) c f on ∧ c.noLoopEnd :=
  ⟨_, _, fm (.vec 0) (.uni 2) (.uni 6) (.uni 2) ⟨false, 0⟩, 0, 63, .gl2gal, rfl,
    kit_executes (w := wCpy) (t := t0) (g := gCpy) (m := 1) (by decide), noLoop _ rfl⟩

theorem witness_CopiesIssued_square : ∃ (s : State) (c : Ctx) (f : Fmt) (on : Mask) (tag : BitVec 6) (col : Bool) (e : Elem)
    (rows : BitVec 8), on ≠ 0 ∧ Plain c ∧ c.t.tagCount tag.toNat ≠ 63 ∧ c.w.fenced 1 = false ∧
    s.Executes (.cpyt f col e rows tag) c f on ∧ col = true ∧ rows = 128 ∧ (s.uni c on f.a true) % 4 = 0 ∧
    (s.uni c on f.c false) % 4 = 0 ∧ (s.uni c on f.b false) % (4096 * (32 / Elem.bits e)) = 0 ∧
    rows.toNat = 32 * (32 / Elem.bits e) ∧ (s.uni c on f.b false) + 4096 * (32 / Elem.bits e) ≤ c.g.rec_.gallery :=
  ⟨_, _, fm (.vec 0) (.uni 6) (.uni 0) (.uni 4), _, 0, true, .e8, 128, by decide, plain0 wCpy gCpy 1 rfl, by decide, by decide,
    runsCpy _ _ (by decide), rfl, rfl, by decide, by decide, by decide, by decide, by decide⟩

theorem witness_CopiesIssued_die : ∃ (s : State) (c : Ctx) (f : Fmt) (on : Mask) (tag : BitVec 6) (d : BitVec 6), on ≠ 0 ∧ Plain c ∧
    c.t.tagCount tag.toNat ≠ 63 ∧ c.w.fenced 1 = false ∧ s.Executes (.cpyxDie f d tag) c f on ∧ d.toNat + 1 = c.g.mask.length ∧
    s.uni c on f.c false ≠ 0 ∧ ∀ x, x ∈ [f.a, f.b, f.c] → (s.uni c on x false) % 4 = 0 :=
  ⟨_, _, fm (.vec 0) (.uni 0) (.uni 2) (.uni 4), _, 1, 1, by decide, plain0 wCpy gCpy 1 rfl, by decide, by decide,
    runsCpy _ _ (by decide), rfl, by decide, by decide⟩

/-- The machine with one port in service. -/
def sPeer : State := { kit wCpy t0 gCpy 1 with mg := { Mg.reset with peerMask := 8 } }

theorem witness_CopiesIssued_peer : ∃ (s : State) (c : Ctx) (f : Fmt) (on : Mask) (tag : BitVec 6) (port : BitVec 2), on ≠ 0 ∧
    Plain c ∧ c.t.tagCount tag.toNat ≠ 63 ∧ c.w.fenced 1 = false ∧ s.Executes (.cpyxPeer f port tag) c f on ∧
    s.mg.peerMask ≠ 0 ∧ s.uni c on f.c false ≠ 0 ∧ (s.uni c on f.c false) % 4 = 0 ∧ (s.uni c on f.a true) % 4 = 0 ∧
    (s.uni c on f.b true) % 4 = 0 :=
  ⟨sPeer, kc wCpy t0 gCpy 1, fm (.vec 0) (.uni 6) (.uni 0) (.uni 4), 1, 1, 3, by decide, plain0 wCpy gCpy 1 rfl, by decide, by decide,
    ⟨by decide, ⟨_, rfl, Or.inr (by decide)⟩, by decide, Or.inl rfl, by decide⟩, by decide, by decide, by decide, by decide,
    by decide⟩

theorem witness_CopiesIssued_none : ∃ (s : State) (c : Ctx) (f : Fmt) (on : Mask) (tag : BitVec 6) (port : BitVec 2), on ≠ 0 ∧
    s.Executes (.cpyxPeer f port tag) c f on ∧ s.mg.peerMask = 0 ∧ MayStop s c :=
  ⟨_, _, fm (.vec 0) (.uni 6) (.uni 0) (.uni 4), _, 1, 0, by decide, runsCpy _ _ (by decide), rfl, by unfold MayStop; decide⟩

theorem witness_CopiesIssued_peerOff : ∃ (s : State) (c : Ctx) (f : Fmt) (on : Mask) (tag : BitVec 6) (port : BitVec 2), on = 0 ∧
    s.Executes (.cpyxPeer f port tag) c f on ∧ s.mg.peerMask = 0 ∧ c.noLoopEnd :=
  ⟨_, _, fm (.vec 0) (.uni 6) (.uni 0) (.uni 4) ⟨false, 0⟩, 0, 1, 0, rfl,
    kit_executes (w := wCpy) (t := t0) (g := gCpy) (m := 1) (by decide), rfl, noLoop _ rfl⟩

theorem witness_CopiesAndTags_checks : ∃ (c : Ctx) (args : List Nat) (a n : Nat), (∀ y, y ∈ args → y % 4 = 0) ∧
    0x600000 = a + n ∧ c.t.hall.isSome = true ∧ n ≠ 0 ∧ 0x14000 = a ∧ c.copyCheck args none none (some (a, n)) true = none :=
  ⟨kc w0 tHall g0 1, [0, 4], 0x14000, 0x5EC000, by decide, rfl, rfl, by decide, rfl, by decide⟩

/-! ### One page of memory -/

/-- Page tables of address space 0: the page of virtual addresses from 0x2000000 on is page 0 of memory. -/
def cellsPage : List Host.Cell :=
  [(0x10000, 1), (0x10002, 2), (0x20000, 1), (0x20002, 2), (0x20008, 0x3B)]

/-- A machine with one memory die and those tables; `low` is what page 0 holds. -/
def onPage (s : State) (low : List Host.Cell) : State :=
  { s with mem := low ++ cellsPage, asidBase := 0x10000, memTrained := [7] }

/-- One memory die without errors, and no translation cached anywhere. -/
structure Bare (s : State) : Prop where
  die : s.memTrained = [7]
  good : s.poison = []
  all : s.outOfService = []
  tlb : s.tlb = []
  walks : s.walkCache = []
  cores : s.cores = []

theorem page_lt (s : State) (h : s.memTrained = [7]) : 2 ^ 14 ≤ s.osLimit := by
  simp only [State.osLimit, State.capacity, h, List.length_singleton]
  have : Config.reservePages (15000000000 * 1 / 2 ^ 14) % (15000000000 * 1 / 2 ^ 14) < 15000000000 * 1 / 2 ^ 14 :=
    Nat.mod_lt _ (by decide)
  omega

/-- The leaf that the walk ends in. -/
def leafOf (va : Nat) : TlbEnt := ⟨0, va / 2 ^ 14, 0, true, true, true⟩

theorem leaf_page (s : State) (h : s.memTrained = [7]) (va : Nat) (acc : Acc) :
    s.checkLeaf (leafOf va) acc va = .ok ⟨.mem, va % 2 ^ 14⟩ := by
  have h1 := page_lt s h
  have h2 : va % 2 ^ 14 < 2 ^ 14 := Nat.mod_lt _ (by decide)
  have h3 : va % 2 ^ 14 / 2 ^ 48 = 0 := Nat.div_eq_of_lt (by omega)
  have h4 : va % 2 ^ 14 < s.osLimit := by omega
  simp only [State.checkLeaf, leafOf, Nat.zero_mul, Nat.zero_add, h3, h4]
  cases acc <;> rfl

theorem judge_page (s : State) (hs : Bare s) (x : Nat) : s.judge (.ok ⟨.mem, x⟩) = .ok ⟨.mem, x⟩ := by
  simp [State.judge, State.unreached, State.lineBad, State.memLost, hs.good, hs.all]

theorem found_bare (s : State) (hs : Bare s) (core : Option Nat) (asid va : Nat) :
    s.found core asid va = [leafOrFault (s.walk asid va)] := by
  have hk : ∀ k, (s.core k).tlb = [] := fun k => by rw [State.core, hs.cores]; rfl
  cases core <;> simp [State.found, hs.tlb, hs.walks, hk]

/-- The walk of an address ends in the page's leaf. -/
def walks (s : State) (va : Nat) : Bool := match s.walk 0 va with | .ok t => t == leafOf va | _ => false

theorem translate_page (s : State) (hs : Bare s) (core : Option Nat) (va : Nat) (acc : Acc) (hw : walks s va = true) :
    s.translate core 0 va acc = .ok ⟨.mem, va % 2 ^ 14⟩ := by
  unfold walks at hw
  simp only [State.translate, found_bare s hs]
  split at hw
  · rename_i t e
    rw [e, beq_iff_eq.mp hw]
    exact leaf_page s hs.die va acc
  · exact absurd hw (by decide)

theorem vloc_page (s : State) (hs : Bare s) (core : Option Nat) (va : Nat) (acc : Acc)
    (hv : va < deviceWindow) (hw : walks s va = true) : s.vloc core 0 va acc = .ok ⟨.mem, va % 2 ^ 14⟩ := by
  have : deviceWindow < scratchWindow := by decide
  rw [State.vloc, if_neg (by omega), if_neg (by omega), translate_page s hs core va acc hw, judge_page s hs]

theorem paged_page (s : State) (hs : Bare s) (core : Option Nat) (va : Nat) (acc : Acc) (hw : walks s va = true) :
    s.paged core 0 va acc = (.ok ⟨.mem, va % 2 ^ 14⟩, s.cacheTlb core 0 va) := by
  rw [State.paged, translate_page s hs core va acc hw, found_bare s hs]
  rfl

theorem locateRaw_page (s : State) (hs : Bare s) (core : Option Nat) (g : Grid) (hg : s.grid? 1 = some g) (ha : g.asid = 0)
    (grp va : Nat) (scratch : Bool) (acc : Acc) (hv : va < deviceWindow) (hw : walks s va = true) :
    s.locateRaw core 1 grp scratch va acc = (.ok ⟨.mem, va % 2 ^ 14⟩, s.cacheTlb core 0 va) := by
  have h1 : ¬ 2 ^ 57 ≤ va := by have : deviceWindow < 2 ^ 57 := by decide
                                omega
  have h2 : ¬ scratchWindow ≤ va := by have : deviceWindow < scratchWindow := by decide
                                       omega
  simp only [State.locateRaw, hg, if_neg h1, if_neg h2, if_neg (show ¬ deviceWindow ≤ va by omega), ha]
  exact paged_page s hs core va acc hw

theorem locate_page (s : State) (hs : Bare s) (core : Option Nat) (g : Grid) (hg : s.grid? 1 = some g) (ha : g.asid = 0)
    (grp va : Nat) (scratch : Bool) (acc : Acc) (hv : va < deviceWindow) (hw : walks s va = true) :
    s.locate core 1 grp scratch va acc = (.ok ⟨.mem, va % 2 ^ 14⟩, s.cacheTlb core 0 va) := by
  rw [State.locate, locateRaw_page s hs core g hg ha grp va scratch acc hv hw]
  exact congrArg (fun x => (x, _)) (judge_page s hs _)

/-- A copy of 4 bytes from the page to the last bytes of the gallery. -/
def oCpy : AsyncOp :=
  ⟨3, 1, 0, 0, 1, 0x300000, 63, .copy false true .gallery .mem 0x4FFFC 0x2000004 4, 0, 0, 0, false, false, false⟩

def tTag : Team := { t0 with tagCnt := [(63, 1)], tagClear := 0x8000000000000000 }

def sCopy : State := { onPage (kit w0 tTag g0 1) [(4, 9)] with ops := [oCpy] }

theorem bare_sCopy : Bare sCopy := ⟨rfl, rfl, rfl, rfl, rfl, rfl⟩

/-- The bytes of the copy's source. -/
theorem src_sCopy : (sCopy.sideLocs oCpy true .mem tTag.group true .read ((oCpy.kind.pairs 0).map (·.1))).1.map (·.2) =
    [⟨.mem, 4⟩, ⟨.mem, 5⟩, ⟨.mem, 6⟩, ⟨.mem, 7⟩].map Except.ok := by
  have e : (oCpy.kind.pairs 0).map (·.1) = [0x2000004, 0x2000005, 0x2000006, 0x2000007] := by decide
  have k : ([0x2000004, 0x2000005, 0x2000006, 0x2000007].foldl
      (fun (acc : List Nat) a => if acc.contains (a / 128) then acc else acc ++ [a / 128]) []) = [0x40000] := by decide
  rw [e]
  simp only [State.sideLocs, k, List.foldl_cons, List.foldl_nil, State.sideLoc, if_true,
    show oCpy.gid = 1 from rfl, show ([0x2000004, 0x2000005, 0x2000006, 0x2000007].filter (· / 128 == 0x40000)).headD 0
      = 0x2000004 from by decide]
  rw [locate_page sCopy bare_sCopy none g0 rfl rfl _ _ _ _ (by decide) (by decide)]
  rfl

theorem witness_CopiesAndTags_chunk : ∃ (s : State) (o : AsyncOp) (tm : Team) (g : Grid) (ls ld : List Loc), s.ops = [o] ∧
    s.team? o.tid = some tm ∧ s.grid? o.gid = some g ∧ o.kind = .copy false true .gallery .mem 0x4FFFC 0x2000004 4 ∧
    o.suspended = false ∧ o.done < o.kind.len ∧ s.opMayStart o o.kind.spaces = true ∧
    o.kind.pastScratch g.rec_.dieScratch = none ∧ Quiet s ∧
    (let src := s.sideLocs o true .mem tm.group true .read ((o.kind.pairs o.done).map (·.1))
     src.1.map (·.2) = ls.map Except.ok ∧
     (src.2.sideLocs o false .gallery tm.group true .write ((o.kind.pairs o.done).map (·.2))).1.map (·.2) = ld.map Except.ok) ∧
    (∀ x, x ∈ ls ++ ld → x.sp ∈ [Sp.mem, .scratch, .gallery, .hall] ∧
      (x.sp = .gallery → (s.team? (x.a / 2 ^ 20)).isSome = true)) ∧ ld.Nodup :=
  ⟨sCopy, oCpy, tTag, g0, [⟨.mem, 4⟩, ⟨.mem, 5⟩, ⟨.mem, 6⟩, ⟨.mem, 7⟩],
    [⟨.gallery, 0x4FFFC⟩, ⟨.gallery, 0x4FFFD⟩, ⟨.gallery, 0x4FFFE⟩, ⟨.gallery, 0x4FFFF⟩], rfl, rfl, rfl, rfl, rfl, by decide, by decide,
    by decide, quiet _ rfl, ⟨src_sCopy, by rfl⟩, by decide, by decide⟩

/-- The copy from an address that the page tables do not map. -/
def oBad : AsyncOp := { oCpy with kind := .copy false true .gallery .mem 0x4FFFC 0x4000000 4 }
def sBadCopy : State := { onPage (kit w0 tTag g0 1) [] with ops := [oBad] }

theorem witness_CopiesAndTags_fault : ∃ (s : State) (o : AsyncOp) (tm : Team) (g : Grid) (c : Ctx), s.ops = [o] ∧
    s.team? o.tid = some tm ∧ s.grid? o.gid = some g ∧ o.suspended = false ∧ o.done < o.kind.len ∧
    s.opMayStart o o.kind.spaces = true ∧ o.kind.pastScratch g.rec_.dieScratch = none ∧ s.ctxOf o.wid o.lanes = some c ∧
    lowestFault (s.sideLocs o true .mem tm.group true .read ((o.kind.pairs o.done).map (·.1))).1 = some (0x4000000, 0) := by
  have hs : Bare sBadCopy := ⟨rfl, rfl, rfl, rfl, rfl, rfl⟩
  refine ⟨sBadCopy, oBad, tTag, g0, kc w0 tTag g0 1, rfl, rfl, rfl, rfl, by decide, by decide, by decide, by decide, ?_⟩
  have e : (oBad.kind.pairs 0).map (·.1) = [0x4000000, 0x4000001, 0x4000002, 0x4000003] := by decide
  have k : ([0x4000000, 0x4000001, 0x4000002, 0x4000003].foldl
      (fun (acc : List Nat) a => if acc.contains (a / 128) then acc else acc ++ [a / 128]) []) = [0x80000] := by decide
  have hw : sBadCopy.walk 0 0x4000000 = .error 0 := by
    have : (match sBadCopy.walk 0 0x4000000 with | .error f => f == 0 | _ => false) = true := by decide +kernel
    split at this
    · rename_i f h; rw [h, beq_iff_eq.mp this]
    · exact absurd this (by decide)
  have hp : ∀ grp, (sBadCopy.locate none 1 grp true 0x4000000 .read).1 = .error 0 := fun grp => by
    simp only [State.locate, State.locateRaw, State.paged, State.translate, found_bare sBadCopy hs,
      show sBadCopy.grid? 1 = some g0 from rfl, show g0.asid = 0 from rfl, hw]
    rfl
  rw [show oBad.done = 0 from rfl, e]
  simp only [State.sideLocs, k, List.foldl_cons, List.foldl_nil, State.sideLoc, if_true,
    show oBad.gid = 1 from rfl, show ([0x4000000, 0x4000001, 0x4000002, 0x4000003].filter (· / 128 == 0x80000)).headD 0
      = 0x4000000 from by decide]
  have hp := hp (((sBadCopy.team? oBad.tid).map Team.group).getD 0)
  generalize sBadCopy.locate none 1 (((sBadCopy.team? oBad.tid).map Team.group).getD 0) true 0x4000000 .read = y at hp
  obtain ⟨y, z⟩ := y
  subst hp
  rfl

/-- A copy to a peer on port 3, from the page. -/
def oPeer : AsyncOp := { oCpy with kind := .peerCopy 0x2000004 0x100 4 3 }
def sPeerCopy : State :=
  { onPage (kit w0 tTag g0 1) [(4, 9)] with ops := [oPeer], peers := [(3, 0, 9)], mg := { Mg.reset with peerMask := 8 } }

theorem witness_CopiesAndTags_peer : ∃ (s : State) (o : AsyncOp) (tm : Team) (g : Grid) (ra : Nat) (ls : List Loc), s.ops = [o] ∧
    s.team? o.tid = some tm ∧ s.grid? o.gid = some g ∧ o.kind = .peerCopy 0x2000004 0x100 4 3 ∧
    o.suspended = false ∧ o.done < o.kind.len ∧ s.opMayStart o o.kind.spaces = true ∧ Quiet s ∧
    s.peerAsid o.gid 3 = some ra ∧ s.mg.peerMask / 2 ^ 3 % 2 = 1 ∧
    (s.sideLocs o true .mem tm.group true .read ((o.kind.pairs o.done).map (·.1))).1.map (·.2) = ls.map Except.ok ∧
    ∀ x, x ∈ ls → x.sp = .mem := by
  refine ⟨sPeerCopy, oPeer, tTag, g0, 9, [⟨.mem, 4⟩, ⟨.mem, 5⟩, ⟨.mem, 6⟩, ⟨.mem, 7⟩], rfl, rfl, rfl, rfl, rfl, by decide, by decide,
    quiet _ rfl, by decide, by decide, ?_, by decide⟩
  have e : (oPeer.kind.pairs oPeer.done).map (·.1) = [0x2000004, 0x2000005, 0x2000006, 0x2000007] := by decide
  have k : ([0x2000004, 0x2000005, 0x2000006, 0x2000007].foldl
      (fun (acc : List Nat) a => if acc.contains (a / 128) then acc else acc ++ [a / 128]) []) = [0x40000] := by decide
  rw [e]
  simp only [State.sideLocs, k, List.foldl_cons, List.foldl_nil, State.sideLoc, if_true,
    show oPeer.gid = 1 from rfl, show ([0x2000004, 0x2000005, 0x2000006, 0x2000007].filter (· / 128 == 0x40000)).headD 0
      = 0x2000004 from by decide]
  rw [locate_page sPeerCopy ⟨rfl, rfl, rfl, rfl, rfl, rfl⟩ none g0 rfl rfl _ _ _ _ (by decide) (by decide)]
  rfl

/-- The same operation with all its chunks done. -/
def sCopied (tm : Team) : State := { kit w0 tm g0 1 with ops := [{ oCpy with done := 4 }] }

theorem witness_CopiesAndTags_done : ∀ tm : Team, tm = tTag ∨ tm = { tTag with tagCnt := [(63, 2)] } →
    ∃ (s : State) (o : AsyncOp) (g : Grid), s.ops = [o] ∧ s.team? o.tid = some tm ∧ s.grid? o.gid = some g ∧
    ¬((∃ x, o.kind = .dice x) ∨ (∃ x, o.kind = .rast x) ∨ (∃ x, o.kind = .rslv x)) ∧
    o.kind.len ≤ o.done ∧ 0 < tm.tagCount o.tag ∧ tm.st ≠ .saved ∧ o.tag < 64 := by
  intro tm h
  rcases h with rfl | rfl <;> exact ⟨sCopied _, { oCpy with done := 4 }, g0, rfl, rfl, rfl, by simp [oCpy],
    by decide, by decide, by decide, by decide⟩

/-- A warp whose uniform registers name tag 63. -/
def wTag : Warp := { w0 with uni := [(3, 0x80000000)] }

theorem witness_CopiesAndTags_wait : ∃ (s : State) (c : Ctx) (f : Fmt) (on : Mask), s.Executes (.twait f true true) c f on ∧
    s.Executes (.tclr { f with d := .vec 0 }) c { f with d := .vec 0 } on ∧
    s.src64 c 0 f.a (lowest c.lanes) &&& c.t.tagClear ≠ 0 ∧ c.t.tagCount 63 ≠ 0 :=
  ⟨_, _, fm (.vec 0) (.uni 2), _, kit_executes (w := wTag) (t := tTag) (g := g0) (m := 1) (by decide),
    kit_executes (w := wTag) (t := tTag) (g := g0) (m := 1) (by decide), by decide, by decide⟩

theorem witness_CopiesAndTags_pass : ∃ (s : State) (c : Ctx) (f : Fmt) (on : Mask), s.Executes (.twait f false false) c f on ∧
    s.src64 c 0 f.a (lowest c.lanes) = 0 := ⟨_, _, fm (.vec 0) (.uni 0), _, runs _ _ (by decide), by decide⟩

theorem witness_CopiesAndTags_fst : ∃ (s : State) (c : Ctx) (f : Fmt) (on : Mask), s.Executes (.tfst f) c f on ∧ f.d = .pred 6 :=
  ⟨_, _, fm (.pred 6) (.uni 2), _, kit_executes (w := wTag) (t := tTag) (g := g0) (m := 1) (by decide), rfl⟩

theorem witness_CopiesAndTags_idle : ∃ (s : State) (c : Ctx) (f : Fmt) (on : Mask), s.Executes (.twait f true false) c f on ∧
    MayStop s c ∧ s.src64 c 0 f.a (lowest c.lanes) &&& c.t.tagClear ≠ 0 ∧
    ∀ g, g < 64 → (s.src64 c 0 f.a (lowest c.lanes) &&& c.t.tagClear).getLsbD g = true → c.t.tagCount g = 0 :=
  ⟨_, _, fm (.vec 0) (.uni 2), _, kit_executes (w := wTag) (t := { tTag with tagCnt := [] }) (g := g0) (m := 1) (by decide),
    by unfold MayStop; decide, by decide, fun _ _ _ => rfl⟩

/-! ### Tasks -/

/-- A node whose bin can take one record more; u5 names a child. -/
def nod : Node := ⟨12, 0, 0x8000000000000000, 1, 5, 1, 8, .none, [], 0, 3, 0⟩
def gNode : Grid := { g0 with nodes := [(63, nod)] }

theorem runsNode (f : Fmt) (n : BitVec 6) (t : Team) (g : Grid) (w : Warp) (m : Mask) (h : kitOk (.nrec f n) f w t g m = true) :
    (kit w t g m).Executes (.nrec f n) (kc w t g m) f ((kc w t g m).on f.g) := kit_executes h

theorem witness_Tasks_nrec : ∀ cs, cs = CondState.proceed ∨ cs = CondState.discard →
    ∃ (s : State) (c : Ctx) (f : Fmt) (on : Mask) (node : BitVec 6) (x : Node) (ng : Bool) (a : BitVec 8),
    on ≠ 0 ∧ Plain c ∧ s.Executes (.nrec f node) c f on ∧ f.a = .vec ng a ∧ x.cond = cs ∧
    tget c.g.nodes node.toNat = some x ∧ a.toNat + x.recBytes / 4 = c.g.rec_.vec ∧
    (∀ k p r, c.t.kind = .node k p r → x.feed.getLsbD k = true) ∧ (x.cond = .discard ∨ x.bin.length + count on ≤ 65536) ∧
    s.handOff c = some none := by
  intro cs h
  rcases h with rfl | rfl <;>
    exact ⟨_, _, fm (.vec 0) (v 254), _, 63, { nod with cond := _ }, false, 254, by decide,
      plain0 w0 { g0 with nodes := [(63, { nod with cond := _ })] } 0xFFFFFFFF rfl, runsNode _ _ _ _ _ _ (by decide), rfl, rfl, rfl,
      by decide, (fun _ _ _ h => nomatch h), by decide, by decide⟩

theorem witness_Tasks_nodeIdx : ∃ (s : State) (c : Ctx) (f : Fmt) (on : Mask) (node : BitVec 6),
    s.Executes (.nrec f node) c f on ∧ on ≠ 0 ∧ MayStop s c ∧ tget c.g.nodes node.toNat = none :=
  ⟨_, _, fm (.vec 0) (v 254), _, 62, runsNode _ _ t0 gNode w0 1 (by decide), by decide, by unfold MayStop; decide, by decide⟩

theorem witness_Tasks_ridx : ∃ (s : State) (c : Ctx) (f : Fmt) (on : Mask) (node : BitVec 6) (x : Node) (ng : Bool) (a : BitVec 8),
    on ≠ 0 ∧ s.Executes (.nrec f node) c f on ∧ f.a = .vec ng a ∧ tget c.g.nodes node.toNat = some x ∧ MayStop s c ∧
    ¬a.toNat + x.recBytes / 4 ≤ c.g.rec_.vec :=
  ⟨_, _, fm (.vec 0) (v 255), _, 63, nod, false, 255, by decide, runsNode _ _ t0 gNode w0 1 (by decide), rfl, rfl,
    by unfold MayStop; decide, by decide⟩

theorem witness_Tasks_edge : ∃ (s : State) (c : Ctx) (f : Fmt) (on : Mask) (node : BitVec 6) (x : Node) (ng : Bool) (a : BitVec 8),
    on ≠ 0 ∧ s.Executes (.nrec f node) c f on ∧ f.a = .vec ng a ∧ tget c.g.nodes node.toNat = some x ∧ MayStop s c ∧
    a.toNat + x.recBytes / 4 ≤ c.g.rec_.vec ∧ ∃ k p r, c.t.kind = .node k p r ∧ x.feed.getLsbD k = false :=
  ⟨_, _, fm (.vec 0) (v 254), _, 63, nod, false, 254, by decide, runsNode _ _ tNode gNode w0 1 (by decide), rfl, rfl,
    by unfold MayStop; decide, by decide, 0, 0, 0, rfl, by decide⟩

/-- Bins that are full; the second node's predicate is not read before its feeder, the root teams, is done. -/
def nodFull (cs : CondState) : Node := { nod with cond := cs, bin := List.replicate 65536 [0, 0] }

theorem bin_full (cs : CondState) (n : Nat) (h : 0 < n) : ¬ (nodFull cs).bin.length + n ≤ 65536 := by
  rw [show (nodFull cs).bin = List.replicate 65536 [0, 0] from rfl, List.length_replicate]; omega

theorem witness_Tasks_full : ∃ (s : State) (c : Ctx) (f : Fmt) (on : Mask) (node : BitVec 6) (x : Node) (ng : Bool) (a : BitVec 8),
    on ≠ 0 ∧ s.Executes (.nrec f node) c f on ∧ f.a = .vec ng a ∧ tget c.g.nodes node.toNat = some x ∧ MayStop s c ∧
    a.toNat + x.recBytes / 4 ≤ c.g.rec_.vec ∧ (∀ k p r, c.t.kind = .node k p r → x.feed.getLsbD k = true) ∧
    ¬(x.cond = .discard ∨ x.bin.length + count on ≤ 65536) ∧ x.cond ≠ .none ∧ x.cond ≠ .proceed ∧
    s.feedersDone c.t.gid c.g node.toNat x = false :=
  ⟨kit w0 t0 { g0 with nodes := [(63, nodFull .waiting)] } 1, kc w0 t0 { g0 with nodes := [(63, nodFull .waiting)] } 1,
    fm (.vec 0) (v 254), 1, 63, nodFull .waiting, false, 254, by decide,
    ⟨rfl, ⟨_, rfl, Or.inr rfl⟩, by decide, Or.inl rfl, rfl⟩, rfl, rfl, ⟨rfl, rfl⟩, by decide, (fun _ _ _ h => nomatch h),
    fun h => h.elim (by decide) (bin_full _ _ (by decide)), by decide, by decide, rfl⟩

theorem witness_Tasks_waits : ∃ (s : State) (c : Ctx) (f : Fmt) (on : Mask) (node : BitVec 6) (x : Node) (ng : Bool) (a : BitVec 8),
    on ≠ 0 ∧ s.Executes (.nrec f node) c f on ∧ f.a = .vec ng a ∧ tget c.g.nodes node.toNat = some x ∧
    a.toNat + x.recBytes / 4 ≤ c.g.rec_.vec ∧ (∀ k p r, c.t.kind = .node k p r → x.feed.getLsbD k = true) ∧
    ¬(x.cond = .discard ∨ x.bin.length + count on ≤ 65536) ∧ x.cond = .none :=
  ⟨kit w0 t0 { g0 with nodes := [(63, nodFull .none)] } 1, kc w0 t0 { g0 with nodes := [(63, nodFull .none)] } 1,
    fm (.vec 0) (v 254), 1, 63, nodFull .none, false, 254, by decide,
    ⟨rfl, ⟨_, rfl, Or.inr rfl⟩, by decide, Or.inl rfl, rfl⟩, rfl, rfl, by decide, (fun _ _ _ h => nomatch h),
    fun h => h.elim (by decide) (bin_full _ _ (by decide)), rfl⟩

/-- A warp with an entry in its store queue. -/
theorem witness_Tasks_handOff : ∃ (s : State) (c : Ctx) (f f' : Fmt) (on : Mask), on ≠ 0 ∧
    s.Executes (.nrec f 63) c f on ∧ s.Executes (.launch f') c f' on ∧ s.handOff c = none ∧ c.w.num = 0 ∧ c.nested on = none :=
  ⟨_, _, fm (.vec 0) (v 254), fm (.uni 0) (.uni 2), _, by decide, runsNode _ _ t0 gNode wBusy 1 (by decide),
    kit_executes (w := wBusy) (t := t0) (g := gNode) (m := 1) (by decide), by decide, rfl, by decide⟩

theorem witness_Tasks_chwait : ∃ (s : State) (c : Ctx) (f : Fmt) (on : Mask), on ≠ 0 ∧ c.nested on = none ∧
    s.Executes (.chwait f false) c f on ∧ s.Executes (.chwait f true) c f on ∧ c.t.children = [2] ∧
    s.uni c on f.a false % 2 ^ 24 = 2 ∧ (∃ g, s.grid? 2 = some g ∧ g.st = .live) :=
  ⟨{ kit { w0 with uni := [(5, 2)] } { t0 with children := [2] } g0 1 with grids := [(1, g0), (2, g0)] },
    kc { w0 with uni := [(5, 2)] } { t0 with children := [2] } g0 1, fm (.vec 0) (.uni 5), 1, by decide, by decide,
    ⟨by decide, ⟨_, rfl, Or.inr (by decide)⟩, by decide, Or.inl rfl, by decide⟩,
    ⟨by decide, ⟨_, rfl, Or.inr (by decide)⟩, by decide, Or.inl rfl, by decide⟩, rfl, by decide, g0, rfl, rfl⟩

theorem witness_Tasks_chwait_passes : ∃ (s : State) (c : Ctx) (f : Fmt) (on : Mask), on ≠ 0 ∧ c.nested on = none ∧
    s.Executes (.chwait f true) c f on ∧ ¬ ∃ k, k ∈ c.t.children ∧ ∃ g, s.grid? k = some g ∧ g.st = .live :=
  ⟨_, _, fm (.vec 0) (.uni 5), _, by decide, by decide, runs _ _ (by decide), fun ⟨_, h, _⟩ => nomatch h⟩

theorem witness_Tasks_nested : ∃ (s : State) (c : Ctx) (f f' : Fmt) (on : Mask) (d : BitVec 6), s.Executes (.launch f) c f on ∧
    s.Executes (.chwait f' true) c f' on ∧ s.Executes (.bkacq f) c f on ∧ f.d = .uni d ∧
    c.nested on = some (.dbgNest, 1) ∧ on &&& c.w.stopped = 0 ∧ MayStop s c :=
  ⟨_, _, fm (.uni 0), fm (.vec 0), _, 0, kit_executes (w := wDbg0) (t := t0) (g := g0) (m := 1) (by decide),
    kit_executes (w := wDbg0) (t := t0) (g := g0) (m := 1) (by decide),
    kit_executes (w := wDbg0) (t := t0) (g := g0) (m := 1) (by decide), rfl, by decide, by decide, by unfold MayStop; decide⟩

theorem witness_Tasks_off : ∃ (s : State) (c : Ctx) (f f' : Fmt) (on : Mask), on = 0 ∧ s.Executes (.nrec f 63) c f on ∧
    s.Executes (.launch f') c f' on ∧ s.Executes (.bkacq f') c f' on :=
  ⟨_, _, fm (.vec 0) (v 254) .zero .zero ⟨false, 0⟩, fm (.uni 0) .zero .zero .zero ⟨false, 0⟩, _, by decide,
    runsNode _ _ t0 gNode w0 1 (by decide), kit_executes (w := w0) (t := t0) (g := gNode) (m := 1) (by decide),
    kit_executes (w := w0) (t := t0) (g := gNode) (m := 1) (by decide)⟩

theorem witness_Tasks_launchWarp : ∃ (s : State) (c : Ctx) (f : Fmt) (on : Mask), s.Executes (.launch f) c f on ∧ on ≠ 0 ∧
    c.nested on = none ∧ c.w.num ≠ 0 ∧ on &&& c.w.stopped = 0 ∧ MayStop s c :=
  ⟨_, _, fm (.uni 0), _, kit_executes (w := { w0 with num := 1 }) (t := t0) (g := g0) (m := 1) (by decide), by decide, by decide,
    by decide, by decide, by unfold MayStop; decide⟩

/-! ### A launch record on the page -/

theorem recall_none (s : State) (h : s.cores = []) (k : Option Nat) (l : Nat) : s.recall k l = s := by
  simp [State.recall, State.holders, h, State.recallAll]

theorem recallVa_none (s : State) (h : s.cores = []) (asid va n : Nat) : s.recallVa asid va n = s := by
  unfold State.recallVa
  generalize List.range (n / 128 + 2) = l
  induction l with
  | nil => rfl
  | cons i l ih =>
    rw [List.foldl_cons]
    have : (match s.vloc none asid (min (va + 128 * i) (va + n - 1)) .read with
        | .ok x => if x.sp == .mem then s.recall none (x.a / 128) else s
        | .error _ => s) = s := by
      split
      · split
        · exact recall_none s h _ _
        · rfl
      · rfl
    exact (congrArg (fun z => List.foldl _ z l) this).trans ih

theorem bitsOf_page (va vb h l : Nat) (e : va / 2 ^ 14 = vb / 2 ^ 14) : bitsOf va h (14 + l) = bitsOf vb h (14 + l) := by
  have k : ∀ x : Nat, x >>> (14 + l) = x / 2 ^ 14 / 2 ^ l := fun x => by
    rw [Nat.shiftRight_eq_div_pow, Nat.pow_add, Nat.div_div_eq_div_mul]
  rw [bitsOf, bitsOf, k, k, e]

theorem walkFrom_page (s : State) (va vb : Nat) (e : va / 2 ^ 14 = vb / 2 ^ 14) (l : Nat) : ∀ t : Nat,
    s.walkFrom 0 va l t = s.walkFrom 0 vb l t := by
  have k : ∀ l t, s.walkEntry 0 va l t = s.walkEntry 0 vb l t := fun l t => by
    simp only [State.walkEntry, bitsOf_page va vb _ _ e, show ∀ h, bitsOf va h 14 = bitsOf vb h 14 from
      fun h => bitsOf_page va vb h 0 e, e]
  induction l with
  | zero => intro t; unfold State.walkFrom; rw [k]
  | succ l ih => intro t; unfold State.walkFrom; simp only [k, ih]

theorem walk_page (s : State) (va vb : Nat) (e : va / 2 ^ 14 = vb / 2 ^ 14) : s.walk 0 va = s.walk 0 vb := by
  unfold State.walk; simp only [walkFrom_page s va vb e]

/-- Some bytes that do not cross the end of the page of virtual addresses. -/
def pageOk (s : State) (va n : Nat) : Bool :=
  va + n ≤ deviceWindow && va % 2 ^ 14 + n ≤ 2 ^ 14 && walks s va

theorem vloc_pageOk (s : State) (hs : Bare s) (va n i : Nat) (acc : Acc)
    (hw : pageOk s va n = true) (hi : i < n) : s.vloc none 0 (va + i) acc = .ok ⟨.mem, (va + i) % 2 ^ 14⟩ := by
  simp only [pageOk, Bool.and_eq_true, decide_eq_true_eq] at hw
  have e : (va + i) / 2 ^ 14 = va / 2 ^ 14 := by omega
  refine vloc_page s hs _ _ _ (by omega) ?_
  have hw := hw.2
  unfold walks at hw ⊢
  rw [walk_page s _ _ e, show leafOf (va + i) = leafOf va from by rw [leafOf, leafOf, e]]
  exact hw

theorem vpeek_page (s : State) (hs : Bare s) (va n : Nat)
    (hw : pageOk s va n = true) : s.vpeek 0 va n = .ok ((List.range n).map fun i => s.byte ((va + i) % 2 ^ 14)) := by
  have key : ∀ l : List Nat, (∀ i, i ∈ l → i < n) → l.foldr (fun i acc =>
      match s.vloc none 0 (va + i) .read with
      | .error f => .error (f, va + i)
      | .ok x =>
        match acc with
        | .error e => .error e
        | .ok bs => .ok ((match x.sp with
          | .pcie => Config.freeByte (s.fresh + i)
          | .doorbell => if x.a % 16384 < 4 then Config.freeByte (s.fresh + i) else 0
          | _ => s.byte x.a) :: bs))
        (Except.ok (ε := Nat × Nat) []) = .ok (l.map fun i => s.byte ((va + i) % 2 ^ 14)) := by
    intro l
    induction l with
    | nil => intro _; rfl
    | cons i l ih =>
      intro hl
      rw [List.foldr_cons, ih (fun j hj => hl j (List.mem_cons_of_mem _ hj)),
        vloc_pageOk s hs va n i .read hw (hl i List.mem_cons_self)]
      rfl
  exact key _ (fun i hi => List.mem_range.mp hi)

/-- Nothing is open about bytes of the page. -/
theorem openVa_page (s : State) (hs : Bare s) (va n : Nat) (hn : 0 < n) (hw : pageOk s va n = true) : s.openVa 0 va n = false := by
  simp only [State.openVa, List.any_eq_false, Bool.or_eq_true, Bool.and_eq_true, decide_eq_true_eq]
  intro i _
  have e : min (va + 128 * i) (va + n - 1) = va + min (128 * i) (n - 1) := by omega
  rw [e, vloc_pageOk s hs va n _ .read hw (by omega), found_bare s hs]
  simp

theorem vread_page (s : State) (hs : Bare s) (va n : Nat) (hn : 0 < n) (hw : pageOk s va n = true) :
    s.vread 0 va n = (.ok ((List.range n).map fun i => s.byte ((va + i) % 2 ^ 14)), s.cacheVa none 0 va n) := by
  simp only [State.vread, recallVa_none s hs.cores, vpeek_page s hs va n hw, openVa_page s hs va n hn hw]
  rfl

/-- A record of one team of one thread, in page 0 of memory. -/
def cellsRec : List Host.Cell := [(16, 1), (20, 1), (22, 1), (24, 1), (26, 1), (28, 1), (51, 6)]
def bytesRec : List Byte := (List.range 256).map fun i => memByte cellsRec i

def wRec : Warp := { w0 with uni := [(2, 0x2000000)] }
def sRec : State := onPage (kit wRec t0 g0 1) cellsRec

theorem bytesRec_at (s : State) (h : ((List.range 256).map fun i => s.byte ((0x2000000 + i) % 2 ^ 14)) = bytesRec)
    (hs : Bare s) (hw : pageOk s 0x2000000 256 = true) (p : Option (Grid × Nat × Nat)) (r : LaunchRec)
    (hr : (match p with | some (g, gid, lin) => (parseRec bytesRec).asChild g gid lin | none => parseRec bytesRec) = r)
    (hn : r.nodeCount = 0) (s' : State) (he : s.cacheVa none 0 0x2000000 256 = s')
    (hk : s'.checkRec bytesRec (parseRec bytesRec) r [] (s'.effectiveMask r.dieMask) 0 p.isSome = none) :
    s.submit 0 0x2000000 p = (.ok r [] (s'.effectiveMask r.dieMask), s') := by
  have e := vread_page s hs 0x2000000 256 (by decide) hw
  rw [h, he] at e
  have n0 : (if r.nodeCount ≤ 64 && r.nodeTable % 256 = 0 && r.nodeTable != 0 then r.nodeCount else 0) = 0 := by
    rw [hn, ite_self]
  cases p with
  | none => subst hr; simp only [State.submit, e]; rw [if_pos n0, hk]
  | some p => subst hr; simp only [State.submit, e]; rw [if_pos n0, hk]

theorem sRec_submit : sRec.submit 0 0x2000000 (some (g0, 1, 0)) =
    (.ok ((parseRec bytesRec).asChild g0 1 0) [] ((sRec.cacheVa none 0 0x2000000 256).effectiveMask 0),
      sRec.cacheVa none 0 0x2000000 256) :=
  bytesRec_at sRec (by decide +kernel) ⟨rfl, rfl, rfl, rfl, rfl, rfl⟩ (by decide +kernel) _ _ rfl (by decide +kernel) _ rfl
    (by decide +kernel)

theorem witness_Tasks_launch : ∃ (s : State) (c : Ctx) (f : Fmt) (on : Mask) (d : BitVec 6) (r : LaunchRec) (ns : List NodeRaw)
    (mask : List Nat) (s1 : State), on ≠ 0 ∧ Plain c ∧ c.nested on = none ∧ s.Executes (.launch f) c f on ∧ f.d = .uni d ∧
    c.w.num = 0 ∧ s.handOff c = some none ∧ s.uni c on f.a true % 256 = 0 ∧ s.nextGid ≠ c.t.gid ∧
    s.submit c.g.asid (s.uni c on f.a true) (some (c.g, c.t.gid, c.t.lin)) = (.ok r ns mask, s1) :=
  ⟨sRec, kc wRec t0 g0 1, fm (.uni 63) (.uni 2), 1, 63, _, _, _, _, by decide, plain0 wRec g0 1 rfl, by decide,
    ⟨by decide, ⟨_, rfl, Or.inr (by decide)⟩, by decide, Or.inl rfl, by decide⟩, rfl, rfl, by decide, by decide, by decide,
    sRec_submit⟩

/-- A warp that names a record at an address that is no multiple of 256. -/
def wRag : Warp := { w0 with uni := [(2, 255)] }

theorem witness_Tasks_rejected : ∃ (s : State) (c : Ctx) (f : Fmt) (on : Mask) (d : BitVec 6), on ≠ 0 ∧ Plain c ∧
    c.nested on = none ∧ s.Executes (.launch f) c f on ∧ f.d = .uni d ∧ c.w.num = 0 ∧ s.handOff c = some none ∧
    s.uni c on f.a true % 256 ≠ 0 ∧ s.canReport = true :=
  ⟨_, _, fm (.uni 63) (.uni 2), _, 63, by decide, plain0 wRag g0 1 rfl, by decide,
    kit_executes (w := wRag) (t := t0) (g := g0) (m := 1) (by decide), rfl, rfl, by decide, by decide,
    by decide⟩

/-! ### Buckets -/

/-- A frame whose die 1 has the last bucket left, with one more held back for it. -/
def fr0 : Frame := ⟨64, 64, 4, 0, false, 0, 0, 0, 0, 0x01FFFFFFFFFFFFC0, 0, 0, 0, 0, [(1, (15, 16, []))], [(1, [7, 8])], 0, [], 0, 0, 0, 0, 0,
  0, false⟩
def gFr : Grid := { g0 with frame := some fr0 }

/-- Die 2 has no bucket of its own; dies 1 and 3 have one and two, die 4 two on its stack. -/
def frSteal (st : List Nat) : Frame := { fr0 with disp := [(1, (15, 16, [])), (3, (4, 6, [])), (4, (0, 0, st))], held := [] }

theorem witness_Buckets_steal : ∃ (fr : Frame) (mask pre post : List Nat) (d v : Nat), fr.die d = (0, 0, []) ∧
    mask = pre ++ v :: post ∧ 0 < fr.unstarted v ∧ (∀ k, k ∈ pre → fr.unstarted k < fr.unstarted v) ∧
    (∀ k, k ∈ post → fr.unstarted k ≤ fr.unstarted v) ∧ fr.die v = (4, 6, []) :=
  ⟨frSteal [8, 9], [1, 2, 3, 4], [1, 2], [4], 2, 3, rfl, rfl, by decide, by decide, by decide, rfl⟩

theorem witness_Buckets_stealStack : ∃ (fr : Frame) (mask pre post : List Nat) (d v : Nat), fr.die d = (0, 0, []) ∧
    mask = pre ++ v :: post ∧ 0 < fr.unstarted v ∧ (∀ k, k ∈ pre → fr.unstarted k < fr.unstarted v) ∧
    (∀ k, k ∈ post → fr.unstarted k ≤ fr.unstarted v) ∧ fr.die v = (0, 0, [8, 9, 10]) :=
  ⟨frSteal [8, 9, 10], [1, 2, 3, 4], [1, 2, 3], [], 2, 4, rfl, rfl, by decide, by decide, by decide, rfl⟩

theorem witness_Buckets_take : ∃ (s : State) (c : Ctx) (f : Fmt) (on : Mask) (d : BitVec 6) (fr : Frame) (b : Nat) (fr' : Frame),
    s.Executes (.bkacq f) c f on ∧ f.d = .uni d ∧ on ≠ 0 ∧ c.nested on = none ∧ c.t.hall = none ∧
    (∃ h, h < 8 ∧ (s.hall (socketOf c.t.core) h).free = true) ∧ c.g.frame = some fr ∧
    fr.take c.g.mask (socketOf c.t.core) = some (some (b, fr')) :=
  ⟨_, _, fm (.uni 63), _, 63, fr0, 15, { fr0 with disp := [(1, (16, 16, []))] },
    kit_executes (w := w0) (t := t0) (g := gFr) (m := 1) (by decide), rfl, by decide, by decide, rfl, ⟨7, by decide, by decide⟩, rfl,
    by decide⟩

theorem witness_Buckets_held : ∃ (s : State) (c : Ctx) (f : Fmt) (on : Mask) (fr : Frame), s.Executes (.bkacq f) c f on ∧
    on ≠ 0 ∧ c.nested on = none ∧ c.t.hall = none ∧ (∃ h, h < 8 ∧ (s.hall (socketOf c.t.core) h).free = true) ∧
    c.g.frame = some fr ∧ fr.take c.g.mask (socketOf c.t.core) = none :=
  ⟨_, _, fm (.uni 0), _, { fr0 with disp := [] },
    kit_executes (w := w0) (t := t0) (g := { g0 with frame := some { fr0 with disp := [] } }) (m := 1) (by decide),
    by decide, by decide, rfl, ⟨0, by decide, by decide⟩, rfl, by decide⟩

theorem witness_Buckets_none : ∃ (s : State) (c : Ctx) (f : Fmt) (on : Mask) (fr : Frame), s.Executes (.bkacq f) c f on ∧
    on ≠ 0 ∧ c.nested on = none ∧ c.t.hall = none ∧ (∃ h, h < 8 ∧ (s.hall (socketOf c.t.core) h).free = true) ∧
    c.g.frame = some fr ∧ fr.take c.g.mask (socketOf c.t.core) = some none :=
  ⟨_, _, fm (.uni 0), _, { fr0 with disp := [], held := [] },
    kit_executes (w := w0) (t := t0) (g := { g0 with frame := some { fr0 with disp := [], held := [] } }) (m := 1) (by decide),
    by decide, by decide, rfl, ⟨0, by decide, by decide⟩, rfl, by decide⟩

/-- The machine with every hall of die 1 held. -/
def sFull : State :=
  { kit w0 t0 gFr 1 with dies := [(1, { Die.reset with halls := (List.range 8).map fun h => (h, { Hall.reset with holder := some 9 }) })] }

theorem witness_Buckets_wait : ∃ (s : State) (c : Ctx) (f : Fmt) (on : Mask), s.Executes (.bkacq f) c f on ∧ on ≠ 0 ∧
    c.nested on = none ∧ c.t.hall = none ∧ ∀ h, h < 8 → (s.hall (socketOf c.t.core) h).free = false :=
  ⟨sFull, kc w0 t0 gFr 1, fm (.uni 0), 1, ⟨by decide, ⟨_, rfl, Or.inr (by decide)⟩, by decide, Or.inl rfl, by decide⟩, by decide,
    by decide, rfl, by decide⟩

theorem witness_Buckets_hallHeld : ∃ (s : State) (c : Ctx) (f : Fmt) (on : Mask) (d : BitVec 6), s.Executes (.bkacq f) c f on ∧
    f.d = .uni d ∧ on ≠ 0 ∧ c.nested on = none ∧ c.t.hall.isSome = true ∧ on &&& c.w.stopped = 0 ∧ MayStop s c :=
  ⟨_, _, fm (.uni 0), _, 0, kit_executes (w := w0) (t := tHall) (g := gFr) (m := 1) (by decide), rfl, by decide, by decide, rfl,
    by decide, by unfold MayStop; decide⟩

theorem witness_Buckets_done : ∀ act, act = true ∨ act = false →
    ∃ (s : State) (c : Ctx) (f : Fmt) (on : Mask) (h : Nat) (fr : Frame), s.Executes (.bkdone f) c f on ∧ on ≠ 0 ∧
    c.t.hall = some h ∧ s.renderBusy c.w.tid = false ∧ c.t.active = act ∧ c.g.frame = some fr ∧ fr.doneCount + 1 < fr.buckets := by
  intro act h
  rcases h with rfl | rfl <;>
    exact ⟨_, _, fm (.vec 0), _, 3, fr0, kit_executes (w := w0) (t := { tHall with active := _ }) (g := gFr) (m := 1) (by decide),
      by decide, rfl, by decide, rfl, rfl, by decide⟩

theorem witness_Buckets_last : ∃ (s : State) (c : Ctx) (f : Fmt) (on : Mask) (h : Nat) (fr : Frame), s.Executes (.bkdone f) c f on ∧
    on ≠ 0 ∧ c.t.hall = some h ∧ s.renderBusy c.w.tid = false ∧ c.t.active = false ∧ c.g.frame = some fr ∧
    fr.buckets ≤ fr.doneCount + 1 ∧ fr.doneAddr = 0 ∧ fr.notify = true ∧ s.canReport = true :=
  ⟨_, _, fm (.vec 0), _, 3, { fr0 with doneCount := 63, notify := true },
    kit_executes (w := w0) (t := tHall) (g := { g0 with frame := some { fr0 with doneCount := 63, notify := true } }) (m := 1)
      (by decide), by decide, rfl, by decide, rfl, rfl, by decide, rfl, rfl, by decide⟩

theorem witness_Buckets_hallNone : ∃ (s : State) (c : Ctx) (f : Fmt) (on : Mask), s.Executes (.bkdone f) c f on ∧ on ≠ 0 ∧
    c.t.hall = none ∧ MayStop s c :=
  ⟨_, _, fm (.vec 0), _, runs _ _ (by decide), by decide, rfl, by unfold MayStop; decide⟩

theorem witness_Buckets_refill : ∃ (s : State) (gid die lo hi b : Nat) (st rest : List Nat) (g : Grid) (fr : Frame),
    s.grid? gid = some g ∧ g.frame = some fr ∧ tget fr.held die = some (b :: rest) ∧ fr.die die = (lo, hi, st) ∧ st.length = 15 ∧
    4 ∉ s.trust.held :=
  ⟨kit w0 t0 { g0 with frame := some { fr0 with disp := [(1, (15, 16, List.range 15))] } } 1, 1, 1, 15, 16, 7, List.range 15, [8], _, _,
    rfl, rfl, rfl, rfl, rfl, (show 4 ∉ Trust.reset.held by decide)⟩

/-! ### The matrix engine -/

/-- A descriptor of a 1-byte-per-element B of 256 elements in the gallery, for slot 2. -/
def dGal : BitVec 128 := 0#32 ++ 2#3 ++ 1#1 ++ 8#8 ++ 64#20 ++ 1#1 ++ 0#6 ++ 0x100#57

def wDesc (d : BitVec 128) : Warp :=
  { w0 with uni := [(4, d.setWidth 32), (5, (d >>> 32).setWidth 32), (6, (d >>> 64).setWidth 32), (7, (d >>> 96).setWidth 32)],
            tile := [(7, d)] }

theorem witness_AccumulatorMoves_desc : ∃ (s : State) (c : Ctx) (f : Fmt) (on : Mask) (a : BitVec 6) (i : BitVec 8), on ≠ 0 ∧
    s.Executes (.tdesc f) c f on ∧ f.a = .uni a ∧ f.d = .cls3 i ∧
    descBad (s.ureg c.wid (a.toNat + 3) ++ s.ureg c.wid (a.toNat + 2) ++ s.ureg c.wid (a.toNat + 1) ++ s.ureg c.wid a.toNat)
      = false :=
  ⟨_, _, fm (.cls3 7) (.uni 4), _, 4, 7, by decide,
    kit_executes (w := wDesc dGal) (t := t0) (g := g0) (m := 1) (by decide), rfl, rfl, by decide⟩

theorem witness_AccumulatorMoves_bad : ∃ (s : State) (c : Ctx) (f : Fmt) (on : Mask) (a : BitVec 6) (i : BitVec 8), on ≠ 0 ∧
    s.Executes (.tdesc f) c f on ∧ f.a = .uni a ∧ f.d = .cls3 i ∧ MayStop s c ∧
    descBad (s.ureg c.wid (a.toNat + 3) ++ s.ureg c.wid (a.toNat + 2) ++ s.ureg c.wid (a.toNat + 1) ++ s.ureg c.wid a.toNat)
      = true :=
  ⟨_, _, fm (.cls3 0) (.uni 60), _, 60, 0, by decide, runs _ _ (by decide), rfl, rfl, by unfold MayStop; decide,
    by decide⟩

theorem witness_AccumulatorMoves_zero : ∃ (s : State) (c : Ctx) (f : Fmt) (on : Mask) (g : BitVec 6) (i : BitVec 8), on ≠ 0 ∧ s.mxQuiet c [] = true ∧
    s.rowsBusy c (.mzero f g) on = false ∧ s.Executes (.mzero f g) c f on ∧ f.d = .cls3 i ∧ 8 * i.toNat + 8 * (g.toNat + 1) = 8 * c.g.rec_.accGran :=
  ⟨_, _, fm (.cls3 63), _, 0, 63, by decide, by decide, by decide, runs _ _ (by decide), rfl, by decide⟩

theorem witness_AccumulatorMoves_read : ∃ (s : State) (c : Ctx) (f : Fmt) (on : Mask) (row0 : BitVec 6) (col : BitVec 7), on ≠ 0 ∧
    s.mxQuiet c [] = true ∧ s.rowsBusy c (.mrd f row0 col) on = false ∧ s.Executes (.mrd f row0 col) c f on ∧
    ∀ l, l ∈ lanesOf on → Ctx.rowIn c (8 * row0.toNat) l :=
  ⟨_, _, fm (.vec 255), _, 60, 127, by decide, by decide, by decide, runs _ _ (by decide), by unfold Ctx.rowIn; decide⟩

theorem witness_AccumulatorMoves_write : ∃ (s : State) (c : Ctx) (f : Fmt) (on : Mask) (i : BitVec 8) (col : BitVec 7), on ≠ 0 ∧
    s.mxQuiet c [] = true ∧ s.rowsBusy c (.mwr f col) on = false ∧ s.Executes (.mwr f col) c f on ∧ f.d = .cls3 i ∧
    ∀ l, l ∈ lanesOf on → Ctx.rowIn c (8 * i.toNat) l :=
  ⟨_, _, fm (.cls3 60) (v 1), _, 60, 127, by decide, by decide, by decide, runs _ _ (by decide), rfl, by unfold Ctx.rowIn; decide⟩

/-- ROW0 such that lane 24 is the first to name a row that is none of the team's. -/
theorem witness_AccumulatorMoves_beyond : ∃ (s : State) (c : Ctx) (f : Fmt) (on : Mask) (i : BitVec 8) (col : BitVec 7)
    (pre post : List Nat) (l : Nat), s.Executes (.mwr f col) c f on ∧ f.d = .cls3 i ∧ MayStop s c ∧ on &&& c.w.stopped = 0 ∧
    lanesOf on = pre ++ l :: post ∧ (∀ k, k ∈ pre → Ctx.rowIn c (8 * i.toNat) k) ∧ ¬Ctx.rowIn c (8 * i.toNat) l :=
  ⟨_, _, fm (.cls3 61) (v 1), _, 61, 0, List.range 24, [25, 26, 27, 28, 29, 30, 31], 24, runs _ _ (by decide), rfl,
    by unfold MayStop; decide, by decide, by decide, by unfold Ctx.rowIn; decide, by unfold Ctx.rowIn; decide⟩

/-- A core whose engine has a quarter of another warp of the team, which writes the team's rows 504 to 511. -/
def sMark : State := { kit w0 t0 g0 1 with cores := [(32, { Core.reset with mxq := [⟨1, 0, 0, 0, 0, 504, 0, 0, false, 0, [], []⟩] })] }

theorem witness_AccumulatorMoves_marked : ∃ (s : State) (c : Ctx) (f : Fmt) (on : Mask) (i : BitVec 8) (col : BitVec 7), on ≠ 0 ∧
    s.rowsBusy c (.mwr f col) on = true ∧ s.Executes (.mwr f col) c f on ∧ f.d = .cls3 i ∧
    ∀ l, l ∈ lanesOf on → Ctx.rowIn c (8 * i.toNat) l :=
  ⟨sMark, kc w0 t0 g0 1, fm (.cls3 63) (v 1), 1, 63, 0, by decide, by decide,
    ⟨by decide, ⟨_, rfl, Or.inr (by decide)⟩, by decide, Or.inl rfl, by decide⟩, rfl, by unfold Ctx.rowIn; decide⟩

theorem witness_AccumulatorMoves_off : ∃ (s : State) (c : Ctx) (f : Fmt) (on : Mask), on = 0 ∧ s.Executes (.mrd f 0 0) c f on :=
  ⟨_, _, fm (.vec 0) .zero .zero .zero ⟨false, 0⟩, _, by decide, runs _ _ (by decide)⟩

/-- A warp whose lane l names the last 64 bytes of the gallery but for 64 for each lane above it. -/
def wRow : Warp := { w0 with vec := (List.range 8).map fun l => (l, BitVec.ofNat 32 (0x4FFC0 - 64 * (7 - l))), uni := [(4, 0x4FF00), (5, 128)] }

def gRaw : Grid := { g0 with rec_ := { g0.rec_ with format := [] } }

def sMx : State := kit wRow t0 gRaw 0xFF
def cMx : Ctx := kc wRow t0 gRaw 0xFF

theorem runsMx (i : Instr) (f : Fmt) (h : kitOk i f wRow t0 gRaw 0xFF = true) : sMx.Executes i cMx f (cMx.on f.g) := kit_executes h

theorem witness_AccumulatorMoves_rows : ∃ (s : State) (c : Ctx) (f f' : Fmt) (on : Mask) (i : BitVec 8), on ≠ 0 ∧
    s.mxQuiet c [.gallery, .scratch] = true ∧ s.rowsBusy c (.mlda f true 7) on = false ∧
    s.rowsBusy c (.msta f' true 0 63 0) on = false ∧ c.g.rec_.gallery ≤ 393216 ∧ s.Executes (.mlda f true 7) c f on ∧
    f.d = .cls3 i ∧ s.Executes (.msta f' true 0 63 0) c f' on ∧ f'.a = f.a ∧ (c.g.rec_.slot 0).elem = 0 ∧
    (s.mxRuns c true 64 on .read (s.mxAddr c f true)).2.1 = [] ∧ Quiet s ∧ Local (s.mxRuns c true 64 on .read (s.mxAddr c f true)).1 ∧
    c.mxCheck true (8 * i.toNat) 64 on (s.mxAddr c f true) = none ∧
    ∀ l k, l ∈ lanesOf on → k ∈ lanesOf on → l ≠ k → s.mxAddr c f true l + 64 ≤ s.mxAddr c f true k ∨
      s.mxAddr c f true k + 64 ≤ s.mxAddr c f true l :=
  ⟨sMx, cMx, fm (.cls3 63) (v 0), fm (.vec 0) (v 0), 0xFF, 63, by decide, by decide, by decide, by decide, by decide,
    runsMx _ _ (by decide), rfl, runsMx _ _ (by decide), rfl, by decide, by decide, quiet _ rfl,
    (fun r x hr hx => by
      have h : ∀ r ∈ (sMx.mxRuns cMx true 64 0xFF .read (sMx.mxAddr cMx (fm (.cls3 63) (v 0)) true)).1, ∀ x ∈ r.2, x.sp ≠ .pcie := by
        decide +kernel
      exact h r hr x hx), by decide, fun l k hl hk =>
      (by decide : ∀ l, l ∈ lanesOf 0xFF → ∀ k, k ∈ lanesOf 0xFF → l ≠ k →
        sMx.mxAddr cMx (fm (.cls3 63) (v 0)) true l + 64 ≤ sMx.mxAddr cMx (fm (.cls3 63) (v 0)) true k ∨
        sMx.mxAddr cMx (fm (.cls3 63) (v 0)) true k + 64 ≤ sMx.mxAddr cMx (fm (.cls3 63) (v 0)) true l) l hl k hk⟩

/-- A row whose address is no multiple of 4. -/
theorem witness_AccumulatorMoves_stop : ∃ (s : State) (c : Ctx) (f : Fmt) (on : Mask) (x : Nat), on ≠ 0 ∧
    s.Executes (.mlda f true 0) c f on ∧ f.d = .cls3 0 ∧ MayStop s c ∧
    c.mxCheck true 0 64 on (s.mxAddr c f true) = some (.galAlign, x) :=
  ⟨_, _, fm (.cls3 0) (.uni 2), _, 255, by decide, kit_executes (w := wRag) (t := t0) (g := g0) (m := 1) (by decide), rfl,
    by unfold MayStop; decide, by decide⟩

theorem witness_AccumulatorMoves_scales : ∃ (s : State) (c : Ctx) (f : Fmt) (on : Mask), on ≠ 0 ∧
    s.mxQuiet c [.gallery, .scratch] = true ∧ c.g.rec_.gallery ≤ 393216 ∧ s.Executes (.mlds f true 8064 0) c f on ∧
    (s.src c 0 .raw f.b (lowest on)).toNat = 128 ∧ 8064 + 128 ≤ 128 * c.g.rec_.accGran ∧
    s.mxAddr c f true (lowest on) % 4 = 0 ∧ s.mxAddr c f true (lowest on) + 2 * 128 = c.g.rec_.gallery ∧
    (s.mxRuns c true 256 (laneBit (lowest on)) .read fun _ => s.mxAddr c f true (lowest on)).2.1 = [] ∧ Quiet s :=
  ⟨sMx, cMx, fm (.vec 0) (.uni 4) (.uni 5), 0xFF, by decide, by decide, by decide, runsMx _ _ (by decide), by decide, by decide,
    by decide, by decide, by decide, quiet _ rfl⟩

/-- Counts 255 and 128. -/
def wScl : Warp := { w0 with uni := [(2, 255), (3, 128)] }

theorem witness_AccumulatorMoves_scalesStop : ∃ (s : State) (c : Ctx) (f f' : Fmt) (on : Mask), on ≠ 0 ∧ MayStop s c ∧
    s.Executes (.mlds f true 8064 0) c f on ∧ (s.src c 0 .raw f.b (lowest on)).toNat % 2 = 1 ∧
    s.Executes (.mlds f' true 8065 0) c f' on ∧ (s.src c 0 .raw f'.b (lowest on)).toNat % 2 = 0 ∧
    128 * c.g.rec_.accGran < 8065 + (s.src c 0 .raw f'.b (lowest on)).toNat :=
  ⟨_, _, fm (.vec 0) (.uni 4) (.uni 2), fm (.vec 0) (.uni 4) (.uni 3), _, by decide, by unfold MayStop; decide,
    kit_executes (w := wScl) (t := t0) (g := g0) (m := 1) (by decide), by decide,
    kit_executes (w := wScl) (t := t0) (g := g0) (m := 1) (by decide), by decide, by decide⟩

theorem scratch_locate (s : State) (core : Option Nat) (gid grp a : Nat) (acc : Acc) (g : Grid) (hg : s.grid? gid = some g)
    (h : scratchWindow ≤ a) (h2 : a < 2 ^ 57) (h3 : a - scratchWindow < g.rec_.dieScratch) :
    s.locate core gid grp true a acc = (.ok ⟨.scratch, scratchKey gid grp (a - scratchWindow)⟩, s) := by
  simp only [State.locate, State.locateRaw, hg, if_neg (show ¬ 2 ^ 57 ≤ a by omega), if_pos h, Bool.true_and, decide_eq_true_eq,
    if_pos h3]
  rfl

/-- Addresses of the die-scratch window within the grid's scratch translate whatever is cached. -/
theorem scratch_translates (s : State) (c : Ctx) (acc : Acc) (l : List Nat) (g : Grid) (hg : s.grid? c.t.gid = some g)
    (h : ∀ x, x ∈ l → scratchWindow ≤ x ∧ x < 2 ^ 57 ∧ x - scratchWindow < g.rec_.dieScratch) : Translates s c acc l := by
  intro s' l' e _ hl
  have hg' : s'.grid? c.t.gid = some g := by rw [e]; exact hg
  have key : ∀ (lines : List Nat) (tab : List (Nat × Except Nat Loc)), (∀ x, x ∈ lines → ∃ a, a ∈ l' ∧ a / 128 = x) →
      (∀ x, x ∈ tab → ∃ y, x.2 = .ok y) →
      let r := lines.foldl (fun (x : List (Nat × Except Nat Loc) × State) line =>
        let first := (l'.filter (· / 128 == line)).headD 0
        let (r, s) := x.2.locate (some c.t.core) c.t.gid c.t.group true first acc
        (x.1 ++ [(line, match r with | .ok y => Except.ok { y with a := y.a - first % 128 } | .error f => .error f)], s))
        (tab, s')
      r.2 = s' ∧ (∀ x, x ∈ r.1 → ∃ y, x.2 = .ok y) ∧ r.1.map (·.1) = tab.map (·.1) ++ lines := by
    intro lines
    induction lines with
    | nil => intro tab _ ht; exact ⟨rfl, ht, (List.append_nil _).symm⟩
    | cons n lines ih =>
      intro tab hn ht
      obtain ⟨a, ha, han⟩ := hn n List.mem_cons_self
      have hf : (l'.filter (· / 128 == n)).headD 0 ∈ l' := by
        cases hq : l'.filter (· / 128 == n) with
        | nil =>
          have : a ∈ l'.filter (· / 128 == n) := List.mem_filter.mpr ⟨ha, by simp [han]⟩
          rw [hq] at this; exact absurd this (List.not_mem_nil)
        | cons b t => exact (List.mem_filter.mp (by rw [hq]; exact List.mem_cons_self : b ∈ _)).1
      obtain ⟨k1, k2, k3⟩ := h _ (hl _ hf)
      simp only [List.foldl_cons, scratch_locate s' _ _ _ _ acc g hg' k1 k2 k3]
      generalize hy : (⟨.scratch, scratchKey c.t.gid c.t.group ((l'.filter (· / 128 == n)).headD 0 - scratchWindow) -
        (l'.filter (· / 128 == n)).headD 0 % 128⟩ : Loc) = y
      obtain ⟨r1, r2, r3⟩ := ih (tab ++ [(n, Except.ok y)]) (fun x hx => hn x (List.mem_cons_of_mem _ hx)) (fun x hx => by
        rcases List.mem_append.mp hx with hx | hx
        · exact ht x hx
        · exact ⟨y, by rw [List.mem_singleton.mp hx]⟩)
      exact ⟨r1, r2, by rw [r3]; simp⟩
  have hlines : ∀ (l0 acc0 : List Nat), (∀ x, x ∈ acc0 → ∃ a, a ∈ l' ∧ a / 128 = x) → (∀ x, x ∈ l0 → x ∈ l') →
      let r := l0.foldl (fun acc a => if acc.contains (a / 128) then acc else acc ++ [a / 128]) acc0
      (∀ x, x ∈ r → ∃ a, a ∈ l' ∧ a / 128 = x) ∧ (∀ x, x ∈ acc0 → x ∈ r) ∧ ∀ x, x ∈ l0 → x / 128 ∈ r := by
    intro l0
    induction l0 with
    | nil => intro acc0 ha _; exact ⟨ha, fun _ h => h, fun _ h => absurd h (List.not_mem_nil)⟩
    | cons b l0 ih =>
      intro acc0 ha hb
      simp only [List.foldl_cons]
      have hb' : b ∈ l' := hb b List.mem_cons_self
      by_cases hc : acc0.contains (b / 128) = true
      · rw [if_pos hc]
        obtain ⟨q1, q2, q3⟩ := ih acc0 ha (fun x hx => hb x (List.mem_cons_of_mem _ hx))
        refine ⟨q1, q2, fun x hx => ?_⟩
        rcases List.mem_cons.mp hx with rfl | hx
        · exact q2 _ (List.contains_iff_mem.mp hc)
        · exact q3 x hx
      · rw [if_neg hc]
        obtain ⟨q1, q2, q3⟩ := ih (acc0 ++ [b / 128]) (fun x hx => by
          rcases List.mem_append.mp hx with hx | hx
          · exact ha x hx
          · exact ⟨b, hb', by rw [List.mem_singleton.mp hx]⟩) (fun x hx => hb x (List.mem_cons_of_mem _ hx))
        refine ⟨q1, fun x hx => q2 x (List.mem_append_left _ hx), fun x hx => ?_⟩
        rcases List.mem_cons.mp hx with rfl | hx
        · exact q2 _ (List.mem_append_right _ (List.mem_singleton.mpr rfl))
        · exact q3 x hx
  obtain ⟨g1, -, g3⟩ := hlines l' [] (fun _ h => absurd h (List.not_mem_nil)) (fun _ h => h)
  obtain ⟨-, q2, q3⟩ := key _ [] g1 (fun _ h => absurd h (List.not_mem_nil))
  intro x hx
  simp only [State.locateBytes, List.mem_map] at hx
  obtain ⟨a, ha, rfl⟩ := hx
  have hm := g3 a ha
  simp only [List.map_nil, List.nil_append] at q3
  rw [← q3] at hm
  obtain ⟨z, hz, hza⟩ := List.mem_map.mp hm
  simp only
  split
  · exact ⟨_, rfl⟩
  · rename_i f hfind
    have := q2 _ (List.mem_of_find?_eq_some hfind)
    obtain ⟨y, hy⟩ := this
    exact absurd hy (by simp)
  · rename_i hfind
    have := List.find?_eq_none.mp hfind z hz
    exact absurd (by simp [hza]) this

/-- A descriptor of B in the gallery: 32 elements of one byte, one row of bytes after another; slot 0. -/
def dMma : BitVec 128 := 0#32 ++ 0#3 ++ 1#1 ++ 1#8 ++ 64#20 ++ 1#1 ++ 0#6 ++ 0x100#57

def gMma : Grid := { gScr with rec_ := { gScr.rec_ with format := [⟨0, 1, 0, false, false⟩] } }

/-- A warp whose lanes 0 and 31 name rows at the end of the gallery. -/
def wMma : Warp :=
  { wScr with vec := [(0, 0x4FF00), (31, 0x4FFC0)], uni := [(2, 0xFFC00000), (3, 0x01FFFFFF)], tile := [(7, dMma)] }

/-- What `MatrixMultiply` asks of an `MMA` to enter the engine, but for what differs by the place of its operands. -/
structure Enters (s : State) (c : Ctx) (f : Fmt) (on : Mask) (va : Bool) (di : BitVec 8) (ti : BitVec 3) : Prop where
  runs : s.Executes (.mma f false va 0 (if va then 0 else 7) 0) c f on
  d : f.d = .cls3 di
  b : f.b = .tile ti
  some : on ≠ 0
  rows : ∀ l, l ∈ lanesOf on → Ctx.rowIn c (8 * di.toNat) l
  arg : c.mxArg on (cget c.w.tile ti.toNat) 0 0 (s.src c 0 .raw f.c (lowest on)).toNat false = none
  free : c.w.fenced 2 = false ∧ s.mxDrained c = true ∧ s.rowsBusy c (.mma f false va 0 (if va then 0 else 7) 0) on = false
  queue : c.w.sq = []
  gal : descGal (cget c.w.tile ti.toNat) = true
  run : ∀ x, x ∈ (bAddrs (cget c.w.tile ti.toNat) (elemBits (c.g.rec_.slot 0).elem) 0).flatten → x + 4 ≤ c.g.rec_.gallery

theorem witness_MatrixMultiply_enters : ∃ (s : State) (c : Ctx) (f : Fmt) (on : Mask) (di : BitVec 8) (ti : BitVec 3),
    Enters s c f on false di ti ∧ (∀ l, l ∈ lanesOf on → ((s.src c 0 .raw f.a l).toNat + 64 * 0) % 4 = 0 ∧
      (s.src c 0 .raw f.a l).toNat + 64 * 0 + 64 ≤ c.g.rec_.gallery) :=
  ⟨kit wMma t0 gMma 0x80000001, kc wMma t0 gMma 0x80000001, fm (.cls3 60) (v 0) (.tile 7) (.uni 0), 0x80000001, 60, 7,
    ⟨kit_executes (by decide), rfl, rfl, by decide, by unfold Ctx.rowIn; decide, by decide, by decide, rfl, by decide,
      by decide +kernel⟩, by decide⟩

/-- The same with A's rows in die scratch. -/
theorem witness_MatrixMultiply_global : ∃ (s : State) (c : Ctx) (f : Fmt) (on : Mask) (di : BitVec 8) (ti : BitVec 3),
    Enters s c f on true di ti ∧ (∀ l, l ∈ lanesOf on → ((s.src64 c 0 f.a l) + w64 (64 * 0)).toNat % 4 = 0) ∧
    Translates s c .read ((lanesOf on).flatMap fun l => (List.range 16).map fun i =>
      ((s.src64 c 0 f.a l) + w64 (64 * 0)).toNat + 4 * i) :=
  ⟨kit wMma t0 gMma 0x80000001, kc wMma t0 gMma 0x80000001, fm (.cls3 0) (.uni 2) (.tile 7) (.uni 0), 0x80000001, 0, 7,
    ⟨kit_executes (by decide), rfl, rfl, by decide, by unfold Ctx.rowIn; decide, by decide, by decide, rfl, by decide,
      by decide +kernel⟩, by decide, scratch_translates _ _ _ _ gMma rfl (by decide +kernel)⟩

/-- A slot that is not the descriptor's, and a granule that an earlier `MMA` has marked. -/
theorem witness_MatrixMultiply_stop : ∃ (s : State) (c : Ctx) (f : Fmt) (on : Mask) (x : Nat), s.Executes (.mma f false false 1 0 0) c f on ∧
    f.d = .cls3 0 ∧ f.b = .tile 7 ∧ on ≠ 0 ∧ (∀ l, l ∈ lanesOf on → Ctx.rowIn c 0 l) ∧ MayStop s c ∧
    c.mxArg on (cget c.w.tile 7) 1 0 (s.src c 0 .raw f.c (lowest on)).toNat false = some x :=
  ⟨kit wMma t0 gMma 1, kc wMma t0 gMma 1, fm (.cls3 0) (v 0) (.tile 7) (.uni 0), 1, 0, kit_executes (by decide), rfl, rfl, by decide,
    by unfold Ctx.rowIn; decide, by unfold MayStop; decide, by decide⟩

theorem witness_MatrixMultiply_waits : ∃ (s : State) (c : Ctx) (f : Fmt) (on : Mask), s.Executes (.mma f false false 0 0 0) c f on ∧
    f.d = .cls3 63 ∧ on ≠ 0 ∧ s.rowsBusy c (.mma f false false 0 0 0) on = true :=
  ⟨sMark, kc w0 t0 g0 1, fm (.cls3 63) (v 0) (.tile 7) (.uni 0), 1, ⟨by decide, ⟨_, rfl, Or.inr (by decide)⟩, by decide, Or.inl rfl, by decide⟩,
    rfl, by decide, by decide⟩

/-- A core whose engine has one quarter with one row, of an integer slot. -/
def eMx : MxEnt := ⟨0, 0, 3, dMma, 0, 504, 112, 0, false, 0, [(24, (List.range 16).map fun i => ⟨.gallery, 4 * i⟩)],
  (List.range 16).map fun _ => (List.range 16).map fun i => ⟨.gallery, 4 * i⟩⟩

theorem pick_one {α : Type} (s : State) (x : α) : s.pick [x] = (some x, s) := by simp [State.pick, State.choose]

theorem witness_MatrixMultiply_pass : ∃ (s : State) (core : Nat) (x : MxEnt), Quiet s ∧
    (s.core core).mxq = [] ++ x :: [] ∧
    (s.pick (((s.core core).mxq.map (·.wid)).foldl (fun l w => if l.contains w then l else l ++ [w]) [])).1 = some x.wid ∧
    ∀ y, y ∈ passOf x (s.core core).mxq [] 4 → y.col0 + 16 ≤ 128 ∧ (y.acc16 = true → y.col0 + 16 + descTot y.desc ≤ 128) :=
  ⟨sCore { Core.reset with mxq := [eMx] } w0, 32, eMx, fun l => by
    simp [State.holders, sCore, Core.isUpd, Core.reset, tget], rfl, congrArg Prod.fst (pick_one _ 0), by decide⟩

theorem witness_MatrixMultiply_sums : ∃ (s : State) (core : Nat) (x : MxEnt) (tm : Team) (g : Grid) (lane n : Nat) (ls : List Loc),
    Quiet s ∧ (s.core core).mxq = [x] ∧ s.team? x.tid = some tm ∧ s.grid? tm.gid = some g ∧ x.acc16 = false ∧
    6 ≤ (g.rec_.slot x.slot).elem ∧ x.col0 + 16 = 128 ∧ n = 15 ∧ (x.rows.map (·.1)).Nodup ∧ (lane, ls) ∈ x.rows ∧
    (∀ r l y, (r ∈ x.rows ∧ l = r.2 ∨ l ∈ x.bWords) → y ∈ l → y.sp ≠ .pcie) :=
  ⟨{ sCore { Core.reset with mxq := [eMx] } w0 with grids := [(1, { g0 with rec_ := { g0.rec_ with format := [⟨0, 6, 0, false, false⟩] } })] },
    32, eMx, t0, _, 24, 15, _, fun l => by
    simp [State.holders, sCore, Core.isUpd, Core.reset, tget], rfl, rfl, rfl, rfl, by decide, rfl, rfl, by decide, List.mem_singleton.mpr rfl,
    fun r l y h hy => by
      rcases h with ⟨h, rfl⟩ | h
      · rw [List.mem_singleton.mp h] at hy
        simp only [List.mem_map] at hy
        obtain ⟨_, _, rfl⟩ := hy; intro h; cases h
      · simp only [eMx, List.mem_map] at h
        obtain ⟨_, _, rfl⟩ := h
        simp only [List.mem_map] at hy
        obtain ⟨_, _, rfl⟩ := hy; intro h; cases h⟩

/-! ## Witnesses: rendering -/

theorem witness_RenderOperations_bound : ∃ (s : State) (c : Ctx) (f : Fmt) (on : Mask) (fr : Frame), s.Executes (.bndp f) c f on ∧ on ≠ 0 ∧
    c.g.frame = some fr ∧ c.w.fenced 4 = false ∧ (∀ l, l ∈ lanesOf on → (s.src64 c 0 f.a l).toNat % 128 = 0) ∧
    Translates s c .read ((lanesOf on).flatMap fun l => (List.range 4).map fun i => (s.src64 c 0 f.a l).toNat + 128 * i) :=
  ⟨kit wScr t0 { gScr with frame := some fr0 } 1, kc wScr t0 { gScr with frame := some fr0 } 1, fm (.vec 252) (.uni 2), 1, fr0,
    kit_executes (by decide), by decide, rfl, by decide, by decide,
    scratch_translates _ _ _ _ { gScr with frame := some fr0 } rfl (by decide +kernel)⟩

theorem witness_RenderOperations_waits : ∃ (s : State) (c : Ctx) (f : Fmt) (on : Mask), s.Executes (.bndp f) c f on ∧ on ≠ 0 ∧
    c.g.frame.isSome = true ∧ c.w.fenced 4 = true ∧ ∀ l, l ∈ lanesOf on → (s.src64 c 0 f.a l).toNat % 128 = 0 :=
  ⟨_, _, fm (.vec 252) (.uni 2), _,
    kit_executes (w := { wScr with pend := [Pend.new (.fence false false 4) 0 1 (.vec 0) 0 0] }) (t := t0) (g := gFr) (m := 1)
      (by decide), by decide, rfl, by decide, by decide⟩

theorem witness_RenderOperations_stop : ∃ (s : State) (c : Ctx) (f f' : Fmt) (on : Mask), s.Executes (.bndp f) c f on ∧ on ≠ 0 ∧
    (∀ l, l ∈ lanesOf on → (s.src64 c 0 f.a l).toNat % 128 = 0) ∧ c.g.frame = none ∧ MayStop s c ∧
    s.Executes (.bndp f') c f' on ∧ lanesOf on = [] ++ 0 :: [] ∧ ¬(s.src64 c 0 f'.a 0).toNat % 128 = 0 :=
  ⟨_, _, fm (.vec 252) (.uni 4), fm (.vec 252) (.uni 2), _, kit_executes (w := wRag) (t := t0) (g := g0) (m := 1) (by decide),
    by decide, by decide, rfl, by unfold MayStop; decide, kit_executes (w := wRag) (t := t0) (g := g0) (m := 1) (by decide), by decide,
    by decide⟩

theorem witness_RenderOperations_off : ∃ (s : State) (c : Ctx) (f : Fmt) (on : Mask), on = 0 ∧ s.Executes (.rslv f true 0) c f on :=
  ⟨_, _, fm (.vec 0) .zero .zero .zero ⟨false, 0⟩, _, by decide, runs _ _ (by decide)⟩

/-- A warp in a hall whose grid 127 is diced, with offsets of the result word. -/
def wDice : Warp := { w0 with uni := [(1, 0x535000), (2, 0x5FFFFC), (3, 0x534FFC), (4, 0x5FFFFD)] }

def sHall (o b : Nat) : State :=
  { kit wDice tHall gFr 1 with dies := [(1, { Die.reset with halls := [(3, { Hall.reset with holder := some 0, cells := [(o, BitVec.ofNat 8 b)] })] })] }

def cHall : Ctx := kc wDice tHall gFr 1

theorem runsHall (o b : Nat) (i : Instr) (f : Fmt) (hs : i.shape = some (f, sh)) (hon : (shapeRidx cHall.g.rec_ sh f).isNone = true)
    (hg : f.g = .always) (hst : f.stairs = []) (hr : (sHall o b).stairsReady cHall f 1 = true) :
    (sHall o b).Executes i cHall f 1 :=
  ⟨rfl, ⟨_, hs, Or.inr (by simpa using hon)⟩, by rw [hg]; decide, Or.inl hst, hr⟩

theorem witness_RenderOperations_dice : ∀ f, f = fm (.vec 0) (.uni 1) ∨ f = fm (.vec 0) (.uni 2) → ∃ (s : State) (c : Ctx) (on : Mask)
    (tag : BitVec 6) (h : Nat), on ≠ 0 ∧ s.Executes (.dice f tag) c f on ∧ c.t.hall = some h ∧ c.t.tagCount tag.toNat ≠ 63 ∧
    c.w.fenced 4 = false ∧ s.uni c on f.a false % 4 = 0 ∧ 0x535000 ≤ s.uni c on f.a false ∧ s.uni c on f.a false ≤ 0x5FFFFC := by
  intro f h
  rcases h with rfl | rfl <;>
    exact ⟨sHall 0 0, cHall, 1, 63, 3, by decide, runsHall 0 0 _ _ rfl (by decide) rfl rfl (by decide), rfl, by decide, by decide,
      by decide, by decide, by decide⟩

theorem witness_RenderOperations_diceRange : ∀ f, f = fm (.vec 0) (.uni 3) ∨ f = fm (.vec 0) (.uni 4) → ∃ (s : State) (c : Ctx) (on : Mask)
    (h : Nat), on ≠ 0 ∧ s.Executes (.dice f 0) c f on ∧ MayStop s c ∧ c.t.hall = some h ∧
    (s.uni c on f.a false % 4 ≠ 0 ∨ s.uni c on f.a false < 0x535000 ∨ 0x5FFFFC < s.uni c on f.a false) := by
  intro f h
  rcases h with rfl | rfl <;>
    exact ⟨sHall 0 0, cHall, 1, 3, by decide, runsHall 0 0 _ _ rfl (by decide) rfl rfl (by decide), by unfold MayStop; decide, rfl,
      by decide⟩

theorem witness_RenderOperations_rast : ∃ (s : State) (c : Ctx) (f : Fmt) (on : Mask) (tag : BitVec 6) (h : Nat) (g : BitVec 7), on ≠ 0 ∧
    s.Executes (.rast f g tag) c f on ∧ c.t.hall = some h ∧ c.t.tagCount tag.toNat ≠ 63 ∧ c.w.fenced 4 = false ∧
    (s.hall (socketOf c.t.core) h).byte (0x602 + 64 * g.toNat) = 1 :=
  ⟨sHall (0x602 + 64 * 127) 1, cHall, fm (.vec 0), 1, 0, 3, 127, by decide, runsHall _ 1 _ _ rfl (by decide) rfl rfl (by decide), rfl,
    by decide, by decide, by decide⟩

theorem witness_RenderOperations_rastGrid : ∃ (s : State) (c : Ctx) (f : Fmt) (on : Mask) (h : Nat) (g : BitVec 7), on ≠ 0 ∧
    s.Executes (.rast f g 0) c f on ∧ MayStop s c ∧ c.t.hall = some h ∧
    (s.hall (socketOf c.t.core) h).byte (0x602 + 64 * g.toNat) = 2 :=
  ⟨sHall 0x602 2, cHall, fm (.vec 0), 1, 3, 0, by decide, runsHall _ 2 _ _ rfl (by decide) rfl rfl (by decide),
    by unfold MayStop; decide, rfl, by decide⟩

theorem witness_RenderOperations_rslv : ∃ (s : State) (c : Ctx) (f : Fmt) (on : Mask) (h : Nat), on ≠ 0 ∧ s.Executes (.rslv f true 9) c f on ∧
    c.t.hall = some h ∧ c.t.tagCount 9 ≠ 63 ∧ c.w.fenced 4 = false :=
  ⟨sHall 0 0, cHall, fm (.vec 0), 1, 3, by decide, runsHall _ _ _ _ rfl (by decide) rfl rfl (by decide), rfl, by decide, by decide⟩

theorem witness_RenderOperations_noHall : ∃ (s : State) (c : Ctx) (f : Fmt) (on : Mask), on ≠ 0 ∧ s.Executes (.rslv f false 0) c f on ∧
    s.Executes (.rast f 0 0) c f on ∧ MayStop s c ∧ c.t.hall = none :=
  ⟨_, _, fm (.vec 0), _, by decide, runs _ _ (by decide), runs _ _ (by decide), by unfold MayStop; decide, rfl⟩

/-- A rasterisation of a grid of 2 by 3 vertices whose two micropolygons are done. -/
def oRast : AsyncOp := ⟨3, 1, 0, 0, 1, 0x300000, 63, .rast 127, 2, 3, 0, false, false, false⟩

def hRast : Hall :=
  { Hall.reset with holder := some 0, cells := [(0x600 + 64 * 127, 2), (0x601 + 64 * 127, 3), (0x602 + 64 * 127, 2)] }

def sRast : State :=
  { kit w0 { tTag with hall := some 3 } gFr 1 with
    ops := [oRast],
    dies := [(1, { Die.reset with halls := [(3, hRast)] })] }

theorem witness_RenderOperations_done : ∃ (s : State) (o : AsyncOp) (tm : Team) (g : Grid) (fr : Frame) (k : Nat),
    s.ops.find? (·.id == o.id) = some o ∧
    s.team? o.tid = some tm ∧ s.grid? o.gid = some g ∧ g.frame = some fr ∧ o.kind = .rast k ∧ o.suspended = false ∧
    s.hallTurn o = true ∧ s.opMayStart o [.hall] = true ∧ o.tag < 64 ∧ 0 < tm.tagCount o.tag ∧
    ((s.hall (socketOf tm.core) o.hall).n (0x600 + 64 * k) 1 - 1) * ((s.hall (socketOf tm.core) o.hall).n (0x601 + 64 * k) 1 - 1) =
      o.done := ⟨sRast, oRast, _, gFr, fr0, 127, rfl, rfl, rfl, rfl, rfl, rfl, by decide, by decide, by decide, by decide, by decide⟩

/-- The same with an earlier `DICE` of the hall that has not completed. -/
theorem witness_RenderOperations_turn : ∃ (s : State) (o : AsyncOp) (tm : Team) (g : Grid) (fr : Frame) (k : Nat),
    s.ops.find? (·.id == o.id) = some o ∧
    s.team? o.tid = some tm ∧ s.grid? o.gid = some g ∧ g.frame = some fr ∧ o.kind = .rast k ∧ s.hallTurn o = false :=
  ⟨{ sRast with ops := [{ oRast with id := 2, kind := .rast 126 }, oRast] }, oRast, _, gFr, fr0, 127, rfl, rfl, rfl, rfl, rfl, by decide⟩

theorem witness_SamplePatterns_write : ∃ (s : State) (c : Ctx) (f : Fmt) (on : Mask) (e0 : BitVec 6) (h : Nat) (n : Bool) (a : BitVec 8),
    on ≠ 0 ∧ c.t.hall = some h ∧ (∀ l, l ∈ lanesOf on → e0.toNat + l ≤ 63) ∧ s.Executes (.smplWr f e0) c f on ∧
    f.a = .vec n a ∧ s.hallBusy c.w.tid h = false ∧ c.w.pend = [] :=
  ⟨_, _, fm (.vec 0) (v 252), _, 32, 3, false, 252, by decide, rfl, by decide,
    kit_executes (w := w0) (t := tHall) (g := g0) (m := 0xFFFFFFFF) (by decide), rfl, by decide, rfl⟩

theorem witness_SamplePatterns_waits : ∃ (s : State) (c : Ctx) (f : Fmt) (on : Mask) (h : Nat) (n : Bool) (a : BitVec 8), on ≠ 0 ∧
    c.t.hall = some h ∧ s.hallBusy c.w.tid h = true ∧ s.Executes (.smplWr f 0) c f on ∧ f.a = .vec n a :=
  ⟨sRast, kc w0 { tTag with hall := some 3 } gFr 1, fm (.vec 0) (v 252), 1, 3, false, 252, by decide, rfl, by decide,
    ⟨by decide, ⟨_, rfl, Or.inr (by decide)⟩, by decide, Or.inl rfl, by decide⟩, rfl⟩

/-- Lane 31 names entry 64. -/
theorem witness_SamplePatterns_stop : ∃ (s : State) (c : Ctx) (f : Fmt) (on : Mask) (pre post : List Nat) (l : Nat),
    s.Executes (.smplRd f 33) c f on ∧ c.t.hall.isSome = true ∧ lanesOf on = pre ++ l :: post ∧
    (∀ k, k ∈ pre → (33#6).toNat + k ≤ 63) ∧ ¬(33#6).toNat + l ≤ 63 ∧ MayStop s c :=
  ⟨_, _, fm (.vec 252), _, List.range 31, [], 31, kit_executes (w := w0) (t := tHall) (g := g0) (m := 0xFFFFFFFF) (by decide), rfl,
    by decide, by decide, by decide, by unfold MayStop; decide⟩

theorem witness_SamplePatterns_none : ∃ (s : State) (c : Ctx) (f : Fmt) (on : Mask), on ≠ 0 ∧ s.Executes (.smplRd f 33) c f on ∧
    c.t.hall = none ∧ MayStop s c := ⟨_, _, fm (.vec 252), _, by decide, runs _ _ (by decide), rfl, by unfold MayStop; decide⟩

theorem witness_SamplePatterns_read : ∃ (s : State) (c : Ctx) (f : Fmt) (on : Mask) (e0 : BitVec 6) (h : Nat), on ≠ 0 ∧
    c.t.hall = some h ∧ (∀ l, l ∈ lanesOf on → e0.toNat + l ≤ 63) ∧ s.Executes (.smplRd f e0) c f on :=
  ⟨_, _, fm (.vec 252), _, 63, 3, by decide, rfl, by decide,
    kit_executes (w := w0) (t := tHall) (g := g0) (m := 1) (by decide)⟩

/-- A dice operation whose list table lies where no memory is. -/
def oDice : AsyncOp := { oRast with kind := .dice 0x535000, done := 0 }

def sDice : State :=
  { kit w0 { tTag with hall := some 3 } gFr 1 with
    ops := [oDice], dies := [(1, { Die.reset with halls := [(3, { Hall.reset with holder := some 0, cells := [] })] })] }

/-- What a step on a hall ends in, where it faults. -/
def faultOf : RStep → Option (Nat × Nat × Nat × State)
  | .fault k a ft s => some (k, a, ft, s)
  | _ => none

theorem witness_SamplePatterns_fault : ∃ (s s1 : State) (o : AsyncOp) (c : Ctx) (kind va ft : Nat), s.ops.find? (·.id == o.id) = some o ∧
    s.renderStep o = .fault kind va ft s1 ∧ s1.ctxOf o.wid o.lanes = some c ∧ s1.grid? o.gid = some c.g := by
  have h : ((faultOf (sDice.renderStep oDice)).bind fun x => (x.2.2.2.ctxOf oDice.wid oDice.lanes).bind fun c =>
      if x.2.2.2.grid? oDice.gid = some c.g then some (x, c) else none).isSome = true := by decide +kernel
  cases hr : sDice.renderStep oDice with
  | fault k a ft s1 =>
    rw [hr] at h
    cases hc : s1.ctxOf oDice.wid oDice.lanes with
    | none => simp only [faultOf, Option.bind, hc] at h; exact absurd h (by decide)
    | some c =>
      simp only [faultOf, Option.bind, hc] at h
      exact ⟨sDice, s1, oDice, c, k, a, ft, rfl, hr, hc, Decidable.byContradiction fun hg => by
        rw [if_neg hg] at h; exact absurd h (by decide)⟩
  | _ => rw [hr] at h; exact absurd h (by simp [faultOf])

/-! ## Witnesses: rays and shaders -/

/-- A warp whose rays are no rays; u2 holds the address of a scene record on the page. -/
def wTr : Warp := { w0 with vec := (List.range 8).map (fun i => ((248 + i) * 32, 0x7FC00000)), uni := [(2, 0x2000000)] }

def fTr : Fmt := fm (.vec 7) (v 248) (.uni 2) (.uni 0)

/-- Lane 0 of that warp, with a scene record of the bytes given. -/
def sTr (low : List Host.Cell) : State := onPage (kit wTr t0 g0 1) low
def cTr : Ctx := kc wTr t0 g0 1
def bsTr (low : List Host.Cell) : List Byte := (List.range 32).map fun i => memByte (low ++ cellsPage) i

/-- The state after the record has been read. -/
def sTr1 (low : List Host.Cell) : State :=
  let s := (sTr low).cacheTlb none 0 0x2000000
  s.modDie 1 fun d => { d with nodeCache := csetAll d.nodeCache (((List.range 32).zip (bsTr low)).map fun y => (y.1, 1#1 ++ y.2)) }

theorem bare_onPage (s : State) (low : List Host.Cell) (h : s.poison = []) (h2 : s.outOfService = []) (h3 : s.tlb = [])
    (h4 : s.walkCache = []) (h5 : s.cores = []) : Bare (onPage s low) := ⟨rfl, h, h2, h3, h4, h5⟩

theorem cacheTlb_none (s : State) (asid va : Nat) : s.cacheTlb none asid va =
    { s with tlb := (s.cacheTlb none asid va).tlb, walkCache := (s.cacheTlb none asid va).walkCache } := by
  unfold State.cacheTlb
  split <;> rfl

theorem sTr_read (low : List Host.Cell) (hw : walks (sTr low) 0x2000000 = true) :
    (sTr low).rayRead 1 1 0x2000000 32 = (.ok (bsTr low), sTr1 low) := by
  have e := locate_page (sTr low) (bare_onPage _ _ rfl rfl rfl rfl rfl) none g0 rfl rfl 1 0x2000000 false .read (by decide) hw
  have hc : ((sTr low).cacheTlb none 0 0x2000000).recall none 0 = (sTr low).cacheTlb none 0 0x2000000 :=
    recall_none _ (by rw [cacheTlb_none]; rfl) _ _
  have h1 : 0x2000000 % 2 ^ 14 = 0 := rfl
  have h0 : (⟨.mem, 0⟩ : Loc).line = 0 := rfl
  have hn : (((sTr low).cacheTlb none 0 0x2000000).die 1).nodeCache = [] := by rw [cacheTlb_none]; rfl
  have hb : ∀ a, ((sTr low).cacheTlb none 0 0x2000000).byte a = (sTr low).byte a := fun a => by rw [cacheTlb_none]; rfl
  have hl : ((sTr low).cacheTlb none 0 0x2000000).locBytes ⟨.mem, 0⟩ 32 = bsTr low := by
    simp only [State.locBytes, Nat.zero_add, State.locByte, hb]; rfl
  have ho : ((List.range 32).map fun i =>
      if (cget ([] : Cells 9) i).getLsbD 8 = true then BitVec.setWidth 8 (cget ([] : Cells 9) i)
      else ((sTr low).cacheTlb none 0 0x2000000).byte i) = bsTr low := by simp only [hb]; rfl
  simp only [State.rayRead, e, h1, h0, hc, Nat.zero_add, hn, hl, ho, if_true]
  rfl

/-- What `TracesStart` asks before the scene record is read. -/
structure Aims (s : State) (c : Ctx) (f : Fmt) (on : Mask) (mode : TraceMode) (mask : Byte) (a : BitVec 8) : Prop where
  runs : s.Executes (.trace f mode mask 0 63) c f on
  on_ : on ≠ 0
  ray : f.a = .vec false a
  pay : (s.src c 0 .raw f.c (lowest on)).toNat = 0
  regs : a.toNat + 7 < c.g.rec_.vec
  free : c.w.fenced 5 = false ∧ s.handOff c = some none ∧ c.t.commit = []
  quiet : Quiet s
  goes : (lanesOf on).filter (fun l => !((lanesOf on).filter fun l => c.g.rec_.traceDepth < s.traceDepth c l).contains l) = [0]
  at_ : (s.src64 c 0 f.b (lowest on)).toNat = 0x2000000

theorem aims (low : List Host.Cell) (mode : TraceMode) (mask : Byte) :
    Aims (sTr low) cTr fTr 1 mode mask 248 :=
  ⟨⟨rfl, ⟨_, rfl, Or.inr (by decide)⟩, by decide, Or.inl rfl, rfl⟩, by decide, rfl, by rfl, by decide, ⟨by rfl, by rfl, rfl⟩,
    Sys2Proof.Tests.quiet _ rfl, by rfl, by rfl⟩

theorem witness_TracesStart_start : ∃ (s s1 : State) (c : Ctx) (f : Fmt) (on : Mask) (a : BitVec 8) (bs : List Byte),
    Aims s c f on .all 0xFF a ∧ s.rayRead c.t.gid (socketOf c.t.core) 0x2000000 32 = (.ok bs, s1) ∧ sceneBad bs = false ∧
    63 < field bs 16 4 ∧
    (let os := (courses s1 ([0].map (s1.newTrace c f.d a.toNat .all 255 0 63 bs 0 0))).1
     (∀ x, x ∈ os → ∀ e u, x.2.2 ≠ .err e u) ∧ (os.map (·.1)).Nodup) :=
  ⟨sTr [(16, 64)], sTr1 [(16, 64)], cTr, fTr, 1, 248, bsTr [(16, 64)], aims _ _ _, sTr_read _ (by decide +kernel), by decide +kernel,
    by decide +kernel, by
      have h : ((courses (sTr1 [(16, 64)]) ([0].map ((sTr1 [(16, 64)]).newTrace cTr (.vec 7) 248 .all 255 0 63 (bsTr [(16, 64)]) 0 0))).1.all
        fun o => match o.2.2 with | .err _ _ => false | _ => true) = true := by decide +kernel
      refine ⟨fun o ho e u hc => ?_, by decide +kernel⟩
      have := List.all_eq_true.mp h o ho
      rw [hc] at this; exact Bool.noConfusion this⟩

/-- A scene record with a byte that must be 0, and one without an entry for `MISS`. -/
theorem witness_TracesStart_bad : ∃ (s s1 : State) (c : Ctx) (f : Fmt) (on : Mask) (a : BitVec 8) (bs : List Byte),
    Aims s c f on .near 0 a ∧ s.rayRead c.t.gid (socketOf c.t.core) 0x2000000 32 = (.ok bs, s1) ∧ sceneBad bs = true ∧ MayStop s c :=
  ⟨sTr [(20, 1)], sTr1 [(20, 1)], cTr, fTr, 1, 248, bsTr [(20, 1)], aims _ _ _, sTr_read _ (by decide +kernel), by decide +kernel,
    by unfold MayStop; decide⟩

theorem witness_TracesStart_miss : ∃ (s s1 : State) (c : Ctx) (f : Fmt) (on : Mask) (a : BitVec 8) (bs : List Byte),
    Aims s c f on .near 0 a ∧ s.rayRead c.t.gid (socketOf c.t.core) 0x2000000 32 = (.ok bs, s1) ∧ sceneBad bs = false ∧
    ¬63 < field bs 16 4 ∧ MayStop s c :=
  ⟨sTr [(16, 63)], sTr1 [(16, 63)], cTr, fTr, 1, 248, bsTr [(16, 63)], aims _ _ _, sTr_read _ (by decide +kernel), by decide +kernel,
    by decide +kernel, by unfold MayStop; decide⟩

/-- A lane beyond the trace depth; registers and sizes out of range; and a warp with an entry in its store queue. -/
theorem witness_TracesStart_deep : ∃ (s : State) (c : Ctx) (f : Fmt) (on : Mask), s.Executes (.trace f .any 0 0 0) c f on ∧
    on ≠ 0 ∧ f.a = .vec false 248 ∧ (s.src c 0 .raw f.c (lowest on)).toNat = 0 ∧ c.w.fenced 5 = false ∧ s.handOff c = some none ∧
    c.t.commit = [] ∧ ∀ l, l ∈ lanesOf on → c.g.rec_.traceDepth < s.traceDepth c l :=
  ⟨_, _, fTr, _, kit_executes (w := wTr) (t := t0) (g := { g0 with rec_ := { g0.rec_ with traceDepth := 0 } }) (m := 1) (by decide),
    by decide, rfl, by decide, by decide, by decide, rfl, by decide⟩

theorem witness_TracesStart_stops : ∃ (s : State) (c : Ctx) (f f' : Fmt) (on : Mask), on ≠ 0 ∧ MayStop s c ∧
    s.Executes (.trace f .any 0 0 0) c f on ∧ f.a = .vec false 249 ∧ ¬249 + 7 + 0 < c.g.rec_.vec ∧
    s.Executes (.trace f' .any 0 63 0) c f' on ∧ f'.a = .vec false 180 ∧ 180 + 7 + 63 < c.g.rec_.vec ∧
    c.g.rec_.payloadRegs < 63 :=
  ⟨_, _, fm (.vec 7) (v 249) (.uni 2) (.uni 0), fm (.vec 7) (v 180) (.uni 2) (.uni 0), _, by decide, by unfold MayStop; decide,
    kit_executes (w := wTr) (t := t0) (g := g0) (m := 1) (by decide), rfl, by decide,
    kit_executes (w := wTr) (t := t0) (g := g0) (m := 1) (by decide), rfl, by decide, by decide⟩

theorem witness_TracesStart_waits : ∃ (s : State) (c : Ctx) (f : Fmt) (on : Mask), on ≠ 0 ∧ s.Executes (.trace f .any 0 0 0) c f on ∧
    f.a = .vec false 248 ∧ 248 + 7 + 0 < c.g.rec_.vec ∧ (s.src c 0 .raw f.c (lowest on)).toNat = 0 ∧ s.handOff c = none :=
  ⟨_, _, fTr, _, by decide, kit_executes (w := wBusy) (t := t0) (g := g0) (m := 1) (by decide), rfl, by decide, by decide, by decide⟩

/-- A trace of lane 31 that has finished with status 1. -/
def tr0 : Trace := ⟨1, 0, 31, 1, 1, .all, 0, [], 0, 0, 0, 0, 0, [7], 255, 0x4FFF0 - 31 * 16, 16, List.replicate 16 9, .finished 1, 0,
  none, 0, none, false, 4, 0, .vec 254, 0x80000000⟩

def wRet : Warp :=
  { w0 with pend := [{ Pend.new (.trace 255 1) 0 0x80000000 (.vec 254) 5 0 with seq := 4 }], nextSeq := 5,
            waits := [(31, .trace 4)], hitRec := [(31, ⟨1, 2, 3, 4, 5, 6, 7⟩)], rayInfo := [(0, ⟨1, 2, 3, 4, 5, 6⟩)] }

theorem witness_Shaders_return : ∃ (s : State) (id st : Nat) (tr : Trace) (w : Warp) (tm : Team) (p : Pend) (d : BitVec 8),
    tget s.traces id = some tr ∧ tr.st = .finished st ∧ s.warp? tr.wid = some w ∧ s.team? (tr.wid / 32) = some tm ∧
    (s.traces.map (·.1)).Nodup ∧ (w.waits.map (·.1)).Nodup ∧ tr.parked = false ∧ w.pend = [] ++ p :: [] ∧ p.seq = tr.pend ∧
    p.dst = .vec d ∧ ((s.tracesOf tr.wid tr.pend).map (·.2.lane)).Nodup ∧ (∀ x, x ∈ s.tracesOf tr.wid tr.pend → x.2.status ≠ none ∧
      x.2.lane < 32 ∧ x.2.galBase = tr.galBase ∧ x.2.galBytes = tr.galBytes) ∧ s.tracesOf tr.wid tr.pend ≠ [] ∧
    NoLoopEndAt w (maskOf ((w.waits.filter fun x => x.2 == .trace tr.pend).map (·.1))) :=
  ⟨{ kit wRet t0 g0 1 with traces := [(9, tr0)] }, 9, 1, tr0, wRet, t0, _, 254, rfl, rfl, rfl, rfl, by decide, by decide, rfl, rfl,
    by decide, rfl, by decide, by decide, by decide, noLoopAt _ _ rfl⟩

theorem witness_Shaders_waits : ∃ (s : State) (id st : Nat) (tr : Trace) (w : Warp) (tm : Team),
    tget s.traces id = some tr ∧ tr.st = .finished st ∧ s.warp? tr.wid = some w ∧ s.team? (tr.wid / 32) = some tm ∧
    (s.traces.map (·.1)).Nodup ∧ (w.waits.map (·.1)).Nodup ∧ tr.parked = false ∧
    ∃ x, x ∈ s.tracesOf tr.wid tr.pend ∧ x.2.status = none :=
  ⟨{ kit wRet t0 g0 1 with traces := [(9, tr0), (10, { tr0 with lane := 30, st := .traverse })] }, 9, 1, tr0, wRet, t0, rfl, rfl, rfl,
    rfl, by decide, by decide, rfl, (10, { tr0 with lane := 30, st := .traverse }), by decide, rfl⟩

theorem witness_Shaders_bad : ∃ (s : State) (id a : Nat) (tr : Trace) (w : Warp) (c : Ctx),
    tget s.traces id = some tr ∧ tr.st = .bad a ∧ s.warp? tr.wid = some w ∧ tr.parked = false ∧
    s.ctxOf tr.wid (maskOf ((w.waits.filter fun x => x.2 == .trace tr.pend).map (·.1))) = some c ∧
    MayStop s { c with w := { c.w with pend := c.w.pend.filter (·.seq != tr.pend)
                                       waits := c.w.waits.filter (·.2 != .trace tr.pend) } } :=
  ⟨{ kit wRet t0 g0 1 with traces := [(9, { tr0 with st := .bad 64 })] }, 9, 64, { tr0 with st := .bad 64 }, wRet,
    kc wRet t0 g0 0x80000000, rfl, rfl, rfl, rfl, by rfl, by unfold MayStop; decide⟩

/-- Die 1 with a bin of some invocations. -/
def binOf (n : Nat) : ShBin := ⟨1, 384, (List.range n).map fun i => (i, n - i, 5)⟩

def sBin (n ns : Nat) : State :=
  { kit w0 t0 g0 1 with ns := ns, dies := [(1, { Die.reset with trained := true, inService := true, bins := [binOf n] })] }

/-- The greatest trace depth of a bin's invocations. -/
def binDepth (s : State) (b : ShBin) : Nat := ((b.invs.filterMap fun x => tget s.traces x.1).map (·.depth)).foldl max 0

theorem witness_Shaders_bin : ∃ (s s1 : State) (die e : Nat) (b : ShBin) (g : Grid),
    s.pick ((s.die die).bins.filter fun b => b.entry == e && (32 ≤ b.invs.length || !s.traversing b.gid die)) = (some b, s1) ∧
    s.grid? b.gid = some g ∧ b.invs ≠ [] ∧ s.singleCores b.gid g 32 (binDepth s b) ≠ [] ∧ b.invs.length = 32 := by
  refine ⟨sBin 32 5, sBin 32 5, 1, 384, binOf 32, g0, ?_, rfl, by decide, by decide +kernel, by decide⟩
  rw [show ((sBin 32 5).die 1).bins.filter (fun b => b.entry == 384 && (32 ≤ b.invs.length || !(sBin 32 5).traversing b.gid 1)) =
    [binOf 32] from by rfl]
  exact pick_one _ _

theorem witness_Shaders_timer : ∃ (s s1 : State) (die e : Nat) (b : ShBin) (g : Grid),
    s.pick ((s.die die).bins.filter fun b => b.entry == e && match b.invs.head? with | some x => x.2.2 + 1000 ≤ s.ns | none => false)
      = (some b, s1) ∧ s.grid? b.gid = some g ∧ b.invs ≠ [] ∧ s.singleCores b.gid g 32 (binDepth s b) ≠ [] ∧
    ∃ x, b.invs.head? = some x ∧ x.2.2 + 1000 = s.ns := by
  refine ⟨sBin 1 1005, sBin 1 1005, 1, 384, binOf 1, g0, ?_, rfl, by decide, by decide +kernel, _, rfl, by decide⟩
  rw [show ((sBin 1 1005).die 1).bins.filter (fun b => b.entry == 384 && match b.invs.head? with
    | some x => x.2.2 + 1000 ≤ (sBin 1 1005).ns | none => false) = [binOf 1] from by rfl]
  exact pick_one _ _

theorem witness_Shaders_query : ∀ n : BitVec 3, n = 0 ∨ n = 5 ∨ n = 7 → ∃ (s : State) (c : Ctx) (f : Fmt) (on : Mask),
    s.Executes (.trhit f n) c f on := by
  intro n h
  rcases h with rfl | rfl | rfl <;>
    exact ⟨_, _, fm (.vec 1), _, kit_executes (i := .trhit _ _) (w := wRet) (t := t0) (g := g0) (m := 0xFFFFFFFF) (by decide)⟩

theorem witness_Shaders_ray : ∀ n : BitVec 3, n = 0 ∨ n = 4 ∨ n = 5 → ∃ (s : State) (c : Ctx) (f : Fmt) (on : Mask),
    s.Executes (.trqry f n) c f on := by
  intro n h
  rcases h with rfl | rfl | rfl <;>
    exact ⟨_, _, fm (.vec 1), _, kit_executes (i := .trqry _ _) (w := wRet) (t := t0) (g := g0) (m := 0xFFFFFFFF) (by decide)⟩

/-! ## Witnesses: partitions -/

def nopWord : IWord := 0x00#7 ++ 0#5 ++ 0#5 ++ 0#11 ++ blank ++ blank ++ blank ++ 7#4 ++ 0#8 ++ 0#20

/-- The sets of partition 0 of core 0 of die 1, with warps that stand at a `NOP`. -/
def sSet (p : Partition) (ws : Tbl Warp) (now ns : Nat) : State :=
  { State.reset.placeWord nopWord with parts := [(128, p)], warps := ws, teams := [(0, t0), (1, t0)], now := now, ns := ns }

def wPend : Warp := { w0 with residence := .pending }
def wOut : Warp := { w0 with residence := .nonResident }
/-- A warp all of whose lanes are parked: nothing of it can issue. -/
def wPark : Warp := { wPend with parked := 0xFFFFFFFF }

/-- Eight active warps; warp 32, pending, is ready. -/
def pEight : Partition := { Partition.reset with active := [0, 4, 8, 12, 16, 20, 24, 28], pending := [32] }
def eight (w : Warp) : Tbl Warp := ([0, 4, 8, 12, 16, 20, 24].map fun k => (k, w0)) ++ [(28, w), (32, wPend)]

theorem witness_WarpSets_fill : ∃ (s : State) (part x : Nat), (s.part part).active.length < 8 ∧ s.oldestReady part = some x :=
  ⟨sSet { pEight with active := [0, 4, 8, 12, 16, 20, 24] } (eight w0) 1 0, 128, 32, by decide, by decide +kernel⟩

theorem witness_WarpSets_fillStalled : ∃ (s : State) (part x : Nat), (s.part part).active.length < 8 ∧ s.oldestReady part = none ∧
    (s.part part).pending.head? = some x :=
  ⟨sSet { pEight with active := [] } [(32, wPark)] 1 0, 128, 32, by decide, by decide +kernel, rfl⟩

theorem witness_WarpSets_stalled : ∃ (s : State) (part x y : Nat), 8 ≤ (s.part part).active.length ∧ s.oldestReady part = some x ∧
    y ∈ (s.part part).active ∧ y ≠ x ∧ s.stalled y = true :=
  ⟨sSet pEight (eight wPark) 1 0, 128, 32, 28, by decide, by decide +kernel, by decide, by decide, by decide +kernel⟩

theorem witness_WarpSets_age : ∃ (s : State) (part x y : Nat), 8 ≤ (s.part part).active.length ∧ s.oldestReady part = some x ∧
    y ∈ (s.part part).active ∧ y ≠ x ∧ (∀ k, k ∈ (s.part part).active → s.stalled k = false) ∧ s.inSetFor x = 2048 ∧
    s.leastRecent (s.part part).active = some y :=
  ⟨sSet pEight (eight w0) 2048 0, 128, 32, 0, by decide, by decide +kernel, by decide, by decide, by decide +kernel, by decide,
    by decide +kernel⟩

theorem witness_WarpSets_yield : ∀ n, n = 256 ∨ n = 2047 → ∃ (s : State) (part x y : Nat), 8 ≤ (s.part part).active.length ∧
    s.oldestReady part = some x ∧ y ∈ (s.part part).active ∧ y ≠ x ∧ (∀ k, k ∈ (s.part part).active → s.stalled k = false) ∧
    s.inSetFor x = n ∧ s.justYielded part y = true := by
  intro n h
  rcases h with rfl | rfl
  · exact ⟨sSet pEight (eight { w0 with yielded := true, lastIssue := 9 }) 256 0, 128, 32, 28, by decide, by decide +kernel, by decide,
      by decide, by decide +kernel, by decide, by decide +kernel⟩
  · exact ⟨sSet pEight (eight { w0 with yielded := true, lastIssue := 9 }) 2047 0, 128, 32, 28, by decide, by decide +kernel,
      by decide, by decide, by decide +kernel, by decide, by decide +kernel⟩

/-- No pending warp is ready. -/
theorem witness_WarpSets_none : ∃ (s : State) (part y : Nat), 8 ≤ (s.part part).active.length ∧ y ∈ (s.part part).active ∧
    s.oldestReady part = none :=
  ⟨sSet { pEight with pending := [] } (eight wPark) 1 0, 128, 28, by decide, by decide, by decide +kernel⟩

/-- A full file: two warps of 256 registers are pending and a ready one is outside. -/
def pOut : Partition := { Partition.reset with pending := [0, 4], nonResident := [8] }

/-- Warp 0 has been stalled, and warp 8 ready, since the start; warp 0 has an entry in its store queue, or none. -/
def sOut (sq : List SqEnt) (ns : Nat) : State :=
  sSet pOut [(0, { wPark with stallSince := some 0, sq := sq }), (4, wPend), (8, { wOut with readySince := some 0 })] 1 ns

/-- Warp `wid`, with what its release at `.die` answers. -/
def releaseOf (s : State) (wid : Nat) : Option (Option (Option Nat)) := (s.ctxOf wid 0).map fun c => s.barRelease c .die

theorem release_of {s : State} {wid : Nat} {x : Option (Option Nat)} (h : releaseOf s wid = some x) :
    ∃ c, s.ctxOf wid 0 = some c ∧ s.barRelease c .die = x := Option.map_eq_some_iff.mp h

theorem witness_WarpSets_swapOut : ∀ sq x, (sq = [] ∧ x = some none) ∨ (sq = wStore.sq ∧ x = none) →
    ∃ (s : State) (part wid : Nat) (c : Ctx), s.partOfWarp wid = part ∧ s.maySwapOut wid = true ∧
    s.ctxOf wid 0 = some c ∧ s.barRelease c .die = x := by
  intro sq x h
  have k : (sOut sq 8001).maySwapOut 0 = true ∧ releaseOf (sOut sq 8001) 0 = some x := by
    rcases h with ⟨rfl, rfl⟩ | ⟨rfl, rfl⟩ <;> decide +kernel
  obtain ⟨c, h1, h2⟩ := release_of k.2
  exact ⟨sOut sq 8001, 128, 0, c, rfl, k.1, h1, h2⟩

theorem witness_WarpSets_swapIn : ∃ (s : State) (part k : Nat) (tm : Team), s.swapInNext part = some k ∧ s.team? (k / 32) = some tm :=
  ⟨sSet { pOut with pending := [4] } [(4, wPend), (8, wOut)] 1 0, 128, 8, t0, by decide +kernel, rfl⟩

theorem witness_WarpSets_forced : ∃ (s : State) (part k y : Nat) (c : Ctx), s.forced part = some (k, y) ∧ y ∉ s.exitedIn part ∧ k ≠ y ∧
    (s.displace part y).roomFor part k = true ∧ s.ctxOf y 0 = some c ∧ s.barRelease c .die = some none := by
  obtain ⟨c, h1, h2⟩ := release_of (s := sOut [] 8000) (wid := 0) (x := some none) (by decide +kernel)
  exact ⟨sOut [] 8000, 128, 8, 0, c, by decide +kernel, by decide +kernel, by decide, by decide +kernel, h1, h2⟩

theorem witness_WarpSets_forcedWaits : ∃ (s : State) (part k y : Nat), s.forced part = some (k, y) ∧
    (s.displace part y).roomFor part k = false :=
  ⟨sOut wStore.sq 8000, 128, 8, 0, by decide +kernel, by decide +kernel⟩

/-! ## Witnesses: placement and retirement -/

/-- Die 1 in service, with a grid that has one team to place. -/
def gWait : Grid := { g0 with seqs := [⟨0, [1], 0, 1⟩], rec_ := { g0.rec_ with vec := 64, gallery := 4096, paramWords := 16, paramBase := 0x2000000 } }

def sPlace (g : Grid) (ns : Nat) : State :=
  { State.reset with grids := [(1, g)], nextGid := 2, ns := ns, dies := [(1, { Die.reset with trained := true, inService := true })] }

/-- A choice from some elements is one of them. -/
theorem pick_some {α : Type} (s : State) (l : List α) (h : l ≠ []) : ∃ x s1, s.pick l = (some x, s1) := by
  have hl : 0 < l.length := by cases l with | nil => exact absurd rfl h | cons a r => exact Nat.succ_pos _
  have hi : (s.choose l.length).1 < l.length := by
    unfold State.choose
    split
    · exact hl
    · exact Nat.mod_lt _ hl
  exact ⟨l[(s.choose l.length).1], (s.choose l.length).2, Prod.ext (List.getElem?_eq_getElem hi) rfl⟩

theorem witness_Placement_dispatch : ∃ (s : State) (gid : Nat) (g : Grid) (x : Place) (s1 : State),
    s.offered.find? (fun x => s.mayPlace x.1 x.2) = some (gid, g) ∧ s.grid? gid = some g ∧ s.pick (s.places gid g) = (some x, s1) := by
  obtain ⟨x, s1, h⟩ := pick_some (sPlace gWait 0) ((sPlace gWait 0).places 1 gWait) (by decide +kernel)
  exact ⟨_, 1, gWait, x, s1, by decide +kernel, rfl, h⟩

theorem witness_Placement_idle : ∃ (s : State) (g : Grid), s.offered = [(1, g)] ∧ ∀ x, x ∈ s.offered → s.mayPlace x.1 x.2 = false :=
  ⟨sPlace { gWait with seqs := [] } 0, _, rfl, by decide +kernel⟩

/-- A grid with a node team to place. -/
def gHigh : Grid :=
  { g0 with rootRetired := 1, prio := 7, nodes := [(3, ⟨384, 0, 0, 2, 0, 32, 8, .none, [[1, 2], [3, 4]], 0, 0, 0⟩)],
            rec_ := { g0.rec_ with vec := 64, gallery := 4096 } }

/-- A node team to place comes before a sequence's unit of a grid of lower priority. -/
theorem witness_Placement_yields : ∃ (s : State) (gid : Nat) (g : Grid),
    s.offered.find? (fun x => s.mayPlace x.1 x.2) = some (gid, g) ∧ s.places gid g = [] :=
  ⟨{ sPlace gWait 0 with grids := [(1, gWait), (2, gHigh)] }, 2, gHigh, by decide +kernel, by decide +kernel⟩

/-- The places of the sequence are its next unit's. -/
theorem witness_Placement_unit : ∃ (s : State) (gid i : Nat) (g : Grid) (p : Plan), Place.seq i p ∈ s.places gid g ∧
    g.rec_.barDie = 0 := by
  have h : ((sPlace gWait 0).places 1 gWait).any (fun x => match x with | .seq _ _ => true | _ => false) = true := by decide +kernel
  obtain ⟨x, hx, hp⟩ := List.any_eq_true.mp h
  cases x with
  | seq i p => exact ⟨_, 1, i, gWait, p, hx, rfl⟩
  | again p => exact Bool.noConfusion hp
  | againNode c => exact Bool.noConfusion hp

/-- A grid of a cluster of 12 teams, each of which fills a core; the die's cores are full. -/
def gClu : Grid := { gWait with rec_ := { gWait.rec_ with cx := 12, gx := 12, gallery := 393216 } }

def sFullDie (ns : Nat) : State := { sPlace gClu ns with teams := (List.range 24).map fun k => (k, { t0 with core := 32 + k }) }

theorem witness_Placement_hold : ∃ (s : State) (gid : Nat) (g : Grid), s.grid? gid = some g ∧ s.waits gid g = true ∧
    1 < g.rec_.cluster ∧ g.waitSinceNs + 20001 = s.ns ∧ s.mayPlace gid g = false :=
  ⟨sFullDie 20001, 1, gClu, rfl, by decide +kernel, by decide, by decide, by decide +kernel⟩

theorem witness_Placement_holdWaits : ∃ (s : State) (gid : Nat) (g : Grid), s.grid? gid = some g ∧
    ¬(s.waits gid g = true ∧ g.waitSinceNs + 20000 < s.ns ∧ s.mayPlace gid g = false) ∧ s.ns = 20000 :=
  ⟨sFullDie 20000, 1, gClu, rfl, fun h => absurd h.2.1 (by decide), rfl⟩

/-- A warp that has not received its one parameter. -/
def wParam : Warp := { w0 with paramsLoaded := false }
def gParam : Grid := { g0 with rec_ := { g0.rec_ with paramWords := 1, paramBase := 0x2000000 } }
def sParam : State := onPage (kit wParam t0 gParam 1) [(0, 7)]
def cParam : Ctx := kc wParam t0 gParam 0xFFFFFFFF

theorem witness_Placement_params : ∃ (s s1 : State) (wid : Nat) (w : Warp) (c : Ctx) (ws : List W32), s.warp? wid = some w ∧
    w.paramsLoaded = false ∧ w.runnable ≠ 0 ∧ s.ctxOf wid w.runnable = some c ∧
    s.paramWords c c.g.rec_.params = (.ok ws, s1) ∧ Quiet s :=
  ⟨sParam, ((sParam.cacheTlb (some 32) 0 0x2000000).constWord 1 32 0 0).2, 0, wParam, cParam, [7], rfl, rfl, by decide, by decide, by
    have e := locate_page sParam (bare_onPage _ _ rfl rfl rfl rfl rfl) (some 32) gParam rfl rfl (groupOf 0 1) (0x2000000 + 4 * 0) false .read
      (by decide) (by decide +kernel)
    have n1 : cParam.g.rec_.params = 1 := by decide
    have k : cParam.g.rec_.paramBase = 0x2000000 := rfl
    have h0 : cParam.t.group = groupOf 0 1 := rfl
    have h1 : cParam.t.gid = 1 := rfl
    have h2 : cParam.t.core = 32 := rfl
    rw [n1]
    simp only [State.paramWords, List.range, List.range.loop, List.foldl_cons, List.foldl_nil, k, h0, h1, h2, e]
    refine Prod.ext ?_ rfl
    exact congrArg (fun x => Except.ok [x])
      (by decide +kernel : ((sParam.cacheTlb (some 32) 0 0x2000000).constWord 1 32 0 0).1 = 7), quiet _ rfl⟩

/-- The address of the parameter is not mapped. -/
def gNoParam : Grid := { g0 with rec_ := { g0.rec_ with paramWords := 1, paramBase := 0x4000000 } }

theorem witness_Placement_paramsFault : ∃ (s s1 : State) (wid : Nat) (w : Warp) (c : Ctx) (va ft : Nat), s.warp? wid = some w ∧
    w.paramsLoaded = false ∧ w.runnable ≠ 0 ∧ s.ctxOf wid w.runnable = some c ∧
    s.paramWords c c.g.rec_.params = (.error (va, ft), s1) := by
  have hs : Bare (onPage (kit wParam t0 gNoParam 1) []) := bare_onPage _ _ rfl rfl rfl rfl rfl
  have hw : (onPage (kit wParam t0 gNoParam 1) []).walk 0 0x4000000 = .error 0 := by
    have : (match (onPage (kit wParam t0 gNoParam 1) []).walk 0 0x4000000 with | .error f => f == 0 | _ => false) = true := by
      decide +kernel
    split at this
    · rename_i f h; rw [h, beq_iff_eq.mp this]
    · exact absurd this (by decide)
  refine ⟨onPage (kit wParam t0 gNoParam 1) [], ((onPage (kit wParam t0 gNoParam 1) []).cacheTlb (some 32) 0 0x4000000), 0, wParam,
    kc wParam t0 gNoParam 0xFFFFFFFF, 0x4000000, 0, rfl, rfl, by decide, by decide, ?_⟩
  have n1 : (kc wParam t0 gNoParam 0xFFFFFFFF).g.rec_.params = 1 := by decide
  rw [n1]
  simp only [State.paramWords, List.range, List.range.loop, List.foldl_cons, List.foldl_nil, State.locate, State.locateRaw,
    State.paged, State.translate, found_bare _ hs,
    show (kc wParam t0 gNoParam 0xFFFFFFFF).t.gid = 1 from rfl, show (kc wParam t0 gNoParam 0xFFFFFFFF).t.core = 32 from rfl,
    show (kc wParam t0 gNoParam 0xFFFFFFFF).g.rec_.paramBase = 0x4000000 from rfl,
    show (onPage (kit wParam t0 gNoParam 1) []).grid? 1 = some gNoParam from rfl, show gNoParam.asid = 0 from rfl, Nat.mul_zero,
    Nat.add_zero, hw]
  rfl

/-- A team whose one warp has exited. -/
def tEnd : Team := { t0 with st := .ended }
def wEnd : Warp := { w0 with exited := 0xFFFFFFFF, residence := .none }

theorem witness_Placement_retire : ∃ (s : State) (tid : Nat) (v : Team), s.team? tid = some v ∧ s.teamMayRetire tid v = true ∧
    v.active = false ∧ v.hall = none ∧ v.kind = .root :=
  ⟨kit wEnd tEnd g0 1, 0, tEnd, rfl, by decide, rfl, rfl, rfl⟩

/-- A grid all of whose teams have retired, with a done value or without. -/
def gEnd (a : Nat) : Grid := { g0 with rootRetired := 1, notify := true, rec_ := { g0.rec_ with doneAddr := a, doneValue := 9 } }

theorem witness_Placement_grid : ∀ a, a = 0 ∨ a = 0x2000008 → ∃ (s : State) (gid : Nat) (g : Grid), s.grid? gid = some g ∧
    s.gridDone gid g = true ∧ g.notify = true ∧ s.canReport = true ∧ g.rec_.doneAddr = a := by
  intro a h
  rcases h with rfl | rfl <;>
    exact ⟨{ State.reset with grids := [(1, gEnd _)] }, 1, gEnd _, rfl, by decide +kernel, rfl, by decide, rfl⟩

/-- A team that has not ended, and a grid of which a team stands. -/
theorem witness_Placement_stays : ∃ (s : State) (tid gid : Nat) (v : Team) (g : Grid), s.team? tid = some v ∧
    s.teamMayRetire tid v = false ∧ s.grid? gid = some g ∧ s.gridDone gid g = false :=
  ⟨s0, 0, 1, t0, g0, rfl, by decide, rfl, by decide⟩

/-! ## Witnesses: node teams -/

/-- A node with two records whose count is 2, fed by nobody. -/
def nod2 : Node := ⟨384, 0x2000000, 0, 2, 5, 32, 8, .none, [[1, 2], [3, 4]], 0, 3, 0⟩
def gNod (x : Node) : Grid :=
  { g0 with rootRetired := 1, nodes := [(63, x)], rec_ := { g0.rec_ with vec := 64, gallery := 4096, nodeCount := 64 } }
def sNod (x : Node) (ns : Nat) : State := sPlace (gNod x) ns

theorem witness_NodeTeams_count : ∃ (s : State) (gid n : Nat) (g : Grid) (x : Node), s.grid? gid = some g ∧ g.st = .live ∧
    tget g.nodes n = some x ∧ x.cond = .none ∧ s.turnOf gid = true ∧ s.singleCores gid g x.threads 0 ≠ [] ∧
    x.count = x.bin.length ∧ x.count ≠ 0 ∧ 1 ≤ x.threads :=
  ⟨sNod nod2 0, 1, 63, gNod nod2, nod2, rfl, rfl, rfl, rfl, by decide +kernel, by decide +kernel, rfl, by decide, by decide⟩

theorem witness_NodeTeams_timer : ∃ (s : State) (gid n : Nat) (g : Grid) (x : Node), s.grid? gid = some g ∧ g.st = .live ∧
    tget g.nodes n = some x ∧ x.cond = .proceed ∧ s.turnOf gid = true ∧ s.singleCores gid g x.threads 0 ≠ [] ∧
    min x.count x.bin.length = 1 ∧ x.timer ≠ 0 ∧ x.binSinceNs + x.timer = s.ns ∧ 1 ≤ x.threads :=
  ⟨sNod { nod2 with bin := [[1, 2]], cond := .proceed } 5, 1, 63, gNod { nod2 with bin := [[1, 2]], cond := .proceed },
    { nod2 with bin := [[1, 2]], cond := .proceed }, rfl, rfl, rfl, rfl,
    by decide +kernel, by decide +kernel, by decide, by decide, by decide, by decide⟩

theorem witness_NodeTeams_final : ∃ (s : State) (gid n : Nat) (g : Grid) (x : Node), s.grid? gid = some g ∧ g.st = .live ∧
    tget g.nodes n = some x ∧ x.cond = .none ∧ s.turnOf gid = true ∧ s.singleCores gid g x.threads 0 ≠ [] ∧
    min x.count x.bin.length ≠ 0 ∧ s.feedersDone gid g n x = true ∧ s.nodeRuns gid n = false ∧ 1 ≤ x.threads :=
  ⟨sNod nod2 0, 1, 63, gNod nod2, nod2, rfl, rfl, rfl, rfl, by decide +kernel, by decide +kernel, by decide, by decide +kernel,
    by decide, by decide⟩

theorem witness_NodeTeams_waits : ∃ (s : State) (gid n : Nat) (g : Grid) (x : Node), s.grid? gid = some g ∧ g.st = .live ∧
    tget g.nodes n = some x ∧ ¬x.count ≤ x.bin.length ∧ x.timer = 0 ∧ s.feedersDone gid g n x = false ∧ x.cond = .waiting :=
  ⟨kit w0 t0 { g0 with nodes := [(63, { nod with cond := .waiting, count := 2, timer := 0 })] } 1, 1, 63, _, _, rfl, rfl, rfl, by decide, rfl,
    by decide, rfl⟩

theorem witness_NodeTeams_predicate : ∀ low, low = [] ∨ low = [(3, 1)] → ∃ (s s1 : State) (gid n : Nat) (g : Grid) (x : Node)
    (bs : List Byte), s.grid? gid = some g ∧ g.st = .live ∧ tget g.nodes n = some x ∧ x.cond = .waiting ∧
    s.feedersDone gid g n x = true ∧ s.vread g.asid x.predAddr 4 = (.ok bs, s1) ∧ (leNat bs = 0 ↔ low = []) := by
  intro low h
  rcases h with rfl | rfl
  · exact ⟨onPage (sNod { nod2 with cond := .waiting } 0) [], _, 1, 63, gNod { nod2 with cond := .waiting },
      { nod2 with cond := .waiting }, _, rfl, rfl, rfl, rfl, by decide +kernel,
      vread_page _ (bare_onPage _ _ rfl rfl rfl rfl rfl) _ _ (by decide) (by decide +kernel), by decide⟩
  · exact ⟨onPage (sNod { nod2 with cond := .waiting } 0) [(3, 1)], _, 1, 63, gNod { nod2 with cond := .waiting },
      { nod2 with cond := .waiting }, _, rfl, rfl, rfl, rfl, by decide +kernel,
      vread_page _ (bare_onPage _ _ rfl rfl rfl rfl rfl) _ _ (by decide) (by decide +kernel), by decide⟩

/-! ## Witnesses: faults and pre-emption -/

def evt0 (ft : Nat) : FaultEvt := ⟨0x2000000, 0x300000, 1, 1, 0, 0, 1, 0, 0, ft, false, false, false, 0, 0, 0, .lanes 0 1⟩

def gFault : Grid := { g0 with faults := [evt0 1], rec_ := { g0.rec_ with faultqBase := 0x2000000 } }

theorem witness_FaultRecords_slot : ∀ low, low = [] ∨ low = [(64, 1)] → ∃ (s : State) (gid : Nat) (g : Grid) (e : FaultEvt)
    (rest : List FaultEvt), s.grid? gid = some g ∧ g.st = .live ∧ g.faults = e :: rest ∧ Quiet s ∧
    s.slotFree g = (low == []) := by
  intro low h
  rcases h with rfl | rfl
  · refine ⟨onPage (kit w0 t0 gFault 1) [], 1, gFault, evt0 1, [], rfl, rfl, rfl, quiet _ rfl, ?_⟩
    have e := vpeek_page (onPage (kit w0 t0 gFault 1) []) (bare_onPage _ _ rfl rfl rfl rfl rfl) 0x2000040 8 (by decide +kernel)
    simp only [State.slotFree, show gFault.asid = 0 from rfl, show gFault.rec_.faultSlot gFault.nextFaultSeq = 0x2000040 from rfl, e]
    decide
  · refine ⟨onPage (kit w0 t0 gFault 1) [(64, 1)], 1, gFault, evt0 1, [], rfl, rfl, rfl, quiet _ rfl, ?_⟩
    have e := vpeek_page (onPage (kit w0 t0 gFault 1) [(64, 1)]) (bare_onPage _ _ rfl rfl rfl rfl rfl) 0x2000040 8 (by decide +kernel)
    simp only [State.slotFree, show gFault.asid = 0 from rfl, show gFault.rec_.faultSlot gFault.nextFaultSeq = 0x2000040 from rfl, e]
    decide

/-- A grid with two records, the first of which has resumed. -/
def gRec (r : FaultRec) : Grid := { g0 with records := [⟨1, evt0 0, true, false, true⟩, r], nextFaultSeq := 3 }

def evtOf (who : Parked) : FaultRec := ⟨2, { evt0 0 with who := who }, true, false, false⟩

/-- What `FaultRecords` asks of the released record 2, whose turn it is. -/
structure Resumes (s : State) (r : FaultRec) : Prop where
  grid : s.grid? 1 = some (gRec r)
  found : (gRec r).records.find? (·.seq == 2) = some r
  turn : ∀ x, x ∈ (gRec r).records → x.seq < 2 → x.resumed = true ∨ x.unresolvable = true
  fresh : r.resumed = false
  free : ¬(r.evt.ftype = 5 ∨ r.unresolvable = true) ∧ r.released = true

theorem resumes (who : Parked) (w : Warp) : Resumes (kit w t0 (gRec (evtOf who)) 2) (evtOf who) :=
  ⟨rfl, rfl, fun x hx h => by
    rcases List.mem_cons.mp hx with rfl | hx
    · exact Or.inl rfl
    · rw [List.mem_singleton.mp hx] at h; exact absurd h (Nat.lt_irrefl 2), rfl, fun h => by
    rcases h with h | h
    · exact absurd (show (0 : Nat) = 5 from h) (by decide)
    · exact Bool.noConfusion h, rfl⟩

theorem witness_FaultRecords_resume : ∀ res, res = Residence.active ∨ res = Residence.nonResident → ∃ (s : State) (r : FaultRec)
    (m : Mask) (w : Warp) (tm : Team), Resumes s r ∧ r.evt.who = .lanes 0 m ∧ s.warp? 0 = some w ∧ w.residence = res ∧
    s.team? 0 = some tm := fun res _ =>
  ⟨kit { w0 with parked := 1, residence := res } t0 (gRec (evtOf (.lanes 0 1))) 2, evtOf (.lanes 0 1), 1, _, t0, resumes _ _, rfl, rfl,
    rfl, rfl⟩

theorem witness_FaultRecords_others : ∀ who, who = Parked.op 3 ∨ who = Parked.req 32 7 ∨ who = Parked.pend 0 4 ∨
    who = Parked.predicate 63 → ∃ (s : State) (r : FaultRec), Resumes s r ∧ r.evt.who = who := fun who _ =>
  ⟨kit w0 t0 (gRec (evtOf who)) 2, evtOf who, resumes _ _, rfl⟩

theorem witness_FaultRecords_waits : ∃ (s : State) (gid seq : Nat) (g : Grid) (r : FaultRec), s.grid? gid = some g ∧ g.st = .live ∧
    g.records.find? (·.seq == seq) = some r ∧ r.resumed = false ∧ ¬(r.evt.ftype = 5 ∨ r.unresolvable = true) ∧ r.released = false :=
  ⟨kit w0 t0 (gRec ⟨2, evt0 0, false, false, false⟩) 2, 1, 2, _, _, rfl, rfl, rfl, rfl, by decide, rfl⟩

theorem witness_FaultRecords_end : ∀ r, r = ⟨2, evt0 5, false, false, false⟩ ∨ r = ⟨2, evt0 0, false, true, false⟩ →
    ∃ (s : State) (gid seq : Nat) (g : Grid), s.grid? gid = some g ∧ g.st = .live ∧ g.records.find? (·.seq == seq) = some r ∧
      r.resumed = false ∧ (∀ x, x ∈ g.records → x.seq < seq → x.resumed = true ∨ x.unresolvable = true) ∧
      (r.evt.ftype = 5 ∨ r.unresolvable = true) ∧ s.canReport = true := by
  intro r h
  rcases h with rfl | rfl
  · exact ⟨kit w0 t0 (gRec ⟨2, evt0 5, false, false, false⟩) 2, 1, 2, _, rfl, rfl, by decide, rfl, by decide, by decide, by decide⟩
  · exact ⟨kit w0 t0 (gRec ⟨2, evt0 0, false, true, false⟩) 2, 1, 2, _, rfl, rfl, by decide, rfl, by decide, by decide, by decide⟩

/-- A grid of priority 1 has waited 100 µs; the running teams of a grid of priority 0 fill every core of die 1. -/
def sVict : State :=
  { sPlace gWait 100000 with
    grids := [(1, { gWait with prio := 1, rec_ := { gWait.rec_ with gallery := 393216 } }), (2, g0)],
    teams := (List.range 24).map fun k => (k, { t0 with gid := 2, core := 32 + k, active := k == 23 }) }

theorem witness_Preemption_request : ∃ (s s1 : State) (gid : Nat) (g : Grid) (l : List Nat), s.grid? gid = some g ∧ g.st = .live ∧
    s.pick (s.preemptions gid g) = (some l, s1) := by
  obtain ⟨l, s1, h⟩ := pick_some sVict (sVict.preemptions 1 { gWait with prio := 1, rec_ := { gWait.rec_ with gallery := 393216 } })
    (by decide +kernel)
  exact ⟨sVict, s1, 1, _, l, rfl, rfl, h⟩

/-- A halting team whose one warp has a result to come, or an unacknowledged store, or neither. -/
def sHalt (w : Warp) : State := kit w { t0 with st := .halting } g0 1

theorem witness_Preemption_save : ∃ (s : State) (tid : Nat) (v : Team) (g : Grid), s.team? tid = some v ∧ s.grid? v.gid = some g ∧
    v.st = .halting ∧ (∀ x, x ∈ (s.unitOfTeam tid v).filter (fun x => x.2.st == .halting) → s.teamDrained x.1 x.2 = true) ∧
    ∀ x, x ∈ (s.unitOfTeam tid v).filter (fun x => x.2.st == .halting) → s.teamAcked x.1 x.2 = true :=
  ⟨sHalt w0, 0, { t0 with st := .halting }, g0, rfl, rfl, rfl, by decide +kernel, by decide +kernel⟩

theorem witness_Preemption_waits : ∀ w, w = wBusy ∨ w = { w0 with unack := 1 } → ∃ (s : State) (tid : Nat) (v : Team) (g : Grid),
    s.team? tid = some v ∧ s.grid? v.gid = some g ∧ v.st = .halting ∧
    ¬((∀ x, x ∈ (s.unitOfTeam tid v).filter (fun x => x.2.st == .halting) → s.teamDrained x.1 x.2 = true) ∧
      ∀ x, x ∈ (s.unitOfTeam tid v).filter (fun x => x.2.st == .halting) → s.teamAcked x.1 x.2 = true) := by
  intro w h
  rcases h with rfl | rfl
  · exact ⟨sHalt wBusy, 0, { t0 with st := .halting }, g0, rfl, rfl, rfl, by decide +kernel⟩
  · exact ⟨sHalt { w0 with unack := 1 }, 0, { t0 with st := .halting }, g0, rfl, rfl, rfl, by decide +kernel⟩

/-- A saved team that waits for its restore. -/
def gSaved : Grid := { gWait with seqs := [], restore := [0] }
def sSaved : State :=
  { sPlace gSaved 7 with
    teams := [(0, { t0 with st := .saved })], nextTid := 1, warps := [(0, { w0 with residence := .none, firstSaved := true, saves := 1 })] }

theorem witness_Preemption_restore : ∃ (s s1 : State) (tid : Nat) (v : Team) (g : Grid) (l : List (Nat × Nat)), s.team? tid = some v ∧
    s.grid? v.gid = some g ∧ g.st = .live ∧ g.restore.head? = some tid ∧ s.turnOf v.gid = true ∧
    s.pick (s.restorePlans v.gid g) = (some l, s1) ∧ g.again = [] := by
  obtain ⟨l, s1, h⟩ := pick_some sSaved (sSaved.restorePlans 1 gSaved) (by decide +kernel)
  exact ⟨sSaved, s1, 0, { t0 with st := .saved }, gSaved, l, rfl, rfl, rfl, rfl, by decide +kernel, h, rfl⟩

theorem witness_Preemption_first : ∃ (s : State) (wid : Nat) (c : Ctx), s.ctxOf wid 0 = some c ∧ c.w.firstSaved = false :=
  ⟨s0, 0, _, rfl, rfl⟩

/-! ## Witnesses: queues -/

/-- A queue with its descriptor at 0x2000 and its ring in the page, and its handler queue. -/
def q0 : Queue := ⟨0x2000, 0x2001000, 4, 2, 0, 0, 7, .running, [], [], [], 0, false, false⟩
def hq0 : Queue := { q0 with desc := 0x2040, ring := 0x2003000, kind := 1, handlerQ := 0 }

/-- A machine with both queues; the tables and what page 0 holds. -/
def sQ (q : Queue) (low : List Host.Cell) : State := onPage { State.reset with queues := [(1, q), (2, hq0)] } low

theorem bare_sQ (q : Queue) (low : List Host.Cell) : Bare (sQ q low) := bare_onPage _ _ rfl rfl rfl rfl rfl

theorem sQ_peek (q : Queue) (low : List Host.Cell) (va n : Nat) (hw : pageOk (sQ q low) va n = true) :
    (sQ q low).vpeek 0 va n = .ok ((List.range n).map fun i => (sQ q low).byte ((va + i) % 2 ^ 14)) :=
  vpeek_page _ (bare_sQ q low) va n hw

/-- The last slot of the ring: `READ_IDX` is 0xFFFF_FFFF. -/
def lowIdx (slot : List Host.Cell) : List Host.Cell :=
  slot ++ [(0x201C, 0xFF), (0x201D, 0xFF), (0x201E, 0xFF), (0x201F, 0xFF)]

theorem witness_QueueHeads_idle : ∃ (s : State) (qid : Nat) (q : Queue) (hd : List Byte), s.queue? qid = some q ∧ q.st = .running ∧
    q.kind = 0 ∧ s.mg.halt = 0 ∧ Quiet s ∧ s.vpeek q.asid (q.slot (s.readIdx q)) 8 = .ok hd ∧ field hd 0 1 = 0 ∧
    q.resumed = false :=
  ⟨sQ q0 [], 1, q0, _, rfl, rfl, rfl, rfl, quiet _ rfl, sQ_peek q0 [] 0x2001000 8 (by decide +kernel), by decide +kernel, rfl⟩

/-- The slot after a resume, still invalid; and a header of type 5 or 255. -/
theorem witness_QueueHeads_bad : ∀ n : Byte, n = 0 ∨ n = 5 ∨ n = 255 → ∃ (s : State) (qid : Nat) (q : Queue) (hd : List Byte),
    s.queue? qid = some q ∧ q.st = .running ∧ q.kind = 0 ∧ s.mg.halt = 0 ∧ Quiet s ∧
    s.vpeek q.asid (q.slot (s.readIdx q)) 8 = .ok hd ∧ ((field hd 0 1 = 0 ∧ q.resumed = true) ∨ 4 < field hd 0 1) ∧
    s.canReport = true := by
  intro n h
  rcases h with rfl | rfl | rfl
  · exact ⟨sQ { q0 with resumed := true } [], 1, { q0 with resumed := true }, _, rfl, rfl, rfl, rfl, quiet _ rfl,
      sQ_peek _ [] 0x2001000 8 (by decide +kernel), by decide +kernel, by decide⟩
  · exact ⟨sQ q0 (lowIdx [(0x13C0, 5)]), 1, q0, _, rfl, rfl, rfl, rfl, quiet _ rfl,
      sQ_peek q0 (lowIdx [(0x13C0, 5)]) 0x20013C0 8 (by decide +kernel), by decide +kernel, by decide⟩
  · exact ⟨sQ q0 (lowIdx [(0x13C0, 255)]), 1, q0, _, rfl, rfl, rfl, rfl, quiet _ rfl,
      sQ_peek q0 (lowIdx [(0x13C0, 255)]) 0x20013C0 8 (by decide +kernel), by decide +kernel, by decide⟩

/-- An event of grid 9, which is no more, for the handler queue. -/
def ev0 : HEvent := ⟨2, 0xA0, 0, 1, 0, 9, 0, 0, 0, 0, 0, 0, 0, 0⟩

def sEv (low : List Host.Cell) : State := { sQ q0 low with hevents := [ev0] }

theorem witness_QueueHeads_event : ∀ low, low = [] ∨ low = [(0x3000, 1)] → ∃ (s : State) (qid : Nat) (q : Queue) (e : HEvent),
    s.queue? qid = some q ∧ q.st ≠ .destroyed ∧ s.hevents.find? (·.hq == qid) = some e ∧ Quiet s ∧
    s.handlerFree q = (low == []) ∧ (0x40 ≤ e.cause ∨ s.allStopped e.grid.toNat = false) ∧
    ∀ x f, x ∈ s.grids → x.2.st = .live → x.2.frame = some f → f.doneCount < f.buckets := by
  intro low h
  rcases h with rfl | rfl
  · refine ⟨sEv [], 2, hq0, ev0, rfl, by decide, rfl, quiet _ rfl, ?_, Or.inl (by decide), fun _ _ h => nomatch h⟩
    have e := vpeek_page (sEv []) ⟨rfl, rfl, rfl, rfl, rfl, rfl⟩ 0x2003000 1 (by decide +kernel)
    simp only [State.handlerFree, show hq0.asid = 0 from rfl,
      show hq0.slot ((sEv []).peekN (hq0.desc + 24) 4) = 0x2003000 from by decide +kernel, e]
    decide +kernel
  · refine ⟨sEv [(0x3000, 1)], 2, hq0, ev0, rfl, by decide, rfl, quiet _ rfl, ?_, Or.inl (by decide), fun _ _ h => nomatch h⟩
    have e := vpeek_page (sEv [(0x3000, 1)]) ⟨rfl, rfl, rfl, rfl, rfl, rfl⟩ 0x2003000 1 (by decide +kernel)
    simp only [State.handlerFree, show hq0.asid = 0 from rfl,
      show hq0.slot ((sEv [(0x3000, 1)]).peekN (hq0.desc + 24) 4) = 0x2003000 from by decide +kernel, e]
    decide +kernel

/-! ### Packets -/

/-- The packet in slot 0 of the ring. -/
def pkOf (s : State) : Packet := parsePacket ((List.range 64).map fun i => s.byte ((0x2001000 + i) % 2 ^ 14)) 0x2001000 0

theorem head_page (s : State) (q : Queue) (hs : Bare s)
    (hh : s.mg.halt = 0) (hq : q = { q0 with grids := q.grids }) (hw : pageOk s 0x2001000 64 = true) (hr : s.readIdx q0 = 0)
    (hf : field ((List.range 8).map fun i => s.byte ((0x2001000 + i) % 2 ^ 14)) 0 1 ≠ 0)
    (h4 : field ((List.range 8).map fun i => s.byte ((0x2001000 + i) % 2 ^ 14)) 0 1 ≤ 4) : s.head q = .packet (pkOf s) := by
  have hw8 : pageOk s 0x2001000 8 = true := by
    simp only [pageOk, Bool.and_eq_true, decide_eq_true_eq] at hw ⊢
    exact ⟨⟨by decide, by decide⟩, hw.2⟩
  have e8 := vpeek_page s hs 0x2001000 8 hw8
  have e64 := vpeek_page s hs 0x2001000 64 hw
  have hr' : s.readIdx q = 0 := by rw [hq]; exact hr
  have hs : q.slot 0 = 0x2001000 := by rw [hq]; rfl
  have ha : q.asid = 0 := by rw [hq]; rfl
  have h1 : q.st = .running := by rw [hq]; rfl
  have h2 : q.kind = 0 := by rw [hq]; rfl
  simp only [State.head, hr', hs, ha, h1, h2, hh, e8, e64, decide_eq_false hf, Bool.false_and, Bool.false_or,
    decide_eq_false (Nat.not_lt.mpr h4)]
  rfl

/-- What `Packets` asks of a packet whose turn it is. -/
structure Takes (s : State) (q : Queue) (p : Packet) (ty : Nat) : Prop where
  queue : s.queue? 1 = some q
  head : s.head q = .packet p
  turn : p.barrier = true → s.earlierDone q = true
  good : p.reserved = false ∧ p.misaligned = none ∧ q.stopReq = false
  quiet : Quiet s
  type : p.ptype = ty

/-- The checks of the packet in slot 0 that a machine's memory answers. -/
def packetOk (s : State) (ty : Nat) : Bool :=
  pageOk s 0x2001000 64 && s.readIdx q0 == 0 &&
  (let x := field ((List.range 8).map fun i => s.byte ((0x2001000 + i) % 2 ^ 14)) 0 1
   x != 0 && decide (x ≤ 4)) &&
  (!(pkOf s).barrier || s.earlierDone q0) && !(pkOf s).reserved && (pkOf s).misaligned.isNone && (pkOf s).ptype == ty

theorem takes (s : State) (q : Queue) (ty : Nat) (hs : Bare s) (hm : s.mg.halt = 0) (hq : q = { q0 with grids := q.grids })
    (hg : s.queue? 1 = some q) (hb : (pkOf s).barrier = true → s.earlierDone q = true) (h : packetOk s ty = true) :
    Takes s q (pkOf s) ty := by
  simp only [packetOk, Bool.and_eq_true, beq_iff_eq, bne_iff_ne, decide_eq_true_eq, Bool.not_eq_true', Option.isNone_iff_eq_none] at h
  obtain ⟨⟨⟨⟨⟨⟨h1, h2⟩, h3, h4⟩, -⟩, h6⟩, h7⟩, h8⟩ := h
  exact ⟨hg, head_page s q hs hm hq h1 h2 h3 h4, hb, ⟨h6, h7, by rw [hq]; rfl⟩, Sys2Proof.Tests.quiet s hs.cores, h8⟩

/-- A `LAUNCH` of the record in page 0. -/
def lowLaunch : List Host.Cell := cellsRec ++ [(0x1000, 1), (0x100B, 2)]

theorem witness_Packets_launch : ∃ (s : State) (q : Queue) (p : Packet) (r : LaunchRec) (ns : List NodeRaw)
    (mask : List Nat) (s1 : State), Takes s q p 1 ∧ s.submit q.asid p.addr1 none = (.ok r ns mask, s1) :=
  ⟨sQ q0 lowLaunch, q0, pkOf (sQ q0 lowLaunch), _, _, _, _,
    takes _ q0 1 (bare_sQ _ _) rfl rfl rfl (fun _ => by decide) (by decide +kernel), by
      rw [show (pkOf (sQ q0 lowLaunch)).addr1 = 0x2000000 from by decide +kernel]
      exact bytesRec_at (sQ q0 lowLaunch) (by decide +kernel) (bare_sQ _ _) (by decide +kernel) none _ rfl
        (by decide +kernel) _ rfl (by decide +kernel)⟩

/-- A record that is not as it must be: no field of page 0 is set. -/
theorem witness_Packets_rejected : ∃ (s s1 : State) (q : Queue) (p : Packet) (k : Nat), Takes s q p 1 ∧ s.canReport = true ∧
    s.submit q.asid p.addr1 none = (.rejected k, s1) := by
  have hs := bare_sQ q0 [(0x1000, 1), (0x100B, 2)]
  have e := vread_page (sQ q0 [(0x1000, 1), (0x100B, 2)]) hs 0x2000000 256 (by decide) (by decide +kernel)
  have hb : ((List.range 256).map fun i => (sQ q0 [(0x1000, 1), (0x100B, 2)]).byte ((0x2000000 + i) % 2 ^ 14)) = List.replicate 256 0 := by
    decide +kernel
  rw [hb] at e
  refine ⟨sQ q0 [(0x1000, 1), (0x100B, 2)], (sQ q0 [(0x1000, 1), (0x100B, 2)]).cacheVa none 0 0x2000000 256, q0, pkOf _, 2,
    takes _ q0 1 hs rfl rfl rfl (fun _ => by decide) (by decide +kernel), by decide, ?_⟩
  rw [show (pkOf (sQ q0 [(0x1000, 1), (0x100B, 2)])).addr1 = 0x2000000 from by decide +kernel]
  have n0 : (if (parseRec (List.replicate 256 (0 : Byte))).nodeCount ≤ 64 && (parseRec (List.replicate 256 (0 : Byte))).nodeTable % 256 = 0 &&
      (parseRec (List.replicate 256 (0 : Byte))).nodeTable != 0 then (parseRec (List.replicate 256 (0 : Byte))).nodeCount else 0) = 0 := by
    decide +kernel
  simp only [State.submit, show q0.asid = 0 from rfl, e]
  rw [if_pos n0, show ((sQ q0 [(0x1000, 1), (0x100B, 2)]).cacheVa none 0 0x2000000 256).checkRec (List.replicate 256 0)
    (parseRec (List.replicate 256 0)) (parseRec (List.replicate 256 0)) []
    (((sQ q0 [(0x1000, 1), (0x100B, 2)]).cacheVa none 0 0x2000000 256).effectiveMask (parseRec (List.replicate 256 0)).dieMask) 0 none.isSome
    = some 2 from by decide +kernel]

/-- Reserved and misaligned fields, and a barrier behind a grid that is not done. -/
theorem witness_Packets_wrong : ∀ b : Host.Cell, b = (0x1003, 1) ∨ b = (0x1008, 1) → ∃ (s : State) (q : Queue) (p : Packet), s.queue? 1 = some q ∧
    s.head q = .packet p ∧ Quiet s ∧ p.ptype = 1 ∧ p.barrier = false ∧ s.canReport = true ∧
    (p.reserved = true ∨ (p.reserved = false ∧ ∃ a, p.misaligned = some a)) := by
  intro b h
  have k : ∀ low, pageOk (sQ q0 low) 0x2001000 64 && ((sQ q0 low).readIdx q0 == 0 &&
      (let x := field ((List.range 8).map fun i => (sQ q0 low).byte ((0x2001000 + i) % 2 ^ 14)) 0 1
       x != 0 && decide (x ≤ 4))) && (pkOf (sQ q0 low)).ptype == 1 && !(pkOf (sQ q0 low)).barrier &&
      ((pkOf (sQ q0 low)).reserved || (!(pkOf (sQ q0 low)).reserved && (pkOf (sQ q0 low)).misaligned.isSome)) = true →
      ∃ (s : State) (q : Queue) (p : Packet), s.queue? 1 = some q ∧
        s.head q = .packet p ∧ Quiet s ∧ p.ptype = 1 ∧ p.barrier = false ∧ s.canReport = true ∧
        (p.reserved = true ∨ (p.reserved = false ∧ ∃ a, p.misaligned = some a)) := fun low h => by
    simp only [Bool.and_eq_true, Bool.or_eq_true, beq_iff_eq, bne_iff_ne, decide_eq_true_eq, Bool.not_eq_true',
      Option.isSome_iff_exists] at h
    obtain ⟨⟨⟨⟨h1, h2, h3, h4⟩, h5⟩, h6⟩, h7⟩ := h
    exact ⟨sQ q0 low, q0, _, rfl, head_page _ q0 (bare_sQ _ _) rfl rfl h1 h2 h3 h4, Sys2Proof.Tests.quiet _ rfl, h5, h6, rfl, h7⟩
  rcases h with rfl | rfl
  · exact k [(0x1000, 1), (0x1003, 1), (0x100B, 2)] (by decide +kernel)
  · exact k [(0x1000, 1), (0x1008, 1), (0x100B, 2)] (by decide +kernel)

/-- A frame descriptor in page 0 and a `FRAME` for the next grid, or for grid 1. -/
def lowFrame (at_ : List Host.Cell) : List Host.Cell :=
  [(0, 64), (2, 64), (4, 4), (5, 8), (18, 0x80), (19, 0x3F), (22, 0x80), (23, 0x3F), (0x1000, 2), (0x100B, 2)] ++ at_

theorem frame_read (s : State) (hs : Bare s) (hw : pageOk s 0x2000000 64 = true) :
    s.vread 0 0x2000000 64 = (.ok ((List.range 64).map fun i => s.byte ((0x2000000 + i) % 2 ^ 14)), s.cacheVa none 0 0x2000000 64) :=
  vread_page s hs _ _ (by decide) hw

/-- A frame for the next `LAUNCH`, or for a grid that is not there. -/
theorem witness_Packets_frameNext : ∃ (s : State) (q : Queue) (p : Packet) (bs : List Byte) (s1 : State),
    Takes s q p 2 ∧ s.vread q.asid p.addr1 64 = (.ok bs, s1) ∧ frameBad bs (parseFrame bs 1 q p) = false ∧ p.addr2 = frameNext :=
  ⟨sQ q0 (lowFrame [(0x1017, 0x80)]), q0, pkOf (sQ q0 (lowFrame [(0x1017, 0x80)])), _, _,
    takes _ q0 2 (bare_sQ _ _) rfl rfl rfl (fun _ => by decide) (by decide +kernel), by
      rw [show (pkOf (sQ q0 (lowFrame [(0x1017, 0x80)]))).addr1 = 0x2000000 from by decide +kernel]
      exact frame_read _ (bare_sQ _ _) (by decide +kernel), by decide +kernel, by decide +kernel⟩

theorem witness_Packets_frameNone : ∃ (s : State) (q : Queue) (p : Packet) (bs : List Byte) (s1 : State),
    Takes s q p 2 ∧ s.canReport = true ∧ s.vread q.asid p.addr1 64 = (.ok bs, s1) ∧ frameBad bs (parseFrame bs 1 q p) = false ∧
    p.addr2 ≠ frameNext ∧ s.grid? p.addr2 = none :=
  ⟨sQ q0 (lowFrame [(0x1010, 9)]), q0, pkOf (sQ q0 (lowFrame [(0x1010, 9)])), _, _,
    takes _ q0 2 (bare_sQ _ _) rfl rfl rfl (fun _ => by decide) (by decide +kernel), by decide, by
      rw [show (pkOf (sQ q0 (lowFrame [(0x1010, 9)]))).addr1 = 0x2000000 from by decide +kernel]
      exact frame_read _ (bare_sQ _ _) (by decide +kernel), by decide +kernel, by decide +kernel, by rfl⟩

/-- A descriptor whose every field is 0. -/
theorem witness_Packets_frameBad : ∃ (s : State) (q : Queue) (p : Packet) (bs : List Byte) (s1 : State),
    Takes s q p 2 ∧ s.canReport = true ∧ s.vread q.asid p.addr1 64 = (.ok bs, s1) ∧ frameBad bs (parseFrame bs 1 q p) = true :=
  ⟨sQ q0 [(0x1000, 2), (0x100B, 2)], q0, pkOf (sQ q0 [(0x1000, 2), (0x100B, 2)]), _, _,
    takes _ q0 2 (bare_sQ _ _) rfl rfl rfl (fun _ => by decide) (by decide +kernel), by decide, by
      rw [show (pkOf (sQ q0 [(0x1000, 2), (0x100B, 2)])).addr1 = 0x2000000 from by decide +kernel]
      exact frame_read _ (bare_sQ _ _) (by decide +kernel), by decide +kernel⟩

/-- The render core runs in the machines above and below, and is held in this one. -/
def sHeldCore : State := { sQ q0 (lowFrame [(0x1017, 0x80)]) with trust := { Trust.reset with held := [4] } }

theorem witness_Packets_held : (∀ q low, 4 ∉ (sQ q low).trust.held) ∧
    ∃ (s : State) (q : Queue) (p : Packet), Takes s q p 2 ∧ 4 ∈ s.trust.held :=
  ⟨fun _ _ => (show 4 ∉ Trust.reset.held by decide), sHeldCore, q0, pkOf sHeldCore,
    takes _ q0 2 ⟨rfl, rfl, rfl, rfl, rfl, rfl⟩ rfl rfl rfl (fun _ => by decide) (by decide +kernel), by decide⟩

def sFrame (fr : Option Frame) : State := { sQ q0 (lowFrame [(0x1010, 1)]) with grids := [(1, { g0 with frame := fr })] }

theorem witness_Packets_frameGrid : ∀ fr, fr = none ∨ fr = some fr0 → ∃ (s : State) (q : Queue) (p : Packet) (bs : List Byte)
    (s1 : State) (g : Grid), Takes s q p 2 ∧ s.vread q.asid p.addr1 64 = (.ok bs, s1) ∧ frameBad bs (parseFrame bs 1 q p) = false ∧
    p.addr2 ≠ frameNext ∧ s.grid? p.addr2 = some g ∧ g.st = .live ∧ g.asid = q.asid ∧ g.frame = fr ∧ g.frames = [] := by
  intro fr h
  have k : packetOk (sFrame fr) 2 = true := by rcases h with rfl | rfl <;> decide +kernel
  have w : pageOk (sFrame fr) 0x2000000 64 = true := by rcases h with rfl | rfl <;> decide +kernel
  have h1 : (pkOf (sFrame fr)).addr1 = 0x2000000 := by rcases h with rfl | rfl <;> decide +kernel
  have h2 : (pkOf (sFrame fr)).addr2 = 1 := by rcases h with rfl | rfl <;> decide +kernel
  have h3 : frameBad ((List.range 64).map fun i => (sFrame fr).byte ((0x2000000 + i) % 2 ^ 14))
      (parseFrame ((List.range 64).map fun i => (sFrame fr).byte ((0x2000000 + i) % 2 ^ 14)) 1 q0 (pkOf (sFrame fr))) = false := by
    rcases h with rfl | rfl <;> decide +kernel
  exact ⟨sFrame fr, q0, pkOf (sFrame fr), _, _, { g0 with frame := fr },
    takes _ q0 2 ⟨rfl, rfl, rfl, rfl, rfl, rfl⟩ rfl rfl rfl (fun _ => by rcases h with rfl | rfl <;> rfl) k,
    by rw [h1]; exact frame_read (sFrame fr) ⟨rfl, rfl, rfl, rfl, rfl, rfl⟩ w, h3, by rw [h2]; decide, by rw [h2]; rfl, rfl, rfl, rfl, rfl⟩

def sSig (l : List Nat) : State := { sQ { q0 with grids := l } [(0x1000, 3)] with grids := [(1, g0)] }

theorem witness_Packets_signal : ∀ l : List Nat, l = [] ∨ l = [1] → ∃ (s : State) (q : Queue) (p : Packet), Takes s q p 3 ∧
    s.earlierDone q = (l == []) := by
  intro l h
  rcases h with rfl | rfl
  · exact ⟨sSig [], q0, pkOf (sSig []), takes _ q0 3 ⟨rfl, rfl, rfl, rfl, rfl, rfl⟩ rfl rfl rfl (fun _ => by decide) (by decide +kernel),
      by decide⟩
  · exact ⟨sSig [1], { q0 with grids := [1] }, pkOf (sSig [1]),
      takes _ _ 3 ⟨rfl, rfl, rfl, rfl, rfl, rfl⟩ rfl rfl rfl (fun h => absurd h (by decide +kernel)) (by decide +kernel), by decide⟩

/-- A barrier with nothing before it. -/
theorem witness_Packets_nop : ∃ (s : State) (q : Queue) (p : Packet), Takes s q p 4 ∧ p.barrier = true :=
  ⟨sQ q0 [(0x1000, 4), (0x1001, 1)], q0, pkOf (sQ q0 [(0x1000, 4), (0x1001, 1)]),
    takes _ q0 4 (bare_sQ _ _) rfl rfl rfl (fun _ => by decide) (by decide +kernel), by decide +kernel⟩

/-! ## Witnesses: commands -/

/-- A message with an operation and arguments, as the application cluster sends it. -/
def cmd (opc : Byte) (arg : BitVec 192) : Msg := ⟨opc, 8, 0, 0, 7, arg⟩

/-- A machine to which a message has come: in the mailbox for core 0, or in its owner's FIFO. -/
def atCore0 (s : State) (m : Msg) : State := { s with cmdQ := [m] }
def atOwner (s : State) (m : Msg) (own : Nat) : State := { s with mailbox := [(own, [m])] }

theorem witness_QueueCommands_ready : ∀ i opc own, (i = .inval (cmd 0x20 (2 <<< 32)) ∧ opc = 0x20 ∧ own = 2) ∨
    (i = .release (cmd 0x20 (9 <<< 32)) ∧ opc = 0x20 ∧ own = 2) ∨ (i = .attest (cmd 0x53 0) ∧ opc = 0x53 ∧ own = 6) →
    ∃ (s : State) (m : Msg), commandOf i = some (m, opc, own) ∧ s.commandReady m opc own = true ∧
      (∀ a, memAction i = some a → actionOf m = a ∨ (a = 0 ∧ 3 < actionOf m)) ∧ s.translated none = false := by
  intro i opc own h
  rcases h with ⟨rfl, rfl, rfl⟩ | ⟨rfl, rfl, rfl⟩ | ⟨rfl, rfl, rfl⟩
  · exact ⟨atOwner State.reset (cmd 0x20 (2 <<< 32)) 2, _, rfl, by decide, by intro a h; cases h; decide, by decide⟩
  · exact ⟨atOwner State.reset (cmd 0x20 (9 <<< 32)) 2, _, rfl, by decide, by intro a h; cases h; decide, by decide⟩
  · exact ⟨atOwner State.reset (cmd 0x53 0) 6, _, rfl, by decide, (by intro a h; exact nomatch (show none = some a from h)), by decide⟩

theorem witness_QueueCommands_create : ∃ (s : State) (m : Msg), commandOf (.qcreate m) = some (m, 1, 0) ∧ s.commandReady m 1 0 = true ∧
    s.liveQueues.length + s.hevents.length < 65535 := ⟨atCore0 State.reset (cmd 1 0), cmd 1 0, rfl, by decide, by decide⟩

theorem witness_QueueCommands_waits : ∃ (s : State) (i : Instr) (m : Msg) (opc own : Nat), commandOf i = some (m, opc, own) ∧
    s.commandReady m opc own = false ∧ s.cmdQ = [m] :=
  ⟨{ atCore0 State.reset (cmd 1 0) with rspQ := List.replicate 64 (cmd 0x81 0) }, .qcreate (cmd 1 0), cmd 1 0, 1, 0, rfl, by decide,
    rfl⟩

theorem descOk_page (s : State) (h : s.memTrained = [7]) (a : Nat) (ha : a % 64 = 0) (hb : a + 64 ≤ 2 ^ 14) :
    s.descOk a = true := by
  have := page_lt s h
  simp only [State.descOk, ha, decide_true, Bool.true_and, decide_eq_true_eq]
  omega

/-- A descriptor at 0x1000: a ring of 16 slots, with the handler queue at 0x2040. -/
def lowDesc : List Host.Cell := [(0x1008, 0x40), (0x1009, 0x20), (0x1026, 4), (0x1029, 7)]

/-- Its queues are none but the handler queue, or as many as there may be. -/
def sCreate (n : Nat) : State :=
  { onPage (atCore0 State.reset (cmd 1 0x1000)) lowDesc with queues := (2, hq0) :: (List.range n).map fun k => (k + 3, q0) }

theorem liveCount (n : Nat) : (sCreate n).liveQueues.length = n + 1 := by
  have h : ((List.range n).map fun k => (k + 3, q0)).filter (fun q : Nat × Queue => q.2.st != .destroyed) =
      (List.range n).map fun k => (k + 3, q0) := by
    rw [List.filter_eq_self]
    intro x hx
    obtain ⟨k, -, rfl⟩ := List.mem_map.mp hx
    rfl
  have e : (sCreate n).liveQueues = (2, hq0) :: ((List.range n).map fun k => (k + 3, q0)).filter
      (fun q : Nat × Queue => q.2.st != .destroyed) := rfl
  rw [e, h, List.length_cons, List.length_map, List.length_range]

theorem createBad (n : Nat) : (sCreate n).descBad ((sCreate n).peek 0x1000 64) = false := by
  have h : (sCreate n).handlerAt 0x2040 0 = some 2 := rfl
  have hb : (sCreate n).peek 0x1000 64 = (List.range 64).map fun i => memByte (lowDesc ++ cellsPage) (0x1000 + i) := rfl
  rw [hb]
  simp only [State.descBad, show field ((List.range 64).map fun i => memByte (lowDesc ++ cellsPage) (0x1000 + i)) 8 8 = 0x2040
    from by decide +kernel, show field ((List.range 64).map fun i => memByte (lowDesc ++ cellsPage) (0x1000 + i)) 36 2 = 0
    from by decide +kernel, h]
  decide +kernel

theorem witness_QueueCommands_made : ∃ (s : State) (m : Msg), s.commandReady m 0x01 0 = true ∧ Quiet s ∧ s.descOk (argN m 8 8) = true ∧
    s.descBad (s.peek (argN m 8 8) 64) = false ∧ s.liveQueues.length + s.hevents.length = 65534 :=
  ⟨sCreate 65533, cmd 1 0x1000, rfl, quiet _ rfl, descOk_page _ rfl _ (by decide) (by decide), createBad _, by rw [liveCount]; rfl⟩

theorem witness_QueueCommands_full : ∃ (s : State) (m : Msg), s.commandReady m 0x01 0 = true ∧ Quiet s ∧ s.descOk (argN m 8 8) = true ∧
    s.descBad (s.peek (argN m 8 8) 64) = false ∧ s.liveQueues.length = 65535 :=
  ⟨sCreate 65534, cmd 1 0x1000, rfl, quiet _ rfl, descOk_page _ rfl _ (by decide) (by decide), createBad _, liveCount _⟩

theorem witness_QueueCommands_bad : ∃ (s s' : State) (m m' : Msg), s.commandReady m 0x01 0 = true ∧ Quiet s ∧
    s.descOk (argN m 8 8) = false ∧ s'.commandReady m' 0x01 0 = true ∧ Quiet s' ∧ s'.descBad (s'.peek (argN m' 8 8) 64) = true :=
  ⟨atCore0 State.reset (cmd 1 32), atCore0 State.reset (cmd 1 64), cmd 1 32, cmd 1 64, rfl, quiet _ rfl, by decide, rfl, quiet _ rfl,
    by decide +kernel⟩

theorem witness_QueueCommands_none : ∃ (s : State) (m : Msg), s.commandReady m 2 0 = true ∧ s.queueArg m = none :=
  ⟨atCore0 State.reset (cmd 2 1), cmd 2 1, rfl, rfl⟩

/-- The two queues, with a command that names queue 1 or queue 2. -/
def sQc (q : Queue) (m : Msg) : State := atCore0 { sQ q [(0x1000, 3)] with grids := [(1, g0)] } m

theorem witness_QueueCommands_destroy : ∃ (s : State) (m : Msg) (id : Nat) (q : Queue), s.queueArg m = some (id, q) ∧ Quiet s ∧
    s.commandReady m 0x02 0 = true ∧ ¬((∃ x, x ∈ s.liveQueues ∧ x.2.kind = 0 ∧ x.2.handlerQ = id) ∨
      ∃ g, g ∈ s.grids ∧ g.2.st = .live ∧ (g.2.handlerQ = id ∨
        ∃ f, (g.2.frame = some f ∨ f ∈ g.2.frames) ∧ f.notify = true ∧ f.hq = id)) :=
  ⟨sQc q0 (cmd 2 1), cmd 2 1, 1, q0, rfl, quiet _ rfl, rfl, fun h => by
    rcases h with ⟨x, hx, h1, h2⟩ | ⟨g, hg, -, h⟩
    · exact absurd h2 ((by decide : ∀ x ∈ (sQc q0 (cmd 2 1)).liveQueues, x.2.kind = 0 → x.2.handlerQ ≠ 1) x hx h1)
    · rw [List.mem_singleton.mp hg] at h
      rcases h with h | ⟨f, h | h, -⟩
      · exact absurd h (by decide)
      · exact nomatch h
      · exact nomatch h⟩

/-- A frame of a live grid reports to the queue. -/
theorem witness_QueueCommands_framed : ∃ (s : State) (m : Msg) (id : Nat) (q : Queue) (g : Nat × Grid) (f : Frame),
    s.queueArg m = some (id, q) ∧ Quiet s ∧ s.commandReady m 0x02 0 = true ∧ g ∈ s.grids ∧ g.2.st = .live ∧ g.2.frame = some f ∧
    f.notify = true ∧ f.hq = id :=
  ⟨{ sQc q0 (cmd 2 2) with grids := [(1, { g0 with frame := some { fr0 with notify := true, hq := 2 } })] }, cmd 2 2, 2, hq0, _, _, rfl,
    quiet _ rfl, rfl, List.mem_singleton.mpr rfl, rfl, rfl, rfl, rfl⟩

theorem witness_QueueCommands_used : ∃ (s : State) (m : Msg) (id : Nat) (q : Queue), s.queueArg m = some (id, q) ∧ Quiet s ∧
    s.commandReady m 0x02 0 = true ∧ ∃ x, x ∈ s.liveQueues ∧ x.2.kind = 0 ∧ x.2.handlerQ = id :=
  ⟨sQc q0 (cmd 2 2), cmd 2 2, 2, hq0, rfl, quiet _ rfl, rfl, (1, q0), by decide, rfl, rfl⟩

theorem witness_QueueCommands_resume : ∀ b : BitVec 192, b = 0 ∨ b = 1 → ∃ (s : State) (m : Msg) (id : Nat) (q : Queue),
    s.queueArg m = some (id, q) ∧ Quiet s ∧ s.commandReady m 0x03 0 = true ∧ q.st = .stopped ∧ argN m 12 1 % 2 = b.toNat := by
  intro b h
  rcases h with rfl | rfl
  · exact ⟨sQc { q0 with st := .stopped } (cmd 3 1), cmd 3 1, 1, _, rfl, quiet _ rfl, rfl, rfl, by decide⟩
  · exact ⟨sQc { q0 with st := .stopped } (cmd 3 0x100000001), cmd 3 0x100000001, 1, _, rfl, quiet _ rfl, rfl, rfl, by decide⟩

theorem witness_QueueCommands_busy : ∃ (s s' : State) (m m' : Msg) (id : Nat) (q q' : Queue), s.queueArg m = some (id, q) ∧ Quiet s ∧
    s.commandReady m 0x03 0 = true ∧ q.st ≠ .stopped ∧ s'.queueArg m' = some (id, q') ∧ Quiet s' ∧
    s'.commandReady m' 0x04 0 = true ∧ q'.st ≠ .running :=
  ⟨sQc q0 (cmd 3 1), sQc { q0 with st := .stopped } (cmd 4 1), cmd 3 1, cmd 4 1, 1, q0, _, rfl, quiet _ rfl, rfl, by decide, rfl,
    quiet _ rfl, rfl, by decide⟩

theorem witness_QueueCommands_stop : ∀ l : List Nat, l = [] ∨ l = [1] → ∃ (s : State) (m : Msg) (id : Nat) (q : Queue),
    s.queueArg m = some (id, q) ∧ Quiet s ∧ s.commandReady m 0x04 0 = true ∧ q.st = .running ∧
    (s.takeCommand m 0).inProgress q = (l != []) := by
  have key : ∀ l : List Nat, (l = [] ∨ l = [1]) →
      ((sQc { q0 with grids := l } (cmd 4 1)).takeCommand (cmd 4 1) 0).inProgress { q0 with grids := l } = (l != []) := by
    intro l h
    have e := head_page ((sQc { q0 with grids := l } (cmd 4 1)).takeCommand (cmd 4 1) 0) { q0 with grids := l }
      ⟨rfl, rfl, rfl, rfl, rfl, rfl⟩ rfl rfl
      (by rcases h with rfl | rfl <;> decide +kernel) (by rcases h with rfl | rfl <;> decide +kernel)
      (by rcases h with rfl | rfl <;> decide +kernel) (by rcases h with rfl | rfl <;> decide +kernel)
    simp only [State.inProgress, e]
    rcases h with rfl | rfl <;> decide +kernel
  intro l h
  exact ⟨sQc { q0 with grids := l } (cmd 4 1), cmd 4 1, 1, { q0 with grids := l }, rfl, quiet _ rfl, rfl, rfl, key l h⟩

/-! ### Grids and memory -/

def sGc (g : Grid) (m : Msg) (own : Nat) : State := atOwner { State.reset with grids := [(1, g)] } m own

theorem witness_GridAndMemoryCommands_grids_none : ∃ (s : State) (m : Msg), s.commandReady m 0x10 1 = true ∧ s.gridArg m = none :=
  ⟨sGc { g0 with st := .retired } (cmd 0x10 1) 1, cmd 0x10 1, by decide, by decide⟩

theorem witness_GridAndMemoryCommands_grids_term : ∃ (s : State) (m : Msg) (id : Nat) (g : Grid), s.commandReady m 0x10 1 = true ∧
    s.gridArg m = some (id, g) := ⟨sGc g0 (cmd 0x10 1) 1, cmd 0x10 1, 1, g0, by decide, rfl⟩

theorem witness_GridAndMemoryCommands_grids_attach : ∀ a : BitVec 192, a = 1 ∨ a = 1 + 12 <<< 64 ∨ a = 1 + 11 <<< 64 → ∀ e : Option Nat, e = none ∨ e = some 0 →
    ∃ (s : State) (m : Msg) (id : Nat) (g : Grid), s.commandReady m 0x30 7 = true ∧ s.gridArg m = some (id, g) ∧
      g.dbgEntry = e ∧ argN m 16 8 = a.toNat / 2 ^ 64 := by
  intro a h e he
  rcases h with rfl | rfl | rfl <;> rcases he with rfl | rfl
  · exact ⟨sGc g0 (cmd 0x30 1) 7, cmd 0x30 1, 1, _, by decide, rfl, rfl, by decide⟩
  · exact ⟨sGc { g0 with dbgEntry := some 0 } (cmd 0x30 1) 7, cmd 0x30 1, 1, _, by decide, rfl, rfl, by decide⟩
  · exact ⟨sGc g0 (cmd 0x30 (1 + 12 <<< 64)) 7, cmd 0x30 (1 + 12 <<< 64), 1, _, by decide, rfl, rfl, by decide⟩
  · exact ⟨sGc { g0 with dbgEntry := some 0 } (cmd 0x30 (1 + 12 <<< 64)) 7, cmd 0x30 (1 + 12 <<< 64), 1, _, by decide, rfl, rfl,
      by decide⟩
  · exact ⟨sGc g0 (cmd 0x30 (1 + 11 <<< 64)) 7, cmd 0x30 (1 + 11 <<< 64), 1, _, by decide, rfl, rfl, by decide⟩
  · exact ⟨sGc { g0 with dbgEntry := some 0 } (cmd 0x30 (1 + 11 <<< 64)) 7, cmd 0x30 (1 + 11 <<< 64), 1, _, by decide, rfl, rfl,
      by decide⟩

theorem witness_GridAndMemoryCommands_grids_detach : ∀ e : Option Nat, e = none ∨ e = some 0 → ∃ (s : State) (m : Msg) (id : Nat) (g : Grid),
    s.commandReady m 0x31 7 = true ∧ s.gridArg m = some (id, g) ∧ g.dbgEntry = e := by
  intro e he
  rcases he with rfl | rfl
  · exact ⟨sGc g0 (cmd 0x31 1) 7, cmd 0x31 1, 1, _, by decide, rfl, rfl⟩
  · exact ⟨sGc { g0 with dbgEntry := some 0 } (cmd 0x31 1) 7, cmd 0x31 1, 1, _, by decide, rfl, rfl⟩

/-- The arguments of a memory command: object, action, address and length. -/
def memArg (obj act a n : BitVec 192) : BitVec 192 := obj + act <<< 32 + a <<< 64 + n <<< 128

theorem witness_GridAndMemoryCommands_records_error : ∃ (s : State) (m : Msg) (st : Status), s.commandReady m 0x20 2 = true ∧ s.recordOf m = .error st ∧
    actionOf m = 0 :=
  ⟨sGc g0 (cmd 0x20 (memArg 1 0 1 0)) 2, cmd 0x20 (memArg 1 0 1 0), .noObject, by decide, rfl, by decide⟩

theorem witness_GridAndMemoryCommands_records_release : ∀ ft, ft = 0 ∨ ft = 5 → ∃ (s : State) (m : Msg) (id : Nat) (r : FaultRec) (g : Grid),
    s.commandReady m 0x20 2 = true ∧ s.recordOf m = .ok (id, r) ∧ s.grid? id = some g ∧ actionOf m = 0 ∧ r.evt.ftype = ft := by
  intro ft h
  rcases h with rfl | rfl
  · exact ⟨sGc (gRec ⟨2, evt0 0, false, false, false⟩) (cmd 0x20 (memArg 1 0 2 0)) 2, cmd 0x20 (memArg 1 0 2 0), 1, _, _, by decide,
      rfl, rfl, by decide, rfl⟩
  · exact ⟨sGc (gRec ⟨2, evt0 5, false, false, false⟩) (cmd 0x20 (memArg 1 0 2 0)) 2, cmd 0x20 (memArg 1 0 2 0), 1, _, _, by decide,
      rfl, rfl, by decide, rfl⟩

theorem witness_GridAndMemoryCommands_records_unresolvable : ∀ res : Bool, ∃ (s : State) (m : Msg) (id : Nat) (r : FaultRec) (g : Grid),
    s.commandReady m 0x20 2 = true ∧ s.recordOf m = .ok (id, r) ∧ s.grid? id = some g ∧ actionOf m = 1 ∧ g.st = .live ∧
    g.turn r.seq = res := by
  intro res
  cases res with
  | true => exact ⟨sGc (gRec ⟨2, evt0 0, false, false, false⟩) (cmd 0x20 (memArg 1 1 2 0)) 2, cmd 0x20 (memArg 1 1 2 0), 1, _, _,
      by decide, rfl, rfl, by decide, rfl, by decide⟩
  | false => exact ⟨sGc { gRec ⟨2, evt0 0, false, false, false⟩ with records := [⟨1, evt0 0, false, false, false⟩, ⟨2, evt0 0, false, false, false⟩] }
      (cmd 0x20 (memArg 1 1 2 0)) 2, cmd 0x20 (memArg 1 1 2 0), 1, _, _, by decide, rfl, rfl, by decide, rfl, by decide⟩

theorem witness_GridAndMemoryCommands_inval_ranges : ∀ k : BitVec 192, k = 0 ∨ k = 1 ∨ k = 2 → ∃ (s : State) (m : Msg), s.commandReady m 0x20 2 = true ∧
    actionOf m = 2 ∧ invalBad m = false ∧ argN m 13 1 = k.toNat ∧
    s.translated (if argN m 13 1 = 2 then none else some (argN m 8 2)) = false := by
  intro k h
  rcases h with rfl | rfl | rfl
  · exact ⟨sGc g0 (cmd 0x20 (memArg 0 2 0x4000 0x4000)) 2, cmd 0x20 (memArg 0 2 0x4000 0x4000), by decide, by decide, by decide,
      by decide, by decide⟩
  · exact ⟨sGc g0 (cmd 0x20 (memArg 0xFFFF 0x102 0 0)) 2, cmd 0x20 (memArg 0xFFFF 0x102 0 0), by decide, by decide, by decide,
      by decide, by decide⟩
  · exact ⟨sGc g0 (cmd 0x20 (memArg 0 0x202 0 0)) 2, cmd 0x20 (memArg 0 0x202 0 0), by decide, by decide, by decide, by decide,
      by decide⟩

theorem witness_GridAndMemoryCommands_inval_bad : ∃ (s : State) (m : Msg), s.commandReady m 0x20 2 = true ∧ actionOf m = 2 ∧ invalBad m = true :=
  ⟨sGc g0 (cmd 0x20 (memArg 0 0x302 0 0)) 2, cmd 0x20 (memArg 0 0x302 0 0), by decide, by decide, by decide⟩

theorem witness_GridAndMemoryCommands_inval_waits : ∃ (s : State) (m : Msg), s.commandReady m 0x20 2 = true ∧ actionOf m = 2 ∧ invalBad m = false ∧
    argN m 13 1 = 1 ∧ s.translated (some (argN m 8 2)) = true :=
  ⟨atOwner (sCore (kReq (.write [(384, 1)])) wReply) (cmd 0x20 (memArg 0 0x102 0 0)) 2, cmd 0x20 (memArg 0 0x102 0 0), by decide,
    by decide, by decide, by decide, by decide⟩

theorem witness_GridAndMemoryCommands_action : ∃ (s : State) (m : Msg), s.commandReady m 0x20 2 = true ∧ actionOf m = 4 :=
  ⟨sGc g0 (cmd 0x20 (memArg 0 4 0 0)) 2, cmd 0x20 (memArg 0 4 0 0), by decide, by decide⟩

theorem witness_GridAndMemoryCommands_gtermWaits : ∃ (s : State) (m : Msg) (id : Nat) (g : Grid), s.commandReady m 0x10 1 = true ∧
    s.gridArg m = some (id, g) ∧ s.canReport = false :=
  ⟨{ sGc g0 (cmd 0x10 1) 1 with hevents := List.replicate 4096 ev0 }, cmd 0x10 1, 1, g0, rfl, rfl, by decide +kernel⟩

/-- The table at an address that is no multiple of 4,096, or set while a grid lives, or with none. -/
theorem witness_GridAndMemoryCommands_asidtab : ∃ (s s' s'' : State) (m m' : Msg), s.commandReady m 0x20 2 = true ∧ actionOf m = 3 ∧
    argN m 16 8 % 4096 = 4095 ∧ s'.commandReady m' 0x20 2 = true ∧ actionOf m' = 3 ∧ argN m' 8 4 = 0 ∧ argN m' 13 3 = 0 ∧
    argN m' 24 8 = 0 ∧ argN m' 16 8 % 4096 = 0 ∧ (∃ g, g ∈ s'.grids ∧ g.2.st = .live) ∧ s''.commandReady m' 0x20 2 = true ∧
    (¬∃ g, g ∈ s''.grids ∧ g.2.st = .live) ∧ s''.translated none = false :=
  ⟨sGc g0 (cmd 0x20 (memArg 0 3 4095 0)) 2, sGc g0 (cmd 0x20 (memArg 0 3 0x10000 0)) 2,
    sGc { g0 with st := .retired } (cmd 0x20 (memArg 0 3 0x10000 0)) 2, cmd 0x20 (memArg 0 3 4095 0), cmd 0x20 (memArg 0 3 0x10000 0),
    by decide, by decide, by decide, by decide, by decide, by decide, by decide, by decide, by decide, ⟨(1, g0), by decide, rfl⟩,
    by decide, by decide, by decide⟩

/-- An access so translated is in flight. -/
theorem witness_GridAndMemoryCommands_asidtabWaits : ∃ (s : State) (m : Msg), s.commandReady m 0x20 2 = true ∧ actionOf m = 3 ∧
    argN m 8 4 = 0 ∧ argN m 13 3 = 0 ∧ argN m 24 8 = 0 ∧ argN m 16 8 % 4096 = 0 ∧ (¬∃ g, g ∈ s.grids ∧ g.2.st = .live) ∧
    s.translated none = true :=
  ⟨atOwner { sCore (kReq (.write [(384, 1)])) wReply with grids := [(1, { g0 with st := .terminated })] } (cmd 0x20 (memArg 0 3 0x10000 0)) 2,
    cmd 0x20 (memArg 0 3 0x10000 0), by decide, by decide, by decide, by decide, by decide, by decide, by decide, by decide⟩

theorem witness_GridAndMemoryCommands_peerbind : ∀ mask, mask = 0 ∨ mask = 8 → ∃ (s : State) (m : Msg), s.commandReady m 0x40 6 = true ∧
    argN m 10 1 = 3 ∧ argN m 11 1 = 0 ∧ argN m 14 18 = 0 ∧ s.mg.peerMask = mask := by
  intro mask h
  rcases h with rfl | rfl
  · exact ⟨atOwner State.reset (cmd 0x40 0x30000) 6, cmd 0x40 0x30000, by decide, by decide, by decide, by decide, rfl⟩
  · exact ⟨atOwner { State.reset with mg := { Mg.reset with peerMask := 8 } } (cmd 0x40 0x30000) 6, cmd 0x40 0x30000, by decide,
      by decide, by decide, by decide, rfl⟩

theorem witness_GridAndMemoryCommands_peerbind_bad : ∃ (s : State) (m : Msg), s.commandReady m 0x40 6 = true ∧ argN m 10 1 = 4 :=
  ⟨atOwner State.reset (cmd 0x40 0x40000) 6, cmd 0x40 0x40000, by decide, by decide⟩

/-! ## Witnesses: the trust core -/

/-- The SHA-384 digests of the P-384 base point as a public key and of no bytes, and a signature's first half under the private
key 1 with the nonce 2: computed outside Lean. -/
def hashKey : List Byte := beBytes 48
  21595558639399995160593208344425018387731221922735906635898491676811294048186811276291486386570035123399165663630621
def hashNone : List Byte := beBytes 48
  8725231785142640510958974801449281668044511174527971820957835005137448197712608590715499503138764434364488379578715
def sigR : Nat :=
  1362138308511466522361153706999924933599454966107597910086607881313301390679204654798639248640660900363360053616481

/-- An image of a target with no body, security version 7, and the second half of its signature. -/
def image (target : Byte) (sigS : Nat) : List Byte :=
  natBytes 4 0x314B4941 ++ natBytes 2 1 ++ [target, 0] ++ natBytes 4 7 ++ natBytes 4 0 ++ natBytes 16 0 ++ hashNone ++
    pointBytes (some p384G) ++ natBytes 15 0 ++ natBytes 48 sigR ++ natBytes 48 sigS ++ natBytes 96 0

/-- The digest of the image's first 192 bytes, computed outside Lean, and the second half of its signature. -/
def imageDigest : Nat → Nat
  | 0 => 0x8e6d68dca5652b690ce3355abcb2834b17e6d4aeb585926a375bc161e9a77b4888c9416495b9bea07adae8cd403d9650
  | 1 => 0x6bfb6870ccc64d72010f9065b9a1b944f36e94a186d5cfa27e5b359429927ab12da680bb92666161acaa3b2e42a937eb
  | 2 => 0x1ddbdf64f838250f9ee283a5182aaff9669fb76e9e82b8837cdf4d60467c1f2bb657e8ea9a8524ffbac61039153e70b
  | 3 => 0xc23d7ed634fd277967b72db5653c18bf7e927a59f27ed63d97501d461ea1e879e8816eb5ed38ad65c8666e63d3ddd7be
  | 5 => 0x498d978c696e83ed6c2aa91a1a1d8e5a0e0fdb00b4b0ea9173369dccb4fd99fd8bcb823e4d53ff541a2143ceb47464a
  | 6 => 0x9a915d82b12d5736956ab3f6cd9ae747da50f2671564ba637cf556812150099a9e3c136bf45ad07b029cc43c0211d0b0
  | _ => 0

def imageSig : Nat → Nat
  | 0 => 0xcba380f110847f213b049ad041070d9dd07497042e3ce3a028488b5abecc0be318621bc2ce3c6589e1aed5ffafcc4f92
  | 1 => 0x3a6a80bb24351025b51ac855bf7ea89abe3876fd96e5023c68169eb2e4a5f4a7bec3b495283a632d0420727aca9f8ba6
  | 2 => 0x55bab7de593aa95318a14400b6f21780fb62a68486e302f44cffe53d210984885a3337eb3db5ba42ba1856571f4e336
  | 3 => 0xe58b8bedd8507d29686e96fd954bd85803ca69d9ccb98589d842b94cd949427bc83e326b79fbdcec887498caf99c7049
  | 5 => 0x86b9393f211d5d8c1ff4556bb37eb86b14f1ab84d91fa1bf98345f982fa03b0ec05bd72275ca263445126bb78551278f
  | 6 => 0xd1b57b4416689507ff485a1e497b3f9c31a9a5e05e2c779ccb1555ea5aa0530c231b84c67d8cee77258fc3b710b66cc2
  | _ => 0

def signedImage (target : Nat) : List Byte := image (BitVec.ofNat 8 target) (imageSig target)

/-- A report of no image, under the key that the key store certifies: what is signed, and all of it. -/
def reportBody : List Byte :=
  natBytes 4 0x54414B39 ++ natBytes 4 1 ++ List.replicate 504 0 ++ pointBytes (some p384G) ++ natBytes 15 0

def reportSig : Nat :=
  0xd7a89af5580be0db0d3649729755866fd60f5fd9117e67a17d2e6ba47d101f1efa1bea92114c340b8a8a0a138391dc86

def reportDigest : Nat :=
  0xa6779ce53473eedcb146929f694f74ef231c66587c089a6ce12781f5662fa1c04c3cdf031bd95ba3cc9150f4e7c8b038

def report0 : List Byte := reportBody ++ natBytes 48 sigR ++ natBytes 48 reportSig

/-- The digests, all at once: the round constants are computed once. -/
theorem digests : sha384 (pointBytes (some p384G)) = hashKey ∧ sha384 [] = hashNone ∧
    (∀ t, t ∈ [0, 1, 2, 3, 5, 6] → sha384 ((signedImage t).take 192) = beBytes 48 (imageDigest t)) ∧
    sha384 reportBody = beBytes 48 reportDigest := by decide +kernel

/-- The signatures. -/
theorem signatures : pointOf (pointBytes (some p384G)) = some p384G ∧
    (∀ t, t ∈ [0, 1, 2, 3, 5, 6] → ecdsaOk (some p384G) (beBytes 48 (imageDigest t)) sigR (imageSig t) = true) ∧
    ecdsaOk (some p384G) (beBytes 48 reportDigest) sigR reportSig = true := by decide +kernel

/-- The fields of the images. -/
theorem image_fields : ∀ t, t ∈ [0, 1, 2, 3, 5, 6] →
    let bs := signedImage t
    (bs.length = 384 ∧ field bs 0 4 = 0x314B4941 ∧ field bs 4 2 = 1 ∧ ((bs.drop 177).take 15).all (· == 0) = true ∧
      ((bs.drop 288).take 96).all (· == 0) = true ∧ field bs 6 1 = t ∧ field bs 7 1 = 0 ∧ field bs 12 4 = 0) ∧
    (bs.drop 80).take 97 = pointBytes (some p384G) ∧ (bs.drop 32).take 48 = hashNone ∧ field bs 192 48 = sigR ∧
    field bs 240 48 = imageSig t := by decide +kernel

/-- The trust core's stores with the key, and copies A of some targets. -/
def trust0 (a : Tbl (List Byte)) : Trust := { Trust.reset with keyHash := [(0, hashKey)], flashA := a }

/-- The images are accepted wherever the key is certified, not revoked, and no security version is fused. -/
theorem accepts_image (t : Trust) (hk : t.keyHash = [(0, hashKey)]) (hr : t.revoked = []) (hf : t.fused = []) (k : Nat)
    (h : k ∈ [0, 1, 2, 3, 5, 6]) : t.accepts k (signedImage k) = true := by
  obtain ⟨⟨f1, f2, f3, f4, f5, f6, f7, f8⟩, f9, f10, f11, f12⟩ := image_fields k h
  have d1 := digests.2.2.1 k h
  have d2 := signatures.2.1 k h
  have d3 : List.take 0 (List.drop 384 (signedImage k)) = [] := List.take_zero
  have d4 : tget t.keyHash 0 = some hashKey := by rw [hk]; rfl
  have d5 : t.revoked.contains 0 = false := by rw [hr]; rfl
  have d6 : tget t.fused k = none := by rw [hf]; rfl
  simp only [Trust.accepts, f1, f2, f3, f4, f5, f6, f7, f8, f9, f10, f11, f12, d1, d2, d3, d4, d5, d6, digests.1, digests.2.1,
    signatures.1]
  simp

theorem boot_image (l : Tbl (List Byte)) (k : Nat) (h : k ∈ [0, 1, 2, 3, 5, 6]) (hl : tget l k = some (signedImage k)) :
    (trust0 l).boot k = some (imageOf (signedImage k)) := by
  simp [Trust.boot, trust0, hl, Option.filter, accepts_image { Trust.reset with keyHash := [(0, hashKey)], flashA := l } rfl rfl rfl k h]

/-- The image of target 1 in memory at 0x2000. -/
def sImage : State := State.reset.pokeBytes 0x2000 (signedImage 1)

/-- The command of the trust core over the memory of a state. -/
def stageOf (x : State) : State :=
  { atOwner State.reset (cmd 0x50 0x2000) 6 with mem := x.mem, memTrained := [7], trust := trust0 [] }

theorem stageOf_peek (x : State) (a n : Nat) : (stageOf x).peek a n = x.peek a n := rfl

def sStage : State := stageOf sImage

theorem sStage_peek : sStage.peek 0x2000 384 = signedImage 1 := by
  have h : sImage.peek 0x2000 (signedImage 1).length = signedImage 1 := State.peek_pokeBytes State.reset 0x2000 (signedImage 1)
  rw [(image_fields 1 (by decide)).1.1] at h
  exact (stageOf_peek sImage 0x2000 384).trans h

theorem witness_TrustAndManagement_stage : ∃ (s : State) (m : Msg), s.commandReady m 0x50 6 = true ∧ argN m 8 8 % 16 = 0 ∧
    argN m 16 16 = 0 ∧ s.trust.staging = none ∧
    (let a := argN m 8 8
     let bs := s.peek a (384 + field (s.peek a 384) 12 4 % (2 ^ 24 + 1))
     a + bs.length ≤ s.osLimit ∧ field bs 6 1 ≤ 8 ∧ s.trust.accepts (field bs 6 1) bs = true) := by
  refine ⟨sStage, cmd 0x50 0x2000, by decide, by decide, by decide, rfl, ?_⟩
  have ha : argN (cmd 0x50 0x2000) 8 8 = 0x2000 := by decide
  have hl := page_lt sStage rfl
  obtain ⟨⟨hlen, -, -, -, -, h6, -, h12⟩, -⟩ := image_fields 1 (by decide)
  have hok : sStage.trust.accepts 1 (signedImage 1) = true := accepts_image _ rfl rfl rfl 1 (by decide)
  simp only [ha, sStage_peek, h12, Nat.zero_mod, Nat.add_zero]
  exact ⟨by rw [hlen]; omega, by rw [h6]; decide, by rw [h6]; exact hok⟩

theorem witness_TrustAndManagement_denied : ∃ (s : State) (m : Msg), s.commandReady m 0x50 6 = true ∧ argN m 8 8 % 16 = 0 ∧
    argN m 16 16 = 0 ∧ s.trust.staging = none ∧ s.trust.accepts 0 (s.peek (argN m 8 8) 384) = false ∧
    field (s.peek (argN m 8 8) 384) 12 4 = 0 ∧ field (s.peek (argN m 8 8) 384) 6 1 = 0 :=
  ⟨atOwner State.reset (cmd 0x50 0) 6, cmd 0x50 0, by decide, by decide, by decide, rfl, by decide +kernel, by decide +kernel,
    by decide +kernel⟩

theorem witness_TrustAndManagement_staging : ∃ (s s' : State) (m m' : Msg), s.commandReady m 0x50 6 = true ∧ argN m 8 8 % 16 = 0 ∧
    argN m 16 16 = 0 ∧ s.trust.staging ≠ none ∧ s'.commandReady m' 0x50 6 = true ∧ argN m' 8 8 % 16 = 15 :=
  ⟨atOwner { State.reset with trust := { Trust.reset with staging := some (0, [1]) } } (cmd 0x50 0) 6,
    atOwner State.reset (cmd 0x50 15) 6, cmd 0x50 0, cmd 0x50 15, by decide, by decide, by decide, by decide, by decide, by decide⟩

theorem witness_TrustAndManagement_written : ∃ (s : State) (k : Nat) (bs : List Byte), s.trust.staging = some (k, bs) :=
  ⟨{ State.reset with trust := { Trust.reset with staging := some (8, [1]) } }, 8, [1], rfl⟩

theorem witness_TrustAndManagement_activate : ∀ l : List Nat, l = [] ∨ l = [8] → ∃ (s : State) (m : Msg),
    s.commandReady m 0x51 6 = true ∧ argN m 9 23 = 0 ∧ argN m 8 1 = 8 ∧ s.trust.staged = l := by
  intro l h
  rcases h with rfl | rfl
  · exact ⟨atOwner State.reset (cmd 0x51 8) 6, cmd 0x51 8, by decide, by decide, by decide, rfl⟩
  · exact ⟨atOwner { State.reset with trust := { Trust.reset with staged := [8] } } (cmd 0x51 8) 6, cmd 0x51 8, by decide, by decide,
      by decide, rfl⟩

theorem witness_TrustAndManagement_activateBad : ∃ (s : State) (m : Msg), s.commandReady m 0x51 6 = true ∧ argN m 9 23 ≠ 0 :=
  ⟨atOwner State.reset (cmd 0x51 0x108) 6, cmd 0x51 0x108, by decide, by decide⟩

/-- A running image of security version 7 whose fused minimum is 5. -/
def sFuse (m : Msg) : State :=
  atOwner { State.reset with trust := { Trust.reset with running := [(8, ⟨8, 7, [], []⟩)], fused := [(8, 5)] } } m 6

theorem witness_TrustAndManagement_fuse : ∀ v : BitVec 192, v = 4 ∨ v = 5 ∨ v = 7 ∨ v = 8 → ∃ (s : State) (m : Msg),
    s.commandReady m 0x52 6 = true ∧ argN m 9 3 = 0 ∧ argN m 16 16 = 0 ∧ argN m 8 1 = 8 ∧ argN m 12 4 = v.toNat ∧
    ((tget s.trust.running 8).map (·.secVersion)).getD 0 = 7 ∧ (tget s.trust.fused 8).getD 0 = 5 := by
  intro v h
  refine ⟨sFuse (cmd 0x52 (8 + v <<< 32)), cmd 0x52 (8 + v <<< 32), ?_⟩
  rcases h with rfl | rfl | rfl | rfl <;> decide

theorem witness_TrustAndManagement_fuseBad : ∃ (s : State) (m : Msg), s.commandReady m 0x52 6 = true ∧ argN m 8 1 = 9 :=
  ⟨sFuse (cmd 0x52 9), cmd 0x52 9, by decide, by decide⟩

theorem witness_TrustAndManagement_attest : ∀ a : BitVec 192, a = 16 ∨ a = 1 → ∃ (s : State) (m : Msg),
    s.commandReady m 0x53 6 = true ∧ argN m 8 8 = a.toNat ∧ Quiet s ∧
      ∀ k im, tget s.trust.running k = some im → im.digest.length = 48 := by
  intro a h
  refine ⟨atOwner { State.reset with trust := { Trust.reset with running := [(8, ⟨8, 7, List.replicate 48 0, []⟩)] } } (cmd 0x53 a) 6,
    cmd 0x53 a, ?_, ?_, quiet _ rfl, ?_⟩
  · rcases h with rfl | rfl <;> decide
  · rcases h with rfl | rfl <;> decide
  · intro k im hk
    change tget [(8, (⟨8, 7, List.replicate 48 0, []⟩ : Image))] k = some im at hk
    simp only [tget] at hk
    split at hk
    · cases hk; rfl
    · exact nomatch hk

theorem witness_TrustAndManagement_mailbox : ∀ o : Byte, o = 0x05 ∨ o = 0x01 ∨ o = 0x10 → ∃ (s : State) (m : Msg) (rest : List Msg),
    s.cmdQ = m :: rest ∧ m.opc = o ∧ unassigned m = (o == 5) ∧ s.rspQ.length < 64 ∧ (s.fifo 1).length < 32 := by
  intro o h
  rcases h with rfl | rfl | rfl <;> exact ⟨atCore0 State.reset (cmd _ 0), cmd _ 0, [], rfl, rfl, by decide, by decide, by decide⟩

theorem witness_TrustAndManagement_mailboxFull : ∃ (s : State) (m : Msg), s.cmdQ = [m] ∧ unassigned m = false ∧
    owner m.opc.toNat = some 1 ∧ (s.fifo 1).length = 32 :=
  ⟨{ atCore0 State.reset (cmd 0x10 0) with mailbox := [(1, List.replicate 32 (cmd 0x10 0))] }, cmd 0x10 0, rfl, by decide, by decide,
    by decide⟩

/-- A message of core 5 to core 7, whose FIFO has room for one more, or for none; and receivers and senders that are no
core. -/
theorem witness_TrustAndManagement_core : ∀ n, n = 31 ∨ n = 32 → ∃ (s : State) (m : Msg), s.cmdQ.head? ≠ some m ∧ m.src = 5 ∧
    m.dst.toNat = 7 ∧ (s.fifo 7).length = n := by
  intro n h
  refine ⟨{ State.reset with mailbox := [(7, List.replicate n (cmd 0x10 0))] }, ⟨0x10, 5, 7, 0, 7, 0⟩, by simp [State.reset], rfl,
    rfl, ?_⟩
  rcases h with rfl | rfl <;> decide

theorem witness_TrustAndManagement_noCore : ∀ d : Byte, d = 0 ∨ d = 8 → ∃ (s : State) (m : Msg), s.cmdQ.head? ≠ some m ∧
    m.src = (if d = 0 then 8 else 0) ∧ m.dst.toNat = d.toNat := by
  intro d h
  rcases h with rfl | rfl
  · exact ⟨State.reset, ⟨0x10, 8, 0, 0, 7, 0⟩, by simp [State.reset], rfl, rfl⟩
  · exact ⟨State.reset, ⟨0x10, 0, 8, 0, 7, 0⟩, by simp [State.reset], rfl, rfl⟩

theorem witness_TrustAndManagement_registers : State.reset.errHeld = [] := rfl

/-- Values at the ends of the ranges of the registers: a ring disabled, whose reserved bits are ignored, the sizes 2 ^ 5 and
2 ^ 6; the limits of power; and a full queue of commands. -/
theorem witness_TrustAndManagement_values : ringOk 0xFFF0000000000FF0 = true ∧ ringOk 0x1005 = false ∧ ringOk 0x1006 = true ∧
    State.reset.cmdQ.length < 64 ∧ (∀ v : W64, v = 700 ∨ v = 1400 → 700 ≤ v.toNat ∧ v.toNat ≤ 1400) ∧
    ∃ s : State, s.errHeld = [] ∧ s.cmdQ.length = 64 ∧ s.rspQ.length = 2 := by
  refine ⟨by decide, by decide, by decide, by decide, ?_, { State.reset with cmdQ := List.replicate 64 (cmd 0x10 0), rspQ :=
    [cmd 0x10 0, cmd 0x11 0] }, rfl, by decide, rfl⟩
  intro v h
  rcases h with rfl | rfl <;> decide

/-! ## Witnesses: errors, telemetry and power, outside agents -/

/-- The module with images running that verify. -/
def sGood (t : Tbl (List Byte)) : State := { State.reset with trust := trust0 t, grids := [(1, g0), (2, g0)] }

theorem witness_Errors_reload : ∃ s : State, s.trust.boot 1 ≠ none := by
  refine ⟨sGood [(1, signedImage 1)], ?_⟩
  show (trust0 _).boot 1 ≠ none
  rw [boot_image _ 1 (by decide) rfl]
  exact Option.some_ne_none _

/-- A queue whose descriptor at 0x1000 names the handler queue at 0x2040, with a live grid of it. -/
def sReload : State :=
  { onPage State.reset lowDesc with queues := [(1, { q0 with desc := 0x1000, grids := [1] }), (2, hq0)], grids := [(1, { g0 with qid := 1 }), (2, g0)] }

theorem witness_Errors_queue : ∃ (s : State) (q : Queue) (g : Grid), Quiet s ∧ s.queue? 1 = some q ∧ q.st ≠ .destroyed ∧
    field (s.peek q.desc 64) 40 1 ≤ 1 ∧ s.handlerAt (field (s.peek q.desc 64) 8 8) (field (s.peek q.desc 64) 36 2) = some 2 ∧
    (1, g) ∈ s.grids ∧ g.st = .live ∧ g.depth = 0 ∧ g.qid = 1 ∧ 1 ∈ q.grids :=
  ⟨sReload, _, { g0 with qid := 1 }, quiet _ rfl, rfl, by decide, by decide +kernel, by decide +kernel, by decide, rfl, rfl, rfl, by decide⟩

theorem witness_Errors_noImage : ∃ s : State, s.trust.boot 1 = none := ⟨State.reset, by decide⟩

theorem witness_Errors_link : ∃ (s s' : State) (a b : Nat), a ≠ b ∧ a ≤ 12 ∧ b ≤ 12 ∧ (min a b, max a b) ∉ s.links ∧
    ({ s with links := s.links ++ [(min a b, max a b)] } : State).relay a b ≠ none ∧ (min a b, max a b) ∉ s'.links ∧
    ({ s' with links := s'.links ++ [(min a b, max a b)] } : State).relay a b = none :=
  ⟨State.reset, { State.reset with links := [(0, 12)] }, 12, 1, by decide, by decide, by decide, by decide, by decide, by decide,
    by decide⟩

theorem witness_Errors_down : ∃ (s : State) (a b : Nat), (min a b, max a b) ∈ s.links ∧ a ≠ b :=
  ⟨{ State.reset with links := [(0, 12)] }, 12, 0, by decide, by decide⟩

/-- A request of core 32 on its way to the application cluster's die; memory die 7 is in service. -/
def pcieReq : Req := { reqOf (.write [(384, 1)]) with sp := .pcie }
def sLink : State :=
  { kit w0 t0 g0 1 with cores := [(32, { Core.reset with inflight := [pcieReq] })], mg := { Mg.reset with mdMask := 1 } }

theorem witness_Errors_delivered : ∃ s : State, Quiet s ∧ s.ops = [] ∧ (0, 1) ∉ s.links ∧
    ({ s with links := s.links ++ [(0, 1)] } : State).relay 1 0 ≠ none ∧ (32, pcieReq) ∈ s.onLink 1 0 ++ s.onLink 0 1 :=
  ⟨sLink, fun l => by simp [State.holders, sLink, Core.isUpd, Core.reset, tget], rfl, by decide, by decide, by decide⟩

theorem witness_Errors_attachment : ∀ a, a = 0 ∨ a = 1 ∨ a = 12 ∨ a = 13 → ∃ s : State, (a, 7, 0) ∉ s.outOfService ∧ s.links = [] := by
  intro a h
  rcases h with rfl | rfl | rfl | rfl <;> exact ⟨State.reset, by decide, rfl⟩

theorem witness_Errors_port : ∃ (s : State) (port : Nat) (o : AsyncOp) (a d n : Nat), s.mg.peerMask / 2 ^ port % 2 = 1 ∧ s.ops = [o] ∧
    o.kind = .peerCopy a d n port ∧ o.done < n ∧ (s.ctxOf o.wid o.lanes).isSome = true :=
  ⟨{ sPeer with ops := [oPeer] }, 3, oPeer, 0x2000004, 0x100, 4, by decide, rfl, rfl, by decide, by decide⟩

theorem witness_Errors_portOff : ∃ (s : State) (port : Nat), s.mg.peerMask / 2 ^ port % 2 = 0 := ⟨State.reset, 3, by decide⟩

/-- The units of the least and the greatest numbers, with a threshold of 1 or 2. -/
theorem witness_Errors_unit : ∀ u : ErrUnit, u = ⟨1, 0, 0⟩ ∨ u = ⟨6, 0, 23⟩ ∨ u = ⟨6, 2, 7⟩ ∨ u = ⟨12, 3, 15⟩ ∨ u = ⟨7, 4, 3⟩ ∨
    u = ⟨0, 6, 7⟩ → ∃ s s' : State, ErrUnit.valid u = true ∧ (s.countErr u).1 = s.mg.errThresh ∧ s.isOut u = false ∧
      (s'.countErr u).1 + 1 = s'.mg.errThresh ∧ s'.mg.errRing = 0 ∧ s'.errHeld.length = 0 := by
  intro u h
  rcases h with rfl | rfl | rfl | rfl | rfl | rfl <;>
    exact ⟨{ State.reset with mg := { Mg.reset with errThresh := 1 } }, { State.reset with mg := { Mg.reset with errThresh := 2 } },
      by decide, by decide, by decide, by decide, rfl, rfl⟩

/-- A core with the only copy of the words of line 3; a hall with a holder. -/
theorem witness_Errors_lost : (({ State.reset with cores := [(32, { Core.reset with l1 := [(3, ⟨0, [], some (.add, .s32, 1)⟩)] })] } :
      State).core (1 * 32 + 0)).isUpd (384 / 128) = true ∧ (State.reset.core (1 * 32 + 0)).isUpd (384 / 128) = false ∧
    (State.reset.hall 1 0).holder = none ∧ (State.reset.hall 1 0).carved = [] ∧ (State.reset.hall 1 0).grid = none ∧
    (({ kit w0 t0 g0 1 with dies := [(1, { Die.reset with halls := [(0, { Hall.reset with grid := some 1 })] })] } : State).hall 1 0).grid
      = some 1 ∧ (kit w0 t0 g0 1).grid? 1 = some g0 ∧ g0.st = .live ∧
    (({ State.reset with dies := [(1, { Die.reset with halls := [(0, { Hall.reset with holder := some 1 })] })] } : State).hall 1 0).holder
      ≠ none := by decide

theorem witness_Errors_invalid : ErrUnit.valid ⟨7, 0, 0⟩ = false ∧ ErrUnit.valid ⟨6, 0, 24⟩ = false := by decide

/-- A telemetry ring of two slots, free or full. -/
theorem witness_TelemetryPowerAndAgents_telemetry : ∀ r : W32, r = 0 ∨ r = 2 → ∃ s s' : State, Quiet s ∧
    ringFree s.mg.telRing s.mg.telWr s.mg.telRd = (r == 2) ∧ 7 ∉ s.trust.held ∧ 7 ∈ s'.trust.held ∧ 4 ∈ s'.trust.held := by
  intro r h
  refine ⟨{ State.reset with mg := { Mg.reset with telRing := 0x1001, telWr := 2, telRd := r } },
    { State.reset with trust := { Trust.reset with held := [4, 7] } }, quiet _ rfl, ?_, (show 7 ∉ Trust.reset.held by decide), by decide, by decide⟩
  rcases h with rfl | rfl <;> decide

/-- Sensors at the limits: nothing, power alone, heat alone, both, and the room to raise the clock. -/
theorem witness_TelemetryPowerAndAgents_power : ∀ x : Sensors, x = ⟨1400, [95], 0, 0⟩ ∨ x = ⟨1401, [95], 0, 0⟩ ∨ x = ⟨1400, [96], 0, 0⟩ ∨ x = ⟨1401, [96], 0, 0⟩ ∨
    x = ⟨1330, [92], 0, 0⟩ → ∃ s : State, s.mg.pwrLimit = 1400 ∧ (s.mg.pwrLimit < x.power ↔ x.power = 1401) ∧
      (95 < Sensors.tmax x ↔ x.temps = [96]) ∧ (100 * x.power ≤ 95 * s.mg.pwrLimit ∧ Sensors.tmax x ≤ 92 ↔ x.power = 1330) := by
  intro x h
  rcases h with rfl | rfl | rfl | rfl | rfl <;> exact ⟨State.reset, rfl, by decide, by decide, by decide⟩

theorem witness_TelemetryPowerAndAgents_pcie : ∃ (s : State) (addr : Nat) (bytes : List Byte), Quiet s ∧ addr + bytes.length ≤ s.osLimit := by
  have hl : 0x3FFF + 1 ≤ (onPage State.reset []).osLimit := page_lt _ rfl
  exact ⟨onPage State.reset [], 0x3FFF, [7], quiet _ rfl, hl⟩

theorem witness_TelemetryPowerAndAgents_pcieOut : ∃ (s : State) (addr : Nat) (bytes : List Byte), Quiet s ∧ s.osLimit < addr + bytes.length ∧
    s.mg.errRing = 0 ∧ s.errHeld.length < 4096 :=
  ⟨State.reset, 0, [7], quiet _ rfl, by simp [State.osLimit, State.capacity, State.reset], rfl, by decide⟩

theorem witness_TelemetryPowerAndAgents_peer : ∃ (s : State) (port asid va a : Nat), (∃ r, (port, asid, r) ∈ s.peers) ∧ Quiet s ∧
    s.vloc none asid va .write = .ok ⟨.mem, a⟩ :=
  ⟨onPage { State.reset with peers := [(3, 0, 9)] } [], 3, 0, 0x2003FFF, 0x3FFF, ⟨9, by decide⟩, quiet _ rfl,
    vloc_page _ (bare_onPage _ _ rfl rfl rfl rfl rfl) none _ _ (by decide) (by decide +kernel)⟩

theorem witness_TelemetryPowerAndAgents_noPeer : ∃ (s : State) (port asid : Nat), ∀ r, (port, asid, r) ∉ s.peers :=
  ⟨State.reset, 0, 0, fun _ => List.not_mem_nil⟩

theorem witness_TelemetryPowerAndAgents_doorbell : ∀ k, k = 0 ∨ k = 16383 → ∃ (s : State) (addr : Nat) (q : Nat), Quiet s ∧
    s.doorbellAt addr = some (q, k) := by
  intro k h
  refine ⟨{ State.reset with queues := [(1, q0)] }, Config.doorbellPage 1 / 16384 * 16384 + k, 1, quiet _ rfl, ?_⟩
  have hk : k < 16384 := by omega
  have e : (Config.doorbellPage 1 / 16384 * 16384 + k) / 16384 = Config.doorbellPage 1 / 16384 := by omega
  have e2 : (Config.doorbellPage 1 / 16384 * 16384 + k) % 16384 = k := by omega
  have hl : ({ State.reset with queues := [(1, q0)] } : State).liveQueues = [(1, q0)] := rfl
  simp only [State.doorbellAt, hl, e, e2, List.find?, beq_self_eq_true, Option.map]

/-- The application cluster's ranges. -/
def sApp : State := { onPage State.reset [] with trust := { Trust.reset with filters := appFilters } }

theorem witness_TelemetryPowerAndAgents_window : ∀ addr, addr = 2 ^ 48 ∨ addr = 2 ^ 48 + 0x168 ∨ addr = 2 ^ 48 + 0x160 ∨ addr = 2 ^ 48 + 0xFFF8 ∨
    addr = 2 ^ 49 → ∃ (s : State) (bytes : List Byte), Quiet s ∧ s.doorbellAt addr = none ∧ s.cpuMay true addr 8 = true ∧
      s.cpuMay false addr 8 = true ∧ bytes.length = 8 ∧ addr % 2 ^ 48 % 8 = 0 := by
  intro addr h
  rcases h with rfl | rfl | rfl | rfl | rfl <;>
    exact ⟨sApp, natBytes 8 5, quiet _ rfl, rfl, by decide, by decide, rfl, by decide⟩

theorem witness_TelemetryPowerAndAgents_memory : ∃ (s : State) (addr : Nat), Quiet s ∧ s.doorbellAt addr = none ∧ s.cpuMay true addr 1 = true ∧
    addr < 2 ^ 48 := by
  refine ⟨sApp, 0x3FFF, quiet _ rfl, rfl, ?_, by decide⟩
  have hl : 0x3FFF + 1 ≤ sApp.osLimit := page_lt sApp rfl
  simp only [State.cpuMay, decide_eq_true hl, Bool.or_true, Bool.and_true]
  decide

theorem witness_TelemetryPowerAndAgents_blocked : ∃ (s : State) (addr : Nat), Quiet s ∧ s.doorbellAt addr = none ∧ s.cpuMay true addr 8 = false ∧
    s.mg.errRing = 0 ∧ s.errHeld.length < 4096 := ⟨sApp, 2 ^ 48 + 0xFFF9, quiet _ rfl, rfl, by decide, rfl, by decide⟩

/-! ## Witnesses: boot -/

theorem witness_Boot_none : ∃ s : State, s.trust.boot 6 = none := ⟨State.reset, by decide⟩

theorem witness_Boot_trust : ∃ (s : State) (im : Image) (k : Nat), s.trust.boot 6 = some im ∧ k ∈ [0, 1, 2, 3, 5] ∧
    s.trust.boot k = none :=
  ⟨sGood [(6, signedImage 6)], _, 5, boot_image _ 6 (by decide) rfl, by decide, by decide⟩

def allImages : Tbl (List Byte) :=
  [(0, signedImage 0), (1, signedImage 1), (2, signedImage 2), (3, signedImage 3), (5, signedImage 5), (6, signedImage 6)]

theorem witness_Boot_all : ∃ (s : State) (im : Image), s.trust.boot 6 = some im ∧ ∀ k, k ∈ [0, 1, 2, 3, 5] → s.trust.boot k ≠ none := by
  refine ⟨sGood allImages, _, boot_image _ 6 (by decide) rfl, ?_⟩
  intro k hk
  have h : k ∈ [0, 1, 2, 3, 5, 6] ∧ tget allImages k = some (signedImage k) := by
    simp only [List.mem_cons, List.not_mem_nil, or_false] at hk
    rcases hk with rfl | rfl | rfl | rfl | rfl <;> exact ⟨by decide, rfl⟩
  show (trust0 _).boot k ≠ none
  rw [boot_image _ k h.1 h.2]
  exact Option.some_ne_none _

def sFive : State := { State.reset with mg := { Mg.reset with stage := 5 } }

theorem witness_Boot_die : ∀ k, k = 1 ∨ k = 6 → ∃ s s' : State, k ∈ sockets ∧ s.mayTrain k = true ∧ s.inTime k = true ∧
    (s.die k).inService = false ∧ s.mg.stage = 5 ∧ s.memUp 7 = true ∧ s.memUp 8 = true ∧ s.dieGone 7 = false ∧
    (s.die 1).inService = false ∧ s.dieGone 1 = false ∧ s'.mayTrain k = true ∧ s'.inTime k = true ∧ (s'.die k).inService = false ∧
    s'.mg.stage = 7 := by
  intro k h
  rcases h with rfl | rfl <;>
    exact ⟨{ State.reset with mg := { Mg.reset with stage := 5, mdMask := 3 } }, { State.reset with mg := { Mg.reset with stage := 7 } },
      by decide, by decide, by decide, by decide, rfl, by decide, by decide, by decide, by decide, by decide, by decide, by decide,
      by decide, rfl⟩

/-- Socket 1 has failed to train, and 999,999,999 ns after the reset die 2 is the first to have trained; a moment later is too
late. -/
theorem witness_Boot_place : ∃ s s' : State, s.mayTrain 2 = true ∧ s.inTime 2 = true ∧ (s.die 2).inService = false ∧ s.mg.stage = 5 ∧
    (s.die 1).inService = false ∧ s.dieGone 1 = true ∧ (∀ d, d < 2 → (s.die d).trained = false) ∧ s.memUp 7 = true ∧
    s.memUp 8 = true ∧ s.dieGone 7 = false ∧ s'.inTime 2 = false :=
  ⟨{ State.reset with mg := { Mg.reset with stage := 5, mdMask := 3 }, outOfService := [(1, 7, 0)], ns := 999999999 },
    { State.reset with mg := { Mg.reset with stage := 5 }, ns := 1000000000 }, by decide, by decide, by decide, rfl, by decide,
    by decide, by decide, by decide, by decide, by decide, by decide⟩

theorem witness_Boot_memory : ∃ s : State, s.mayTrain 7 = true ∧ s.inTime 7 = true ∧ s.memUp 7 = false ∧ s.mg.stage = 5 ∧
    (s.die 1).inService = true ∧ s.dieGone 1 = false ∧ s.memUp 8 = true ∧ s.mayTrain 12 = true ∧ s.inTime 12 = true ∧
    s.memUp 12 = false :=
  ⟨{ State.reset with mg := { Mg.reset with stage := 5, mdMask := 2 }, dies := [(1, { Die.reset with inService := true })] }, by decide,
    by decide, by decide, rfl, rfl, by decide, by decide, by decide, by decide, by decide⟩

theorem witness_Boot_memory8 : ∃ s : State, s.mayTrain 8 = true ∧ s.inTime 8 = true ∧ s.memUp 8 = false ∧ s.mg.stage = 5 ∧
    (s.die 1).inService = true ∧ s.dieGone 1 = false ∧ s.memUp 7 = true :=
  ⟨{ State.reset with mg := { Mg.reset with stage := 5, mdMask := 1 }, dies := [(1, { Die.reset with inService := true })] }, by decide,
    by decide, by decide, rfl, rfl, by decide, by decide⟩

theorem witness_Boot_powerLoss : ∃ (s s' : State) (k : Nat) (bs : List Byte), s.trust.staging = some (k, bs) ∧ s'.trust.staging = none :=
  ⟨{ State.reset with trust := { Trust.reset with staging := some (8, [1]) } }, State.reset, 8, [1], rfl, rfl⟩

theorem witness_Boot_timeout : ∀ k, k = 1 ∨ k = 12 → ∃ s s' : State, (if k ≤ 6 then (s.die k).trained else s.memUp k) = false ∧
    s.mayTrain k = true ∧ s.resetNs + trainLimit k = s.ns ∧ s'.ns + 1 = s'.resetNs + trainLimit k ∧
    (if k ≤ 6 then (s'.die k).trained else s'.memUp k) = false ∧ s.mg.stage = 5 ∧ s.computeUp = false := by
  intro k h
  rcases h with rfl | rfl
  · exact ⟨{ sFive with ns := 1000000000 }, { sFive with ns := 999999999 }, by decide, by decide, by decide, by decide, by decide, rfl,
      by decide⟩
  · exact ⟨{ sFive with ns := 30000000000 }, { sFive with ns := 29999999999 }, by decide, by decide, by decide, by decide, by decide,
      rfl, by decide⟩

theorem witness_Boot_full : ∃ s : State, s.mg.stage = 7 ∧ s.mg.full = false ∧
    ∀ d, 7 ≤ d → d ≤ 12 → s.memUp d = true ∨ s.dieGone d = true := by
  refine ⟨{ State.reset with mg := { Mg.reset with stage := 7, mdMask := 0x1F }, outOfService := [(12, 7, 0)] }, rfl, rfl, ?_⟩
  intro d h1 h2
  have : ∀ d, d < 13 → 7 ≤ d → ({ State.reset with mg := { Mg.reset with stage := 7, mdMask := 0x1F }, outOfService := [(12, 7, 0)] } :
    State).memUp d = true ∨ ({ State.reset with mg := { Mg.reset with stage := 7, mdMask := 0x1F }, outOfService := [(12, 7, 0)] } :
    State).dieGone d = true := by decide
  exact this d (by omega) h1

theorem witness_Boot_notFull : ∃ (s : State) (d : Nat), 7 ≤ d ∧ d ≤ 12 ∧ s.memUp d = false ∧ s.dieGone d = false ∧ s.mg.stage = 7 :=
  ⟨{ State.reset with mg := { Mg.reset with stage := 7 } }, 12, by decide, by decide, by decide, by decide, rfl⟩

theorem report_ok (s : State) (h : s.trust = trust0 []) : s.reportOk report0 = true := by
  have f : report0.length = 720 ∧ field report0 0 4 = 0x54414B39 ∧ field report0 4 4 = 1 ∧
      (report0.drop 512).take 97 = pointBytes (some p384G) ∧ report0.take 624 = reportBody ∧ field report0 624 48 = sigR ∧
      field report0 672 48 = reportSig := by decide +kernel
  obtain ⟨f1, f2, f3, f4, f5, f6, f7⟩ := f
  have hk : ((List.range 4).any fun i => tget (trust0 []).keyHash i == some hashKey && !(trust0 []).revoked.contains i) = true := by
    decide
  simp only [State.reportOk, f1, f2, f3, f4, f5, f6, f7, h, digests.1, digests.2.2.2, signatures.1, signatures.2.2, hk]
  decide

theorem witness_Boot_port : ∃ (s : State) (port : Nat) (report : List Byte), port < 4 ∧ s.mg.stage = 7 ∧ s.reportOk report = true :=
  ⟨{ State.reset with mg := { Mg.reset with stage := 7 }, trust := trust0 [] }, 3, report0, by decide, rfl, report_ok _ rfl⟩

theorem witness_Boot_portOff : ∃ (s : State) (port : Nat) (report : List Byte), port < 4 ∧ s.mg.stage = 7 ∧
    s.reportOk report = false := ⟨{ State.reset with mg := { Mg.reset with stage := 7 } }, 0, [], by decide, rfl, by decide⟩

/-! ## Witnesses: steps, the encoding, the invariant -/

/-- `NOP` is stored where the next step fetches. -/
def sNext : State := State.reset.withFetchWord 96 nopWord.toNat

/-- The lanes 0 to 31 of the placed warp. -/
def placedIssue (w : IWord) : Issue := ⟨0, 0xFFFFFFFF, w⟩

/-- `IADD` with a stair of channel 1, distance 4, which the grid does not name, as its first source. -/
def stairWord : IWord := 0x01#7 ++ 0#5 ++ 0#5 ++ (0#3 ++ 5#8) ++ (3#3 ++ 0x0B#9) ++ blank ++ blank ++ 7#4 ++ 0#8 ++ 0#20

/-- The grid without stair channels. -/
def g1 : Grid := { g0 with rec_ := { g0.rec_ with stairEn := 0 } }

/-- A word whose `OP` is not assigned. -/
def opWord : IWord := 0x28#7 ++ 0#5 ++ 0#5 ++ 0#11 ++ blank ++ blank ++ blank ++ 7#4 ++ 0#8 ++ 0#20

theorem witness_StepRuns_issue : ∃ (s : State) (x : Issue), x ∈ s.issuesNow := by
  have h : sNext.issuesNow ≠ [] := by decide +kernel
  exact ⟨sNext, List.exists_mem_of_ne_nil _ h⟩

theorem witness_StepRuns_act : ∃ (s : State) (x : Issue) (c : Ctx) (i : Instr), s.ctxOf x.wid x.lanes = some c ∧
    decode x.word = .ok i ∧ Instr.contextOk i c.g.rec_ s.mg.full = true :=
  ⟨kit w0 t0 g0 0xFFFFFFFF, placedIssue nopWord, kc w0 t0 g0 0xFFFFFFFF, .nop ⟨0, false, 0, false⟩, by decide, rfl, by decide⟩

theorem witness_StepRuns_context : ∃ (s : State) (x : Issue) (c : Ctx) (i : Instr), s.ctxOf x.wid x.lanes = some c ∧
    decode x.word = .ok i ∧ Instr.contextOk i c.g.rec_ s.mg.full = false :=
  ⟨kit w0 t0 g1 0xFFFFFFFF, placedIssue stairWord, kc w0 t0 g1 0xFFFFFFFF,
    .iadd ⟨.always, ⟨0, false, 0, false⟩, .vec 5, .stair 1 3, .zero, .zero⟩ 0 .s32 false, by decide, rfl, by decide⟩

theorem witness_StepRuns_error : ∃ (s : State) (x : Issue) (c : Ctx), s.ctxOf x.wid x.lanes = some c ∧
    decode x.word = .error .op :=
  ⟨kit w0 t0 g0 0xFFFFFFFF, placedIssue opWord, kc w0 t0 g0 0xFFFFFFFF, by decide, rfl⟩

theorem witness_StepRuns_input : ∃ (s : State) (i : Instr) (rest : List Instr), s.inputs = i :: rest :=
  ⟨{ State.reset with inputs := [.moduleReset] }, .moduleReset, [], rfl⟩

theorem witness_StepRuns_quiet : ∃ s : State, s.inputs = [] ∧ s.tick.actions = [] :=
  ⟨State.reset, rfl, by decide +kernel⟩

/-- A core that waits for one cache line. -/
def sOne : State := { State.reset with cores := [(0, { Core.reset with inflight := [fillReq] })] }

theorem witness_StepRuns_one : ∃ (s : State) (a : Action), s.inputs = [] ∧ s.tick.actions = [a] :=
  ⟨sOne, .event (.mergingFillReturn 0 3), rfl, by decide +kernel⟩

/-- The largest values of the fields of an `IADD`. -/
theorem witness_DecodeOfEncode :
    (Instr.iadd ⟨⟨true, 6⟩, ⟨7, true, 7, true⟩, .vec 255, .vec true 255, .uni 63, .zero⟩ 0 .n32 true).wf = true := by decide

theorem witness_EncodeOfDecode : ∃ i, decode nopWord = .ok i := ⟨.nop ⟨0, false, 0, false⟩, rfl⟩

theorem witness_MemoryStaysCanonical : ∃ (i : Instr) (s t : State), s.MemInv ∧ exec i s = .next t ∧ step s = .next s.tick :=
  ⟨.moduleReset, State.reset, State.reset.outOfReset.bootSteps, rfl, rfl, rfl⟩

/-! ## Words written out from the tables of R23, R25 and R46 to R60 -/

/-- A standard word without a guard and hints, its fields in the order of R46. -/
def word (op : BitVec 7) (sub mod : BitVec 5) (d : BitVec 11) (a b c : BitVec 12) (x : BitVec 20) : IWord :=
  op ++ sub ++ mod ++ d ++ a ++ b ++ c ++ 7#4 ++ 0#8 ++ x

theorem test_decode_arithmetic_1 :
    decode (word 0x01#7 (1#2 ++ 2#3) 0#5 (0#3 ++ 3#8) (0#3 ++ 0x001#9) (1#3 ++ 5#9) blank 0#20) =
      .ok (.isub (fm (.vec 3) (.vec false 1) (.uni 5)) 0 .s16x2 false) ∧
    decode (word 0x02#7 1#5 0#5 (1#3 ++ 7#8) (1#3 ++ 1#9) (4#3 ++ 0#9) blank 0x80001#20) =
      .ok (.imul (fm (.uni 7) (.uni 1) (.imm 0)) 0x80001 .n32) ∧
    decode (word 0x03#7 0#5 0#5 (4#3 ++ 0#8) (0#3 ++ 0x101#9) (2#3 ++ 0x011#9) blank 0#20) =
      .ok (.imulh (fm .nwb (.vec true 1) (.const false 1)) 0 .s32) ∧
    decode (word 0x04#7 2#5 1#5 (0#3 ++ 3#8) (0#3 ++ 0x001#9) (0#3 ++ 0x002#9) (2#3 ++ 0x108#9) 0#20) =
      .ok (.imad (fm (.vec 3) (.vec false 1) (.vec false 2) (.win true 7)) 0 .s16x2 true) ∧
    decode (word 0x05#7 1#5 0#5 (0#3 ++ 4#8) (0#3 ++ 0x001#9) (0#3 ++ 0x002#9) (0#3 ++ 0x006#9) 0#20) =
      .ok (.imadw (fm (.vec 4) (.vec false 1) (.vec false 2) (.vec false 6)) 0 .n32) ∧
    decode (word 0x06#7 (0#2 ++ 4#3) 0#5 (0#3 ++ 3#8) (0#3 ++ 0x001#9) (0#3 ++ 0x002#9) blank 0#20) =
      .ok (.imin (fm (.vec 3) (.vec false 1) (.vec false 2)) 0 .n8x4) ∧
    decode (word 0x06#7 (1#2 ++ 0#3) 0#5 (0#3 ++ 3#8) (0#3 ++ 0x001#9) (0#3 ++ 0x002#9) blank 0#20) =
      .ok (.imax (fm (.vec 3) (.vec false 1) (.vec false 2)) 0 .s32) ∧
    decode (word 0x07#7 3#5 1#5 (0#3 ++ 3#8) (0#3 ++ 0x0FF#9) blank blank 0#20) =
      .ok (.iabs (fm (.vec 3) (.vec false 255)) 0 .s8x4 true) ∧
    decode (word 0x08#7 (0#2 ++ 0#3) 0#5 (0#3 ++ 3#8) (0#3 ++ 0x001#9) (4#3 ++ 1#9) blank 7#20) =
      .ok (.andB (fm (.vec 3) (.vec false 1) (.imm 1)) 7) ∧
    decode (word 0x08#7 (1#2 ++ 0#3) 0#5 (0#3 ++ 3#8) (0#3 ++ 0x001#9) (4#3 ++ 1#9) blank 7#20) =
      .ok (.orB (fm (.vec 3) (.vec false 1) (.imm 1)) 7) ∧
    decode (word 0x08#7 (2#2 ++ 0#3) 0#5 (0#3 ++ 3#8) (0#3 ++ 0x001#9) (4#3 ++ 1#9) blank 7#20) =
      .ok (.xorB (fm (.vec 3) (.vec false 1) (.imm 1)) 7) ∧
    decode (word 0x08#7 (3#2 ++ 0#3) 0#5 (0#3 ++ 3#8) (0#3 ++ 0x001#9) (4#3 ++ 1#9) blank 7#20) =
      .ok (.andnB (fm (.vec 3) (.vec false 1) (.imm 1)) 7) := by
  refine ⟨?_, ?_, ?_, ?_, ?_, ?_, ?_, ?_, ?_, ?_, ?_, ?_⟩ <;> rfl

theorem test_decode_arithmetic_2 :
    decode (word 0x09#7 0#5 0#5 (0#3 ++ 3#8) (1#3 ++ 75#9) blank blank 0#20) = .ok (.notB (fm (.vec 3) (.mask 11)) 0) ∧
    decode (word 0x0A#7 (0#2 ++ 0#3) 0#5 (0#3 ++ 3#8) (0#3 ++ 0x001#9) (2#3 ++ 0x001#9) blank 0#20) =
      .ok (.shl (fm (.vec 3) (.vec false 1) (.win false 0)) 0) ∧
    decode (word 0x0A#7 (1#2 ++ 0#3) 0#5 (0#3 ++ 3#8) (0#3 ++ 0x001#9) (2#3 ++ 0x001#9) blank 0#20) =
      .ok (.shr (fm (.vec 3) (.vec false 1) (.win false 0)) 0) ∧
    decode (word 0x0A#7 (2#2 ++ 0#3) 0#5 (0#3 ++ 3#8) (0#3 ++ 0x001#9) (2#3 ++ 0x001#9) blank 0#20) =
      .ok (.sar (fm (.vec 3) (.vec false 1) (.win false 0)) 0) ∧
    decode (word 0x0A#7 (3#2 ++ 0#3) 0#5 (0#3 ++ 3#8) (0#3 ++ 0x001#9) (2#3 ++ 0x001#9) blank 0#20) =
      .ok (.rotl (fm (.vec 3) (.vec false 1) (.win false 0)) 0) ∧
    decode (word 0x0B#7 (1#2 ++ 0#3) 0#5 (0#3 ++ 3#8) (0#3 ++ 0x001#9) (0#3 ++ 0x002#9) (0#3 ++ 0x003#9) 0#20) =
      .ok (.funsh (fm (.vec 3) (.vec false 1) (.vec false 2) (.vec false 3)) 0 true) ∧
    decode (word 0x0C#7 1#5 0#5 (0#3 ++ 3#8) (0#3 ++ 0x001#9) (0#3 ++ 0x002#9) (0#3 ++ 0x003#9) 0#20) =
      .ok (.bfx (fm (.vec 3) (.vec false 1) (.vec false 2) (.vec false 3)) 0 .n32) ∧
    decode (word 0x0D#7 0#5 0#5 (0#3 ++ 3#8) (0#3 ++ 0x001#9) (0#3 ++ 0x002#9) (0#3 ++ 0x003#9) 0#20) =
      .ok (.bfi (fm (.vec 3) (.vec false 1) (.vec false 2) (.vec false 3)) 0) ∧
    decode (word 0x0E#7 (0#2 ++ 0#3) 0#5 (0#3 ++ 3#8) (0#3 ++ 0x001#9) blank blank 0#20) =
      .ok (.popc (fm (.vec 3) (.vec false 1)) 0) ∧
    decode (word 0x0E#7 (1#2 ++ 0#3) 0#5 (0#3 ++ 3#8) (0#3 ++ 0x001#9) blank blank 0#20) =
      .ok (.clz (fm (.vec 3) (.vec false 1)) 0) ∧
    decode (word 0x0E#7 (2#2 ++ 0#3) 0#5 (0#3 ++ 3#8) (0#3 ++ 0x001#9) blank blank 0#20) =
      .ok (.ctz (fm (.vec 3) (.vec false 1)) 0) ∧
    decode (word 0x0E#7 (3#2 ++ 0#3) 0#5 (0#3 ++ 3#8) (0#3 ++ 0x001#9) blank blank 0#20) =
      .ok (.brev (fm (.vec 3) (.vec false 1)) 0) := by
  refine ⟨?_, ?_, ?_, ?_, ?_, ?_, ?_, ?_, ?_, ?_, ?_, ?_⟩ <;> rfl

theorem test_decode_arithmetic_3 :
    decode (word 0x0F#7 (0#2 ++ 1#3) 5#5 (2#3 ++ 6#8) (0#3 ++ 0x001#9) (0#3 ++ 0x002#9) blank 0#20) =
      .ok (.iset (fm (.pred 6) (.vec false 1) (.vec false 2)) 0 .p .n32 .ge) ∧
    decode (word 0x13#7 (2#2 ++ 1#3) 2#5 (0#3 ++ 3#8) (0#3 ++ 0x002#9) (0#3 ++ 0x004#9) blank 0#20) =
      .ok (.set64 (fm (.vec 3) (.vec false 2) (.vec false 4)) 0 .m true .lt) ∧
    decode (word 0x10#7 0#5 0#5 (0#3 ++ 3#8) (0#3 ++ 0x001#9) (0#3 ++ 0x002#9) (5#3 ++ 12#9) 0#20) =
      .ok (.sel (fm (.vec 3) (.vec false 1) (.vec false 2) (.pred true 4)) 0) ∧
    decode (word 0x11#7 0#5 0#5 (0#3 ++ 4#8) (0#3 ++ 0x002#9) (0#3 ++ 0x101#9) blank 0x80007#20) =
      .ok (.lea (fm (.vec 4) (.vec false 2) (.vec true 1)) 0x800 7) ∧
    decode (word 0x12#7 (0#2 ++ 0#3) 0#5 (0#3 ++ 4#8) (0#3 ++ 0x002#9) (0#3 ++ 0x106#9) blank 0#20) =
      .ok (.add64 (fm (.vec 4) (.vec false 2) (.vec true 6)) 0) ∧
    decode (word 0x12#7 (1#2 ++ 0#3) 0#5 (1#3 ++ 4#8) (1#3 ++ 2#9) (1#3 ++ 6#9) blank 0#20) =
      .ok (.sub64 (fm (.uni 4) (.uni 2) (.uni 6)) 0) ∧
    decode (word 0x14#7 0#5 2#5 0#11 (0#3 ++ 0x009#9) (0#3 ++ 0x001#9) blank 0#20) =
      .ok (.mov (fm (.vec 0) (.vec false 9) (.vec false 1)) 0 .toIdx) ∧
    decode (word 0x15#7 2#5 0#5 (1#3 ++ 3#8) blank blank blank 0xFFFFF#20) = .ok (.movi (fm (.uni 3)) 0xFFFFF 2) ∧
    decode (word 0x16#7 (3#2 ++ 0#3) 0#5 (2#3 ++ 2#8) (5#3 ++ 1#9) (5#3 ++ 15#9) blank 0#20) =
      .ok (.pset (fm (.pred 2) (.pred false 1) (.pred true 7)) .andn) ∧
    decode (word 0x17#7 (1#2 ++ 0#3) 0#5 (2#3 ++ 2#8) (1#3 ++ 3#9) blank blank 0#20) = .ok (.pmov (fm (.pred 2) (.uni 3)) .kp) := by
  refine ⟨?_, ?_, ?_, ?_, ?_, ?_, ?_, ?_, ?_, ?_⟩ <;> rfl

theorem test_decode_floats_1 :
    decode (word 0x18#7 (0#2 ++ 1#3) (0#2 ++ 1#1 ++ 2#2) (0#3 ++ 3#8) (0#3 ++ 0x101#9) (0#3 ++ 0x002#9) blank 0#20) =
      .ok (.fadd (fm (.vec 3) (.vec true 1) (.vec false 2)) 0 .f16 .rdn true) ∧
    decode (word 0x18#7 (1#2 ++ 2#3) 0#5 (0#3 ++ 3#8) (0#3 ++ 0x001#9) (3#3 ++ 23#9) blank 0#20) =
      .ok (.fsub (fm (.vec 3) (.vec false 1) (.stair 2 7)) 0 .bf16 .rne false) ∧
    decode (word 0x19#7 3#5 1#5 (0#3 ++ 3#8) (0#3 ++ 0x001#9) (4#3 ++ 3#9) blank 0x03C00#20) =
      .ok (.fmul (fm (.vec 3) (.vec false 1) (.imm 3)) 0x3C00 .f16x2 .rtz false) ∧
    decode (word 0x1B#7 (0#2 ++ 4#3) 0#5 (0#3 ++ 3#8) (0#3 ++ 0x001#9) (0#3 ++ 0x002#9) blank 0#20) =
      .ok (.fmin (fm (.vec 3) (.vec false 1) (.vec false 2)) 0 .bf16x2) ∧
    decode (word 0x1B#7 (1#2 ++ 0#3) 0#5 (0#3 ++ 3#8) (0#3 ++ 0x001#9) (2#3 ++ 0x11F#9) blank 0#20) =
      .ok (.fmax (fm (.vec 3) (.vec false 1) (.const true 15)) 0 .f32) ∧
    decode (word 0x1C#7 (1#2 ++ 0#3) (0#1 ++ 1#1 ++ 4#3) (0#3 ++ 3#8) (0#3 ++ 0x001#9) (0#3 ++ 0x002#9) blank 0#20) =
      .ok (.fset (fm (.vec 3) (.vec false 1) (.vec false 2)) 0 .b .f32 .gt true) ∧
    decode (word 0x1D#7 4#5 3#5 (0#3 ++ 3#8) (0#3 ++ 0x001#9) blank blank 0#20) =
      .ok (.frnd (fm (.vec 3) (.vec false 1)) 0 .bf16x2 .rup) ∧
    decode (word 0x1E#7 2#5 0#5 (0#3 ++ 3#8) (0#3 ++ 0x001#9) blank blank 0#20) =
      .ok (.fclas (fm (.vec 3) (.vec false 1)) 0 .bf16) ∧
    decode (word 0x1F#7 0#5 1#5 (0#3 ++ 3#8) (0#3 ++ 0x001#9) (0#3 ++ 0x002#9) blank 0#20) =
      .ok (.fscl (fm (.vec 3) (.vec false 1) (.vec false 2)) 0 .rtz) ∧
    decode (word 0x20#7 8#5 0#5 (0#3 ++ 3#8) (0#3 ++ 0x001#9) blank blank 0#20) =
      .ok (.sfu (fm (.vec 3) (.vec false 1)) 0 .sigm) ∧
    decode (word 0x21#7 (0#2 ++ 5#3) 7#5 (0#3 ++ 3#8) (0#3 ++ 0x001#9) blank blank 0#20) =
      .ok (.cvtTo (fm (.vec 3) (.vec false 1)) 0 .sr 7) ∧
    decode (word 0x21#7 (1#2 ++ 0#3) 3#5 (0#3 ++ 3#8) (0#3 ++ 0x001#9) blank blank 0#20) =
      .ok (.cvtFrom (fm (.vec 3) (.vec false 1)) 0 3) := by
  refine ⟨?_, ?_, ?_, ?_, ?_, ?_, ?_, ?_, ?_, ?_, ?_, ?_⟩ <;> rfl

theorem test_decode_floats_2 :
    decode (word 0x22#7 (0#2 ++ 1#3) 3#5 (0#3 ++ 3#8) (0#3 ++ 0x001#9) blank blank 0#20) =
      .ok (.cvtiI2f (fm (.vec 3) (.vec false 1)) 0 .n32 .rup) ∧
    decode (word 0x22#7 (1#2 ++ 0#3) 5#5 (0#3 ++ 3#8) (0#3 ++ 0x001#9) blank blank 0#20) =
      .ok (.cvtiF2i (fm (.vec 3) (.vec false 1)) 0 .s32 .rtz true) ∧
    decode (word 0x23#7 (0#2 ++ 1#3) 1#5 (0#3 ++ 3#8) (0#3 ++ 0x001#9) (0#3 ++ 0x002#9) (0#3 ++ 0x003#9) 0#20) =
      .ok (.pack (fm (.vec 3) (.vec false 1) (.vec false 2) (.vec false 3)) 0 .e8 true) ∧
    decode (word 0x23#7 (1#2 ++ 2#3) 0#5 (0#3 ++ 3#8) (0#3 ++ 0x001#9) (0#3 ++ 0x002#9) blank 0#20) =
      .ok (.unpk (fm (.vec 3) (.vec false 1) (.vec false 2)) 0 .e4) ∧
    decode (word 0x24#7 0#5 0#5 (0#3 ++ 3#8) (0#3 ++ 0x001#9) (0#3 ++ 0x002#9) (0#3 ++ 0x003#9) 31#20) =
      .ok (.dp2 (fm (.vec 3) (.vec false 1) (.vec false 2) (.vec false 3)) 31) ∧
    decode (word 0x25#7 4#5 0#5 (0#3 ++ 3#8) (0#3 ++ 0x001#9) (0#3 ++ 0x002#9) (0#3 ++ 0x003#9) 0#20) =
      .ok (.dp4 (fm (.vec 3) (.vec false 1) (.vec false 2) (.vec false 3)) 0 .n8x4) ∧
    decode (word 0x26#7 5#5 0#5 (0#3 ++ 3#8) (0#3 ++ 0x001#9) (0#3 ++ 0x002#9) (0#3 ++ 0x003#9) 0#20) =
      .ok (.dp8 (fm (.vec 3) (.vec false 1) (.vec false 2) (.vec false 3)) 0) ∧
    decode (word 0x27#7 3#5 2#5 (0#3 ++ 3#8) (0#3 ++ 0x001#9) (0#3 ++ 0x002#9) (0#3 ++ 0x003#9) 0#20) =
      .ok (.hdp2 (fm (.vec 3) (.vec false 1) (.vec false 2) (.vec false 3)) 0 .f16x2 .rdn) := by
  refine ⟨?_, ?_, ?_, ?_, ?_, ?_, ?_, ?_⟩ <;> rfl

theorem test_decode_lanes_1 :
    decode (word 0x30#7 (1#2 ++ 0#3) 0#5 (3#3 ++ 3#8) (1#3 ++ 59#9) blank blank 0#20) =
      .ok (.setnetRaw (fm (.cls3 3) (.uni 59))) ∧
    decode (word 0x30#7 (0#2 ++ 0#3) 0#5 (3#3 ++ 2#8) (0#3 ++ 0x005#9) blank blank 0#20) =
      .ok (.setnetPerm (fm (.cls3 2) (.vec false 5))) ∧
    decode (word 0x31#7 1#5 0#5 (0#3 ++ 3#8) (0#3 ++ 0x001#9) (1#3 ++ 91#9) blank 0#20) =
      .ok (.perm (fm (.vec 3) (.vec false 1) (.net 3)) .w16) ∧
    decode (word 0x32#7 (1#2 ++ 0#1 ++ 2#2) 1#5 (0#3 ++ 3#8) (0#3 ++ 0x001#9) (4#3 ++ 1#9) (0#3 ++ 0x002#9) 5#20) =
      .ok (.slide (fm (.vec 3) (.vec false 1) (.imm 1) (.vec false 2)) 5 true .w8 true) ∧
    decode (word 0x33#7 3#5 0#5 (0#3 ++ 3#8) (0#3 ++ 0x001#9) (1#3 ++ 2#9) blank 0#20) =
      .ok (.bcast (fm (.vec 3) (.vec false 1) (.uni 2)) 0 .w4) ∧
    decode (word 0x34#7 (3#3 ++ 1#2) 0#5 (2#3 ++ 3#8) (0#3 ++ 0x001#9) blank blank 0#20) =
      .ok (.vote (fm (.pred 3) (.vec false 1)) .uni .w16) ∧
    decode (word 0x38#7 2#5 0#5 (2#3 ++ 3#8) blank blank blank 0#20) = .ok (.elect (fm (.pred 3)) .w8) ∧
    decode (word 0x35#7 (4#3 ++ 0#2) 0#5 (0#3 ++ 3#8) (0#3 ++ 0x101#9) blank blank 0#20) =
      .ok (.redux (fm (.vec 3) (.vec true 1)) .maxN .w32) ∧
    decode (word 0x36#7 (7#3 ++ 3#2) 1#5 (0#3 ++ 3#8) (0#3 ++ 0x001#9) blank blank 0#20) =
      .ok (.scan (fm (.vec 3) (.vec false 1)) .xor .w4 true) ∧
    decode (word 0x37#7 (1#2 ++ 0#1 ++ 1#2) 2#5 (0#3 ++ 3#8) (0#3 ++ 0x001#9) blank blank 0#20) =
      .ok (.matchK (fm (.vec 3) (.vec false 1)) .n32 .w16) ∧
    decode (word 0x3A#7 0#5 0#5 0#11 (0#3 ++ 0x002#9) blank blank 0#20) = .ok (.brx (fm (.vec 0) (.vec false 2))) ∧
    decode (word 0x3B#7 0#5 0#5 (0#3 ++ 4#8) blank blank blank 0x80000#20) = .ok (.call (fm (.vec 4)) 0x80000) := by
  refine ⟨?_, ?_, ?_, ?_, ?_, ?_, ?_, ?_, ?_, ?_, ?_, ?_⟩ <;> rfl

theorem test_decode_lanes_2 :
    decode (word 0x3C#7 0#5 0#5 (0#3 ++ 4#8) (1#3 ++ 6#9) blank blank 0#20) = .ok (.callx (fm (.vec 4) (.uni 6))) ∧
    decode (word 0x3D#7 0#5 0#5 0#11 (0#3 ++ 0x004#9) blank blank 0#20) = .ok (.ret (fm (.vec 0) (.vec false 4))) ∧
    decode (word 0x3E#7 0#5 0#5 0#11 (0#3 ++ 0x004#9) blank blank (0x201#10 ++ 3#10)) =
      .ok (.loop (fm (.vec 0) (.vec false 4)) 0x201 3) ∧
    decode (word 0x3F#7 0#5 0#5 0#11 blank blank blank 0#20) = .ok (.exit (fm (.vec 0))) ∧
    decode (word 0x40#7 0#5 0#5 0#11 (1#3 ++ 64#9) blank blank 0#20) = .ok (.join (fm (.vec 0) (.mask 0))) ∧
    decode (word 0x41#7 0#5 0#5 0#11 (1#3 ++ 75#9) blank blank 0#20) = .ok (.leave (fm (.vec 0) (.mask 11))) ∧
    decode (word 0x42#7 0#5 0#5 0#11 (1#3 ++ 69#9) blank blank 0#20) = .ok (.waitm (fm (.vec 0) (.mask 5))) ∧
    decode (word 0x43#7 (0#2 ++ 0#3) 0#5 (3#3 ++ 11#8) (5#3 ++ 11#9) blank blank 0#20) =
      .ok (.mset (fm (.cls3 11) (.pred true 3))) ∧
    decode (word 0x43#7 (1#2 ++ 0#3) 0#5 (0#3 ++ 3#8) (1#3 ++ 66#9) blank blank 0#20) = .ok (.mget (fm (.vec 3) (.mask 2))) ∧
    decode (word 0x45#7 0#5 0#5 0#11 blank blank blank 0x0FFFF#20) = .ok (.trap (fm (.vec 0)) 0xFFFF) ∧
    decode (word 0x44#7 0#5 0#5 0#11 blank blank blank 0x00001#20) = .ok (.bkpt (fm (.vec 0)) 1) ∧
    decode (word 0x46#7 0#5 0#5 0#11 blank blank blank 0#20) = .ok (.rte (fm (.vec 0))) := by
  refine ⟨?_, ?_, ?_, ?_, ?_, ?_, ?_, ?_, ?_, ?_, ?_, ?_⟩ <;> rfl

theorem test_decode_lanes_3 :
    decode (word 0x47#7 (1#2 ++ 0#3) 0#5 0#11 blank blank blank 0#20) = .ok (.emur (fm (.vec 0)) true) ∧
    decode (word 0x48#7 0#5 0#5 (0#3 ++ 3#8) (1#3 ++ 256#9) blank blank 0#20) = .ok (.srd (fm (.vec 3) (.spec 0))) := by
  refine ⟨?_, ?_⟩ <;> rfl

theorem test_decode_memory_1 :
    decode (word 0x51#7 (5#3 ++ 0#2) (2#2 ++ 7#3) 0#11 (0#3 ++ 0x002#9) (0#3 ++ 0x004#9) blank 0xFFFFC#20) =
      .ok (.st (fm (.vec 0) (.vec false 2) (.vec false 4)) .w64 .glb .rel .sys 0xFFFFC) ∧
    decode (word 0x52#7 (5#3 ++ 0#2) 0#5 (0#3 ++ 4#8) (1#3 ++ 2#9) blank blank 8#20) = .ok (.ldc (fm (.vec 4) (.uni 2)) true 8) ∧
    decode (word 0x53#7 1#5 0#5 0#11 (0#3 ++ 0x002#9) blank blank 8#20) = .ok (.prf (fm (.vec 0) (.vec false 2)) true 8) ∧
    decode (word 0x54#7 (1#1 ++ 2#2 ++ 0#2) 0#5 (0#3 ++ 4#8) (0#3 ++ 0x003#9) blank blank 8#20) =
      .ok (.ldg (fm (.vec 4) (.vec false 3)) true .e8 8) ∧
    decode (word 0x55#7 (0#1 ++ 3#2 ++ 0#2) 0#5 0#11 (0#3 ++ 0x003#9) (0#3 ++ 0x004#9) blank 8#20) =
      .ok (.stg (fm (.vec 0) (.vec false 3) (.vec false 4)) false .e4 8) ∧
    decode (word 0x56#7 (3#3 ++ 0#2) 0#5 (0#3 ++ 4#8) (0#3 ++ 0x003#9) blank blank 8#20) =
      .ok (.ldh (fm (.vec 4) (.vec false 3)) .n16 8) ∧
    decode (word 0x57#7 (0#3 ++ 0#2) 0#5 0#11 (0#3 ++ 0x003#9) (0#3 ++ 0x004#9) blank 8#20) =
      .ok (.sth (fm (.vec 0) (.vec false 3) (.vec false 4)) .s8 8) ∧
    decode (word 0x58#7 (0#2 ++ 0#3) 0#5 0#11 (0#3 ++ 0x003#9) (0#3 ++ 0x004#9) blank 8#20) =
      .ok (.spl (fm (.vec 0) (.vec false 3) (.vec false 4)) 8) ∧
    decode (word 0x58#7 (1#2 ++ 0#3) 0#5 (0#3 ++ 4#8) (0#3 ++ 0x003#9) blank blank 8#20) =
      .ok (.fil (fm (.vec 4) (.vec false 3)) 8) ∧
    decode (word 0x5A#7 1#5 (3#2 ++ 3#3) (0#3 ++ 4#8) (0#3 ++ 0x002#9) (0#3 ++ 0x006#9) (0#3 ++ 0x008#9) 8#20) =
      .ok (.cas (fm (.vec 4) (.vec false 2) (.vec false 6) (.vec false 8)) true .ar .dev 8) ∧
    decode (word 0x5B#7 (5#3 ++ 1#2) (2#2 ++ 2#3) 0#11 (0#3 ++ 0x002#9) (0#3 ++ 0x006#9) blank 8#20) =
      .ok (.red (fm (.vec 0) (.vec false 2) (.vec false 6)) .xor .n32 true .die 8) ∧
    decode (word 0x5C#7 (1#3 ++ 3#2) (0#2 ++ 5#3) (0#3 ++ 4#8) (0#3 ++ 0x002#9) (0#3 ++ 0x006#9) blank 8#20) =
      .ok (.atomo (fm (.vec 4) (.vec false 2) (.vec false 6)) .min .f32 .io 8) := by
  refine ⟨?_, ?_, ?_, ?_, ?_, ?_, ?_, ?_, ?_, ?_, ?_, ?_⟩ <;> rfl

theorem test_decode_memory_2 :
    decode (word 0x5D#7 0#5 (0#2 ++ 1#3) (0#3 ++ 4#8) (0#3 ++ 0x002#9) (0#3 ++ 0x007#9) blank 8#20) =
      .ok (.ldx (fm (.vec 4) (.vec false 2) (.vec false 7)) .clu 8) ∧
    decode (word 0x5E#7 0#5 (3#2 ++ 6#3) 0#11 blank blank blank 0#20) = .ok (.fence (fm (.vec 0)) .ar .peer) ∧
    decode (word 0x5F#7 0#5 (3#2 ++ 3#3) 0#11 blank blank blank (0#14 ++ 6#3 ++ 1#3)) = .ok (.fencex (fm (.vec 0)) .dev 1 6) ∧
    decode (word 0x60#7 0#5 0#5 0#11 blank blank blank 0x7F#20) = .ok (.probe (fm (.vec 0)) 0x7F) ∧
    decode (word 0x61#7 (3#3 ++ 0#2) 0#5 0#11 (1#3 ++ 2#9) (1#3 ++ 4#9) (1#3 ++ 6#9) 63#20) =
      .ok (.cpy (fm (.vec 0) (.uni 2) (.uni 4) (.uni 6)) .gl2hall 63) ∧
    decode (word 0x62#7 (1#1 ++ 1#2 ++ 0#2) 0#5 0#11 (1#3 ++ 2#9) (1#3 ++ 4#9) (1#3 ++ 6#9) (200#8 ++ 0#6 ++ 5#6)) =
      .ok (.cpyt (fm (.vec 0) (.uni 2) (.uni 4) (.uni 6)) true .e16 200 5) ∧
    decode (word 0x63#7 (0#2 ++ 0#3) 0#5 0#11 (1#3 ++ 2#9) (1#3 ++ 4#9) (1#3 ++ 6#9) (0#8 ++ 9#6 ++ 5#6)) =
      .ok (.cpyxDie (fm (.vec 0) (.uni 2) (.uni 4) (.uni 6)) 9 5) ∧
    decode (word 0x63#7 (1#2 ++ 0#3) 0#5 0#11 (1#3 ++ 2#9) (1#3 ++ 4#9) (1#3 ++ 6#9) (0#12 ++ 3#2 ++ 5#6)) =
      .ok (.cpyxPeer (fm (.vec 0) (.uni 2) (.uni 4) (.uni 6)) 3 5) ∧
    decode (word 0x64#7 (0#2 ++ 1#1 ++ 0#2) 1#5 0#11 (1#3 ++ 2#9) blank blank 0#20) =
      .ok (.twait (fm (.vec 0) (.uni 2)) true true) ∧
    decode (word 0x64#7 (1#2 ++ 0#3) 0#5 (2#3 ++ 2#8) (1#3 ++ 2#9) blank blank 0#20) = .ok (.tfst (fm (.pred 2) (.uni 2))) ∧
    decode (word 0x64#7 (2#2 ++ 0#3) 0#5 0#11 (1#3 ++ 2#9) blank blank 0#20) = .ok (.tclr (fm (.vec 0) (.uni 2))) ∧
    decode (word 0x65#7 (2#2 ++ 0#1 ++ 0#2) 0#5 0#11 blank blank blank 15#20) = .ok (.barArv (fm (.vec 0)) .die 15) := by
  refine ⟨?_, ?_, ?_, ?_, ?_, ?_, ?_, ?_, ?_, ?_, ?_, ?_⟩ <;> rfl

theorem test_decode_memory_3 :
    decode (word 0x65#7 (1#2 ++ 1#1 ++ 0#2) 0#5 0#11 blank blank blank 3#20) = .ok (.barSync (fm (.vec 0)) .clu 3) ∧
    decode (word 0x66#7 0#5 0#5 0#11 (0#3 ++ 0x004#9) blank blank 3#20) = .ok (.pubq (fm (.vec 0) (.vec false 4)) 3) ∧
    decode (word 0x67#7 0#5 0#5 (0#3 ++ 4#8) blank blank blank (0#13 ++ 2#2 ++ 7#3 ++ 1#2)) =
      .ok (.qstat (fm (.vec 4)) 1 7 .ready) ∧
    decode (word 0x68#7 0#5 0#5 0#11 (0#3 ++ 0x004#9) blank blank 63#20) = .ok (.nrec (fm (.vec 0) (.vec false 4)) 63) ∧
    decode (word 0x69#7 0#5 0#5 (1#3 ++ 4#8) (1#3 ++ 6#9) blank blank 0#20) = .ok (.launch (fm (.uni 4) (.uni 6))) ∧
    decode (word 0x6A#7 0#5 0#5 0#11 blank blank blank 1#20) = .ok (.chwait (fm (.vec 0)) true) ∧
    decode (word 0x6B#7 0#5 0#5 (1#3 ++ 4#8) blank blank blank 0#20) = .ok (.bkacq (fm (.uni 4))) ∧
    decode (word 0x6C#7 0#5 0#5 0#11 blank blank blank 0#20) = .ok (.bkdone (fm (.vec 0))) := by
  refine ⟨?_, ?_, ?_, ?_, ?_, ?_, ?_, ?_⟩ <;> rfl

theorem test_decode_units_1 :
    decode (word 0x6D#7 0#5 0#5 (3#3 ++ 7#8) (1#3 ++ 60#9) blank blank 0#20) = .ok (.tdesc (fm (.cls3 7) (.uni 60))) ∧
    decode (word 0x6F#7 0#5 0#5 (3#3 ++ 63#8) blank blank blank 63#20) = .ok (.mzero (fm (.cls3 63)) 63) ∧
    decode (word 0x70#7 1#5 0#5 (3#3 ++ 5#8) (0#3 ++ 0x003#9) blank blank (7#3 ++ 0#17)) =
      .ok (.mlda (fm (.cls3 5) (.vec false 3)) true 7) ∧
    decode (word 0x71#7 0#5 0#5 0#11 (0#3 ++ 0x002#9) blank blank (9#6 ++ 5#3 ++ 0#8 ++ 4#3)) =
      .ok (.msta (fm (.vec 0) (.vec false 2)) false 4 9 5) ∧
    decode (word 0x72#7 0#5 0#5 (0#3 ++ 4#8) blank blank blank (9#6 ++ 100#7 ++ 0#7)) = .ok (.mrd (fm (.vec 4)) 9 100) ∧
    decode (word 0x73#7 0#5 0#5 (3#3 ++ 4#8) (0#3 ++ 0x003#9) blank blank (100#7 ++ 0#13)) =
      .ok (.mwr (fm (.cls3 4) (.vec false 3)) 100) ∧
    decode (word 0x74#7 1#5 0#5 0#11 (1#3 ++ 3#9) (2#3 ++ 0x011#9) blank (8191#13 ++ 0#4 ++ 6#3)) =
      .ok (.mlds (fm (.vec 0) (.uni 3) (.const false 1)) true 8191 6) ∧
    decode (word 0x75#7 0#5 0#5 (0#3 ++ 8#8) (0#3 ++ 0x002#9) blank blank 0#20) = .ok (.bndp (fm (.vec 8) (.vec false 2))) ∧
    decode (word 0x76#7 0#5 0#5 0#11 (1#3 ++ 3#9) blank blank 9#20) = .ok (.dice (fm (.vec 0) (.uni 3)) 9) ∧
    decode (word 0x77#7 0#5 0#5 0#11 blank blank blank (0#7 ++ 127#7 ++ 9#6)) = .ok (.rast (fm (.vec 0)) 127 9) ∧
    decode (word 0x78#7 (1#2 ++ 0#3) 0#5 0#11 blank blank blank 9#20) = .ok (.rslv (fm (.vec 0)) true 9) ∧
    decode (word 0x79#7 (0#2 ++ 0#3) 0#5 0#11 (0#3 ++ 0x004#9) blank blank 9#20) = .ok (.smplWr (fm (.vec 0) (.vec false 4)) 9) := by
  refine ⟨?_, ?_, ?_, ?_, ?_, ?_, ?_, ?_, ?_, ?_, ?_, ?_⟩ <;> rfl

theorem test_decode_units_2 :
    decode (word 0x79#7 (1#2 ++ 0#3) 0#5 (0#3 ++ 4#8) blank blank blank 9#20) = .ok (.smplRd (fm (.vec 4)) 9) ∧
    decode (word 0x7A#7 (2#2 ++ 0#3) 0#5 (0#3 ++ 4#8) (0#3 ++ 0x003#9) (1#3 ++ 2#9) (2#3 ++ 0x010#9) (0x81#8 ++ 32#6 ++ 5#6)) =
      .ok (.trace (fm (.vec 4) (.vec false 3) (.uni 2) (.const false 0)) .all 0x81 32 5) ∧
    decode (word 0x7B#7 7#5 0#5 (0#3 ++ 4#8) blank blank blank 0#20) = .ok (.trhit (fm (.vec 4)) 7) ∧
    decode (word 0x7C#7 5#5 0#5 (0#3 ++ 4#8) blank blank blank 0#20) = .ok (.trqry (fm (.vec 4)) 5) := by
  refine ⟨?_, ?_, ?_, ?_⟩ <;> rfl

/-- SWR writes a special register that chapter 11 marks RW, and no other. -/
theorem test_decode_swr :
    decode (word 0x49#7 0#5 0#5 (3#3 ++ 0x1C#8) (0#3 ++ 3#9) blank blank 0#20) = .ok (.swr (fm (.cls3 0x1C) (.vec false 3))) ∧
    decode (word 0x49#7 0#5 0#5 (3#3 ++ 0x00#8) (0#3 ++ 3#9) blank blank 0#20) = .error .operand := by
  refine ⟨?_, ?_⟩ <;> rfl

/-- R66: the word of the paired example, and its bytes. -/
theorem test_decode_paired_example :
    decode 0xFE2008000302681205232024 =
      .ok (.pairedWord ⟨false, 1⟩ ⟨1, false, false⟩ ⟨.ffmaF32, false, false, false, 4, .vec 0, .vec 1, .win 0⟩
        ⟨.iaddS32, false, false, false, 9, .vec 2, .const 1, .const 0⟩) ∧
    bytesOfWord 0xFE2008000302681205232024 =
      [0x24, 0x20, 0x23, 0x05, 0x12, 0x68, 0x02, 0x03, 0x00, 0x08, 0x20, 0xFE] := by
  refine ⟨?_, ?_⟩ <;> rfl

/-! ## Ill-formed terms: each check of `Instr.wf` refuses one -/

/-- `IADD` of two vector registers is well formed. -/
theorem smoke_good : (Instr.iadd (fm (.vec 3) (v 1) (v 2)) 0 .s32 false).wf = true := by decide

/-- R51: the guard 0b1111. -/
theorem smoke_guard : (Instr.iadd (fm (.vec 3) (v 1) (v 2) .zero ⟨true, 7⟩) 0 .s32 false).wf = false := by decide

/-- R308: a `JOIN` under a guard. -/
theorem smoke_guard7 : (Instr.join (fm (.vec 0) (.mask 1) .zero .zero ⟨false, 1⟩)).wf = false := by decide

/-- R23, R24: destinations that the form does not take: a predicate, NWB of a uniform form, an odd pair, a bad quad, a network, mask,
tile, accumulator and special register beyond the last, a read-only special register, a destination where the form has none. -/
theorem smoke_destination :
    (Instr.iadd (fm (.pred 1) (v 1) (v 2)) 0 .s32 false).wf = false ∧ (Instr.bkacq (fm .nwb)).wf = false ∧
    (Instr.iset (fm (.vec 1) (v 1) (v 2)) 0 .p .s32 .eq).wf = false ∧ (Instr.vote (fm (.pred 1) (v 1)) .ballot .w32).wf = false ∧
    (Instr.imadw (fm (.vec 3) (v 1) (v 2) (v 4)) 0 .s32).wf = false ∧ (Instr.bndp (fm (.vec 6) (v 2))).wf = false ∧
    (Instr.cas (fm (.vec 3) (v 2) (v 4) (v 6)) true .rlx .team 0).wf = false ∧ (Instr.call (fm .nwb) 0).wf = false ∧
    (Instr.setnetPerm (fm (.cls3 4) (v 2))).wf = false ∧ (Instr.mset (fm (.cls3 12) (.pred false 1))).wf = false ∧
    (Instr.tdesc (fm (.cls3 8) (.uni 0))).wf = false ∧ (Instr.mzero (fm (.cls3 64)) 0).wf = false ∧
    (Instr.swr (fm (.cls3 0x60) (v 2))).wf = false ∧ (Instr.swr (fm (.cls3 0) (v 2))).wf = false ∧
    (Instr.exit (fm (.vec 1))).wf = false := by decide

/-- R22: a per-lane source of an instruction whose destination is uniform. -/
theorem smoke_uniform : (Instr.iadd (fm (.uni 3) (v 1) (.uni 2)) 0 .s32 false).wf = false ∧
    (Instr.iadd (fm (.uni 3) (.uni 1) (.spec 0)) 0 .s32 false).wf = false := by decide

/-- R25 to R31: sources that the field does not take, field by field. -/
theorem smoke_sources :
    (Instr.iadd (fm (.vec 3) (.tile 1) (v 2)) 0 .s32 false).wf = false ∧ (Instr.iadd (fm (.vec 3) (v 1) (.net 1)) 0 .s32 false).wf = false ∧
    (Instr.iadd (fm (.vec 3) (v 1) (v 2) (v 3)) 0 .s32 false).wf = false ∧ (Instr.iadd (fm (.vec 3) (.mask 12) (v 2)) 0 .s32 false).wf = false ∧
    (Instr.iadd (fm (.vec 3) (.spec 0x60) (v 2)) 0 .s32 false).wf = false ∧ (Instr.andB (fm (.vec 3) (.vec true 1) (v 2)) 0).wf = false ∧
    (Instr.lea (fm (.vec 4) (v 1) (v 2)) 0 0).wf = false ∧ (Instr.add64 (fm (.vec 4) (v 3) (v 2)) 0).wf = false ∧
    (Instr.add64 (fm (.vec 4) (.win false 7) (v 2)) 0).wf = false ∧ (Instr.dp2 (fm (.vec 4) (v 3) (v 2) (.imm 0)) 0).wf = false ∧
    (Instr.sel (fm (.vec 4) (v 3) (v 2) (v 1)) 0).wf = false ∧ (Instr.perm (fm (.vec 4) (v 3) (.uni 2)) .w32).wf = false ∧
    (Instr.bndp (fm (.vec 4) (v 3))).wf = false ∧ (Instr.smplWr (fm (.vec 0) (v 2)) 0).wf = false ∧
    (Instr.mov (fm (.vec 4) (.pred false 1)) 0 .fromIdx).wf = false ∧ (Instr.loop (fm (.vec 0) (.stair 0 0)) 1 0).wf = false ∧
    (Instr.ldh (fm (.vec 4) (.pred false 1)) .w32 0).wf = false ∧ (Instr.ld (fm (.vec 4) (v 1)) .w32 .glb .rlx .team 0).wf = false ∧
    (Instr.bcast (fm (.vec 4) (v 1) (v 2)) 0 .w32).wf = false ∧ (Instr.launch (fm (.uni 4) (.uni 1))).wf = false ∧
    (Instr.ldc (fm (.vec 4) (v 2)) false 0).wf = false ∧ (Instr.mlds (fm (.vec 0) (.uni 1) (.uni 2)) false 0 0).wf = false ∧
    (Instr.tclr (fm (.vec 0) (.uni 1))).wf = false ∧ (Instr.setnetRaw (fm (.cls3 0) (.uni 60))).wf = false ∧
    (Instr.mma (fm (.cls3 0) (v 2) (.tile 0) (v 1)) false false 0 0 0).wf = false ∧
    (Instr.pmov (fm (.pred 1) (v 1)) .kp).wf = false ∧ (Instr.mset (fm (.cls3 0) (v 1))).wf = false ∧
    (Instr.mget (fm (.vec 4) (v 1))).wf = false ∧ (Instr.srd (fm (.vec 4) (v 1))).wf = false := by decide

/-- R31: two stair pairs in one word. -/
theorem smoke_stairs : (Instr.iadd (fm (.vec 3) (.stair 0 0) (.stair 0 1)) 0 .s32 false).wf = false := by decide

/-- R27, R53: bits 19:0 that nothing reads, and the half pair form with bits 19:16. -/
theorem smoke_immediate : (Instr.iadd (fm (.vec 3) (v 1) (v 2)) 1 .s32 false).wf = false ∧
    (Instr.iadd (fm (.vec 3) (v 1) (.imm 3)) 0x10000 .s32 false).wf = false ∧ (Instr.movi (fm (.vec 3)) 0x10000 3).wf = false := by decide

/-- R55 to R61: types, modifiers and extension values that an opcode does not admit. -/
theorem smoke_codes :
    (Instr.imul (fm (.vec 3) (v 1) (v 2)) 0 .s8x4).wf = false ∧ (Instr.imulh (fm (.vec 3) (v 1) (v 2)) 0 .s16x2).wf = false ∧
    (Instr.imin (fm (.vec 3) (v 1) (v 2)) 0 .s4x8).wf = false ∧ (Instr.iabs (fm (.vec 3) (v 1)) 0 .n32 false).wf = false ∧
    (Instr.iset (fm (.pred 3) (v 1) (v 2)) 0 .p .s8x4 .eq).wf = false ∧ (Instr.fset (fm (.pred 3) (v 1) (v 2)) 0 .p .f16x2 .eq false).wf = false ∧
    (Instr.frnd (fm (.vec 3) (v 1)) 0 .f16 .rne).wf = false ∧ (Instr.cvtiI2f (fm (.vec 3) (v 1)) 0 .s16x2 .rne).wf = false ∧
    (Instr.dp4 (fm (.vec 3) (v 1) (v 2) (v 3)) 0 .s32).wf = false ∧ (Instr.hdp2 (fm (.vec 3) (v 1) (v 2) (v 3)) 0 .f32 .rne).wf = false ∧
    (Instr.loop (fm (.vec 0) (v 1)) 0 1).wf = false ∧ (Instr.ld (fm (.vec 3) (v 2)) .w32 .glb .rel .team 0).wf = false ∧
    (Instr.st (fm (.vec 0) (v 2) (v 3)) .w32 .cst .rlx .team 0).wf = false ∧ (Instr.atom (fm (.vec 3) (v 2) (v 3)) .xor .f32 .rlx .team 0).wf = false ∧
    (Instr.red (fm (.vec 0) (v 2) (v 3)) .exch .s32 false .team 0).wf = false ∧ (Instr.atomo (fm (.vec 3) (v 2) (v 3)) .xor .s32 .team 0).wf = false ∧
    (Instr.fence (fm (.vec 0)) .rlx .team).wf = false ∧ (Instr.fencex (fm (.vec 0)) .team 7 0).wf = false ∧
    (Instr.probe (fm (.vec 0)) 0).wf = false ∧ (Instr.cpyt (fm (.vec 0) (.uni 2) (.uni 4) (.uni 5)) false .e4 1 0).wf = false ∧
    (Instr.cpyt (fm (.vec 0) (.uni 2) (.uni 4) (.uni 5)) false .e8 0 0).wf = false ∧
    (Instr.trace (fm (.vec 3) (v 2) (.uni 4) (.uni 5)) .near 0 33 0).wf = false ∧ (Instr.trqry (fm (.vec 3)) 6).wf = false := by decide

/-- A half-operation with the fields of R63. -/
def half (op : HOp) (d : BitVec 7) (a b c : HSrc) : Half := ⟨op, false, false, false, d, a, b, c⟩

/-- R63, R65: a paired word whose second half breaks a rule, and two `HNOP`s. -/
theorem smoke_halves :
    let bad := fun h => (Instr.pairedWord .always ⟨0, false, false⟩ (half .mov 1 (.vec 1) .zero .zero) h).wf
    bad (half .mov 1 (.vec 1) (.vec 1) .zero) = false ∧ bad (half .hnop 0 (.vec 1) .zero .zero) = false ∧
    bad (half .and 1 (.vec 1) (.vec 2) (.vec 3)) = false ∧ bad { half .and 1 (.vec 1) (.vec 2) .zero with nwb := true } = false ∧
    bad { half .and 1 (.vec 1) (.vec 2) .zero with negA := true } = false ∧
    bad { half .and 1 (.vec 1) (.vec 2) .zero with negZ := true } = false ∧ bad (half .hnop 1 .zero .zero .zero) = false ∧
    bad (half .hnop 0 .zero .zero .zero) = true ∧
    (Instr.pairedWord .always ⟨0, false, false⟩ (half .hnop 0 .zero .zero .zero) (half .hnop 0 .zero .zero .zero)).wf = false ∧
    (Instr.pairedWord ⟨true, 7⟩ ⟨0, false, false⟩ (half .mov 1 (.vec 1) .zero .zero) (half .mov 1 (.vec 1) .zero .zero)).wf = false := by
  decide

/-- An event of a unit has no word. -/
theorem smoke_event : (Instr.sfuQueueEntry 0).wf = false := by decide

/-- The encodings that R67's checks refuse at each of their six numbers, in the words of one opcode each. -/
theorem smoke_checks :
    decode (word 0x7D#7 0#5 0#5 0#11 blank blank blank 0#20) = .error .op ∧ decode (word 0x10#7 1#5 0#5 0#11 blank blank blank 0#20) = .error .sub ∧
    decode (word 0x10#7 0#5 1#5 0#11 blank blank blank 0#20) = .error .mod ∧
    decode (word 0x10#7 0#5 0#5 0#11 (6#3 ++ 0#9) blank blank 0#20) = .error .cls ∧
    decode (word 0x10#7 0#5 0#5 0#11 blank blank blank 0#20) = .error .operand ∧
    decode (0x7F#7 ++ (0x21#6 ++ 0#34) ++ (0x1C#6 ++ 0#2 ++ 1#8 ++ 1#8 ++ 0x90#8 ++ 0x90#8) ++ 7#4 ++ 0#5) = .error .hop := by
  refine ⟨?_, ?_, ?_, ?_, ?_, ?_⟩ <;> rfl

/-! ## Small steps, with results calculated by hand -/

/-- Lane 0's registers 0, 1 and 2. -/
def wRegs (x y z : W32) : Warp := { w0 with vec := [(0, x), (32, y), (64, z)] }

/-- What `f` reads in the warp after an instruction of lane 0. -/
def after (i : Instr) (w : Warp) (f : Warp → Nat) : Option Nat :=
  match exec i (kit w t0 g0 1) with
  | .next t => (t.warp? 0).map f
  | _ => none

/-- Lane 0's register `r`. -/
def reg (r : Nat) (w : Warp) : Nat := (cget w.vec (32 * r)).toNat

/-- R263: the largest `.s32` plus 1 wraps, and saturates under `.sat`. -/
theorem test_iadd : after (.iadd (fm (.vec 3) (v 0) (v 1)) 0 .s32 false) (wRegs 0x7FFFFFFF 1 0) (reg 3) = some 0x80000000 ∧
    after (.iadd (fm (.vec 3) (v 0) (v 1)) 0 .s32 true) (wRegs 0x7FFFFFFF 1 0) (reg 3) = some 0x7FFFFFFF := by decide +kernel

/-- R263: a source that is also the destination; elements of 8 bits do not carry into one another. -/
theorem test_isub : after (.isub (fm (.vec 0) (v 0) (v 1)) 0 .s8x4 false) (wRegs 0x00010203 0x01010101 0) (reg 0) =
    some 0xFF000102 := by decide +kernel

/-- R264: the high half of (-1) × 1, signed and unsigned. -/
theorem test_imulh : after (.imulh (fm (.vec 3) (v 0) (v 1)) 0 .s32) (wRegs 0xFFFFFFFF 1 0) (reg 3) = some 0xFFFFFFFF ∧
    after (.imulh (fm (.vec 3) (v 0) (v 1)) 0 .n32) (wRegs 0xFFFFFFFF 1 0) (reg 3) = some 0 := by decide +kernel

/-- R281: 3 × 2 + 1, and the infinities of opposite sign. -/
theorem test_floats : after (.ffma (fm (.vec 3) (v 0) (v 1) (v 2)) 0 .f32 .rne false) (wRegs 0x40400000 0x40000000 0x3F800000) (reg 3) =
      some 0x40E00000 ∧
    after (.fadd (fm (.vec 3) (v 0) (v 1)) 0 .f32 .rne false) (wRegs 0x7F800000 0xFF800000 0) (reg 3) = some 0x7FC00000 := by
  decide +kernel

/-- R27, R277: the immediate forms. -/
theorem test_movi : after (.movi (fm (.vec 3)) 0x12345 2) w0 (reg 3) = some 0x12345000 ∧
    after (.movi (fm (.vec 3)) 0x80000 0) w0 (reg 3) = some 0xFFF80000 ∧
    after (.movi (fm (.vec 3)) 0x3C00 3) w0 (reg 3) = some 0x3C003C00 := by decide +kernel

/-- R271: the number of ones, the leading and the trailing zeros of 0x0F00. -/
theorem test_counts : after (.popc (fm (.vec 3) (v 0)) 0) (wRegs 0x0F00 0 0) (reg 3) = some 4 ∧
    after (.clz (fm (.vec 3) (v 0)) 0) (wRegs 0x0F00 0 0) (reg 3) = some 20 ∧
    after (.ctz (fm (.vec 3) (v 0)) 0) (wRegs 0x0F00 0 0) (reg 3) = some 8 := by decide +kernel

/-- R66: the paired example, with `p1` true, v0 = 3, v1 = 2, v2 = 5 and the window's newest value 1.0. -/
theorem test_paired_example :
    let w := { wRegs 0x40400000 0x40000000 5 with pred := [(1, 1)], win := [(0, 0x3F800000)] }
    let i := decodeWord 0xFE2008000302681205232024
    after i w (reg 4) = some 0x40E00000 ∧ after i w (reg 9) = some 6 := by decide +kernel

/-- R48, R307: a branch of -2 instructions, and the next instruction of a lane whose guard is false. -/
theorem test_bra : after (.bra (fm (.vec 0)) 0xFFFFE) w0 (fun w => (cget w.pc 0).toNat) = some (pc0 - 24) ∧
    after (.bra (fm (.vec 0) .zero .zero .zero ⟨false, 1⟩) 0xFFFFE) w0 (fun w => (cget w.pc 0).toNat) = some (pc0 + 12) := by
  decide +kernel

/-- R314: the lane ends, and no other lane does. -/
theorem test_exit : after (.exit (fm (.vec 0))) w0 (fun w => w.exited.toNat) = some 1 := by decide +kernel

/-- R313: the word of the loop example. -/
theorem test_decode_loop_example : decode 0x7C0000000341041070000C00 = .ok (.loop (fm (.vec 0) (.vec false 3)) 3 0) := by rfl

end Sys2Proof.Tests
end

section
/-! PROOF. The value instructions: what one does when it executes, said once, and the two statements about them
(R13, R14, R21 to R24, R32, R34, R76, R79, R84, R208, R313). -/

namespace Sys2Proof.Machine

open Sys2Proof Sys2Proof.Claims

/-! ## The warp after the results -/

/-- The warp but for all that a value instruction can change of it: what results reach, the counts of stair reads, program
counters, loops, the times of issues and the marks on counters. -/
def Warp.rest (w : Warp) : Warp :=
  { w.stem with rdCnt := [], qseal := [], pc := [], loops := [], issues := 0, laneIssue := [], lastIssue := 0,
                stallUntil := 0, yielded := false, pend := [], nextSeq := 0 }

theorem rest_of_stem {a b : Warp} (h : a.stem = b.stem) : a.rest = b.rest :=
  congrArg (fun x : Warp =>
    { x with rdCnt := [], qseal := [], pc := [], loops := [], issues := 0, laneIssue := [], lastIssue := 0,
             stallUntil := 0, yielded := false, pend := [], nextSeq := 0 }) h

/-- Warps with the same rest differ in no more than those fields. -/
theorem eq_of_rest {a b : Warp} (h : a.rest = b.rest) :
    a = { b with vec := a.vec, uni := a.uni, pred := a.pred, win := a.win, winSeq := a.winSeq, fstat := a.fstat,
                 dirty := a.dirty, rdCnt := a.rdCnt, qseal := a.qseal, pc := a.pc, loops := a.loops,
                 issues := a.issues, laneIssue := a.laneIssue, lastIssue := a.lastIssue,
                 stallUntil := a.stallUntil, yielded := a.yielded, pend := a.pend, nextSeq := a.nextSeq } :=
  congrArg (fun x : Warp =>
    { x with vec := a.vec, uni := a.uni, pred := a.pred, win := a.win, winSeq := a.winSeq, fstat := a.fstat,
             dirty := a.dirty, rdCnt := a.rdCnt, qseal := a.qseal, pc := a.pc, loops := a.loops,
             issues := a.issues, laneIssue := a.laneIssue, lastIssue := a.lastIssue,
             stallUntil := a.stallUntil, yielded := a.yielded, pend := a.pend, nextSeq := a.nextSeq }) h

/-- Results go lane by lane, but to a uniform register. -/
theorem emit_eq_foldl (c : Ctx) {d : Dst} (on : Mask) (val : Nat → List W32 × Flags) (hd : ∀ i, d ≠ .uni i) :
    c.emit d on val = (lanesOf on).foldl (fun w l => (w.putLane d l (val l).1).raise (val l).2) c.w := by
  cases d with
  | uni i => exact absurd rfl (hd i)
  | vec i | nwb | pred i | cls3 i => rfl

theorem emit_vec_of_ne (c : Ctx) {d : Dst} (on : Mask) (val : Nat → List W32 × Flags) (hd : ∀ i, d ≠ .vec i) :
    (c.emit d on val).vec = c.w.vec := by
  cases d with
  | vec i => exact absurd rfl (hd i)
  | uni i => unfold Ctx.emit; dsimp only; split <;> simp
  | nwb | pred i | cls3 i => exact foldl_keeps Warp.vec _ (fun b l => by simp [Warp.putLane]) _ _

theorem emit_uni_of_ne (c : Ctx) {d : Dst} (on : Mask) (val : Nat → List W32 × Flags) (hd : ∀ i, d ≠ .uni i) :
    (c.emit d on val).uni = c.w.uni := by
  rw [emit_eq_foldl c on val hd]
  exact foldl_keeps Warp.uni _ (fun b l => by cases d <;> simp [Warp.putLane]) _ _

theorem emit_pred_of_ne (c : Ctx) {d : Dst} (on : Mask) (val : Nat → List W32 × Flags) (hd : ∀ i, d ≠ .pred i) :
    (c.emit d on val).pred = c.w.pred := by
  cases d with
  | pred i => exact absurd rfl (hd i)
  | uni i => unfold Ctx.emit; dsimp only; split <;> simp
  | vec i | nwb | cls3 i => exact foldl_keeps Warp.pred _ (fun b l => by simp [Warp.putLane]) _ _

theorem emit_predWord_of_ne (c : Ctx) {d : Dst} (on : Mask) (val : Nat → List W32 × Flags) (hd : ∀ i, d ≠ .pred i)
    (p : Nat) : (c.emit d on val).predWord p = c.w.predWord p := by
  rw [Warp.predWord, emit_pred_of_ne c on val hd, Warp.predWord]

/-- A field of the warp that results do not reach. -/
theorem emit_kept {α : Type} (p : Warp → α) (c : Ctx) (d : Dst) (on : Mask) (val : Nat → List W32 × Flags)
    (hp : ∀ w : Warp, p w = p w.stem) : p (c.emit d on val) = p c.w := by
  rw [hp, stem_emit, ← hp]

/-- R208: a destination of a class that takes results takes their flags. -/
theorem fstat_emit_flagsOf (c : Ctx) (d : Dst) (on : Mask) (val : Nat → List W32 × Flags) :
    (c.emit d on val).fstat = c.w.fstat ||| flagsOf d on val := by
  cases d with
  | uni i => exact fstat_emit_uni c i on val
  | vec i | nwb | pred i | cls3 i => exact fstat_emit c _ on val (by simp)

/-! ## Execution -/

/-- The state after a value instruction whose lanes `on` have the results `val`, but for the counter that it raises. -/
def State.valued (s : State) (c : Ctx) (f : Fmt) (on : Mask) (val : Nat → List W32 × Flags) : State :=
  s.finish c f on c.lanes (c.emit f.d on val)

section
variable {s : State} {i : Instr} {c : Ctx} {f : Fmt} {on : Mask} {val : Nat → List W32 × Flags}

/-- A word that computes `v` in each lane, where `v` is what the statements call its value. -/
theorem alu_valued (h : s.Executes i c f on) {f' : Fmt} {sh : Shape} (hs : i.shape = some (f', sh))
    {v : Ctx → Nat → List W32 × Flags} (hv : ∀ l, some (v c l) = some (val l)) :
    s.alu i f' v = .next (s.valued c f on val) := by
  obtain ⟨sh', hs', -⟩ := h.shape
  obtain ⟨rfl, -⟩ := Prod.mk.inj (Option.some.inj (hs.symm.trans hs'))
  obtain rfl : v c = val := funext fun l => Option.some.inj (hv l)
  exact alu_executes h v

/-- Every value instruction that executes finishes with its results; a cross-lane word marks counter 1 as well (R76). -/
theorem exec_valued (h : s.Executes i c f on) (hv : ∀ l, valueOf s c l i = some (val l)) :
    (Instr.raises i = none ∧ exec i s = .next (s.valued c f on val)) ∨
      (Instr.raises i = some 1 ∧ exec i s = s.counted i 1 (.next (s.valued c f on val))) := by
  cases i with
  | mov f' m mode =>
    cases mode with
    | direct => exact .inl ⟨rfl, alu_valued h rfl hv⟩
    | fromIdx | toIdx => cases hv 0
  | pmov f' form => cases form <;> exact .inl ⟨rfl, alu_valued h rfl hv⟩
  | pack f' m k sat => cases k <;> exact .inl ⟨rfl, alu_valued h rfl hv⟩
  | qstat f' j k sel => cases sel <;> exact .inl ⟨rfl, alu_valued h rfl hv⟩
  | iadd | isub | imul | imulh | imad | imadw | imin | imax | iabs | andB | orB | xorB | andnB | notB | shl | shr | sar
  | rotl | funsh | bfx | bfi | popc | clz | ctz | brev | iset | set64 | sel | lea | add64 | sub64 | movi | pset
  | fadd | fsub | fmul | ffma | fmin | fmax | fset | frnd | fclas | fscl | cvtFrom | cvtiI2f | cvtiF2i | unpk
  | dp2 | dp4 | dp8 | hdp2 | mget => exact .inl ⟨rfl, alu_valued h rfl hv⟩
  | perm | slide | bcast | vote | elect | redux | scan | matchK =>
    exact .inr ⟨rfl, congrArg (s.counted _ 1) (alu_valued h rfl hv)⟩
  | _ => cases hv 0

/-- The warp that the results and the completion leave, but for the mark on a counter. -/
def State.valuedWarp (s : State) (c : Ctx) (f : Fmt) (on : Mask) (val : Nat → List W32 × Flags) : Warp :=
  s.finished c f on c.lanes (c.emit f.d on val)

/-- A field of the warp after completion that completion does not touch is as the results left it. -/
theorem valuedWarp_field {α : Type} (p : Warp → α) (s : State) (c : Ctx) (f : Fmt) (on : Mask)
    (val : Nat → List W32 × Flags)
    (hp : ∀ v w : Warp, p { w with pc := v.pc, loops := v.loops, rdCnt := v.rdCnt, qseal := v.qseal, dirty := v.dirty,
                                   issues := v.issues, laneIssue := v.laneIssue, lastIssue := v.lastIssue,
                                   stallUntil := v.stallUntil, yielded := v.yielded } = p w) :
    p (s.valuedWarp c f on val) = p (c.emit f.d on val) := by
  rw [State.valuedWarp, finished_frame s c f on c.lanes (c.emit f.d on val)]
  exact hp _ _

theorem valuedWarp_rest (s : State) (c : Ctx) (f : Fmt) (on : Mask) (val : Nat → List W32 × Flags) :
    (s.valuedWarp c f on val).rest = c.w.rest :=
  (valuedWarp_field Warp.rest s c f on val fun _ _ => rfl).trans (rest_of_stem (stem_emit c f.d on val))

/-- A field of the warp that neither results nor completion touch. -/
theorem valuedWarp_kept {α : Type} (p : Warp → α) (s : State) (c : Ctx) (f : Fmt) (on : Mask)
    (val : Nat → List W32 × Flags)
    (hp : ∀ v w : Warp, p { w with pc := v.pc, loops := v.loops, rdCnt := v.rdCnt, qseal := v.qseal, dirty := v.dirty,
                                   issues := v.issues, laneIssue := v.laneIssue, lastIssue := v.lastIssue,
                                   stallUntil := v.stallUntil, yielded := v.yielded } = p w)
    (hs : ∀ w : Warp, p w = p w.stem) : p (s.valuedWarp c f on val) = p c.w := by
  rw [valuedWarp_field p s c f on val hp, emit_kept p c f.d on val hs]

/-- What a value instruction leaves: the state `t`, in which its warp is `v`. -/
structure ValueDone (s : State) (i : Instr) (c : Ctx) (f : Fmt) (on : Mask) (val : Nat → List W32 × Flags) (t : State)
    (v : Warp) : Prop where
  answers : exec i s = .next t
  warp : t.warp? c.wid = some v
  only : s.OnlyWarp t c.wid
  base : v = { s.valuedWarp c f on val with pend := v.pend, nextSeq := v.nextSeq }
  unmarked : Instr.raises i = none ∨ on = 0 → v.pend = c.w.pend ∧ v.nextSeq = c.w.nextSeq
  marked : Instr.raises i ≠ none → on ≠ 0 → Raised c v 1 on f.d

theorem modWarp_eq_setWarp {t : State} {wid : Nat} {w : Warp} (h : t.warp? wid = some w) (g : Warp → Warp) :
    t.modWarp wid g = t.setWarp wid (g w) := by
  have h' : tget t.warps wid = some w := h
  simp [State.modWarp, State.setWarp, tmod, h']

theorem onlyWarp_setWarp {s t : State} {wid : Nat} (h : s.OnlyWarp t wid) (w : Warp) : s.OnlyWarp (t.setWarp wid w) wid := by
  obtain ⟨hs, hw, hg⟩ := h
  refine ⟨?_, fun j hj => ?_, hg⟩
  · rw [hs]; rfl
  · rw [← hw j hj]; exact tget_tset_ne _ _ hj

theorem valued_warp? (s : State) (c : Ctx) (f : Fmt) (on : Mask) (val : Nat → List W32 × Flags) :
    (s.valued c f on val).warp? c.wid = some (s.valuedWarp c f on val) := by
  rw [State.valued, finish_warp?, if_pos rfl]; rfl

theorem valuedWarp_pend (s : State) (c : Ctx) (f : Fmt) (on : Mask) (val : Nat → List W32 × Flags) :
    (s.valuedWarp c f on val).pend = c.w.pend ∧ (s.valuedWarp c f on val).nextSeq = c.w.nextSeq :=
  ⟨valuedWarp_kept Warp.pend s c f on val (fun _ _ => rfl) fun _ => rfl,
   valuedWarp_kept Warp.nextSeq s c f on val (fun _ _ => rfl) fun _ => rfl⟩

/-- R84: the warp has issued once more. -/
theorem valuedWarp_issues (s : State) (c : Ctx) (f : Fmt) (on : Mask) (val : Nat → List W32 × Flags) :
    (s.valuedWarp c f on val).issues = c.w.issues + 1 := by
  have ha : (c.advance (s.readsCounted c f on (c.emit f.d on val)) c.lanes).issues =
      (s.readsCounted c f on (c.emit f.d on val)).issues := by rw [advance_frame]
  have hc : (s.readsCounted c f on (c.emit f.d on val)).issues = (c.emit f.d on val).issues := by rw [counted_frame]
  have he := emit_kept Warp.issues c f.d on val fun _ => rfl
  exact congrArg (· + 1) (ha.trans (hc.trans he))

/-- R76, R79: the mark on counter 1 of a word that has completed with a lane on. -/
theorem counted_valued (h : s.Executes i c f on) :
    ∃ v, s.counted i 1 (.next (s.valued c f on val)) = .next ((s.valued c f on val).setWarp c.wid v) ∧
      v = { s.valuedWarp c f on val with pend := v.pend, nextSeq := v.nextSeq } ∧
      (on = 0 → v.pend = c.w.pend ∧ v.nextSeq = c.w.nextSeq) ∧ (on ≠ 0 → Raised c v 1 on f.d) := by
  obtain ⟨hc, ⟨sh, hs, -⟩, ho, -, -⟩ := h
  obtain ⟨hp, hn⟩ := valuedWarp_pend s c f on val
  have hi := valuedWarp_issues s c f on val
  have hst : (s.valuedWarp c f on val).stopped = c.w.stopped :=
    valuedWarp_kept Warp.stopped s c f on val (fun _ _ => rfl) fun _ => rfl
  have hpk : (s.valuedWarp c f on val).parked = c.w.parked :=
    valuedWarp_kept Warp.parked s c f on val (fun _ _ => rfl) fun _ => rfl
  have hw := valued_warp? s c f on val
  generalize s.valuedWarp c f on val = w at *
  have hif : (decide (on = 0) || decide (w.issues = c.w.issues) || w.stopped != c.w.stopped || w.parked != c.w.parked) =
      decide (on = 0) := by simp [hi, hst, hpk]
  unfold State.counted
  simp only [hc, hs, ← ho, modWarp_eq_setWarp hw, hif]
  refine ⟨_, rfl, ?_⟩
  by_cases h0 : on = 0
  · simp only [h0, decide_true, if_true]
    exact ⟨trivial, fun _ => ⟨hp, hn⟩, fun h => absurd rfl h⟩
  · simp only [h0, decide_false, Bool.false_eq_true, if_false]
    exact ⟨trivial, fun h => h.elim, fun _ =>
      ⟨by rw [hn], by simp [Warp.counter, Pend.new, hp], _, by rw [hp], rfl, rfl, rfl, rfl, hn⟩⟩

/-- A value instruction that executes answers a next state: what differs in it. -/
theorem exec_valueDone (h : s.Executes i c f on) (hv : ∀ l, valueOf s c l i = some (val l)) :
    ∃ t v, ValueDone s i c f on val t v := by
  have only : s.OnlyWarp (s.valued c f on val) c.wid := finish_onlyWarp s c f on c.lanes _
  rcases exec_valued h hv with ⟨hr, he⟩ | ⟨hr, he⟩
  · exact ⟨_, s.valuedWarp c f on val, he, valued_warp? s c f on val, only, rfl, fun _ => valuedWarp_pend s c f on val,
      fun h => absurd hr h⟩
  · obtain ⟨v, hc, hb, h0, h1⟩ := counted_valued (val := val) h
    refine ⟨_, v, he.trans hc, tget_tset_same _ _ _, onlyWarp_setWarp only v, hb, fun h => h0 ?_, fun _ => h1⟩
    simpa [hr] using h

/-! ## What the statements say of it -/

namespace ValueDone
variable {t : State} {v : Warp}

/-- A field of the warp that the mark on a counter does not touch. -/
theorem field {α : Type} (hd : ValueDone s i c f on val t v) (p : Warp → α)
    (hp : ∀ w u : Warp, p { w with pend := u.pend, nextSeq := u.nextSeq } = p w) : p v = p (s.valuedWarp c f on val) :=
  (congrArg p hd.base).trans (hp _ _)

/-- A register file, the window or the flags: as the results left them. -/
theorem result {α : Type} (hd : ValueDone s i c f on val t v) (p : Warp → α)
    (hp : ∀ w u : Warp, p { w with pend := u.pend, nextSeq := u.nextSeq } = p w)
    (hq : ∀ v w : Warp, p { w with pc := v.pc, loops := v.loops, rdCnt := v.rdCnt, qseal := v.qseal, dirty := v.dirty,
                                   issues := v.issues, laneIssue := v.laneIssue, lastIssue := v.lastIssue,
                                   stallUntil := v.stallUntil, yielded := v.yielded } = p w) :
    p v = p (c.emit f.d on val) :=
  (hd.field p hp).trans (valuedWarp_field p s c f on val hq)

theorem vec (hd : ValueDone s i c f on val t v) : v.vec = (c.emit f.d on val).vec :=
  hd.result Warp.vec (fun _ _ => rfl) fun _ _ => rfl

theorem uni (hd : ValueDone s i c f on val t v) : v.uni = (c.emit f.d on val).uni :=
  hd.result Warp.uni (fun _ _ => rfl) fun _ _ => rfl

theorem pred (hd : ValueDone s i c f on val t v) : v.pred = (c.emit f.d on val).pred :=
  hd.result Warp.pred (fun _ _ => rfl) fun _ _ => rfl

theorem win (hd : ValueDone s i c f on val t v) : v.win = (c.emit f.d on val).win :=
  hd.result Warp.win (fun _ _ => rfl) fun _ _ => rfl

theorem fstat (hd : ValueDone s i c f on val t v) : v.fstat = (c.emit f.d on val).fstat :=
  hd.result Warp.fstat (fun _ _ => rfl) fun _ _ => rfl

/-- The vector registers (R14, R23, R24). -/
theorem vreg (h : s.Executes i c f on) (hd : ValueDone s i c f on val t v) (r k : Nat) (hk : k < 32) :
    t.vreg c.wid r k = match f.d with
      | .vec i => if on.getLsbD k ∧ i.toNat ≤ r ∧ r - i.toNat < (val k).1.length then (val k).1.getD (r - i.toNat) 0
        else s.vreg c.wid r k
      | _ => s.vreg c.wid r k := by
  have hs : s.vreg c.wid r k = cget c.w.vec (r * 32 + k) := by simp [State.vreg, (ctx_some h.ctx).1]
  have ht : t.vreg c.wid r k = cget (c.emit f.d on val).vec (r * 32 + k) := by simp [State.vreg, hd.warp, hd.vec]
  rw [hs, ht]
  cases hf : f.d with
  | vec i =>
    rw [vec_emit c i on val r k hk]
    dsimp only
    split
    · next hw => exact List.getElem_eq_getD 0
    · rfl
  | nwb | uni i | pred i | cls3 i => dsimp only; rw [emit_vec_of_ne c on val (by simp)]

/-- The uniform registers (R22). -/
theorem ureg (h : s.Executes i c f on) (hd : ValueDone s i c f on val t v) (r : Nat) :
    t.ureg c.wid r = match f.d with
      | .uni i => if on ≠ 0 ∧ i.toNat ≤ r ∧ r - i.toNat < (val (lowest on)).1.length then
          (val (lowest on)).1.getD (r - i.toNat) 0 else s.ureg c.wid r
      | _ => s.ureg c.wid r := by
  have hs : s.ureg c.wid r = cget c.w.uni r := by simp [State.ureg, (ctx_some h.ctx).1]
  have ht : t.ureg c.wid r = cget (c.emit f.d on val).uni r := by simp [State.ureg, hd.warp, hd.uni]
  rw [hs, ht]
  cases hf : f.d with
  | uni i =>
    rw [uni_emit c i on val r]
    dsimp only
    split
    · next hw => exact List.getElem_eq_getD 0
    · rfl
  | vec i | nwb | pred i | cls3 i => dsimp only; rw [emit_uni_of_ne c on val (by simp)]

/-- The predicates (R21, R23). -/
theorem preg (h : s.Executes i c f on) (hd : ValueDone s i c f on val t v) (r k : Nat) (hk : k < 32) :
    (t.preg c.wid r).getLsbD k = match f.d with
      | .pred p => if r = p.toNat ∧ on.getLsbD k ∧ p ≠ 7 then ((val k).1.headD 0).getLsbD 0
        else (s.preg c.wid r).getLsbD k
      | _ => (s.preg c.wid r).getLsbD k := by
  have hs : s.preg c.wid r = c.w.predWord r := by simp [State.preg, (ctx_some h.ctx).1]
  have ht : t.preg c.wid r = (c.emit f.d on val).predWord r := by
    simp [State.preg, hd.warp, Warp.predWord, hd.pred]
  rw [hs, ht]
  cases hf : f.d with
  | pred p =>
    have h7 : p ≠ 7 ↔ p.toNat ≠ 7 := not_congr ⟨fun e => e ▸ rfl, fun e => BitVec.eq_of_toNat_eq e⟩
    simp only [h7]
    exact pred_emit c p on val r k hk
  | vec i | nwb | uni i | cls3 i => dsimp only; rw [emit_predWord_of_ne c on val (by simp)]

/-- The windows (R32, R34). -/
theorem wins (h : s.Executes i c f on) (hd : ValueDone s i c f on val t v) (k : Nat) (hk : k < 32) :
    Claims.window t c.wid k = if on.getLsbD k ∧ (f.d = .nwb ∨ ∃ i, f.d = .vec i) then
      shifted (val k).1 (Claims.window s c.wid k) else Claims.window s c.wid k := by
  have hs : Claims.window s c.wid k = c.w.window k := by
    simp [Claims.window, State.wslot, Warp.window, (ctx_some h.ctx).1]
  have ht : Claims.window t c.wid k = (c.emit f.d on val).window k := by
    simp [Claims.window, State.wslot, Warp.window, hd.warp, hd.win]
  rw [hs, ht]
  exact window_emit c f.d on val k hk

theorem wrote (h : s.Executes i c f on) (hd : ValueDone s i c f on val t v) :
    Wrote s t c f.d on fun k => (val k).1 :=
  ⟨hd.vreg h, hd.ureg h, hd.preg h, hd.wins h⟩

/-- No byte of memory differs. -/
theorem byte (hd : ValueDone s i c f on val t v) (a : Nat) : t.byte a = s.byte a :=
  congrArg (memByte · a) (show t.mem = s.mem by rw [hd.only.1])

theorem rest (hd : ValueDone s i c f on val t v) : v.rest = c.w.rest :=
  (hd.field Warp.rest fun _ _ => rfl).trans (valuedWarp_rest s c f on val)

/-- R38: without a stair source no read is counted. -/
theorem reads (hd : ValueDone s i c f on val t v) (hs : f.stairs = []) : v.rdCnt = c.w.rdCnt ∧ v.qseal = c.w.qseal := by
  have hw : s.valuedWarp c f on val = s.issued (c.advance (c.emit f.d on val) c.lanes) c.lanes := by
    rw [State.valuedWarp, State.finished, counted_plain s c f on _ hs]
  constructor
  · rw [hd.field Warp.rdCnt fun _ _ => rfl, hw, State.issued_rdCnt, advance_frame]
    exact emit_kept Warp.rdCnt c f.d on val fun _ => rfl
  · rw [hd.field Warp.qseal fun _ _ => rfl, hw, State.issued_qseal, advance_frame]
    exact emit_kept Warp.qseal c f.d on val fun _ => rfl

/-- R13, R313: the active lanes go on at the next instruction. -/
theorem advanced (h : s.Executes i c f on) (hd : ValueDone s i c f on val t v) (hl : c.noLoopEnd) : s.Advanced t c := by
  have hloops := emit_kept Warp.loops c f.d on val fun _ => rfl
  have hpc := emit_kept Warp.pc c f.d on val fun _ => rfl
  intro l hl32
  have hs : s.lanePc c.wid l = cget c.w.pc l := by simp [State.lanePc, (ctx_some h.ctx).1]
  have ht : t.lanePc c.wid l = cget (s.valuedWarp c f on val).pc l := by
    simp [State.lanePc, hd.warp, hd.field Warp.pc fun _ _ => rfl]
  rw [hs, ht, State.valuedWarp, finished_pc s c f on c.lanes _ l hl32 (by rw [hloops]; exact hl), hpc]

theorem issues (hd : ValueDone s i c f on val t v) : v.issues = c.w.issues + 1 :=
  (hd.field Warp.issues fun _ _ => rfl).trans (valuedWarp_issues s c f on val)

end ValueDone

end

end Sys2Proof.Machine

namespace Sys2Proof.Claims

open Sys2Proof Sys2Proof.Machine

/-- Settles O1: each part of the destination is what the results leave of it. -/
theorem valueResults : Obligations.ValueResults := by
  unfold Obligations.ValueResults
  intro s i c f on val h hv
  obtain ⟨t, v, hd⟩ := exec_valueDone h hv
  have h7 : t.preg c.wid 7 = BitVec.allOnes 32 := by simp [State.preg, hd.warp, Warp.predWord]
  exact ⟨t, v, hd.answers, hd.warp, hd.wrote h, h7, fun _ => hd.fstat.trans (fstat_emit_flagsOf c f.d on val)⟩

/-- Settles O2: results and completion touch no more of the warp than the fields named, and nothing else of the state. -/
theorem valueFrame : Obligations.ValueFrame := by
  unfold Obligations.ValueFrame
  intro s i c f on val h hv
  obtain ⟨t, v, hd⟩ := exec_valueDone h hv
  exact ⟨t, v, hd.answers, hd.warp, hd.only, hd.byte, eq_of_rest hd.rest, hd.unmarked, hd.marked,
    fun hf => hd.vec.trans (emit_vec_of_ne c on val hf), fun hf => hd.uni.trans (emit_uni_of_ne c on val hf),
    fun hf => hd.pred.trans (emit_pred_of_ne c on val hf), hd.reads, hd.advanced h, hd.issues⟩

end Sys2Proof.Claims
end

section
/-! PROOF. The trust core's commands, the routing of commands and the management registers (R427, R428, R458, R459, R466, R474,
R475). -/

namespace Sys2Proof.Machine

open Sys2Proof Sys2Proof.Claims

/-! ## Commands: what taking and answering one leaves (R427) -/

section
variable {s : State} {m : Msg} {opc own : Nat}

/-- Taking a command changes only the queues of commands. -/
theorem takeCommand_frame (s : State) (m : Msg) (own : Nat) :
    s.takeCommand m own =
      { s with cmdQ := (s.takeCommand m own).cmdQ, mailbox := (s.takeCommand m own).mailbox } := by
  unfold State.takeCommand
  split <;> rfl

/-- What a state holds besides its queues of commands is as it was when a command is taken. -/
theorem takeCommand_kept {α : Type} (p : State → α) (s : State) (m : Msg) (own : Nat)
    (hp : ∀ (u : State) q b, p { u with cmdQ := q, mailbox := b } = p u) : p (s.takeCommand m own) = p s := by
  rw [takeCommand_frame]
  exact hp _ _ _

@[simp] theorem takeCommand_mem (s : State) (m : Msg) (own : Nat) : (s.takeCommand m own).mem = s.mem :=
  takeCommand_kept State.mem s m own fun _ _ _ => rfl
@[simp] theorem takeCommand_trust (s : State) (m : Msg) (own : Nat) : (s.takeCommand m own).trust = s.trust :=
  takeCommand_kept State.trust s m own fun _ _ _ => rfl
@[simp] theorem takeCommand_mg (s : State) (m : Msg) (own : Nat) : (s.takeCommand m own).mg = s.mg :=
  takeCommand_kept State.mg s m own fun _ _ _ => rfl
@[simp] theorem takeCommand_rspQ (s : State) (m : Msg) (own : Nat) : (s.takeCommand m own).rspQ = s.rspQ :=
  takeCommand_kept State.rspQ s m own fun _ _ _ => rfl
@[simp] theorem takeCommand_queues (s : State) (m : Msg) (own : Nat) : (s.takeCommand m own).queues = s.queues :=
  takeCommand_kept State.queues s m own fun _ _ _ => rfl
@[simp] theorem takeCommand_grids (s : State) (m : Msg) (own : Nat) : (s.takeCommand m own).grids = s.grids :=
  takeCommand_kept State.grids s m own fun _ _ _ => rfl
@[simp] theorem takeCommand_tlb (s : State) (m : Msg) (own : Nat) : (s.takeCommand m own).tlb = s.tlb :=
  takeCommand_kept State.tlb s m own fun _ _ _ => rfl
@[simp] theorem takeCommand_cores (s : State) (m : Msg) (own : Nat) : (s.takeCommand m own).cores = s.cores :=
  takeCommand_kept State.cores s m own fun _ _ _ => rfl
@[simp] theorem takeCommand_peers (s : State) (m : Msg) (own : Nat) : (s.takeCommand m own).peers = s.peers :=
  takeCommand_kept State.peers s m own fun _ _ _ => rfl
@[simp] theorem takeCommand_peek (s : State) (m : Msg) (own a n : Nat) : (s.takeCommand m own).peek a n = s.peek a n :=
  takeCommand_kept (State.peek · a n) s m own fun _ _ _ => rfl
@[simp] theorem takeCommand_byte (s : State) (m : Msg) (own a : Nat) : (s.takeCommand m own).byte a = s.byte a :=
  takeCommand_kept (State.byte · a) s m own fun _ _ _ => rfl
@[simp] theorem takeCommand_osLimit (s : State) (m : Msg) (own : Nat) : (s.takeCommand m own).osLimit = s.osLimit :=
  takeCommand_kept State.osLimit s m own fun _ _ _ => rfl
@[simp] theorem takeCommand_holders (s : State) (m : Msg) (own l : Nat) : (s.takeCommand m own).holders l = s.holders l :=
  takeCommand_kept (State.holders · l) s m own fun _ _ _ => rfl
@[simp] theorem takeCommand_reportBytes (s : State) (m : Msg) (own n : Nat) :
    (s.takeCommand m own).reportBytes n = s.reportBytes n :=
  takeCommand_kept (State.reportBytes · n) s m own fun _ _ _ => rfl

/-- A command that its owner may carry out is taken and answered. -/
theorem command_of_ready (h : s.commandReady m opc own = true) (f : State → State × Status × Nat) :
    s.command m opc own f = .next ((f (s.takeCommand m own)).1.respond m own (f (s.takeCommand m own)).2.1
      (f (s.takeCommand m own)).2.2) := by
  unfold State.command
  rw [if_pos h]

/-- The response to a command whose effect leaves the responses and the interrupts alone. -/
theorem answered_respond {u : State} (st : Status) (r : Nat) (hr : u.rspQ = s.rspQ) (hi : u.mg.int_ = s.mg.int_) :
    Answered s (u.respond m own st r) m own st r :=
  ⟨congrArg (· ++ _) hr, congrArg (· ||| 4) hi⟩

/-- A command that is taken and answered, and no more, is refused. -/
theorem refused_of_respond {i : Instr} {st : Status} (h : exec i s = .next ((s.takeCommand m own).respond m own st 0)) :
    Refused s i m own st :=
  ⟨_, h, answered_respond st 0 (takeCommand_rspQ s m own) (by rw [takeCommand_mg]), takeCommand_queues s m own,
    takeCommand_grids s m own, takeCommand_mem s m own, takeCommand_tlb s m own, takeCommand_cores s m own,
    takeCommand_trust s m own, takeCommand_peers s m own⟩

end

/-! ## Fields of records -/

/-- A field of some bytes of memory stands at its own address. -/
theorem field_peek (s : State) (a : Nat) {off n len : Nat} (h : off + n ≤ len) :
    field (s.peek a len) off n = s.peekN (a + off) n := by
  unfold field State.peekN
  congr 1
  apply List.ext_getElem
  · simp only [State.peek, List.length_take, List.length_drop, List.length_map, List.length_range]
    omega
  · intro j h1 h2
    simp [State.peek, Nat.add_assoc]

/-- R4: the number that the bytes of a number give back. -/
theorem leNat_natBytes_mod (n v : Nat) : leNat (natBytes n v) = v % 256 ^ n := by
  induction n generalizing v with
  | zero => simp [natBytes, leNat, Nat.mod_one]
  | succ n ih =>
    have ih' : List.foldr (fun b n => b.toNat + 256 * n) 0 (natBytes n (v / 256)) = v / 256 % 256 ^ n := ih (v / 256)
    simp only [natBytes, leNat, List.foldr_cons, ih', BitVec.toNat_ofNat]
    rw [show 2 ^ 8 = 256 from rfl, Nat.pow_succ', Nat.mod_mul]

/-- A number among the bytes of a record. -/
theorem field_natBytes (p q : List Byte) (n v : Nat) : field (p ++ (natBytes n v ++ q)) p.length n = v % 256 ^ n := by
  rw [field, List.drop_left, List.take_left' (natBytes_length n v), leNat_natBytes_mod]

theorem field_natBytes_head (q : List Byte) (n v : Nat) : field (natBytes n v ++ q) 0 n = v % 256 ^ n :=
  field_natBytes [] q n v

/-! ## Staging and activating images, raising minima (R459, R474) -/

section
variable {s : State} {m : Msg}

/-- R474: the bytes that `FWSTAGE` names. -/
def State.namedImage (s : State) (a : Nat) : List Byte := s.peek a (384 + field (s.peek a 384) 12 4 % (2 ^ 24 + 1))

/-- The target stands in the header. -/
theorem namedImage_target (s : State) (a : Nat) : field (s.peek a 384) 6 1 = field (s.namedImage a) 6 1 := by
  rw [State.namedImage, field_peek s a (by omega), field_peek s a (by omega)]

/-- R459, R474: an image lies in memory, for a target that there is, and passes the checks. -/
def State.imageGood (s : State) (a : Nat) : Prop :=
  a + (s.namedImage a).length ≤ s.osLimit ∧ field (s.namedImage a) 6 1 ≤ 8 ∧
    s.trust.accepts (field (s.namedImage a) 6 1) (s.namedImage a) = true

/-- The condition under which `FWSTAGE` is denied. -/
theorem imageBad_iff (s : State) (a : Nat) :
    (decide (s.osLimit < a + (s.namedImage a).length) || decide (8 < field (s.namedImage a) 6 1) ||
      !s.trust.accepts (field (s.namedImage a) 6 1) (s.namedImage a)) = true ↔ ¬ s.imageGood a := by
  unfold State.imageGood
  rw [Classical.not_and_iff_not_or_not, Classical.not_and_iff_not_or_not, Nat.not_le, Nat.not_le,
    Bool.or_eq_true, Bool.or_eq_true, decide_eq_true_eq, decide_eq_true_eq, Bool.not_eq_true', Bool.not_eq_true, or_assoc]

/-- R474: what `FWSTAGE` answers. -/
theorem exec_fwstage (h : s.commandReady m 0x50 6 = true) :
    let a := argN m 8 8
    let u := s.takeCommand m 6
    (a % 16 ≠ 0 ∨ argN m 16 16 ≠ 0 → exec (.fwstage m) s = .next (u.respond m 6 .badArg 0)) ∧
    (a % 16 = 0 → argN m 16 16 = 0 →
      (s.trust.staging ≠ none → exec (.fwstage m) s = .next (u.respond m 6 .busy 0)) ∧
      (s.trust.staging = none → ¬ s.imageGood a → exec (.fwstage m) s = .next (u.respond m 6 .denied 0)) ∧
      (s.trust.staging = none → s.imageGood a → exec (.fwstage m) s = .next
        (({ u with trust := { s.trust with staging := some (field (s.namedImage a) 6 1, s.namedImage a) } } : State).respond
          m 6 .ok 0))) := by
  intro a u
  simp only [show exec (.fwstage m) s = execFwstage m s from rfl, execFwstage, command_of_ready h, takeCommand_peek,
    takeCommand_trust, takeCommand_osLimit]
  have hi : s.peek a (384 + field (s.peek a 384) 12 4 % (2 ^ 24 + 1)) = s.namedImage a := rfl
  have hb := imageBad_iff s a
  simp only [show argN m 8 8 = a from rfl, hi, namedImage_target]
  refine ⟨fun hbad => ?_, fun ha hz => ⟨fun hs => ?_, fun hs hg => ?_, fun hs hg => ?_⟩⟩
  · rw [if_pos (by simpa using hbad)]
    rfl
  · rw [if_neg (by simp [ha, hz]), if_pos (Option.isSome_iff_ne_none.2 hs)]
    rfl
  · rw [if_neg (by simp [ha, hz]), if_neg (by simp [hs]), if_pos (hb.2 hg)]
    rfl
  · rw [if_neg (by simp [ha, hz]), if_neg (by simp [hs]), if_neg (fun hn => hb.1 hn hg)]

/-- The table with the entry of `k` set, or removed. -/
def tput {α : Type} (c : Tbl α) (k : Nat) : Option α → Tbl α
  | some x => tset c k x
  | none => tdel c k

theorem tget_tput {α : Type} (c : Tbl α) (k j : Nat) (x : Option α) : tget (tput c k x) j = if j = k then x else tget c j := by
  cases x with
  | none => exact tget_tdel c k j
  | some v => exact tget_tset c k j v

/-- R474: the two copies of a target exchanged. -/
def Trust.activated (t : Trust) (k : Nat) : Trust :=
  { t with flashA := tput t.flashA k (tget t.flashB k), flashB := tput t.flashB k (tget t.flashA k),
           staged := t.staged.filter (· != k) }

/-- R474: what `FWACTIVATE` answers. -/
theorem exec_fwactivate (h : s.commandReady m 0x51 6 = true) :
    let k := argN m 8 1
    let u := s.takeCommand m 6
    (argN m 9 23 ≠ 0 → exec (.fwactivate m) s = .next (u.respond m 6 .badArg 0)) ∧
    (argN m 9 23 = 0 → k ∉ s.trust.staged → exec (.fwactivate m) s = .next (u.respond m 6 .noObject 0)) ∧
    (argN m 9 23 = 0 → k ∈ s.trust.staged → exec (.fwactivate m) s = .next
      (({ u with trust := s.trust.activated k } : State).respond m 6 .ok 0)) := by
  intro k u
  simp only [show exec (.fwactivate m) s = execFwactivate m s from rfl, execFwactivate, command_of_ready h, takeCommand_trust]
  refine ⟨fun hbad => ?_, fun hz hk => ?_, fun hz hk => ?_⟩
  · rw [if_pos (by simpa using hbad)]
    rfl
  · rw [if_neg (by simp [hz]), if_pos (by simpa using hk)]
    rfl
  · rw [if_neg (by simp [hz]), if_neg (by simpa using hk)]
    simp only [Trust.activated, k]
    cases tget s.trust.flashA (argN m 8 1) <;> cases tget s.trust.flashB (argN m 8 1) <;> rfl

/-- R474: what `FWFUSE` answers. -/
theorem exec_fwfuse (h : s.commandReady m 0x52 6 = true) :
    let k := argN m 8 1
    let v := argN m 12 4
    let u := s.takeCommand m 6
    let active := ((tget s.trust.running k).map (·.secVersion)).getD 0
    let fused := (tget s.trust.fused k).getD 0
    let ill := argN m 9 3 ≠ 0 ∨ argN m 16 16 ≠ 0 ∨ 8 < k
    (ill → exec (.fwfuse m) s = .next (u.respond m 6 .badArg 0)) ∧
    (¬ ill → active < v ∨ v < fused → exec (.fwfuse m) s = .next (u.respond m 6 .denied 0)) ∧
    (¬ ill → v ≤ active → fused ≤ v → exec (.fwfuse m) s = .next
      (({ u with trust := { s.trust with fused := tset s.trust.fused k v } } : State).respond m 6 .ok 0)) := by
  intro k v u active fused ill
  simp only [show exec (.fwfuse m) s = execFwfuse m s from rfl, execFwfuse, command_of_ready h, takeCommand_trust]
  have hill : (argN m 9 3 != 0 || argN m 16 16 != 0 || decide (8 < argN m 8 1)) = true ↔ ill := by
    simp [ill, k, or_assoc]
  refine ⟨fun hbad => ?_, fun hok hr => ?_, fun hok ha hf => ?_⟩
  · rw [if_pos (hill.2 hbad)]
    rfl
  · rw [if_neg (fun hn => hok (hill.1 hn)), if_pos (by simpa [active, fused, k, v] using hr)]
    rfl
  · rw [if_neg (fun hn => hok (hill.1 hn)), if_neg (by simp [active, fused, k, v] at ha hf ⊢; exact ⟨ha, hf⟩)]

end

/-! ## Reports (R475) -/

/-- No L1 holds an update-only copy of a line: nothing is recalled. -/
theorem recall_of_no_holders (s : State) (keep : Option Nat) (l : Nat) (h : s.holders l = []) : s.recall keep l = s := by
  simp [State.recall, h, State.recallAll]

/-- With nothing to recall, the device's write of physical memory is the write of its bytes. -/
theorem pwrite_of_quiet {s : State} (h : Quiet s) (a : Nat) (bs : List Byte) : s.pwrite a bs = s.pokeBytes a bs := by
  have hf (is : List Nat) (l : Nat → Nat) : is.foldl (fun t i => t.recall none (l i)) s = s := by
    induction is with
    | nil => rfl
    | cons i is ih => rw [List.foldl_cons, recall_of_no_holders s none _ (h _), ih]
  unfold State.pwrite
  rw [hf]

theorem length_beBytes (n v : Nat) : (beBytes n v).length = n := by simp [beBytes]

theorem length_pointBytes (p : Point) : (pointBytes p).length = 97 := by
  cases p with
  | none => simp [pointBytes]
  | some q => simp [pointBytes, length_beBytes]

theorem length_flatMap_of_const {α β : Type} (l : List α) (f : α → List β) (n : Nat) (h : ∀ x ∈ l, (f x).length = n) :
    (l.flatMap f).length = l.length * n := by
  rw [List.length_flatMap, List.map_congr_left h, List.map_const', List.sum_replicate_nat]

/-- R475: bytes 32 to 623 of a report. -/
def State.reportTail (s : State) : List Byte :=
  (List.range 9).flatMap (fun k => natBytes 4 (((tget s.trust.running k).map (·.secVersion)).getD 0)) ++ natBytes 12 0 ++
  (List.range 9).flatMap (fun k => ((tget s.trust.running k).map (·.digest)).getD (List.replicate 48 (0 : Byte))) ++
  pointBytes (Point.mul (some p384G) s.trust.identity 384) ++ natBytes 15 0

theorem reportBytes_eq (s : State) (nonce : Nat) :
    s.reportBytes nonce = natBytes 4 0x54414B39 ++ (natBytes 4 1 ++ (natBytes 16 nonce ++ (natBytes 8 s.mg.status ++
      s.reportTail))) := by
  simp only [State.reportBytes, State.reportTail, List.append_assoc]

/-- R475: with digests of 48 bytes, what is signed is 624 bytes long. -/
theorem length_reportBytes (s : State) (nonce : Nat)
    (hd : ∀ k im, tget s.trust.running k = some im → im.digest.length = 48) : (s.reportBytes nonce).length = 624 := by
  have hv := length_flatMap_of_const (List.range 9)
    (fun k => natBytes 4 (((tget s.trust.running k).map (·.secVersion)).getD 0)) 4 fun k _ => natBytes_length 4 _
  have hg := length_flatMap_of_const (List.range 9)
    (fun k => ((tget s.trust.running k).map (·.digest)).getD (List.replicate 48 (0 : Byte))) 48 fun k _ => by
      cases hk : tget s.trust.running k with
      | none => simp
      | some im => simpa using hd k im hk
  simp only [reportBytes_eq, State.reportTail, List.length_append, natBytes_length, hv, hg, length_pointBytes,
    List.length_range]

/-- R475: the fields at the head of a report. -/
theorem report_fields (s : State) (nonce : Nat) (sig : List Byte) :
    field (s.reportBytes nonce ++ sig) 0 4 = 0x54414B39 ∧ field (s.reportBytes nonce ++ sig) 8 16 = nonce % 2 ^ 128 ∧
      field (s.reportBytes nonce ++ sig) 24 8 = s.mg.status % 2 ^ 64 := by
  have h8 := field_natBytes (natBytes 4 0x54414B39 ++ natBytes 4 1) (natBytes 8 s.mg.status ++ (s.reportTail ++ sig)) 16 nonce
  have h24 := field_natBytes (natBytes 4 0x54414B39 ++ natBytes 4 1 ++ natBytes 16 nonce) (s.reportTail ++ sig) 8 s.mg.status
  simp only [List.length_append, natBytes_length, List.append_assoc] at h8 h24
  simp only [reportBytes_eq, List.append_assoc]
  exact ⟨(field_natBytes_head _ 4 _).trans (Nat.mod_eq_of_lt (by decide)), h8.trans (by rw [show 256 ^ 16 = 2 ^ 128 by decide]),
    h24.trans (by rw [show 256 ^ 8 = 2 ^ 64 by decide])⟩

/-- The signature of a report. -/
def State.reportSig (s : State) (nonce : Nat) : List Byte :=
  let y := ecdsaSign s.trust.identity (sha384 (s.reportBytes nonce)) (Config.signNonce s.fresh)
  natBytes 48 y.1 ++ natBytes 48 y.2

theorem length_reportSig (s : State) (nonce : Nat) : (s.reportSig nonce).length = 96 := by
  simp only [State.reportSig, List.length_append, natBytes_length]

theorem attestation_eq (s : State) (nonce : Nat) : s.attestation nonce = s.reportBytes nonce ++ s.reportSig nonce := by
  unfold State.attestation State.reportSig
  dsimp only
  generalize ecdsaSign s.trust.identity (sha384 (s.reportBytes nonce)) (Config.signNonce s.fresh) = y
  exact List.append_assoc _ _ _

theorem takeCommand_attestation (s : State) (m : Msg) (own n : Nat) :
    (s.takeCommand m own).attestation n = s.attestation n :=
  takeCommand_kept (State.attestation · n) s m own fun _ _ _ => rfl

/-- A write of memory leaves the responses and the registers alone. -/
theorem pokeBytes_frame (s : State) (a : Nat) (bs : List Byte) :
    s.pokeBytes a bs = { s with mem := (s.pokeBytes a bs).mem, hist := (s.pokeBytes a bs).hist } :=
  State.pokes_frame _ _

/-- R475: what `ATTEST` answers. -/
theorem exec_attest {s : State} {m : Msg} (h : s.commandReady m 0x53 6 = true) :
    let a := argN m 8 8
    let u := s.takeCommand m 6
    (a % 16 ≠ 0 → exec (.attest m) s = .next (u.respond m 6 .badArg 0)) ∧
    (a % 16 = 0 → exec (.attest m) s = .next
      (({ u.pwrite a (s.attestation (argN m 16 16)) with fresh := u.fresh + 1 } : State).respond m 6 .ok 0)) := by
  intro a u
  simp only [show exec (.attest m) s = execAttest m s from rfl, execAttest, command_of_ready h, takeCommand_attestation]
  refine ⟨fun ha => ?_, fun ha => ?_⟩
  · rw [if_pos (by simpa using ha)]
    rfl
  · rw [if_neg (by simpa using ha)]

/-- A report in memory: what the address holds, what lies outside, and what else the write leaves. -/
theorem pwrite_attestation {s : State} (hq : Quiet s) (a nonce : Nat)
    (hd : ∀ k im, tget s.trust.running k = some im → im.digest.length = 48) :
    let t := s.pwrite a (s.attestation nonce)
    t.peek a 720 = s.reportBytes nonce ++ s.reportSig nonce ∧ (∀ x, x < a ∨ a + 720 ≤ x → t.byte x = s.byte x) ∧
      t.rspQ = s.rspQ ∧ t.mg = s.mg := by
  intro t
  have hlen : (s.attestation nonce).length = 720 := by
    rw [attestation_eq, List.length_append, length_reportBytes s nonce hd, length_reportSig]
  have ht : t = s.pokeBytes a (s.attestation nonce) := pwrite_of_quiet hq a _
  refine ⟨?_, fun x hx => ?_, ?_, ?_⟩
  · rw [ht, ← attestation_eq, ← hlen, State.peek_pokeBytes]
  · rw [ht, State.byte_pokeBytes_outside s a _ x (by rwa [hlen])]
  · rw [ht, pokeBytes_frame]
  · rw [ht, pokeBytes_frame]

/-- The response to `ATTEST` leaves the bytes of memory alone. -/
theorem peek_reported (w : State) (f : Nat) (m : Msg) (a n : Nat) :
    (({ w with fresh := f } : State).respond m 6 .ok 0).peek a n = w.peek a n := rfl

/-! ## Routing (R427, R428) -/

section
variable {s : State} {m : Msg}

/-- R428: the next command of the mailbox. -/
theorem exec_mailbox_head {rest : List Msg} (h : s.cmdQ = m :: rest) :
    (unassigned m = true → s.rspQ.length < 64 →
      exec (.summitMailboxMessage m) s = .next (({ s with cmdQ := rest } : State).respond m 0 .badArg 0)) ∧
    (owner m.opc.toNat = some 0 → exec (.summitMailboxMessage m) s = .next s) ∧
    (∀ k, owner m.opc.toNat = some (k + 1) →
      ((s.fifo (k + 1)).length < 32 → exec (.summitMailboxMessage m) s = .next
        { s with cmdQ := rest, mailbox := tset s.mailbox (k + 1) (s.fifo (k + 1) ++
          [{ m with src := 8, dst := BitVec.ofNat 8 (k + 1) }]) }) ∧
      (32 ≤ (s.fifo (k + 1)).length → exec (.summitMailboxMessage m) s = .next s)) := by
  have hh : (s.cmdQ.head? == some m) = true := by simp [h]
  simp only [show exec (.summitMailboxMessage m) s = execSummitMailboxMessage m s from rfl, execSummitMailboxMessage,
    if_pos hh, show s.cmdQ.tail = rest by rw [h]; rfl]
  refine ⟨fun hu hr => ?_, fun ho => ?_, fun k ho => ⟨fun hl => ?_, fun hl => ?_⟩⟩
  · rw [if_pos hu, if_pos hr]
  · simp only [unassigned, ho, Option.isNone_some, Bool.false_eq_true, if_false]
  · simp only [unassigned, ho, Option.isNone_some, Bool.false_eq_true, if_false, if_pos hl]
  · simp only [unassigned, ho, Option.isNone_some, Bool.false_eq_true, if_false, if_neg (Nat.not_lt.2 hl)]

/-- R427: a message that is not the next command: of another core to a core whose FIFO has room, or one that waits. -/
theorem exec_mailbox_core (h : s.cmdQ.head? ≠ some m) :
    (m.src ≠ 8 → m.dst.toNat < 8 → (s.fifo m.dst.toNat).length < 32 → exec (.summitMailboxMessage m) s =
      .next { s with mailbox := tset s.mailbox m.dst.toNat (s.fifo m.dst.toNat ++ [m]) }) ∧
    (m.src = 8 ∨ 8 ≤ m.dst.toNat ∨ 32 ≤ (s.fifo m.dst.toNat).length → exec (.summitMailboxMessage m) s = .next s) := by
  have hh : ¬ (s.cmdQ.head? == some m) = true := by simpa using h
  simp only [show exec (.summitMailboxMessage m) s = execSummitMailboxMessage m s from rfl, execSummitMailboxMessage,
    if_neg hh]
  refine ⟨fun hs hd hl => ?_, fun hn => ?_⟩
  · rw [if_pos (by simpa [hd, hl] using hs)]
  · rw [if_neg]
    simp only [Bool.and_eq_true, bne_iff_ne, decide_eq_true_eq]
    rintro ⟨⟨hs, hd⟩, hl⟩
    rcases hn with hn | hn | hn
    · exact hs hn
    · omega
    · omega

theorem fifo_tset (s : State) (k j : Nat) (l : List Msg) :
    (tget (tset s.mailbox k l) j).getD [] = if j = k then l else s.fifo j := by
  rw [tget_tset]
  split <;> rfl

end

/-! ## The management registers (R11, R466) -/

/-- Bits 64k to 64k + 63 of a value replaced, for the offset of the k-th part of `MG_CMD`. -/
def cmdWritten (cmd : BitVec 256) (off : Nat) (v : W64) : BitVec 256 :=
  if 0x100 ≤ off && off < 0x120 && off % 8 = 0 then
    (cmd &&& ~~~((BitVec.allOnes 64).setWidth 256 <<< (8 * (off - 0x100)))) ||| (v.setWidth 256 <<< (8 * (off - 0x100)))
  else cmd

theorem cmdWritten_of_ne (cmd : BitVec 256) (off : Nat) (v : W64) (h : off < 0x100 ∨ 0x120 ≤ off) :
    cmdWritten cmd off v = cmd := by
  rw [cmdWritten, if_neg]
  simp only [Bool.and_eq_true, decide_eq_true_eq]
  omega

/-- R466: the bits of `MG_CMD` after a write. -/
theorem getLsbD_cmdWritten (cmd : BitVec 256) (off : Nat) (v : W64) (k i : Nat) (hk : k < 4) (hi : i < 64) :
    (cmdWritten cmd off v).getLsbD (64 * k + i) =
      if off = 0x100 + 8 * k then v.getLsbD i else cmd.getLsbD (64 * k + i) := by
  by_cases ha : 0x100 ≤ off ∧ off < 0x120 ∧ off % 8 = 0
  · obtain ⟨j, hj, rfl⟩ : ∃ j, j < 4 ∧ off = 0x100 + 8 * j := ⟨(off - 0x100) / 8, by omega, by omega⟩
    have hsh : 8 * (0x100 + 8 * j - 0x100) = 64 * j := by omega
    have hin : 64 * k + i < 256 := by omega
    rw [cmdWritten, if_pos (by simp only [Bool.and_eq_true, decide_eq_true_eq]; omega), hsh]
    simp only [BitVec.getLsbD_or, BitVec.getLsbD_and, BitVec.getLsbD_not, BitVec.getLsbD_shiftLeft, BitVec.getLsbD_setWidth,
      BitVec.getLsbD_allOnes, hin, decide_true, Bool.true_and]
    rcases Nat.lt_trichotomy k j with hkj | rfl | hkj
    · rw [if_neg (by omega)]
      simp [show 64 * k + i < 64 * j by omega]
    · rw [if_pos rfl]
      simp [hi, show ¬ 64 * k + i < 64 * k by omega, show i < 256 by omega]
    · have hv : v.getLsbD (64 * k + i - 64 * j) = false := BitVec.getLsbD_of_ge _ _ (by omega)
      rw [if_neg (by omega)]
      simp [hv, show ¬ 64 * k + i < 64 * j by omega, show ¬ 64 * k + i - 64 * j < 64 by omega]
  · rw [cmdWritten, if_neg (by simp only [Bool.and_eq_true, decide_eq_true_eq]; omega), if_neg (by omega)]

theorem writeErrors_of_none {s : State} (h : s.errHeld = []) (n : Nat) : s.writeErrors n = s := by
  cases n with
  | zero => rfl
  | succ n => simp only [State.writeErrors, h]

/-- R11, R466: what a write of a register leaves, with no error record held. -/
theorem mgWrite_eq {s : State} (h : s.errHeld = []) (off : Nat) (v : W64) :
    s.mgWrite off v = { s with
      mg := { s.mg with
        int_ := if off = 0x20 then s.mg.int_ &&& ~~~(v.setWidth 6 &&& 0x3E)
          else if off = 0x120 ∧ 64 ≤ s.cmdQ.length then s.mg.int_ ||| 0x20 else s.mg.int_
        intEn := if off = 0x28 then v &&& 0x3F else s.mg.intEn
        errRing := if off = 0x30 ∧ ringOk v = true then ringBits v else s.mg.errRing
        errRd := if off = 0x38 then v.extractLsb' 32 32 else s.mg.errRd
        telRing := if off = 0x40 ∧ ringOk v = true then ringBits v else s.mg.telRing
        telRd := if off = 0x48 then v.extractLsb' 32 32 else s.mg.telRd
        pwrLimit := if off = 0x50 ∧ 700 ≤ v.toNat ∧ v.toNat ≤ 1400 then v.toNat else s.mg.pwrLimit
        errThresh := if off = 0x58 ∧ 1 ≤ v.toNat ∧ v.toNat ≤ 255 then v.toNat else s.mg.errThresh
        cmd := cmdWritten s.mg.cmd off v }
      cmdQ := if off = 0x120 ∧ s.cmdQ.length < 64 then s.cmdQ ++ [msgOf s.mg.cmd] else s.cmdQ
      rspQ := if off = 0x160 then s.rspQ.tail else s.rspQ } := by
  unfold State.mgWrite
  dsimp only
  split
  · simp [cmdWritten_of_ne]
  · simp [cmdWritten_of_ne]
  · split
    · next hr => simp [hr, h, writeErrors_of_none, cmdWritten_of_ne]
    · next hr => simp [hr, cmdWritten_of_ne]
  · simp [h, writeErrors_of_none, cmdWritten_of_ne]
  · split
    · next hr => simp [hr, cmdWritten_of_ne]
    · next hr => simp [hr, cmdWritten_of_ne]
  · simp [cmdWritten_of_ne]
  · split
    · next hr => simp [by simpa using hr, cmdWritten_of_ne]
    · next hr =>
      have hn : ¬ (700 ≤ v.toNat ∧ v.toNat ≤ 1400) := fun hc => hr (by simp [hc])
      simp [hn, cmdWritten_of_ne]
  · split
    · next hr => simp [by simpa using hr, cmdWritten_of_ne]
    · next hr =>
      have hn : ¬ (1 ≤ v.toNat ∧ v.toNat ≤ 255) := fun hc => hr (by simp [hc])
      simp [hn, cmdWritten_of_ne]
  · split
    · next hr => simp [hr, Nat.not_lt.2 hr, cmdWritten_of_ne]
    · next hr => simp [hr, Nat.not_le.1 hr, cmdWritten_of_ne]
  · simp [State.popResponse, cmdWritten_of_ne]
  · next h20 h28 h30 h38 h40 h48 h50 h58 h120 h160 =>
    have hne {n : Nat} (hn : off = n → False) : (off = n) = False := eq_false hn
    simp only [hne h20, hne h28, hne h30, hne h38, hne h40, hne h48, hne h50, hne h58, hne h120, hne h160, false_and, if_false,
      cmdWritten]
    split <;> rfl

end Sys2Proof.Machine

namespace Sys2Proof.Claims

open Sys2Proof Sys2Proof.Machine

/-- R475: `ATTEST` in its two cases. -/
theorem attest_answers {s : State} {m : Msg} (h : s.commandReady m 0x53 6 = true) :
    let a := argN m 8 8
    (a % 16 ≠ 0 → Refused s (.attest m) m 6 .badArg) ∧
    (a % 16 = 0 → Quiet s → (∀ k im, tget s.trust.running k = some im → im.digest.length = 48) →
      ∃ t sig, exec (.attest m) s = .next t ∧ Answered s t m 6 .ok 0 ∧ sig.length = 96 ∧
        t.peek a 720 = s.reportBytes (argN m 16 16) ++ sig ∧ (∀ x, x < a ∨ a + 720 ≤ x → t.byte x = s.byte x) ∧
        field (t.peek a 720) 0 4 = 0x54414B39 ∧ field (t.peek a 720) 8 16 = argN m 16 16 ∧
        field (t.peek a 720) 24 8 = s.mg.status % 2 ^ 64) := by
  intro a
  obtain ⟨hbad, hok⟩ := exec_attest h
  refine ⟨fun ha => refused_of_respond (hbad ha), fun ha hq hd => ?_⟩
  have hqu : Quiet (s.takeCommand m 6) := fun l => (takeCommand_holders s m 6 l).trans (hq l)
  obtain ⟨hpeek, hout, hrsp, hmg⟩ := pwrite_attestation hqu a (argN m 16 16) (by simpa using hd)
  have hexec := hok ha
  rw [takeCommand_attestation] at hpeek hout hrsp hmg
  rw [takeCommand_reportBytes] at hpeek
  generalize (s.takeCommand m 6).pwrite a (s.attestation (argN m 16 16)) = w at hexec hpeek hout hrsp hmg
  have hnonce : argN m 16 16 % 2 ^ 128 = argN m 16 16 := Nat.mod_mod _ _
  refine ⟨_, (s.takeCommand m 6).reportSig (argN m 16 16), hexec,
    answered_respond .ok 0 (hrsp.trans (takeCommand_rspQ s m 6)) (by rw [hmg, takeCommand_mg]), length_reportSig _ _, ?_⟩
  rw [peek_reported, hpeek]
  obtain ⟨h0, h8, h24⟩ := report_fields s (argN m 16 16) ((s.takeCommand m 6).reportSig (argN m 16 16))
  exact ⟨rfl, fun x hx => (hout x hx).trans (takeCommand_byte s m 6 x), h0, h8.trans hnonce, h24⟩

/-- R428: the next command of the mailbox is answered, stays, or joins its owner's FIFO. -/
theorem mailboxHead_routed {s : State} {m : Msg} {rest : List Msg} (h : s.cmdQ = m :: rest) :
    (unassigned m = true → s.rspQ.length < 64 → ∃ t, exec (.summitMailboxMessage m) s = .next t ∧ t.cmdQ = rest ∧
      Answered s t m 0 .badArg 0) ∧
    ∀ k, unassigned m = false → owner m.opc.toNat = some k →
      (k = 0 → exec (.summitMailboxMessage m) s = .next s) ∧
      (k ≠ 0 → (s.fifo k).length < 32 → ∃ t, exec (.summitMailboxMessage m) s = .next t ∧ t.cmdQ = rest ∧
        t.fifo k = s.fifo k ++ [{ m with src := 8, dst := BitVec.ofNat 8 k }] ∧ ∀ j, j ≠ k → t.fifo j = s.fifo j) ∧
      (k ≠ 0 → 32 ≤ (s.fifo k).length → exec (.summitMailboxMessage m) s = .next s) := by
  obtain ⟨hnone, hzero, hsucc⟩ := exec_mailbox_head h
  refine ⟨fun hu hr => ⟨_, hnone hu hr, rfl, answered_respond .badArg 0 rfl rfl⟩, fun k _ ho => ?_⟩
  cases k with
  | zero => exact ⟨fun _ => hzero ho, fun hk => absurd rfl hk, fun hk => absurd rfl hk⟩
  | succ k =>
    obtain ⟨hroom, hfull⟩ := hsucc k ho
    exact ⟨(absurd · k.succ_ne_zero), fun _ hl => ⟨_, hroom hl, rfl, (fifo_tset s _ _ _).trans (if_pos rfl),
      fun j hj => (fifo_tset s _ _ _).trans (if_neg hj)⟩, fun _ hl => hfull hl⟩

/-- R474: the end of the write of a staged image. -/
theorem stageWriteComplete_stores {s : State} {k : Nat} {bs : List Byte} (h : s.trust.staging = some (k, bs)) :
    ∃ t, exec .stageWriteComplete s = .next t ∧ t = { s with trust := t.trust } ∧ t.trust.staging = none ∧
      tget t.trust.flashB k = some bs ∧ t.trust.flashA = s.trust.flashA ∧ k ∈ t.trust.staged ∧
      ∀ j, j ≠ k → tget t.trust.flashB j = tget s.trust.flashB j := by
  have he : exec .stageWriteComplete s = .next { s with trust := { s.trust with
      staging := none, flashB := tset s.trust.flashB k bs,
      staged := if s.trust.staged.contains k then s.trust.staged else s.trust.staged ++ [k] } } := by
    simp only [show exec .stageWriteComplete s = execStageWriteComplete s from rfl, execStageWriteComplete, h]
  refine ⟨_, he, rfl, rfl, tget_tset_same _ _ _, rfl, ?_, fun j hj => tget_tset_ne _ _ hj⟩
  dsimp only
  split
  · next hk => simpa using hk
  · simp

/-- Settles O50: each command, message and register write as its own lemma says it. -/
theorem trustAndManagement : Obligations.TrustAndManagement := by
  unfold Obligations.TrustAndManagement
  refine ⟨fun s m h => ?_, fun s k bs => stageWriteComplete_stores, fun s m h => ?_, fun s m h => ?_,
    fun s m => attest_answers, fun s m rest => mailboxHead_routed, fun s m h => ?_, fun s off v h => ?_, fun s => rfl⟩
  case refine_1 =>
    obtain ⟨hbad, hok⟩ := exec_fwstage h
    refine ⟨fun hb => refused_of_respond (hbad hb), fun ha hz => ?_⟩
    obtain ⟨hbusy, hdenied, hstaged⟩ := hok ha hz
    exact ⟨fun hs => refused_of_respond (hbusy hs), fun hs hg => refused_of_respond (hdenied hs hg), fun hs hg =>
      ⟨_, hstaged hs hg, answered_respond .ok 0 (takeCommand_rspQ s m 6) (by rw [takeCommand_mg]), rfl,
        takeCommand_mem s m 6⟩⟩
  case refine_2 =>
    obtain ⟨hbad, hnone, hok⟩ := exec_fwactivate h
    exact ⟨fun hb => refused_of_respond (hbad hb), fun hz hk => refused_of_respond (hnone hz hk), fun hz hk =>
      ⟨_, hok hz hk, answered_respond .ok 0 (takeCommand_rspQ s m 6) (by rw [takeCommand_mg]),
        (tget_tput _ _ _ _).trans (if_pos rfl), (tget_tput _ _ _ _).trans (if_pos rfl), by
          simp [State.respond, Trust.activated], rfl, fun j hj =>
        ⟨(tget_tput _ _ _ _).trans (if_neg hj), (tget_tput _ _ _ _).trans (if_neg hj)⟩⟩⟩
  case refine_3 =>
    obtain ⟨hbad, hdenied, hok⟩ := exec_fwfuse h
    exact ⟨fun hi => refused_of_respond (hbad hi), fun hi hr => refused_of_respond (hdenied hi hr), fun hi ha hf =>
      ⟨_, hok hi ha hf, answered_respond .ok 0 (takeCommand_rspQ s m 6) (by rw [takeCommand_mg]), fun j =>
        tget_tset _ _ _ _⟩⟩
  case refine_4 =>
    obtain ⟨hjoin, hwait⟩ := exec_mailbox_core h
    exact ⟨fun hs hd hl => ⟨_, hjoin hs hd hl, rfl, (fifo_tset s _ _ _).trans (if_pos rfl),
      fun j hj => (fifo_tset s _ _ _).trans (if_neg hj)⟩, hwait⟩
  case refine_5 =>
    refine ⟨s.mgWrite off v, rfl, ?_⟩
    rw [mgWrite_eq h]
    exact ⟨rfl, rfl, rfl, rfl, rfl, rfl, rfl, rfl, rfl, rfl, rfl, getLsbD_cmdWritten s.mg.cmd off v⟩

end Sys2Proof.Claims
end

section
/-! PROOF. The special functions: their place in the queue, their entry into the unit and the write of their results (R77,
R287, R208, R313). -/

namespace Sys2Proof.Machine

open Sys2Proof Sys2Proof.Claims

/-! ## Flags of several lanes (R208) -/

theorem bits_or (a b : Flags) : (a.or b).bits = a.bits ||| b.bits := by
  obtain ⟨ai, ao, as⟩ := a
  obtain ⟨bi, bo, bs⟩ := b
  revert ai ao as bi bo bs
  decide

/-- The bits of the flags of several lanes are the union of their bits. -/
theorem bits_all (l : List Flags) : (Flags.all l).bits = (l.map Flags.bits).foldl (· ||| ·) 0 := by
  have main : ∀ a : Flags, (l.foldl Flags.or a).bits = (l.map Flags.bits).foldl (· ||| ·) a.bits := by
    induction l with
    | nil => exact fun _ => rfl
    | cons b r ih => exact fun a => by rw [List.foldl_cons, ih, bits_or]; rfl
  exact main {}

/-! ## Reserving a pending result (R35, R78) -/

/-- A field that results do not reach is as before a shift of the window. -/
theorem pushAll_of_stem {α : Type} (g : Warp → α) (hs : ∀ w : Warp, g w = g w.stem) (w : Warp) (l : Nat) (vs : List W32) :
    g (w.pushAll l vs) = g w := by
  rw [hs, stem_pushAll, ← hs]

/-- A field that neither the window's entries nor the list of pending results touch is as before. -/
theorem reserve_field {α : Type} (g : Warp → α) (w : Warp) (p : Pend) (window : Bool)
    (hpush : ∀ (w : Warp) (l : Nat) (vs : List W32), g (w.pushAll l vs) = g w)
    (hpend : ∀ (w : Warp) (ps : List Pend) (n : Nat), g { w with pend := ps, nextSeq := n } = g w) :
    g (w.reserve p window) = g w := by
  cases window with
  | false => exact hpend w _ _
  | true => exact (hpend _ _ _).trans (foldl_keeps g _ (fun b l => hpush b l _) _ _)

/-- The pending result joins those of the warp under the next serial number. -/
theorem reserve_pend (w : Warp) (p : Pend) (window : Bool) :
    ∃ q, (w.reserve p window).pend = w.pend ++ [q] ∧ q = { p with seq := w.nextSeq, slots := q.slots, emu := q.emu } := by
  cases window with
  | false => exact ⟨_, rfl, rfl⟩
  | true =>
    simp only [Warp.reserve, if_true]
    rw [foldl_keeps Warp.pend _ fun _ _ => pushAll_of_stem Warp.pend (fun _ => rfl) _ _ _,
      foldl_keeps Warp.nextSeq _ fun _ _ => pushAll_of_stem Warp.nextSeq (fun _ => rfl) _ _ _]
    exact ⟨_, rfl, rfl⟩

/-! ## Completion -/

/-- A field that completion does not touch is as the effect of the word left it. -/
theorem finished_field {α : Type} (g : Warp → α) (s : State) (c : Ctx) (f : Fmt) (on lanes : Mask) (w : Warp)
    (hg : ∀ v w : Warp, g { w with pc := v.pc, loops := v.loops, rdCnt := v.rdCnt, qseal := v.qseal, dirty := v.dirty,
                                   issues := v.issues, laneIssue := v.laneIssue, lastIssue := v.lastIssue,
                                   stallUntil := v.stallUntil, yielded := v.yielded } = g w) :
    g (s.finished c f on lanes w) = g w := by
  rw [finished_frame s c f on lanes w]
  exact hg _ _

/-- R13, R313: the active lanes go on where the effect of the word left program counters and loops alone. -/
theorem advanced_finish {s u : State} {c : Ctx} {f : Fmt} {on : Mask} {w : Warp} (hw : s.warp? c.wid = some c.w)
    (hpc : w.pc = c.w.pc) (hloops : w.loops = c.w.loops) (hl : c.noLoopEnd) :
    s.Advanced (u.finish c f on c.lanes w) c := by
  intro l h32
  have ht : (u.finish c f on c.lanes w).warp? c.wid = some (u.finished c f on c.lanes w) := by
    rw [finish_warp?, if_pos rfl]
  simp only [State.lanePc, hw, ht, Option.map_some, Option.getD_some]
  rw [finished_pc u c f on c.lanes w l h32 (by rw [hloops]; exact hl), hpc]

theorem finish_part (s : State) (c : Ctx) (f : Fmt) (on lanes : Mask) (w : Warp) (k : Nat) :
    (s.finish c f on lanes w).part k = s.part k := by
  rw [finish_eq]
  rfl

/-! ## Joining the queue (R77, R287) -/

/-- R77: the number of operations of a queue that have not entered the unit. -/
def Partition.sfuWaiting (p : Partition) : Nat := (p.sfu.filter fun e => e.entered.isNone).length

theorem sfuRoom_eq (p : Partition) : p.sfuRoom = decide (p.sfuWaiting < 16) := rfl

/-- The pending result of a special function: the values and flags of the accessing lanes. -/
def State.sfuPend (s : State) (c : Ctx) (f : Fmt) (on : Mask) (imm : BitVec 20) (op : SfuOp) : Pend :=
  let val := fun l => sfuEval op (s.src c imm (.flt 32) f.a l)
  { Pend.new (.sfu (((accessLanes f.d on).map fun l => (val l).2.bits).foldl (· ||| ·) 0)) 1 on f.d 1 c.pc with
    got := (accessLanes f.d on).map fun l => (l, [(val l).1]) }

/-- The state with a special function at the end of its partition's queue. -/
def State.sfuQueued (s : State) (c : Ctx) (op : SfuOp) : State :=
  s.modPart c.part fun q => { q with sfu := q.sfu ++ [⟨c.wid, c.w.nextSeq, SfuOp.slow op, s.now, none⟩] }

section
variable {s : State} {c : Ctx} {f : Fmt} {on : Mask} {imm : BitVec 20} {op : SfuOp}

/-- R77, R287: a special function that executes waits for a place, passes with no lane on, or joins the queue. -/
theorem exec_sfu (h : s.Executes (.sfu f imm op) c f on) :
    exec (.sfu f imm op) s = .next (
      if 16 ≤ (s.part c.part).sfuWaiting then s
      else if on = 0 then s.finish c f on c.lanes c.w
      else (s.sfuQueued c op).finish c f on c.lanes (c.w.reserve (s.sfuPend c f on imm op) (!f.d.isUni))) := by
  change execSfu f imm op s = _
  refine (run_executes h _).trans (congrArg Host.Outcome.next ?_)
  by_cases hf : 16 ≤ (s.part c.part).sfuWaiting
  · simp [sfuRoom_eq, hf, Nat.not_lt.2 hf]
  · simp [sfuRoom_eq, hf, Nat.not_le.1 hf, State.sfuPend, State.sfuQueued, accessLanes, bits_all, Function.comp_def]

end

/-! ## Entering the unit (R77) -/

/-- The cycle from which an operation may enter the unit: it has issued, and 4 cycles have passed since the one ahead. -/
def Partition.sfuDue (p : Partition) (e : SfuEnt) : Nat :=
  match p.lastEnter with
  | some c => max e.issued (c + 4)
  | none => e.issued

/-- The partition with an operation of its queue in the unit since `due`. -/
def Partition.sfuEnter (p : Partition) (e : SfuEnt) (due : Nat) : Partition :=
  { p with sfu := p.sfu.map fun x => if x.wid == e.wid && x.pend == e.pend then { x with entered := some due } else x
           lastEnter := some due }

section
variable {s : State} {p : Nat} {e : SfuEnt} {pre rest : List SfuEnt}

/-- R77: next into the unit is the operation behind those that have entered it. -/
theorem find_waiting (hpre : ∀ x, x ∈ pre → x.entered ≠ none) (he : e.entered = none) :
    (pre ++ e :: rest).find? (·.entered.isNone) = some e := by
  rw [List.find?_eq_some_iff_append]
  exact ⟨by simp [he], pre, rest, rfl, fun x hx => by simpa [Option.ne_none_iff_isSome] using hpre x hx⟩

theorem exec_sfuQueueEntry (hf : (s.part p).sfu.find? (·.entered.isNone) = some e) :
    exec (.sfuQueueEntry p) s =
      if s.now < (s.part p).sfuDue e then .next s
      else .next (s.modPart p fun q => q.sfuEnter e ((s.part p).sfuDue e)) := by
  change execSfuQueueEntry p s = _
  unfold execSfuQueueEntry
  simp only [hf]
  rfl

/-- Where no other operation of the queue has its name, only the operation itself is marked as entered. -/
theorem sfuEnter_sfu {q : Partition} (hq : q.sfu = pre ++ e :: rest)
    (hne : ∀ x, x ∈ pre ++ rest → ¬(x.wid = e.wid ∧ x.pend = e.pend)) (due : Nat) :
    (q.sfuEnter e due).sfu = pre ++ { e with entered := some due } :: rest := by
  have hkeep (l : List SfuEnt) (hl : ∀ x, x ∈ l → x ∈ pre ++ rest) :
      l.map (fun x => if x.wid == e.wid && x.pend == e.pend then { x with entered := some due } else x) = l := by
    refine (List.map_congr_left fun x hx => if_neg ?_).trans (List.map_id l)
    simpa using hne x (hl x hx)
  simp only [Partition.sfuEnter, hq, List.map_append, List.map_cons]
  rw [hkeep pre fun x hx => List.mem_append_left _ hx, hkeep rest fun x hx => List.mem_append_right _ hx]
  simp

end

/-! ## Writing a pending result (R35, R78) -/

/-- A lane's words of a result go to a vector destination. -/
def Warp.toLane (w : Warp) (d : Dst) (l : Nat) (vs : List W32) : Warp :=
  match d with
  | .vec i => w.setVecs i.toNat l vs
  | _ => w

/-- The first lane's words of a result go to a uniform destination. -/
def Warp.toUni (w : Warp) (d : Dst) (got : Tbl (List W32)) : Warp :=
  match d with
  | .uni i => w.setUnis i.toNat ((got.head?.map (·.2)).getD [])
  | _ => w

/-- A lane's words of a result arrive at the window entries that were assigned to them, where there are any. -/
def Warp.fillSlots (w : Warp) (l : Nat) (first : Option Nat) (vs : List W32) : Warp :=
  match first with
  | none => w
  | some n => ((List.range vs.length).zip vs).foldl (fun w y => w.fillSlot l (n + y.1) y.2) w

theorem writePend_eq (w : Warp) (p : Pend) :
    w.writePend p = p.got.foldl (fun w x => (w.toLane p.dst x.1 x.2).fillSlots x.1 (tget p.slots x.1) x.2)
      (w.toUni p.dst p.got) := rfl

/-- Window entries that arrive touch the window and its dirty bit only. -/
theorem fillSlots_field {α : Type} (g : Warp → α) (w : Warp) (l : Nat) (first : Option Nat) (vs : List W32)
    (hg : ∀ (w : Warp) (win : Cells 32) (dirty : Dirty), g { w with win := win, dirty := dirty } = g w) :
    g (w.fillSlots l first vs) = g w := by
  cases first with
  | none => rfl
  | some n =>
    refine foldl_keeps g _ (fun b y => ?_) _ _
    unfold Warp.fillSlot
    dsimp only
    split
    · exact hg _ _ _
    · rfl

/-- A field that neither the destination nor the window's entries touch is as before. -/
theorem writePend_field {α : Type} (g : Warp → α) (w : Warp) (p : Pend)
    (hwin : ∀ (w : Warp) (win : Cells 32) (dirty : Dirty), g { w with win := win, dirty := dirty } = g w)
    (huni : g (w.toUni p.dst p.got) = g w) (hlane : ∀ (w : Warp) (l : Nat) (vs : List W32), g (w.toLane p.dst l vs) = g w) :
    g (w.writePend p) = g w := by
  rw [writePend_eq]
  exact (foldl_keeps g _ (fun b x => (fillSlots_field g _ _ _ _ hwin).trans (hlane b _ _)) _ _).trans huni

theorem writePend_fstat (w : Warp) (p : Pend) : (w.writePend p).fstat = w.fstat := by
  refine writePend_field Warp.fstat w p (fun _ _ _ => rfl) ?_ fun w l vs => ?_
  · unfold Warp.toUni; split <;> simp
  · unfold Warp.toLane; split <;> simp

theorem writePend_stem (w : Warp) (p : Pend) : (w.writePend p).stem = w.stem := by
  refine writePend_field Warp.stem w p (fun _ _ _ => rfl) ?_ fun w l vs => ?_
  · unfold Warp.toUni; split <;> simp
  · unfold Warp.toLane; split <;> simp

theorem writePend_of_stem {α : Type} (g : Warp → α) (hs : ∀ w : Warp, g w = g w.stem) (w : Warp) (p : Pend) :
    g (w.writePend p) = g w := by
  rw [hs, writePend_stem, ← hs]

/-- A destination that is no vector register leaves the vector registers alone. -/
theorem writePend_vec_of_ne (w : Warp) {p : Pend} (hd : ∀ i, p.dst ≠ .vec i) : (w.writePend p).vec = w.vec := by
  refine writePend_field Warp.vec w p (fun _ _ _ => rfl) ?_ fun w l vs => ?_
  · unfold Warp.toUni; split <;> simp
  · unfold Warp.toLane
    split
    · next i hi => exact absurd hi (hd i)
    · rfl

/-- A result reaches the uniform registers at once, for a uniform destination. -/
theorem writePend_uni (w : Warp) (p : Pend) : (w.writePend p).uni = (w.toUni p.dst p.got).uni := by
  rw [writePend_eq]
  refine foldl_keeps Warp.uni _ (fun b x => (fillSlots_field Warp.uni _ _ _ _ fun _ _ _ => rfl).trans ?_) _ _
  unfold Warp.toLane
  split <;> simp

theorem writePend_uni_of_ne (w : Warp) {p : Pend} (hd : ∀ i, p.dst ≠ .uni i) : (w.writePend p).uni = w.uni := by
  rw [writePend_uni]
  unfold Warp.toUni
  split
  · next i hi => exact absurd hi (hd i)
  · rfl

/-- R22: the uniform registers after a result of one lane. -/
theorem cget_writePend_uni (w : Warp) {p : Pend} {d : BitVec 6} {l : Nat} {vs : List W32} (hd : p.dst = .uni d)
    (hg : p.got = [(l, vs)]) (r : Nat) :
    cget (w.writePend p).uni r =
      if d.toNat ≤ r ∧ r - d.toNat < vs.length then vs.getD (r - d.toNat) 0 else cget w.uni r := by
  rw [writePend_uni, hd, hg]
  refine (cget_setUnis w d.toNat vs r).trans ?_
  split
  · next h => exact List.getElem_eq_getD 0
  · rfl

theorem tget_of_notMem {α : Type} {t : Tbl α} {k : Nat} (h : k ∉ t.map (·.1)) : tget t k = none := by
  induction t with
  | nil => rfl
  | cons x r ih =>
    rw [List.map_cons, List.mem_cons, not_or] at h
    exact (if_neg (Ne.symm h.1)).trans (ih h.2)

/-- R23: the vector registers after a result: each lane that has words has them from its destination on. -/
theorem cget_writePend_vec (w : Warp) {p : Pend} {d : BitVec 8} (hd : p.dst = .vec d) (hn : (p.got.map (·.1)).Nodup)
    (hlt : ∀ x, x ∈ p.got → x.1 < 32) (r l : Nat) (hl : l < 32) :
    cget (w.writePend p).vec (r * 32 + l) =
      match tget p.got l with
      | some vs => if d.toNat ≤ r ∧ r - d.toNat < vs.length then vs.getD (r - d.toNat) 0 else cget w.vec (r * 32 + l)
      | none => cget w.vec (r * 32 + l) := by
  rw [writePend_eq, hd]
  change cget (p.got.foldl _ w).vec (r * 32 + l) = _
  generalize p.got = got at hn hlt ⊢
  induction got generalizing w with
  | nil => rfl
  | cons x rest ih =>
    obtain ⟨k, vs⟩ := x
    rw [List.map_cons, List.nodup_cons] at hn
    obtain ⟨hk, hn⟩ := hn
    have hstep : cget ((w.toLane (.vec d) k vs).fillSlots k (tget p.slots k) vs).vec (r * 32 + l) =
        if l = k ∧ d.toNat ≤ r ∧ r - d.toNat < vs.length then vs.getD (r - d.toNat) 0 else cget w.vec (r * 32 + l) := by
      rw [fillSlots_field Warp.vec _ _ _ _ fun _ _ _ => rfl]
      refine (cget_setVecs w d.toNat k vs r l (hlt _ List.mem_cons_self) hl).trans ?_
      split
      · next h => exact List.getElem_eq_getD 0
      · rfl
    rw [List.foldl_cons, ih _ hn fun y hy => hlt y (List.mem_cons_of_mem _ hy), hstep, tget_cons]
    by_cases hkl : k = l
    · subst hkl
      simp [tget_of_notMem hk]
    · simp [hkl, Ne.symm hkl]

/-! ## The result of a special function (R77) -/

/-- The warp after a special function's result with its flags. -/
def Warp.sfuWritten (w : Warp) (q : Pend) (fl : BitVec 3) : Warp :=
  { w.writePend q with pend := w.pend.filter (·.seq != q.seq), fstat := w.fstat ||| fl }

/-- The first cycle in which an operation that entered the unit at `at_` has its result. -/
def SfuEnt.ends (e : SfuEnt) (at_ : Nat) : Nat := at_ + (if e.slow then 28 else 20)

/-- The partition without an operation. -/
def Partition.sfuLeave (p : Partition) (e : SfuEnt) : Partition :=
  { p with sfu := p.sfu.filter fun x => !(x.wid == e.wid && x.pend == e.pend) }

section
variable {s : State} {p k : Nat} {e : SfuEnt} {at_ : Nat}

theorem exec_sfuResultWrite_busy (he : (s.part p).sfu[k]? = some e) (ha : e.entered = some at_) (hn : s.now < e.ends at_) :
    exec (.sfuResultWrite p k) s = .next s := by
  change execSfuResultWrite p k s = _
  unfold execSfuResultWrite
  simp only [he, ha]
  exact if_pos hn

/-- The pending result of the operation is the one that its serial number finds. -/
theorem find_pend {ps : List Pend} {q : Pend} {n : Nat} (hq : q ∈ ps) (hu : ∀ x, x ∈ ps → x.seq = q.seq → x = q)
    (hn : q.seq = n) : ps.find? (·.seq == n) = some q := by
  subst hn
  obtain ⟨x, hx⟩ := Option.isSome_iff_exists.1 (List.find?_isSome.2 ⟨q, hq, by simp⟩ : (ps.find? (·.seq == q.seq)).isSome)
  rw [hx, hu x (List.mem_of_find?_eq_some hx) (by simpa using List.find?_some hx)]

theorem exec_sfuResultWrite_ends {w : Warp} {q : Pend} {fl : BitVec 3} (he : (s.part p).sfu[k]? = some e)
    (ha : e.entered = some at_) (hn : e.ends at_ ≤ s.now) (hw : s.warp? e.wid = some w) (hq : q ∈ w.pend)
    (hu : ∀ x, x ∈ w.pend → x.seq = q.seq → x = q) (hs : q.seq = e.pend) (hk : q.kind = .sfu fl) :
    exec (.sfuResultWrite p k) s =
      .next ((s.modPart p fun r => r.sfuLeave e).setWarp e.wid (w.sfuWritten q fl)) := by
  change execSfuResultWrite p k s = _
  unfold execSfuResultWrite
  simp only [he, ha]
  refine (if_neg (Nat.not_lt.2 hn)).trans (congrArg Host.Outcome.next ?_)
  rw [modWarp_eq_setWarp (t := s.modPart p _) hw]
  have hp : (w.writePend q).pend = w.pend := writePend_of_stem Warp.pend (fun _ => rfl) w q
  simp only [find_pend hq hu hs, hk, hp, writePend_fstat, Warp.sfuWritten, hs]
  rfl

end

end Sys2Proof.Machine

namespace Sys2Proof.Claims

open Sys2Proof Sys2Proof.Machine

/-- R14, R77: a special function with no lane on. -/
theorem sfu_passes {s : State} {c : Ctx} {f : Fmt} {on : Mask} {imm : BitVec 20} {op : SfuOp}
    (h : s.Executes (.sfu f imm op) c f on) (hr : (s.part c.part).sfuWaiting < 16) (h0 : on = 0) :
    ∃ t, exec (.sfu f imm op) s = .next t ∧ s.OnlyWarp t c.wid ∧ (c.noLoopEnd → s.Advanced t c) ∧
      ∃ w, t.warp? c.wid = some w ∧ w.vec = c.w.vec ∧ w.uni = c.w.uni ∧ w.fstat = c.w.fstat ∧ w.pend = c.w.pend := by
  have he := exec_sfu h
  rw [if_neg (Nat.not_le.2 hr), if_pos h0] at he
  have hfin {α : Type} (g : Warp → α) := finished_field g s c f on c.lanes c.w
  exact ⟨_, he, finish_onlyWarp s c f on c.lanes c.w, advanced_finish (ctx_some h.ctx).1 rfl rfl, _,
    (finish_warp? s c f on c.lanes c.w c.wid).trans (if_pos rfl), hfin Warp.vec fun _ _ => rfl,
    hfin Warp.uni fun _ _ => rfl, hfin Warp.fstat fun _ _ => rfl, hfin Warp.pend fun _ _ => rfl⟩

/-- R77, R287: a special function that joins its partition's queue. -/
theorem sfu_joins {s : State} {c : Ctx} {f : Fmt} {on : Mask} {imm : BitVec 20} {op : SfuOp}
    (h : s.Executes (.sfu f imm op) c f on) (hr : (s.part c.part).sfuWaiting < 16) (h0 : on ≠ 0) :
    ∃ t w q, exec (.sfu f imm op) s = .next t ∧ t.warp? c.wid = some w ∧ w.pend = c.w.pend ++ [q] ∧
      q = { s.sfuPend c f on imm op with seq := c.w.nextSeq, slots := q.slots, emu := q.emu } ∧
      (t.part c.part).sfu = (s.part c.part).sfu ++ [⟨c.wid, c.w.nextSeq, SfuOp.slow op, s.now, none⟩] ∧
      w.vec = c.w.vec ∧ w.uni = c.w.uni ∧ w.fstat = c.w.fstat ∧ (c.noLoopEnd → s.Advanced t c) := by
  have hwarp := (ctx_some h.ctx).1
  have he := exec_sfu h
  rw [if_neg (Nat.not_le.2 hr), if_neg h0] at he
  obtain ⟨q, hp, hq⟩ := reserve_pend c.w (s.sfuPend c f on imm op) (!f.d.isUni)
  have hres {α : Type} (g : Warp → α) := reserve_field g c.w (s.sfuPend c f on imm op) (!f.d.isUni)
  generalize c.w.reserve (s.sfuPend c f on imm op) (!f.d.isUni) = v at he hp hres
  have hfin {α : Type} (g : Warp → α) := finished_field g (s.sfuQueued c op) c f on c.lanes v
  refine ⟨_, _, q, he, (finish_warp? _ c f on c.lanes v c.wid).trans (if_pos rfl),
    (hfin Warp.pend fun _ _ => rfl).trans hp, hq, ?_,
    (hfin Warp.vec fun _ _ => rfl).trans (hres Warp.vec pushAll_vec fun _ _ _ => rfl),
    (hfin Warp.uni fun _ _ => rfl).trans (hres Warp.uni pushAll_uni fun _ _ _ => rfl),
    (hfin Warp.fstat fun _ _ => rfl).trans (hres Warp.fstat pushAll_fstat fun _ _ _ => rfl),
    advanced_finish hwarp (hres Warp.pc (pushAll_of_stem _ fun _ => rfl) fun _ _ _ => rfl)
      (hres Warp.loops (pushAll_of_stem _ fun _ => rfl) fun _ _ _ => rfl)⟩
  rw [finish_part, State.sfuQueued, State.part_modPart, if_pos rfl]

/-- Settles O19: issue, entry and result of a special function, each as its own lemma says it. -/
theorem specialFunctions : Obligations.SpecialFunctions := by
  unfold Obligations.SpecialFunctions
  refine ⟨fun s c f on imm op h =>
      ⟨fun hf => (exec_sfu h).trans (congrArg _ (if_pos hf)), sfu_passes h, fun hr h0 => ?joins⟩,
    fun s p e pre rest hq hpre he hne => ?entry, fun s p k e at_ w q fl he ha =>
      ⟨fun hn => exec_sfuResultWrite_busy he ha hn, fun hn hw hq hu hs hk hnd hlt => ?write⟩⟩
  case joins =>
    obtain ⟨t, w, q, hx, hw, hp, hq, hkept⟩ := sfu_joins h hr h0
    exact ⟨t, w, q, hx, hw, hp, congrArg Pend.seq hq, congrArg Pend.ctr hq, congrArg Pend.dst hq, congrArg Pend.lanes hq,
      congrArg Pend.got hq, congrArg Pend.kind hq, hkept⟩
  case entry =>
    have hx := exec_sfuQueueEntry (s := s) (p := p) (hq ▸ find_waiting hpre he)
    refine ⟨fun hn => hx.trans (if_pos hn), fun hn => ⟨_, hx.trans (if_neg (Nat.not_lt.2 hn)), ?_, ?_, rfl⟩⟩
    · rw [State.part_modPart, if_pos rfl]; exact sfuEnter_sfu hq hne _
    · rw [State.part_modPart, if_pos rfl]; rfl
  case write =>
    have hx := exec_sfuResultWrite_ends he ha hn hw hq hu hs hk
    have hv : ((s.modPart p fun r => r.sfuLeave e).setWarp e.wid (w.sfuWritten q fl)).warp? e.wid =
        some (w.sfuWritten q fl) := tget_tset_same _ _ _
    refine ⟨_, _, hx, hv, rfl, rfl, ?_, fun d hd => ⟨writePend_uni_of_ne w (by simp [hd]), fun r l hl => ?_⟩,
      fun d l vs hd hg => ⟨writePend_vec_of_ne w (by simp [hd]), fun r => ?_⟩,
      fun hd => ⟨writePend_vec_of_ne w (by simp [hd]), writePend_uni_of_ne w (by simp [hd])⟩, rfl⟩
    · exact congrArg Partition.sfu ((State.part_modPart s p p fun r => r.sfuLeave e).trans (if_pos rfl))
    · simp only [State.vreg, hv, hw, Option.map_some, Option.getD_some]
      exact cget_writePend_vec w hd hnd hlt r l hl
    · simp only [State.ureg, hv, hw, Option.map_some, Option.getD_some]
      exact cget_writePend_uni w hd hg r

end Sys2Proof.Claims
end
